-- ==== Sys2Proof/Word.lean ====
section
/-! DEFINITION. The word types of the Nymesh M9 (spec/00_scope.md R2, spec/01_sequential_machine.md R13). -/

namespace Sys2Proof

/-- A 64-bit register value (R13). -/
abbrev Word := BitVec 64

/-- A byte of memory (R2). -/
abbrev Byte := BitVec 8

/-- A general or vector register number (R41). -/
abbrev Reg := BitVec 5

end Sys2Proof
end

