-- ==== Sys2Proof/Config.lean ====
section
/-! DEFINITION. What the spec leaves open: constants without a body, so that nothing can evaluate them and a
claim holds whatever they are (DESIGN CHOICE, log entries 3, 8, 9, 10, 11, 25). -/

namespace Sys2Proof

/-- A free value for the n-th use (DESIGN CHOICE, log 3): the counter `freeCtr` of the state is the argument. -/
opaque Config.freeWord : Nat → Word

/-- Whether the n-th stale parcel is fetched in its old value (R29; DESIGN CHOICE, log 8). -/
opaque Config.fetchOld : Nat → Bool

/-- Which order R366 leaves open among the children of a tet, a prism or a pyramid, and among the local faces of those that
are no smaller copy of their parent (DESIGN CHOICE, log 9): for a cell type and a place, the number of the order. -/
opaque Config.childOrder : Nat → Nat → Nat

/-- R366 and R370 give no relative orientation of two faces that meet and are not opposite faces of one axis of two
hexes, nor bottom and top of two prisms (DESIGN CHOICE, log 9): which turn of one face's subfaces gives the other's, by the keys and local faces of both cells. -/
opaque Config.faceTurn : Word → Nat → Word → Nat → Nat

/-- What soft errors of the array add to the sum of products of R238 in the n-th MMUL, for a macro and a row at
8 * macro + row: they are the outside world's (DESIGN CHOICE, log 25). -/
opaque Config.arrayError : Nat → Nat → BitVec 32

/-- The fuses (R531; DESIGN CHOICE, log 10): the SHA-384 digest in a slot, 0 or 1, of a scheme, 0 or 1, and the security
counter. -/
opaque Config.fuseDigest : Nat → Nat → List Byte
opaque Config.fuseCounter : Nat

/-- The signatures of an attestation report (R532; DESIGN CHOICE, log 10): over the report's bytes, for scheme 0 or 1. -/
opaque Config.attestSignature : Nat → List Byte → List Byte

/-- The bytes of the ROM, which a report measures, and those of the version of a report (R532; DESIGN CHOICE, log 10). -/
opaque Config.romImage : List Byte
opaque Config.reportVersion : List Byte

/-- The layout of the telemetry registers behind 0xF0_0C00_0100 (R535; DESIGN CHOICE, log 11): which sample an offset reads. -/
opaque Config.telemetryAt : Nat → Nat

end Sys2Proof
end

