-- ==== Sys2Proof/Syntax.lean ====
section
/-! DEFINITION. The instruction set: one constructor per row of spec/opcode_table.json.
An encoded row's constructor carries the row's fields, lowest bits first, each a bit vector of its width.
An event row has no encoding; its constructor carries the data and the choices that the outside world brings. -/

namespace Sys2Proof

/-- A register operand beside the mask field of its word, where R200 asks that the field be 0. -/
structure MaskedReg where
  reg : BitVec 5
  mask : BitVec 3
  deriving DecidableEq, Repr

/-- Where a translation is made (R290): a die, or H as die 4, and a unit of it: a core, or 128 and a quad. -/
structure MmuPlace where
  die : Nat
  unit : Nat
  deriving DecidableEq, Repr

/-- An issued instruction (R449): its pc and its word, and VTYPE, the width G and the pending prefix at its issue (R162). -/
structure IssuedInstr where
  pc : BitVec 64
  word : BitVec 32
  vtype : BitVec 8
  grant : Nat
  pfx : Option (BitVec 25)
  deriving DecidableEq, Repr

/-- What saving the registers under ECC meets when a lane is spared (R455): how many correctable words, and the TAGs of the harts
with an uncorrectable word in the failed lane's storage. -/
structure SpareSave where
  corrected : Nat
  bad : List (BitVec 32)
  deriving DecidableEq, Repr

/-- What a fabric frame carries (R490): the ranks of its source and destination, its sequence number and its words. -/
structure FabricFrame where
  src : Nat
  dst : Nat
  seq : Nat
  body : List Nat
  deriving DecidableEq, Repr

/-- The steps of the machine: the encoded instructions (spec/02 R39-R64) and the events (spec/95). -/
inductive Instr where
  /-- VADD (R177). Vector integer add. -/
  | vadd (d : BitVec 5) (a : BitVec 5) (b : BitVec 5) (k : BitVec 3) (s : BitVec 1)
  /-- VSUB (R177). Vector integer subtract. -/
  | vsub (d : BitVec 5) (a : BitVec 5) (b : BitVec 5) (k : BitVec 3) (s : BitVec 1)
  /-- VRSUB (R177). Vector reverse subtract. -/
  | vrsub (d : BitVec 5) (a : BitVec 5) (b : BitVec 5) (k : BitVec 3) (s : BitVec 1)
  /-- VMUL (R177). Vector multiply, low bits. -/
  | vmul (d : BitVec 5) (a : BitVec 5) (b : BitVec 5) (k : BitVec 3) (s : BitVec 1)
  /-- VMULH (R177). Vector signed multiply, high bits. -/
  | vmulh (d : BitVec 5) (a : BitVec 5) (b : BitVec 5) (k : BitVec 3) (s : BitVec 1)
  /-- VMULHU (R177). Vector unsigned multiply, high bits. -/
  | vmulhu (d : BitVec 5) (a : BitVec 5) (b : BitVec 5) (k : BitVec 3) (s : BitVec 1)
  /-- VDIV (R177). Vector signed divide. -/
  | vdiv (d : BitVec 5) (a : BitVec 5) (b : BitVec 5) (k : BitVec 3) (s : BitVec 1)
  /-- VDIVU (R177). Vector unsigned divide. -/
  | vdivu (d : BitVec 5) (a : BitVec 5) (b : BitVec 5) (k : BitVec 3) (s : BitVec 1)
  /-- VREM (R177). Vector signed remainder. -/
  | vrem (d : BitVec 5) (a : BitVec 5) (b : BitVec 5) (k : BitVec 3) (s : BitVec 1)
  /-- VREMU (R177). Vector unsigned remainder. -/
  | vremu (d : BitVec 5) (a : BitVec 5) (b : BitVec 5) (k : BitVec 3) (s : BitVec 1)
  /-- VAND (R177). Vector bitwise AND. -/
  | vand (d : BitVec 5) (a : BitVec 5) (b : BitVec 5) (k : BitVec 3) (s : BitVec 1)
  /-- VOR (R177). Vector bitwise OR. -/
  | vor (d : BitVec 5) (a : BitVec 5) (b : BitVec 5) (k : BitVec 3) (s : BitVec 1)
  /-- VXOR (R177). Vector bitwise XOR. -/
  | vxor (d : BitVec 5) (a : BitVec 5) (b : BitVec 5) (k : BitVec 3) (s : BitVec 1)
  /-- VSLL (R177). Vector left shift. -/
  | vsll (d : BitVec 5) (a : BitVec 5) (b : BitVec 5) (k : BitVec 3) (s : BitVec 1)
  /-- VSRL (R177). Vector logical right shift. -/
  | vsrl (d : BitVec 5) (a : BitVec 5) (b : BitVec 5) (k : BitVec 3) (s : BitVec 1)
  /-- VSRA (R177). Vector arithmetic right shift. -/
  | vsra (d : BitVec 5) (a : BitVec 5) (b : BitVec 5) (k : BitVec 3) (s : BitVec 1)
  /-- VMIN (R177). Vector signed minimum. -/
  | vmin (d : BitVec 5) (a : BitVec 5) (b : BitVec 5) (k : BitVec 3) (s : BitVec 1)
  /-- VMAX (R177). Vector signed maximum. -/
  | vmax (d : BitVec 5) (a : BitVec 5) (b : BitVec 5) (k : BitVec 3) (s : BitVec 1)
  /-- VMINU (R177). Vector unsigned minimum. -/
  | vminu (d : BitVec 5) (a : BitVec 5) (b : BitVec 5) (k : BitVec 3) (s : BitVec 1)
  /-- VMAXU (R177). Vector unsigned maximum. -/
  | vmaxu (d : BitVec 5) (a : BitVec 5) (b : BitVec 5) (k : BitVec 3) (s : BitVec 1)
  /-- VSADD (R177). Vector signed saturating add. -/
  | vsadd (d : BitVec 5) (a : BitVec 5) (b : BitVec 5) (k : BitVec 3) (s : BitVec 1)
  /-- VSADDU (R177). Vector unsigned saturating add. -/
  | vsaddu (d : BitVec 5) (a : BitVec 5) (b : BitVec 5) (k : BitVec 3) (s : BitVec 1)
  /-- VSSUB (R177). Vector signed saturating subtract. -/
  | vssub (d : BitVec 5) (a : BitVec 5) (b : BitVec 5) (k : BitVec 3) (s : BitVec 1)
  /-- VSSUBU (R177). Vector unsigned saturating subtract. -/
  | vssubu (d : BitVec 5) (a : BitVec 5) (b : BitVec 5) (k : BitVec 3) (s : BitVec 1)
  /-- VMERGE (R178). Selects y or x per position by the mask bit. -/
  | vmerge (d : BitVec 5) (a : BitVec 5) (b : BitVec 5) (k : BitVec 3) (s : BitVec 1)
  /-- VMV (R177). Vector move or scalar broadcast. -/
  | vmv (d : BitVec 5) (b : BitVec 5) (k : BitVec 3) (s : BitVec 1)
  /-- VIDX (R177). Writes each element's number within its row. -/
  | vidx (d : BitVec 5) (k : BitVec 3)
  /-- VFADD (R182). Vector floating-point add. -/
  | vfadd (d : BitVec 5) (a : BitVec 5) (b : BitVec 5) (k : BitVec 3) (s : BitVec 1)
  /-- VFSUB (R182). Vector floating-point subtract. -/
  | vfsub (d : BitVec 5) (a : BitVec 5) (b : BitVec 5) (k : BitVec 3) (s : BitVec 1)
  /-- VFMUL (R182). Vector floating-point multiply. -/
  | vfmul (d : BitVec 5) (a : BitVec 5) (b : BitVec 5) (k : BitVec 3) (s : BitVec 1)
  /-- VFDIV (R182). Vector floating-point divide. -/
  | vfdiv (d : BitVec 5) (a : BitVec 5) (b : BitVec 5) (k : BitVec 3) (s : BitVec 1)
  /-- VFSQRT (R182). Vector floating-point square root. -/
  | vfsqrt (d : BitVec 5) (b : BitVec 5) (k : BitVec 3) (s : BitVec 1)
  /-- VFMA (R182). Vector fused x × y + vd. -/
  | vfma (d : BitVec 5) (a : BitVec 5) (b : BitVec 5) (k : BitVec 3) (s : BitVec 1)
  /-- VFMSUB (R182). Vector fused x × y − vd. -/
  | vfmsub (d : BitVec 5) (a : BitVec 5) (b : BitVec 5) (k : BitVec 3) (s : BitVec 1)
  /-- VFNMA (R182). Vector fused vd − x × y. -/
  | vfnma (d : BitVec 5) (a : BitVec 5) (b : BitVec 5) (k : BitVec 3) (s : BitVec 1)
  /-- VFMIN (R182). Vector minimumNumber. -/
  | vfmin (d : BitVec 5) (a : BitVec 5) (b : BitVec 5) (k : BitVec 3) (s : BitVec 1)
  /-- VFMAX (R182). Vector maximumNumber. -/
  | vfmax (d : BitVec 5) (a : BitVec 5) (b : BitVec 5) (k : BitVec 3) (s : BitVec 1)
  /-- VFSIGN (R182). Copies y's sign onto x. -/
  | vfsign (d : BitVec 5) (a : BitVec 5) (b : BitVec 5) (k : BitVec 3) (s : BitVec 1)
  /-- VFCLASS (R182). Writes the class word of each element. -/
  | vfclass (d : BitVec 5) (b : BitVec 5) (k : BitVec 3) (s : BitVec 1)
  /-- VPIV (R183). Replaces small pivots by the threshold, marks a mask and adds to PIVCNT. -/
  | vpiv (d : BitVec 5) (n : BitVec 3) (b : BitVec 5) (k : BitVec 3)
  /-- VCMP_EQ (R187). Integer equality compare into a mask. -/
  | vcmpEq (d : BitVec 3) (a : BitVec 5) (b : BitVec 5) (k : BitVec 3) (s : BitVec 1)
  /-- VCMP_NE (R187). Integer inequality compare into a mask. -/
  | vcmpNe (d : BitVec 3) (a : BitVec 5) (b : BitVec 5) (k : BitVec 3) (s : BitVec 1)
  /-- VCMP_LT (R187). Signed less-than compare into a mask. -/
  | vcmpLt (d : BitVec 3) (a : BitVec 5) (b : BitVec 5) (k : BitVec 3) (s : BitVec 1)
  /-- VCMP_LE (R187). Signed less-or-equal compare into a mask. -/
  | vcmpLe (d : BitVec 3) (a : BitVec 5) (b : BitVec 5) (k : BitVec 3) (s : BitVec 1)
  /-- VCMP_LTU (R187). Unsigned less-than compare into a mask. -/
  | vcmpLtu (d : BitVec 3) (a : BitVec 5) (b : BitVec 5) (k : BitVec 3) (s : BitVec 1)
  /-- VCMP_LEU (R187). Unsigned less-or-equal compare into a mask. -/
  | vcmpLeu (d : BitVec 3) (a : BitVec 5) (b : BitVec 5) (k : BitVec 3) (s : BitVec 1)
  /-- VFCMP_EQ (R187). Floating-point equality compare into a mask. -/
  | vfcmpEq (d : BitVec 3) (a : BitVec 5) (b : BitVec 5) (k : BitVec 3) (s : BitVec 1)
  /-- VFCMP_LT (R187). Floating-point less-than compare into a mask. -/
  | vfcmpLt (d : BitVec 3) (a : BitVec 5) (b : BitVec 5) (k : BitVec 3) (s : BitVec 1)
  /-- VFCMP_LE (R187). Floating-point less-or-equal compare into a mask. -/
  | vfcmpLe (d : BitVec 3) (a : BitVec 5) (b : BitVec 5) (k : BitVec 3) (s : BitVec 1)
  /-- VFCMP_UNORD (R187). Unordered compare into a mask. -/
  | vfcmpUnord (d : BitVec 3) (a : BitVec 5) (b : BitVec 5) (k : BitVec 3) (s : BitVec 1)
  /-- MAND (R189). Mask AND. -/
  | mand (d : BitVec 3) (a : BitVec 3) (b : BitVec 3)
  /-- MOR (R189). Mask OR. -/
  | mor (d : BitVec 3) (a : BitVec 3) (b : BitVec 3)
  /-- MXOR (R189). Mask XOR. -/
  | mxor (d : BitVec 3) (a : BitVec 3) (b : BitVec 3)
  /-- MANDN (R189). Mask AND NOT. -/
  | mandn (d : BitVec 3) (a : BitVec 3) (b : BitVec 3)
  /-- MNOT (R189). Mask NOT. -/
  | mnot (d : BitVec 3) (b : BitVec 3)
  /-- MMV (R189). Mask move. -/
  | mmv (d : BitVec 3) (b : BitVec 3)
  /-- MCLR (R189). Clears every bit of a mask, m0 included. -/
  | mclr (d : BitVec 3)
  /-- MPOPC (R190). Counts the set mask bits among the body positions. -/
  | mpopc (d : BitVec 5) (b : BitVec 3) (k : BitVec 3)
  /-- MFIRST (R190). Writes the position of the first set mask bit. -/
  | mfirst (d : BitVec 5) (b : BitVec 3) (k : BitVec 3)
  /-- VREDSUM (R192). Integer sum reduction per row. -/
  | vredsum (d : BitVec 5) (a : BitVec 5) (b : BitVec 5) (k : BitVec 3)
  /-- VREDMIN (R192). Signed minimum reduction. -/
  | vredmin (d : BitVec 5) (a : BitVec 5) (b : BitVec 5) (k : BitVec 3)
  /-- VREDMAX (R192). Signed maximum reduction. -/
  | vredmax (d : BitVec 5) (a : BitVec 5) (b : BitVec 5) (k : BitVec 3)
  /-- VREDMINU (R192). Unsigned minimum reduction. -/
  | vredminu (d : BitVec 5) (a : BitVec 5) (b : BitVec 5) (k : BitVec 3)
  /-- VREDMAXU (R192). Unsigned maximum reduction. -/
  | vredmaxu (d : BitVec 5) (a : BitVec 5) (b : BitVec 5) (k : BitVec 3)
  /-- VREDAND (R192). AND reduction. -/
  | vredand (d : BitVec 5) (a : BitVec 5) (b : BitVec 5) (k : BitVec 3)
  /-- VREDOR (R192). OR reduction. -/
  | vredor (d : BitVec 5) (a : BitVec 5) (b : BitVec 5) (k : BitVec 3)
  /-- VREDXOR (R192). XOR reduction. -/
  | vredxor (d : BitVec 5) (a : BitVec 5) (b : BitVec 5) (k : BitVec 3)
  /-- VWREDSUM (R192). Widening sum reduction. -/
  | vwredsum (d : BitVec 5) (a : BitVec 5) (b : BitVec 5) (k : BitVec 3)
  /-- VFREDO (R193). Ordered floating-point sum, rounding after each add. -/
  | vfredo (d : BitVec 5) (a : BitVec 5) (b : BitVec 5) (k : BitVec 3)
  /-- VFREDT (R194). Pairwise-tree floating-point sum. -/
  | vfredt (d : BitVec 5) (a : BitVec 5) (b : BitVec 5) (k : BitVec 3)
  /-- VFREDX (R195). Exact floating-point sum in the complete accumulator. -/
  | vfredx (d : BitVec 5) (a : BitVec 5) (b : BitVec 5) (k : BitVec 3)
  /-- VFREDMIN (R196). Floating-point minimum reduction. -/
  | vfredmin (d : BitVec 5) (a : BitVec 5) (b : BitVec 5) (k : BitVec 3)
  /-- VFREDMAX (R196). Floating-point maximum reduction. -/
  | vfredmax (d : BitVec 5) (a : BitVec 5) (b : BitVec 5) (k : BitVec 3)
  /-- VSLUP (R204). Slides each row up by K, filling vacated positions. -/
  | vslup (d : BitVec 5) (a : BitVec 5) (b : BitVec 5) (k : BitVec 3)
  /-- VSLDN (R204). Slides each row down by K. -/
  | vsldn (d : BitVec 5) (a : BitVec 5) (b : BitVec 5) (k : BitVec 3)
  /-- VSL1UP (R204). Slides up by 1, inserting a scalar. -/
  | vsl1up (d : BitVec 5) (a : BitVec 5) (b : BitVec 5) (k : BitVec 3)
  /-- VSL1DN (R204). Slides down by 1, inserting a scalar. -/
  | vsl1dn (d : BitVec 5) (a : BitVec 5) (b : BitVec 5) (k : BitVec 3)
  /-- VPERM (R205). Gathers within each row by an index vector. -/
  | vperm (d : BitVec 5) (a : BitVec 5) (b : BitVec 5) (k : BitVec 3)
  /-- VCOMPR (R206). Compresses the selected elements to the front of each row. -/
  | vcompr (d : BitVec 5) (a : BitVec 5) (k : BitVec 3)
  /-- VEXPD (R207). Expands the front of each row onto the selected positions. -/
  | vexpd (d : BitVec 5) (a : BitVec 5) (k : BitVec 3)
  /-- VRESHAPE (R208). Transposes an m × n matrix within each row. -/
  | vreshape (d : BitVec 5) (a : BitVec 5) (b : BitVec 5) (k : BitVec 3)
  /-- VROWB (R209). Broadcasts one source row to every row. -/
  | vrowb (d : BitVec 5) (a : BitVec 5) (b : BitVec 5) (k : BitVec 3)
  /-- VROWX (R209). Exchanges two rows. -/
  | vrowx (d : BitVec 5) (a : BitVec 5) (b : BitVec 5) (k : BitVec 3)
  /-- VEXTR (R210). Extracts one element to a g register. -/
  | vextr (d : BitVec 5) (a : BitVec 5) (b : MaskedReg)
  /-- VINSR (R210). Inserts a g value at one position. -/
  | vinsr (d : BitVec 5) (a : BitVec 5) (b : MaskedReg)
  /-- VPOPQ (R211). Pops a tile from tq0 or tq1 after a geometry check. -/
  | vpopq (d : BitVec 5) (q : BitVec 2) (k : BitVec 3)
  /-- VPSHQ (R213). Pushes a tile into tq2. -/
  | vpshq (q : BitVec 2) (a : MaskedReg)
  /-- VAPPEND (R216). Appends the selected positions to an index array in memory and pushes notices. -/
  | vappend (b : BitVec 5) (k : BitVec 3)
  /-- VWADD (R180). Widening signed add. -/
  | vwadd (d : BitVec 5) (a : BitVec 5) (b : BitVec 5) (k : BitVec 3) (s : BitVec 1)
  /-- VWADDU (R180). Widening unsigned add. -/
  | vwaddu (d : BitVec 5) (a : BitVec 5) (b : BitVec 5) (k : BitVec 3) (s : BitVec 1)
  /-- VWMUL (R180). Widening signed multiply. -/
  | vwmul (d : BitVec 5) (a : BitVec 5) (b : BitVec 5) (k : BitVec 3) (s : BitVec 1)
  /-- VWMULU (R180). Widening unsigned multiply. -/
  | vwmulu (d : BitVec 5) (a : BitVec 5) (b : BitVec 5) (k : BitVec 3) (s : BitVec 1)
  /-- VWACC (R180). Widening signed multiply-accumulate. -/
  | vwacc (d : BitVec 5) (a : BitVec 5) (b : BitVec 5) (k : BitVec 3) (s : BitVec 1)
  /-- VWACCU (R180). Widening unsigned multiply-accumulate. -/
  | vwaccu (d : BitVec 5) (a : BitVec 5) (b : BitVec 5) (k : BitVec 3) (s : BitVec 1)
  /-- VNSRL (R180). Narrowing logical right shift. -/
  | vnsrl (d : BitVec 5) (a : BitVec 5) (b : BitVec 5) (k : BitVec 3) (s : BitVec 1)
  /-- VNCLIP (R180). Narrowing rounding shift with clamping. -/
  | vnclip (d : BitVec 5) (a : BitVec 5) (b : BitVec 5) (k : BitVec 3) (s : BitVec 1)
  /-- VFCVT (R185). Vector conversion selected by a code of 0–5. -/
  | vfcvt (d : BitVec 5) (c : BitVec 5) (b : BitVec 5) (k : BitVec 3)
  /-- VLD (R302). Unit-stride vector load. -/
  | vld (d : BitVec 5) (a : BitVec 5) (k : BitVec 3)
  /-- VLDS (R302). Element-strided vector load. -/
  | vlds (d : BitVec 5) (a : BitVec 5) (b : BitVec 5) (k : BitVec 3)
  /-- VLDR (R302). Row-strided vector load. -/
  | vldr (d : BitVec 5) (a : BitVec 5) (b : BitVec 5) (k : BitVec 3)
  /-- VLDX (R302). Indexed vector gather. -/
  | vldx (d : BitVec 5) (a : BitVec 5) (b : BitVec 5) (k : BitVec 3)
  /-- VLDQ (R301). Indexed gather from the TCMs of the hart's own quad. -/
  | vldq (d : BitVec 5) (a : BitVec 5) (b : BitVec 5) (k : BitVec 3)
  /-- VLDFF (R310). Fault-only-first load that shortens VL at a later fault. -/
  | vldff (d : BitVec 5) (a : BitVec 5) (k : BitVec 3)
  /-- VLDT (R302). Transposing row-strided load. -/
  | vldt (d : BitVec 5) (a : BitVec 5) (b : BitVec 5) (k : BitVec 3)
  /-- VST (R303). Unit-stride vector store; as a block store it is one 64-byte write. -/
  | vst (d : BitVec 5) (a : BitVec 5) (k : BitVec 3)
  /-- VSTS (R303). Element-strided vector store. -/
  | vsts (d : BitVec 5) (a : BitVec 5) (b : BitVec 5) (k : BitVec 3)
  /-- VSTR (R303). Row-strided vector store. -/
  | vstr (d : BitVec 5) (a : BitVec 5) (b : BitVec 5) (k : BitVec 3)
  /-- VSTX (R303). Indexed vector scatter. -/
  | vstx (d : BitVec 5) (a : BitVec 5) (b : BitVec 5) (k : BitVec 3)
  /-- VSTQ (R301). Indexed scatter to the TCMs of the hart's own quad. -/
  | vstq (d : BitVec 5) (a : BitVec 5) (b : BitVec 5) (k : BitVec 3)
  /-- VAMO_ADD (R312). Vector atomic add per element. -/
  | vamoAdd (d : BitVec 5) (a : BitVec 5) (b : BitVec 5) (k : BitVec 3) (s : BitVec 1) (l : BitVec 1) (q : BitVec 1)
  /-- VAMO_SWP (R312). Vector atomic swap. -/
  | vamoSwp (d : BitVec 5) (a : BitVec 5) (b : BitVec 5) (k : BitVec 3) (s : BitVec 1) (l : BitVec 1) (q : BitVec 1)
  /-- VAMO_AND (R312). Vector atomic AND. -/
  | vamoAnd (d : BitVec 5) (a : BitVec 5) (b : BitVec 5) (k : BitVec 3) (s : BitVec 1) (l : BitVec 1) (q : BitVec 1)
  /-- VAMO_OR (R312). Vector atomic OR. -/
  | vamoOr (d : BitVec 5) (a : BitVec 5) (b : BitVec 5) (k : BitVec 3) (s : BitVec 1) (l : BitVec 1) (q : BitVec 1)
  /-- VAMO_XOR (R312). Vector atomic XOR. -/
  | vamoXor (d : BitVec 5) (a : BitVec 5) (b : BitVec 5) (k : BitVec 3) (s : BitVec 1) (l : BitVec 1) (q : BitVec 1)
  /-- VAMO_MIN (R312). Vector atomic signed minimum. -/
  | vamoMin (d : BitVec 5) (a : BitVec 5) (b : BitVec 5) (k : BitVec 3) (s : BitVec 1) (l : BitVec 1) (q : BitVec 1)
  /-- VAMO_MAX (R312). Vector atomic signed maximum. -/
  | vamoMax (d : BitVec 5) (a : BitVec 5) (b : BitVec 5) (k : BitVec 3) (s : BitVec 1) (l : BitVec 1) (q : BitVec 1)
  /-- VAMO_MINU (R312). Vector atomic unsigned minimum. -/
  | vamoMinu (d : BitVec 5) (a : BitVec 5) (b : BitVec 5) (k : BitVec 3) (s : BitVec 1) (l : BitVec 1) (q : BitVec 1)
  /-- VAMO_MAXU (R312). Vector atomic unsigned maximum. -/
  | vamoMaxu (d : BitVec 5) (a : BitVec 5) (b : BitVec 5) (k : BitVec 3) (s : BitVec 1) (l : BitVec 1) (q : BitVec 1)
  /-- VAMO_FMIN (R313). Vector atomic floating-point minimum. -/
  | vamoFmin (d : BitVec 5) (a : BitVec 5) (b : BitVec 5) (k : BitVec 3) (s : BitVec 1) (l : BitVec 1) (q : BitVec 1)
  /-- VAMO_FMAX (R313). Vector atomic floating-point maximum. -/
  | vamoFmax (d : BitVec 5) (a : BitVec 5) (b : BitVec 5) (k : BitVec 3) (s : BitVec 1) (l : BitVec 1) (q : BitVec 1)
  /-- VWAIT_EQ (R316). Polls indexed locations until each equals the value, or the budget expires. -/
  | vwaitEq (d : BitVec 3) (n : BitVec 5) (b : BitVec 5) (k : BitVec 3)
  /-- VWAIT_NE (R316). Polls until each location differs from the value. -/
  | vwaitNe (d : BitVec 3) (n : BitVec 5) (b : BitVec 5) (k : BitVec 3)
  /-- VWAIT_LT (R316). Polls until each location is below the value, signed. -/
  | vwaitLt (d : BitVec 3) (n : BitVec 5) (b : BitVec 5) (k : BitVec 3)
  /-- VWAIT_GE (R316). Polls until each location is at or above the value, signed. -/
  | vwaitGe (d : BitVec 3) (n : BitVec 5) (b : BitVec 5) (k : BitVec 3)
  /-- VWAIT_LTU (R316). Polls until each location is below the value, unsigned. -/
  | vwaitLtu (d : BitVec 3) (n : BitVec 5) (b : BitVec 5) (k : BitVec 3)
  /-- VWAIT_GEU (R316). Polls until each location is at or above the value, unsigned. -/
  | vwaitGeu (d : BitVec 3) (n : BitVec 5) (b : BitVec 5) (k : BitVec 3)
  /-- FENCE (R319). Orders the listed agents' accesses at a scope. -/
  | fence (s : BitVec 3) (r : BitVec 2)
  /-- DFENCE_I (R321). Increments the stream's count and writes a cross-die fence token. -/
  | dfenceI (d : BitVec 5)
  /-- DFENCE_W (R321). Waits until the off-die stores covered by the token are performed at their homes. -/
  | dfenceW (a : BitVec 5)
  /-- MATTACH (R230). Grants and zeroes up to g[vs2] free macros of the quad. -/
  | mattach (b : BitVec 5)
  /-- MDETACH (R231). Releases the hart's macros after earlier matrix work. -/
  | mdetach
  /-- MFMT (R232). Sets the format descriptor and zeroes the hart's macros. -/
  | mfmt (b : BitVec 5)
  /-- MLDB (R233). Loads B elements or scales from a vector tile. -/
  | mldb (a : BitVec 5) (b : BitVec 5)
  /-- MLDBM (R234). Loads B from the quad's own scratchpad. -/
  | mldbm (a : BitVec 5) (b : BitVec 5)
  /-- MMUL_VREG (R235). Multiplies an A tile from vector registers into the accumulators. -/
  | mmulVreg (a : BitVec 5)
  /-- MMUL_TQ (R235). Pops an A tile from tq0 or tq1 and multiplies it into the accumulators. -/
  | mmulTq (q : BitVec 1)
  /-- MACCR (R236). Reads accumulators out into vd with rounding, optionally zeroing them. -/
  | maccr (d : BitVec 5) (m : BitVec 3) (b : BitVec 5)
  /-- MACCZ (R237). Zeroes every accumulator of the hart's macros. -/
  | maccz
  /-- MCHK (R238). Reads and clears the matrix mismatch record. -/
  | mchk (d : BitVec 5)
  /-- RLDX (R495). Remote indexed load through windows on other packages. -/
  | rldx (d : BitVec 5) (a : BitVec 5) (b : BitVec 5) (k : BitVec 3)
  /-- RSTX (R495). Remote indexed store. -/
  | rstx (d : BitVec 5) (a : BitVec 5) (b : BitVec 5) (k : BitVec 3)
  /-- RAMOX_ADD (R495). Remote atomic add. -/
  | ramoxAdd (d : BitVec 5) (a : BitVec 5) (b : BitVec 5) (k : BitVec 3)
  /-- RAMOX_SWP (R495). Remote atomic swap. -/
  | ramoxSwp (d : BitVec 5) (a : BitVec 5) (b : BitVec 5) (k : BitVec 3)
  /-- RAMOX_AND (R495). Remote atomic AND. -/
  | ramoxAnd (d : BitVec 5) (a : BitVec 5) (b : BitVec 5) (k : BitVec 3)
  /-- RAMOX_OR (R495). Remote atomic OR. -/
  | ramoxOr (d : BitVec 5) (a : BitVec 5) (b : BitVec 5) (k : BitVec 3)
  /-- RAMOX_XOR (R495). Remote atomic XOR. -/
  | ramoxXor (d : BitVec 5) (a : BitVec 5) (b : BitVec 5) (k : BitVec 3)
  /-- RAMOX_MIN (R495). Remote atomic signed minimum. -/
  | ramoxMin (d : BitVec 5) (a : BitVec 5) (b : BitVec 5) (k : BitVec 3)
  /-- RAMOX_MAX (R495). Remote atomic signed maximum. -/
  | ramoxMax (d : BitVec 5) (a : BitVec 5) (b : BitVec 5) (k : BitVec 3)
  /-- RAMOX_MINU (R495). Remote atomic unsigned minimum. -/
  | ramoxMinu (d : BitVec 5) (a : BitVec 5) (b : BitVec 5) (k : BitVec 3)
  /-- RAMOX_MAXU (R495). Remote atomic unsigned maximum. -/
  | ramoxMaxu (d : BitVec 5) (a : BitVec 5) (b : BitVec 5) (k : BitVec 3)
  /-- RAMOX_FMIN (R495). Remote atomic floating-point minimum. -/
  | ramoxFmin (d : BitVec 5) (a : BitVec 5) (b : BitVec 5) (k : BitVec 3)
  /-- RAMOX_FMAX (R495). Remote atomic floating-point maximum. -/
  | ramoxFmax (d : BitVec 5) (a : BitVec 5) (b : BitVec 5) (k : BitVec 3)
  /-- DPOST (R500). Posts per-rank byte counts for the exchange round and may close the post. -/
  | dpost (a : BitVec 5) (b : BitVec 5) (k : BitVec 3)
  /-- DGRANT (R503). Waits for the round's calendar and reports its length. -/
  | dgrant (d : BitVec 5) (a : BitVec 5)
  /-- XRUN (R504). Starts the exchange operation of a granted round. -/
  | xrun (d : BitVec 5) (a : BitVec 5) (b : BitVec 5)
  /-- XSTAT (R508). Reads the statistics of the last completed round into a vector. -/
  | xstat (d : BitVec 5) (a : BitVec 5) (b : BitVec 5) (k : BitVec 3)
  /-- ADD (R85). Writes g[a] + g[b] to g[d]. -/
  | add (d : BitVec 5) (a : BitVec 5) (b : BitVec 5)
  /-- SUB (R85). Writes g[a] - g[b] to g[d]. -/
  | sub (d : BitVec 5) (a : BitVec 5) (b : BitVec 5)
  /-- AND (R85). Writes the bitwise AND of g[a] and g[b] to g[d]. -/
  | and (d : BitVec 5) (a : BitVec 5) (b : BitVec 5)
  /-- OR (R85). Writes the bitwise OR of g[a] and g[b] to g[d]. -/
  | or (d : BitVec 5) (a : BitVec 5) (b : BitVec 5)
  /-- XOR (R85). Writes the bitwise XOR of g[a] and g[b] to g[d]. -/
  | xor (d : BitVec 5) (a : BitVec 5) (b : BitVec 5)
  /-- ANDN (R85). Writes g[a] AND NOT g[b] to g[d]. -/
  | andn (d : BitVec 5) (a : BitVec 5) (b : BitVec 5)
  /-- ORN (R85). Writes g[a] OR NOT g[b] to g[d]. -/
  | orn (d : BitVec 5) (a : BitVec 5) (b : BitVec 5)
  /-- SLL (R85). Shifts g[a] left by g[b][5:0]. -/
  | sll (d : BitVec 5) (a : BitVec 5) (b : BitVec 5)
  /-- SRL (R85). Shifts g[a] right logically by g[b][5:0]. -/
  | srl (d : BitVec 5) (a : BitVec 5) (b : BitVec 5)
  /-- SRA (R85). Shifts g[a] right arithmetically by g[b][5:0]. -/
  | sra (d : BitVec 5) (a : BitVec 5) (b : BitVec 5)
  /-- ROL (R85). Rotates g[a] left by g[b][5:0]. -/
  | rol (d : BitVec 5) (a : BitVec 5) (b : BitVec 5)
  /-- ROR (R85). Rotates g[a] right by g[b][5:0]. -/
  | ror (d : BitVec 5) (a : BitVec 5) (b : BitVec 5)
  /-- MIN (R85). Writes the signed minimum of g[a] and g[b]. -/
  | min (d : BitVec 5) (a : BitVec 5) (b : BitVec 5)
  /-- MAX (R85). Writes the signed maximum of g[a] and g[b]. -/
  | max (d : BitVec 5) (a : BitVec 5) (b : BitVec 5)
  /-- MINU (R85). Writes the unsigned minimum of g[a] and g[b]. -/
  | minu (d : BitVec 5) (a : BitVec 5) (b : BitVec 5)
  /-- MAXU (R85). Writes the unsigned maximum of g[a] and g[b]. -/
  | maxu (d : BitVec 5) (a : BitVec 5) (b : BitVec 5)
  /-- SLT (R85). Writes 1 when g[a] < g[b] signed, otherwise 0. -/
  | slt (d : BitVec 5) (a : BitVec 5) (b : BitVec 5)
  /-- SLTU (R85). Writes 1 when g[a] < g[b] unsigned, otherwise 0. -/
  | sltu (d : BitVec 5) (a : BitVec 5) (b : BitVec 5)
  /-- SEQ (R85). Writes 1 when g[a] == g[b], otherwise 0. -/
  | seq (d : BitVec 5) (a : BitVec 5) (b : BitVec 5)
  /-- SNE (R85). Writes 1 when g[a] != g[b], otherwise 0. -/
  | sne (d : BitVec 5) (a : BitVec 5) (b : BitVec 5)
  /-- CLZ (R85). Counts the leading zero bits of g[a]. -/
  | clz (d : BitVec 5) (a : BitVec 5)
  /-- CTZ (R85). Counts the trailing zero bits of g[a]. -/
  | ctz (d : BitVec 5) (a : BitVec 5)
  /-- POPC (R85). Counts the one bits of g[a]. -/
  | popc (d : BitVec 5) (a : BitVec 5)
  /-- BSWAP (R85). Reverses the byte order of g[a]. -/
  | bswap (d : BitVec 5) (a : BitVec 5)
  /-- MUL (R85). Writes the low 64 bits of g[a] × g[b]. -/
  | mul (d : BitVec 5) (a : BitVec 5) (b : BitVec 5)
  /-- MULH (R85). Writes the high 64 bits of the signed product. -/
  | mulh (d : BitVec 5) (a : BitVec 5) (b : BitVec 5)
  /-- MULHU (R85). Writes the high 64 bits of the unsigned product. -/
  | mulhu (d : BitVec 5) (a : BitVec 5) (b : BitVec 5)
  /-- DIV (R86). Performs signed division truncated toward zero; it never traps. -/
  | div (d : BitVec 5) (a : BitVec 5) (b : BitVec 5)
  /-- DIVU (R86). Performs unsigned division; it never traps. -/
  | divu (d : BitVec 5) (a : BitVec 5) (b : BitVec 5)
  /-- REM (R86). Writes the signed remainder, which carries the sign of the dividend. -/
  | rem (d : BitVec 5) (a : BitVec 5) (b : BitVec 5)
  /-- REMU (R86). Writes the unsigned remainder. -/
  | remu (d : BitVec 5) (a : BitVec 5) (b : BitVec 5)
  /-- SEL (R85). Writes g[a] when the old g[d] is nonzero, otherwise g[b]. -/
  | sel (d : BitVec 5) (a : BitVec 5) (b : BitVec 5)
  /-- ADDI (R88). Adds a sign-extended imm15 to g[a]. -/
  | addi (d : BitVec 5) (a : BitVec 5) (i : BitVec 15)
  /-- ANDI (R88). ANDs g[a] with a sign-extended imm15. -/
  | andi (d : BitVec 5) (a : BitVec 5) (i : BitVec 15)
  /-- ORI (R88). ORs g[a] with a sign-extended imm15. -/
  | ori (d : BitVec 5) (a : BitVec 5) (i : BitVec 15)
  /-- XORI (R88). XORs g[a] with a sign-extended imm15. -/
  | xori (d : BitVec 5) (a : BitVec 5) (i : BitVec 15)
  /-- SLLI (R88). Shifts g[a] left by an immediate amount. -/
  | slli (d : BitVec 5) (a : BitVec 5) (s : BitVec 6)
  /-- SRLI (R88). Shifts g[a] right logically by an immediate amount. -/
  | srli (d : BitVec 5) (a : BitVec 5) (s : BitVec 6)
  /-- SRAI (R88). Shifts g[a] right arithmetically by an immediate amount. -/
  | srai (d : BitVec 5) (a : BitVec 5) (s : BitVec 6)
  /-- SLTI (R88). Writes 1 when g[a] is below a sign-extended imm12, otherwise 0. -/
  | slti (d : BitVec 5) (a : BitVec 5) (i : BitVec 12)
  /-- LDHI (R45). Writes sext(imm20) × 2^15 to g[d]. -/
  | ldhi (d : BitVec 5) (i : BitVec 20)
  /-- ADDPC (R45). Writes PC + sext(imm20) × 2^15 to g[d]. -/
  | addpc (d : BitVec 5) (i : BitVec 20)
  /-- BEQ (R89). Branches when g[a] == g[b]. -/
  | beq (a : BitVec 5) (b : BitVec 5) (o : BitVec 12)
  /-- BNE (R89). Branches when g[a] != g[b]. -/
  | bne (a : BitVec 5) (b : BitVec 5) (o : BitVec 12)
  /-- BLT (R89). Branches when g[a] < g[b] signed. -/
  | blt (a : BitVec 5) (b : BitVec 5) (o : BitVec 12)
  /-- BGE (R89). Branches when g[a] >= g[b] signed. -/
  | bge (a : BitVec 5) (b : BitVec 5) (o : BitVec 12)
  /-- BLTU (R89). Branches when g[a] < g[b] unsigned. -/
  | bltu (a : BitVec 5) (b : BitVec 5) (o : BitVec 12)
  /-- BGEU (R89). Branches when g[a] >= g[b] unsigned. -/
  | bgeu (a : BitVec 5) (b : BitVec 5) (o : BitVec 12)
  /-- JAL (R90). Writes PC + 4 to g[d] and jumps PC-relative. -/
  | jal (d : BitVec 5) (o : BitVec 20)
  /-- JALR (R90). Writes PC + 4 to g[d] and jumps to g[a] + imm12; an odd target raises MISALIGN. -/
  | jalr (d : BitVec 5) (a : BitVec 5) (i : BitVec 12)
  /-- STRIP (R91). Applies any pending grant, sets the next VL from the remaining count, and branches unless the count is zero. -/
  | strip (d : BitVec 5) (a : BitVec 5) (o : BitVec 12)
  /-- CSRR (R102). Reads a CSR into g[d]. -/
  | csrr (d : BitVec 5) (c : BitVec 12)
  /-- CSRW (R102). Writes g[a] to a CSR and returns the old value. -/
  | csrw (d : BitVec 5) (a : BitVec 5) (c : BitVec 12)
  /-- CSRSET (R102). Sets the CSR bits given in g[a] and returns the old value. -/
  | csrset (d : BitVec 5) (a : BitVec 5) (c : BitVec 12)
  /-- CSRCLR (R102). Clears the CSR bits given in g[a] and returns the old value. -/
  | csrclr (d : BitVec 5) (a : BitVec 5) (c : BitVec 12)
  /-- TRAP (R106). Raises SWTRAP with its immediate in TVAL. -/
  | trap (i : BitVec 12)
  /-- SIG (R111). Compares the running block CRC with the open signature, then opens a new signature. -/
  | sig (h : BitVec 4) (l : BitVec 12)
  /-- RFT (R107). Returns from a trap to TEPC and clears STATUS.TA. -/
  | rft
  /-- EXIT (R108). Stops the feeder, or waits for outstanding work and then retires the hart. -/
  | exit
  /-- YIELD (R109). Moves the stream to the end of the issue round-robin and ends its hart's turns at the shared ports. -/
  | yield
  /-- IFENCE (R110). Makes the stream's earlier stores visible to its own later fetches. -/
  | ifence
  /-- FRPOP (R445). Copies the oldest fault record of a die into memory and removes it from the queue. -/
  | frpop (d : BitVec 5) (a : BitVec 5) (e : BitVec 2)
  /-- RESUME (R446). Makes a parked or held hart ready again, or retries a stopped engine operation. -/
  | resume (d : BitVec 5) (a : BitVec 5)
  /-- KILL (R447). Kills a hart, which retires as KILLED, or abandons a stopped operation. -/
  | kill (d : BitVec 5) (a : BitVec 5)
  /-- PFX (R112). Sets a pending predicate and copy prefix for the next instruction. -/
  | pfx (r : BitVec 5) (c : BitVec 1) (e : BitVec 1) (v : BitVec 1) (p : BitVec 5)
  /-- QPSH (R99). Appends g[a] to a scalar queue, waiting while the queue is full. -/
  | qpsh (a : BitVec 5) (q : BitVec 3)
  /-- QPOP (R99). Removes the oldest entry of a scalar queue, waiting while the queue is empty. -/
  | qpop (d : BitVec 5) (q : BitVec 3)
  /-- QCNT (R99). Writes the number of entries in a scalar queue. -/
  | qcnt (d : BitVec 5) (q : BitVec 3)
  /-- LDB (R92). Loads a sign-extended byte. -/
  | ldb (d : BitVec 5) (a : BitVec 5) (i : BitVec 12)
  /-- LDBZ (R92). Loads a zero-extended byte. -/
  | ldbz (d : BitVec 5) (a : BitVec 5) (i : BitVec 12)
  /-- LDH (R92). Loads a sign-extended half-word. -/
  | ldh (d : BitVec 5) (a : BitVec 5) (i : BitVec 12)
  /-- LDHZ (R92). Loads a zero-extended half-word. -/
  | ldhz (d : BitVec 5) (a : BitVec 5) (i : BitVec 12)
  /-- LDW (R92). Loads a sign-extended word. -/
  | ldw (d : BitVec 5) (a : BitVec 5) (i : BitVec 12)
  /-- LDWZ (R92). Loads a zero-extended word. -/
  | ldwz (d : BitVec 5) (a : BitVec 5) (i : BitVec 12)
  /-- LDD (R92). Loads a doubleword. -/
  | ldd (d : BitVec 5) (a : BitVec 5) (i : BitVec 12)
  /-- STB (R92). Stores a byte. -/
  | stb (d : BitVec 5) (a : BitVec 5) (i : BitVec 12)
  /-- STH (R92). Stores a half-word. -/
  | sth (d : BitVec 5) (a : BitVec 5) (i : BitVec 12)
  /-- STW (R92). Stores a word. -/
  | stw (d : BitVec 5) (a : BitVec 5) (i : BitVec 12)
  /-- STD (R92). Stores a doubleword. -/
  | std (d : BitVec 5) (a : BitVec 5) (i : BitVec 12)
  /-- AMOADD (R94). Atomic add at memory, returning the old value. -/
  | amoadd (d : BitVec 5) (a : BitVec 5) (b : BitVec 5) (s : BitVec 3) (l : BitVec 1) (q : BitVec 1) (z : BitVec 1)
  /-- AMOSWP (R94). Atomic swap at memory. -/
  | amoswp (d : BitVec 5) (a : BitVec 5) (b : BitVec 5) (s : BitVec 3) (l : BitVec 1) (q : BitVec 1) (z : BitVec 1)
  /-- AMOCAS (R94). Atomic compare-and-swap against g[d]. -/
  | amocas (d : BitVec 5) (a : BitVec 5) (b : BitVec 5) (s : BitVec 3) (l : BitVec 1) (q : BitVec 1) (z : BitVec 1)
  /-- AMOAND (R94). Atomic AND at memory. -/
  | amoand (d : BitVec 5) (a : BitVec 5) (b : BitVec 5) (s : BitVec 3) (l : BitVec 1) (q : BitVec 1) (z : BitVec 1)
  /-- AMOOR (R94). Atomic OR at memory. -/
  | amoor (d : BitVec 5) (a : BitVec 5) (b : BitVec 5) (s : BitVec 3) (l : BitVec 1) (q : BitVec 1) (z : BitVec 1)
  /-- AMOXOR (R94). Atomic XOR at memory. -/
  | amoxor (d : BitVec 5) (a : BitVec 5) (b : BitVec 5) (s : BitVec 3) (l : BitVec 1) (q : BitVec 1) (z : BitVec 1)
  /-- AMOMIN (R94). Atomic signed minimum at memory. -/
  | amomin (d : BitVec 5) (a : BitVec 5) (b : BitVec 5) (s : BitVec 3) (l : BitVec 1) (q : BitVec 1) (z : BitVec 1)
  /-- AMOMAX (R94). Atomic signed maximum at memory. -/
  | amomax (d : BitVec 5) (a : BitVec 5) (b : BitVec 5) (s : BitVec 3) (l : BitVec 1) (q : BitVec 1) (z : BitVec 1)
  /-- AMOMINU (R94). Atomic unsigned minimum at memory. -/
  | amominu (d : BitVec 5) (a : BitVec 5) (b : BitVec 5) (s : BitVec 3) (l : BitVec 1) (q : BitVec 1) (z : BitVec 1)
  /-- AMOMAXU (R94). Atomic unsigned maximum at memory. -/
  | amomaxu (d : BitVec 5) (a : BitVec 5) (b : BitVec 5) (s : BitVec 3) (l : BitVec 1) (q : BitVec 1) (z : BitVec 1)
  /-- LDA (R94). Load-acquire at the given scope. -/
  | lda (d : BitVec 5) (a : BitVec 5) (s : BitVec 3) (z : BitVec 1)
  /-- STL (R94). Store-release at the given scope, scope dur included. -/
  | stl (a : BitVec 5) (b : BitVec 5) (s : BitVec 3) (z : BitVec 1)
  /-- FADD (R135). Scalar floating-point add with one rounding. -/
  | fadd (d : BitVec 5) (a : BitVec 5) (b : BitVec 5) (m : BitVec 3) (t : BitVec 3)
  /-- FSUB (R135). Scalar floating-point subtract. -/
  | fsub (d : BitVec 5) (a : BitVec 5) (b : BitVec 5) (m : BitVec 3) (t : BitVec 3)
  /-- FMUL (R135). Scalar floating-point multiply. -/
  | fmul (d : BitVec 5) (a : BitVec 5) (b : BitVec 5) (m : BitVec 3) (t : BitVec 3)
  /-- FDIV (R135). Scalar floating-point divide. -/
  | fdiv (d : BitVec 5) (a : BitVec 5) (b : BitVec 5) (m : BitVec 3) (t : BitVec 3)
  /-- FSQRT (R135). Scalar floating-point square root. -/
  | fsqrt (d : BitVec 5) (a : BitVec 5) (m : BitVec 3) (t : BitVec 3)
  /-- FMIN (R125). Scalar minimumNumber. -/
  | fmin (d : BitVec 5) (a : BitVec 5) (b : BitVec 5) (t : BitVec 3)
  /-- FMAX (R125). Scalar maximumNumber. -/
  | fmax (d : BitVec 5) (a : BitVec 5) (b : BitVec 5) (t : BitVec 3)
  /-- FEQ (R136). Floating-point equality compare. -/
  | feq (d : BitVec 5) (a : BitVec 5) (b : BitVec 5) (t : BitVec 3)
  /-- FLT (R136). Floating-point less-than compare. -/
  | flt (d : BitVec 5) (a : BitVec 5) (b : BitVec 5) (t : BitVec 3)
  /-- FLE (R136). Floating-point less-or-equal compare. -/
  | fle (d : BitVec 5) (a : BitVec 5) (b : BitVec 5) (t : BitVec 3)
  /-- FUNORD (R136). Writes 1 when either operand is a NaN. -/
  | funord (d : BitVec 5) (a : BitVec 5) (b : BitVec 5) (t : BitVec 3)
  /-- FCVT (R139). Converts between floating-point and integer types. -/
  | fcvt (d : BitVec 5) (a : BitVec 5) (s : BitVec 3) (m : BitVec 3) (t : BitVec 3)
  /-- FCLASS (R137). Writes the class word of the operand. -/
  | fclass (d : BitVec 5) (a : BitVec 5) (t : BitVec 3)
  /-- FSIGN (R138). Sets the sign bit by the rule in the RM field. -/
  | fsign (d : BitVec 5) (a : BitVec 5) (b : BitVec 5) (r : BitVec 3) (t : BitVec 3)
  /-- FMA (R135). Fused x × y + z into g[d]. -/
  | fma (d : BitVec 5) (a : BitVec 5) (b : BitVec 5) (m : BitVec 3) (t : BitVec 3)
  /-- FMSUB (R135). Fused x × y − z. -/
  | fmsub (d : BitVec 5) (a : BitVec 5) (b : BitVec 5) (m : BitVec 3) (t : BitVec 3)
  /-- FNMA (R135). Fused z − x × y. -/
  | fnma (d : BitVec 5) (a : BitVec 5) (b : BitVec 5) (m : BitVec 3) (t : BitVec 3)
  /-- C_ADD (R114). Compact add of g[s] and g[LASTD.G]. -/
  | cAdd (d : BitVec 5) (s : BitVec 5)
  /-- C_SUB (R114). Compact g[s] − g[LASTD.G]. -/
  | cSub (d : BitVec 5) (s : BitVec 5)
  /-- C_AND (R114). Compact AND with g[LASTD.G]. -/
  | cAnd (d : BitVec 5) (s : BitVec 5)
  /-- C_OR (R114). Compact OR with g[LASTD.G]. -/
  | cOr (d : BitVec 5) (s : BitVec 5)
  /-- C_XOR (R114). Compact XOR with g[LASTD.G]. -/
  | cXor (d : BitVec 5) (s : BitVec 5)
  /-- C_SLL (R114). Compact left shift by g[LASTD.G][5:0]. -/
  | cSll (d : BitVec 5) (s : BitVec 5)
  /-- C_SRL (R114). Compact logical right shift by g[LASTD.G][5:0]. -/
  | cSrl (d : BitVec 5) (s : BitVec 5)
  /-- C_MV (R114). Compact register move. -/
  | cMv (d : BitVec 5) (s : BitVec 5)
  /-- C_ADDI (R114). Compact add of an imm5 to g[LASTD.G]. -/
  | cAddi (d : BitVec 5) (i : BitVec 5)
  /-- C_LI (R114). Compact load of a sign-extended imm5. -/
  | cLi (d : BitVec 5) (i : BitVec 5)
  /-- C_LDD (R114). Compact 8-byte load. -/
  | cLdd (d : BitVec 5) (s : BitVec 5)
  /-- C_STD (R114). Compact 8-byte store. -/
  | cStd (d : BitVec 5) (s : BitVec 5)
  /-- C_BEQZ (R114). Compact branch when g[LASTD.G] == 0. -/
  | cBeqz (l : BitVec 5) (h : BitVec 5)
  /-- C_BNEZ (R114). Compact branch when g[LASTD.G] != 0. -/
  | cBnez (l : BitVec 5) (h : BitVec 5)
  /-- C_VADD (R114). Compact vector add with v[LASTD.V]. -/
  | cVadd (d : BitVec 5) (s : BitVec 5)
  /-- C_VFMA (R114). Compact vector FMA with v[LASTD.V]. -/
  | cVfma (d : BitVec 5) (s : BitVec 5)
  /-- VSET (R175). Applies any pending grant and sets VTYPE, VL, RC and VSTART. -/
  | vset (d : BitVec 5) (a : BitVec 5) (m : BitVec 1) (t : BitVec 1) (x : BitVec 1) (e : BitVec 2) (l : BitVec 2) (r : BitVec 3)
  /-- VWAIT_BUDGET_EXPIRY (R316). The VWAIT budget runs out; unsatisfied positions are written as 0 and VWAIT completes. -/
  | vwaitBudgetExpiry (tag : BitVec 32)
  /-- POWER_TOKEN_IDLE_RETURN (R227). After 64 idle cycles a quad returns its power token. -/
  | powerTokenIdleReturn (die quad : Nat)
  /-- CPY (R353). Starts a byte copy on a copy context. -/
  | cpy (d : BitVec 5) (a : BitVec 5) (b : BitVec 5) (c : BitVec 1)
  /-- CPY2 (R354). Starts a two-dimensional row copy from a descriptor. -/
  | cpy2 (d : BitVec 5) (a : BitVec 5) (c : BitVec 1)
  /-- CPYX (R355). Starts an indexed gather or scatter copy. -/
  | cpyx (d : BitVec 5) (a : BitVec 5) (c : BitVec 1)
  /-- TLWAIT (R359). Waits until a context's COUNT reaches n. -/
  | tlwait (a : BitVec 5) (b : BitVec 5)
  /-- TLREAD (R360). Reads a context's COUNT. -/
  | tlread (d : BitVec 5) (a : BitVec 5)
  /-- ENGCTX_CREATE (R361). Creates a Bedrock context, or refuses with 0. -/
  | engctxCreate (d : BitVec 5) (a : BitVec 5)
  /-- ENGCTX_DESTROY (R361). Closes a Bedrock context, waits for its operations, and destroys it. -/
  | engctxDestroy (a : BitVec 5)
  /-- ENGCTX_QUERY (R361). Reads a context's ISSUED. -/
  | engctxQuery (d : BitVec 5) (a : BitVec 5)
  /-- OPERATION_START (R374). An accepted engine operation begins performing once its ordering allows. -/
  | operationStart (op : Nat)
  /-- OPERATION_COMPLETE (R345). An engine operation completes; its token is written and COUNT is raised. -/
  | operationComplete (op : Nat)
  /-- TBIND (R378). Creates a generation context and builds it from an export form. -/
  | tbind (d : BitVec 5) (a : BitVec 5) (b : BitVec 5)
  /-- TNBR (R381). Streams neighbour-list tiles into a tile queue. -/
  | tnbr (d : BitVec 5) (a : BitVec 5) (b : BitVec 5)
  /-- TFACE (R382). Streams face tiles of a bench part into a tile queue. -/
  | tface (d : BitVec 5) (a : BitVec 5) (b : BitVec 5)
  /-- TMARK (R383). Loads and closes refinement marks. -/
  | tmark (d : BitVec 5) (a : BitVec 5) (b : BitVec 5)
  /-- TCOMMIT (R384). Builds the next generation from the marks. -/
  | tcommit (d : BitVec 5) (a : BitVec 5) (b : BitVec 5)
  /-- TFREE (R379). Closes a generation and destroys it once its operations are done. -/
  | tfree (a : BitVec 5)
  /-- TCOLOUR (R387). Colours faces into benches. -/
  | tcolour (d : BitVec 5) (a : BitVec 5) (b : BitVec 5)
  /-- TLEVEL (R388). Compiles level sets of a CSR pattern. -/
  | tlevel (d : BitVec 5) (a : BitVec 5) (b : BitVec 5)
  /-- TCUT (R389). Re-cuts the curve by weights into destinations. -/
  | tcut (d : BitVec 5) (a : BitVec 5) (b : BitVec 5)
  /-- TREMAP (R386). Carries field arrays across a remap list. -/
  | tremap (d : BitVec 5) (a : BitVec 5) (b : BitVec 5)
  /-- TXPORT (R390). Writes an export form of a cell range. -/
  | txport (d : BitVec 5) (a : BitVec 5) (b : BitVec 5)
  /-- TIMPORT (R391). Builds a new generation from kept cells and imported forms. -/
  | timport (d : BitVec 5) (a : BitVec 5) (b : BitVec 5)
  /-- TOPO_TILE_PUSH (R380). A topology stream pushes its next tile once a slot is free. -/
  | topoTilePush (op : Nat)
  /-- SPAWN (R258). Appends a child record to the pool or the spoil queue. -/
  | spawn (d : BitVec 5) (a : BitVec 5)
  /-- WAITCH (R262). Waits until CHDONE.DONE reaches the target. -/
  | waitch (a : BitVec 5)
  /-- BAR (R264). Arrives at a barrier and waits for the episode. -/
  | bar (s : BitVec 3)
  /-- BARA (R264). Arrives at a barrier and writes the arrival token. -/
  | bara (d : BitVec 5) (s : BitVec 3)
  /-- BARW (R264). Waits for the barrier episode named by a token. -/
  | barw (a : BitVec 5) (s : BitVec 3)
  /-- BARRIER_EPISODE_COMPLETE (R264). The last member arrives or retires and the episode is released. -/
  | barrierEpisodeComplete (group scope unit : Nat)
  /-- REMOTE_REQUEST (R497). A target package serves a remote request against its window and responds. -/
  | remoteRequest (src : BitVec 16) (id : Nat) (window : BitVec 16) (fn size : Nat) (elems : List (BitVec 64 × BitVec 64 × Bool))
  /-- REMOTE_RESPONSE (R495). A response or acknowledgement returns, writes its elements and marks m0. -/
  | remoteResponse (tag : BitVec 32) (id : Nat) (results : List (BitVec 8 × BitVec 64 × Bool))
  /-- REMOTE_TIMEOUT (R493). No response arrives within RTIMEOUT; the element is refused with RDOWN. -/
  | remoteTimeout (tag : BitVec 32) (id : Nat)
  /-- POST_RECEIVE (R503). An arbiter candidate receives a closed post and requests the missing ones. -/
  | postReceive (x round member : Nat) (bytes : List Nat)
  /-- POST_REQUEST (R503). A hub answers a candidate's request with its closed post. -/
  | postRequest (x round candidate : Nat)
  /-- CALENDAR_RECEIVE (R503). A member accepts the first calendar of a round, which makes the round GRANTED. -/
  | calendarReceive (x round : Nat) (phases : List (Nat × List Nat)) (posted : List Nat)
  /-- ARBITER_TIMEOUT (R503). XBUDGET expires without a calendar; the post goes to the next candidate, or the round fails. -/
  | arbiterTimeout (x round : Nat)
  /-- READY_RECEIVE (R505). A READY mark arrives and lets the sender transmit that phase's segment. -/
  | readyReceive (x round phase src : Nat)
  /-- SEGMENT_RECEIVE (R505). A phase segment and its PMARK arrive, are placed, and may trigger the next READY. -/
  | segmentReceive (x round phase src : Nat) (bytes : List (Nat × List (BitVec 9))) (mark : Bool)
  /-- SPILL_RECEIVE (R506). Spill-pass bytes arrive and are placed after the calendar bytes. -/
  | spillReceive (x round src : Nat) (bytes : List (BitVec 9))
  /-- FINAL_RECEIVE (R506). A FINAL mark arrives, or an acknowledgement of bytes sent to its member; the XRUN completes
  once every FINAL and acknowledgement is in. -/
  | finalReceive (x round src : Nat) (total : Option Nat) (acked : Nat)
  /-- EXCHANGE_TIMEOUT (R506). An expected mark misses XBUDGET and the XRUN completes FAILED. -/
  | exchangeTimeout (x round : Nat)
  /-- CRED (R512). Tree reduction across a collective group. -/
  | cred (d : BitVec 5) (a : BitVec 5) (b : BitVec 5) (k : BitVec 5)
  /-- CBCAST (R513). Broadcasts the root's buffer. -/
  | cbcast (d : BitVec 5) (a : BitVec 5) (b : BitVec 5)
  /-- CGATH (R513). Gathers every member's bytes to all members. -/
  | cgath (d : BitVec 5) (a : BitVec 5) (b : BitVec 5)
  /-- CBAR (R513). Pod-wide group barrier. -/
  | cbar (d : BitVec 5) (a : BitVec 5)
  /-- CSTAT (R513). Reads the next SEQ and the last call's status. -/
  | cstat (d : BitVec 5) (a : BitVec 5)
  /-- COLL_PACKET_RECEIVE (R511). A collective packet from a tree neighbour arrives, is matched, and is combined or forwarded. -/
  | collPacketReceive (g src : Nat) (seq : BitVec 32) (op kind count root phase : Nat) (payload : List (Int × Nat × Bool))
  /-- COLL_ABORT_RECEIVE (R511). An abort arrives and ends the call with CALLMISMATCH or FAILED. -/
  | collAbortReceive (g src : Nat) (seq : BitVec 32) (mismatch : Bool)
  /-- COLL_TIMEOUT (R514). CBUDGET expires; the member fails the call and sends aborts. -/
  | collTimeout (g : Nat)
  /-- PBAR (R406). Waits until the stream's earlier DURABLE writes are durable. -/
  | pbar
  /-- PARK (R413). Starts parking data into a Bedrock image. -/
  | park (d : BitVec 5) (a : BitVec 5) (b : BitVec 5)
  /-- UNPARK (R413). Starts restoring a Bedrock image. -/
  | unpark (d : BitVec 5) (a : BitVec 5) (b : BitVec 5)
  /-- PSTAT (R415). Reads persist-domain and context status. -/
  | pstat (d : BitVec 5) (a : BitVec 5)
  /-- PERSIST_ACCEPT (R399). The persist domain accepts a performed DURABLE write once it has room, which makes the write durable. -/
  | persistAccept (atom : Nat)
  /-- FLASH_WRITEBACK (R400). The controller writes a dirty persist-domain line to flash. -/
  | flashWriteback (atom : Nat)
  /-- POWER_LOSS (R401). Input power fails; acceptance stops and the persist domain starts draining. -/
  | powerLoss
  /-- POWER_LOSS_DRAIN_END (R401). The hold-up drain of dirty lines to flash ends. -/
  | powerLossDrainEnd (failed : List Nat)
  /-- ORDERLY_SHUTDOWN (R401). Stops writes, makes performed writes durable and drains, with no power-loss flag. -/
  | orderlyShutdown
  /-- DISPATCH_ROTATION (R249). The dispatcher visits slots 0–63 and the pool, starting records, then ages and maps queues. -/
  | dispatchRotation (die : Nat) (cores : List Nat)
  /-- ENQUEUE_APPEND (R246). A whole aligned 64-byte write to an enqueue window appends a start record, or is refused. -/
  | enqueueAppend (queue : Nat) (bytes : List (BitVec 8))
  /-- STAGING_WORD_STORE (R247). A control-core store writes one word of its staging record. -/
  | stagingWordStore (core word : Nat) (value : BitVec 64)
  /-- STAGING_APPEND (R247). A control-core store to offset 0x840 appends the staging record and zeroes it. -/
  | stagingAppend (core queue : Nat)
  /-- HART_RETIRE (R256). Discards queues, releases resources, writes the completion record and counts barrier arrival. -/
  | hartRetire (tag : BitVec 32)
  /-- PAGE_WALK (R280). Walks five page-table levels for a missed page and checks the leaf. -/
  | pageWalk (place : MmuPlace) (win : BitVec 8) (va : BitVec 64) (acc : Nat) (sv : Bool)
  /-- MEMORY_ACCESS_PERFORM (R274). An access is performed at its location's home. -/
  | memoryAccessPerform (pa size : Nat) (data : Option (BitVec 64)) (bitError : Bool)
  /-- XLINV_PAGE (R294). An XLINV write with KIND 0 invalidates the entries that map (WINV, XLVA). -/
  | xlinvPage (win : BitVec 8) (va : BitVec 64) (dies : BitVec 5)
  /-- XLINV_WINDOW (R294). An XLINV write with KIND 1 invalidates the non-global entries of window WINV. -/
  | xlinvWindow (win : BitVec 8) (dies : BitVec 5)
  /-- XLINV_NONGLOBAL (R294). An XLINV write with KIND 2 invalidates every non-global entry. -/
  | xlinvNonglobal (dies : BitVec 5)
  /-- XLINV_ALL (R294). An XLINV write with KIND 3 invalidates every entry. -/
  | xlinvAll (dies : BitVec 5)
  /-- INVALIDATION_COMPLETE (R295). An invalidation command finishes and XLSEQ increments. -/
  | invalidationComplete
  /-- PREEMPT_REQUEST (R432). A PREEMPTd write asks the dispatcher to pre-empt the hart of a tag. -/
  | preemptRequest (die : Nat) (tag : BitVec 32)
  /-- HART_SAVE (R436). Once the streams stop, writes the save area and frees the slot and lane groups. -/
  | hartSave (tag : BitVec 32)
  /-- CHECK_MISMATCH (R450). A checking-lane mismatch discards pending groups and reissues them. -/
  | checkMismatch (tag : BitVec 32) (inst : IssuedInstr) (at_ : Nat × Nat) (second : Bool) (dest : List (Nat × Nat)) (found : SpareSave)
  /-- UNCORRECTABLE_CONSUMED (R450). Consuming an uncorrectable word causes a replay, or poison at once. -/
  | uncorrectableConsumed (tag : BitVec 32) (inst : IssuedInstr) (memory : Bool) (address row elem : Nat) (second : Bool)
      (dest : List (Nat × Nat))
  /-- LANE_SPARE (R455). Pre-empts the affected harts and replaces a failed lane by the checking lane. -/
  | laneSpare (die core group lane corrected : Nat) (bad : List (BitVec 32))
  /-- GROUP_RETIRE (R456). Retires a lane group that has no spare and pre-empts its harts. -/
  | groupRetire (die core group lane : Nat) (storage : Bool)
  /-- LINK_FRAME_RECEIVE (R473). A Rolud frame is checked by CRC and GCM tag, then applied or retransmitted. -/
  | linkFrameReceive (link direction : Nat) (crcOk tagOk inOrder : Bool)
  /-- LINK_REKEY (R472). A frame counter reaching 2^48 retrains the link with new keys. -/
  | linkRekey (link direction : Nat)
  /-- LINK_LOSS (R473). A link loses training and cannot retrain. -/
  | linkLoss (link : Nat)
  /-- PARTCFG_WRITE (R475). The management processor reassigns dies to partitions, subject to shape and occupancy checks. -/
  | partcfgWrite (value : BitVec 64)
  /-- PARTRST (R482). Restarts a stopped partition: retrains its links and clears its on-die state. -/
  | partrst (value : BitVec 64)
  /-- FABRIC_FRAME_RECEIVE (R490). A MACsec-protected fabric frame arrives and is checked, forwarded or retransmitted. -/
  | fabricFrameReceive (port : Nat) (fcsOk icvOk : Bool) (frame : FabricFrame)
  /-- HOST_RDMA_WRITE (R527). A host RDMA WRITE reaches a window or an enqueue window. -/
  | hostRdmaWrite (qp : Nat) (rkey : BitVec 32) (offset : BitVec 64) (bytes : List (BitVec 8))
  /-- HOST_RDMA_READ (R527). A host RDMA READ of a window or of enqueue counters. -/
  | hostRdmaRead (qp : Nat) (rkey : BitVec 32) (offset : BitVec 64) (len : Nat)
  /-- HOST_INVALID_OPCODE (R525). An unsupported RoCE opcode is NAKed and puts its queue pair in error. -/
  | hostInvalidOpcode (qp : Nat)
  /-- HOST_PORT_INTEGRITY_FAIL (R525). A host-port integrity failure puts every queue pair of the port in error. -/
  | hostPortIntegrityFail (port : Nat)
  /-- PWRCTL_WRITE (R533). Sets a die's vector cap, token count, limit and power-cap mode. -/
  | pwrctlWrite (die : Nat) (value : BitVec 64)
  /-- TELEMETRY_SAMPLE (R535). Every 2^20 cycles the management processor samples temperatures and power. -/
  | telemetrySample (temps powers coolant : List Nat)
  /-- BRING_UP (R530). After reset, verifies firmware, trains links, recovers Bedrock and brings up the control cores and host ports. -/
  | bringUp (images : List (List (BitVec 8) × Nat × List (List (BitVec 8) × List (BitVec 8)))) (entries : List (BitVec 64))
      (writes : List (Nat × BitVec 64))
  /-- ATTESTATION_REPORT (R532). Returns a doubly signed measurement report for a nonce. -/
  | attestationReport (nonce : List (BitVec 8))
  /-- REGISTER_WRITE (R270). A write to a hub register that has no row of its own, subject to privilege and field access. -/
  | registerWrite (agent pa : Nat) (value : BitVec 64)
  /-- UNALLOCATED_ENCODING (R71). Fetching the parcel 0x0000, a word of an illegal or reserved major, or an unallocated func value raises ILLOP. -/
  | unallocatedEncoding (raw : BitVec 32)
  /-- CYCLE_INCREMENT (R23). A core's CYCLE count rises by one on every cycle of its clock and wraps at 2^64. -/
  | cycleIncrement (core : Nat)
  /-- LINK_TRAINING_COMPLETE (R474). A Rolud link finishes training or retraining, sets UP and resumes the traffic that was waiting. -/
  | linkTrainingComplete (link : Nat)
  /-- PORT_LINK_UP (R490). A rail, node or host port comes up, receives fresh MACsec keys and sets UP. -/
  | portLinkUp (host : Bool) (port : Nat)
  /-- FABRIC_LINK_LOSS (R491). A rail or node port loses its link and cannot retrain, which stops every partition of the package. -/
  | fabricLinkLoss (port : Nat)
  /-- HOST_APERTURE_RESPONSE (R529). The host's ACK or RDMA READ response for an aperture store or load arrives on its queue pair. -/
  | hostApertureResponse (id : Nat) (data : Option (BitVec 64))
  deriving DecidableEq, Repr

end Sys2Proof
end

