-- ==== Sys2Proof/WellFormed.lean ====
section
/-! DEFINITION. Which field values an instruction may carry (spec/02_encoding_and_assembly.md R42-R64, R67, R71):
everything else raises ILLOP when the word decodes. -/

namespace Sys2Proof

/-- The CSR numbers of R104. -/
def csrListed (c : BitVec 12) : Bool :=
  c.toNat ∈ [0x000, 0x001, 0x002, 0x003, 0x008, 0x009, 0x00A, 0x00B, 0x010, 0x011,
    0x020, 0x021, 0x022, 0x023, 0x024, 0x025, 0x026, 0x027, 0x028]

/-- R50: the scope is 0-5; a scope needs an ordering bit; scope 5 needs REL. -/
def amoOk (acq rel : BitVec 1) (scope : BitVec 3) : Bool :=
  scope.toNat ≤ 5 && (scope == 0 || acq == 1 || rel == 1) && (scope != 5 || rel == 1)

/-- R51: a floating-point type code and a rounding mode field 0-5. -/
def fpOk (t m : BitVec 3) : Bool := t.toNat ≤ 3 && m.toNat ≤ 5

/-- The subfield values and combinations that R42-R64 and R67 allow. Events carry no encoding. -/
def Instr.wf : Instr → Bool
  -- R39: the parcel 0x0000 is no instruction
  | .cAdd d s => d != 0 || s != 0
  -- R104
  | .csrr _ c | .csrw _ _ c | .csrset _ _ c | .csrclr _ _ c => csrListed c
  -- R48
  | .qpsh _ q | .qpop _ q | .qcnt _ q => q.toNat ≤ 5
  -- R50
  | .amoadd _ _ _ s l q _ | .amoswp _ _ _ s l q _ | .amocas _ _ _ s l q _ | .amoand _ _ _ s l q _
  | .amoor _ _ _ s l q _ | .amoxor _ _ _ s l q _ | .amomin _ _ _ s l q _ | .amomax _ _ _ s l q _
  | .amominu _ _ _ s l q _ | .amomaxu _ _ _ s l q _ => amoOk q l s
  | .lda _ _ s _ => s.toNat ≤ 4
  | .stl _ _ s _ => s.toNat ≤ 5
  -- R51
  | .fadd _ _ _ m t | .fsub _ _ _ m t | .fmul _ _ _ m t | .fdiv _ _ _ m t
  | .fma _ _ _ m t | .fmsub _ _ _ m t | .fnma _ _ _ m t => fpOk t m
  | .fsqrt _ _ m t => fpOk t m
  | .fmin _ _ _ t | .fmax _ _ _ t | .feq _ _ _ t | .flt _ _ _ t | .fle _ _ _ t | .funord _ _ _ t => t.toNat ≤ 3
  | .fclass _ _ t => t.toNat ≤ 3
  | .fsign _ _ b r t => t.toNat ≤ 3 && r.toNat ≤ 4 && (r.toNat < 3 || b == 0)
  | .fcvt _ _ s m t => m.toNat ≤ 5 && t != s && (t.toNat ≤ 3 || s.toNat ≤ 3)
  -- R67
  | .pfx r c e v p => (e == 1 || c == 1) && (c == 1 || r == 0) && (e == 1 || (p == 0 && v == 0))
  -- R52
  | .vset _ _ _ _ x e _ _ => x == 0 || e.toNat ≤ 1
  -- R54, R55, R56
  | .vmerge _ _ _ k _ => k != 0
  | .vpiv _ n _ _ => n != 0
  | .vcmpEq d _ _ _ _ | .vcmpNe d _ _ _ _ | .vcmpLt d _ _ _ _ | .vcmpLe d _ _ _ _ | .vcmpLtu d _ _ _ _
  | .vcmpLeu d _ _ _ _ | .vfcmpEq d _ _ _ _ | .vfcmpLt d _ _ _ _ | .vfcmpLe d _ _ _ _
  | .vfcmpUnord d _ _ _ _ => d != 0
  | .mand d a b | .mor d a b | .mxor d a b | .mandn d a b => d != 0 && a != 0 && b != 0
  | .mnot d b | .mmv d b => d != 0 && b != 0
  | .mpopc _ b _ | .mfirst _ b _ => b != 0
  | .vcompr _ _ k | .vexpd _ _ k => k != 0
  | .vpopq _ q _ => q != 3
  | .vpshq q _ => q != 3
  -- R57
  | .vfcvt _ c _ _ => c.toNat ≤ 5
  -- R59
  | .vamoAdd _ _ _ _ s l q | .vamoSwp _ _ _ _ s l q | .vamoAnd _ _ _ _ s l q | .vamoOr _ _ _ _ s l q
  | .vamoXor _ _ _ _ s l q | .vamoMin _ _ _ _ s l q | .vamoMax _ _ _ _ s l q | .vamoMinu _ _ _ _ s l q
  | .vamoMaxu _ _ _ _ s l q | .vamoFmin _ _ _ _ s l q | .vamoFmax _ _ _ _ s l q => s == 0 || q == 1 || l == 1
  -- R60
  | .vwaitEq d n _ _ | .vwaitNe d n _ _ | .vwaitLt d n _ _ | .vwaitGe d n _ _ | .vwaitLtu d n _ _
  | .vwaitGeu d n _ _ => d != 0 && n.toNat ≤ 29
  | .fence s _ => s.toNat ≤ 4
  -- R61
  | .maccr _ m _ => m.toNat ≤ 5
  -- R63
  | .bar s => s.toNat ≤ 3
  | .bara _ s => s.toNat ≤ 3
  | .barw _ s => s.toNat ≤ 3
  -- R64
  | .cred _ _ _ k => k.toNat ≤ 7
  | _ => true

end Sys2Proof
end

