-- ==== Sys2Proof/Decode.lean ====
section
/-! DEFINITION. Decoding and encoding (spec/02_encoding_and_assembly.md R39-R71; match, mask and fields of
spec/opcode_table.json). Decoding is total on any bytes and rejects by name; the encoder is the inverse. -/

namespace Sys2Proof

/-- Why a parcel or word is no instruction (R71, step 1). -/
inductive DecodeError where
  /-- the parcel 0x0000 (R27, R39) -/
  | zeroParcel
  /-- an op5 value 16-31 (R42) -/
  | reservedCompact
  /-- a major the map of R43 does not allocate -/
  | reservedMajor
  /-- a func, func3, func6, func10 or cond value not allocated, or a nonzero field marked 0 (R41, R71) -/
  | reservedFunction
  /-- a reserved subfield value or a field combination named as ILLOP (R71) -/
  | reservedField
  /-- fewer bytes than the instruction occupies -/
  | tooShort
  deriving DecidableEq, Repr

/-! ## Encodings, one function per encoded row (R40-R64): the fixed bits and the fields in their places. -/

def Enc.add (d : BitVec 5) (a : BitVec 5) (b : BitVec 5) : Nat := 3 + d.toNat * 128 + a.toNat * 4096 + b.toNat * 131072
def Enc.sub (d : BitVec 5) (a : BitVec 5) (b : BitVec 5) : Nat := 4194307 + d.toNat * 128 + a.toNat * 4096 + b.toNat * 131072
def Enc.and (d : BitVec 5) (a : BitVec 5) (b : BitVec 5) : Nat := 8388611 + d.toNat * 128 + a.toNat * 4096 + b.toNat * 131072
def Enc.or (d : BitVec 5) (a : BitVec 5) (b : BitVec 5) : Nat := 12582915 + d.toNat * 128 + a.toNat * 4096 + b.toNat * 131072
def Enc.xor (d : BitVec 5) (a : BitVec 5) (b : BitVec 5) : Nat := 16777219 + d.toNat * 128 + a.toNat * 4096 + b.toNat * 131072
def Enc.andn (d : BitVec 5) (a : BitVec 5) (b : BitVec 5) : Nat := 20971523 + d.toNat * 128 + a.toNat * 4096 + b.toNat * 131072
def Enc.orn (d : BitVec 5) (a : BitVec 5) (b : BitVec 5) : Nat := 25165827 + d.toNat * 128 + a.toNat * 4096 + b.toNat * 131072
def Enc.sll (d : BitVec 5) (a : BitVec 5) (b : BitVec 5) : Nat := 29360131 + d.toNat * 128 + a.toNat * 4096 + b.toNat * 131072
def Enc.srl (d : BitVec 5) (a : BitVec 5) (b : BitVec 5) : Nat := 33554435 + d.toNat * 128 + a.toNat * 4096 + b.toNat * 131072
def Enc.sra (d : BitVec 5) (a : BitVec 5) (b : BitVec 5) : Nat := 37748739 + d.toNat * 128 + a.toNat * 4096 + b.toNat * 131072
def Enc.rol (d : BitVec 5) (a : BitVec 5) (b : BitVec 5) : Nat := 41943043 + d.toNat * 128 + a.toNat * 4096 + b.toNat * 131072
def Enc.ror (d : BitVec 5) (a : BitVec 5) (b : BitVec 5) : Nat := 46137347 + d.toNat * 128 + a.toNat * 4096 + b.toNat * 131072
def Enc.min (d : BitVec 5) (a : BitVec 5) (b : BitVec 5) : Nat := 50331651 + d.toNat * 128 + a.toNat * 4096 + b.toNat * 131072
def Enc.max (d : BitVec 5) (a : BitVec 5) (b : BitVec 5) : Nat := 54525955 + d.toNat * 128 + a.toNat * 4096 + b.toNat * 131072
def Enc.minu (d : BitVec 5) (a : BitVec 5) (b : BitVec 5) : Nat := 58720259 + d.toNat * 128 + a.toNat * 4096 + b.toNat * 131072
def Enc.maxu (d : BitVec 5) (a : BitVec 5) (b : BitVec 5) : Nat := 62914563 + d.toNat * 128 + a.toNat * 4096 + b.toNat * 131072
def Enc.slt (d : BitVec 5) (a : BitVec 5) (b : BitVec 5) : Nat := 67108867 + d.toNat * 128 + a.toNat * 4096 + b.toNat * 131072
def Enc.sltu (d : BitVec 5) (a : BitVec 5) (b : BitVec 5) : Nat := 71303171 + d.toNat * 128 + a.toNat * 4096 + b.toNat * 131072
def Enc.seq (d : BitVec 5) (a : BitVec 5) (b : BitVec 5) : Nat := 75497475 + d.toNat * 128 + a.toNat * 4096 + b.toNat * 131072
def Enc.sne (d : BitVec 5) (a : BitVec 5) (b : BitVec 5) : Nat := 79691779 + d.toNat * 128 + a.toNat * 4096 + b.toNat * 131072
def Enc.clz (d : BitVec 5) (a : BitVec 5) : Nat := 83886083 + d.toNat * 128 + a.toNat * 4096
def Enc.ctz (d : BitVec 5) (a : BitVec 5) : Nat := 88080387 + d.toNat * 128 + a.toNat * 4096
def Enc.popc (d : BitVec 5) (a : BitVec 5) : Nat := 92274691 + d.toNat * 128 + a.toNat * 4096
def Enc.bswap (d : BitVec 5) (a : BitVec 5) : Nat := 96468995 + d.toNat * 128 + a.toNat * 4096
def Enc.mul (d : BitVec 5) (a : BitVec 5) (b : BitVec 5) : Nat := 100663299 + d.toNat * 128 + a.toNat * 4096 + b.toNat * 131072
def Enc.mulh (d : BitVec 5) (a : BitVec 5) (b : BitVec 5) : Nat := 104857603 + d.toNat * 128 + a.toNat * 4096 + b.toNat * 131072
def Enc.mulhu (d : BitVec 5) (a : BitVec 5) (b : BitVec 5) : Nat := 109051907 + d.toNat * 128 + a.toNat * 4096 + b.toNat * 131072
def Enc.div (d : BitVec 5) (a : BitVec 5) (b : BitVec 5) : Nat := 113246211 + d.toNat * 128 + a.toNat * 4096 + b.toNat * 131072
def Enc.divu (d : BitVec 5) (a : BitVec 5) (b : BitVec 5) : Nat := 117440515 + d.toNat * 128 + a.toNat * 4096 + b.toNat * 131072
def Enc.rem (d : BitVec 5) (a : BitVec 5) (b : BitVec 5) : Nat := 121634819 + d.toNat * 128 + a.toNat * 4096 + b.toNat * 131072
def Enc.remu (d : BitVec 5) (a : BitVec 5) (b : BitVec 5) : Nat := 125829123 + d.toNat * 128 + a.toNat * 4096 + b.toNat * 131072
def Enc.sel (d : BitVec 5) (a : BitVec 5) (b : BitVec 5) : Nat := 130023427 + d.toNat * 128 + a.toNat * 4096 + b.toNat * 131072
def Enc.addi (d : BitVec 5) (a : BitVec 5) (i : BitVec 15) : Nat := 5 + d.toNat * 128 + a.toNat * 4096 + i.toNat * 131072
def Enc.andi (d : BitVec 5) (a : BitVec 5) (i : BitVec 15) : Nat := 7 + d.toNat * 128 + a.toNat * 4096 + i.toNat * 131072
def Enc.ori (d : BitVec 5) (a : BitVec 5) (i : BitVec 15) : Nat := 9 + d.toNat * 128 + a.toNat * 4096 + i.toNat * 131072
def Enc.xori (d : BitVec 5) (a : BitVec 5) (i : BitVec 15) : Nat := 11 + d.toNat * 128 + a.toNat * 4096 + i.toNat * 131072
def Enc.slli (d : BitVec 5) (a : BitVec 5) (s : BitVec 6) : Nat := 13 + d.toNat * 128 + a.toNat * 4096 + s.toNat * 1048576
def Enc.srli (d : BitVec 5) (a : BitVec 5) (s : BitVec 6) : Nat := 131085 + d.toNat * 128 + a.toNat * 4096 + s.toNat * 1048576
def Enc.srai (d : BitVec 5) (a : BitVec 5) (s : BitVec 6) : Nat := 262157 + d.toNat * 128 + a.toNat * 4096 + s.toNat * 1048576
def Enc.slti (d : BitVec 5) (a : BitVec 5) (i : BitVec 12) : Nat := 393229 + d.toNat * 128 + a.toNat * 4096 + i.toNat * 1048576
def Enc.ldhi (d : BitVec 5) (i : BitVec 20) : Nat := 15 + d.toNat * 128 + i.toNat * 4096
def Enc.addpc (d : BitVec 5) (i : BitVec 20) : Nat := 17 + d.toNat * 128 + i.toNat * 4096
def Enc.beq (a : BitVec 5) (b : BitVec 5) (o : BitVec 12) : Nat := 19 + a.toNat * 128 + b.toNat * 4096 + o.toNat * 1048576
def Enc.bne (a : BitVec 5) (b : BitVec 5) (o : BitVec 12) : Nat := 131091 + a.toNat * 128 + b.toNat * 4096 + o.toNat * 1048576
def Enc.blt (a : BitVec 5) (b : BitVec 5) (o : BitVec 12) : Nat := 262163 + a.toNat * 128 + b.toNat * 4096 + o.toNat * 1048576
def Enc.bge (a : BitVec 5) (b : BitVec 5) (o : BitVec 12) : Nat := 393235 + a.toNat * 128 + b.toNat * 4096 + o.toNat * 1048576
def Enc.bltu (a : BitVec 5) (b : BitVec 5) (o : BitVec 12) : Nat := 524307 + a.toNat * 128 + b.toNat * 4096 + o.toNat * 1048576
def Enc.bgeu (a : BitVec 5) (b : BitVec 5) (o : BitVec 12) : Nat := 655379 + a.toNat * 128 + b.toNat * 4096 + o.toNat * 1048576
def Enc.jal (d : BitVec 5) (o : BitVec 20) : Nat := 21 + d.toNat * 128 + o.toNat * 4096
def Enc.jalr (d : BitVec 5) (a : BitVec 5) (i : BitVec 12) : Nat := 23 + d.toNat * 128 + a.toNat * 4096 + i.toNat * 1048576
def Enc.strip (d : BitVec 5) (a : BitVec 5) (o : BitVec 12) : Nat := 25 + d.toNat * 128 + a.toNat * 4096 + o.toNat * 1048576
def Enc.csrr (d : BitVec 5) (c : BitVec 12) : Nat := 27 + d.toNat * 128 + c.toNat * 1048576
def Enc.csrw (d : BitVec 5) (a : BitVec 5) (c : BitVec 12) : Nat := 131099 + d.toNat * 128 + a.toNat * 4096 + c.toNat * 1048576
def Enc.csrset (d : BitVec 5) (a : BitVec 5) (c : BitVec 12) : Nat := 262171 + d.toNat * 128 + a.toNat * 4096 + c.toNat * 1048576
def Enc.csrclr (d : BitVec 5) (a : BitVec 5) (c : BitVec 12) : Nat := 393243 + d.toNat * 128 + a.toNat * 4096 + c.toNat * 1048576
def Enc.trap (i : BitVec 12) : Nat := 524315 + i.toNat * 1048576
def Enc.sig (h : BitVec 4) (l : BitVec 12) : Nat := 655387 + h.toNat * 4096 + l.toNat * 1048576
def Enc.rft : Nat := 786459
def Enc.exit : Nat := 1835035
def Enc.yield : Nat := 2883611
def Enc.ifence : Nat := 3932187
def Enc.frpop (d : BitVec 5) (a : BitVec 5) (e : BitVec 2) : Nat := 917531 + d.toNat * 128 + a.toNat * 4096 + e.toNat * 1048576
def Enc.resume (d : BitVec 5) (a : BitVec 5) : Nat := 269352987 + d.toNat * 128 + a.toNat * 4096
def Enc.kill (d : BitVec 5) (a : BitVec 5) : Nat := 537788443 + d.toNat * 128 + a.toNat * 4096
def Enc.pfx (r : BitVec 5) (c : BitVec 1) (e : BitVec 1) (v : BitVec 1) (p : BitVec 5) : Nat := 29 + r.toNat * 128 + c.toNat * 4096 + e.toNat * 8192 + v.toNat * 16384 + p.toNat * 32768
def Enc.qpsh (a : BitVec 5) (q : BitVec 3) : Nat := 31 + a.toNat * 4096 + q.toNat * 1048576
def Enc.qpop (d : BitVec 5) (q : BitVec 3) : Nat := 131103 + d.toNat * 128 + q.toNat * 1048576
def Enc.qcnt (d : BitVec 5) (q : BitVec 3) : Nat := 262175 + d.toNat * 128 + q.toNat * 1048576
def Enc.ldb (d : BitVec 5) (a : BitVec 5) (i : BitVec 12) : Nat := 33 + d.toNat * 128 + a.toNat * 4096 + i.toNat * 1048576
def Enc.ldbz (d : BitVec 5) (a : BitVec 5) (i : BitVec 12) : Nat := 131105 + d.toNat * 128 + a.toNat * 4096 + i.toNat * 1048576
def Enc.ldh (d : BitVec 5) (a : BitVec 5) (i : BitVec 12) : Nat := 262177 + d.toNat * 128 + a.toNat * 4096 + i.toNat * 1048576
def Enc.ldhz (d : BitVec 5) (a : BitVec 5) (i : BitVec 12) : Nat := 393249 + d.toNat * 128 + a.toNat * 4096 + i.toNat * 1048576
def Enc.ldw (d : BitVec 5) (a : BitVec 5) (i : BitVec 12) : Nat := 524321 + d.toNat * 128 + a.toNat * 4096 + i.toNat * 1048576
def Enc.ldwz (d : BitVec 5) (a : BitVec 5) (i : BitVec 12) : Nat := 655393 + d.toNat * 128 + a.toNat * 4096 + i.toNat * 1048576
def Enc.ldd (d : BitVec 5) (a : BitVec 5) (i : BitVec 12) : Nat := 786465 + d.toNat * 128 + a.toNat * 4096 + i.toNat * 1048576
def Enc.stb (d : BitVec 5) (a : BitVec 5) (i : BitVec 12) : Nat := 35 + d.toNat * 128 + a.toNat * 4096 + i.toNat * 1048576
def Enc.sth (d : BitVec 5) (a : BitVec 5) (i : BitVec 12) : Nat := 131107 + d.toNat * 128 + a.toNat * 4096 + i.toNat * 1048576
def Enc.stw (d : BitVec 5) (a : BitVec 5) (i : BitVec 12) : Nat := 262179 + d.toNat * 128 + a.toNat * 4096 + i.toNat * 1048576
def Enc.std (d : BitVec 5) (a : BitVec 5) (i : BitVec 12) : Nat := 393251 + d.toNat * 128 + a.toNat * 4096 + i.toNat * 1048576
def Enc.amoadd (d : BitVec 5) (a : BitVec 5) (b : BitVec 5) (s : BitVec 3) (l : BitVec 1) (q : BitVec 1) (z : BitVec 1) : Nat := 37 + d.toNat * 128 + a.toNat * 4096 + b.toNat * 131072 + s.toNat * 4194304 + l.toNat * 33554432 + q.toNat * 67108864 + z.toNat * 134217728
def Enc.amoswp (d : BitVec 5) (a : BitVec 5) (b : BitVec 5) (s : BitVec 3) (l : BitVec 1) (q : BitVec 1) (z : BitVec 1) : Nat := 268435493 + d.toNat * 128 + a.toNat * 4096 + b.toNat * 131072 + s.toNat * 4194304 + l.toNat * 33554432 + q.toNat * 67108864 + z.toNat * 134217728
def Enc.amocas (d : BitVec 5) (a : BitVec 5) (b : BitVec 5) (s : BitVec 3) (l : BitVec 1) (q : BitVec 1) (z : BitVec 1) : Nat := 536870949 + d.toNat * 128 + a.toNat * 4096 + b.toNat * 131072 + s.toNat * 4194304 + l.toNat * 33554432 + q.toNat * 67108864 + z.toNat * 134217728
def Enc.amoand (d : BitVec 5) (a : BitVec 5) (b : BitVec 5) (s : BitVec 3) (l : BitVec 1) (q : BitVec 1) (z : BitVec 1) : Nat := 805306405 + d.toNat * 128 + a.toNat * 4096 + b.toNat * 131072 + s.toNat * 4194304 + l.toNat * 33554432 + q.toNat * 67108864 + z.toNat * 134217728
def Enc.amoor (d : BitVec 5) (a : BitVec 5) (b : BitVec 5) (s : BitVec 3) (l : BitVec 1) (q : BitVec 1) (z : BitVec 1) : Nat := 1073741861 + d.toNat * 128 + a.toNat * 4096 + b.toNat * 131072 + s.toNat * 4194304 + l.toNat * 33554432 + q.toNat * 67108864 + z.toNat * 134217728
def Enc.amoxor (d : BitVec 5) (a : BitVec 5) (b : BitVec 5) (s : BitVec 3) (l : BitVec 1) (q : BitVec 1) (z : BitVec 1) : Nat := 1342177317 + d.toNat * 128 + a.toNat * 4096 + b.toNat * 131072 + s.toNat * 4194304 + l.toNat * 33554432 + q.toNat * 67108864 + z.toNat * 134217728
def Enc.amomin (d : BitVec 5) (a : BitVec 5) (b : BitVec 5) (s : BitVec 3) (l : BitVec 1) (q : BitVec 1) (z : BitVec 1) : Nat := 1610612773 + d.toNat * 128 + a.toNat * 4096 + b.toNat * 131072 + s.toNat * 4194304 + l.toNat * 33554432 + q.toNat * 67108864 + z.toNat * 134217728
def Enc.amomax (d : BitVec 5) (a : BitVec 5) (b : BitVec 5) (s : BitVec 3) (l : BitVec 1) (q : BitVec 1) (z : BitVec 1) : Nat := 1879048229 + d.toNat * 128 + a.toNat * 4096 + b.toNat * 131072 + s.toNat * 4194304 + l.toNat * 33554432 + q.toNat * 67108864 + z.toNat * 134217728
def Enc.amominu (d : BitVec 5) (a : BitVec 5) (b : BitVec 5) (s : BitVec 3) (l : BitVec 1) (q : BitVec 1) (z : BitVec 1) : Nat := 2147483685 + d.toNat * 128 + a.toNat * 4096 + b.toNat * 131072 + s.toNat * 4194304 + l.toNat * 33554432 + q.toNat * 67108864 + z.toNat * 134217728
def Enc.amomaxu (d : BitVec 5) (a : BitVec 5) (b : BitVec 5) (s : BitVec 3) (l : BitVec 1) (q : BitVec 1) (z : BitVec 1) : Nat := 2415919141 + d.toNat * 128 + a.toNat * 4096 + b.toNat * 131072 + s.toNat * 4194304 + l.toNat * 33554432 + q.toNat * 67108864 + z.toNat * 134217728
def Enc.lda (d : BitVec 5) (a : BitVec 5) (s : BitVec 3) (z : BitVec 1) : Nat := 2751463461 + d.toNat * 128 + a.toNat * 4096 + s.toNat * 4194304 + z.toNat * 134217728
def Enc.stl (a : BitVec 5) (b : BitVec 5) (s : BitVec 3) (z : BitVec 1) : Nat := 2986344485 + a.toNat * 4096 + b.toNat * 131072 + s.toNat * 4194304 + z.toNat * 134217728
def Enc.fadd (d : BitVec 5) (a : BitVec 5) (b : BitVec 5) (m : BitVec 3) (t : BitVec 3) : Nat := 39 + d.toNat * 128 + a.toNat * 4096 + b.toNat * 131072 + m.toNat * 4194304 + t.toNat * 33554432
def Enc.fsub (d : BitVec 5) (a : BitVec 5) (b : BitVec 5) (m : BitVec 3) (t : BitVec 3) : Nat := 268435495 + d.toNat * 128 + a.toNat * 4096 + b.toNat * 131072 + m.toNat * 4194304 + t.toNat * 33554432
def Enc.fmul (d : BitVec 5) (a : BitVec 5) (b : BitVec 5) (m : BitVec 3) (t : BitVec 3) : Nat := 536870951 + d.toNat * 128 + a.toNat * 4096 + b.toNat * 131072 + m.toNat * 4194304 + t.toNat * 33554432
def Enc.fdiv (d : BitVec 5) (a : BitVec 5) (b : BitVec 5) (m : BitVec 3) (t : BitVec 3) : Nat := 805306407 + d.toNat * 128 + a.toNat * 4096 + b.toNat * 131072 + m.toNat * 4194304 + t.toNat * 33554432
def Enc.fsqrt (d : BitVec 5) (a : BitVec 5) (m : BitVec 3) (t : BitVec 3) : Nat := 1073741863 + d.toNat * 128 + a.toNat * 4096 + m.toNat * 4194304 + t.toNat * 33554432
def Enc.fmin (d : BitVec 5) (a : BitVec 5) (b : BitVec 5) (t : BitVec 3) : Nat := 1342177319 + d.toNat * 128 + a.toNat * 4096 + b.toNat * 131072 + t.toNat * 33554432
def Enc.fmax (d : BitVec 5) (a : BitVec 5) (b : BitVec 5) (t : BitVec 3) : Nat := 1610612775 + d.toNat * 128 + a.toNat * 4096 + b.toNat * 131072 + t.toNat * 33554432
def Enc.feq (d : BitVec 5) (a : BitVec 5) (b : BitVec 5) (t : BitVec 3) : Nat := 1879048231 + d.toNat * 128 + a.toNat * 4096 + b.toNat * 131072 + t.toNat * 33554432
def Enc.flt (d : BitVec 5) (a : BitVec 5) (b : BitVec 5) (t : BitVec 3) : Nat := 2147483687 + d.toNat * 128 + a.toNat * 4096 + b.toNat * 131072 + t.toNat * 33554432
def Enc.fle (d : BitVec 5) (a : BitVec 5) (b : BitVec 5) (t : BitVec 3) : Nat := 2415919143 + d.toNat * 128 + a.toNat * 4096 + b.toNat * 131072 + t.toNat * 33554432
def Enc.funord (d : BitVec 5) (a : BitVec 5) (b : BitVec 5) (t : BitVec 3) : Nat := 2684354599 + d.toNat * 128 + a.toNat * 4096 + b.toNat * 131072 + t.toNat * 33554432
def Enc.fcvt (d : BitVec 5) (a : BitVec 5) (s : BitVec 3) (m : BitVec 3) (t : BitVec 3) : Nat := 2952790055 + d.toNat * 128 + a.toNat * 4096 + s.toNat * 131072 + m.toNat * 4194304 + t.toNat * 33554432
def Enc.fclass (d : BitVec 5) (a : BitVec 5) (t : BitVec 3) : Nat := 3221225511 + d.toNat * 128 + a.toNat * 4096 + t.toNat * 33554432
def Enc.fsign (d : BitVec 5) (a : BitVec 5) (b : BitVec 5) (r : BitVec 3) (t : BitVec 3) : Nat := 3489660967 + d.toNat * 128 + a.toNat * 4096 + b.toNat * 131072 + r.toNat * 4194304 + t.toNat * 33554432
def Enc.fma (d : BitVec 5) (a : BitVec 5) (b : BitVec 5) (m : BitVec 3) (t : BitVec 3) : Nat := 41 + d.toNat * 128 + a.toNat * 4096 + b.toNat * 131072 + m.toNat * 4194304 + t.toNat * 33554432
def Enc.fmsub (d : BitVec 5) (a : BitVec 5) (b : BitVec 5) (m : BitVec 3) (t : BitVec 3) : Nat := 268435497 + d.toNat * 128 + a.toNat * 4096 + b.toNat * 131072 + m.toNat * 4194304 + t.toNat * 33554432
def Enc.fnma (d : BitVec 5) (a : BitVec 5) (b : BitVec 5) (m : BitVec 3) (t : BitVec 3) : Nat := 536870953 + d.toNat * 128 + a.toNat * 4096 + b.toNat * 131072 + m.toNat * 4194304 + t.toNat * 33554432
def Enc.cAdd (d : BitVec 5) (s : BitVec 5) : Nat := 0 + d.toNat * 64 + s.toNat * 2048
def Enc.cSub (d : BitVec 5) (s : BitVec 5) : Nat := 2 + d.toNat * 64 + s.toNat * 2048
def Enc.cAnd (d : BitVec 5) (s : BitVec 5) : Nat := 4 + d.toNat * 64 + s.toNat * 2048
def Enc.cOr (d : BitVec 5) (s : BitVec 5) : Nat := 6 + d.toNat * 64 + s.toNat * 2048
def Enc.cXor (d : BitVec 5) (s : BitVec 5) : Nat := 8 + d.toNat * 64 + s.toNat * 2048
def Enc.cSll (d : BitVec 5) (s : BitVec 5) : Nat := 10 + d.toNat * 64 + s.toNat * 2048
def Enc.cSrl (d : BitVec 5) (s : BitVec 5) : Nat := 12 + d.toNat * 64 + s.toNat * 2048
def Enc.cMv (d : BitVec 5) (s : BitVec 5) : Nat := 14 + d.toNat * 64 + s.toNat * 2048
def Enc.cAddi (d : BitVec 5) (i : BitVec 5) : Nat := 16 + d.toNat * 64 + i.toNat * 2048
def Enc.cLi (d : BitVec 5) (i : BitVec 5) : Nat := 18 + d.toNat * 64 + i.toNat * 2048
def Enc.cLdd (d : BitVec 5) (s : BitVec 5) : Nat := 20 + d.toNat * 64 + s.toNat * 2048
def Enc.cStd (d : BitVec 5) (s : BitVec 5) : Nat := 22 + d.toNat * 64 + s.toNat * 2048
def Enc.cBeqz (l : BitVec 5) (h : BitVec 5) : Nat := 24 + l.toNat * 64 + h.toNat * 2048
def Enc.cBnez (l : BitVec 5) (h : BitVec 5) : Nat := 26 + l.toNat * 64 + h.toNat * 2048
def Enc.cVadd (d : BitVec 5) (s : BitVec 5) : Nat := 28 + d.toNat * 64 + s.toNat * 2048
def Enc.cVfma (d : BitVec 5) (s : BitVec 5) : Nat := 30 + d.toNat * 64 + s.toNat * 2048
def Enc.vset (d : BitVec 5) (a : BitVec 5) (m : BitVec 1) (t : BitVec 1) (x : BitVec 1) (e : BitVec 2) (l : BitVec 2) (r : BitVec 3) : Nat := 49 + d.toNat * 128 + a.toNat * 4096 + m.toNat * 131072 + t.toNat * 262144 + x.toNat * 1048576 + e.toNat * 2097152 + l.toNat * 8388608 + r.toNat * 33554432
def Enc.vadd (d : BitVec 5) (a : BitVec 5) (b : BitVec 5) (k : BitVec 3) (s : BitVec 1) : Nat := 51 + d.toNat * 128 + a.toNat * 4096 + b.toNat * 131072 + k.toNat * 4194304 + s.toNat * 33554432
def Enc.vsub (d : BitVec 5) (a : BitVec 5) (b : BitVec 5) (k : BitVec 3) (s : BitVec 1) : Nat := 67108915 + d.toNat * 128 + a.toNat * 4096 + b.toNat * 131072 + k.toNat * 4194304 + s.toNat * 33554432
def Enc.vrsub (d : BitVec 5) (a : BitVec 5) (b : BitVec 5) (k : BitVec 3) (s : BitVec 1) : Nat := 134217779 + d.toNat * 128 + a.toNat * 4096 + b.toNat * 131072 + k.toNat * 4194304 + s.toNat * 33554432
def Enc.vmul (d : BitVec 5) (a : BitVec 5) (b : BitVec 5) (k : BitVec 3) (s : BitVec 1) : Nat := 201326643 + d.toNat * 128 + a.toNat * 4096 + b.toNat * 131072 + k.toNat * 4194304 + s.toNat * 33554432
def Enc.vmulh (d : BitVec 5) (a : BitVec 5) (b : BitVec 5) (k : BitVec 3) (s : BitVec 1) : Nat := 268435507 + d.toNat * 128 + a.toNat * 4096 + b.toNat * 131072 + k.toNat * 4194304 + s.toNat * 33554432
def Enc.vmulhu (d : BitVec 5) (a : BitVec 5) (b : BitVec 5) (k : BitVec 3) (s : BitVec 1) : Nat := 335544371 + d.toNat * 128 + a.toNat * 4096 + b.toNat * 131072 + k.toNat * 4194304 + s.toNat * 33554432
def Enc.vdiv (d : BitVec 5) (a : BitVec 5) (b : BitVec 5) (k : BitVec 3) (s : BitVec 1) : Nat := 402653235 + d.toNat * 128 + a.toNat * 4096 + b.toNat * 131072 + k.toNat * 4194304 + s.toNat * 33554432
def Enc.vdivu (d : BitVec 5) (a : BitVec 5) (b : BitVec 5) (k : BitVec 3) (s : BitVec 1) : Nat := 469762099 + d.toNat * 128 + a.toNat * 4096 + b.toNat * 131072 + k.toNat * 4194304 + s.toNat * 33554432
def Enc.vrem (d : BitVec 5) (a : BitVec 5) (b : BitVec 5) (k : BitVec 3) (s : BitVec 1) : Nat := 536870963 + d.toNat * 128 + a.toNat * 4096 + b.toNat * 131072 + k.toNat * 4194304 + s.toNat * 33554432
def Enc.vremu (d : BitVec 5) (a : BitVec 5) (b : BitVec 5) (k : BitVec 3) (s : BitVec 1) : Nat := 603979827 + d.toNat * 128 + a.toNat * 4096 + b.toNat * 131072 + k.toNat * 4194304 + s.toNat * 33554432
def Enc.vand (d : BitVec 5) (a : BitVec 5) (b : BitVec 5) (k : BitVec 3) (s : BitVec 1) : Nat := 671088691 + d.toNat * 128 + a.toNat * 4096 + b.toNat * 131072 + k.toNat * 4194304 + s.toNat * 33554432
def Enc.vor (d : BitVec 5) (a : BitVec 5) (b : BitVec 5) (k : BitVec 3) (s : BitVec 1) : Nat := 738197555 + d.toNat * 128 + a.toNat * 4096 + b.toNat * 131072 + k.toNat * 4194304 + s.toNat * 33554432
def Enc.vxor (d : BitVec 5) (a : BitVec 5) (b : BitVec 5) (k : BitVec 3) (s : BitVec 1) : Nat := 805306419 + d.toNat * 128 + a.toNat * 4096 + b.toNat * 131072 + k.toNat * 4194304 + s.toNat * 33554432
def Enc.vsll (d : BitVec 5) (a : BitVec 5) (b : BitVec 5) (k : BitVec 3) (s : BitVec 1) : Nat := 872415283 + d.toNat * 128 + a.toNat * 4096 + b.toNat * 131072 + k.toNat * 4194304 + s.toNat * 33554432
def Enc.vsrl (d : BitVec 5) (a : BitVec 5) (b : BitVec 5) (k : BitVec 3) (s : BitVec 1) : Nat := 939524147 + d.toNat * 128 + a.toNat * 4096 + b.toNat * 131072 + k.toNat * 4194304 + s.toNat * 33554432
def Enc.vsra (d : BitVec 5) (a : BitVec 5) (b : BitVec 5) (k : BitVec 3) (s : BitVec 1) : Nat := 1006633011 + d.toNat * 128 + a.toNat * 4096 + b.toNat * 131072 + k.toNat * 4194304 + s.toNat * 33554432
def Enc.vmin (d : BitVec 5) (a : BitVec 5) (b : BitVec 5) (k : BitVec 3) (s : BitVec 1) : Nat := 1073741875 + d.toNat * 128 + a.toNat * 4096 + b.toNat * 131072 + k.toNat * 4194304 + s.toNat * 33554432
def Enc.vmax (d : BitVec 5) (a : BitVec 5) (b : BitVec 5) (k : BitVec 3) (s : BitVec 1) : Nat := 1140850739 + d.toNat * 128 + a.toNat * 4096 + b.toNat * 131072 + k.toNat * 4194304 + s.toNat * 33554432
def Enc.vminu (d : BitVec 5) (a : BitVec 5) (b : BitVec 5) (k : BitVec 3) (s : BitVec 1) : Nat := 1207959603 + d.toNat * 128 + a.toNat * 4096 + b.toNat * 131072 + k.toNat * 4194304 + s.toNat * 33554432
def Enc.vmaxu (d : BitVec 5) (a : BitVec 5) (b : BitVec 5) (k : BitVec 3) (s : BitVec 1) : Nat := 1275068467 + d.toNat * 128 + a.toNat * 4096 + b.toNat * 131072 + k.toNat * 4194304 + s.toNat * 33554432
def Enc.vsadd (d : BitVec 5) (a : BitVec 5) (b : BitVec 5) (k : BitVec 3) (s : BitVec 1) : Nat := 1342177331 + d.toNat * 128 + a.toNat * 4096 + b.toNat * 131072 + k.toNat * 4194304 + s.toNat * 33554432
def Enc.vsaddu (d : BitVec 5) (a : BitVec 5) (b : BitVec 5) (k : BitVec 3) (s : BitVec 1) : Nat := 1409286195 + d.toNat * 128 + a.toNat * 4096 + b.toNat * 131072 + k.toNat * 4194304 + s.toNat * 33554432
def Enc.vssub (d : BitVec 5) (a : BitVec 5) (b : BitVec 5) (k : BitVec 3) (s : BitVec 1) : Nat := 1476395059 + d.toNat * 128 + a.toNat * 4096 + b.toNat * 131072 + k.toNat * 4194304 + s.toNat * 33554432
def Enc.vssubu (d : BitVec 5) (a : BitVec 5) (b : BitVec 5) (k : BitVec 3) (s : BitVec 1) : Nat := 1543503923 + d.toNat * 128 + a.toNat * 4096 + b.toNat * 131072 + k.toNat * 4194304 + s.toNat * 33554432
def Enc.vmerge (d : BitVec 5) (a : BitVec 5) (b : BitVec 5) (k : BitVec 3) (s : BitVec 1) : Nat := 1610612787 + d.toNat * 128 + a.toNat * 4096 + b.toNat * 131072 + k.toNat * 4194304 + s.toNat * 33554432
def Enc.vmv (d : BitVec 5) (b : BitVec 5) (k : BitVec 3) (s : BitVec 1) : Nat := 1677721651 + d.toNat * 128 + b.toNat * 131072 + k.toNat * 4194304 + s.toNat * 33554432
def Enc.vidx (d : BitVec 5) (k : BitVec 3) : Nat := 1744830515 + d.toNat * 128 + k.toNat * 4194304
def Enc.vfadd (d : BitVec 5) (a : BitVec 5) (b : BitVec 5) (k : BitVec 3) (s : BitVec 1) : Nat := 53 + d.toNat * 128 + a.toNat * 4096 + b.toNat * 131072 + k.toNat * 4194304 + s.toNat * 33554432
def Enc.vfsub (d : BitVec 5) (a : BitVec 5) (b : BitVec 5) (k : BitVec 3) (s : BitVec 1) : Nat := 67108917 + d.toNat * 128 + a.toNat * 4096 + b.toNat * 131072 + k.toNat * 4194304 + s.toNat * 33554432
def Enc.vfmul (d : BitVec 5) (a : BitVec 5) (b : BitVec 5) (k : BitVec 3) (s : BitVec 1) : Nat := 134217781 + d.toNat * 128 + a.toNat * 4096 + b.toNat * 131072 + k.toNat * 4194304 + s.toNat * 33554432
def Enc.vfdiv (d : BitVec 5) (a : BitVec 5) (b : BitVec 5) (k : BitVec 3) (s : BitVec 1) : Nat := 201326645 + d.toNat * 128 + a.toNat * 4096 + b.toNat * 131072 + k.toNat * 4194304 + s.toNat * 33554432
def Enc.vfsqrt (d : BitVec 5) (b : BitVec 5) (k : BitVec 3) (s : BitVec 1) : Nat := 268435509 + d.toNat * 128 + b.toNat * 131072 + k.toNat * 4194304 + s.toNat * 33554432
def Enc.vfma (d : BitVec 5) (a : BitVec 5) (b : BitVec 5) (k : BitVec 3) (s : BitVec 1) : Nat := 335544373 + d.toNat * 128 + a.toNat * 4096 + b.toNat * 131072 + k.toNat * 4194304 + s.toNat * 33554432
def Enc.vfmsub (d : BitVec 5) (a : BitVec 5) (b : BitVec 5) (k : BitVec 3) (s : BitVec 1) : Nat := 402653237 + d.toNat * 128 + a.toNat * 4096 + b.toNat * 131072 + k.toNat * 4194304 + s.toNat * 33554432
def Enc.vfnma (d : BitVec 5) (a : BitVec 5) (b : BitVec 5) (k : BitVec 3) (s : BitVec 1) : Nat := 469762101 + d.toNat * 128 + a.toNat * 4096 + b.toNat * 131072 + k.toNat * 4194304 + s.toNat * 33554432
def Enc.vfmin (d : BitVec 5) (a : BitVec 5) (b : BitVec 5) (k : BitVec 3) (s : BitVec 1) : Nat := 536870965 + d.toNat * 128 + a.toNat * 4096 + b.toNat * 131072 + k.toNat * 4194304 + s.toNat * 33554432
def Enc.vfmax (d : BitVec 5) (a : BitVec 5) (b : BitVec 5) (k : BitVec 3) (s : BitVec 1) : Nat := 603979829 + d.toNat * 128 + a.toNat * 4096 + b.toNat * 131072 + k.toNat * 4194304 + s.toNat * 33554432
def Enc.vfsign (d : BitVec 5) (a : BitVec 5) (b : BitVec 5) (k : BitVec 3) (s : BitVec 1) : Nat := 671088693 + d.toNat * 128 + a.toNat * 4096 + b.toNat * 131072 + k.toNat * 4194304 + s.toNat * 33554432
def Enc.vfclass (d : BitVec 5) (b : BitVec 5) (k : BitVec 3) (s : BitVec 1) : Nat := 738197557 + d.toNat * 128 + b.toNat * 131072 + k.toNat * 4194304 + s.toNat * 33554432
def Enc.vpiv (d : BitVec 5) (n : BitVec 3) (b : BitVec 5) (k : BitVec 3) : Nat := 838860853 + d.toNat * 128 + n.toNat * 4096 + b.toNat * 131072 + k.toNat * 4194304
def Enc.vcmpEq (d : BitVec 3) (a : BitVec 5) (b : BitVec 5) (k : BitVec 3) (s : BitVec 1) : Nat := 55 + d.toNat * 128 + a.toNat * 4096 + b.toNat * 131072 + k.toNat * 4194304 + s.toNat * 33554432
def Enc.vcmpNe (d : BitVec 3) (a : BitVec 5) (b : BitVec 5) (k : BitVec 3) (s : BitVec 1) : Nat := 67108919 + d.toNat * 128 + a.toNat * 4096 + b.toNat * 131072 + k.toNat * 4194304 + s.toNat * 33554432
def Enc.vcmpLt (d : BitVec 3) (a : BitVec 5) (b : BitVec 5) (k : BitVec 3) (s : BitVec 1) : Nat := 134217783 + d.toNat * 128 + a.toNat * 4096 + b.toNat * 131072 + k.toNat * 4194304 + s.toNat * 33554432
def Enc.vcmpLe (d : BitVec 3) (a : BitVec 5) (b : BitVec 5) (k : BitVec 3) (s : BitVec 1) : Nat := 201326647 + d.toNat * 128 + a.toNat * 4096 + b.toNat * 131072 + k.toNat * 4194304 + s.toNat * 33554432
def Enc.vcmpLtu (d : BitVec 3) (a : BitVec 5) (b : BitVec 5) (k : BitVec 3) (s : BitVec 1) : Nat := 268435511 + d.toNat * 128 + a.toNat * 4096 + b.toNat * 131072 + k.toNat * 4194304 + s.toNat * 33554432
def Enc.vcmpLeu (d : BitVec 3) (a : BitVec 5) (b : BitVec 5) (k : BitVec 3) (s : BitVec 1) : Nat := 335544375 + d.toNat * 128 + a.toNat * 4096 + b.toNat * 131072 + k.toNat * 4194304 + s.toNat * 33554432
def Enc.vfcmpEq (d : BitVec 3) (a : BitVec 5) (b : BitVec 5) (k : BitVec 3) (s : BitVec 1) : Nat := 536870967 + d.toNat * 128 + a.toNat * 4096 + b.toNat * 131072 + k.toNat * 4194304 + s.toNat * 33554432
def Enc.vfcmpLt (d : BitVec 3) (a : BitVec 5) (b : BitVec 5) (k : BitVec 3) (s : BitVec 1) : Nat := 603979831 + d.toNat * 128 + a.toNat * 4096 + b.toNat * 131072 + k.toNat * 4194304 + s.toNat * 33554432
def Enc.vfcmpLe (d : BitVec 3) (a : BitVec 5) (b : BitVec 5) (k : BitVec 3) (s : BitVec 1) : Nat := 671088695 + d.toNat * 128 + a.toNat * 4096 + b.toNat * 131072 + k.toNat * 4194304 + s.toNat * 33554432
def Enc.vfcmpUnord (d : BitVec 3) (a : BitVec 5) (b : BitVec 5) (k : BitVec 3) (s : BitVec 1) : Nat := 738197559 + d.toNat * 128 + a.toNat * 4096 + b.toNat * 131072 + k.toNat * 4194304 + s.toNat * 33554432
def Enc.mand (d : BitVec 3) (a : BitVec 3) (b : BitVec 3) : Nat := 1073741879 + d.toNat * 128 + a.toNat * 4096 + b.toNat * 131072
def Enc.mor (d : BitVec 3) (a : BitVec 3) (b : BitVec 3) : Nat := 1140850743 + d.toNat * 128 + a.toNat * 4096 + b.toNat * 131072
def Enc.mxor (d : BitVec 3) (a : BitVec 3) (b : BitVec 3) : Nat := 1207959607 + d.toNat * 128 + a.toNat * 4096 + b.toNat * 131072
def Enc.mandn (d : BitVec 3) (a : BitVec 3) (b : BitVec 3) : Nat := 1275068471 + d.toNat * 128 + a.toNat * 4096 + b.toNat * 131072
def Enc.mnot (d : BitVec 3) (b : BitVec 3) : Nat := 1342177335 + d.toNat * 128 + b.toNat * 131072
def Enc.mmv (d : BitVec 3) (b : BitVec 3) : Nat := 1409286199 + d.toNat * 128 + b.toNat * 131072
def Enc.mclr (d : BitVec 3) : Nat := 1476395063 + d.toNat * 128
def Enc.mpopc (d : BitVec 5) (b : BitVec 3) (k : BitVec 3) : Nat := 1543503927 + d.toNat * 128 + b.toNat * 131072 + k.toNat * 4194304
def Enc.mfirst (d : BitVec 5) (b : BitVec 3) (k : BitVec 3) : Nat := 1610612791 + d.toNat * 128 + b.toNat * 131072 + k.toNat * 4194304
def Enc.vredsum (d : BitVec 5) (a : BitVec 5) (b : BitVec 5) (k : BitVec 3) : Nat := 57 + d.toNat * 128 + a.toNat * 4096 + b.toNat * 131072 + k.toNat * 4194304
def Enc.vredmin (d : BitVec 5) (a : BitVec 5) (b : BitVec 5) (k : BitVec 3) : Nat := 67108921 + d.toNat * 128 + a.toNat * 4096 + b.toNat * 131072 + k.toNat * 4194304
def Enc.vredmax (d : BitVec 5) (a : BitVec 5) (b : BitVec 5) (k : BitVec 3) : Nat := 134217785 + d.toNat * 128 + a.toNat * 4096 + b.toNat * 131072 + k.toNat * 4194304
def Enc.vredminu (d : BitVec 5) (a : BitVec 5) (b : BitVec 5) (k : BitVec 3) : Nat := 201326649 + d.toNat * 128 + a.toNat * 4096 + b.toNat * 131072 + k.toNat * 4194304
def Enc.vredmaxu (d : BitVec 5) (a : BitVec 5) (b : BitVec 5) (k : BitVec 3) : Nat := 268435513 + d.toNat * 128 + a.toNat * 4096 + b.toNat * 131072 + k.toNat * 4194304
def Enc.vredand (d : BitVec 5) (a : BitVec 5) (b : BitVec 5) (k : BitVec 3) : Nat := 335544377 + d.toNat * 128 + a.toNat * 4096 + b.toNat * 131072 + k.toNat * 4194304
def Enc.vredor (d : BitVec 5) (a : BitVec 5) (b : BitVec 5) (k : BitVec 3) : Nat := 402653241 + d.toNat * 128 + a.toNat * 4096 + b.toNat * 131072 + k.toNat * 4194304
def Enc.vredxor (d : BitVec 5) (a : BitVec 5) (b : BitVec 5) (k : BitVec 3) : Nat := 469762105 + d.toNat * 128 + a.toNat * 4096 + b.toNat * 131072 + k.toNat * 4194304
def Enc.vwredsum (d : BitVec 5) (a : BitVec 5) (b : BitVec 5) (k : BitVec 3) : Nat := 536870969 + d.toNat * 128 + a.toNat * 4096 + b.toNat * 131072 + k.toNat * 4194304
def Enc.vfredo (d : BitVec 5) (a : BitVec 5) (b : BitVec 5) (k : BitVec 3) : Nat := 603979833 + d.toNat * 128 + a.toNat * 4096 + b.toNat * 131072 + k.toNat * 4194304
def Enc.vfredt (d : BitVec 5) (a : BitVec 5) (b : BitVec 5) (k : BitVec 3) : Nat := 671088697 + d.toNat * 128 + a.toNat * 4096 + b.toNat * 131072 + k.toNat * 4194304
def Enc.vfredx (d : BitVec 5) (a : BitVec 5) (b : BitVec 5) (k : BitVec 3) : Nat := 738197561 + d.toNat * 128 + a.toNat * 4096 + b.toNat * 131072 + k.toNat * 4194304
def Enc.vfredmin (d : BitVec 5) (a : BitVec 5) (b : BitVec 5) (k : BitVec 3) : Nat := 805306425 + d.toNat * 128 + a.toNat * 4096 + b.toNat * 131072 + k.toNat * 4194304
def Enc.vfredmax (d : BitVec 5) (a : BitVec 5) (b : BitVec 5) (k : BitVec 3) : Nat := 872415289 + d.toNat * 128 + a.toNat * 4096 + b.toNat * 131072 + k.toNat * 4194304
def Enc.vslup (d : BitVec 5) (a : BitVec 5) (b : BitVec 5) (k : BitVec 3) : Nat := 33554491 + d.toNat * 128 + a.toNat * 4096 + b.toNat * 131072 + k.toNat * 4194304
def Enc.vsldn (d : BitVec 5) (a : BitVec 5) (b : BitVec 5) (k : BitVec 3) : Nat := 100663355 + d.toNat * 128 + a.toNat * 4096 + b.toNat * 131072 + k.toNat * 4194304
def Enc.vsl1up (d : BitVec 5) (a : BitVec 5) (b : BitVec 5) (k : BitVec 3) : Nat := 167772219 + d.toNat * 128 + a.toNat * 4096 + b.toNat * 131072 + k.toNat * 4194304
def Enc.vsl1dn (d : BitVec 5) (a : BitVec 5) (b : BitVec 5) (k : BitVec 3) : Nat := 234881083 + d.toNat * 128 + a.toNat * 4096 + b.toNat * 131072 + k.toNat * 4194304
def Enc.vperm (d : BitVec 5) (a : BitVec 5) (b : BitVec 5) (k : BitVec 3) : Nat := 268435515 + d.toNat * 128 + a.toNat * 4096 + b.toNat * 131072 + k.toNat * 4194304
def Enc.vcompr (d : BitVec 5) (a : BitVec 5) (k : BitVec 3) : Nat := 335544379 + d.toNat * 128 + a.toNat * 4096 + k.toNat * 4194304
def Enc.vexpd (d : BitVec 5) (a : BitVec 5) (k : BitVec 3) : Nat := 402653243 + d.toNat * 128 + a.toNat * 4096 + k.toNat * 4194304
def Enc.vreshape (d : BitVec 5) (a : BitVec 5) (b : BitVec 5) (k : BitVec 3) : Nat := 503316539 + d.toNat * 128 + a.toNat * 4096 + b.toNat * 131072 + k.toNat * 4194304
def Enc.vrowb (d : BitVec 5) (a : BitVec 5) (b : BitVec 5) (k : BitVec 3) : Nat := 570425403 + d.toNat * 128 + a.toNat * 4096 + b.toNat * 131072 + k.toNat * 4194304
def Enc.vrowx (d : BitVec 5) (a : BitVec 5) (b : BitVec 5) (k : BitVec 3) : Nat := 637534267 + d.toNat * 128 + a.toNat * 4096 + b.toNat * 131072 + k.toNat * 4194304
def Enc.vextr (d : BitVec 5) (a : BitVec 5) (b : BitVec 5) (k : BitVec 3) : Nat := 704643131 + d.toNat * 128 + a.toNat * 4096 + b.toNat * 131072 + k.toNat * 4194304
def Enc.vinsr (d : BitVec 5) (a : BitVec 5) (b : BitVec 5) (k : BitVec 3) : Nat := 771751995 + d.toNat * 128 + a.toNat * 4096 + b.toNat * 131072 + k.toNat * 4194304
def Enc.vpopq (d : BitVec 5) (q : BitVec 2) (k : BitVec 3) : Nat := 805306427 + d.toNat * 128 + q.toNat * 4096 + k.toNat * 4194304
def Enc.vpshq (q : BitVec 2) (a : BitVec 5) (k : BitVec 3) : Nat := 872415291 + q.toNat * 128 + a.toNat * 4096 + k.toNat * 4194304
def Enc.vappend (b : BitVec 5) (k : BitVec 3) : Nat := 973078587 + b.toNat * 131072 + k.toNat * 4194304
def Enc.vwadd (d : BitVec 5) (a : BitVec 5) (b : BitVec 5) (k : BitVec 3) (s : BitVec 1) : Nat := 61 + d.toNat * 128 + a.toNat * 4096 + b.toNat * 131072 + k.toNat * 4194304 + s.toNat * 33554432
def Enc.vwaddu (d : BitVec 5) (a : BitVec 5) (b : BitVec 5) (k : BitVec 3) (s : BitVec 1) : Nat := 67108925 + d.toNat * 128 + a.toNat * 4096 + b.toNat * 131072 + k.toNat * 4194304 + s.toNat * 33554432
def Enc.vwmul (d : BitVec 5) (a : BitVec 5) (b : BitVec 5) (k : BitVec 3) (s : BitVec 1) : Nat := 134217789 + d.toNat * 128 + a.toNat * 4096 + b.toNat * 131072 + k.toNat * 4194304 + s.toNat * 33554432
def Enc.vwmulu (d : BitVec 5) (a : BitVec 5) (b : BitVec 5) (k : BitVec 3) (s : BitVec 1) : Nat := 201326653 + d.toNat * 128 + a.toNat * 4096 + b.toNat * 131072 + k.toNat * 4194304 + s.toNat * 33554432
def Enc.vwacc (d : BitVec 5) (a : BitVec 5) (b : BitVec 5) (k : BitVec 3) (s : BitVec 1) : Nat := 268435517 + d.toNat * 128 + a.toNat * 4096 + b.toNat * 131072 + k.toNat * 4194304 + s.toNat * 33554432
def Enc.vwaccu (d : BitVec 5) (a : BitVec 5) (b : BitVec 5) (k : BitVec 3) (s : BitVec 1) : Nat := 335544381 + d.toNat * 128 + a.toNat * 4096 + b.toNat * 131072 + k.toNat * 4194304 + s.toNat * 33554432
def Enc.vnsrl (d : BitVec 5) (a : BitVec 5) (b : BitVec 5) (k : BitVec 3) (s : BitVec 1) : Nat := 402653245 + d.toNat * 128 + a.toNat * 4096 + b.toNat * 131072 + k.toNat * 4194304 + s.toNat * 33554432
def Enc.vnclip (d : BitVec 5) (a : BitVec 5) (b : BitVec 5) (k : BitVec 3) (s : BitVec 1) : Nat := 469762109 + d.toNat * 128 + a.toNat * 4096 + b.toNat * 131072 + k.toNat * 4194304 + s.toNat * 33554432
def Enc.vfcvt (d : BitVec 5) (c : BitVec 5) (b : BitVec 5) (k : BitVec 3) : Nat := 536870973 + d.toNat * 128 + c.toNat * 4096 + b.toNat * 131072 + k.toNat * 4194304
def Enc.vld (d : BitVec 5) (a : BitVec 5) (k : BitVec 3) : Nat := 65 + d.toNat * 128 + a.toNat * 4096 + k.toNat * 4194304
def Enc.vlds (d : BitVec 5) (a : BitVec 5) (b : BitVec 5) (k : BitVec 3) : Nat := 100663361 + d.toNat * 128 + a.toNat * 4096 + b.toNat * 131072 + k.toNat * 4194304
def Enc.vldr (d : BitVec 5) (a : BitVec 5) (b : BitVec 5) (k : BitVec 3) : Nat := 167772225 + d.toNat * 128 + a.toNat * 4096 + b.toNat * 131072 + k.toNat * 4194304
def Enc.vldx (d : BitVec 5) (a : BitVec 5) (b : BitVec 5) (k : BitVec 3) : Nat := 201326657 + d.toNat * 128 + a.toNat * 4096 + b.toNat * 131072 + k.toNat * 4194304
def Enc.vldq (d : BitVec 5) (a : BitVec 5) (b : BitVec 5) (k : BitVec 3) : Nat := 268435521 + d.toNat * 128 + a.toNat * 4096 + b.toNat * 131072 + k.toNat * 4194304
def Enc.vldff (d : BitVec 5) (a : BitVec 5) (k : BitVec 3) : Nat := 335544385 + d.toNat * 128 + a.toNat * 4096 + k.toNat * 4194304
def Enc.vldt (d : BitVec 5) (a : BitVec 5) (b : BitVec 5) (k : BitVec 3) : Nat := 436207681 + d.toNat * 128 + a.toNat * 4096 + b.toNat * 131072 + k.toNat * 4194304
def Enc.vst (d : BitVec 5) (a : BitVec 5) (k : BitVec 3) : Nat := 67 + d.toNat * 128 + a.toNat * 4096 + k.toNat * 4194304
def Enc.vsts (d : BitVec 5) (a : BitVec 5) (b : BitVec 5) (k : BitVec 3) : Nat := 100663363 + d.toNat * 128 + a.toNat * 4096 + b.toNat * 131072 + k.toNat * 4194304
def Enc.vstr (d : BitVec 5) (a : BitVec 5) (b : BitVec 5) (k : BitVec 3) : Nat := 167772227 + d.toNat * 128 + a.toNat * 4096 + b.toNat * 131072 + k.toNat * 4194304
def Enc.vstx (d : BitVec 5) (a : BitVec 5) (b : BitVec 5) (k : BitVec 3) : Nat := 201326659 + d.toNat * 128 + a.toNat * 4096 + b.toNat * 131072 + k.toNat * 4194304
def Enc.vstq (d : BitVec 5) (a : BitVec 5) (b : BitVec 5) (k : BitVec 3) : Nat := 268435523 + d.toNat * 128 + a.toNat * 4096 + b.toNat * 131072 + k.toNat * 4194304
def Enc.vamoAdd (d : BitVec 5) (a : BitVec 5) (b : BitVec 5) (k : BitVec 3) (s : BitVec 1) (l : BitVec 1) (q : BitVec 1) : Nat := 69 + d.toNat * 128 + a.toNat * 4096 + b.toNat * 131072 + k.toNat * 4194304 + s.toNat * 33554432 + l.toNat * 67108864 + q.toNat * 134217728
def Enc.vamoSwp (d : BitVec 5) (a : BitVec 5) (b : BitVec 5) (k : BitVec 3) (s : BitVec 1) (l : BitVec 1) (q : BitVec 1) : Nat := 268435525 + d.toNat * 128 + a.toNat * 4096 + b.toNat * 131072 + k.toNat * 4194304 + s.toNat * 33554432 + l.toNat * 67108864 + q.toNat * 134217728
def Enc.vamoAnd (d : BitVec 5) (a : BitVec 5) (b : BitVec 5) (k : BitVec 3) (s : BitVec 1) (l : BitVec 1) (q : BitVec 1) : Nat := 536870981 + d.toNat * 128 + a.toNat * 4096 + b.toNat * 131072 + k.toNat * 4194304 + s.toNat * 33554432 + l.toNat * 67108864 + q.toNat * 134217728
def Enc.vamoOr (d : BitVec 5) (a : BitVec 5) (b : BitVec 5) (k : BitVec 3) (s : BitVec 1) (l : BitVec 1) (q : BitVec 1) : Nat := 805306437 + d.toNat * 128 + a.toNat * 4096 + b.toNat * 131072 + k.toNat * 4194304 + s.toNat * 33554432 + l.toNat * 67108864 + q.toNat * 134217728
def Enc.vamoXor (d : BitVec 5) (a : BitVec 5) (b : BitVec 5) (k : BitVec 3) (s : BitVec 1) (l : BitVec 1) (q : BitVec 1) : Nat := 1073741893 + d.toNat * 128 + a.toNat * 4096 + b.toNat * 131072 + k.toNat * 4194304 + s.toNat * 33554432 + l.toNat * 67108864 + q.toNat * 134217728
def Enc.vamoMin (d : BitVec 5) (a : BitVec 5) (b : BitVec 5) (k : BitVec 3) (s : BitVec 1) (l : BitVec 1) (q : BitVec 1) : Nat := 1342177349 + d.toNat * 128 + a.toNat * 4096 + b.toNat * 131072 + k.toNat * 4194304 + s.toNat * 33554432 + l.toNat * 67108864 + q.toNat * 134217728
def Enc.vamoMax (d : BitVec 5) (a : BitVec 5) (b : BitVec 5) (k : BitVec 3) (s : BitVec 1) (l : BitVec 1) (q : BitVec 1) : Nat := 1610612805 + d.toNat * 128 + a.toNat * 4096 + b.toNat * 131072 + k.toNat * 4194304 + s.toNat * 33554432 + l.toNat * 67108864 + q.toNat * 134217728
def Enc.vamoMinu (d : BitVec 5) (a : BitVec 5) (b : BitVec 5) (k : BitVec 3) (s : BitVec 1) (l : BitVec 1) (q : BitVec 1) : Nat := 1879048261 + d.toNat * 128 + a.toNat * 4096 + b.toNat * 131072 + k.toNat * 4194304 + s.toNat * 33554432 + l.toNat * 67108864 + q.toNat * 134217728
def Enc.vamoMaxu (d : BitVec 5) (a : BitVec 5) (b : BitVec 5) (k : BitVec 3) (s : BitVec 1) (l : BitVec 1) (q : BitVec 1) : Nat := 2147483717 + d.toNat * 128 + a.toNat * 4096 + b.toNat * 131072 + k.toNat * 4194304 + s.toNat * 33554432 + l.toNat * 67108864 + q.toNat * 134217728
def Enc.vamoFmin (d : BitVec 5) (a : BitVec 5) (b : BitVec 5) (k : BitVec 3) (s : BitVec 1) (l : BitVec 1) (q : BitVec 1) : Nat := 2415919173 + d.toNat * 128 + a.toNat * 4096 + b.toNat * 131072 + k.toNat * 4194304 + s.toNat * 33554432 + l.toNat * 67108864 + q.toNat * 134217728
def Enc.vamoFmax (d : BitVec 5) (a : BitVec 5) (b : BitVec 5) (k : BitVec 3) (s : BitVec 1) (l : BitVec 1) (q : BitVec 1) : Nat := 2684354629 + d.toNat * 128 + a.toNat * 4096 + b.toNat * 131072 + k.toNat * 4194304 + s.toNat * 33554432 + l.toNat * 67108864 + q.toNat * 134217728
def Enc.vwaitEq (d : BitVec 3) (n : BitVec 5) (b : BitVec 5) (k : BitVec 3) : Nat := 71 + d.toNat * 128 + n.toNat * 4096 + b.toNat * 131072 + k.toNat * 4194304
def Enc.vwaitNe (d : BitVec 3) (n : BitVec 5) (b : BitVec 5) (k : BitVec 3) : Nat := 67108935 + d.toNat * 128 + n.toNat * 4096 + b.toNat * 131072 + k.toNat * 4194304
def Enc.vwaitLt (d : BitVec 3) (n : BitVec 5) (b : BitVec 5) (k : BitVec 3) : Nat := 134217799 + d.toNat * 128 + n.toNat * 4096 + b.toNat * 131072 + k.toNat * 4194304
def Enc.vwaitGe (d : BitVec 3) (n : BitVec 5) (b : BitVec 5) (k : BitVec 3) : Nat := 201326663 + d.toNat * 128 + n.toNat * 4096 + b.toNat * 131072 + k.toNat * 4194304
def Enc.vwaitLtu (d : BitVec 3) (n : BitVec 5) (b : BitVec 5) (k : BitVec 3) : Nat := 268435527 + d.toNat * 128 + n.toNat * 4096 + b.toNat * 131072 + k.toNat * 4194304
def Enc.vwaitGeu (d : BitVec 3) (n : BitVec 5) (b : BitVec 5) (k : BitVec 3) : Nat := 335544391 + d.toNat * 128 + n.toNat * 4096 + b.toNat * 131072 + k.toNat * 4194304
def Enc.fence (s : BitVec 3) (r : BitVec 2) : Nat := 536870983 + s.toNat * 128 + r.toNat * 1024
def Enc.dfenceI (d : BitVec 5) : Nat := 603979847 + d.toNat * 128
def Enc.dfenceW (a : BitVec 5) : Nat := 671088711 + a.toNat * 4096
def Enc.mattach (b : BitVec 5) : Nat := 33554505 + b.toNat * 131072
def Enc.mdetach : Nat := 67108937
def Enc.mfmt (b : BitVec 5) : Nat := 167772233 + b.toNat * 131072
def Enc.mldb (a : BitVec 5) (b : BitVec 5) : Nat := 234881097 + a.toNat * 4096 + b.toNat * 131072
def Enc.mldbm (a : BitVec 5) (b : BitVec 5) : Nat := 301989961 + a.toNat * 4096 + b.toNat * 131072
def Enc.mmulVreg (a : BitVec 5) : Nat := 335544393 + a.toNat * 4096
def Enc.mmulTq (q : BitVec 1) : Nat := 335544521 + q.toNat * 4096
def Enc.maccr (d : BitVec 5) (m : BitVec 3) (b : BitVec 5) : Nat := 436207689 + d.toNat * 128 + m.toNat * 4096 + b.toNat * 131072
def Enc.maccz : Nat := 469762121
def Enc.mchk (d : BitVec 5) : Nat := 536870985 + d.toNat * 128
def Enc.cpy (d : BitVec 5) (a : BitVec 5) (b : BitVec 5) (c : BitVec 1) : Nat := 75 + d.toNat * 128 + a.toNat * 4096 + b.toNat * 131072 + c.toNat * 4194304
def Enc.cpy2 (d : BitVec 5) (a : BitVec 5) (c : BitVec 1) : Nat := 67108939 + d.toNat * 128 + a.toNat * 4096 + c.toNat * 4194304
def Enc.cpyx (d : BitVec 5) (a : BitVec 5) (c : BitVec 1) : Nat := 134217803 + d.toNat * 128 + a.toNat * 4096 + c.toNat * 4194304
def Enc.tlwait (a : BitVec 5) (b : BitVec 5) : Nat := 201326667 + a.toNat * 4096 + b.toNat * 131072
def Enc.tlread (d : BitVec 5) (a : BitVec 5) : Nat := 268435531 + d.toNat * 128 + a.toNat * 4096
def Enc.engctxCreate (d : BitVec 5) (a : BitVec 5) : Nat := 335544395 + d.toNat * 128 + a.toNat * 4096
def Enc.engctxDestroy (a : BitVec 5) : Nat := 343933003 + a.toNat * 4096
def Enc.engctxQuery (d : BitVec 5) (a : BitVec 5) : Nat := 352321611 + d.toNat * 128 + a.toNat * 4096
def Enc.tbind (d : BitVec 5) (a : BitVec 5) (b : BitVec 5) : Nat := 77 + d.toNat * 128 + a.toNat * 4096 + b.toNat * 131072
def Enc.tnbr (d : BitVec 5) (a : BitVec 5) (b : BitVec 5) : Nat := 4194381 + d.toNat * 128 + a.toNat * 4096 + b.toNat * 131072
def Enc.tface (d : BitVec 5) (a : BitVec 5) (b : BitVec 5) : Nat := 8388685 + d.toNat * 128 + a.toNat * 4096 + b.toNat * 131072
def Enc.tmark (d : BitVec 5) (a : BitVec 5) (b : BitVec 5) : Nat := 12582989 + d.toNat * 128 + a.toNat * 4096 + b.toNat * 131072
def Enc.tcommit (d : BitVec 5) (a : BitVec 5) (b : BitVec 5) : Nat := 16777293 + d.toNat * 128 + a.toNat * 4096 + b.toNat * 131072
def Enc.tfree (a : BitVec 5) : Nat := 20971597 + a.toNat * 4096
def Enc.tcolour (d : BitVec 5) (a : BitVec 5) (b : BitVec 5) : Nat := 25165901 + d.toNat * 128 + a.toNat * 4096 + b.toNat * 131072
def Enc.tlevel (d : BitVec 5) (a : BitVec 5) (b : BitVec 5) : Nat := 29360205 + d.toNat * 128 + a.toNat * 4096 + b.toNat * 131072
def Enc.tcut (d : BitVec 5) (a : BitVec 5) (b : BitVec 5) : Nat := 33554509 + d.toNat * 128 + a.toNat * 4096 + b.toNat * 131072
def Enc.tremap (d : BitVec 5) (a : BitVec 5) (b : BitVec 5) : Nat := 37748813 + d.toNat * 128 + a.toNat * 4096 + b.toNat * 131072
def Enc.txport (d : BitVec 5) (a : BitVec 5) (b : BitVec 5) : Nat := 41943117 + d.toNat * 128 + a.toNat * 4096 + b.toNat * 131072
def Enc.timport (d : BitVec 5) (a : BitVec 5) (b : BitVec 5) : Nat := 46137421 + d.toNat * 128 + a.toNat * 4096 + b.toNat * 131072
def Enc.spawn (d : BitVec 5) (a : BitVec 5) : Nat := 79 + d.toNat * 128 + a.toNat * 4096
def Enc.waitch (a : BitVec 5) : Nat := 131151 + a.toNat * 4096
def Enc.bar (s : BitVec 3) : Nat := 262223 + s.toNat * 1048576
def Enc.bara (d : BitVec 5) (s : BitVec 3) : Nat := 393295 + d.toNat * 128 + s.toNat * 1048576
def Enc.barw (a : BitVec 5) (s : BitVec 3) : Nat := 524367 + a.toNat * 4096 + s.toNat * 1048576
def Enc.rldx (d : BitVec 5) (a : BitVec 5) (b : BitVec 5) (k : BitVec 3) : Nat := 81 + d.toNat * 128 + a.toNat * 4096 + b.toNat * 131072 + k.toNat * 4194304
def Enc.rstx (d : BitVec 5) (a : BitVec 5) (b : BitVec 5) (k : BitVec 3) : Nat := 67108945 + d.toNat * 128 + a.toNat * 4096 + b.toNat * 131072 + k.toNat * 4194304
def Enc.ramoxAdd (d : BitVec 5) (a : BitVec 5) (b : BitVec 5) (k : BitVec 3) : Nat := 1073741905 + d.toNat * 128 + a.toNat * 4096 + b.toNat * 131072 + k.toNat * 4194304
def Enc.ramoxSwp (d : BitVec 5) (a : BitVec 5) (b : BitVec 5) (k : BitVec 3) : Nat := 1140850769 + d.toNat * 128 + a.toNat * 4096 + b.toNat * 131072 + k.toNat * 4194304
def Enc.ramoxAnd (d : BitVec 5) (a : BitVec 5) (b : BitVec 5) (k : BitVec 3) : Nat := 1207959633 + d.toNat * 128 + a.toNat * 4096 + b.toNat * 131072 + k.toNat * 4194304
def Enc.ramoxOr (d : BitVec 5) (a : BitVec 5) (b : BitVec 5) (k : BitVec 3) : Nat := 1275068497 + d.toNat * 128 + a.toNat * 4096 + b.toNat * 131072 + k.toNat * 4194304
def Enc.ramoxXor (d : BitVec 5) (a : BitVec 5) (b : BitVec 5) (k : BitVec 3) : Nat := 1342177361 + d.toNat * 128 + a.toNat * 4096 + b.toNat * 131072 + k.toNat * 4194304
def Enc.ramoxMin (d : BitVec 5) (a : BitVec 5) (b : BitVec 5) (k : BitVec 3) : Nat := 1409286225 + d.toNat * 128 + a.toNat * 4096 + b.toNat * 131072 + k.toNat * 4194304
def Enc.ramoxMax (d : BitVec 5) (a : BitVec 5) (b : BitVec 5) (k : BitVec 3) : Nat := 1476395089 + d.toNat * 128 + a.toNat * 4096 + b.toNat * 131072 + k.toNat * 4194304
def Enc.ramoxMinu (d : BitVec 5) (a : BitVec 5) (b : BitVec 5) (k : BitVec 3) : Nat := 1543503953 + d.toNat * 128 + a.toNat * 4096 + b.toNat * 131072 + k.toNat * 4194304
def Enc.ramoxMaxu (d : BitVec 5) (a : BitVec 5) (b : BitVec 5) (k : BitVec 3) : Nat := 1610612817 + d.toNat * 128 + a.toNat * 4096 + b.toNat * 131072 + k.toNat * 4194304
def Enc.ramoxFmin (d : BitVec 5) (a : BitVec 5) (b : BitVec 5) (k : BitVec 3) : Nat := 1677721681 + d.toNat * 128 + a.toNat * 4096 + b.toNat * 131072 + k.toNat * 4194304
def Enc.ramoxFmax (d : BitVec 5) (a : BitVec 5) (b : BitVec 5) (k : BitVec 3) : Nat := 1744830545 + d.toNat * 128 + a.toNat * 4096 + b.toNat * 131072 + k.toNat * 4194304
def Enc.dpost (a : BitVec 5) (b : BitVec 5) (k : BitVec 3) : Nat := 83 + a.toNat * 4096 + b.toNat * 131072 + k.toNat * 4194304
def Enc.dgrant (d : BitVec 5) (a : BitVec 5) : Nat := 67108947 + d.toNat * 128 + a.toNat * 4096
def Enc.xrun (d : BitVec 5) (a : BitVec 5) (b : BitVec 5) : Nat := 167772243 + d.toNat * 128 + a.toNat * 4096 + b.toNat * 131072
def Enc.xstat (d : BitVec 5) (a : BitVec 5) (b : BitVec 5) (k : BitVec 3) : Nat := 234881107 + d.toNat * 128 + a.toNat * 4096 + b.toNat * 131072 + k.toNat * 4194304
def Enc.cred (d : BitVec 5) (a : BitVec 5) (b : BitVec 5) (k : BitVec 5) : Nat := 85 + d.toNat * 128 + a.toNat * 4096 + b.toNat * 131072 + k.toNat * 4194304
def Enc.cbcast (d : BitVec 5) (a : BitVec 5) (b : BitVec 5) : Nat := 134217813 + d.toNat * 128 + a.toNat * 4096 + b.toNat * 131072
def Enc.cgath (d : BitVec 5) (a : BitVec 5) (b : BitVec 5) : Nat := 268435541 + d.toNat * 128 + a.toNat * 4096 + b.toNat * 131072
def Enc.cbar (d : BitVec 5) (a : BitVec 5) : Nat := 402653269 + d.toNat * 128 + a.toNat * 4096
def Enc.cstat (d : BitVec 5) (a : BitVec 5) : Nat := 536870997 + d.toNat * 128 + a.toNat * 4096
def Enc.pbar : Nat := 87
def Enc.park (d : BitVec 5) (a : BitVec 5) (b : BitVec 5) : Nat := 4194391 + d.toNat * 128 + a.toNat * 4096 + b.toNat * 131072
def Enc.unpark (d : BitVec 5) (a : BitVec 5) (b : BitVec 5) : Nat := 8388695 + d.toNat * 128 + a.toNat * 4096 + b.toNat * 131072
def Enc.pstat (d : BitVec 5) (a : BitVec 5) : Nat := 12582999 + d.toNat * 128 + a.toNat * 4096

/-- The parcel or word of an instruction (R40, R42); 0 for an event, which has none. -/
def encodeNat : Instr → Nat
  | .add d a b => Enc.add d a b
  | .sub d a b => Enc.sub d a b
  | .and d a b => Enc.and d a b
  | .or d a b => Enc.or d a b
  | .xor d a b => Enc.xor d a b
  | .andn d a b => Enc.andn d a b
  | .orn d a b => Enc.orn d a b
  | .sll d a b => Enc.sll d a b
  | .srl d a b => Enc.srl d a b
  | .sra d a b => Enc.sra d a b
  | .rol d a b => Enc.rol d a b
  | .ror d a b => Enc.ror d a b
  | .min d a b => Enc.min d a b
  | .max d a b => Enc.max d a b
  | .minu d a b => Enc.minu d a b
  | .maxu d a b => Enc.maxu d a b
  | .slt d a b => Enc.slt d a b
  | .sltu d a b => Enc.sltu d a b
  | .seq d a b => Enc.seq d a b
  | .sne d a b => Enc.sne d a b
  | .clz d a => Enc.clz d a
  | .ctz d a => Enc.ctz d a
  | .popc d a => Enc.popc d a
  | .bswap d a => Enc.bswap d a
  | .mul d a b => Enc.mul d a b
  | .mulh d a b => Enc.mulh d a b
  | .mulhu d a b => Enc.mulhu d a b
  | .div d a b => Enc.div d a b
  | .divu d a b => Enc.divu d a b
  | .rem d a b => Enc.rem d a b
  | .remu d a b => Enc.remu d a b
  | .sel d a b => Enc.sel d a b
  | .addi d a i => Enc.addi d a i
  | .andi d a i => Enc.andi d a i
  | .ori d a i => Enc.ori d a i
  | .xori d a i => Enc.xori d a i
  | .slli d a s => Enc.slli d a s
  | .srli d a s => Enc.srli d a s
  | .srai d a s => Enc.srai d a s
  | .slti d a i => Enc.slti d a i
  | .ldhi d i => Enc.ldhi d i
  | .addpc d i => Enc.addpc d i
  | .beq a b o => Enc.beq a b o
  | .bne a b o => Enc.bne a b o
  | .blt a b o => Enc.blt a b o
  | .bge a b o => Enc.bge a b o
  | .bltu a b o => Enc.bltu a b o
  | .bgeu a b o => Enc.bgeu a b o
  | .jal d o => Enc.jal d o
  | .jalr d a i => Enc.jalr d a i
  | .strip d a o => Enc.strip d a o
  | .csrr d c => Enc.csrr d c
  | .csrw d a c => Enc.csrw d a c
  | .csrset d a c => Enc.csrset d a c
  | .csrclr d a c => Enc.csrclr d a c
  | .trap i => Enc.trap i
  | .sig h l => Enc.sig h l
  | .rft => Enc.rft
  | .exit => Enc.exit
  | .yield => Enc.yield
  | .ifence => Enc.ifence
  | .frpop d a e => Enc.frpop d a e
  | .resume d a => Enc.resume d a
  | .kill d a => Enc.kill d a
  | .pfx r c e v p => Enc.pfx r c e v p
  | .qpsh a q => Enc.qpsh a q
  | .qpop d q => Enc.qpop d q
  | .qcnt d q => Enc.qcnt d q
  | .ldb d a i => Enc.ldb d a i
  | .ldbz d a i => Enc.ldbz d a i
  | .ldh d a i => Enc.ldh d a i
  | .ldhz d a i => Enc.ldhz d a i
  | .ldw d a i => Enc.ldw d a i
  | .ldwz d a i => Enc.ldwz d a i
  | .ldd d a i => Enc.ldd d a i
  | .stb d a i => Enc.stb d a i
  | .sth d a i => Enc.sth d a i
  | .stw d a i => Enc.stw d a i
  | .std d a i => Enc.std d a i
  | .amoadd d a b s l q z => Enc.amoadd d a b s l q z
  | .amoswp d a b s l q z => Enc.amoswp d a b s l q z
  | .amocas d a b s l q z => Enc.amocas d a b s l q z
  | .amoand d a b s l q z => Enc.amoand d a b s l q z
  | .amoor d a b s l q z => Enc.amoor d a b s l q z
  | .amoxor d a b s l q z => Enc.amoxor d a b s l q z
  | .amomin d a b s l q z => Enc.amomin d a b s l q z
  | .amomax d a b s l q z => Enc.amomax d a b s l q z
  | .amominu d a b s l q z => Enc.amominu d a b s l q z
  | .amomaxu d a b s l q z => Enc.amomaxu d a b s l q z
  | .lda d a s z => Enc.lda d a s z
  | .stl a b s z => Enc.stl a b s z
  | .fadd d a b m t => Enc.fadd d a b m t
  | .fsub d a b m t => Enc.fsub d a b m t
  | .fmul d a b m t => Enc.fmul d a b m t
  | .fdiv d a b m t => Enc.fdiv d a b m t
  | .fsqrt d a m t => Enc.fsqrt d a m t
  | .fmin d a b t => Enc.fmin d a b t
  | .fmax d a b t => Enc.fmax d a b t
  | .feq d a b t => Enc.feq d a b t
  | .flt d a b t => Enc.flt d a b t
  | .fle d a b t => Enc.fle d a b t
  | .funord d a b t => Enc.funord d a b t
  | .fcvt d a s m t => Enc.fcvt d a s m t
  | .fclass d a t => Enc.fclass d a t
  | .fsign d a b r t => Enc.fsign d a b r t
  | .fma d a b m t => Enc.fma d a b m t
  | .fmsub d a b m t => Enc.fmsub d a b m t
  | .fnma d a b m t => Enc.fnma d a b m t
  | .cAdd d s => Enc.cAdd d s
  | .cSub d s => Enc.cSub d s
  | .cAnd d s => Enc.cAnd d s
  | .cOr d s => Enc.cOr d s
  | .cXor d s => Enc.cXor d s
  | .cSll d s => Enc.cSll d s
  | .cSrl d s => Enc.cSrl d s
  | .cMv d s => Enc.cMv d s
  | .cAddi d i => Enc.cAddi d i
  | .cLi d i => Enc.cLi d i
  | .cLdd d s => Enc.cLdd d s
  | .cStd d s => Enc.cStd d s
  | .cBeqz l h => Enc.cBeqz l h
  | .cBnez l h => Enc.cBnez l h
  | .cVadd d s => Enc.cVadd d s
  | .cVfma d s => Enc.cVfma d s
  | .vset d a m t x e l r => Enc.vset d a m t x e l r
  | .vadd d a b k s => Enc.vadd d a b k s
  | .vsub d a b k s => Enc.vsub d a b k s
  | .vrsub d a b k s => Enc.vrsub d a b k s
  | .vmul d a b k s => Enc.vmul d a b k s
  | .vmulh d a b k s => Enc.vmulh d a b k s
  | .vmulhu d a b k s => Enc.vmulhu d a b k s
  | .vdiv d a b k s => Enc.vdiv d a b k s
  | .vdivu d a b k s => Enc.vdivu d a b k s
  | .vrem d a b k s => Enc.vrem d a b k s
  | .vremu d a b k s => Enc.vremu d a b k s
  | .vand d a b k s => Enc.vand d a b k s
  | .vor d a b k s => Enc.vor d a b k s
  | .vxor d a b k s => Enc.vxor d a b k s
  | .vsll d a b k s => Enc.vsll d a b k s
  | .vsrl d a b k s => Enc.vsrl d a b k s
  | .vsra d a b k s => Enc.vsra d a b k s
  | .vmin d a b k s => Enc.vmin d a b k s
  | .vmax d a b k s => Enc.vmax d a b k s
  | .vminu d a b k s => Enc.vminu d a b k s
  | .vmaxu d a b k s => Enc.vmaxu d a b k s
  | .vsadd d a b k s => Enc.vsadd d a b k s
  | .vsaddu d a b k s => Enc.vsaddu d a b k s
  | .vssub d a b k s => Enc.vssub d a b k s
  | .vssubu d a b k s => Enc.vssubu d a b k s
  | .vmerge d a b k s => Enc.vmerge d a b k s
  | .vmv d b k s => Enc.vmv d b k s
  | .vidx d k => Enc.vidx d k
  | .vfadd d a b k s => Enc.vfadd d a b k s
  | .vfsub d a b k s => Enc.vfsub d a b k s
  | .vfmul d a b k s => Enc.vfmul d a b k s
  | .vfdiv d a b k s => Enc.vfdiv d a b k s
  | .vfsqrt d b k s => Enc.vfsqrt d b k s
  | .vfma d a b k s => Enc.vfma d a b k s
  | .vfmsub d a b k s => Enc.vfmsub d a b k s
  | .vfnma d a b k s => Enc.vfnma d a b k s
  | .vfmin d a b k s => Enc.vfmin d a b k s
  | .vfmax d a b k s => Enc.vfmax d a b k s
  | .vfsign d a b k s => Enc.vfsign d a b k s
  | .vfclass d b k s => Enc.vfclass d b k s
  | .vpiv d n b k => Enc.vpiv d n b k
  | .vcmpEq d a b k s => Enc.vcmpEq d a b k s
  | .vcmpNe d a b k s => Enc.vcmpNe d a b k s
  | .vcmpLt d a b k s => Enc.vcmpLt d a b k s
  | .vcmpLe d a b k s => Enc.vcmpLe d a b k s
  | .vcmpLtu d a b k s => Enc.vcmpLtu d a b k s
  | .vcmpLeu d a b k s => Enc.vcmpLeu d a b k s
  | .vfcmpEq d a b k s => Enc.vfcmpEq d a b k s
  | .vfcmpLt d a b k s => Enc.vfcmpLt d a b k s
  | .vfcmpLe d a b k s => Enc.vfcmpLe d a b k s
  | .vfcmpUnord d a b k s => Enc.vfcmpUnord d a b k s
  | .mand d a b => Enc.mand d a b
  | .mor d a b => Enc.mor d a b
  | .mxor d a b => Enc.mxor d a b
  | .mandn d a b => Enc.mandn d a b
  | .mnot d b => Enc.mnot d b
  | .mmv d b => Enc.mmv d b
  | .mclr d => Enc.mclr d
  | .mpopc d b k => Enc.mpopc d b k
  | .mfirst d b k => Enc.mfirst d b k
  | .vredsum d a b k => Enc.vredsum d a b k
  | .vredmin d a b k => Enc.vredmin d a b k
  | .vredmax d a b k => Enc.vredmax d a b k
  | .vredminu d a b k => Enc.vredminu d a b k
  | .vredmaxu d a b k => Enc.vredmaxu d a b k
  | .vredand d a b k => Enc.vredand d a b k
  | .vredor d a b k => Enc.vredor d a b k
  | .vredxor d a b k => Enc.vredxor d a b k
  | .vwredsum d a b k => Enc.vwredsum d a b k
  | .vfredo d a b k => Enc.vfredo d a b k
  | .vfredt d a b k => Enc.vfredt d a b k
  | .vfredx d a b k => Enc.vfredx d a b k
  | .vfredmin d a b k => Enc.vfredmin d a b k
  | .vfredmax d a b k => Enc.vfredmax d a b k
  | .vslup d a b k => Enc.vslup d a b k
  | .vsldn d a b k => Enc.vsldn d a b k
  | .vsl1up d a b k => Enc.vsl1up d a b k
  | .vsl1dn d a b k => Enc.vsl1dn d a b k
  | .vperm d a b k => Enc.vperm d a b k
  | .vcompr d a k => Enc.vcompr d a k
  | .vexpd d a k => Enc.vexpd d a k
  | .vreshape d a b k => Enc.vreshape d a b k
  | .vrowb d a b k => Enc.vrowb d a b k
  | .vrowx d a b k => Enc.vrowx d a b k
  | .vextr d a b => Enc.vextr d a b.reg b.mask
  | .vinsr d a b => Enc.vinsr d a b.reg b.mask
  | .vpopq d q k => Enc.vpopq d q k
  | .vpshq q a => Enc.vpshq q a.reg a.mask
  | .vappend b k => Enc.vappend b k
  | .vwadd d a b k s => Enc.vwadd d a b k s
  | .vwaddu d a b k s => Enc.vwaddu d a b k s
  | .vwmul d a b k s => Enc.vwmul d a b k s
  | .vwmulu d a b k s => Enc.vwmulu d a b k s
  | .vwacc d a b k s => Enc.vwacc d a b k s
  | .vwaccu d a b k s => Enc.vwaccu d a b k s
  | .vnsrl d a b k s => Enc.vnsrl d a b k s
  | .vnclip d a b k s => Enc.vnclip d a b k s
  | .vfcvt d c b k => Enc.vfcvt d c b k
  | .vld d a k => Enc.vld d a k
  | .vlds d a b k => Enc.vlds d a b k
  | .vldr d a b k => Enc.vldr d a b k
  | .vldx d a b k => Enc.vldx d a b k
  | .vldq d a b k => Enc.vldq d a b k
  | .vldff d a k => Enc.vldff d a k
  | .vldt d a b k => Enc.vldt d a b k
  | .vst d a k => Enc.vst d a k
  | .vsts d a b k => Enc.vsts d a b k
  | .vstr d a b k => Enc.vstr d a b k
  | .vstx d a b k => Enc.vstx d a b k
  | .vstq d a b k => Enc.vstq d a b k
  | .vamoAdd d a b k s l q => Enc.vamoAdd d a b k s l q
  | .vamoSwp d a b k s l q => Enc.vamoSwp d a b k s l q
  | .vamoAnd d a b k s l q => Enc.vamoAnd d a b k s l q
  | .vamoOr d a b k s l q => Enc.vamoOr d a b k s l q
  | .vamoXor d a b k s l q => Enc.vamoXor d a b k s l q
  | .vamoMin d a b k s l q => Enc.vamoMin d a b k s l q
  | .vamoMax d a b k s l q => Enc.vamoMax d a b k s l q
  | .vamoMinu d a b k s l q => Enc.vamoMinu d a b k s l q
  | .vamoMaxu d a b k s l q => Enc.vamoMaxu d a b k s l q
  | .vamoFmin d a b k s l q => Enc.vamoFmin d a b k s l q
  | .vamoFmax d a b k s l q => Enc.vamoFmax d a b k s l q
  | .vwaitEq d n b k => Enc.vwaitEq d n b k
  | .vwaitNe d n b k => Enc.vwaitNe d n b k
  | .vwaitLt d n b k => Enc.vwaitLt d n b k
  | .vwaitGe d n b k => Enc.vwaitGe d n b k
  | .vwaitLtu d n b k => Enc.vwaitLtu d n b k
  | .vwaitGeu d n b k => Enc.vwaitGeu d n b k
  | .fence s r => Enc.fence s r
  | .dfenceI d => Enc.dfenceI d
  | .dfenceW a => Enc.dfenceW a
  | .mattach b => Enc.mattach b
  | .mdetach => Enc.mdetach
  | .mfmt b => Enc.mfmt b
  | .mldb a b => Enc.mldb a b
  | .mldbm a b => Enc.mldbm a b
  | .mmulVreg a => Enc.mmulVreg a
  | .mmulTq q => Enc.mmulTq q
  | .maccr d m b => Enc.maccr d m b
  | .maccz => Enc.maccz
  | .mchk d => Enc.mchk d
  | .cpy d a b c => Enc.cpy d a b c
  | .cpy2 d a c => Enc.cpy2 d a c
  | .cpyx d a c => Enc.cpyx d a c
  | .tlwait a b => Enc.tlwait a b
  | .tlread d a => Enc.tlread d a
  | .engctxCreate d a => Enc.engctxCreate d a
  | .engctxDestroy a => Enc.engctxDestroy a
  | .engctxQuery d a => Enc.engctxQuery d a
  | .tbind d a b => Enc.tbind d a b
  | .tnbr d a b => Enc.tnbr d a b
  | .tface d a b => Enc.tface d a b
  | .tmark d a b => Enc.tmark d a b
  | .tcommit d a b => Enc.tcommit d a b
  | .tfree a => Enc.tfree a
  | .tcolour d a b => Enc.tcolour d a b
  | .tlevel d a b => Enc.tlevel d a b
  | .tcut d a b => Enc.tcut d a b
  | .tremap d a b => Enc.tremap d a b
  | .txport d a b => Enc.txport d a b
  | .timport d a b => Enc.timport d a b
  | .spawn d a => Enc.spawn d a
  | .waitch a => Enc.waitch a
  | .bar s => Enc.bar s
  | .bara d s => Enc.bara d s
  | .barw a s => Enc.barw a s
  | .rldx d a b k => Enc.rldx d a b k
  | .rstx d a b k => Enc.rstx d a b k
  | .ramoxAdd d a b k => Enc.ramoxAdd d a b k
  | .ramoxSwp d a b k => Enc.ramoxSwp d a b k
  | .ramoxAnd d a b k => Enc.ramoxAnd d a b k
  | .ramoxOr d a b k => Enc.ramoxOr d a b k
  | .ramoxXor d a b k => Enc.ramoxXor d a b k
  | .ramoxMin d a b k => Enc.ramoxMin d a b k
  | .ramoxMax d a b k => Enc.ramoxMax d a b k
  | .ramoxMinu d a b k => Enc.ramoxMinu d a b k
  | .ramoxMaxu d a b k => Enc.ramoxMaxu d a b k
  | .ramoxFmin d a b k => Enc.ramoxFmin d a b k
  | .ramoxFmax d a b k => Enc.ramoxFmax d a b k
  | .dpost a b k => Enc.dpost a b k
  | .dgrant d a => Enc.dgrant d a
  | .xrun d a b => Enc.xrun d a b
  | .xstat d a b k => Enc.xstat d a b k
  | .cred d a b k => Enc.cred d a b k
  | .cbcast d a b => Enc.cbcast d a b
  | .cgath d a b => Enc.cgath d a b
  | .cbar d a => Enc.cbar d a
  | .cstat d a => Enc.cstat d a
  | .pbar => Enc.pbar
  | .park d a b => Enc.park d a b
  | .unpark d a b => Enc.unpark d a b
  | .pstat d a => Enc.pstat d a
  | _ => 0

/-- Whether an instruction is one of the compact forms (R42). -/
def Instr.compact : Instr → Bool
  | .cAdd .. | .cSub .. | .cAnd .. | .cOr .. | .cXor .. | .cSll .. | .cSrl .. | .cMv .. | .cAddi .. | .cLi .. | .cLdd .. | .cStd .. | .cBeqz .. | .cBnez .. | .cVadd .. | .cVfma .. => true
  | _ => false

/-- Whether a row of the table is an event: it has no encoding. -/
def Instr.event (i : Instr) : Bool := encodeNat i == 0 && !i.compact

/-- How many bytes an encoded instruction occupies (R27). -/
def Instr.size (i : Instr) : Nat := if i.compact then 2 else 4

/-- The parcel or word of an instruction, zero-extended (R32's TVAL). -/
def encode (i : Instr) : BitVec 32 := BitVec.ofNat 32 (encodeNat i)

/-- The bytes of an instruction in memory (R39): little-endian. -/
def encodeBytes (i : Instr) : List Byte :=
  (List.range i.size).map fun k => BitVec.ofNat 8 (encodeNat i / 256 ^ k)

/-! ## Decoding. Lean's code generator has no tag for so many constructors with fields, so the functions that build
an `Instr` have no compiled code; the kernel evaluates them. -/

noncomputable section

/-- The `n` bits of `w` from bit `lo` up. -/
def fld (w lo n : Nat) : BitVec n := BitVec.ofNat n (w / 2 ^ lo)

/-- The compact forms (R42): op5 is bits [5:1]. -/
def decCompact (w : Nat) : Option Instr :=
  match w / 2 % 32 with
  | 0 => some (.cAdd (fld w 6 5) (fld w 11 5))
  | 1 => some (.cSub (fld w 6 5) (fld w 11 5))
  | 2 => some (.cAnd (fld w 6 5) (fld w 11 5))
  | 3 => some (.cOr (fld w 6 5) (fld w 11 5))
  | 4 => some (.cXor (fld w 6 5) (fld w 11 5))
  | 5 => some (.cSll (fld w 6 5) (fld w 11 5))
  | 6 => some (.cSrl (fld w 6 5) (fld w 11 5))
  | 7 => some (.cMv (fld w 6 5) (fld w 11 5))
  | 8 => some (.cAddi (fld w 6 5) (fld w 11 5))
  | 9 => some (.cLi (fld w 6 5) (fld w 11 5))
  | 10 => some (.cLdd (fld w 6 5) (fld w 11 5))
  | 11 => some (.cStd (fld w 6 5) (fld w 11 5))
  | 12 => some (.cBeqz (fld w 6 5) (fld w 11 5))
  | 13 => some (.cBnez (fld w 6 5) (fld w 11 5))
  | 14 => some (.cVadd (fld w 6 5) (fld w 11 5))
  | 15 => some (.cVfma (fld w 6 5) (fld w 11 5))
  | _ => none

/-- Major 0x01. -/
def decInt (w : Nat) : Option Instr :=
  match w / 4194304 with
  | 0 => some (.add (fld w 7 5) (fld w 12 5) (fld w 17 5))
  | 1 => some (.sub (fld w 7 5) (fld w 12 5) (fld w 17 5))
  | 2 => some (.and (fld w 7 5) (fld w 12 5) (fld w 17 5))
  | 3 => some (.or (fld w 7 5) (fld w 12 5) (fld w 17 5))
  | 4 => some (.xor (fld w 7 5) (fld w 12 5) (fld w 17 5))
  | 5 => some (.andn (fld w 7 5) (fld w 12 5) (fld w 17 5))
  | 6 => some (.orn (fld w 7 5) (fld w 12 5) (fld w 17 5))
  | 7 => some (.sll (fld w 7 5) (fld w 12 5) (fld w 17 5))
  | 8 => some (.srl (fld w 7 5) (fld w 12 5) (fld w 17 5))
  | 9 => some (.sra (fld w 7 5) (fld w 12 5) (fld w 17 5))
  | 10 => some (.rol (fld w 7 5) (fld w 12 5) (fld w 17 5))
  | 11 => some (.ror (fld w 7 5) (fld w 12 5) (fld w 17 5))
  | 12 => some (.min (fld w 7 5) (fld w 12 5) (fld w 17 5))
  | 13 => some (.max (fld w 7 5) (fld w 12 5) (fld w 17 5))
  | 14 => some (.minu (fld w 7 5) (fld w 12 5) (fld w 17 5))
  | 15 => some (.maxu (fld w 7 5) (fld w 12 5) (fld w 17 5))
  | 16 => some (.slt (fld w 7 5) (fld w 12 5) (fld w 17 5))
  | 17 => some (.sltu (fld w 7 5) (fld w 12 5) (fld w 17 5))
  | 18 => some (.seq (fld w 7 5) (fld w 12 5) (fld w 17 5))
  | 19 => some (.sne (fld w 7 5) (fld w 12 5) (fld w 17 5))
  | 20 =>
    if w / 131072 % 32 = 0 then some (.clz (fld w 7 5) (fld w 12 5))
    else none
  | 21 =>
    if w / 131072 % 32 = 0 then some (.ctz (fld w 7 5) (fld w 12 5))
    else none
  | 22 =>
    if w / 131072 % 32 = 0 then some (.popc (fld w 7 5) (fld w 12 5))
    else none
  | 23 =>
    if w / 131072 % 32 = 0 then some (.bswap (fld w 7 5) (fld w 12 5))
    else none
  | 24 => some (.mul (fld w 7 5) (fld w 12 5) (fld w 17 5))
  | 25 => some (.mulh (fld w 7 5) (fld w 12 5) (fld w 17 5))
  | 26 => some (.mulhu (fld w 7 5) (fld w 12 5) (fld w 17 5))
  | 27 => some (.div (fld w 7 5) (fld w 12 5) (fld w 17 5))
  | 28 => some (.divu (fld w 7 5) (fld w 12 5) (fld w 17 5))
  | 29 => some (.rem (fld w 7 5) (fld w 12 5) (fld w 17 5))
  | 30 => some (.remu (fld w 7 5) (fld w 12 5) (fld w 17 5))
  | 31 => some (.sel (fld w 7 5) (fld w 12 5) (fld w 17 5))
  | _ => none

/-- Major 0x02. -/
def decAddi (w : Nat) : Option Instr :=
  some (.addi (fld w 7 5) (fld w 12 5) (fld w 17 15))

/-- Major 0x03. -/
def decAndi (w : Nat) : Option Instr :=
  some (.andi (fld w 7 5) (fld w 12 5) (fld w 17 15))

/-- Major 0x04. -/
def decOri (w : Nat) : Option Instr :=
  some (.ori (fld w 7 5) (fld w 12 5) (fld w 17 15))

/-- Major 0x05. -/
def decXori (w : Nat) : Option Instr :=
  some (.xori (fld w 7 5) (fld w 12 5) (fld w 17 15))

/-- Major 0x06. -/
def decShi (w : Nat) : Option Instr :=
  match w / 131072 % 8 with
  | 0 =>
    if w / 67108864 = 0 then some (.slli (fld w 7 5) (fld w 12 5) (fld w 20 6))
    else none
  | 1 =>
    if w / 67108864 = 0 then some (.srli (fld w 7 5) (fld w 12 5) (fld w 20 6))
    else none
  | 2 =>
    if w / 67108864 = 0 then some (.srai (fld w 7 5) (fld w 12 5) (fld w 20 6))
    else none
  | 3 => some (.slti (fld w 7 5) (fld w 12 5) (fld w 20 12))
  | _ => none

/-- Major 0x07. -/
def decLdhi (w : Nat) : Option Instr :=
  some (.ldhi (fld w 7 5) (fld w 12 20))

/-- Major 0x08. -/
def decAddpc (w : Nat) : Option Instr :=
  some (.addpc (fld w 7 5) (fld w 12 20))

/-- Major 0x09. -/
def decBr (w : Nat) : Option Instr :=
  match w / 131072 % 8 with
  | 0 => some (.beq (fld w 7 5) (fld w 12 5) (fld w 20 12))
  | 1 => some (.bne (fld w 7 5) (fld w 12 5) (fld w 20 12))
  | 2 => some (.blt (fld w 7 5) (fld w 12 5) (fld w 20 12))
  | 3 => some (.bge (fld w 7 5) (fld w 12 5) (fld w 20 12))
  | 4 => some (.bltu (fld w 7 5) (fld w 12 5) (fld w 20 12))
  | 5 => some (.bgeu (fld w 7 5) (fld w 12 5) (fld w 20 12))
  | _ => none

/-- Major 0x0A. -/
def decJal (w : Nat) : Option Instr :=
  some (.jal (fld w 7 5) (fld w 12 20))

/-- Major 0x0B. -/
def decJalr (w : Nat) : Option Instr :=
  match w / 131072 % 8 with
  | 0 => some (.jalr (fld w 7 5) (fld w 12 5) (fld w 20 12))
  | _ => none

/-- Major 0x0C. -/
def decStrip (w : Nat) : Option Instr :=
  match w / 131072 % 8 with
  | 0 => some (.strip (fld w 7 5) (fld w 12 5) (fld w 20 12))
  | _ => none

/-- Major 0x0D. -/
def decSys (w : Nat) : Option Instr :=
  match w / 131072 % 8 with
  | 0 =>
    if w / 4096 % 32 = 0 then some (.csrr (fld w 7 5) (fld w 20 12))
    else none
  | 1 => some (.csrw (fld w 7 5) (fld w 12 5) (fld w 20 12))
  | 2 => some (.csrset (fld w 7 5) (fld w 12 5) (fld w 20 12))
  | 3 => some (.csrclr (fld w 7 5) (fld w 12 5) (fld w 20 12))
  | 4 =>
    if w / 128 % 1024 = 0 then some (.trap (fld w 20 12))
    else none
  | 5 =>
    if w / 128 % 32 = 0 ∧ w / 65536 % 2 = 0 then some (.sig (fld w 12 4) (fld w 20 12))
    else none
  | 6 =>
    if w / 128 % 1024 = 0 ∧ w / 1048576 = 0 then some (.rft)
    else if w / 128 % 1024 = 0 ∧ w / 1048576 = 1 then some (.exit)
    else if w / 128 % 1024 = 0 ∧ w / 1048576 = 2 then some (.yield)
    else if w / 128 % 1024 = 0 ∧ w / 1048576 = 3 then some (.ifence)
    else none
  | 7 =>
    if w / 4194304 = 0 then some (.frpop (fld w 7 5) (fld w 12 5) (fld w 20 2))
    else if w / 1048576 = 256 then some (.resume (fld w 7 5) (fld w 12 5))
    else if w / 1048576 = 512 then some (.kill (fld w 7 5) (fld w 12 5))
    else none
  | _ => none

/-- Major 0x0E. -/
def decPfx (w : Nat) : Option Instr :=
  if w / 1048576 = 0 then some (.pfx (fld w 7 5) (fld w 12 1) (fld w 13 1) (fld w 14 1) (fld w 15 5))
  else none

/-- Major 0x0F. -/
def decQue (w : Nat) : Option Instr :=
  match w / 131072 % 8 with
  | 0 =>
    if w / 128 % 32 = 0 ∧ w / 8388608 = 0 then some (.qpsh (fld w 12 5) (fld w 20 3))
    else none
  | 1 =>
    if w / 4096 % 32 = 0 ∧ w / 8388608 = 0 then some (.qpop (fld w 7 5) (fld w 20 3))
    else none
  | 2 =>
    if w / 4096 % 32 = 0 ∧ w / 8388608 = 0 then some (.qcnt (fld w 7 5) (fld w 20 3))
    else none
  | _ => none

/-- Major 0x10. -/
def decLd (w : Nat) : Option Instr :=
  match w / 131072 % 8 with
  | 0 => some (.ldb (fld w 7 5) (fld w 12 5) (fld w 20 12))
  | 1 => some (.ldbz (fld w 7 5) (fld w 12 5) (fld w 20 12))
  | 2 => some (.ldh (fld w 7 5) (fld w 12 5) (fld w 20 12))
  | 3 => some (.ldhz (fld w 7 5) (fld w 12 5) (fld w 20 12))
  | 4 => some (.ldw (fld w 7 5) (fld w 12 5) (fld w 20 12))
  | 5 => some (.ldwz (fld w 7 5) (fld w 12 5) (fld w 20 12))
  | 6 => some (.ldd (fld w 7 5) (fld w 12 5) (fld w 20 12))
  | _ => none

/-- Major 0x11. -/
def decSt (w : Nat) : Option Instr :=
  match w / 131072 % 8 with
  | 0 => some (.stb (fld w 7 5) (fld w 12 5) (fld w 20 12))
  | 1 => some (.sth (fld w 7 5) (fld w 12 5) (fld w 20 12))
  | 2 => some (.stw (fld w 7 5) (fld w 12 5) (fld w 20 12))
  | 3 => some (.std (fld w 7 5) (fld w 12 5) (fld w 20 12))
  | _ => none

/-- Major 0x12. -/
def decAmo (w : Nat) : Option Instr :=
  match w / 268435456 with
  | 0 => some (.amoadd (fld w 7 5) (fld w 12 5) (fld w 17 5) (fld w 22 3) (fld w 25 1) (fld w 26 1) (fld w 27 1))
  | 1 => some (.amoswp (fld w 7 5) (fld w 12 5) (fld w 17 5) (fld w 22 3) (fld w 25 1) (fld w 26 1) (fld w 27 1))
  | 2 => some (.amocas (fld w 7 5) (fld w 12 5) (fld w 17 5) (fld w 22 3) (fld w 25 1) (fld w 26 1) (fld w 27 1))
  | 3 => some (.amoand (fld w 7 5) (fld w 12 5) (fld w 17 5) (fld w 22 3) (fld w 25 1) (fld w 26 1) (fld w 27 1))
  | 4 => some (.amoor (fld w 7 5) (fld w 12 5) (fld w 17 5) (fld w 22 3) (fld w 25 1) (fld w 26 1) (fld w 27 1))
  | 5 => some (.amoxor (fld w 7 5) (fld w 12 5) (fld w 17 5) (fld w 22 3) (fld w 25 1) (fld w 26 1) (fld w 27 1))
  | 6 => some (.amomin (fld w 7 5) (fld w 12 5) (fld w 17 5) (fld w 22 3) (fld w 25 1) (fld w 26 1) (fld w 27 1))
  | 7 => some (.amomax (fld w 7 5) (fld w 12 5) (fld w 17 5) (fld w 22 3) (fld w 25 1) (fld w 26 1) (fld w 27 1))
  | 8 => some (.amominu (fld w 7 5) (fld w 12 5) (fld w 17 5) (fld w 22 3) (fld w 25 1) (fld w 26 1) (fld w 27 1))
  | 9 => some (.amomaxu (fld w 7 5) (fld w 12 5) (fld w 17 5) (fld w 22 3) (fld w 25 1) (fld w 26 1) (fld w 27 1))
  | 10 =>
    if w / 131072 % 32 = 0 ∧ w / 33554432 % 4 = 2 then some (.lda (fld w 7 5) (fld w 12 5) (fld w 22 3) (fld w 27 1))
    else none
  | 11 =>
    if w / 128 % 32 = 0 ∧ w / 33554432 % 4 = 1 then some (.stl (fld w 12 5) (fld w 17 5) (fld w 22 3) (fld w 27 1))
    else none
  | _ => none

/-- Major 0x13. -/
def decFp (w : Nat) : Option Instr :=
  match w / 268435456 with
  | 0 => some (.fadd (fld w 7 5) (fld w 12 5) (fld w 17 5) (fld w 22 3) (fld w 25 3))
  | 1 => some (.fsub (fld w 7 5) (fld w 12 5) (fld w 17 5) (fld w 22 3) (fld w 25 3))
  | 2 => some (.fmul (fld w 7 5) (fld w 12 5) (fld w 17 5) (fld w 22 3) (fld w 25 3))
  | 3 => some (.fdiv (fld w 7 5) (fld w 12 5) (fld w 17 5) (fld w 22 3) (fld w 25 3))
  | 4 =>
    if w / 131072 % 32 = 0 then some (.fsqrt (fld w 7 5) (fld w 12 5) (fld w 22 3) (fld w 25 3))
    else none
  | 5 =>
    if w / 4194304 % 8 = 0 then some (.fmin (fld w 7 5) (fld w 12 5) (fld w 17 5) (fld w 25 3))
    else none
  | 6 =>
    if w / 4194304 % 8 = 0 then some (.fmax (fld w 7 5) (fld w 12 5) (fld w 17 5) (fld w 25 3))
    else none
  | 7 =>
    if w / 4194304 % 8 = 0 then some (.feq (fld w 7 5) (fld w 12 5) (fld w 17 5) (fld w 25 3))
    else none
  | 8 =>
    if w / 4194304 % 8 = 0 then some (.flt (fld w 7 5) (fld w 12 5) (fld w 17 5) (fld w 25 3))
    else none
  | 9 =>
    if w / 4194304 % 8 = 0 then some (.fle (fld w 7 5) (fld w 12 5) (fld w 17 5) (fld w 25 3))
    else none
  | 10 =>
    if w / 4194304 % 8 = 0 then some (.funord (fld w 7 5) (fld w 12 5) (fld w 17 5) (fld w 25 3))
    else none
  | 11 =>
    if w / 1048576 % 4 = 0 then some (.fcvt (fld w 7 5) (fld w 12 5) (fld w 17 3) (fld w 22 3) (fld w 25 3))
    else none
  | 12 =>
    if w / 131072 % 256 = 0 then some (.fclass (fld w 7 5) (fld w 12 5) (fld w 25 3))
    else none
  | 13 => some (.fsign (fld w 7 5) (fld w 12 5) (fld w 17 5) (fld w 22 3) (fld w 25 3))
  | _ => none

/-- Major 0x14. -/
def decFma (w : Nat) : Option Instr :=
  match w / 268435456 with
  | 0 => some (.fma (fld w 7 5) (fld w 12 5) (fld w 17 5) (fld w 22 3) (fld w 25 3))
  | 1 => some (.fmsub (fld w 7 5) (fld w 12 5) (fld w 17 5) (fld w 22 3) (fld w 25 3))
  | 2 => some (.fnma (fld w 7 5) (fld w 12 5) (fld w 17 5) (fld w 22 3) (fld w 25 3))
  | _ => none

/-- Major 0x18. -/
def decVset (w : Nat) : Option Instr :=
  if w / 524288 % 2 = 0 ∧ w / 268435456 = 0 then some (.vset (fld w 7 5) (fld w 12 5) (fld w 17 1) (fld w 18 1) (fld w 20 1) (fld w 21 2) (fld w 23 2) (fld w 25 3))
  else none

/-- Major 0x19. -/
def decVint (w : Nat) : Option Instr :=
  match w / 67108864 with
  | 0 => some (.vadd (fld w 7 5) (fld w 12 5) (fld w 17 5) (fld w 22 3) (fld w 25 1))
  | 1 => some (.vsub (fld w 7 5) (fld w 12 5) (fld w 17 5) (fld w 22 3) (fld w 25 1))
  | 2 => some (.vrsub (fld w 7 5) (fld w 12 5) (fld w 17 5) (fld w 22 3) (fld w 25 1))
  | 3 => some (.vmul (fld w 7 5) (fld w 12 5) (fld w 17 5) (fld w 22 3) (fld w 25 1))
  | 4 => some (.vmulh (fld w 7 5) (fld w 12 5) (fld w 17 5) (fld w 22 3) (fld w 25 1))
  | 5 => some (.vmulhu (fld w 7 5) (fld w 12 5) (fld w 17 5) (fld w 22 3) (fld w 25 1))
  | 6 => some (.vdiv (fld w 7 5) (fld w 12 5) (fld w 17 5) (fld w 22 3) (fld w 25 1))
  | 7 => some (.vdivu (fld w 7 5) (fld w 12 5) (fld w 17 5) (fld w 22 3) (fld w 25 1))
  | 8 => some (.vrem (fld w 7 5) (fld w 12 5) (fld w 17 5) (fld w 22 3) (fld w 25 1))
  | 9 => some (.vremu (fld w 7 5) (fld w 12 5) (fld w 17 5) (fld w 22 3) (fld w 25 1))
  | 10 => some (.vand (fld w 7 5) (fld w 12 5) (fld w 17 5) (fld w 22 3) (fld w 25 1))
  | 11 => some (.vor (fld w 7 5) (fld w 12 5) (fld w 17 5) (fld w 22 3) (fld w 25 1))
  | 12 => some (.vxor (fld w 7 5) (fld w 12 5) (fld w 17 5) (fld w 22 3) (fld w 25 1))
  | 13 => some (.vsll (fld w 7 5) (fld w 12 5) (fld w 17 5) (fld w 22 3) (fld w 25 1))
  | 14 => some (.vsrl (fld w 7 5) (fld w 12 5) (fld w 17 5) (fld w 22 3) (fld w 25 1))
  | 15 => some (.vsra (fld w 7 5) (fld w 12 5) (fld w 17 5) (fld w 22 3) (fld w 25 1))
  | 16 => some (.vmin (fld w 7 5) (fld w 12 5) (fld w 17 5) (fld w 22 3) (fld w 25 1))
  | 17 => some (.vmax (fld w 7 5) (fld w 12 5) (fld w 17 5) (fld w 22 3) (fld w 25 1))
  | 18 => some (.vminu (fld w 7 5) (fld w 12 5) (fld w 17 5) (fld w 22 3) (fld w 25 1))
  | 19 => some (.vmaxu (fld w 7 5) (fld w 12 5) (fld w 17 5) (fld w 22 3) (fld w 25 1))
  | 20 => some (.vsadd (fld w 7 5) (fld w 12 5) (fld w 17 5) (fld w 22 3) (fld w 25 1))
  | 21 => some (.vsaddu (fld w 7 5) (fld w 12 5) (fld w 17 5) (fld w 22 3) (fld w 25 1))
  | 22 => some (.vssub (fld w 7 5) (fld w 12 5) (fld w 17 5) (fld w 22 3) (fld w 25 1))
  | 23 => some (.vssubu (fld w 7 5) (fld w 12 5) (fld w 17 5) (fld w 22 3) (fld w 25 1))
  | 24 => some (.vmerge (fld w 7 5) (fld w 12 5) (fld w 17 5) (fld w 22 3) (fld w 25 1))
  | 25 =>
    if w / 4096 % 32 = 0 then some (.vmv (fld w 7 5) (fld w 17 5) (fld w 22 3) (fld w 25 1))
    else none
  | 26 =>
    if w / 4096 % 1024 = 0 ∧ w / 33554432 % 2 = 0 then some (.vidx (fld w 7 5) (fld w 22 3))
    else none
  | _ => none

/-- Major 0x1A. -/
def decVfp (w : Nat) : Option Instr :=
  match w / 67108864 with
  | 0 => some (.vfadd (fld w 7 5) (fld w 12 5) (fld w 17 5) (fld w 22 3) (fld w 25 1))
  | 1 => some (.vfsub (fld w 7 5) (fld w 12 5) (fld w 17 5) (fld w 22 3) (fld w 25 1))
  | 2 => some (.vfmul (fld w 7 5) (fld w 12 5) (fld w 17 5) (fld w 22 3) (fld w 25 1))
  | 3 => some (.vfdiv (fld w 7 5) (fld w 12 5) (fld w 17 5) (fld w 22 3) (fld w 25 1))
  | 4 =>
    if w / 4096 % 32 = 0 then some (.vfsqrt (fld w 7 5) (fld w 17 5) (fld w 22 3) (fld w 25 1))
    else none
  | 5 => some (.vfma (fld w 7 5) (fld w 12 5) (fld w 17 5) (fld w 22 3) (fld w 25 1))
  | 6 => some (.vfmsub (fld w 7 5) (fld w 12 5) (fld w 17 5) (fld w 22 3) (fld w 25 1))
  | 7 => some (.vfnma (fld w 7 5) (fld w 12 5) (fld w 17 5) (fld w 22 3) (fld w 25 1))
  | 8 => some (.vfmin (fld w 7 5) (fld w 12 5) (fld w 17 5) (fld w 22 3) (fld w 25 1))
  | 9 => some (.vfmax (fld w 7 5) (fld w 12 5) (fld w 17 5) (fld w 22 3) (fld w 25 1))
  | 10 => some (.vfsign (fld w 7 5) (fld w 12 5) (fld w 17 5) (fld w 22 3) (fld w 25 1))
  | 11 =>
    if w / 4096 % 32 = 0 then some (.vfclass (fld w 7 5) (fld w 17 5) (fld w 22 3) (fld w 25 1))
    else none
  | 12 =>
    if w / 32768 % 4 = 0 ∧ w / 33554432 % 2 = 1 then some (.vpiv (fld w 7 5) (fld w 12 3) (fld w 17 5) (fld w 22 3))
    else none
  | _ => none

/-- Major 0x1B. -/
def decVcmp (w : Nat) : Option Instr :=
  match w / 67108864 with
  | 0 =>
    if w / 1024 % 4 = 0 then some (.vcmpEq (fld w 7 3) (fld w 12 5) (fld w 17 5) (fld w 22 3) (fld w 25 1))
    else none
  | 1 =>
    if w / 1024 % 4 = 0 then some (.vcmpNe (fld w 7 3) (fld w 12 5) (fld w 17 5) (fld w 22 3) (fld w 25 1))
    else none
  | 2 =>
    if w / 1024 % 4 = 0 then some (.vcmpLt (fld w 7 3) (fld w 12 5) (fld w 17 5) (fld w 22 3) (fld w 25 1))
    else none
  | 3 =>
    if w / 1024 % 4 = 0 then some (.vcmpLe (fld w 7 3) (fld w 12 5) (fld w 17 5) (fld w 22 3) (fld w 25 1))
    else none
  | 4 =>
    if w / 1024 % 4 = 0 then some (.vcmpLtu (fld w 7 3) (fld w 12 5) (fld w 17 5) (fld w 22 3) (fld w 25 1))
    else none
  | 5 =>
    if w / 1024 % 4 = 0 then some (.vcmpLeu (fld w 7 3) (fld w 12 5) (fld w 17 5) (fld w 22 3) (fld w 25 1))
    else none
  | 8 =>
    if w / 1024 % 4 = 0 then some (.vfcmpEq (fld w 7 3) (fld w 12 5) (fld w 17 5) (fld w 22 3) (fld w 25 1))
    else none
  | 9 =>
    if w / 1024 % 4 = 0 then some (.vfcmpLt (fld w 7 3) (fld w 12 5) (fld w 17 5) (fld w 22 3) (fld w 25 1))
    else none
  | 10 =>
    if w / 1024 % 4 = 0 then some (.vfcmpLe (fld w 7 3) (fld w 12 5) (fld w 17 5) (fld w 22 3) (fld w 25 1))
    else none
  | 11 =>
    if w / 1024 % 4 = 0 then some (.vfcmpUnord (fld w 7 3) (fld w 12 5) (fld w 17 5) (fld w 22 3) (fld w 25 1))
    else none
  | 16 =>
    if w / 1024 % 4 = 0 ∧ w / 32768 % 4 = 0 ∧ w / 1048576 % 64 = 0 then some (.mand (fld w 7 3) (fld w 12 3) (fld w 17 3))
    else none
  | 17 =>
    if w / 1024 % 4 = 0 ∧ w / 32768 % 4 = 0 ∧ w / 1048576 % 64 = 0 then some (.mor (fld w 7 3) (fld w 12 3) (fld w 17 3))
    else none
  | 18 =>
    if w / 1024 % 4 = 0 ∧ w / 32768 % 4 = 0 ∧ w / 1048576 % 64 = 0 then some (.mxor (fld w 7 3) (fld w 12 3) (fld w 17 3))
    else none
  | 19 =>
    if w / 1024 % 4 = 0 ∧ w / 32768 % 4 = 0 ∧ w / 1048576 % 64 = 0 then some (.mandn (fld w 7 3) (fld w 12 3) (fld w 17 3))
    else none
  | 20 =>
    if w / 1024 % 128 = 0 ∧ w / 1048576 % 64 = 0 then some (.mnot (fld w 7 3) (fld w 17 3))
    else none
  | 21 =>
    if w / 1024 % 128 = 0 ∧ w / 1048576 % 64 = 0 then some (.mmv (fld w 7 3) (fld w 17 3))
    else none
  | 22 =>
    if w / 1024 % 65536 = 0 then some (.mclr (fld w 7 3))
    else none
  | 23 =>
    if w / 4096 % 32 = 0 ∧ w / 1048576 % 4 = 0 ∧ w / 33554432 % 2 = 0 then some (.mpopc (fld w 7 5) (fld w 17 3) (fld w 22 3))
    else none
  | 24 =>
    if w / 4096 % 32 = 0 ∧ w / 1048576 % 4 = 0 ∧ w / 33554432 % 2 = 0 then some (.mfirst (fld w 7 5) (fld w 17 3) (fld w 22 3))
    else none
  | _ => none

/-- Major 0x1C. -/
def decVred (w : Nat) : Option Instr :=
  match w / 67108864 with
  | 0 =>
    if w / 33554432 % 2 = 0 then some (.vredsum (fld w 7 5) (fld w 12 5) (fld w 17 5) (fld w 22 3))
    else none
  | 1 =>
    if w / 33554432 % 2 = 0 then some (.vredmin (fld w 7 5) (fld w 12 5) (fld w 17 5) (fld w 22 3))
    else none
  | 2 =>
    if w / 33554432 % 2 = 0 then some (.vredmax (fld w 7 5) (fld w 12 5) (fld w 17 5) (fld w 22 3))
    else none
  | 3 =>
    if w / 33554432 % 2 = 0 then some (.vredminu (fld w 7 5) (fld w 12 5) (fld w 17 5) (fld w 22 3))
    else none
  | 4 =>
    if w / 33554432 % 2 = 0 then some (.vredmaxu (fld w 7 5) (fld w 12 5) (fld w 17 5) (fld w 22 3))
    else none
  | 5 =>
    if w / 33554432 % 2 = 0 then some (.vredand (fld w 7 5) (fld w 12 5) (fld w 17 5) (fld w 22 3))
    else none
  | 6 =>
    if w / 33554432 % 2 = 0 then some (.vredor (fld w 7 5) (fld w 12 5) (fld w 17 5) (fld w 22 3))
    else none
  | 7 =>
    if w / 33554432 % 2 = 0 then some (.vredxor (fld w 7 5) (fld w 12 5) (fld w 17 5) (fld w 22 3))
    else none
  | 8 =>
    if w / 33554432 % 2 = 0 then some (.vwredsum (fld w 7 5) (fld w 12 5) (fld w 17 5) (fld w 22 3))
    else none
  | 9 =>
    if w / 33554432 % 2 = 0 then some (.vfredo (fld w 7 5) (fld w 12 5) (fld w 17 5) (fld w 22 3))
    else none
  | 10 =>
    if w / 33554432 % 2 = 0 then some (.vfredt (fld w 7 5) (fld w 12 5) (fld w 17 5) (fld w 22 3))
    else none
  | 11 =>
    if w / 33554432 % 2 = 0 then some (.vfredx (fld w 7 5) (fld w 12 5) (fld w 17 5) (fld w 22 3))
    else none
  | 12 =>
    if w / 33554432 % 2 = 0 then some (.vfredmin (fld w 7 5) (fld w 12 5) (fld w 17 5) (fld w 22 3))
    else none
  | 13 =>
    if w / 33554432 % 2 = 0 then some (.vfredmax (fld w 7 5) (fld w 12 5) (fld w 17 5) (fld w 22 3))
    else none
  | _ => none

/-- Major 0x1D. -/
def decVperm (w : Nat) : Option Instr :=
  match w / 67108864 with
  | 0 =>
    if w / 33554432 % 2 = 1 then some (.vslup (fld w 7 5) (fld w 12 5) (fld w 17 5) (fld w 22 3))
    else none
  | 1 =>
    if w / 33554432 % 2 = 1 then some (.vsldn (fld w 7 5) (fld w 12 5) (fld w 17 5) (fld w 22 3))
    else none
  | 2 =>
    if w / 33554432 % 2 = 1 then some (.vsl1up (fld w 7 5) (fld w 12 5) (fld w 17 5) (fld w 22 3))
    else none
  | 3 =>
    if w / 33554432 % 2 = 1 then some (.vsl1dn (fld w 7 5) (fld w 12 5) (fld w 17 5) (fld w 22 3))
    else none
  | 4 =>
    if w / 33554432 % 2 = 0 then some (.vperm (fld w 7 5) (fld w 12 5) (fld w 17 5) (fld w 22 3))
    else none
  | 5 =>
    if w / 131072 % 32 = 0 ∧ w / 33554432 % 2 = 0 then some (.vcompr (fld w 7 5) (fld w 12 5) (fld w 22 3))
    else none
  | 6 =>
    if w / 131072 % 32 = 0 ∧ w / 33554432 % 2 = 0 then some (.vexpd (fld w 7 5) (fld w 12 5) (fld w 22 3))
    else none
  | 7 =>
    if w / 33554432 % 2 = 1 then some (.vreshape (fld w 7 5) (fld w 12 5) (fld w 17 5) (fld w 22 3))
    else none
  | 8 =>
    if w / 33554432 % 2 = 1 then some (.vrowb (fld w 7 5) (fld w 12 5) (fld w 17 5) (fld w 22 3))
    else none
  | 9 =>
    if w / 33554432 % 2 = 1 then some (.vrowx (fld w 7 5) (fld w 12 5) (fld w 17 5) (fld w 22 3))
    else none
  | 10 =>
    if w / 33554432 % 2 = 1 then some (.vextr (fld w 7 5) (fld w 12 5) ⟨fld w 17 5, fld w 22 3⟩)
    else none
  | 11 =>
    if w / 33554432 % 2 = 1 then some (.vinsr (fld w 7 5) (fld w 12 5) ⟨fld w 17 5, fld w 22 3⟩)
    else none
  | 12 =>
    if w / 16384 % 256 = 0 ∧ w / 33554432 % 2 = 0 then some (.vpopq (fld w 7 5) (fld w 12 2) (fld w 22 3))
    else none
  | 13 =>
    if w / 512 % 8 = 0 ∧ w / 131072 % 32 = 0 ∧ w / 33554432 % 2 = 0 then some (.vpshq (fld w 7 2) ⟨fld w 12 5, fld w 22 3⟩)
    else none
  | 14 =>
    if w / 128 % 1024 = 0 ∧ w / 33554432 % 2 = 1 then some (.vappend (fld w 17 5) (fld w 22 3))
    else none
  | _ => none

/-- Major 0x1E. -/
def decVwide (w : Nat) : Option Instr :=
  match w / 67108864 with
  | 0 => some (.vwadd (fld w 7 5) (fld w 12 5) (fld w 17 5) (fld w 22 3) (fld w 25 1))
  | 1 => some (.vwaddu (fld w 7 5) (fld w 12 5) (fld w 17 5) (fld w 22 3) (fld w 25 1))
  | 2 => some (.vwmul (fld w 7 5) (fld w 12 5) (fld w 17 5) (fld w 22 3) (fld w 25 1))
  | 3 => some (.vwmulu (fld w 7 5) (fld w 12 5) (fld w 17 5) (fld w 22 3) (fld w 25 1))
  | 4 => some (.vwacc (fld w 7 5) (fld w 12 5) (fld w 17 5) (fld w 22 3) (fld w 25 1))
  | 5 => some (.vwaccu (fld w 7 5) (fld w 12 5) (fld w 17 5) (fld w 22 3) (fld w 25 1))
  | 6 => some (.vnsrl (fld w 7 5) (fld w 12 5) (fld w 17 5) (fld w 22 3) (fld w 25 1))
  | 7 => some (.vnclip (fld w 7 5) (fld w 12 5) (fld w 17 5) (fld w 22 3) (fld w 25 1))
  | 8 =>
    if w / 33554432 % 2 = 0 then some (.vfcvt (fld w 7 5) (fld w 12 5) (fld w 17 5) (fld w 22 3))
    else none
  | _ => none

/-- Major 0x20. -/
def decVldm (w : Nat) : Option Instr :=
  match w / 67108864 with
  | 0 =>
    if w / 131072 % 32 = 0 ∧ w / 33554432 % 2 = 0 then some (.vld (fld w 7 5) (fld w 12 5) (fld w 22 3))
    else none
  | 1 =>
    if w / 33554432 % 2 = 1 then some (.vlds (fld w 7 5) (fld w 12 5) (fld w 17 5) (fld w 22 3))
    else none
  | 2 =>
    if w / 33554432 % 2 = 1 then some (.vldr (fld w 7 5) (fld w 12 5) (fld w 17 5) (fld w 22 3))
    else none
  | 3 =>
    if w / 33554432 % 2 = 0 then some (.vldx (fld w 7 5) (fld w 12 5) (fld w 17 5) (fld w 22 3))
    else none
  | 4 =>
    if w / 33554432 % 2 = 0 then some (.vldq (fld w 7 5) (fld w 12 5) (fld w 17 5) (fld w 22 3))
    else none
  | 5 =>
    if w / 131072 % 32 = 0 ∧ w / 33554432 % 2 = 0 then some (.vldff (fld w 7 5) (fld w 12 5) (fld w 22 3))
    else none
  | 6 =>
    if w / 33554432 % 2 = 1 then some (.vldt (fld w 7 5) (fld w 12 5) (fld w 17 5) (fld w 22 3))
    else none
  | _ => none

/-- Major 0x21. -/
def decVstm (w : Nat) : Option Instr :=
  match w / 67108864 with
  | 0 =>
    if w / 131072 % 32 = 0 ∧ w / 33554432 % 2 = 0 then some (.vst (fld w 7 5) (fld w 12 5) (fld w 22 3))
    else none
  | 1 =>
    if w / 33554432 % 2 = 1 then some (.vsts (fld w 7 5) (fld w 12 5) (fld w 17 5) (fld w 22 3))
    else none
  | 2 =>
    if w / 33554432 % 2 = 1 then some (.vstr (fld w 7 5) (fld w 12 5) (fld w 17 5) (fld w 22 3))
    else none
  | 3 =>
    if w / 33554432 % 2 = 0 then some (.vstx (fld w 7 5) (fld w 12 5) (fld w 17 5) (fld w 22 3))
    else none
  | 4 =>
    if w / 33554432 % 2 = 0 then some (.vstq (fld w 7 5) (fld w 12 5) (fld w 17 5) (fld w 22 3))
    else none
  | _ => none

/-- Major 0x22. -/
def decVamo (w : Nat) : Option Instr :=
  match w / 268435456 with
  | 0 => some (.vamoAdd (fld w 7 5) (fld w 12 5) (fld w 17 5) (fld w 22 3) (fld w 25 1) (fld w 26 1) (fld w 27 1))
  | 1 => some (.vamoSwp (fld w 7 5) (fld w 12 5) (fld w 17 5) (fld w 22 3) (fld w 25 1) (fld w 26 1) (fld w 27 1))
  | 2 => some (.vamoAnd (fld w 7 5) (fld w 12 5) (fld w 17 5) (fld w 22 3) (fld w 25 1) (fld w 26 1) (fld w 27 1))
  | 3 => some (.vamoOr (fld w 7 5) (fld w 12 5) (fld w 17 5) (fld w 22 3) (fld w 25 1) (fld w 26 1) (fld w 27 1))
  | 4 => some (.vamoXor (fld w 7 5) (fld w 12 5) (fld w 17 5) (fld w 22 3) (fld w 25 1) (fld w 26 1) (fld w 27 1))
  | 5 => some (.vamoMin (fld w 7 5) (fld w 12 5) (fld w 17 5) (fld w 22 3) (fld w 25 1) (fld w 26 1) (fld w 27 1))
  | 6 => some (.vamoMax (fld w 7 5) (fld w 12 5) (fld w 17 5) (fld w 22 3) (fld w 25 1) (fld w 26 1) (fld w 27 1))
  | 7 => some (.vamoMinu (fld w 7 5) (fld w 12 5) (fld w 17 5) (fld w 22 3) (fld w 25 1) (fld w 26 1) (fld w 27 1))
  | 8 => some (.vamoMaxu (fld w 7 5) (fld w 12 5) (fld w 17 5) (fld w 22 3) (fld w 25 1) (fld w 26 1) (fld w 27 1))
  | 9 => some (.vamoFmin (fld w 7 5) (fld w 12 5) (fld w 17 5) (fld w 22 3) (fld w 25 1) (fld w 26 1) (fld w 27 1))
  | 10 => some (.vamoFmax (fld w 7 5) (fld w 12 5) (fld w 17 5) (fld w 22 3) (fld w 25 1) (fld w 26 1) (fld w 27 1))
  | _ => none

/-- Major 0x23. -/
def decVsync (w : Nat) : Option Instr :=
  match w / 67108864 with
  | 0 =>
    if w / 1024 % 4 = 0 ∧ w / 33554432 % 2 = 0 then some (.vwaitEq (fld w 7 3) (fld w 12 5) (fld w 17 5) (fld w 22 3))
    else none
  | 1 =>
    if w / 1024 % 4 = 0 ∧ w / 33554432 % 2 = 0 then some (.vwaitNe (fld w 7 3) (fld w 12 5) (fld w 17 5) (fld w 22 3))
    else none
  | 2 =>
    if w / 1024 % 4 = 0 ∧ w / 33554432 % 2 = 0 then some (.vwaitLt (fld w 7 3) (fld w 12 5) (fld w 17 5) (fld w 22 3))
    else none
  | 3 =>
    if w / 1024 % 4 = 0 ∧ w / 33554432 % 2 = 0 then some (.vwaitGe (fld w 7 3) (fld w 12 5) (fld w 17 5) (fld w 22 3))
    else none
  | 4 =>
    if w / 1024 % 4 = 0 ∧ w / 33554432 % 2 = 0 then some (.vwaitLtu (fld w 7 3) (fld w 12 5) (fld w 17 5) (fld w 22 3))
    else none
  | 5 =>
    if w / 1024 % 4 = 0 ∧ w / 33554432 % 2 = 0 then some (.vwaitGeu (fld w 7 3) (fld w 12 5) (fld w 17 5) (fld w 22 3))
    else none
  | 8 =>
    if w / 4096 % 16384 = 0 then some (.fence (fld w 7 3) (fld w 10 2))
    else none
  | 9 =>
    if w / 4096 % 16384 = 0 then some (.dfenceI (fld w 7 5))
    else none
  | 10 =>
    if w / 128 % 32 = 0 ∧ w / 131072 % 512 = 0 then some (.dfenceW (fld w 12 5))
    else none
  | _ => none

/-- Major 0x24. -/
def decMat (w : Nat) : Option Instr :=
  match w / 67108864 with
  | 0 =>
    if w / 128 % 1024 = 0 ∧ w / 4194304 % 16 = 8 then some (.mattach (fld w 17 5))
    else none
  | 1 =>
    if w / 128 % 524288 = 0 then some (.mdetach)
    else none
  | 2 =>
    if w / 128 % 1024 = 0 ∧ w / 4194304 % 16 = 8 then some (.mfmt (fld w 17 5))
    else none
  | 3 =>
    if w / 128 % 32 = 0 ∧ w / 4194304 % 16 = 8 then some (.mldb (fld w 12 5) (fld w 17 5))
    else none
  | 4 =>
    if w / 128 % 32 = 0 ∧ w / 4194304 % 16 = 8 then some (.mldbm (fld w 12 5) (fld w 17 5))
    else none
  | 5 =>
    if w / 128 % 32 = 0 ∧ w / 131072 % 512 = 0 then some (.mmulVreg (fld w 12 5))
    else if w / 128 % 32 = 1 ∧ w / 8192 % 8192 = 0 then some (.mmulTq (fld w 12 1))
    else none
  | 6 =>
    if w / 32768 % 4 = 0 ∧ w / 4194304 % 16 = 8 then some (.maccr (fld w 7 5) (fld w 12 3) (fld w 17 5))
    else none
  | 7 =>
    if w / 128 % 524288 = 0 then some (.maccz)
    else none
  | 8 =>
    if w / 4096 % 16384 = 0 then some (.mchk (fld w 7 5))
    else none
  | _ => none

/-- Major 0x25. -/
def decEng (w : Nat) : Option Instr :=
  match w / 67108864 with
  | 0 =>
    if w / 8388608 % 8 = 0 then some (.cpy (fld w 7 5) (fld w 12 5) (fld w 17 5) (fld w 22 1))
    else none
  | 1 =>
    if w / 131072 % 32 = 0 ∧ w / 8388608 % 8 = 0 then some (.cpy2 (fld w 7 5) (fld w 12 5) (fld w 22 1))
    else none
  | 2 =>
    if w / 131072 % 32 = 0 ∧ w / 8388608 % 8 = 0 then some (.cpyx (fld w 7 5) (fld w 12 5) (fld w 22 1))
    else none
  | 3 =>
    if w / 128 % 32 = 0 ∧ w / 4194304 % 16 = 0 then some (.tlwait (fld w 12 5) (fld w 17 5))
    else none
  | 4 =>
    if w / 131072 % 512 = 0 then some (.tlread (fld w 7 5) (fld w 12 5))
    else none
  | 5 =>
    if w / 131072 % 512 = 0 then some (.engctxCreate (fld w 7 5) (fld w 12 5))
    else if w / 128 % 32 = 0 ∧ w / 131072 % 512 = 64 then some (.engctxDestroy (fld w 12 5))
    else if w / 131072 % 512 = 128 then some (.engctxQuery (fld w 7 5) (fld w 12 5))
    else none
  | _ => none

/-- Major 0x26. -/
def decTopo (w : Nat) : Option Instr :=
  match w / 4194304 with
  | 0 => some (.tbind (fld w 7 5) (fld w 12 5) (fld w 17 5))
  | 1 => some (.tnbr (fld w 7 5) (fld w 12 5) (fld w 17 5))
  | 2 => some (.tface (fld w 7 5) (fld w 12 5) (fld w 17 5))
  | 3 => some (.tmark (fld w 7 5) (fld w 12 5) (fld w 17 5))
  | 4 => some (.tcommit (fld w 7 5) (fld w 12 5) (fld w 17 5))
  | 5 =>
    if w / 128 % 32 = 0 ∧ w / 131072 % 32 = 0 then some (.tfree (fld w 12 5))
    else none
  | 6 => some (.tcolour (fld w 7 5) (fld w 12 5) (fld w 17 5))
  | 7 => some (.tlevel (fld w 7 5) (fld w 12 5) (fld w 17 5))
  | 8 => some (.tcut (fld w 7 5) (fld w 12 5) (fld w 17 5))
  | 9 => some (.tremap (fld w 7 5) (fld w 12 5) (fld w 17 5))
  | 10 => some (.txport (fld w 7 5) (fld w 12 5) (fld w 17 5))
  | 11 => some (.timport (fld w 7 5) (fld w 12 5) (fld w 17 5))
  | _ => none

/-- Major 0x27. -/
def decWork (w : Nat) : Option Instr :=
  match w / 131072 % 8 with
  | 0 =>
    if w / 1048576 = 0 then some (.spawn (fld w 7 5) (fld w 12 5))
    else none
  | 1 =>
    if w / 128 % 32 = 0 ∧ w / 1048576 = 0 then some (.waitch (fld w 12 5))
    else none
  | 2 =>
    if w / 128 % 1024 = 0 ∧ w / 8388608 = 0 then some (.bar (fld w 20 3))
    else none
  | 3 =>
    if w / 4096 % 32 = 0 ∧ w / 8388608 = 0 then some (.bara (fld w 7 5) (fld w 20 3))
    else none
  | 4 =>
    if w / 128 % 32 = 0 ∧ w / 8388608 = 0 then some (.barw (fld w 12 5) (fld w 20 3))
    else none
  | _ => none

/-- Major 0x28. -/
def decRemote (w : Nat) : Option Instr :=
  match w / 67108864 with
  | 0 =>
    if w / 33554432 % 2 = 0 then some (.rldx (fld w 7 5) (fld w 12 5) (fld w 17 5) (fld w 22 3))
    else none
  | 1 =>
    if w / 33554432 % 2 = 0 then some (.rstx (fld w 7 5) (fld w 12 5) (fld w 17 5) (fld w 22 3))
    else none
  | 16 =>
    if w / 33554432 % 2 = 0 then some (.ramoxAdd (fld w 7 5) (fld w 12 5) (fld w 17 5) (fld w 22 3))
    else none
  | 17 =>
    if w / 33554432 % 2 = 0 then some (.ramoxSwp (fld w 7 5) (fld w 12 5) (fld w 17 5) (fld w 22 3))
    else none
  | 18 =>
    if w / 33554432 % 2 = 0 then some (.ramoxAnd (fld w 7 5) (fld w 12 5) (fld w 17 5) (fld w 22 3))
    else none
  | 19 =>
    if w / 33554432 % 2 = 0 then some (.ramoxOr (fld w 7 5) (fld w 12 5) (fld w 17 5) (fld w 22 3))
    else none
  | 20 =>
    if w / 33554432 % 2 = 0 then some (.ramoxXor (fld w 7 5) (fld w 12 5) (fld w 17 5) (fld w 22 3))
    else none
  | 21 =>
    if w / 33554432 % 2 = 0 then some (.ramoxMin (fld w 7 5) (fld w 12 5) (fld w 17 5) (fld w 22 3))
    else none
  | 22 =>
    if w / 33554432 % 2 = 0 then some (.ramoxMax (fld w 7 5) (fld w 12 5) (fld w 17 5) (fld w 22 3))
    else none
  | 23 =>
    if w / 33554432 % 2 = 0 then some (.ramoxMinu (fld w 7 5) (fld w 12 5) (fld w 17 5) (fld w 22 3))
    else none
  | 24 =>
    if w / 33554432 % 2 = 0 then some (.ramoxMaxu (fld w 7 5) (fld w 12 5) (fld w 17 5) (fld w 22 3))
    else none
  | 25 =>
    if w / 33554432 % 2 = 0 then some (.ramoxFmin (fld w 7 5) (fld w 12 5) (fld w 17 5) (fld w 22 3))
    else none
  | 26 =>
    if w / 33554432 % 2 = 0 then some (.ramoxFmax (fld w 7 5) (fld w 12 5) (fld w 17 5) (fld w 22 3))
    else none
  | _ => none

/-- Major 0x29. -/
def decXchg (w : Nat) : Option Instr :=
  match w / 67108864 with
  | 0 =>
    if w / 128 % 32 = 0 ∧ w / 33554432 % 2 = 0 then some (.dpost (fld w 12 5) (fld w 17 5) (fld w 22 3))
    else none
  | 1 =>
    if w / 131072 % 512 = 0 then some (.dgrant (fld w 7 5) (fld w 12 5))
    else none
  | 2 =>
    if w / 4194304 % 16 = 8 then some (.xrun (fld w 7 5) (fld w 12 5) (fld w 17 5))
    else none
  | 3 =>
    if w / 33554432 % 2 = 1 then some (.xstat (fld w 7 5) (fld w 12 5) (fld w 17 5) (fld w 22 3))
    else none
  | _ => none

/-- Major 0x2A. -/
def decColl (w : Nat) : Option Instr :=
  match w / 134217728 with
  | 0 => some (.cred (fld w 7 5) (fld w 12 5) (fld w 17 5) (fld w 22 5))
  | 1 =>
    if w / 4194304 % 32 = 0 then some (.cbcast (fld w 7 5) (fld w 12 5) (fld w 17 5))
    else none
  | 2 =>
    if w / 4194304 % 32 = 0 then some (.cgath (fld w 7 5) (fld w 12 5) (fld w 17 5))
    else none
  | 3 =>
    if w / 131072 % 1024 = 0 then some (.cbar (fld w 7 5) (fld w 12 5))
    else none
  | 4 =>
    if w / 131072 % 1024 = 0 then some (.cstat (fld w 7 5) (fld w 12 5))
    else none
  | _ => none

/-- Major 0x2B. -/
def decDur (w : Nat) : Option Instr :=
  match w / 4194304 with
  | 0 =>
    if w / 128 % 32768 = 0 then some (.pbar)
    else none
  | 1 => some (.park (fld w 7 5) (fld w 12 5) (fld w 17 5))
  | 2 => some (.unpark (fld w 7 5) (fld w 12 5) (fld w 17 5))
  | 3 =>
    if w / 131072 % 32 = 0 then some (.pstat (fld w 7 5) (fld w 12 5))
    else none
  | _ => none

/-- A 32-bit word by its major opcode [6:1] (R43). -/
def decMajor (w : Nat) : Option Instr :=
  match w / 2 % 64 with
  | 1 => decInt w
  | 2 => decAddi w
  | 3 => decAndi w
  | 4 => decOri w
  | 5 => decXori w
  | 6 => decShi w
  | 7 => decLdhi w
  | 8 => decAddpc w
  | 9 => decBr w
  | 10 => decJal w
  | 11 => decJalr w
  | 12 => decStrip w
  | 13 => decSys w
  | 14 => decPfx w
  | 15 => decQue w
  | 16 => decLd w
  | 17 => decSt w
  | 18 => decAmo w
  | 19 => decFp w
  | 20 => decFma w
  | 24 => decVset w
  | 25 => decVint w
  | 26 => decVfp w
  | 27 => decVcmp w
  | 28 => decVred w
  | 29 => decVperm w
  | 30 => decVwide w
  | 32 => decVldm w
  | 33 => decVstm w
  | 34 => decVamo w
  | 35 => decVsync w
  | 36 => decMat w
  | 37 => decEng w
  | 38 => decTopo w
  | 39 => decWork w
  | 40 => decRemote w
  | 41 => decXchg w
  | 42 => decColl w
  | 43 => decDur w
  | _ => none

/-- The words of the majors that hold vector instructions (R43, R162). -/
def decQueued (w : Nat) : Option Instr :=
  match w / 2 % 64 with
  | 25 => decVint w
  | 26 => decVfp w
  | 27 => decVcmp w
  | 28 => decVred w
  | 29 => decVperm w
  | 30 => decVwide w
  | 32 => decVldm w
  | 33 => decVstm w
  | 34 => decVamo w
  | 35 => decVsync w
  | 36 => decMat w
  | 40 => decRemote w
  | 41 => decXchg w
  | _ => none

/-- The majors that R43 allocates. -/
def majorAllocated (w : Nat) : Bool :=
  let m := w / 2 % 64
  (1 ≤ m && m ≤ 20) || (24 ≤ m && m ≤ 30) || (32 ≤ m && m ≤ 43)

/-- Keeps a decoded instruction only when its subfields are allowed (R71 step 1). -/
def checked (e : DecodeError) : Option Instr → Except DecodeError Instr
  | none => .error e
  | some i => if i.wf then .ok i else .error .reservedField

/-- A 16-bit parcel with bit 0 = 0 (R39, R42). -/
def decodeParcel (w : Nat) : Except DecodeError Instr :=
  if w = 0 then .error .zeroParcel else checked .reservedCompact (decCompact w)

/-- A 32-bit word with bit 0 = 1 (R39, R43). -/
def decodeWord (w : Nat) : Except DecodeError Instr :=
  if majorAllocated w then checked .reservedFunction (decMajor w) else .error .reservedMajor

/-- Decoding of the bytes at the program counter (R27, R39): the first parcel's bit 0 gives the length. -/
def decode : List Byte → Except DecodeError Instr
  | b0 :: b1 :: rest =>
    let p := b0.toNat + b1.toNat * 256
    if p % 2 = 0 then decodeParcel p
    else match rest with
      | b2 :: b3 :: _ => decodeWord (p + b2.toNat * 65536 + b3.toNat * 16777216)
      | _ => .error .tooShort
  | _ => .error .tooShort

/-- The instruction the decoder reads from the bits of a row of spec/opcode_table.json: `w` laid out as the
hardware stores it, every bit above `nbits` zero. -/
def decodeTableWord (nbits w : Nat) : Option Instr :=
  let v := w % 2 ^ nbits
  let bytes : List Byte := (List.range 4).map fun k => BitVec.ofNat 8 (v / 256 ^ k)
  match decode bytes with
  | .ok i => some i
  | .error _ => none

end

end Sys2Proof
end

