-- ==== Sys2Proof/Machine/State.lean ====
section
/-! DEFINITION. The state of the machine as plain data, the reasons a step can stop, and the state after reset.
Every piece of state names the rule of spec/ that gives it; INVENTORY.md's '## State' is the list. -/

namespace Sys2Proof.Machine

/-- Sparse data by key, in one canonical form: keys strictly rising, no entry equal to the default. -/
abbrev Sparse (α : Type) := List (Nat × α)

/-- Memory by physical address (R266, R267): only bytes other than 0 are listed (DESIGN CHOICE, log 1). -/
abbrev Mem := List Host.Cell

/-! ## Streams -/

/-- An open signature (R81): the expected value and the running CRC. -/
structure OpenSig where
  expected : BitVec 16
  crc : BitVec 16
  deriving DecidableEq, Repr

/-- An engine context (R343). -/
inductive CtxRef where
  | copy (tag : BitVec 32) (i : Nat)
  | topo (die slot : Nat)
  | bedrock (i : Nat)
  | xchg (x : Nat)
  | coll (g : Nat)
  deriving DecidableEq, Repr

/-- Whether a stream waits in TLWAIT (R359), and whether the context that it waits on has ceased to exist (R361). -/
inductive TlWait where
  | none
  | on (c : CtxRef)
  | gone
  deriving DecidableEq, Repr

/-- The state of one stream (R12-R21, R143). -/
structure Stream where
  /-- g0-g31 (R13) -/
  g : Vector Word 32
  /-- R14 -/
  pc : Word
  /-- STATUS.TA (R15) -/
  ta : Bool
  /-- STATUS.PFXP (R15) -/
  pfxp : Bool
  /-- STATUS.PFXD (R15) -/
  pfxd : BitVec 25
  /-- FCSR[14:8]: NV DZ OF UF NX MT ML, NV the highest (R17) -/
  flags : BitVec 7
  /-- FCSR.RM (R17) -/
  rm : BitVec 3
  /-- WIN (R19) -/
  win : BitVec 8
  /-- LASTD.G (R20) -/
  lastG : BitVec 5
  /-- LASTD.V (R20) -/
  lastV : BitVec 5
  /-- TVEC, bit 0 = 0 (R21) -/
  tvec : Word
  /-- TEPC, bit 0 = 0 (R21) -/
  tepc : Word
  /-- TCAUSE.CODE (R21) -/
  tcause : BitVec 8
  /-- TVAL (R21) -/
  tval : Word
  /-- VTYPE[7:0] (R153) -/
  vtype : BitVec 8
  /-- VL (R154) -/
  vl : BitVec 16
  /-- RC (R154) -/
  rc : BitVec 4
  /-- VSTART: ROW [18:16], ELEM [15:0] (R154) -/
  vstart : BitVec 19
  /-- SHARE.GRANT, the stream's own G (R154, R159) -/
  grant : Nat
  /-- the count of DFENCE.I (R320, R437) -/
  dfseq : BitVec 32
  /-- PENDG: g registers that await a token (R347, R437) -/
  pend : BitVec 32
  /-- the open signature (R81) -/
  sig : Option OpenSig
  /-- old values of bytes stored since the last IFENCE, by physical address (R29; DESIGN CHOICE, log 8) -/
  stale : Sparse Byte
  /-- the TLWAIT that it waits in (R359, R361) -/
  tlw : TlWait
  deriving DecidableEq, Repr

/-! ## Harts -/

/-- A tile slot that is full or reserved, with its geometry (R147, R148). -/
structure Tile where
  sew : BitVec 2
  vl : Nat
  rc : Nat
  full : Bool
  /-- element (row, e) at byte (row * vl + e) * SEW/8 -/
  bytes : List Byte
  /-- positions row * 65536 + e of poisoned elements (R452) -/
  bad : List Nat
  deriving DecidableEq, Repr

/-- A vector-queue entry (R162, R438), with the progress of an entry that waits. -/
structure VEntry where
  pc : Word
  word : BitVec 32
  /-- PFXD of the entry's prefix -/
  pfx : Option (BitVec 25)
  /-- g operands read at issue -/
  ops : List Word
  /-- WIN and SV at issue, which a later CSR write does not change (R16, R19) -/
  win : BitVec 8
  sv : Bool
  vtype : BitVec 8
  vl : BitVec 16
  rc : BitVec 4
  vstart : BitVec 19
  /-- STOPPED: begun and stopped partway -/
  stopped : Bool
  /-- begun and waiting: the rounds' start CYCLE of VWAIT (R316) -/
  begun : Option Word
  /-- positions already latched or sent (R316, R495), as row * 65536 + e -/
  latched : List Nat
  /-- of a VWAIT, the positions whose last read was of an uncorrectable word (R451, R452) -/
  bad : List Nat
  /-- read from a save area: its checks are made again before it begins (R162, R438, R439) -/
  again : Bool
  /-- the count of DFENCE.I at issue (R321) -/
  fence : BitVec 32
  deriving DecidableEq, Repr

/-- ISSUED and COUNT of a context, with the completed operations above COUNT (R344, R345). -/
structure Timeline where
  issued : Nat
  count : Nat
  done : List Nat
  deriving DecidableEq, Repr

/-- The special state of an accumulator (R130). -/
inductive Special where
  | none | nan | pinf | ninf | both
  deriving DecidableEq, Repr

/-- One accumulator of a macro (R221): the integer value, or V = mant * 2^exp, H and the special state (R131). -/
structure Acc where
  int : BitVec 32
  mant : Int
  exp : Int
  top : Option Int
  special : Special
  deriving DecidableEq, Repr

/-- A fault record (R441), without the fields that follow from the others. -/
structure FaultRec where
  cause : BitVec 8
  kind : BitVec 8
  acc : BitVec 8
  level : BitVec 8
  src : BitVec 8
  flags : BitVec 8
  npos : Nat
  handle : Word
  va : Word
  vawin : BitVec 8
  hartid : BitVec 16
  index : Nat
  npage : Nat
  pc : Word
  word : BitVec 32
  ctxid : BitVec 16
  aux : Word
  save : Word
  deriving DecidableEq, Repr

/-- What a hart is doing (R427, R430-R434). -/
inductive Run where
  /-- its streams run -/
  | running
  /-- its streams have stopped; the save of R436 and the events are due -/
  | stopping
  /-- saved; ready to be placed (R434) or only after RESUME (R432) -/
  | saved (ready : Bool)
  /-- killed, while it ran or while it was saved; retires once its operations have ended (R447) -/
  | killed (saved : Bool)
  /-- stopped for good: a control-core stream after an escalated trap (R536), a hart of a stopped partition (R480) -/
  | halted
  deriving DecidableEq, Repr

/-- Whose streams: a hart of a C die, or the stream of control core n of H (R22, R536). -/
inductive HartKind where
  | cdie
  | control (n : Nat)
  deriving DecidableEq, Repr

/-- A remote request that awaits its response or acknowledgement (R495-R497). -/
structure RemoteReq where
  id : Nat
  /-- the positions it carries -/
  positions : List (Nat × Nat)
  /-- CYCLE at sending (R493) -/
  sent : Word
  /-- holds a reply slot (R497) -/
  slot : Bool
  feeder : Bool
  /-- RTIMEOUT at sending: a later change does not bind it (R488, R493) -/
  budget : BitVec 32
  deriving DecidableEq, Repr

/-- A read of a host aperture that awaits its response, or holds it (R529). -/
structure ApRead where
  /-- the agent: 0 main scalar, 1 main vector, 2 feeder -/
  who : Nat
  id : Nat
  pa : Nat
  size : Nat
  value : Option Word
  deriving DecidableEq, Repr

/-- A DEVICE access whose positions are all translated and checked and which awaits responses (R285, R308): the agent,
and each position with its physical address and the class of its page. -/
structure DevAccess where
  who : Nat
  places : List ((Nat × Nat) × Nat × Nat)
  deriving DecidableEq, Repr

/-- What a scalar atomic does (R94). -/
inductive AmoOp where
  | add | swp | cas | and | or | xor | min | max | minu | maxu
  deriving DecidableEq, Repr

/-- A scalar atomic: its access bytes, the values of g[b] and g[d], the register that takes the old value, and the
instruction. -/
structure Amo where
  op : AmoOp
  size : Nat
  b : Word
  d : Word
  dest : BitVec 5
  pc : Word
  word : Nat
  deriving DecidableEq, Repr

/-- A store or an atomic of the main scalar agent that is not performed yet (R326, R327; DESIGN CHOICE, log 7): the physical
address and the class of its page, and the bytes of a store, which a later load of the agent may have read. -/
structure LateStore where
  pa : Nat
  cls : Nat
  bytes : List Byte
  amo : Option Amo
  read : Bool
  deriving DecidableEq, Repr

/-- One hart (R143), or one control-core stream (R536), whose `main` is its one stream. -/
structure Hart where
  kind : HartKind
  /-- R433 -/
  tag : BitVec 32
  /-- HARTID[10:0] (R22) -/
  hartid : BitVec 11
  /-- HARTID of the core on which it started: its barrier units (R264) -/
  startid : BitVec 11
  run : Run
  /-- why it stops or was saved: REASON[4:0] (R436) -/
  reason : BitVec 5
  /-- events to be written with the save (R442) -/
  events : List (List FaultRec)
  /-- STATUS.SV, common to both streams (R143) -/
  sv : Bool
  /-- the start record named a feeder (R241) -/
  hasFeeder : Bool
  /-- the feeder has not executed EXIT (R101) -/
  feederLive : Bool
  main : Stream
  feed : Stream
  /-- v0-v31: byte o of row r of vn at key (n * 8 + r) * 2048 + o (R150, R151) -/
  v : Sparse Byte
  /-- m0-m7: bit e of row r of mn at key (n * 8 + r) * 16384 + e (R152) -/
  m : Sparse Bool
  /-- the feeder's m0 (R143) -/
  fm0 : Sparse Bool
  /-- R184 -/
  pivcnt : Word
  /-- SHARE.S (R154, R158) -/
  share : Nat
  /-- live groups of the hart's allocation (R158) -/
  lv : Nat
  /-- the VL ceiling, 0 = none (R158, R241) -/
  vlcap : Nat
  /-- MGRANT.FMT (R222) -/
  mfmt : BitVec 8
  /-- MGRANT.COUNT (R222) -/
  mcount : Nat
  /-- B element (macro, k, n) at key (macro * 256 + k) * 128 + n (R219) -/
  mb : Sparse Word
  /-- E8M0 scale of (macro, block, n) at key (macro * 8 + block) * 128 + n (R220) -/
  mscale : Sparse Byte
  /-- accumulator (macro, row, n) at key (macro * 8 + row) * 128 + n (R221) -/
  macc : Sparse Acc
  /-- checksum column: cs(k) of a macro at key macro * 256 + k (R238) -/
  mcs : Sparse (BitVec 32)
  /-- the mismatch record: COUNT and MACROS (R238) -/
  mmiss : BitVec 32
  mmissMac : BitVec 16
  /-- what holds poisoned data (R452): B elements at 3 * key, scales at 3 * key + 1, accumulators at 3 * key + 2 -/
  matBad : List Nat
  /-- CHDONE.SPAWNED and DONE (R261) -/
  spawned : BitVec 32
  childDone : BitVec 32
  /-- q0-q5, oldest first (R98) -/
  q : Vector (List Word) 6
  /-- tq0-tq2, oldest first (R147) -/
  tq : Vector (List Tile) 3
  /-- arrival counts at core, quad, die, pkg scope (R264) -/
  arrive : Vector Nat 4
  /-- the token of a counted BAR that waits (R430, R436) -/
  barpend : Option Word
  /-- a WAITCH of the main stream, of the feeder waits (R260) -/
  inWaitch : Bool
  inWaitchFeed : Bool
  /-- the vector queue, oldest first, at most 16 (R162) -/
  vq : List VEntry
  /-- CC0 and CC1 (R343) -/
  cc : Vector Timeline 2
  /-- start-record fields kept to retirement (R241) -/
  arg : Word
  doneAddr : Word
  recWin : BitVec 8
  placeq : BitVec 32
  placed : BitVec 8
  prio : Nat
  /-- barrier group and member index (R253) -/
  group : Nat
  member : Nat
  /-- the hart that spawned it, until that has retired (R256) -/
  parent : Option (BitVec 32)
  /-- index of the save area it holds on its die (R435) -/
  area : Nat
  /-- CYCLE offset (R434) and the hart's CYCLE at start (R255) -/
  cycOff : Word
  cycStart : Word
  /-- remote requests outstanding (R497) -/
  remote : List RemoteReq
  /-- positions read by an instruction that waits for a later one, the values, and whether their words were uncorrectable
  (R285, R324, R529) -/
  remoteData : List (Nat × Word × Bool)
  /-- DEVICE accesses under way (R285, R308) -/
  device : List DevAccess
  /-- remote positions that were refused, and the kinds (R493, R495) -/
  remoteBad : List (Nat × BitVec 8)
  /-- aperture loads that await a response (R529) -/
  aperture : List ApRead
  /-- stores and atomics not performed yet, oldest first (R327; DESIGN CHOICE, log 7) -/
  late : List LateStore
  /-- a VAPPEND that has written its entries and still has notices to push, while the hart is saved (R216, R430; DEDUCED, log 22) -/
  owed : Option VEntry
  /-- the lane groups of its core that it holds (R158), and the vector instructions that it has executed there (R448) -/
  lanes : List Nat
  vcount : Nat
  /-- poison (R452): the 8-byte words of poisoned element groups of v registers, as (n * 8 + r) * 192 + word, and each
  64 bits of a row of a mask, as 49152 + (n * 8 + r) * 256 + word -/
  poison : List Nat
  /-- the staging record of a control-core stream (R247) -/
  staging : Vector Word 8
  deriving DecidableEq, Repr

/-! ## Engines -/

/-- What an accepted operation does (R352-R356, R376-R391, R411-R414, R504, R509). -/
inductive OpKind where
  | cpy (dst src : Word) (n : Nat)
  | cpy2 (dst src : Word) (rowBytes rows : Nat) (dpitch spitch : BitVec 32)
  | cpyx (dst src idx : Word) (count esz : Nat) (scatter wide : Bool)
  | tbind (form status : Word)
  | tmark (block : Word)
  | tcommit (oldSlot : Nat) (desc : Word)
  | tiles (queue : Nat) (tiles : List Tile)
  | tcolour (table : Word)
  | tlevel (desc : Word)
  | tcut (desc : Word)
  | tremap (desc : Word)
  | txport (desc : Word)
  | timport (oldSlot : Nat) (desc : Word)
  | park (desc src dst : Word) (count : Nat) (fmt efmt : BitVec 8)
  | unpark (desc src dst : Word) (count : Nat) (fmt efmt : BitVec 8)
  | xrun (desc sendBase sendTab recvBase recvTab : Word) (malformed : Nat)
  | coll (op kind : Nat) (desc src dst : Word) (count root : Nat)
  deriving DecidableEq, Repr

/-- The stage of an operation (R345, R351, R443). -/
inductive OpStage where
  | accepted
  /-- stopped at a faulting access, with the number of R441 -/
  | stopped (number : Nat)
  /-- its accesses are performed -/
  | performed
  /-- its context has started afresh (R498): it is due to be abandoned, and counts there no longer (DESIGN CHOICE, log 42) -/
  | lost
  deriving DecidableEq, Repr

/-- An engine operation accepted and not complete (R345). -/
structure Op where
  id : Nat
  ctx : CtxRef
  num : Nat
  kind : OpKind
  /-- tag of the issuing hart, or 0x800 + n in `ctl` for a control core -/
  issuer : BitVec 32
  ctl : Option Nat
  feeder : Bool
  /-- g register of the token; 0 = none (R347) -/
  token : Reg
  /-- WIN and SV of the issuing stream at acceptance (R348) -/
  win : BitVec 8
  sv : Bool
  /-- HARTID of the issuing hart: its die, and its core for aliases (R348) -/
  hartid : BitVec 11
  /-- of an exchange or a collective: the members and this package's rank at acceptance, which a later change of the fabric
  registers does not bind (R488) -/
  fab : Option (List Nat × Nat)
  /-- the second timeline of a TCOMMIT or TIMPORT: the old generation and its number (R384) -/
  also : Option (Nat × Nat)
  stage : OpStage
  /-- of a collective call whose accesses are performed: its status code (R513) -/
  code : Nat := 0
  deriving DecidableEq, Repr

/-- A cell of a generation (R365, R369). -/
structure TCell where
  key : Word
  owner : BitVec 16
  remote : BitVec 32
  deriving DecidableEq, Repr

/-- A face record (R370); `right` 0xFFFFFFFE is a boundary. -/
structure TFaceRec where
  left : Nat
  right : Nat
  lface : Nat
  rface : Nat
  sub : Nat
  btag : BitVec 32
  deriving DecidableEq, Repr

/-- A remap record (R385). -/
structure Remap where
  new : Nat
  old : Nat
  count : Nat
  kind : Nat
  form : Nat
  deriving DecidableEq, Repr

/-- A generation held by a die's engine (R367, R372). -/
structure Gen where
  die : Nat
  slot : Nat
  number : Word
  part : BitVec 16
  ncell : Nat
  cells : List TCell
  faces : List TFaceRec
  marks : List Int
  benches : Option (List Nat)
  remap : List Remap
  built : Bool
  /-- the stream whose TFREE closed it -/
  closed : Option (BitVec 32 × Bool)
  tl : Timeline
  deriving DecidableEq, Repr

/-- A Bedrock context (R361). -/
structure BedrockCtx where
  exist : Bool
  closing : Bool
  win : BitVec 8
  tl : Timeline
  deriving DecidableEq, Repr

/-! ## Work -/

/-- A start queue's records and counters (R245-R251). -/
structure StartQueue where
  n : Nat
  cfg : Word
  /-- records held, 64 bytes each, oldest first -/
  records : List (List Byte)
  appended : Word
  refused : Word
  removed : Word
  malformed : Word
  /-- unmapped with records: effective priority and age (R251) -/
  waiting : Option (Nat × Nat)
  deriving DecidableEq, Repr

/-- A record of the pool or the spoil queue with its parent, until that has retired (R256, R258). -/
structure PoolRec where
  bytes : List Byte
  parent : Option (BitVec 32)
  deriving DecidableEq, Repr

/-- A die's dispatcher (R249-R260, R433, R434). -/
structure Dispatcher where
  /-- queues mapped to slots, in slot order -/
  slots : List Nat
  rotation : Nat
  pool : List PoolRec
  spoil : List PoolRec
  started : Nat
  /-- ready saved harts in the order in which they became ready -/
  ready : List (BitVec 32)
  deriving DecidableEq, Repr

/-- A member of a barrier group: a retired one counts as arrived (R256, R264). -/
structure Member where
  tag : BitVec 32
  startid : BitVec 11
  retired : Bool
  deriving DecidableEq, Repr

/-- A barrier group (R253, R264); `complete` lists (scope, unit, completed episodes). -/
structure Group where
  id : Nat
  members : List Member
  complete : List (Nat × Nat × Nat)
  deriving DecidableEq, Repr

/-- The ring of power tokens of a die (R226, R227), of PWRCTL.TOKENS tokens: the quads that hold one with the MMULs
started since the grant, the quad granted last, the quads that wait. -/
structure TokenRing where
  holders : List (Nat × Nat)
  last : Nat
  waiting : List Nat
  deriving DecidableEq, Repr

/-! ## Memory system, durability, faults, links -/

/-- What holds a translation (R290, R293): the µTLB of a core, by its key, the TLB of a quad, as 32 * die + quad, or H. -/
inductive TlbUnit where
  | core (c : Nat)
  | quad (q : Nat)
  | hub
  deriving DecidableEq, Repr

/-- A TLB entry (R290) and the die whose tables it comes from; die 4 is H. -/
structure TlbEntry where
  unit : TlbUnit
  die : Nat
  /-- {WIN, VA[63:0]} of the page -/
  vbase : Nat
  size : Nat
  /-- where the leaf entry lies in memory, and its value -/
  pteAt : Nat
  pte : Word
  deriving DecidableEq, Repr

/-- An invalidation command (R294). -/
structure InvCmd where
  kind : Nat
  win : BitVec 8
  va : Word
  dies : BitVec 5
  deriving DecidableEq, Repr

/-- A persist unit in the ingress buffer (R399, R402): the bytes one performance writes within one atom. -/
structure PersistUnit where
  atom : Nat
  bytes : List Host.Cell
  /-- hart tag and feeder bit of the writing stream, or the operation's id (R404, R406) -/
  byTag : Option (BitVec 32)
  byCtl : Option Nat
  byFeeder : Bool
  byOp : Option Nat
  /-- it carries poisoned data (R452) -/
  bad : Bool
  deriving DecidableEq, Repr

/-- A die's fault record queue and the events that wait for it (R440, R442). -/
structure FaultQueue where
  base : Word
  size : BitVec 5
  lost : BitVec 32
  held : List FaultRec
  /-- events that wait while the queue is full or disabled -/
  waiting : List (List FaultRec)
  deriving DecidableEq, Repr

/-- A lane group with a history (R454-R456). -/
structure LaneGroup where
  die : Nat
  core : Nat
  group : Nat
  /-- N of R448 when its present holder was placed, or now if it has none -/
  count : Nat
  /-- the mismatches of its working lanes: the lane and N (R454) -/
  mismatches : List (Nat × Nat)
  checkStopped : Bool
  spared : Bool
  retired : Bool
  deriving DecidableEq, Repr

/-- A Rolud link (R472-R474). -/
structure LinkState where
  retry : BitVec 32
  failkind : BitVec 8
  failed : Bool
  up : Bool
  /-- frame counters of direction 0 and 1 -/
  frames : Vector Nat 2
  /-- CRC failures in a row of the frame in flight, each direction -/
  crcFails : Vector Nat 2
  deriving DecidableEq, Repr

/-- A rail or node port (R491): the fields of LNKSTATn. -/
structure PortState where
  retry : BitVec 32
  failkind : BitVec 8
  failed : Bool
  up : Bool
  deriving DecidableEq, Repr

/-- The transport of frames from one rank to another (R490, R491): the sequence number of the next, sent or expected, and
the frames received in a row beyond a gap. -/
structure PairSeq where
  src : Nat
  dst : Nat
  next : Nat
  tries : Nat
  deriving DecidableEq, Repr

/-- What the flash holds of the last shutdown or power loss until bring-up recovers it (R407, R410, R530): the atoms lost,
PLOSS, and BRCTX and BRCTXW. -/
structure Recovery where
  lost : List Nat
  ploss : Bool
  ctx : Vector Word 8
  ctxw : Vector (BitVec 9) 8
  deriving DecidableEq, Repr

/-- A host port (R526). -/
structure HostPort where
  badop : BitVec 32
  failed : Bool
  up : Bool
  deriving DecidableEq, Repr

/-! ## Fabric -/

/-- The state of an exchange's round (R499). -/
inductive RoundState where
  | openR | closedR | grantedR | runningR
  deriving DecidableEq, Repr

/-- The progress of a running exchange (R505, R506); lists are by member index. -/
structure XRunState where
  /-- the operation that runs it -/
  op : Nat
  /-- the send table: offset and bytes of each member (R504) -/
  sends : List (Nat × Nat)
  /-- the receive table -/
  recvs : List Nat
  /-- DETAIL of a malformed table, 0 for none -/
  detail : Nat
  /-- next phase to send and to receive -/
  sendPhase : Nat
  recvPhase : Nat
  /-- phases whose mark has arrived, each with the member that sent it -/
  marks : List (Nat × Nat)
  /-- bytes sent to each member, those that it has acknowledged, and bytes that have arrived from each -/
  sent : List Nat
  acked : List Nat
  arrived : List Nat
  spillSent : Nat
  spillRecv : Nat
  overflow : Nat
  finalsSent : Bool
  /-- the STATUS code it ended with -/
  ended : Option Nat
  deriving DecidableEq, Repr

/-- The report of the last completed round (R508). -/
structure XReport where
  status : Nat
  round : Nat
  recv : List Nat
  posted : List Nat
  spillSent : Nat
  spillRecv : Nat
  overflow : Nat
  ignored : Nat
  length : Nat
  deriving DecidableEq, Repr

/-- An exchange context (R498-R508). -/
structure Xchg where
  x : Nat
  tl : Timeline
  round : Nat
  st : RoundState
  /-- the open or closed post: (rank, bytes), and bytes toward non-members -/
  post : List (Nat × Nat)
  ignored : Nat
  /-- the candidate asked (index into ARB) -/
  cand : Nat
  /-- posts held as an arbiter candidate: (round, member, bytes by member) -/
  held : List (Nat × Nat × List Nat)
  /-- the accepted calendar of this rank's rail: (length, permutation), and bytes posted toward this rank -/
  phases : List (Nat × List Nat)
  posted : List Nat
  failed : Bool
  /-- rounds and candidates that asked for a post before it closed (R503) -/
  asked : List (Nat × Nat)
  /-- phases whose READY has arrived, with the member that sent it, and FINAL totals: (member, bytes) (R505, R506) -/
  readys : List (Nat × Nat)
  finals : List (Nat × Nat)
  run : Option XRunState
  last : Option XReport
  deriving DecidableEq, Repr

/-- A packet of a collective call (R511, R512). -/
structure CollPacket where
  src : Nat
  seq : BitVec 32
  op : Nat
  kind : Nat
  count : Nat
  root : Nat
  /-- 0: the first packet of the call; 1: up the tree; 2: down -/
  phase : Nat
  /-- values: an integer or bits, a special state, and whether the value is poisoned (R452) -/
  payload : List (Int × Nat × Bool)
  deriving DecidableEq, Repr

/-- A collective group context (R509-R514). -/
structure Coll where
  g : Nat
  tl : Timeline
  seq : BitVec 32
  /-- the call under way: its operation id -/
  cur : Option Nat
  /-- what the call under way has sent: 1 its first packets, 2 the packet up the tree -/
  sent : Nat
  /-- packets received that no completed call has used; phase 3 is an abort of a failed call -/
  got : List CollPacket
  status : BitVec 32
  refusing : Bool
  /-- the calls that ended as FAILED here: their late packets are discarded -/
  failed : List (BitVec 32)
  deriving DecidableEq, Repr

/-- What kind of message leaves the package. -/
inductive MsgKind where
  | remoteRequest | remoteResponse | post | postRequest | calendar | ready | segment | mark | spill | final
  | collPacket | collAbort | hostAck | hostNak | hostReadResponse | apertureWrite | apertureRead | forward
  | attestation | management | exchangeAck
  deriving DecidableEq, Repr

/-- A message to another package, the host or the management port. -/
structure Msg where
  kind : MsgKind
  nums : List Nat
  data : List Nat
  deriving DecidableEq, Repr

/-! ## Hub registers -/

/-- The registers of H that hold plain fields, by the names of their chapters. -/
structure Hub where
  /-- XLROOT0-3 and XLROOTH (R292) -/
  xlroot : Vector Word 5
  xlva : Word
  xlseq : Word
  /-- SPLBASE0-3, SPLSIZE0-3 (R259) -/
  splbase : Vector Word 4
  splsize : Vector (BitVec 5) 4
  /-- TSBASE0-3, TSSIZE0-3 (R373) -/
  tsbase : Vector Word 4
  tssize : Vector (BitVec 32) 4
  /-- BRREC (R410) -/
  brLost : BitVec 32
  brPoison : Bool
  brValid : Bool
  brPloss : Bool
  /-- BRDCAP.LIMIT (R410) -/
  brdcap : BitVec 13
  /-- BRCTX0-7 and BRCTXW0-7 (R410) -/
  brctx : Vector Word 8
  brctxw : Vector (BitVec 9) 8
  /-- SAVBASE0-3, SAVCNT0-3 (R435) -/
  savbase : Vector Word 4
  savcnt : Vector (BitVec 12) 4
  /-- RASCTL0-3: NARROW, THRESH (R457) -/
  rasctl : Vector (BitVec 9) 4
  /-- RASCNT0-3: counter i of die d at index 11 * d + i (R457) -/
  rascnt : Vector Word 44
  /-- PARTCFG.PID, PARTSTAT.STOPPED (R475, R480) -/
  partcfg : BitVec 8
  partstat : BitVec 4
  /-- R488 -/
  fabrank : BitVec 16
  rwtbase : Word
  rwtcnt : BitVec 17
  rtimeout : BitVec 32
  xctbase : Word
  cgtbase : Word
  fbudget : Word
  /-- R526, R529 -/
  hqpbase : Word
  hqpcnt : BitVec 11
  hapcfg : Vector Word 4
  hapbase : Vector Word 4
  /-- PWRCTL0-3: LIMIT, AUTO, TOKENS, CAP (R533) -/
  pwrLimit : Vector (BitVec 12) 4
  pwrAuto : Vector Bool 4
  pwrTokens : Vector (BitVec 6) 4
  pwrCap : Vector (BitVec 4) 4
  /-- telemetry samples (R535) -/
  telemetry : List Word
  /-- MPSTAT.STAGE (R530) -/
  mpstage : Nat
  deriving DecidableEq, Repr

/-- What comes next when no turn is left (DESIGN CHOICE, log 4): an event of the outside world, or the turn passing to a stream: of
control core `ctl`, else of the hart with the tag. -/
inductive Input where
  | event (i : Instr)
  | turn (ctl : Option Nat) (tag : BitVec 32) (feeder : Bool)
  /-- the next vector access of a main stream lets others have their turn after so many elements (R305, R307, R324) -/
  | pause (n : Nat)
  /-- stores of main scalar agents wait before they are performed, or no longer do (R326, R327; DESIGN CHOICE, log 7) -/
  | hold (b : Bool)
  /-- the transport sends the frame of a number to a rank again (R490) -/
  | resend (dest seq : Nat)
  deriving DecidableEq, Repr

/-- The machine (INVENTORY.md '## State'). -/
structure State where
  /-- the hart whose stream executes next, and which of its streams (DESIGN CHOICE, log 4) -/
  hart : Hart
  onFeeder : Bool
  /-- whether `hart` is a hart of the machine: false when no stream has the turn -/
  occupied : Bool
  /-- the step executes the head of the hart's vector queue (R162; DESIGN CHOICE, log 4) -/
  atHead : Bool
  /-- every other hart and control-core stream -/
  others : List Hart
  /-- what comes next from outside, and the steps left before the turn passes (DESIGN CHOICE, log 4) -/
  inputs : List Input
  quantum : Nat
  /-- the elements after which the next vector access pauses, and whether scalar stores wait (see `Input`) -/
  pause : Option Nat
  hold : Bool
  /-- the next free value (DESIGN CHOICE, log 3) -/
  freeCtr : Nat
  /-- messages that have left the package, newest first -/
  outbox : List Msg
  mem : Mem
  /-- uncorrectable memory words, by the physical address of an 8-byte block (R275, R452) -/
  memPoison : List Nat
  tlb : List TlbEntry
  invs : List InvCmd
  hub : Hub
  queues : List StartQueue
  dispatchers : Vector Dispatcher 4
  groups : List Group
  nextGroup : Nat
  tokens : Vector TokenRing 4
  ops : List Op
  nextOp : Nat
  /-- stopped operations numbered so far, each die (R441) -/
  stoppedOps : Vector Nat 4
  gens : List Gen
  /-- the schedule context of each die (R372) -/
  sched : Vector Timeline 4
  bedrock : Vector BedrockCtx 8
  ingress : List PersistUnit
  /-- atoms of the persist domain with dirty bytes (R400) -/
  dirty : List Nat
  /-- what recovery would find in the window: durable bytes (R402, R407) -/
  durable : Mem
  /-- poisoned atoms as agents read them, and as recovery would find them (R409, R452) -/
  poisonAtoms : List Nat
  durablePoison : List Nat
  /-- what bring-up has still to recover (R530) -/
  recovery : Option Recovery
  /-- the firmware images that bring-up has verified, the management firmware's first: SHA-384 digest and security version
  (R531, R532) -/
  measured : List (List Byte × Nat)
  /-- input power has failed and the persist domain drains (R401) -/
  down : Bool
  frq : Vector FaultQueue 4
  lanes : List LaneGroup
  links : Vector LinkState 8
  /-- rail ports 0-7 and node ports 8-14 (R491) -/
  ports : Vector PortState 15
  pairs : List PairSeq
  hostPorts : Vector HostPort 4
  xchgs : List Xchg
  colls : List Coll
  /-- CYCLE of core c of the C dies at key c, of control core n at key 512 + n (R23, R536) -/
  cycles : Sparse Word
  /-- next remote request and aperture access -/
  nextReq : Nat
  deriving DecidableEq, Repr

/-! ## Why a step can stop -/

/-- A stop of the model. -/
inductive Fault where
  /-- raised by Step: a vector-queue entry holds a word that is no vector instruction, which no reachable state has;
  safe -/
  | brokenQueue
  deriving DecidableEq, Repr

/-- An instruction without a meaning. -/
inductive Refusal where
  /-- raised by Dispatch for an instruction not reached yet; safe -/
  | notModelled (mnemonic : String)
  deriving DecidableEq, Repr

/-! ## Reset -/

/-- A stream before its start (R30): every register at the Reset value of its table, g registers 0. -/
def Stream.reset : Stream where
  g := Vector.replicate 32 0
  pc := 0
  ta := false
  pfxp := false
  pfxd := 0
  flags := 0
  rm := 1
  win := 0
  lastG := 0
  lastV := 0
  tvec := 0
  tepc := 0
  tcause := 0
  tval := 0
  vtype := 0
  vl := 0
  rc := 1
  vstart := 0
  grant := 0
  dfseq := 0
  pend := 0
  sig := none
  stale := []
  tlw := .none

/-- ISSUED = COUNT = 0 (R344). -/
def Timeline.zero : Timeline := { issued := 0, count := 0, done := [] }

/-- A hart record before a record starts in it (R30, R143, R244). -/
def Hart.reset : Hart where
  kind := .cdie
  tag := 0
  hartid := 0
  startid := 0
  run := .halted
  reason := 0
  events := []
  sv := false
  hasFeeder := false
  feederLive := false
  main := Stream.reset
  feed := Stream.reset
  v := []
  m := []
  fm0 := []
  pivcnt := 0
  share := 1
  lv := 1
  vlcap := 0
  mfmt := 0
  mcount := 0
  mb := []
  mscale := []
  macc := []
  mcs := []
  mmiss := 0
  mmissMac := 0
  matBad := []
  spawned := 0
  childDone := 0
  q := Vector.replicate 6 []
  tq := Vector.replicate 3 []
  arrive := Vector.replicate 4 0
  barpend := none
  inWaitch := false
  inWaitchFeed := false
  vq := []
  cc := Vector.replicate 2 Timeline.zero
  arg := 0
  doneAddr := 0
  recWin := 0
  placeq := 0
  placed := 0
  prio := 0
  group := 0
  member := 0
  parent := none
  area := 0
  cycOff := 0
  cycStart := 0
  remote := []
  remoteData := []
  device := []
  remoteBad := []
  aperture := []
  late := []
  owed := none
  lanes := []
  vcount := 0
  poison := []
  staging := Vector.replicate 8 0

/-- The hub registers at the Reset values of their tables; BRREC and BRCTX of a first start (DESIGN CHOICE, log 2). -/
def Hub.reset : Hub where
  xlroot := Vector.replicate 5 0
  xlva := 0
  xlseq := 0
  splbase := Vector.replicate 4 0
  splsize := Vector.replicate 4 20
  tsbase := Vector.replicate 4 0
  tssize := Vector.replicate 4 0
  brLost := 0
  brPoison := false
  brValid := false
  brPloss := false
  brdcap := 4096
  brctx := Vector.replicate 8 0
  brctxw := Vector.replicate 8 0
  savbase := Vector.replicate 4 0
  savcnt := Vector.replicate 4 0
  rasctl := Vector.replicate 4 4
  rascnt := Vector.replicate 44 0
  partcfg := 0
  partstat := 0
  fabrank := 0
  rwtbase := 0
  rwtcnt := 0
  rtimeout := 0x01000000
  xctbase := 0
  cgtbase := 0
  fbudget := 0x0400000004000000
  hqpbase := 0
  hqpcnt := 0
  hapcfg := Vector.replicate 4 0
  hapbase := Vector.replicate 4 0
  pwrLimit := Vector.replicate 4 430
  pwrAuto := Vector.replicate 4 false
  pwrTokens := Vector.replicate 4 24
  pwrCap := Vector.replicate 4 8
  telemetry := []
  mpstage := 0

/-- Right after reset: no hart, no control core started, no memory listed, every register at its reset value. -/
def State.reset : State where
  hart := Hart.reset
  onFeeder := false
  occupied := false
  atHead := false
  others := []
  inputs := []
  quantum := 0
  pause := none
  hold := false
  freeCtr := 0
  outbox := []
  mem := []
  memPoison := []
  tlb := []
  invs := []
  hub := Hub.reset
  queues := []
  dispatchers := Vector.replicate 4 { slots := [], rotation := 0, pool := [], spoil := [], started := 0, ready := [] }
  groups := []
  nextGroup := 1
  tokens := Vector.replicate 4 { holders := [], last := 0, waiting := [] }
  ops := []
  nextOp := 1
  stoppedOps := Vector.replicate 4 0
  gens := []
  sched := Vector.replicate 4 Timeline.zero
  bedrock := Vector.replicate 8 { exist := false, closing := false, win := 0, tl := Timeline.zero }
  ingress := []
  dirty := []
  durable := []
  poisonAtoms := []
  durablePoison := []
  recovery := none
  measured := []
  down := false
  frq := Vector.replicate 4 { base := 0, size := 0, lost := 0, held := [], waiting := [] }
  lanes := []
  links := Vector.replicate 8
    { retry := 0, failkind := 0, failed := false, up := false, frames := Vector.replicate 2 0, crcFails := Vector.replicate 2 0 }
  ports := Vector.replicate 15 { retry := 0, failkind := 0, failed := false, up := false }
  pairs := []
  hostPorts := Vector.replicate 4 { badop := 0, failed := false, up := false }
  xchgs := []
  colls := []
  cycles := []
  nextReq := 0

end Sys2Proof.Machine
end

