-- ==== Sys2Proof/Machine/Bits.lean ====
section
/-! DEFINITION. Helpers on plain data: sparse maps in canonical form, bytes and words, sign extension (R2, R37). -/

namespace Sys2Proof.Machine

/-! ## Sparse maps -/

/-- The value at key `i`; `d` when none is listed. -/
def Sparse.get {α : Type} (d : α) : Sparse α → Nat → α
  | [], _ => d
  | (k, v) :: r, i => if k = i then v else Sparse.get d r i

/-- Without any entry at key `i`. -/
def Sparse.del {α : Type} : Sparse α → Nat → Sparse α
  | [], _ => []
  | (k, v) :: r, i => if k = i then Sparse.del r i else (k, v) :: Sparse.del r i

/-- With an entry at key `i` before the first greater key. -/
def Sparse.ins {α : Type} : Sparse α → Nat → α → Sparse α
  | [], i, x => [(i, x)]
  | (k, v) :: r, i, x => if i < k then (i, x) :: (k, v) :: r else (k, v) :: Sparse.ins r i x

/-- The value `x` at key `i`; the default `d` is not listed. -/
def Sparse.set {α : Type} [DecidableEq α] (d : α) (m : Sparse α) (i : Nat) (x : α) : Sparse α :=
  if x = d then Sparse.del m i else Sparse.ins (Sparse.del m i) i x

/-- Keys strictly rising from above `lo`, no default listed. -/
def Sparse.wfFrom {α : Type} [DecidableEq α] (d : α) : Option Nat → Sparse α → Bool
  | _, [] => true
  | lo, (k, v) :: r => (match lo with | none => true | some l => decide (l < k)) && decide (v ≠ d)
      && Sparse.wfFrom d (some k) r

/-- The canonical form. -/
def Sparse.wf {α : Type} [DecidableEq α] (d : α) (m : Sparse α) : Bool := Sparse.wfFrom d none m

/-- The canonical form of memory: addresses strictly rising, no byte 0 listed (DESIGN CHOICE, log 1). -/
def Memory.wf (m : Mem) : Bool := Sparse.wf (0 : Byte) m

/-- One byte of memory; an unlisted address reads 0 (DESIGN CHOICE, log 1). -/
def Mem.byte (m : Mem) (a : Nat) : Byte := Sparse.get (0 : Byte) m a

/-- Writes one byte of memory. -/
def Mem.setByte (m : Mem) (a : Nat) (b : Byte) : Mem := Sparse.set (0 : Byte) m a b

/-- `n` bytes from address `a` up. -/
def Mem.bytes (m : Mem) (a : Nat) : Nat → List Byte
  | 0 => []
  | n + 1 => Mem.byte m a :: Mem.bytes m (a + 1) n

/-- Writes bytes from address `a` up. -/
def Mem.setBytes (m : Mem) (a : Nat) : List Byte → Mem
  | [] => m
  | b :: r => Mem.setBytes (Mem.setByte m a b) (a + 1) r

/-! ## Lists -/

/-- `k` records of `n` each. -/
def records {α : Type} (n : Nat) : Nat → List α → List (List α)
  | 0, _ => []
  | k + 1, l => l.take n :: records n k (l.drop n)

/-! ## Bytes and words (R2) -/

/-- The little-endian value of bytes. -/
def leNat : List Byte → Nat
  | [] => 0
  | b :: r => b.toNat + 256 * leNat r

/-- `n` little-endian bytes of a number. -/
def toLe : Nat → Nat → List Byte
  | 0, _ => []
  | n + 1, v => BitVec.ofNat 8 v :: toLe n (v / 256)

/-- A number in the bytes of a record. -/
def fieldAt (l : List Byte) (o n : Nat) : Nat := leNat ((l.drop o).take n)

/-- An `n`-byte little-endian number in memory. -/
def Mem.readLe (m : Mem) (a n : Nat) : Nat := leNat (Mem.bytes m a n)

/-- Writes an `n`-byte little-endian number. -/
def Mem.writeLe (m : Mem) (a n v : Nat) : Mem := Mem.setBytes m a (toLe n v)

/-- sext(x, n): the low `n` bits as a two's-complement number (R37). -/
def sextN (n x : Nat) : Int :=
  let y := x % 2 ^ n
  if n ≠ 0 ∧ 2 ^ (n - 1) ≤ y then (y : Int) - (2 ^ n : Nat) else (y : Int)

/-- The low 64 bits of an integer (R8). -/
def wordOfInt (i : Int) : Word := BitVec.ofInt 64 i

/-- sext(v, n) as a word. -/
def sextW (n : Nat) (v : Word) : Word := wordOfInt (sextN n v.toNat)

/-- The low `n` bits of an integer, as a number. -/
def lowBits (n : Nat) (i : Int) : Nat := (i % (2 ^ n : Nat)).toNat

/-- Whether an address lies in [base, base + len). -/
def inRange (a base len : Nat) : Bool := decide (base ≤ a) && decide (a < base + len)

/-- Bit `i` of a number. -/
def bitAt (x i : Nat) : Bool := x / 2 ^ i % 2 = 1

/-- Bits [hi:lo] of a number. -/
def bitsAt (x hi lo : Nat) : Nat := x / 2 ^ lo % 2 ^ (hi + 1 - lo)

/-- Replaces the element at `i`, if there is one. -/
def listSet {α : Type} (l : List α) (i : Nat) (x : α) : List α := l.set i x

/-- Inserts into a strictly rising list without repeats. -/
def insertNat (x : Nat) : List Nat → List Nat
  | [] => [x]
  | y :: r => if x < y then x :: y :: r else if x = y then y :: r else y :: insertNat x r

/-- The sum of a list. -/
def sumNat (l : List Nat) : Nat := l.foldl (· + ·) 0

/-- A vector element by a number in range, the default beyond it. -/
def vget {α : Type} {n : Nat} (v : Vector α n) (d : α) (i : Nat) : α := if h : i < n then v[i] else d

/-- Replaces a vector element by a number in range. -/
def vset {α : Type} {n : Nat} (v : Vector α n) (i : Nat) (x : α) : Vector α n := if h : i < n then v.set i x else v

/-! ## CRC-16/CCITT-FALSE (R80) -/

/-- One bit of the CRC. -/
def crcBit (c : BitVec 16) : BitVec 16 := if c.msb then (c <<< 1) ^^^ 0x1021 else c <<< 1

/-- One byte of the CRC. -/
def crcByte (c : BitVec 16) (b : Byte) : BitVec 16 :=
  crcBit (crcBit (crcBit (crcBit (crcBit (crcBit (crcBit (crcBit (c ^^^ (b.setWidth 16 <<< 8)))))))))

/-- The parcels of an instruction, each low byte first (R80). -/
def crcParcels (c : BitVec 16) (word size : Nat) : BitVec 16 := (toLe size word).foldl crcByte c

end Sys2Proof.Machine
end

