-- ==== Sys2Proof/Machine/Ops.lean ====
section
/-! DEFINITION. The named operations on registers and streams, taking an exception and returning from one, and the
frame every instruction runs in: the check order of R71, prefixes, pending registers, completion. -/

namespace Sys2Proof.Machine

/-- What `exec` answers. -/
abbrev Out := Host.Outcome State Fault Refusal

/-! ## The executing stream -/

/-- The executing stream (DESIGN CHOICE, log 4). -/
def State.st (s : State) : Stream := if s.onFeeder then s.hart.feed else s.hart.main

/-- Replaces the executing stream. -/
def State.setSt (s : State) (t : Stream) : State :=
  if s.onFeeder then { s with hart := { s.hart with feed := t } } else { s with hart := { s.hart with main := t } }

/-- Replaces the hart in focus. -/
def State.setHart (s : State) (h : Hart) : State := { s with hart := h }

/-- The executing stream gives up its turn (R149; DESIGN CHOICE, log 4); nothing else changes. -/
def State.yield (s : State) : State := { s with quantum := 0 }

/-- A message leaves the package. -/
def State.send (s : State) (m : Msg) : State := { s with outbox := m :: s.outbox }

/-- A free value, and the state that has used it (DESIGN CHOICE, log 3). -/
def State.free (s : State) : Word × State := (Config.freeWord s.freeCtr, { s with freeCtr := s.freeCtr + 1 })

/-- A number in a field of `w` bits; one that the field cannot hold leaves a free value there (DESIGN CHOICE, log 3). -/
def State.field (s : State) (w n : Nat) : Nat × State := if n < 2 ^ w then (n, s) else (s.free.1.toNat % 2 ^ w, s.free.2)

/-- Whether the executing stream is a control core's (R536). -/
def Hart.isControl (h : Hart) : Bool := match h.kind with | .cdie => false | .control _ => true

/-- HARTID as CSR 0x010 reads it (R22, R536). -/
def Hart.idWord (h : Hart) : Word :=
  match h.kind with
  | .cdie => h.hartid.setWidth 64
  | .control n => BitVec.ofNat 64 (0x800 + n)

/-- The die of a HARTID (R22). -/
def idDie (id : BitVec 11) : Nat := id.toNat / 512
/-- The quad of a HARTID within its die (R22). -/
def idQuad (id : BitVec 11) : Nat := id.toNat / 16 % 32
/-- The core of a HARTID within its die, 4 * QUAD + CORE (R267). -/
def idCore (id : BitVec 11) : Nat := id.toNat / 4 % 128

/-- The die whose walkers translate for a hart: 4 is H (R293). -/
def Hart.die (h : Hart) : Nat := if h.isControl then 4 else idDie h.hartid

/-- The key of the hart's core in `cycles` (R23, R536). -/
def Hart.coreKey (h : Hart) : Nat :=
  match h.kind with
  | .cdie => h.hartid.toNat / 4
  | .control n => 512 + n

/-- The hart's CYCLE: its core's count plus its offset (R434). -/
def State.cycle (s : State) : Word := Sparse.get 0 s.cycles s.hart.coreKey + s.hart.cycOff

/-- g[r]; g0 reads 0 (R13). -/
def Stream.rd (t : Stream) (r : Reg) : Word := if r = 0 then 0 else t.g[r.toNat]

/-- Writes g[r]; a write to g0 is discarded (R13). -/
def Stream.wr (t : Stream) (r : Reg) (v : Word) : Stream :=
  if r = 0 then t else { t with g := t.g.set r.toNat v }

/-- g[r] of the executing stream. -/
def State.rd (s : State) (r : Reg) : Word := s.st.rd r

/-! ## Results -/

/-- The class 1 causes (R32). -/
inductive Cause where
  | illop | illenc | pfxbad | misalign | priv | swtrap | qgeom
  deriving DecidableEq, Repr

/-- The cause codes (R32). -/
def Cause.code : Cause → BitVec 8
  | .illop => 0x01
  | .illenc => 0x02
  | .pfxbad => 0x03
  | .misalign => 0x04
  | .priv => 0x05
  | .swtrap => 0x06
  | .qgeom => 0x07

/-- An access that could not be translated or is not permitted (R287). -/
structure MemFault where
  xlate : Bool
  kind : BitVec 8
  acc : Nat
  level : BitVec 8
  va : Word
  win : BitVec 8
  /-- the size of the page that faulted (R442, R443; DEDUCED, log 24): the leaf's, else 64 KiB -/
  page : Nat
  deriving DecidableEq, Repr

/-- XLATE or PROT (R426). -/
def MemFault.cause (f : MemFault) : BitVec 8 := if f.xlate then 0x10 else 0x11

/-- The result of a part of an instruction: it goes on with a value, traps, faults, or must wait. Every case carries
the state reached: accessed and dirty bits that a walk has set stay set (R282). -/
inductive Res (α : Type) where
  | ok (a : α) (s : State)
  | trap (c : Cause) (v : Word) (s : State)
  | mem (f : MemFault) (s : State)
  | wait (s : State)

/-- Goes on from a value. -/
def Res.bind {α β : Type} (r : Res α) (f : α → State → Res β) : Res β :=
  match r with
  | .ok a s => f a s
  | .trap c v s => .trap c v s
  | .mem e s => .mem e s
  | .wait s => .wait s

/-! ## Prefixes (R67-R70): PFXD holds W[31:7] -/

/-- PSRC. -/
def pfxSrc (p : BitVec 25) : Reg := BitVec.ofNat 5 (p.toNat / 256)
/-- PPOL. -/
def pfxPol (p : BitVec 25) : Bool := bitAt p.toNat 7
/-- PEN. -/
def pfxPen (p : BitVec 25) : Bool := bitAt p.toNat 6
/-- CEN. -/
def pfxCen (p : BitVec 25) : Bool := bitAt p.toNat 5
/-- CREG. -/
def pfxReg (p : BitVec 25) : Reg := BitVec.ofNat 5 p.toNat

/-- What prefix an instruction may take (R68). -/
inductive PfxKind where
  | never
  /-- a predicate only -/
  | pred
  /-- a predicate and a copy -/
  | copy
  deriving DecidableEq, Repr

/-! ## Taking an exception (R33, R428, R536) -/

/-- The address a trap saves: the instruction's, or four bytes below a prefixed successor unless the cause is
PFXBAD (R33). -/
def trapEpc (c : BitVec 8) (t : Stream) : Word := if t.pfxp ∧ c ≠ Cause.code .pfxbad then t.pc - 4 else t.pc

/-- A fault record of the executing stream with the fields that every such record has (R441). -/
def streamRec (s : State) (cause : BitVec 8) (pc : Word) (word : Nat) : FaultRec where
  cause := cause
  kind := 0
  acc := 0
  level := 0xFF
  src := if s.onFeeder then 1 else 0
  flags := 1
  npos := 1
  handle := s.hart.tag.setWidth 64
  va := 0
  vawin := 0
  hartid := s.hart.hartid.setWidth 16
  index := 0
  npage := 1
  pc := pc
  word := BitVec.ofNat 32 word
  ctxid := 0
  aux := 0
  save := 0

/-- A hart that is parked stops; one that is being killed stays so (R447). -/
def Run.parked (r : Run) : Run := match r with | .killed b => .killed b | _ => .stopping

/-- Both streams of the hart stop; its save (R436) and an event are due (R427). -/
def State.park (s : State) (why : BitVec 5) (ev : List FaultRec) : State :=
  { s with
    hart := { s.hart with run := s.hart.run.parked, reason := s.hart.reason ||| why, events := s.hart.events ++ [ev] }
    quantum := 0 }

/-- An escalated trap: the stream stops at `epc` (R33); the hart is parked with a record marked ESC (R428), a
control-core stream stops and is reported over the management port (R536). -/
def State.escalate (s : State) (c : BitVec 8) (epc : Word) (word : Nat) : State :=
  let s' := s.setSt { s.st with pc := epc, pfxp := false, pfxd := 0, sig := none, tlw := .none }
  if s.hart.isControl then
    { s' with hart := { s'.hart with run := .halted }, quantum := 0 }.send ⟨.management, [s.hart.idWord.toNat, epc.toNat], []⟩
  else s'.park 0b00110 [{ streamRec s c epc word with flags := 3 }]

/-- Trap entry with cause `c`, value `v` and return address `epc` (R33); a TLWAIT that the stream waited in is left (R359). -/
def State.trapAt (s : State) (c : BitVec 8) (v epc : Word) (word : Nat) : State :=
  if s.st.tvec = 0 ∨ s.st.ta then s.escalate c epc word
  else s.setSt
    { s.st with
      tepc := epc, tcause := c, tval := v, pfxp := false, pfxd := 0, ta := true, pc := s.st.tvec, sig := none, tlw := .none }

/-- trap(cause, val) of the executing instruction (R33). -/
def State.trap (s : State) (c : Cause) (v : Word) (word : Nat) : State :=
  s.trapAt c.code v (trapEpc c.code s.st) word

/-- TVAL of a trap that reports the instruction: its word, zero-extended (R32). -/
def wordVal (word : Nat) : Word := BitVec.ofNat 64 word

/-- Return from a trap (R34, R107): PC from TEPC, TA cleared, the open signature closed (R81). -/
def State.ret (s : State) : State := s.setSt { s.st with pc := s.st.tepc, ta := false, pfxp := false, sig := none }

/-- A memory fault of a scalar instruction: it has no effect (R288); the hart is parked with one record (R427, R441),
a control core takes a trap (R427). -/
def State.memFault (s : State) (f : MemFault) (word : Nat) : State :=
  if s.hart.isControl then s.trapAt f.cause f.va (trapEpc f.cause s.st) word
  else s.park 0b00010
    [{ streamRec s f.cause (trapEpc f.cause s.st) word with
        kind := f.kind, acc := BitVec.ofNat 8 f.acc, level := if f.xlate then f.level else 0xFF, va := f.va, vawin := f.win }]

/-- Replaces the hub's fields. -/
def State.setHub (s : State) (h : Hub) : State := { s with hub := h }

/-- Adds to RAS counter `i` of die `d` (R457). -/
def State.count (s : State) (d i n : Nat) : State :=
  if d < 4 then s.setHub { s.hub with rascnt := vset s.hub.rascnt (11 * d + i) (vget s.hub.rascnt 0 (11 * d + i) + BitVec.ofNat 64 n) }
  else s

/-- A signature comparison that failed, the stream already at its next instruction (R453, R536); SIGFAILS counts it (R457). -/
def State.sigFail (s : State) (at_ : Word) (word : Nat) : State :=
  if s.hart.isControl then s.trapAt 0x21 at_ s.st.pc word
  else (s.park 0b01010 [streamRec s 0x21 at_ word]).count s.hart.die 5 1

/-! ## Completing an instruction -/

/-- The parcels of an executed instruction enter the open signature (R81). -/
def sigAdd (sig : Option OpenSig) (word size : Nat) : Option OpenSig :=
  sig.map fun o => { o with crc := crcParcels o.crc word size }

/-- An instruction that does not transfer control completes: PC advances (R28), its parcels count (R81), the prefix
is spent (R15). -/
def Stream.advance (t : Stream) (word size : Nat) : Stream :=
  { t with pc := t.pc + BitVec.ofNat 64 size, sig := sigAdd t.sig word size, pfxp := false }

/-- Completes without a g destination (R20). -/
def State.finish (s : State) (word size : Nat) : State := s.setSt (s.st.advance word size)

/-- The g register a prefix copies to (R70). -/
def Stream.wrCopy (t : Stream) (v : Word) : Stream :=
  if t.pfxp ∧ pfxCen t.pfxd then t.wr (pfxReg t.pfxd) v else t

/-- Completes with the g destination `d` (R13, R20, R70). -/
def State.finishG (s : State) (word size : Nat) (d : Reg) (v : Word) : State :=
  s.setSt ({ ((s.st.wrCopy v).wr d v) with lastG := d }.advance word size)

/-- A taken transfer (R28, R81): its parcels are added, PC becomes the target, then the signature is compared and
closed; a failed comparison raises SIGFAIL after the transfer. -/
def State.jump (s : State) (word size : Nat) (target : Word) : State :=
  let sg := sigAdd s.st.sig word size
  let s' := s.setSt { s.st with pc := target, sig := none, pfxp := false }
  match sg with
  | none => s'
  | some o => if o.crc = o.expected then s' else s'.sigFail s.st.pc word

/-- A g register as destination of a transfer (R20). -/
def State.setG (s : State) (d : Reg) (v : Word) : State := s.setSt { (s.st.wr d v) with lastG := d }

/-! ## Registers that await a value -/

/-- The g destination of a queued vector instruction: VEXTR, MPOPC, MFIRST, MCHK (R164). -/
def gDestOfWord (w : Nat) : Option Reg :=
  let major := w / 2 % 64
  let func6 := w / 67108864
  if (major = 0x1D ∧ func6 = 10) ∨ (major = 0x1B ∧ (func6 = 23 ∨ func6 = 24)) ∨ (major = 0x24 ∧ func6 = 8) then
    some (fld w 7 5)
  else none

/-- The g register that a waiting atomic writes (R94). -/
def LateStore.dest (l : LateStore) : Option Reg := l.amo.map (·.dest)

/-- Whether a register of the list is pending a token (R347), a queued vector instruction's result (R164) or the result of an
atomic that waits (DESIGN CHOICE, log 7). -/
def State.regWait (s : State) (rs : List Reg) : Bool :=
  rs.any fun r => r != 0 && (s.st.pend.getLsbD r.toNat
    || (!s.onFeeder && (s.hart.vq.any (fun e => gDestOfWord e.word.toNat == some r)
      || s.hart.late.any fun l => l.dest == some r)))

/-- Whether a queued vector instruction is an RSTX or a RAMOX (R43). -/
def wordRemoteStores (w : Nat) : Bool := w / 2 % 64 == 0x28 && w / 2 ^ 26 != 0

/-- Whether a vector instruction stores: majors 0x21 and 0x22, VAPPEND, RSTX and RAMOX (R43). -/
def wordStores (w : Nat) : Bool :=
  let major := w / 2 % 64
  major == 0x21 || major == 0x22 || (major == 0x1D && w / 2 ^ 26 == 14) || wordRemoteStores w

/-- Whether the stream that executes has RSTX or RAMOX elements that have not returned (R496): the queue entry stays until
they have. -/
def State.remoteStoresOut (s : State) : Bool := !s.onFeeder && s.hart.vq.any fun e => wordRemoteStores e.word.toNat

/-! ## The frame of a scalar instruction -/

/-- What an instruction needs beside its effect. -/
structure Frame where
  word : Nat
  size : Nat
  /-- R68 -/
  pfx : PfxKind
  /-- R145 -/
  feeder : Bool
  /-- R536 -/
  control : Bool
  /-- the g registers it names -/
  regs : List Reg

/-- Whether the predicate of a pending prefix holds (R67, R69). -/
def Stream.predicate (t : Stream) : Bool :=
  if t.pfxp ∧ pfxPen t.pfxd then (t.rd (pfxSrc t.pfxd) != 0) != pfxPol t.pfxd else true

/-- How a result ends the step. -/
def State.conclude (word : Nat) : Res Unit → Out
  | .ok _ s => .next s
  | .trap c v s => .next (s.trap c v word)
  | .mem f s => .next (s.memFault f word)
  | .wait s => .next s.yield

/-- Runs a scalar instruction (R71): the feeder check of R145, PFXBAD of R68, the control-core check of R536, the wait
for pending registers (R347, R164), the predicate (R69), then its own effect. -/
def runScalar (f : Frame) (body : State → Res Unit) (s : State) : Out :=
  if s.onFeeder ∧ f.feeder = false then .next (s.trap .illop (wordVal f.word) f.word)
  else if s.st.pfxp ∧ (f.pfx = .never ∨ (f.pfx = .pred ∧ pfxCen s.st.pfxd)) then
    .next (s.trap .pfxbad (wordVal f.word) f.word)
  else if s.hart.isControl ∧ f.control = false then .next (s.trap .illop (wordVal f.word) f.word)
  else if s.regWait (if s.st.pfxp then pfxSrc s.st.pfxd :: pfxReg s.st.pfxd :: f.regs else f.regs) then .next s.yield
  else if s.st.predicate = false then .next (s.finish f.word f.size)
  else State.conclude f.word (body s)

end Sys2Proof.Machine
end

