-- ==== Sys2Proof/Machine/HubRegs.lean ====
section
/-! DEFINITION. The hub registers by physical address (spec/10 R270, R292-R294; the tables of 09, 15, 17, 19, 21, 22, 24):
which addresses name a register, what a read returns and what a write does, by the writing agent. -/

namespace Sys2Proof.Machine

/-! ## Agents that access memory -/

/-- An agent as translation and the hub see it (R268, R286, R293, R348). -/
structure Agent where
  /-- whose XLROOT and walkers translate; 4 is H -/
  die : Nat
  /-- the issuing hart's HARTID: aliases and replicas; none for an agent on H -/
  id : Option (BitVec 11)
  /-- the control core, if a control-core stream or its operation -/
  ctl : Option Nat
  sv : Bool
  win : BitVec 8
  /-- an engine operation -/
  engine : Bool
  /-- the hart whose stream or operation it is; none for an agent that no hart issues (R406) -/
  tag : Option (BitVec 32)
  feeder : Bool
  op : Option Nat
  /-- an operation that runs on H, whose TLBs are H's own (R293) -/
  onHub : Bool := false
  /-- a window, whose accesses start at H (R469, R492) -/
  isWindow : Bool := false
  deriving DecidableEq, Repr

/-- Where an agent's accesses start: a die, 4 for H (R469, R293). -/
def Agent.start (a : Agent) : Nat := if a.onHub ∨ a.isWindow then 4 else a.die

/-- Whose partition bounds an agent's storage and page tables: its die's, 4 for an agent on H (R293, R478). -/
def Agent.bound (a : Agent) : Nat := if a.onHub then 4 else a.die

/-- The executing stream as an agent: the head of a vector queue has the WIN and SV of its issue (R16, R19). -/
def State.agent (s : State) : Agent where
  die := s.hart.die
  id := if s.hart.isControl then none else some s.hart.hartid
  ctl := match s.hart.kind with | .cdie => none | .control n => some n
  sv := match s.atHead, s.hart.vq with | true, e :: _ => e.sv | _, _ => s.hart.sv
  win := match s.atHead, s.hart.vq with | true, e :: _ => e.win | _, _ => s.st.win
  engine := false
  tag := if s.hart.isControl then none else some s.hart.tag
  feeder := s.onFeeder
  op := none

/-- The management processor, which writes some registers (R410, R457, R475, R482, R533). -/
def Agent.management : Agent where
  die := 4
  id := none
  ctl := none
  sv := true
  win := 0
  engine := false
  tag := none
  feeder := false
  op := none

/-- Control firmware at supervisor privilege (R292). -/
def Agent.firmware (a : Agent) : Bool := a.ctl.isSome && a.sv && !a.engine

/-! ## Base fields -/

/-- [55:16] of a register that holds a PA, as the address it names. -/
def baseOf (w : Word) : Nat := w.toNat / 65536 % 2 ^ 40 * 65536

/-- Keeps the bits of `m` in a written value: RSV bits are ignored (R5). -/
def keep (v m : Nat) : Word := BitVec.ofNat 64 v &&& BitVec.ofNat 64 m

/-- BASE [55:16] with EN [0]. -/
def baseEnMask : Nat := 0x00FFFFFFFFFF0001

/-- The default of a dispatcher read out of range. -/
def dispatcherDefault : Dispatcher :=
  { slots := [], rotation := 0, pool := [], spoil := [], started := 0, ready := [] }

/-- The HARTID[8:0] slot table entry of a die (R433): the running or stopping hart in the slot. -/
def State.allHarts (s : State) : List Hart := if s.occupied then s.hart :: s.others else s.others

/-- A hart occupies its slot until it is saved (R432). -/
def Hart.inSlot (h : Hart) : Bool :=
  !h.isControl && (match h.run with | .saved _ | .killed true => false | _ => true)

/-- HSLOTd entry i (R433). -/
def State.hslot (s : State) (d i : Nat) : Word :=
  match s.allHarts.find? (fun h => h.inSlot && h.hartid.toNat == d * 512 + i) with
  | some h => h.tag.setWidth 64 ||| 0x8000000000000000
  | none => 0

/-- The queue n (R245), with its reset contents while nothing has touched it. -/
def State.queue (s : State) (n : Nat) : StartQueue :=
  (s.queues.find? (·.n == n)).getD
    { n := n, cfg := 0, records := [], appended := 0, refused := 0, removed := 0, malformed := 0, waiting := none }

/-- Replaces the queue of the same number. -/
def State.setQueue (s : State) (q : StartQueue) : State :=
  { s with queues := if s.queues.any (·.n == q.n) then s.queues.map (fun p => if p.n == q.n then q else p)
      else s.queues ++ [q] }

/-- HOME of a queue (R245). -/
def StartQueue.home (q : StartQueue) : Nat := bitsAt q.cfg.toNat 3 2
/-- LOGCAP of a queue (R245). -/
def StartQueue.logcap (q : StartQueue) : Nat := bitsAt q.cfg.toNat 12 8
/-- Whether a queue accepts and dispatches: EN with LOGCAP 10-20 (R245). -/
def StartQueue.enabled (q : StartQueue) : Bool :=
  bitAt q.cfg.toNat 0 && decide (10 ≤ q.logcap) && decide (q.logcap ≤ 20)
/-- PRIO of a record (R241). -/
def recPrio (r : List Byte) : Nat := bitsAt (r.getD 43 0).toNat 6 4

/-- The queue becomes unmapped with records (R251). -/
def State.queueWaits (s : State) (q : StartQueue) : StartQueue :=
  match q.records with
  | [] => { q with waiting := none }
  | r :: _ => { q with waiting := some (recPrio r, (vget s.dispatchers dispatcherDefault q.home).rotation) }

/-- Whether a queue holds a slot of its home die (R249). -/
def State.mapped (s : State) (n : Nat) : Bool := s.dispatchers.toList.any fun d => d.slots.contains n

/-- One 64-byte write reaching enqueue window `n` (R246): appended, or refused and counted. -/
def State.append (s : State) (n : Nat) (bytes : List Byte) : State :=
  let q := s.queue n
  if bytes.length = 64 ∧ q.enabled ∧ q.records.length < 2 ^ q.logcap then
    let q' := { q with records := q.records ++ [bytes], appended := q.appended + 1 }
    s.setQueue (if q.records = [] ∧ s.mapped n = false then s.queueWaits q' else q')
  else s.setQueue { q with refused := q.refused + 1 }

/-! ## Which addresses name a register -/

/-- Start of the hub register region (R267). -/
def hubBase : Nat := 0xF000000000

/-- The offset in the hub region of an enqueue window: (queue, offset) (R245). -/
def enqueueWindow (o : Nat) : Option (Nat × Nat) :=
  if 0x1000000 ≤ o ∧ o < 0x1000000 + 0x1000 * 1024 then some ((o - 0x1000000) / 0x1000, (o - 0x1000000) % 0x1000) else none

/-- The offset in the hub region of an aperture: (aperture, offset) (R529). -/
def apertureOf (o : Nat) : Option (Nat × Nat) :=
  if 0x80000000 ≤ o ∧ o < 0x80000000 + 4 * 0x10000000 then some ((o - 0x80000000) / 0x10000000, (o - 0x80000000) % 0x10000000)
  else none

/-- The named 8-byte registers of the hub, by offset in the hub region. -/
inductive HubReg where
  | qcfg (n : Nat) | splbase (d : Nat) | splsize (d : Nat)
  | xlroot (d : Nat) | xlva | xlinv | xlseq
  | tsbase (d : Nat) | tssize (d : Nat)
  | brrec | brdcap | brctx (i : Nat) | brctxw (i : Nat)
  | preempt (d : Nat) | savbase (d : Nat) | savcnt (d : Nat) | hslot (d i : Nat)
  | frqbase (d : Nat) | frqsize (d : Nat) | frqcnt (d : Nat)
  | rascnt (d i : Nat) | rasctl (d : Nat)
  | partcfg | partstat | partrst | lnkstat (n : Nat)
  | fabrank | rwtbase | rwtcnt | rtimeout | xctbase | cgtbase | fbudget | fpstat (n : Nat)
  | hqpbase | hqpcnt | hpstat (n : Nat) | hapcfg (n : Nat) | hapbase (n : Nat)
  | pwrctl (d : Nat) | telemetry (i : Nat)
  deriving DecidableEq, Repr

/-- The register at an offset of the hub region (the tables of R245, R259, R292, R373, R410, R432, R433, R435, R440,
R457, R474, R475, R488, R491, R526, R529, R533, R535). -/
def hubReg (o : Nat) : Option HubReg :=
  if o % 8 ≠ 0 then none
  else if 0x2000000 ≤ o ∧ o < 0x2002000 then some (.qcfg ((o - 0x2000000) / 8))
  else if 0x2002000 ≤ o ∧ o < 0x2002040 then
    some (if o % 16 = 0 then .splbase ((o - 0x2002000) / 16) else .splsize ((o - 0x2002000) / 16))
  else if 0x3000000 ≤ o ∧ o ≤ 0x3000020 then some (.xlroot ((o - 0x3000000) / 8))
  else if o = 0x3000100 then some .xlva
  else if o = 0x3000108 then some .xlinv
  else if o = 0x3000110 then some .xlseq
  else if 0x4000000 ≤ o ∧ o < 0x4000040 then
    some (if o % 16 = 0 then .tsbase ((o - 0x4000000) / 16) else .tssize ((o - 0x4000000) / 16))
  else if o = 0x5000000 then some .brrec
  else if o = 0x5000008 then some .brdcap
  else if 0x5000100 ≤ o ∧ o < 0x5000180 then
    some (if o % 16 = 0 then .brctx ((o - 0x5000100) / 16) else .brctxw ((o - 0x5000100) / 16))
  else if 0x6000000 ≤ o ∧ o < 0x6000040 then
    some (if o % 16 = 0 then .savbase ((o - 0x6000000) / 16) else .savcnt ((o - 0x6000000) / 16))
  else if 0x6000100 ≤ o ∧ o < 0x6000120 then some (.preempt ((o - 0x6000100) / 8))
  else if 0x6010000 ≤ o ∧ o < 0x6014000 then some (.hslot ((o - 0x6010000) / 0x1000) ((o - 0x6010000) % 0x1000 / 8))
  else if 0x7000000 ≤ o ∧ o < 0x7000080 then
    (match o % 32 with
    | 0 => some (.frqbase ((o - 0x7000000) / 32))
    | 8 => some (.frqsize ((o - 0x7000000) / 32))
    | 16 => some (.frqcnt ((o - 0x7000000) / 32))
    | _ => none)
  else if 0x8000000 ≤ o ∧ o < 0x8000400 ∧ (o - 0x8000000) % 0x100 ≤ 0x50 then
    some (.rascnt ((o - 0x8000000) / 0x100) ((o - 0x8000000) % 0x100 / 8))
  else if 0x8000400 ≤ o ∧ o < 0x8000420 then some (.rasctl ((o - 0x8000400) / 8))
  else if o = 0x9000000 then some .partcfg
  else if o = 0x9000008 then some .partstat
  else if o = 0x9000010 then some .partrst
  else if 0x9000100 ≤ o ∧ o < 0x9000140 then some (.lnkstat ((o - 0x9000100) / 8))
  else if o = 0xA000000 then some .fabrank
  else if o = 0xA000008 then some .rwtbase
  else if o = 0xA000010 then some .rwtcnt
  else if o = 0xA000018 then some .rtimeout
  else if o = 0xA000020 then some .xctbase
  else if o = 0xA000028 then some .cgtbase
  else if o = 0xA000030 then some .fbudget
  else if 0xA000100 ≤ o ∧ o < 0xA000178 then some (.fpstat ((o - 0xA000100) / 8))
  else if o = 0xB000000 then some .hqpbase
  else if o = 0xB000008 then some .hqpcnt
  else if 0xB000100 ≤ o ∧ o < 0xB000120 then some (.hpstat ((o - 0xB000100) / 8))
  else if 0xB000200 ≤ o ∧ o < 0xB000240 then
    some (if o % 16 = 0 then .hapcfg ((o - 0xB000200) / 16) else .hapbase ((o - 0xB000200) / 16))
  else if 0xC000000 ≤ o ∧ o < 0xC000020 then some (.pwrctl ((o - 0xC000000) / 8))
  else if 0xC000100 ≤ o ∧ o < 0xC000150 then some (.telemetry ((o - 0xC000100) / 8))
  else none

/-! ## Reads -/

/-- A read of an enqueue window (R248). -/
def StartQueue.counter (q : StartQueue) (o : Nat) : Word :=
  if o = 0 then q.appended else if o = 8 then q.refused else if o = 0x10 then q.removed
  else if o = 0x18 then q.malformed else 0

/-- LNKSTATn as a word (R474). -/
def LinkState.word (l : LinkState) : Word :=
  BitVec.ofNat 64 (l.retry.toNat * 2 ^ 32 + l.failkind.toNat * 256 + l.failed.toNat * 2 + l.up.toNat)
/-- FPSTATn as a word (R491). -/
def PortState.word (l : PortState) : Word :=
  BitVec.ofNat 64 (l.retry.toNat * 2 ^ 32 + l.failkind.toNat * 256 + l.failed.toNat * 2 + l.up.toNat)
/-- HPSTATn as a word (R526). -/
def HostPort.word (l : HostPort) : Word :=
  BitVec.ofNat 64 (l.badop.toNat * 2 ^ 32 + l.failed.toNat * 2 + l.up.toNat)
/-- BRREC as a word (R410). -/
def Hub.brrec (h : Hub) : Word :=
  BitVec.ofNat 64 (h.brLost.toNat * 65536 + h.brPoison.toNat * 4 + h.brValid.toNat * 2 + h.brPloss.toNat)
/-- PWRCTLd as a word (R533). -/
def Hub.pwrctl (h : Hub) (d : Nat) : Word :=
  BitVec.ofNat 64 ((vget h.pwrLimit 0 d).toNat * 2 ^ 20 + (vget h.pwrAuto false d).toNat * 2 ^ 16
    + (vget h.pwrTokens 0 d).toNat * 256 + (vget h.pwrCap 0 d).toNat)

/-- The default of a link, port and queue read out of range. -/
def linkDefault : LinkState :=
  { retry := 0, failkind := 0, failed := false, up := false, frames := Vector.replicate 2 0, crcFails := Vector.replicate 2 0 }
/-- See `linkDefault`. -/
def portDefault : PortState := { retry := 0, failkind := 0, failed := false, up := false }
/-- See `linkDefault`. -/
def frqDefault : FaultQueue := { base := 0, size := 0, lost := 0, held := [], waiting := [] }

/-- A read of a hub register (R5: WO fields read 0; R433: the slot table reads 0 to other agents). -/
def hubRead (s : State) (a : Agent) : HubReg → Word
  | .qcfg n => (s.queue n).cfg
  | .splbase d => vget s.hub.splbase 0 d
  | .splsize d => (vget s.hub.splsize 0 d).setWidth 64
  | .xlroot d => vget s.hub.xlroot 0 d
  | .xlva => s.hub.xlva
  | .xlinv => 0
  | .xlseq => s.hub.xlseq
  | .tsbase d => vget s.hub.tsbase 0 d
  | .tssize d => (vget s.hub.tssize 0 d).setWidth 64
  | .brrec => s.hub.brrec
  | .brdcap => s.hub.brdcap.setWidth 64
  | .brctx i => vget s.hub.brctx 0 i
  | .brctxw i => (vget s.hub.brctxw 0 i).setWidth 64
  | .preempt _ => 0
  | .savbase d => vget s.hub.savbase 0 d
  | .savcnt d => (vget s.hub.savcnt 0 d).setWidth 64
  | .hslot d i => if a.firmware then s.hslot d i else 0
  | .frqbase d => (vget s.frq frqDefault d).base
  | .frqsize d => (vget s.frq frqDefault d).size.setWidth 64
  | .frqcnt d => BitVec.ofNat 64 ((vget s.frq frqDefault d).lost.toNat * 2 ^ 32 + (vget s.frq frqDefault d).held.length)
  | .rascnt d i => vget s.hub.rascnt 0 (11 * d + i)
  | .rasctl d => (vget s.hub.rasctl 0 d).setWidth 64
  | .partcfg => s.hub.partcfg.setWidth 64
  | .partstat => s.hub.partstat.setWidth 64
  | .partrst => 0
  | .lnkstat n => (vget s.links linkDefault n).word
  | .fabrank => s.hub.fabrank.setWidth 64
  | .rwtbase => s.hub.rwtbase
  | .rwtcnt => s.hub.rwtcnt.setWidth 64
  | .rtimeout => s.hub.rtimeout.setWidth 64
  | .xctbase => s.hub.xctbase
  | .cgtbase => s.hub.cgtbase
  | .fbudget => s.hub.fbudget
  | .fpstat n => (vget s.ports portDefault n).word
  | .hqpbase => s.hub.hqpbase
  | .hqpcnt => s.hub.hqpcnt.setWidth 64
  | .hpstat n => (vget s.hostPorts { badop := 0, failed := false, up := false } n).word
  | .hapcfg n => vget s.hub.hapcfg 0 n
  | .hapbase n => vget s.hub.hapbase 0 n
  | .pwrctl d => s.hub.pwrctl d
  | .telemetry i => s.hub.telemetry.getD (Config.telemetryAt i) 0

/-! ## Fault record queues (R440) -/

/-- Records a queue can hold now: 0 while it is disabled. -/
def FaultQueue.capacity (q : FaultQueue) : Nat :=
  if bitAt q.base.toNat 0 ∧ 10 ≤ q.size.toNat ∧ q.size.toNat ≤ 20 then 2 ^ q.size.toNat else 0

/-- Moves waiting events into the queue, in order, while each fits whole. -/
def FaultQueue.flush (q : FaultQueue) : FaultQueue :=
  match q.waiting with
  | [] => q
  | l => l.foldl (fun acc ev =>
      if acc.waiting = [] ∧ acc.held.length + ev.length ≤ acc.capacity then { acc with held := acc.held ++ ev }
      else { acc with waiting := acc.waiting ++ [ev] }) { q with waiting := [] }

/-! ## Writes -/

/-- Whether any hart of die `d` exists, running, saved or parked (R435, R475). -/
def State.dieHasHart (s : State) (d : Nat) : Bool := s.allHarts.any fun h => !h.isControl && h.die == d

/-- PREEMPTd: asks for the pre-emption of the hart with the tag (R432); an unknown tag is ignored. -/
def Hart.preempt (h : Hart) : Hart :=
  match h.run with
  | .running => { h with run := .stopping, reason := h.reason ||| 1 }
  | .stopping => { h with reason := h.reason ||| 1 }
  | _ => h

/-- Applies a function to the hart with a tag, wherever it stands. -/
def State.onHart (s : State) (tag : BitVec 32) (f : Hart → Hart) : State :=
  if s.occupied ∧ s.hart.isControl = false ∧ s.hart.tag = tag then { s with hart := f s.hart }
  else { s with others := s.others.map fun h => if h.isControl = false ∧ h.tag = tag then f h else h }

/-- Bring-up has failed at the step that MPSTAT.STAGE gives: the module answers only on the management port (R530). -/
def State.stuckAtStart (s : State) : Bool := s.hub.mpstage == 1 || s.hub.mpstage == 2

/-- The hart with a tag. -/
def State.findHart (s : State) (tag : BitVec 32) : Option Hart :=
  s.allHarts.find? fun h => !h.isControl && h.tag == tag

/-- A request to pre-empt the hart of die `d` with a tag (R432). -/
def State.preemptTag (s : State) (d : Nat) (tag : BitVec 32) : State :=
  s.onHart tag fun h => if h.die = d then h.preempt else h

/-- XLINV: starts a command (R294). -/
def State.xlinv (s : State) (v : Nat) : State :=
  let cmd : InvCmd := ⟨v % 4, BitVec.ofNat 8 (v / 2 ^ 40), s.hub.xlva, BitVec.ofNat 5 (v / 256)⟩
  { s with invs := s.invs ++ [cmd] }

/-- QCFGn: while EN = 1 a write that changes any other field is ignored (R245). -/
def State.writeQcfg (s : State) (n v : Nat) : State :=
  let q := s.queue n
  let new := keep v 0x00FFFFFFFFFF1F0D
  if bitAt q.cfg.toNat 0 ∧ (new ||| 1) ≠ q.cfg then s else s.setQueue { q with cfg := new }

/-- A write of a register by control firmware at supervisor privilege. -/
def firmwareWrite (s : State) (v : Nat) : HubReg → State
  | .qcfg n => s.writeQcfg n v
  | .splbase d => if (vget s.dispatchers dispatcherDefault d).spoil = []
      then s.setHub { s.hub with splbase := vset s.hub.splbase d (keep v baseEnMask) } else s
  | .splsize d => if (vget s.dispatchers dispatcherDefault d).spoil = []
      then s.setHub { s.hub with splsize := vset s.hub.splsize d (BitVec.ofNat 5 v) } else s
  | .xlroot d => s.setHub { s.hub with xlroot := vset s.hub.xlroot d (keep v baseEnMask) }
  | .xlva => s.setHub { s.hub with xlva := BitVec.ofNat 64 v }
  | .xlinv => s.xlinv v
  | .tsbase d => if s.gens.any (·.die == d) then s else s.setHub { s.hub with tsbase := vset s.hub.tsbase d (keep v baseEnMask) }
  | .tssize d => if s.gens.any (·.die == d) then s else s.setHub { s.hub with tssize := vset s.hub.tssize d (BitVec.ofNat 32 v) }
  | .brrec => if bitAt v 0 then s.setHub { s.hub with brPloss := false } else s
  | .preempt d => s.preemptTag d (BitVec.ofNat 32 v)
  | .savbase d => if s.dieHasHart d then s else s.setHub { s.hub with savbase := vset s.hub.savbase d (keep v 0x00FFFFFFFFFF0000) }
  | .savcnt d => if s.dieHasHart d then s else s.setHub { s.hub with savcnt := vset s.hub.savcnt d (BitVec.ofNat 12 v) }
  | .frqbase d => { s with frq := vset s.frq d { (vget s.frq frqDefault d) with base := keep v baseEnMask }.flush }
  | .frqsize d => { s with frq := vset s.frq d { (vget s.frq frqDefault d) with size := BitVec.ofNat 5 v }.flush }
  | .fabrank => s.setHub { s.hub with fabrank := BitVec.ofNat 16 v &&& 0x8FFF }
  | .rwtbase => s.setHub { s.hub with rwtbase := keep v 0x00FFFFFFFFFF0000 }
  | .rwtcnt => s.setHub { s.hub with rwtcnt := BitVec.ofNat 17 v }
  | .rtimeout => s.setHub { s.hub with rtimeout := BitVec.ofNat 32 v }
  | .xctbase => s.setHub { s.hub with xctbase := keep v 0x00FFFFFFFFFF0000 }
  | .cgtbase => s.setHub { s.hub with cgtbase := keep v 0x00FFFFFFFFFF0000 }
  | .fbudget => s.setHub { s.hub with fbudget := BitVec.ofNat 64 v }
  | .hqpbase => s.setHub { s.hub with hqpbase := keep v 0x00FFFFFFFFFF0000 }
  | .hqpcnt => s.setHub { s.hub with hqpcnt := BitVec.ofNat 11 v }
  | .hapcfg n => s.setHub { s.hub with hapcfg := vset s.hub.hapcfg n (keep v 0x000003FFFFFFFFFF) }
  | .hapbase n => s.setHub { s.hub with hapbase := vset s.hub.hapbase n (BitVec.ofNat 64 v) }
  | .xlseq | .brdcap | .brctx _ | .brctxw _ | .hslot _ _ | .frqcnt _ | .rascnt _ _ | .rasctl _ | .partcfg | .partstat
  | .partrst | .lnkstat _ | .fpstat _ | .hpstat _ | .pwrctl _ | .telemetry _ => s

/-- A store of 8 bytes to a register by an agent: a write by any other agent is ignored (R5, R270). -/
def hubWrite (s : State) (a : Agent) (v : Nat) (r : HubReg) : State := if a.firmware then firmwareWrite s v r else s

/-- A store that reaches an enqueue window (R246, R247): the staging record of a control core, or a partial write,
refused and counted. -/
def State.windowStore (s : State) (a : Agent) (n o v : Nat) : State :=
  if a.engine = false ∧ a.ctl.isSome ∧ s.hart.isControl ∧ 0x800 ≤ o ∧ o < 0x840 ∧ o % 8 = 0 then
    { s with hart := { s.hart with staging := vset s.hart.staging ((o - 0x800) / 8) (BitVec.ofNat 64 v) } }
  else if a.engine = false ∧ a.ctl.isSome ∧ s.hart.isControl ∧ o = 0x840 then
    let s' := s.append n (s.hart.staging.toList.flatMap fun w => toLe 8 w.toNat)
    { s' with hart := { s'.hart with staging := Vector.replicate 8 0 } }
  else
    let q := s.queue n
    s.setQueue { q with refused := q.refused + 1 }

/-- A write that reaches enqueue window `n` at an offset (R246, R247): 64 aligned bytes are appended, but not at the staging
offsets, which refuse every agent but a control core. -/
def State.windowWrite (s : State) (a : Agent) (n o : Nat) (bytes : List Byte) : State :=
  if bytes.length = 64 ∧ o % 64 = 0 ∧ o ≠ 0x800 ∧ o ≠ 0x840 then s.append n bytes
  else s.windowStore a n o (leNat bytes)

end Sys2Proof.Machine
end

