-- ==== Sys2Proof/Machine/Records.lean ====
section
/-! DEFINITION. Fault records and their queues (spec/19 R440-R442), the RAS counters (R457), the partitions of the dies
(spec/21 R475). -/

namespace Sys2Proof.Machine

/-! ## Partitions (R475) -/

/-- The partition number of a C die. -/
def State.part (s : State) (d : Nat) : Nat := s.hub.partcfg.toNat / 4 ^ d % 4

/-- Whether two C dies form one partition. -/
def State.samePart (s : State) (d e : Nat) : Bool := s.part d == s.part e

/-- PARTSTAT.STOPPED[d] (R480). -/
def State.dieStopped (s : State) (d : Nat) : Bool := s.hub.partstat.getLsbD d

/-! ## Acting on a hart that is not in focus -/

/-- Applies `f` with the hart of a tag in focus, its main stream executing, and puts the focus back. -/
def State.asHart (s : State) (tag : BitVec 32) (f : State → State) : State :=
  if s.occupied ∧ s.hart.isControl = false ∧ s.hart.tag = tag then
    let s1 := f { s with onFeeder := false }
    { s1 with onFeeder := s.onFeeder, quantum := s.quantum }
  else
    match s.others.findIdx? (fun h => !h.isControl && h.tag == tag) with
    | none => s
    | some i =>
      let rest := s.others.eraseIdx i
      let s1 := f { s with hart := s.others.getD i s.hart, onFeeder := false, occupied := true
                           others := if s.occupied then s.hart :: rest else rest }
      let back := if s.occupied then s1.others.drop 1 else s1.others
      { s1 with hart := if s.occupied then s1.others.headD s.hart else s.hart
                onFeeder := s.onFeeder, occupied := s.occupied, quantum := s.quantum
                others := back.take i ++ s1.hart :: back.drop i }

/-! ## The bytes of a record (R441) -/

/-- The 64 bytes of a fault record. -/
def FaultRec.bytes (r : FaultRec) : List Byte :=
  [r.cause, r.kind, r.acc, r.level, r.src, r.flags] ++ toLe 2 (min r.npos 65535) ++ toLe 8 r.handle.toNat
    ++ toLe 8 r.va.toNat ++ [r.vawin, 0] ++ toLe 2 r.hartid.toNat ++ toLe 2 r.index ++ toLe 2 r.npage
    ++ toLe 8 r.pc.toNat ++ toLe 4 r.word.toNat ++ toLe 2 r.ctxid.toNat ++ [0, 0] ++ toLe 8 r.aux.toNat
    ++ toLe 8 r.save.toNat

/-- Numbers the records of an event: INDEX, NPAGE, at most 32 records, MORE on the last when more pages faulted (R442). -/
def numberEvent (l : List FaultRec) : List FaultRec :=
  let k := min l.length 32
  (l.take 32).mapIdx fun i r =>
    { r with index := i, npage := k, flags := if 32 < l.length ∧ i = 31 then r.flags ||| 4 else r.flags }

/-! ## The queues (R440) -/

/-- Adds one event: an informational one is discarded and counted in LOST when it does not fit, whatever waits; another
waits behind those that wait. -/
def FaultQueue.put (q : FaultQueue) (info : Bool) (ev : List FaultRec) : FaultQueue :=
  if (q.waiting = [] ∨ info = true) ∧ q.held.length + ev.length ≤ q.capacity then { q with held := q.held ++ ev }
  else if info then { q with lost := BitVec.ofNat 32 (min (q.lost.toNat + ev.length) 0xFFFFFFFF) }
  else { q with waiting := q.waiting ++ [ev] }

/-- Writes an event to the queue of die `d`. -/
def State.putEvent (s : State) (d : Nat) (info : Bool) (ev : List FaultRec) : State :=
  { s with frq := vset s.frq d ((vget s.frq frqDefault d).put info (numberEvent ev)) }

/-- Lets waiting events of die `d` enter its queue (R440). -/
def State.flushFrq (s : State) (d : Nat) : State :=
  { s with frq := vset s.frq d (vget s.frq frqDefault d).flush }

/-- The base of the save area that a hart holds (R435). -/
def State.areaAt (s : State) (h : Hart) : Nat := baseOf (vget s.hub.savbase 0 h.die) + h.area * 0x90000

/-- SAVE of a record of the hart in focus (R441): a control core has no save area. -/
def State.saveWord (s : State) : Word := if s.hart.isControl then 0 else BitVec.ofNat 64 (s.areaAt s.hart)

/-- A POISON record of a g destination that receives poisoned data (R452): the stream continues. A control core's
goes to die C0 with HARTID 0xFFFF, as R443 has it for its operations (DEDUCED, log 12). -/
def State.poisonScalar (s : State) (pc : Word) (word : Nat) : State :=
  let d := if s.hart.isControl then 0 else s.hart.die
  s.putEvent d true [{ streamRec s 0x20 pc word with
    kind := 4, flags := 8, hartid := if s.hart.isControl then 0xFFFF else s.hart.hartid.setWidth 16, save := s.saveWord }]

end Sys2Proof.Machine
end

