-- ==== Sys2Proof/Machine/Contexts.lean ====
section
/-! DEFINITION. Engine contexts: the tables of exchanges and groups, ISSUED and COUNT, the end of an operation, and what waits
on a context that ceases to exist (spec/14 R343-R347, R359, R361, R363, spec/22 R498, R509). -/

namespace Sys2Proof.Machine

/-! ## The tables of exchanges and groups (R498, R509) -/

/-- An entry of the exchange table or of the collective group table that makes a context. -/
structure TableEntry where
  members : List Nat
  arb : List Nat
  deriving DecidableEq, Repr

/-- Numbers that ascend strictly. -/
def ascending : List Nat → Bool
  | a :: b :: r => decide (a < b) && ascending (b :: r)
  | _ => true

/-- `n` numbers of `w` bytes in memory from `a` up. -/
def Mem.nums (m : Mem) (a w n : Nat) : List Nat := (List.range n).map fun i => m.readLe (a + w * i) w

/-- RANK of FABRANK. -/
def State.rank (s : State) : Nat := s.hub.fabrank.toNat % 4096

/-- Entry `x` of the table at `base`, where it makes a context (R498). -/
def State.tableEntry (s : State) (base x : Nat) (needArb : Bool) : Option TableEntry :=
  let a := base + 64 * x
  let n := s.mem.readLe (a + 8) 2
  if s.mem.readLe (a + 18) 2 ≠ 1 ∨ n < 2 ∨ 4096 < n ∨ (s.mem.bytes (a + 20) 44).any (· != 0) then none
  else
    let e : TableEntry := ⟨s.mem.nums (s.mem.readLe a 8) 2 n, s.mem.nums (a + 10) 2 4⟩
    if ascending e.members && e.members.all (· < 4096) && (!needArb || e.members.contains (e.arb.headD 0))
      && e.members.contains s.rank then some e
    else none

/-- The exchange `x`, if it exists. -/
def State.exchange (s : State) (x : Nat) : Option TableEntry := s.tableEntry (baseOf s.hub.xctbase) x true
/-- The collective group `g`, if it exists. -/
def State.collective (s : State) (g : Nat) : Option TableEntry := s.tableEntry (baseOf s.hub.cgtbase) g false

/-- The state of an exchange that nothing has used since its EN became 1. -/
def Xchg.fresh (x : Nat) : Xchg where
  x := x
  tl := Timeline.zero
  round := 0
  st := .openR
  post := []
  ignored := 0
  cand := 0
  held := []
  phases := []
  posted := []
  failed := false
  asked := []
  readys := []
  finals := []
  run := none
  last := none

/-- The state of a group that nothing has used since its EN became 1. -/
def Coll.fresh (g : Nat) : Coll where
  g := g
  tl := Timeline.zero
  seq := 0
  cur := none
  sent := 0
  got := []
  status := 0
  refusing := false
  failed := []

/-- The state of exchange `x`. -/
def State.xchg (s : State) (x : Nat) : Xchg := (s.xchgs.find? (·.x == x)).getD (Xchg.fresh x)
/-- Replaces the state of an exchange. -/
def State.setXchg (s : State) (c : Xchg) : State := { s with xchgs := s.xchgs.filter (·.x != c.x) ++ [c] }
/-- The state of group `g`. -/
def State.coll (s : State) (g : Nat) : Coll := (s.colls.find? (·.g == g)).getD (Coll.fresh g)
/-- Replaces the state of a group. -/
def State.setColl (s : State) (c : Coll) : State := { s with colls := s.colls.filter (·.g != c.g) ++ [c] }

/-! ## Contexts (R343, R344) -/

/-- The slot of a die's schedule context (R372). -/
def schedSlot : Nat := 1023

/-- The default of a Bedrock context read out of range. -/
def bedrockDefault : BedrockCtx := { exist := false, closing := false, win := 0, tl := Timeline.zero }

/-- The generation in a slot. -/
def State.gen (s : State) (d slot : Nat) : Option Gen := s.gens.find? fun g => g.die == d && g.slot == slot

/-- What an id of kind 2 to 5 names. -/
def State.sharedCtx (s : State) (id : Nat) : Option CtxRef :=
  let i := id % 4096
  match id / 4096 % 16 with
  | 2 => if i % 1024 = schedSlot ∨ (s.gen (i / 1024) (i % 1024)).isSome then some (.topo (i / 1024) (i % 1024)) else none
  | 3 => if i < 8 ∧ (vget s.bedrock bedrockDefault i).exist then some (.bedrock i) else none
  | 4 => if i < 256 ∧ (s.exchange i).isSome then some (.xchg i) else none
  | 5 => if i < 256 ∧ (s.collective i).isSome then some (.coll i) else none
  | _ => none

/-- What the low 16 bits of a g value name for the executing stream. -/
def State.ctxOf (s : State) (w : Word) : Option CtxRef :=
  let id := w.toNat % 65536
  if id / 4096 = 1 then
    if s.hart.isControl = false ∧ id % 4096 < 2 then some (.copy s.hart.tag (id % 4096)) else none
  else s.sharedCtx id

/-- ISSUED and COUNT of a context. -/
def State.timeline (s : State) : CtxRef → Timeline
  | .copy t i => match s.findHart t with | some h => vget h.cc Timeline.zero i | none => Timeline.zero
  | .topo d slot => if slot = schedSlot then vget s.sched Timeline.zero d
      else match s.gen d slot with | some g => g.tl | none => Timeline.zero
  | .bedrock i => (vget s.bedrock bedrockDefault i).tl
  | .xchg x => (s.xchg x).tl
  | .coll g => (s.coll g).tl

/-- Replaces a generation. -/
def State.setGen (s : State) (g : Gen) : State :=
  { s with gens := s.gens.map fun x => if x.die = g.die ∧ x.slot = g.slot then g else x }

/-- Replaces ISSUED and COUNT of a context. -/
def State.setTimeline (s : State) (c : CtxRef) (t : Timeline) : State :=
  match c with
  | .copy tag i => s.onHart tag fun h => { h with cc := vset h.cc i t }
  | .topo d slot => if slot = schedSlot then { s with sched := vset s.sched d t }
      else match s.gen d slot with | some g => s.setGen { g with tl := t } | none => s
  | .bedrock i => { s with bedrock := vset s.bedrock i { (vget s.bedrock bedrockDefault i) with tl := t } }
  | .xchg x => s.setXchg { (s.xchg x) with tl := t }
  | .coll g => s.setColl { (s.coll g) with tl := t }

/-- COUNT raised over the completed operations that continue the run; `fuel` of them. -/
def Timeline.raise : Nat → Timeline → Timeline
  | 0, t => t
  | k + 1, t =>
    if t.done.contains (t.count + 1) then
      Timeline.raise k { t with count := t.count + 1, done := t.done.filter (· != t.count + 1) }
    else t

/-- Operation `k` has completed (R345). -/
def Timeline.finish (t : Timeline) (k : Nat) : Timeline :=
  Timeline.raise (t.done.length + 1) { t with done := insertNat k t.done }

/-! ## The end of an operation (R345, R347, R434) -/

/-- Whether a hart is saved. -/
def Hart.isSaved (h : Hart) : Bool := match h.run with | .saved _ | .killed true => true | _ => false

/-- A token is written and its register no longer pends (R347). -/
def Stream.token (t : Stream) (d : Reg) (v : Word) : Stream :=
  { (t.wr d v) with pend := t.pend &&& ~~~(1#32 <<< d.toNat) }

/-- A token for a hart. -/
def Hart.token (h : Hart) (feeder : Bool) (d : Reg) (v : Word) : Hart :=
  if feeder then { h with feed := h.feed.token d v } else { h with main := h.main.token d v }

/-- A token for a saved hart: into the g slot of its save area, PENDG cleared (R434). -/
def State.tokenToArea (s : State) (h : Hart) (feeder : Bool) (d : Reg) (v : Word) : State :=
  let b := s.areaAt h + (if feeder then 0x300 else 0x100)
  let pend := BitVec.ofNat 64 (s.mem.readLe (b + 0x178) 8) &&& ~~~(1#64 <<< d.toNat)
  { s with mem := (s.mem.writeLe (b + 8 * d.toNat) 8 v.toNat).writeLe (b + 0x178) 8 pend.toNat }

/-- Applies a function to control core `n`'s stream. -/
def State.onControl (s : State) (n : Nat) (f : Hart → Hart) : State :=
  if s.occupied ∧ s.hart.kind = .control n then { s with hart := f s.hart }
  else { s with others := s.others.map fun h => if h.kind = .control n then f h else h }

/-- Writes the token of an operation (R347). -/
def State.writeToken (s : State) (o : Op) (v : Word) : State :=
  if o.token = 0 then s
  else match o.ctl with
    | some n => s.onControl n fun h => h.token false o.token v
    | none => match s.findHart o.issuer with
      | none => s
      | some h =>
        let s1 := s.onHart o.issuer fun h => h.token o.feeder o.token v
        if h.isSaved then s1.tokenToArea h o.feeder o.token v else s1

/-- An operation ends (R345): the token, then COUNT; `v` is the token's value. -/
def State.endOp (s : State) (o : Op) (v : Nat) : State :=
  let s1 := s.writeToken o (BitVec.ofNat 64 v)
  let s2 := s1.setTimeline o.ctx ((s1.timeline o.ctx).finish o.num)
  let s3 := match o.also, o.ctx with
    | some (slot, k), .topo d _ => s2.setTimeline (.topo d slot) ((s2.timeline (.topo d slot)).finish k)
    | _, _ => s2
  { s3 with ops := s3.ops.filter (·.id != o.id) }

/-- An operation is abandoned (R345); one whose context has started afresh counts there no longer. -/
def State.abandonOp (s : State) (o : Op) : State :=
  if o.stage = .lost then
    let s1 := s.writeToken o (BitVec.ofNat 64 (o.num + 2 ^ 63))
    { s1 with ops := s1.ops.filter (·.id != o.id) }
  else s.endOp o (o.num + 2 ^ 63)

/-! ## Contexts that cease to exist (R359, R361, R363, R498) -/

/-- The id of a context (R343). -/
def CtxRef.id : CtxRef → Nat
  | .copy _ i => 0x1000 + i
  | .topo d s => 0x2000 + 1024 * d + s
  | .bedrock i => 0x3000 + i
  | .xchg x => 0x4000 + x
  | .coll g => 0x5000 + g

/-- The context that an id of kind 2 to 5 would name. -/
def ctxOfId (id : Nat) : Option CtxRef :=
  let i := id % 4096
  match id / 4096 with
  | 2 => some (.topo (i / 1024) (i % 1024))
  | 3 => some (.bedrock i)
  | 4 => some (.xchg i)
  | 5 => some (.coll i)
  | _ => none

/-- A TLWAIT of a stream on a context that ceases to exist will raise ILLOP (R359, R361). -/
def Stream.endCtx (p : CtxRef → Bool) (t : Stream) : Stream :=
  match t.tlw with
  | .on c => if p c then { t with tlw := .gone } else t
  | _ => t

/-- See `Stream.endCtx`. -/
def Hart.endCtx (p : CtxRef → Bool) (h : Hart) : Hart := { h with main := h.main.endCtx p, feed := h.feed.endCtx p }

/-- A record whose WAITCTX ceases to exist while it waits names no context from then on: an id of a reserved kind (R363). -/
def endRecord (p : CtxRef → Bool) (r : List Byte) : List Byte :=
  match ctxOfId (fieldAt r 40 2) with
  | some c => if p c then (r.set 40 0x00).set 41 0x60 else r
  | none => r

/-- How many records of a queue are its head: one, or the gang that it heads (R249, R253). -/
def headSize (l : List (List Byte)) : Nat :=
  match l with
  | r :: _ => if fieldAt r 46 2 = 0 then 1 else fieldAt r 54 2
  | [] => 0

/-- The contexts that `p` picks cease to exist: for the streams that wait on them, and the records at the heads of queues
and in the pools. -/
def State.endCtx (s : State) (p : CtxRef → Bool) : State :=
  { s with
    hart := s.hart.endCtx p
    others := s.others.map fun h => h.endCtx p
    queues := s.queues.map fun q =>
      { q with records := (q.records.take (headSize q.records)).map (endRecord p) ++ q.records.drop (headSize q.records) }
    dispatchers := s.dispatchers.map fun d => { d with pool := d.pool.map fun r => { r with bytes := endRecord p r.bytes } } }

/-- Whether a stream or a record waits on a context that `p` picks. -/
def State.awaits (s : State) (p : CtxRef → Bool) : Bool :=
  let stream := fun (t : Stream) => match t.tlw with | .on c => p c | _ => false
  let record := fun (r : List Byte) => match ctxOfId (fieldAt r 40 2) with | some c => p c | none => false
  (s.hart :: s.others).any (fun h => stream h.main || stream h.feed)
    || s.queues.any (fun q => (q.records.take (headSize q.records)).any record)
    || s.dispatchers.toList.any fun d => d.pool.any fun r => record r.bytes

/-- After a change from `old`: the contexts that `reset` picks start afresh, their operations lost, while one that has ceased
otherwise than by EN keeps its ISSUED and COUNT (R498, R509; DESIGN CHOICE, log 42); a wait on one of them, or on an exchange or
group that exists no longer, ends (R359, R363). -/
def State.noteTables (s old : State) (reset : CtxRef → Bool) : State :=
  let p := fun (c : CtxRef) => reset c || (match c with
    | .xchg x => (old.exchange x).isSome && (s.exchange x).isNone
    | .coll g => (old.collective g).isSome && (s.collective g).isNone
    | _ => false)
  let s1 := if s.awaits p then s.endCtx p else s
  if (s1.xchgs.any fun c => reset (.xchg c.x)) || (s1.colls.any fun c => reset (.coll c.g)) || s1.ops.any fun o => reset o.ctx then
    { s1 with
      xchgs := s1.xchgs.filter (fun c => !reset (.xchg c.x)), colls := s1.colls.filter fun c => !reset (.coll c.g)
      ops := s1.ops.map fun o => if reset o.ctx then { o with stage := .lost } else o }
  else s1

/-- The contexts whose EN a write of [pa, pa + n) takes from 0 to 1 (R498, R509). -/
def State.enabled (s old : State) (pa n : Nat) (c : CtxRef) : Bool :=
  let rose := fun (base x : Nat) =>
    let a := base + 64 * x + 18
    inRange a pa n && !bitAt (old.mem.byte a).toNat 0 && bitAt (s.mem.byte a).toNat 0
  match c with
  | .xchg x => rose (baseOf s.hub.xctbase) x
  | .coll g => rose (baseOf s.hub.cgtbase) g
  | _ => false

end Sys2Proof.Machine
end

