-- ==== Sys2Proof/Machine/Access.lean ====
section
/-! DEFINITION. Translation, the memory classes, the checks of an access and the reads, writes and atomics of every
agent (spec/10, spec/17 R399-R402, spec/21 R478, spec/24 R529). -/

namespace Sys2Proof.Machine

/-! ## The physical map (R267) -/

/-- What a physical address is. -/
inductive Region where
  | hbm (d : Nat) | sram (d : Nat) | spad (d q : Nat) | tcm (d c : Nat)
  | aliasTcm (o : Nat) | aliasSpad (o : Nat) | aliasSram (o : Nat)
  | hub (o : Nat) | bedrock | hole
  deriving DecidableEq, Repr

/-- The region of a physical address; stream areas are holes (R272). -/
def region (pa : Nat) : Region :=
  if pa < 0x8000000000 then
    if pa % 0x2000000000 < 0x1800000000 then .hbm (pa / 0x2000000000) else .hole
  else if pa < 0x8400000000 then
    if pa % 0x100000000 < 0x4000000 then .sram ((pa - 0x8000000000) / 0x100000000) else .hole
  else if 0x9000000000 ≤ pa ∧ pa < 0x9010000000 then
    if pa % 0x200000 < 0x1B8000 then .spad ((pa - 0x9000000000) / 0x4000000) (pa % 0x4000000 / 0x200000) else .hole
  else if 0xA000000000 ≤ pa ∧ pa < 0xA008000000 then
    .tcm ((pa - 0xA000000000) / 0x2000000) (pa % 0x2000000 / 0x40000)
  else if 0xB000000000 ≤ pa ∧ pa < 0xB000040000 then .aliasTcm (pa - 0xB000000000)
  else if 0xB010000000 ≤ pa ∧ pa < 0xB0101B8000 then .aliasSpad (pa - 0xB010000000)
  else if 0xB020000000 ≤ pa ∧ pa < 0xB024000000 then .aliasSram (pa - 0xB020000000)
  else if hubBase ≤ pa ∧ pa < hubBase + 0x100000000 then
    if (hubReg ((pa - hubBase) / 8 * 8)).isSome ∨ (enqueueWindow (pa - hubBase)).isSome
      ∨ (apertureOf (pa - hubBase)).isSome then .hub (pa - hubBase) else .hole
  else if 0x100000000000 ≤ pa ∧ pa < 0x180000000000 then .bedrock
  else .hole

/-- The die whose storage an address of HBM, die SRAM, a scratchpad or a TCM belongs to. -/
def Region.home : Region → Option Nat
  | .hbm d | .sram d | .spad d _ | .tcm d _ => some d
  | _ => none

/-! ## Routes (R469, R472, R481) -/

/-- The links between two dies, H being die 4 (R469). -/
def route (a b : Nat) : List Nat :=
  if a = b then []
  else if b = 4 then [4 + a]
  else if a = 4 then [4 + b]
  else match min a b, max a b with
    | 0, 1 => [0]
    | 1, 3 => [1]
    | 2, 3 => [2]
    | 0, 2 => [3]
    | 0, 3 => [0, 1]
    | _, _ => [0, 3]

/-- A link that has failed, or that retrains because a counter stands at 2^48: its traffic waits (R472, R481). -/
def LinkState.shut (l : LinkState) : Bool := !l.up && (l.failed || l.frames.toList.any (2 ^ 48 ≤ ·))

/-- The route from a die to the home of an address crosses such a link. Aliases stay on their die (R268). -/
def State.cut (s : State) (die pa : Nat) : Bool :=
  let to_ := match region pa with
    | .hbm d | .sram d | .spad d _ | .tcm d _ => d
    | .hub _ | .bedrock => 4
    | .aliasTcm _ | .aliasSpad _ | .aliasSram _ | .hole => die
  (route die to_).any fun n => (vget s.links linkDefault n).shut

/-- An alias resolves to the storage of the issuing hart (R268). -/
def resolveAlias (id : BitVec 11) (pa : Nat) : Nat :=
  match region pa with
  | .aliasTcm o => 0xA000000000 + idDie id * 0x2000000 + idCore id * 0x40000 + o
  | .aliasSpad o => 0x9000000000 + idDie id * 0x4000000 + idQuad id * 0x200000 + o
  | .aliasSram o => 0x8000000000 + idDie id * 0x100000000 + o
  | _ => pa

/-- Storage of the machine's own use in HBM: start queues are kept as lists, so theirs is not listed (DEDUCED, log 13). The
spoil queues (R259), the pools of save areas (R435) and the fault record queues (R440). -/
def State.ownStorage (s : State) (pa : Nat) : Bool :=
  (List.range 4).any fun d =>
    (bitAt (vget s.hub.splbase 0 d).toNat 0 && decide (10 ≤ (vget s.hub.splsize 0 d).toNat)
      && decide ((vget s.hub.splsize 0 d).toNat ≤ 24) && inRange pa (baseOf (vget s.hub.splbase 0 d)) (64 * 2 ^ (vget s.hub.splsize 0 d).toNat))
    || inRange pa (baseOf (vget s.hub.savbase 0 d)) ((vget s.hub.savcnt 0 d).toNat * 0x90000)
    || inRange pa (baseOf (vget s.frq frqDefault d).base) (64 * (vget s.frq frqDefault d).capacity)

/-- The topology engines' private regions (R373). -/
def State.topoStorage (s : State) (pa : Nat) : Bool :=
  (List.range 4).any fun d => bitAt (vget s.hub.tsbase 0 d).toNat 0
    && inRange pa (baseOf (vget s.hub.tsbase 0 d)) ((vget s.hub.tssize 0 d).toNat * 65536)

/-! ## Page-table entries (R279) -/

/-- PA of an entry, as the address it names. -/
def pteBase (e : Nat) : Nat := e / 65536 % 2 ^ 40 * 65536
/-- CLASS. -/
def pteClass (e : Nat) : Nat := e / 64 % 4
/-- V LEAF R W X U A D G at bits 0 to 10 (CLASS between). -/
def pteBit (e i : Nat) : Bool := bitAt e i

/-- Whether a page table may lie at a base (R281, R478): populated HBM or die SRAM, within the partition of the agent's die
unless it is on H (4). -/
def State.tableAt (s : State) (die base : Nat) : Bool :=
  match region base with
  | .hbm d | .sram d => die == 4 || s.samePart die d
  | _ => false

/-- R281. -/
def State.malformed (s : State) (die e lvl : Nat) : Bool :=
  e / 2048 % 32 != 0
  || (pteBit e 1 && (lvl == 4 || lvl == 3))
  || (!pteBit e 1 && lvl == 0)
  || (!pteBit e 1 && e / 4 % 512 != 0)
  || (!pteBit e 1 && !s.tableAt die (pteBase e))
  || (pteBit e 1 && lvl == 2 && e / 65536 % 2 ^ 24 != 0)
  || (pteBit e 1 && lvl == 1 && e / 65536 % 2 ^ 12 != 0)
  || (pteBit e 1 && lvl == 2 && pteClass e == 3)

/-- The index of a VA at a level (R278). -/
def vaIndex (win va lvl : Nat) : Nat :=
  match lvl with
  | 4 => win
  | 3 => va / 2 ^ 52
  | 2 => va / 2 ^ 40 % 4096
  | 1 => va / 2 ^ 28 % 4096
  | _ => va / 2 ^ 16 % 4096

/-- The size of a leaf's page (R280). -/
def pageSize (lvl : Nat) : Nat := if lvl = 2 then 2 ^ 40 else if lvl = 1 then 2 ^ 28 else 2 ^ 16

/-- A leaf: where it lies, its value, its level. -/
structure Leaf where
  at_ : Nat
  pte : Nat
  size : Nat
  deriving DecidableEq, Repr

/-- How a walk ends: at a leaf, with the kind and level of an XLATE fault, or waiting for a link to a table (R472, R481). -/
inductive WalkEnd where
  | leaf (l : Leaf)
  | bad (kind : BitVec 8) (lvl : Nat)
  | waits
  deriving DecidableEq, Repr

/-- The loop of R280 from a table at level `lvl` down. -/
def State.walkFrom (s : State) (a : Agent) (va t : Nat) : Nat → WalkEnd
  | 0 =>
    let p := t + 8 * vaIndex a.win.toNat va 0
    let e := s.mem.readLe p 8
    if s.cut a.die p then .waits
    else if !pteBit e 0 then .bad 0x02 0
    else if s.malformed a.bound e 0 then .bad 0x03 0
    else .leaf ⟨p, e, pageSize 0⟩
  | lvl + 1 =>
    let p := t + 8 * vaIndex a.win.toNat va (lvl + 1)
    let e := s.mem.readLe p 8
    if s.cut a.die p then .waits
    else if !pteBit e 0 then .bad 0x02 (lvl + 1)
    else if s.malformed a.bound e (lvl + 1) then .bad 0x03 (lvl + 1)
    else if pteBit e 1 then .leaf ⟨p, e, pageSize (lvl + 1)⟩
    else s.walkFrom a va (pteBase e) lvl

/-- A walk for an agent, from the root of the die that translates for it (4 is H) (R280, R292, R293). -/
def State.walk (s : State) (a : Agent) (va : Nat) : WalkEnd :=
  let root := vget s.hub.xlroot 0 a.die
  if !bitAt root.toNat 0 then .bad 0x01 4
  else if !s.tableAt a.bound (baseOf root) then .bad 0x03 4
  else s.walkFrom a va (baseOf root) 4

/-! ## The checks of R287 -/

/-- What kind of access stands apart from the plain ones: the 64-byte write of a block store (R309), LDA and STL (R95). -/
inductive AccForm where
  | plain | block | sync
  deriving DecidableEq, Repr

/-- An access: its type (0 read, 1 write, 2 atomic, 3 fetch), its size, its form, and the placement it is bound to, with
whether an alias of it will do (R296, R301). -/
structure Access where
  acc : Nat
  size : Nat
  form : AccForm
  place : Option (Nat × Nat × Bool)
  deriving DecidableEq, Repr

/-- A plain access of a type and size. -/
def Access.plain (acc size : Nat) : Access := ⟨acc, size, .plain, none⟩

/-- Whether an address is in storage that this agent may not reach (R259, R373, R435, R440). -/
def State.closedTo (s : State) (a : Agent) (pa : Nat) : Bool :=
  s.topoStorage pa || ((a.ctl.isNone || a.engine) && s.ownStorage pa)

/-- Whether an aperture refuses an access (R529): not open, or its queue pair in the error state. -/
def State.apertureShut (s : State) (n : Nat) : Bool :=
  let cfg := (vget s.hub.hapcfg 0 n).toNat
  !bitAt cfg 0 || s.mem.byte (baseOf s.hub.hqpbase + 32 * (cfg / 2 ^ 32 % 1024) + 5) == 2

/-- The dies of an agent's partition, whose replicas a store writes (R286, R336). -/
def State.replicaDies (s : State) (a : Agent) : List Nat :=
  let d := match a.id with | some id => idDie id | none => a.die
  (List.range 4).filter fun e => s.samePart d e

/-- Where an access reaches storage: on a REPLICATED page a write reaches each replica of the partition, any other access
that of the agent's die (R286). -/
def State.reached (s : State) (a : Agent) (x : Access) (cls pa : Nat) : List Nat :=
  if cls = 3 then
    if x.acc = 1 then (s.replicaDies a).map fun d => d * 0x2000000000 + pa
    else [(match a.id with | some id => idDie id | none => a.die) * 0x2000000000 + pa]
  else [pa]

/-- PROT kind of an access to `pa` (aliases not yet resolved) under a leaf, in the order of R287; none: permitted. -/
def State.protKind (s : State) (a : Agent) (x : Access) (e pa : Nat) : Option (BitVec 8) :=
  let cls := pteClass e
  let r := region pa
  if !a.sv && !pteBit e 5 then some 0x10
  else if (x.acc == 0 || x.acc == 2) && !pteBit e 2 then some 0x11
  else if (x.acc == 1 || x.acc == 2) && !pteBit e 3 then some 0x12
  else if x.acc == 3 && (!pteBit e 4 || cls == 1 || cls == 2) then some 0x13
  else if cls == 1 && a.engine then some 0x14
  else if cls == 3 && a.ctl.isSome then some 0x14
  else
    let reach : Bool := match r with
      | .hbm d => cls == 0 || (cls == 3 && d == 0)
      | .sram _ | .spad _ _ | .tcm _ _ | .aliasTcm _ | .aliasSpad _ | .aliasSram _ => cls == 0
      | .hub _ => cls == 1
      | .bedrock => cls == 2
      | .hole => true
    if !reach then some 0x14
    else
      let pa' := match a.id with | some id => resolveAlias id pa | none => pa
      let nomem : Bool := match r with
        | .hole => true
        | .aliasTcm _ | .aliasSpad _ | .aliasSram _ => a.id.isNone || s.closedTo a pa'
        | .hbm d | .sram d | .spad d _ | .tcm d _ =>
          (s.reached a x cls pa).any (s.closedTo a) || (cls != 3 && a.bound < 4 && !s.samePart a.bound d)
        | .hub o => match apertureOf o with
            | some (n, _) => s.apertureShut n || (x.form == .sync && x.size != 8)
            | none => if x.form = .block then (enqueueWindow o).isNone else x.acc != 2 && x.size != 8
        | .bedrock => false
      if nomem then some 0x15
      else if x.acc == 2 && cls == 1 then some 0x16
      else match x.place with
        | none => none
        | some (lo, len, al) => if inRange (if al then pa' else pa) lo len then none else some 0x17

/-! ## Translation -/

/-- A translated address: the physical address, aliases resolved, and the class of its page. -/
structure Xl where
  pa : Nat
  cls : Nat
  deriving DecidableEq, Repr

/-- What holds translations for an agent (R290, R293; DEDUCED, log 34): the µTLB of its core and the TLB of its quad, that
of the quad alone for an operation, those of H for its agents and the operations that run on it; a dispatcher has none. -/
def Agent.units (a : Agent) : List TlbUnit :=
  if a.onHub then [.hub]
  else match a.id with
  | some id => if a.engine then [.quad (id.toNat / 16)] else [.core (id.toNat / 4), .quad (id.toNat / 16)]
  | none => if a.die = 4 then [.hub] else []

/-- The held entry that maps a page for an agent (R290). -/
def State.tlbFor (s : State) (a : Agent) (va : Nat) : Option TlbEntry :=
  s.tlb.find? fun e => a.units.contains e.unit && e.die == a.die
    && decide (e.vbase ≤ a.win.toNat * 2 ^ 64 + va) && decide (a.win.toNat * 2 ^ 64 + va < e.vbase + e.size)

/-- Sets A, and D for a write or an atomic (R282). -/
def withAD (acc e : Nat) : Nat := (BitVec.ofNat 64 e ||| (if acc = 1 ∨ acc = 2 then 0x300 else 0x100)).toNat

/-- An access under a leaf waits for a link: on its way from the agent, or on the walker's to the entry that it changes
(R472, R481). -/
def State.cutOff (s : State) (a : Agent) (x : Access) (pa : Nat) (l : Leaf) : Bool :=
  (s.reached a x (pteClass l.pte) pa).any (s.cut a.start) || (withAD x.acc l.pte != l.pte && s.cut a.die l.at_)

/-- Checks an access under a leaf and brings A and D up to date (R282): the same swap serves a walk and a held entry,
whose value in memory must still be the one held. -/
def State.useLeaf (s : State) (a : Agent) (x : Access) (va : Word) (l : Leaf) : Res Xl :=
  let pa := pteBase l.pte + va.toNat % l.size
  match s.protKind a x l.pte pa with
  | some k => .mem ⟨false, k, x.acc, 0xFF, va, a.win, l.size⟩ s
  | none =>
    if s.cutOff a x pa l then .wait s
    else
    let e' := withAD x.acc l.pte
    let s' := if e' = l.pte then s else
      { s with mem := s.mem.writeLe l.at_ 8 e'
               tlb := s.tlb.map fun t => if a.units.contains t.unit ∧ t.pteAt = l.at_ ∧ t.pte.toNat = l.pte then { t with pte := BitVec.ofNat 64 e' } else t }
    .ok ⟨match a.id with | some id => resolveAlias id pa | none => pa, pteClass l.pte⟩ s'

/-- Translates and checks one access (R280, R287, R289): by a held entry (R291), else by a walk. -/
def State.translate (s : State) (a : Agent) (x : Access) (va : Word) : Res Xl :=
  let byWalk : Res Xl := match s.walk a va.toNat with
    | .bad k lvl => .mem ⟨true, k, x.acc, BitVec.ofNat 8 lvl, va, a.win, 65536⟩ s
    | .waits => .wait s
    | .leaf l => s.useLeaf a x va l
  if !bitAt (vget s.hub.xlroot 0 a.die).toNat 0 then byWalk
  else match s.tlbFor a va.toNat with
    | none => byWalk
    | some e =>
      if withAD x.acc e.pte.toNat ≠ e.pte.toNat ∧ s.mem.readLe e.pteAt 8 ≠ e.pte.toNat then byWalk
      else s.useLeaf a x va ⟨e.pteAt, e.pte.toNat, e.size⟩

/-! ## Where accesses are performed -/

/-- The physical address an access reads: the replica of the agent's die on a REPLICATED page (R286). -/
def Agent.readAt (a : Agent) (x : Xl) : Nat :=
  if x.cls = 3 then (match a.id with | some id => idDie id | none => a.die) * 0x2000000000 + x.pa else x.pa

/-- The physical addresses an access writes (R286). -/
def State.writeAt (s : State) (a : Agent) (x : Xl) : List Nat :=
  if x.cls = 3 then (s.replicaDies a).map fun d => d * 0x2000000000 + x.pa else [x.pa]

/-- The ECC words that [pa, pa + n) touches, by their first address (R266): 64-byte atoms in the Bedrock window,
8 bytes in HBM, else 4. -/
def eccWords (pa n : Nat) : List Nat :=
  let w := match region pa with | .bedrock => 64 | .hbm _ => 8 | _ => 4
  (List.range ((pa + n - 1) / w + 1 - pa / w)).map fun i => (pa / w + i) * w

/-- The size of the ECC words of an address. -/
def eccSize (pa : Nat) : Nat := match region pa with | .bedrock => 64 | .hbm _ => 8 | _ => 4

/-- Whether any ECC word of [pa, pa + n) is uncorrectable (R275, R409, R452). -/
def State.isPoisoned (s : State) (pa n : Nat) : Bool :=
  (eccWords pa n).any fun w => s.memPoison.contains w || s.poisonAtoms.contains w

/-- After a write of [pa, pa + n): a word written whole by clean data is clean (R452); an atom only by one write of its
64 bytes (R409); poisoned data poisons every word it touches. -/
def State.markPoison (s : State) (pa n : Nat) (bad : Bool) : State :=
  match region pa with
  | .bedrock =>
    let whole := pa % 64 = 0 ∧ n = 64
    { s with poisonAtoms := if bad then (eccWords pa n).foldl (fun l w => insertNat w l) s.poisonAtoms
        else if whole then s.poisonAtoms.filter (· != pa) else s.poisonAtoms }
  | _ =>
    { s with memPoison := if bad then (eccWords pa n).foldl (fun l w => insertNat w l) s.memPoison
        else s.memPoison.filter fun w => !(decide (pa ≤ w) && decide (w + eccSize pa ≤ pa + n)) }

/-- The bytes of each atom that a write of `bytes` at `pa` touches (R402). -/
def splitAtoms (pa : Nat) (bytes : List Byte) : List (Nat × List Host.Cell) :=
  (List.range ((pa + bytes.length - 1) / 64 + 1 - pa / 64)).map fun i =>
    ((pa / 64 + i) * 64, (bytes.mapIdx fun j b => (pa + j, b)).filter fun c => c.1 / 64 == pa / 64 + i)

/-- A DURABLE write enters the ingress buffer: one persist unit for each atom (R399, R402). -/
def State.ingressWrite (s : State) (a : Agent) (pa : Nat) (bytes : List Byte) (bad : Bool) : State :=
  { s with ingress := s.ingress ++ (splitAtoms pa bytes).map fun p => ⟨p.1, p.2, a.tag, a.ctl, a.feeder, a.op, bad⟩ }

/-- Old values of bytes that the executing stream overwrites and may still fetch: of several stores to a byte before one IFENCE,
the value before the first (R29; DESIGN CHOICE, log 8). -/
def State.noteStale (s : State) (a : Agent) (pa n : Nat) : State :=
  if a.engine then s
  else s.setSt { s.st with stale := (List.range n).foldl (fun l i =>
    if l.any (·.1 == pa + i) then l else Sparse.ins l (pa + i) (s.mem.byte (pa + i))) s.st.stale }

/-- Writes bytes at one physical address of memory, at its home. -/
def State.putBytes (s : State) (a : Agent) (pa : Nat) (bytes : List Byte) (bad : Bool) : State :=
  let s1 := s.noteStale a pa bytes.length
  let s2 := { s1 with mem := s1.mem.setBytes pa bytes }
  let s3 := (s2.noteTables s (s2.enabled s pa bytes.length)).markPoison pa bytes.length bad
  match region pa with
  | .bedrock => s3.ingressWrite a pa bytes bad
  | _ => s3

/-- A store of `bytes` at a translated address (R289, R270, R529): memory, a hub register, an enqueue window or an
aperture. -/
def State.perform (s : State) (a : Agent) (x : Xl) (bytes : List Byte) (bad : Bool) : State :=
  match region x.pa with
  | .hub o =>
    match apertureOf o with
    | some (n, off) =>
      { s with
        outbox := ⟨.apertureWrite, [s.nextReq, n, (vget s.hub.hapbase 0 n).toNat + off, (vget s.hub.hapcfg 0 n).toNat],
          bytes.map (·.toNat)⟩ :: s.outbox
        nextReq := s.nextReq + 1 }
    | none =>
      match enqueueWindow o with
      | some (q, off) => s.windowWrite a q off bytes
      | none => match hubReg o with
        | some r => (hubWrite s a (leNat bytes) r).noteTables s fun _ => false
        | none => s
  | _ => (s.writeAt a x).foldl (fun t pa => t.putBytes a pa bytes bad) s

/-- Which agent of its hart executes (R323): 0 main scalar, 1 main vector, 2 feeder. -/
def State.who (s : State) : Nat := if s.onFeeder then 2 else if s.atHead then 1 else 0

/-- The aperture reads of a hart without those of an agent. -/
def Hart.dropAperture (h : Hart) (who : Nat) : Hart := { h with aperture := h.aperture.filter (·.who != who) }

/-- A hart without what an agent holds of an access that waits: the positions read, the responses, the positions checked. -/
def Hart.dropReads (h : Hart) (who : Nat) : Hart :=
  { h with aperture := h.aperture.filter (·.who != who)
           remoteData := h.remoteData.filter fun v => v.1 / 2 ^ 32 != who
           device := h.device.filter (·.who != who) }

/-- A read of an aperture (R529): the first execution sends the RDMA READ and waits; the one after the response
takes its value. -/
def State.apertureRead (s : State) (pa n off size : Nat) : Res Word :=
  match s.hart.aperture.find? (fun r => r.who == s.who && r.pa == pa && r.size == size) with
  | some r => match r.value with
    | some v => .ok (BitVec.ofNat 64 (v.toNat % 2 ^ (8 * size))) { s with hart := s.hart.dropAperture s.who }
    | none => .wait s
  | none => .wait
    { s with
      outbox := ⟨.apertureRead, [s.nextReq, n, (vget s.hub.hapbase 0 n).toNat + off, (vget s.hub.hapcfg 0 n).toNat, size], []⟩
        :: s.outbox
      hart := { s.hart with aperture := (s.hart.dropAperture s.who).aperture ++ [⟨s.who, s.nextReq, pa, size, none⟩] }
      nextReq := s.nextReq + 1 }

/-- A read of `size` bytes at a translated address. -/
def State.fetchValue (s : State) (a : Agent) (x : Xl) (size : Nat) : Res Word :=
  match region x.pa with
  | .hub o =>
    match apertureOf o with
    | some (n, off) => s.apertureRead x.pa n off size
    | none =>
      match enqueueWindow o with
      | some (q, off) => .ok ((s.queue q).counter off) s
      | none => match hubReg o with
        | some r => .ok (hubRead s a r) s
        | none => .ok 0 s
  | _ => .ok (BitVec.ofNat 64 (s.mem.readLe (a.readAt x) size)) s

/-! ## DEVICE accesses under way (R285, R308, R529) -/

/-- The DEVICE access that the executing agent has under way: its positions, translated and checked. -/
def State.kept (s : State) : Option (List ((Nat × Nat) × Xl)) :=
  (s.hart.device.find? (·.who == s.who)).map fun d => d.places.map fun p => (p.1, ⟨p.2.1, p.2.2⟩)

/-- Keeps the positions of a DEVICE access that waits for a response: they are checked once (R285). -/
def State.keep (s : State) (l : List ((Nat × Nat) × Xl)) : State :=
  if s.hart.device.any (·.who == s.who) ∨ l.all (·.2.cls != 1) then s
  else { s with hart := { s.hart with device := s.hart.device ++ [⟨s.who, l.map fun p => (p.1, p.2.pa, p.2.cls)⟩] } }

/-- The access of the executing agent has ended: nothing of it is held any longer. -/
def State.dropReads (s : State) : State := { s with hart := s.hart.dropReads s.who }

/-- Reads one translated location, which is kept while a response is out. -/
def State.readKept (s : State) (x : Xl) (n : Nat) : Res Word :=
  match s.fetchValue s.agent x n with
  | .ok v s1 => .ok v s1.dropReads
  | .wait s1 => .wait (s1.keep [((0, 0), x)])
  | r => r

/-! ## Scalar atomics (R94) -/

/-- The value written, if any, of the old value, the operand and g[d] at the width. -/
def AmoOp.apply (o : AmoOp) (w x y e : Nat) : Option Nat :=
  match o with
  | .add => some (x + y)
  | .swp => some y
  | .cas => if x = e then some y else none
  | .and => some (x &&& y)
  | .or => some (x ||| y)
  | .xor => some (x ^^^ y)
  | .min => some (if sextN w x ≤ sextN w y then x else y)
  | .max => some (if sextN w y ≤ sextN w x then x else y)
  | .minu => some (if x ≤ y then x else y)
  | .maxu => some (if y ≤ x then x else y)

/-- See `AmoOp.apply`. -/
def Amo.next (m : Amo) (old : Word) : Option Nat :=
  m.op.apply (8 * m.size) old.toNat (m.b.toNat % 2 ^ (8 * m.size)) (m.d.toNat % 2 ^ (8 * m.size))

/-- An indivisible read-modify-write at a translated address (R275, R286): the old value; `f` gives the new one, or
none for no write. -/
def State.rmwAt (s : State) (a : Agent) (x : Xl) (n : Nat) (f : Word → Option Nat) : Word × State :=
  let pa := a.readAt x
  let old : Word := BitVec.ofNat 64 (s.mem.readLe pa n)
  match f old with
  | none => (old, s)
  | some v => (old, s.putBytes a pa (toLe n v) (s.isPoisoned pa n))

/-- A g destination takes poisoned data of memory: UNCORR counts the word, a POISON record is written (R452, R457). -/
def State.poisonLoad (s : State) (pc : Word) (word : Nat) : State := (s.count s.hart.die 1 1).poisonScalar pc word

/-- Performs an atomic of the executing stream: the value for g[d], and the state. -/
def State.amoAt (s : State) (x : Xl) (m : Amo) : Word × State :=
  let r := s.rmwAt s.agent x m.size m.next
  (sextW (8 * m.size) r.1, if s.isPoisoned (s.agent.readAt x) m.size then r.2.poisonLoad m.pc m.word else r.2)

/-! ## Stores and atomics that wait (R326, R327; DESIGN CHOICE, log 7) -/

/-- Memory as the main scalar agent reads it: with its own stores that are not performed. -/
def State.ownMem (s : State) : Mem :=
  if s.onFeeder ∨ s.hart.late = [] then s.mem
  else s.hart.late.foldl (fun m l => (s.writeAt s.agent ⟨l.pa, l.cls⟩).foldl (fun m pa => m.setBytes pa l.bytes) m) s.mem

/-- Performs what waited. -/
def State.performLate (s : State) (l : LateStore) : State :=
  match l.amo with
  | none => s.perform s.agent ⟨l.pa, l.cls⟩ l.bytes false
  | some m => let r := s.amoAt ⟨l.pa, l.cls⟩ m; r.2.setSt (r.2.st.wr m.dest r.1)

/-- Performs the stores and atomics of the main scalar agent that wait, in their order. -/
def State.settle (s : State) : State :=
  if s.hart.late = [] then s
  else
    let t := s.hart.late.foldl State.performLate
      { s with onFeeder := false, atHead := false, hart := { s.hart with late := [] } }
    { t with onFeeder := s.onFeeder, atHead := s.atHead }

/-- Performs what waits in the harts that `p` picks. -/
def State.settleWhere (s : State) (p : Hart → Bool) : State :=
  (s.allHarts.filter fun h => p h && !h.isControl && h.late != []).foldl (fun t h => t.asHart h.tag State.settle) s

/-- The main scalar agent's accesses that wait are performed; the feeder has none. -/
def State.settleMine (s : State) : State := if s.onFeeder then s else s.settle

/-- Whether a store or an atomic may wait: of the main scalar agent of a hart, to memory. -/
def State.mayWait (s : State) (x : Xl) : Bool :=
  s.hold && !s.onFeeder && !s.hart.isControl && (match region x.pa with | .hub _ => false | _ => true)

/-- Joins what waits. -/
def State.waitBehind (s : State) (x : Xl) (bytes : List Byte) (m : Option Amo) : State :=
  { s with hart := { s.hart with late := s.hart.late ++ [⟨x.pa, x.cls, bytes, m, false⟩] } }

/-- Whether something that waits touches [pa, pa + n). -/
def State.lateMeets (s : State) (pa n : Nat) (l : LateStore) : Bool :=
  let size := match l.amo with | some m => m.size | none => l.bytes.length
  (s.writeAt s.agent ⟨l.pa, l.cls⟩).any fun q => decide (q < pa + n) && decide (pa < q + size)

/-- Before the main scalar agent reads [pa, pa + n): what waits is performed first where it is an atomic there, or the word is
uncorrectable. -/
def State.beforeRead (s : State) (pa n : Nat) : State :=
  if s.onFeeder = false ∧ s.hart.late.any (fun l => (l.amo.isSome || s.isPoisoned pa n) && s.lateMeets pa n l) then s.settle else s

/-- Marks the stores that wait and that a read of [pa, pa + n) takes its value from. -/
def State.markRead (s : State) (pa n : Nat) : State :=
  if s.onFeeder ∨ s.hart.late = [] then s
  else { s with hart := { s.hart with late := s.hart.late.map fun l => if s.lateMeets pa n l then { l with read := true } else l } }

/-! ## Accesses of an agent -/

/-- mem_read(a, n) without the alignment check (R289); the value is zero-extended. -/
def State.readVa (s : State) (a : Agent) (va : Word) (n : Nat) : Res Word :=
  (s.translate a (.plain 0 n) va).bind fun x s => s.fetchValue a x n

/-- mem_write(a, n, v) without the alignment check. -/
def State.writeVa (s : State) (a : Agent) (va : Word) (n : Nat) (v : Nat) : Res Unit :=
  (s.translate a (.plain 1 n) va).bind fun x s => .ok () (s.perform a x (toLe n v) false)

/-- The alignment check of R26 before a scalar access. -/
def aligned {α : Type} (va : Word) (n : Nat) (s : State) (r : Res α) : Res α :=
  if va.toNat % n ≠ 0 then .trap .misalign va s else r

/-- A scalar load of a form (R26, R289), with the POISON record of R452. The agent reads its own stores (R326). -/
def State.loadAs (s : State) (x : Access) (word : Nat) (va : Word) : Res Word :=
  let go := fun (y : Xl) (s : State) =>
    let pa := s.agent.readAt y
    ((s.beforeRead pa x.size).readKept y x.size).bind fun v s =>
      let v' := match region y.pa with
        | .hub _ => v
        | _ => if s.hart.late = [] then v else BitVec.ofNat 64 (s.ownMem.readLe pa x.size)
      .ok v' ((if s.isPoisoned pa x.size then s.poisonLoad (trapEpc 0 s.st) word else s).markRead pa x.size)
  aligned va x.size s <| match s.kept with
    | some ((_, y) :: _) => go y s
    | _ => (s.translate s.agent x va).bind go

/-- A scalar load of the executing stream. -/
def State.load (s : State) (word : Nat) (va : Word) (n : Nat) : Res Word := s.loadAs (.plain 0 n) word va

/-- A scalar store of a form (R26, R289): performed behind those that wait, or waiting with them where it may be `late`. -/
def State.storeAs (s : State) (x : Access) (va v : Word) (late : Bool) : Res Unit :=
  aligned va x.size s <| (s.translate s.agent x va).bind fun y s =>
    if late ∧ s.mayWait y then .ok () (s.waitBehind y (toLe x.size v.toNat) none)
    else
      let s1 := s.settleMine
      .ok () (s1.perform s1.agent y (toLe x.size v.toNat) false)

/-- A scalar store of the executing stream (R26, R289). -/
def State.store (s : State) (va : Word) (n : Nat) (v : Word) : Res Unit := s.storeAs (.plain 1 n) va v true

/-- A scalar atomic of the executing stream (R26, R289), with the POISON record of R452: the value for g[d], or none while it
waits, which it may do where it may be `late`. -/
def State.atomic (s : State) (va : Word) (m : Amo) (late : Bool) : Res (Option Word) :=
  aligned va m.size s <| (s.translate s.agent (.plain 2 m.size) va).bind fun x s0 =>
    if late ∧ s0.mayWait x then .ok none (s0.waitBehind x [] (some m))
    else
      let r := s0.settleMine.amoAt x m
      .ok (some r.1) r.2

end Sys2Proof.Machine
end

