-- ==== Sys2Proof/Machine/Flags.lean ====
section
/-! DEFINITION. The floating-point flags (spec/01 R17), the rounding modes (R18) and the one rounding of an exact value
(R37, spec/04 R123, R127). -/

namespace Sys2Proof.Machine

/-- The flags of FCSR[14:8]. -/
abbrev Flags := BitVec 7

/-- Invalid operation. -/
def flagNV : Flags := 0x40
/-- Division by zero. -/
def flagDZ : Flags := 0x20
/-- Overflow. -/
def flagOF : Flags := 0x10
/-- Underflow. -/
def flagUF : Flags := 0x08
/-- Inexact. -/
def flagNX : Flags := 0x04
/-- A sub-block conversion truncated. -/
def flagMT : Flags := 0x02
/-- A contribution fell below the accumulator window. -/
def flagML : Flags := 0x01

/-- A flag when a condition holds. -/
def flagIf (b : Bool) (f : Flags) : Flags := if b then f else 0

/-- The rounding modes (R18). -/
inductive Rm where
  | rne | rmm | rtz | rup | rdn
  deriving DecidableEq, Repr

/-- The mode of a code; codes that R18 reserves do not reach a rounding (R38). -/
def Rm.ofCode (n : Nat) : Rm :=
  match n with
  | 2 => .rmm
  | 3 => .rtz
  | 4 => .rup
  | 5 => .rdn
  | _ => .rne

/-- The mode of an instruction's RM field: 0 is the dynamic mode (R18). -/
def rmOf (field : Nat) (dyn : BitVec 3) : Rm := Rm.ofCode (if field = 0 then dyn.toNat else field)

/-- Whether a magnitude between two neighbours goes up: its sign, whether the lower neighbour is odd, and the
discarded part `rem` out of `2 * half` with `sticky` below it. -/
def roundsUp (rm : Rm) (neg odd : Bool) (rem half : Nat) (sticky : Bool) : Bool :=
  match rm with
  | .rne => decide (half < rem) || (rem == half && (sticky || odd))
  | .rmm => decide (half ≤ rem)
  | .rtz => false
  | .rup => !neg && (rem != 0 || sticky)
  | .rdn => neg && (rem != 0 || sticky)

/-- An exact magnitude mag * 2^exp, or between it and (mag + 1) * 2^exp when `sticky`. -/
structure Exact where
  neg : Bool
  mag : Nat
  exp : Int
  sticky : Bool
  deriving DecidableEq, Repr

/-- The multiple of 2^k that an exact value rounds to, as the multiplier, and whether it is inexact. -/
def Exact.roundAt (x : Exact) (rm : Rm) (k : Int) : Nat × Bool :=
  if k ≤ x.exp then (x.mag * 2 ^ (x.exp - k).toNat, x.sticky)
  else
    let sh := (k - x.exp).toNat
    let lo := x.mag / 2 ^ sh
    let rem := x.mag % 2 ^ sh
    (if roundsUp rm x.neg (lo % 2 == 1) rem (2 ^ (sh - 1)) x.sticky then lo + 1 else lo, rem != 0 || x.sticky)

/-- A floating-point format (R117). -/
structure Fmt where
  width : Nat
  frac : Nat
  bias : Nat
  /-- encoding of the largest finite magnitude -/
  maxBits : Nat
  /-- encoding of +∞, if the format has one -/
  inf : Option Nat
  /-- the canonical NaN, if the format has NaNs -/
  nan : Option Nat
  deriving DecidableEq, Repr

/-- binary64. -/
def fmtF64 : Fmt := ⟨64, 52, 1023, 0x7FEFFFFFFFFFFFFF, some 0x7FF0000000000000, some 0x7FF8000000000000⟩
/-- binary32. -/
def fmtF32 : Fmt := ⟨32, 23, 127, 0x7F7FFFFF, some 0x7F800000, some 0x7FC00000⟩
/-- binary16. -/
def fmtF16 : Fmt := ⟨16, 10, 15, 0x7BFF, some 0x7C00, some 0x7E00⟩
/-- bfloat16. -/
def fmtBf16 : Fmt := ⟨16, 7, 127, 0x7F7F, some 0x7F80, some 0x7FC0⟩
/-- E4M3. -/
def fmtE4m3 : Fmt := ⟨8, 3, 7, 0x7E, none, some 0x7F⟩
/-- E5M2. -/
def fmtE5m2 : Fmt := ⟨8, 2, 15, 0x7B, some 0x7C, some 0x7E⟩
/-- E2M1. -/
def fmtE2m1 : Fmt := ⟨4, 1, 1, 0x7, none, none⟩

/-- The format of a T code (R51). -/
def fmtOf (t : Nat) : Fmt :=
  match t with
  | 0 => fmtF64
  | 1 => fmtF32
  | 2 => fmtF16
  | _ => fmtBf16

/-- The sign bit of a format. -/
def Fmt.signBit (f : Fmt) : Nat := 2 ^ (f.width - 1)

/-- Encoding of a magnitude with a sign. -/
def Fmt.signed (f : Fmt) (neg : Bool) (bits : Nat) : Nat := if neg then f.signBit + bits else bits

/-- The canonical NaN (R119). -/
def Fmt.canon (f : Fmt) : Nat := f.nan.getD 0

/-- What overflow delivers (R123); a format without ∞ saturates (R127). -/
def Fmt.overflow (f : Fmt) (rm : Rm) (neg : Bool) : Nat :=
  match f.inf with
  | none => f.maxBits
  | some i => match rm with
    | .rne | .rmm => i
    | .rtz => f.maxBits
    | .rdn => if neg then i else f.maxBits
    | .rup => if neg then f.maxBits else i

/-- round_to of an exact finite value (R37, R123): the bits and the flags. -/
def Fmt.round (f : Fmt) (rm : Rm) (x : Exact) : Nat × Flags :=
  if x.mag = 0 ∧ x.sticky = false then (f.signed x.neg 0, 0)
  else
    let emin : Int := 1 - (f.bias : Int)
    let l : Int := (Nat.log2 x.mag : Int) + x.exp
    let kmin : Int := emin - f.frac
    let k := max (l - f.frac) kmin
    let n := x.roundAt rm k
    let u := x.roundAt rm (l - f.frac)
    let bits := (k - kmin).toNat * 2 ^ f.frac + n.1
    if f.maxBits < bits then (f.signed x.neg (f.overflow rm x.neg), flagOF ||| flagNX)
    else
      let tiny := decide ((Nat.log2 u.1 : Int) + (l - f.frac) < emin)
      (f.signed x.neg bits, flagIf n.2 flagNX ||| flagIf (n.2 && tiny) flagUF)

end Sys2Proof.Machine
end

