-- ==== Sys2Proof/Machine/Formats.lean ====
section
/-! DEFINITION. The number formats and the floating-point operations on their bits (spec/04 R117-R127, R135-R138), the
microscaling blocks (R120, R121) and the exact accumulators (R128-R133). -/

namespace Sys2Proof.Machine

/-- The value of an encoding. -/
inductive FVal where
  | nan (signalling : Bool)
  | inf (neg : Bool)
  | fin (neg : Bool) (mag : Nat) (exp : Int)
  deriving DecidableEq, Repr

/-- Reads the low bits of a number in a format (R116-R118). -/
def Fmt.read (f : Fmt) (w : Nat) : FVal :=
  let b := w % 2 ^ f.width
  let neg := decide (f.signBit ≤ b)
  let m := b % f.signBit
  if m ≤ f.maxBits then
    let e := m / 2 ^ f.frac
    let fr := m % 2 ^ f.frac
    if e = 0 then .fin neg fr (1 - (f.bias : Int) - f.frac)
    else .fin neg (2 ^ f.frac + fr) ((e : Int) - f.bias - f.frac)
  else if f.inf = some m then .inf neg
  else .nan (f.inf.isSome && decide (m % 2 ^ f.frac < 2 ^ (f.frac - 1)))

/-- Whether a value is a NaN. -/
def FVal.isNan : FVal → Bool
  | .nan _ => true
  | _ => false
/-- Whether a value is a signalling NaN. -/
def FVal.isSnan : FVal → Bool
  | .nan s => s
  | _ => false
/-- Whether a value is ±0. -/
def FVal.isZero : FVal → Bool
  | .fin _ m _ => m == 0
  | _ => false
/-- The sign of a value; a NaN counts as positive. -/
def FVal.sign : FVal → Bool
  | .nan _ => false
  | .inf n => n
  | .fin n _ _ => n
/-- The value with its sign changed. -/
def FVal.neg : FVal → FVal
  | .nan s => .nan s
  | .inf n => .inf !n
  | .fin n m e => .fin (!n) m e

/-- The exact sum of two finite values as an integer over a power of two. -/
def exactSum (n1 : Bool) (m1 : Nat) (e1 : Int) (n2 : Bool) (m2 : Nat) (e2 : Int) : Int × Int :=
  let e := min e1 e2
  let a : Int := (m1 * 2 ^ (e1 - e).toNat : Nat)
  let b : Int := (m2 * 2 ^ (e2 - e).toNat : Nat)
  ((if n1 then -a else a) + (if n2 then -b else b), e)

/-- An integer over a power of two, as an exact value. -/
def Exact.ofInt (i e : Int) : Exact := ⟨decide (i < 0), i.natAbs, e, false⟩

/-- The canonical NaN, with NV when a condition holds. -/
def Fmt.invalid (f : Fmt) (nv : Bool) : Nat × Flags := (f.canon, flagIf nv flagNV)

/-- round_to(x + y) for operands that are no NaN (R123, R124, R135). -/
def Fmt.addVal (f : Fmt) (rm : Rm) (x y : FVal) : Nat × Flags :=
  match x, y with
  | .inf a, .inf b => if a = b then (f.signed a (f.inf.getD 0), 0) else f.invalid true
  | .inf a, _ => (f.signed a (f.inf.getD 0), 0)
  | _, .inf b => (f.signed b (f.inf.getD 0), 0)
  | .fin n1 m1 e1, .fin n2 m2 e2 =>
    let s := exactSum n1 m1 e1 n2 m2 e2
    if s.1 = 0 then (f.signed (if n1 = n2 then n1 else rm == .rdn) 0, 0) else f.round rm (.ofInt s.1 s.2)
  | _, _ => f.invalid false

/-- FADD (R135). -/
def Fmt.add (f : Fmt) (rm : Rm) (a b : Nat) : Nat × Flags :=
  let x := f.read a
  let y := f.read b
  if x.isNan ∨ y.isNan then f.invalid (x.isSnan || y.isSnan) else f.addVal rm x y

/-- FSUB (R135). -/
def Fmt.sub (f : Fmt) (rm : Rm) (a b : Nat) : Nat × Flags :=
  let x := f.read a
  let y := f.read b
  if x.isNan ∨ y.isNan then f.invalid (x.isSnan || y.isSnan) else f.addVal rm x y.neg

/-- The exact product of two values that are no NaN; none for 0 times ∞. -/
def mulVal (x y : FVal) : Option FVal :=
  match x, y with
  | .inf a, .inf b => some (.inf (a != b))
  | .inf a, .fin n m _ => if m = 0 then none else some (.inf (a != n))
  | .fin n m _, .inf b => if m = 0 then none else some (.inf (n != b))
  | .fin n1 m1 e1, .fin n2 m2 e2 => some (.fin (n1 != n2) (m1 * m2) (e1 + e2))
  | _, _ => none

/-- FMUL (R135). -/
def Fmt.mul (f : Fmt) (rm : Rm) (a b : Nat) : Nat × Flags :=
  let x := f.read a
  let y := f.read b
  if x.isNan ∨ y.isNan then f.invalid (x.isSnan || y.isSnan)
  else match mulVal x y with
    | none => f.invalid true
    | some (.inf n) => (f.signed n (f.inf.getD 0), 0)
    | some (.fin n m e) => f.round rm ⟨n, m, e, false⟩
    | some (.nan _) => f.invalid false

/-- round_to(±(x * y) ± z) (R135): `np` negates the product, `nz` the addend. -/
def Fmt.fma (f : Fmt) (rm : Rm) (np nz : Bool) (a b c : Nat) : Nat × Flags :=
  let x := f.read a
  let y := f.read b
  let z := f.read c
  let snan := x.isSnan || y.isSnan || z.isSnan
  if x.isNan ∨ y.isNan then f.invalid snan
  else match mulVal x y with
    | none => f.invalid true
    | some p =>
      if z.isNan then f.invalid snan
      else f.addVal rm (if np then p.neg else p) (if nz then z.neg else z)

/-- FDIV (R135). -/
def Fmt.div (f : Fmt) (rm : Rm) (a b : Nat) : Nat × Flags :=
  let x := f.read a
  let y := f.read b
  if x.isNan ∨ y.isNan then f.invalid (x.isSnan || y.isSnan)
  else match x, y with
    | .inf _, .inf _ => f.invalid true
    | .inf p, _ => (f.signed (p != y.sign) (f.inf.getD 0), 0)
    | _, .inf q => (f.signed (x.sign != q) 0, 0)
    | .fin p mx ex, .fin q my ey =>
      if my = 0 then
        if mx = 0 then f.invalid true else (f.signed (p != q) (f.inf.getD 0), flagDZ)
      else if mx = 0 then (f.signed (p != q) 0, 0)
      else
        let sh := f.frac + 4 + Nat.log2 my
        let n := mx * 2 ^ sh
        f.round rm ⟨p != q, n / my, ex - ey - sh, n % my != 0⟩
    | _, _ => f.invalid false

/-- The integer square root, bit by bit from bit `k - 1` down. -/
def isqrt (n : Nat) : Nat → Nat → Nat
  | 0, r => r
  | k + 1, r => isqrt n k (if (r + 2 ^ k) * (r + 2 ^ k) ≤ n then r + 2 ^ k else r)

/-- FSQRT (R135). -/
def Fmt.sqrt (f : Fmt) (rm : Rm) (a : Nat) : Nat × Flags :=
  match f.read a with
  | .nan s => f.invalid s
  | .inf n => if n then f.invalid true else (f.inf.getD 0, 0)
  | .fin n m e =>
    if m = 0 then (f.signed n 0, 0)
    else if n then f.invalid true
    else
      let sh := 2 * f.frac + 6 + (e % 2).toNat
      let x := m * 2 ^ sh
      let r := isqrt x (Nat.log2 x / 2 + 1) 0
      f.round rm ⟨false, r, (e - sh) / 2, r * r != x⟩

/-! ## Comparisons -/

/-- The order of two values that are no NaN, -0 equal to +0. -/
def cmpVal (x y : FVal) : Ordering :=
  match x, y with
  | .inf a, .inf b => if a = b then .eq else if a then .lt else .gt
  | .inf a, _ => if a then .lt else .gt
  | _, .inf b => if b then .gt else .lt
  | .fin n1 m1 e1, .fin n2 m2 e2 =>
    let s := (exactSum n1 m1 e1 (!n2) m2 e2).1
    if s < 0 then .lt else if s = 0 then .eq else .gt
  | _, _ => .eq

/-- FEQ FLT FLE FUNORD by code 0-3 (R136): the result and the flags. -/
def Fmt.compare (f : Fmt) (code a b : Nat) : Bool × Flags :=
  let x := f.read a
  let y := f.read b
  let nan := x.isNan || y.isNan
  let snan := flagIf (x.isSnan || y.isSnan) flagNV
  match code with
  | 0 => (!nan && cmpVal x y == .eq, snan)
  | 1 => (!nan && cmpVal x y == .lt, flagIf nan flagNV)
  | 2 => (!nan && cmpVal x y != .gt, flagIf nan flagNV)
  | _ => (nan, snan)

/-- Whether x stands below y, -0 below +0 (R125). -/
def below (x y : FVal) : Bool :=
  match cmpVal x y with
  | .lt => true
  | .gt => false
  | .eq => x.sign && !y.sign

/-- FMIN and FMAX (R125). -/
def Fmt.minmax (f : Fmt) (isMax : Bool) (a b : Nat) : Nat × Flags :=
  let x := f.read a
  let y := f.read b
  let fl := flagIf (x.isSnan || y.isSnan) flagNV
  let a' := a % 2 ^ f.width
  let b' := b % 2 ^ f.width
  if x.isNan ∧ y.isNan then (f.canon, fl)
  else if x.isNan then (b', fl)
  else if y.isNan then (a', fl)
  else if below x y then (if isMax then b' else a', fl) else (if isMax then a' else b', fl)

/-- FCLASS (R137). -/
def Fmt.classify (f : Fmt) (a : Nat) : Nat :=
  let s := if bitAt a (f.width - 1) then 1 else 0
  match f.read a with
  | .nan sg => 32 + (if sg then 4 else 5) * 2 + s
  | .inf _ => 3 * 2 + s
  | .fin _ m _ => 16 + (if m = 0 then 0 else if m < 2 ^ f.frac then 1 else 2) * 2 + s

/-- FSIGN (R138): the value with the sign its rule gives. -/
def Fmt.withSign (f : Fmt) (rule a b : Nat) : Nat :=
  let x := bitAt a (f.width - 1)
  let y := bitAt b (f.width - 1)
  let s := match rule with
    | 0 => y
    | 1 => !y
    | 2 => x != y
    | 3 => false
    | _ => !x
  f.signed s (a % f.signBit)

/-! ## Conversions -/

/-- A value rounded to an integer, and whether that is inexact. -/
def roundInt (rm : Rm) (neg : Bool) (m : Nat) (e : Int) : Int × Bool :=
  let r := (Exact.mk neg m e false).roundAt rm 0
  (if neg then -(r.1 : Int) else (r.1 : Int), r.2)

/-- Floating point to an integer of `n` bits (R126), as a number of n bits. -/
def Fmt.toInt (f : Fmt) (rm : Rm) (signed : Bool) (n a : Nat) : Nat × Flags :=
  let top := if signed then 2 ^ (n - 1) - 1 else 2 ^ n - 1
  let bot : Int := if signed then -(2 ^ (n - 1) : Nat) else 0
  match f.read a with
  | .nan _ => (top, flagNV)
  | .inf neg => (if neg then lowBits n bot else top, flagNV)
  | .fin neg m e =>
    let r := roundInt rm neg m e
    if r.1 < bot then (lowBits n bot, flagNV)
    else if (top : Int) < r.1 then (top, flagNV)
    else (lowBits n r.1, flagIf r.2 flagNX)

/-- An integer to floating point (R126). -/
def Fmt.ofInt (f : Fmt) (rm : Rm) (i : Int) : Nat × Flags := f.round rm (.ofInt i 0)

/-- One floating-point format to another (R127). -/
def Fmt.convert (src dst : Fmt) (rm : Rm) (a : Nat) : Nat × Flags :=
  match src.read a with
  | .nan s => dst.invalid s
  | .inf n => match dst.inf with
    | some i => (dst.signed n i, 0)
    | none => (dst.signed n dst.maxBits, flagNV)
  | .fin n m e => dst.round rm ⟨n, m, e, false⟩

/-! ## Microscaling (R120, R121) -/

/-- The element formats of MX blocks. -/
inductive MxFmt where
  | e2m1 | e4m3 | int8
  deriving DecidableEq, Repr

/-- emax (R121). -/
def MxFmt.emax : MxFmt → Int
  | .e2m1 => 2
  | .e4m3 => 8
  | .int8 => 0

/-- The value of an element code. -/
def MxFmt.read (k : MxFmt) (b : Nat) : FVal :=
  match k with
  | .e2m1 => fmtE2m1.read b
  | .e4m3 => fmtE4m3.read b
  | .int8 => let i := sextN 8 b; .fin (decide (i < 0)) i.natAbs (-6)

/-- Rounds x / 2^e to an element, RNE, saturating: the code, and whether it differs (R121). -/
def MxFmt.encode (k : MxFmt) (n : Bool) (m : Nat) (e : Int) : Nat × Bool :=
  match k with
  | .e2m1 => let r := fmtE2m1.round .rne ⟨n, m, e, false⟩; (r.1, r.2 &&& flagNX != 0)
  | .e4m3 => let r := fmtE4m3.round .rne ⟨n, m, e, false⟩; (r.1, r.2 &&& flagNX != 0)
  | .int8 =>
    let r := (Exact.mk n m (e + 6) false).roundAt .rne 0
    (lowBits 8 (if n then -((min r.1 127 : Nat) : Int) else ((min r.1 127 : Nat) : Int)), r.2 || decide (127 < r.1))

/-- floor(log2 |x|) of a finite nonzero value. -/
def ilog (m : Nat) (e : Int) : Int := (Nat.log2 m : Int) + e

/-- The largest floor(log2 |x|) of the finite nonzero values of a list. -/
def maxIlog (l : List FVal) : Option Int :=
  l.foldl (fun acc v => match v with
    | .fin _ m e => if m = 0 then acc else match acc with
      | none => some (ilog m e)
      | some a => some (max a (ilog m e))
    | _ => acc) none

/-- An encoded block: scale, elements, which elements differ, and whether it is a NaN block. -/
structure MxBlock where
  scale : Nat
  elems : List Nat
  inexact : List Bool
  isNan : Bool
  deriving DecidableEq, Repr

/-- Converts a block of values (R121). -/
def MxFmt.encodeBlock (k : MxFmt) (l : List FVal) : MxBlock :=
  if l.any (fun v => match v with | .fin _ _ _ => false | _ => true) then ⟨0xFF, l.map fun _ => 0, l.map fun _ => false, true⟩
  else match maxIlog l with
    | none => ⟨0x7F, l.map fun _ => 0, l.map fun _ => false, false⟩
    | some g =>
      let e := min (max (g - k.emax) (-127)) 127
      let r := l.map fun v => match v with
        | .fin n m x => k.encode n m (x - e)
        | _ => (0, false)
      ⟨(e + 127).toNat, r.map (·.1), r.map (·.2), false⟩

/-- The exact value of an element under an E8M0 scale; a scale of 0xFF decodes as NaN (R120). -/
def MxFmt.decode (k : MxFmt) (scale b : Nat) : FVal :=
  if scale % 256 = 255 then .nan false
  else match k.read b with
    | .fin n m e => .fin n m (e + (scale % 256 : Nat) - 127)
    | v => v

/-! ## Exact accumulators -/

/-- The change of a special state (R130) by a non-finite term: whether it is a NaN, or the sign of an ∞; with NV where
the state becomes BOTH. -/
def joinSpecial (s : Special) (t : Option Bool) : Special × Flags :=
  match s, t with
  | .nan, _ => (.nan, 0)
  | _, none => (.nan, 0)
  | .none, some n => (if n then .ninf else .pinf, 0)
  | .pinf, some n => if n then (.both, flagNV) else (.pinf, 0)
  | .ninf, some n => if n then (.ninf, 0) else (.both, flagNV)
  | .both, some _ => (.both, 0)

/-- The change of a special state by the product of two values, of which one is not finite (R130). -/
def specialProduct (s : Special) (x y : FVal) : Special × Flags :=
  if x.isNan ∨ y.isNan then ((joinSpecial s none).1, flagIf (x.isSnan || y.isSnan) flagNV)
  else match mulVal x y with
    | none => ((joinSpecial s none).1, flagNV)
    | some (.inf n) => joinSpecial s (some n)
    | some _ => (s, 0)

/-- The change of a special state by a term that is not finite (R130). -/
def specialTerm (s : Special) (x : FVal) : Special × Flags :=
  match x with
  | .nan sg => ((joinSpecial s none).1, flagIf sg flagNV)
  | .inf n => joinSpecial s (some n)
  | .fin _ _ _ => (s, 0)

/-- Readout of an exact value with a special state (R133). -/
def Fmt.readout (f : Fmt) (rm : Rm) (sp : Special) (mant exp : Int) : Nat × Flags :=
  match sp with
  | .nan | .both => (f.canon, 0)
  | .pinf => (f.inf.getD f.maxBits, 0)
  | .ninf => (f.signed true (f.inf.getD f.maxBits), 0)
  | .none => if mant = 0 then (f.signed (rm == .rdn) 0, 0) else f.round rm (.ofInt mant exp)

end Sys2Proof.Machine
end

