-- ==== Sys2Proof/Machine/Operands.lean ====
section
/-! DEFINITION. The operand forms of vector instructions (spec/05 R150-R161, spec/06 R169, R171): the configuration taken
at issue, elements, masks, the position classes of R156 and poison (spec/19 R452). -/

namespace Sys2Proof.Machine

/-- What a vector instruction takes at issue (R162), with the granted width in force. -/
structure VCfg where
  /-- SEW code: an element is 2^sew bytes -/
  sew : Nat
  lmul : Nat
  alt : Bool
  tp : Bool
  mp : Bool
  vl : Nat
  rc : Nat
  vrow : Nat
  velem : Nat
  g : Nat
  rm : Rm
  pfx : Option (BitVec 25)
  deriving DecidableEq, Repr

/-- Element bytes. -/
def VCfg.b (c : VCfg) : Nat := 2 ^ c.sew
/-- Element bits. -/
def VCfg.bits (c : VCfg) : Nat := 8 * 2 ^ c.sew

/-- LMUL of a VTYPE (R153). -/
def vtypeLmul (t : BitVec 8) : Nat := 2 ^ (t.toNat / 64)
/-- SEW code of a VTYPE. -/
def vtypeSew (t : BitVec 8) : Nat := t.toNat / 16 % 4

/-- The configuration of an entry on its hart. -/
def VCfg.of (h : Hart) (e : VEntry) : VCfg where
  sew := vtypeSew e.vtype
  lmul := vtypeLmul e.vtype
  alt := e.vtype.getLsbD 3
  tp := e.vtype.getLsbD 1
  mp := e.vtype.getLsbD 0
  vl := e.vl.toNat
  rc := e.rc.toNat
  vrow := e.vstart.toNat / 65536
  velem := e.vstart.toNat % 65536
  g := h.main.grant
  rm := Rm.ofCode h.main.rm.toNat
  pfx := e.pfx

/-- CAP of a die (R158, R533). -/
def State.cap (s : State) (d : Nat) : Nat := (vget s.hub.pwrCap 8 d).toNat
/-- The width that a stream's next VSET or STRIP applies (R158). -/
def State.pendWidth (s : State) (h : Hart) : Nat := min h.share (min (s.cap h.die) h.lv)
/-- VLMAX under a VTYPE and a width (R158). -/
def vlmaxOf (t : BitVec 8) (g ceiling : Nat) : Nat :=
  let m := 8 * g * (24 / 2 ^ vtypeSew t) * vtypeLmul t
  if ceiling = 0 then m else min m ceiling

/-! ## Elements (R151) -/

/-- Key of byte `o` of row `r` of vn. -/
def vKey (n r o : Nat) : Nat := (n * 8 + r) * 2048 + o
/-- Key of bit `e` of row `r` of mn. -/
def mKey (n r e : Nat) : Nat := (n * 8 + r) * 16384 + e
/-- Elements of `bw` bytes in a register row. -/
def rowElems (g bw : Nat) : Nat := 192 * g / bw

/-- The key of the first byte of element `e` of row `row` of the group at `base`. -/
def elemKey (g bw base row e : Nat) : Nat := vKey (base + e / rowElems g bw) row (e % rowElems g bw * bw)

/-- elem(v, row, e) at `bw` bytes. -/
def elemRd (v : Sparse Byte) (g bw base row e : Nat) : Nat := Mem.readLe v (elemKey g bw base row e) bw
/-- Writes elem(v, row, e). -/
def elemWr (v : Sparse Byte) (g bw base row e x : Nat) : Sparse Byte := Mem.writeLe v (elemKey g bw base row e) bw x

/-- A mask bit. -/
def maskRd (m : Sparse Bool) (n row e : Nat) : Bool := Sparse.get false m (mKey n row e)
/-- Writes a mask bit. -/
def maskWr (m : Sparse Bool) (n row e : Nat) (x : Bool) : Sparse Bool := Sparse.set false m (mKey n row e) x

/-! ## Position classes (R37, R69, R156) -/

/-- At or after VSTART in row-major order. -/
def VCfg.started (c : VCfg) (row e : Nat) : Bool := decide (c.vrow * 65536 + c.velem ≤ row * 65536 + e)

/-- The bit that a prefix predicate asks for (R69). -/
def VCfg.predicate (c : VCfg) (m : Sparse Bool) (row e : Nat) : Bool :=
  match c.pfx with
  | none => true
  | some p => !pfxPen p || (maskRd m (pfxSrc p).toNat row e != pfxPol p)

/-- active(row, e) under the mask field `k` (R37, R69). -/
def VCfg.active (c : VCfg) (m : Sparse Bool) (k row e : Nat) : Bool :=
  decide (row < c.rc) && decide (e < c.vl) && c.started row e && (k == 0 || maskRd m k row e) && c.predicate m row e

/-- The positions row < RC, e < VL in row-major order. -/
def VCfg.positions (c : VCfg) : List (Nat × Nat) :=
  (List.range c.rc).flatMap fun r => (List.range c.vl).map fun e => (r, e)

/-- Without the bytes of the tail of a group (R156). -/
def zeroTail (c : VCfg) (bw base size : Nat) (v : Sparse Byte) : Sparse Byte :=
  v.filter fun x =>
    let n := x.1 / 2048 / 8
    let r := x.1 / 2048 % 8
    let e := (n - base) * rowElems c.g bw + x.1 % 2048 / bw
    !(decide (base ≤ n) && decide (n < base + size) && decide (c.vrow ≤ r) && decide (r < c.rc) && decide (c.vl ≤ e))

/-- Writes a destination group by the classes of R156: `f` gives the result at an active position; the positions of `keep` are
left as they are, whatever their class (R204, R302). -/
def writeOne (c : VCfg) (act : Nat → Nat → Bool) (f : Nat → Nat → Nat) (base bw size : Nat) (v : Sparse Byte)
    (keep : Nat → Nat → Bool := fun _ _ => false) : Sparse Byte :=
  let v1 := c.positions.foldl (fun w p =>
    if !c.started p.1 p.2 then w
    else if keep p.1 p.2 then w
    else if act p.1 p.2 then elemWr w c.g bw base p.1 p.2 (f p.1 p.2)
    else if c.mp then elemWr w c.g bw base p.1 p.2 0 else w) v
  if c.tp then zeroTail c bw base size v1 else v1

/-- The base of the prefix copy group, if the entry has one (R70). -/
def VCfg.copyBase (c : VCfg) : Option Nat :=
  match c.pfx with
  | some p => if pfxCen p then some (pfxReg p).toNat else none
  | none => none

/-- Writes a destination group and its prefix copy (R70, R156). -/
def writeGroup (c : VCfg) (act : Nat → Nat → Bool) (f : Nat → Nat → Nat) (base bw size : Nat) (v : Sparse Byte)
    (keep : Nat → Nat → Bool := fun _ _ => false) : Sparse Byte :=
  let w := writeOne c act f base bw size v keep
  match c.copyBase with
  | some cb => writeOne c act f cb bw size w keep
  | none => w

/-- Writes a mask destination (R171). -/
def writeMask (c : VCfg) (act f : Nat → Nat → Bool) (n : Nat) (m : Sparse Bool) : Sparse Bool :=
  let m1 := c.positions.foldl (fun w p =>
    if !c.started p.1 p.2 then w
    else if act p.1 p.2 then maskWr w n p.1 p.2 (f p.1 p.2)
    else if c.mp then maskWr w n p.1 p.2 false else w) m
  if c.tp then m1.filter fun x =>
    !(x.1 / 16384 / 8 == n && decide (c.vrow ≤ x.1 / 16384 % 8) && decide (x.1 / 16384 % 8 < c.rc) && decide (c.vl ≤ x.1 % 16384))
  else m1

/-! ## Poison (R452) -/

/-- The 8-byte words of a register row that hold the element group of its element `p` (R161). -/
def groupWords (g bw p : Nat) : List Nat :=
  (List.range 8).map fun i => ((p / (8 * g) * bw / 8 * 8 / bw + i / bw) * g + p % (8 * g) / 8) * bw + i % bw
/-- Keys of the element group that holds elem(base, row, e). -/
def poisonKeys (g bw base row e : Nat) : List Nat :=
  (groupWords g bw (e % rowElems g bw)).map fun w => ((base + e / rowElems g bw) * 8 + row) * 192 + w

/-- Adds keys to a list of poison. -/
def addPoison (keys p : List Nat) : List Nat := keys.foldl (fun q k => insertNat k q) p

/-- Whether an element lies in a poisoned group. -/
def elemBad (p : List Nat) (g bw base row e : Nat) : Bool := p != [] && (poisonKeys g bw base row e).any p.contains

/-- A vector group as an operand: base, element bytes, number of registers. -/
structure VGroup where
  base : Nat
  bw : Nat
  size : Nat
  deriving DecidableEq, Repr

/-- The keys of every element group of a group's first `rc` rows, under the width `g`. -/
def VGroup.keys (x : VGroup) (g rc : Nat) : List Nat :=
  (List.range x.size).flatMap fun n => (List.range rc).flatMap fun r => (List.range (24 * g)).map fun w => ((x.base + n) * 8 + r) * 192 + w

/-- Key of the 64 bits of a row of mask n that hold bit (row, e) (R452; DEDUCED, log 16). -/
def maskKey (n row e : Nat) : Nat := 49152 + (n * 8 + row) * 256 + e / 64

/-- Whether a mask bit is poisoned. -/
def maskBad (p : List Nat) (n row e : Nat) : Bool := p.contains (maskKey n row e)

/-- The masks that decide which positions are active under the mask field `k` (R69). -/
def VCfg.maskRegs (c : VCfg) (k : Nat) : List Nat :=
  (if k = 0 then [] else [k])
  ++ (match c.pfx with | some p => if pfxPen p then [(pfxSrc p).toNat] else [] | none => [])

/-- Whether an instruction writes position (row, e) of its destination, and does not `keep` it: as body, or with zeros as inactive
or tail (R156). -/
def VCfg.writes (c : VCfg) (act keep : Nat → Nat → Bool) (row e : Nat) : Bool :=
  if e < c.vl then !keep row e && (act row e || (c.mp && c.started row e)) else c.tp && decide (c.vrow ≤ row)

/-- The positions of the first RC rows, with the tail up to `n` where it is written. -/
def VCfg.reach (c : VCfg) (n : Nat) : List (Nat × Nat) :=
  (List.range c.rc).flatMap fun r => (List.range (if c.tp then n else c.vl)).map fun e => (r, e)

/-- The poison list `p` after positions of a destination are written: `key` gives a position's group, `mates` the
positions of the same group, `bad` whether a position depends on poisoned data, `sel` whether that is by a mask. A group
written in full with clean data is cleared. -/
def poisonPlaces (c : VCfg) (act keep sel bad : Nat → Nat → Bool) (key : Nat → Nat → List Nat) (mates : Nat → List Nat) (n : Nat)
    (p : List Nat) : List Nat :=
  (c.reach n).foldl (fun q x =>
    if (act x.1 x.2 || sel x.1 x.2) && bad x.1 x.2 then addPoison (key x.1 x.2) q
    else if c.writes act keep x.1 x.2
        && (mates x.2).all (fun e => c.writes act keep x.1 e && !((act x.1 e || sel x.1 e) && bad x.1 e)) then
      q.filter fun k => !(key x.1 x.2).contains k
    else q) p

/-- Whether an instruction that reads the elements at `ps` of the groups `srcs` under the masks `ks` reads poison (R452). -/
def VCfg.readsBad (c : VCfg) (p : List Nat) (srcs : List (VGroup × List (Nat × Nat))) (ks : List Nat) : Bool :=
  p != [] && (srcs.any (fun x => x.2.any fun q => elemBad p c.g x.1.bw x.1.base q.1 q.2)
    || ks.any fun k => c.positions.any fun q => maskBad p k q.1 q.2)

/-- The poison list after an instruction wrote a destination group. An elementwise one (`cross = none`) poisons a group when an
element of it depends on poison, of the groups `srcs` under the masks `ks`; a cross-element one poisons its whole destination, in
the rows below RC, if it reads any, as `cross` says (R452). -/
def poisonAfter (p : List Nat) (c : VCfg) (act keep : Nat → Nat → Bool) (dst : VGroup) (srcs : List VGroup) (ks : List Nat)
    (cross : Option Bool) : List Nat :=
  if p = [] then []
  else
    let sel (r e : Nat) : Bool := decide (e < c.vl) && cross.isNone && ks.any fun k => maskBad p k r e
    let bad (r e : Nat) : Bool := decide (e < c.vl) && cross.isNone && (sel r e || srcs.any fun x => elemBad p c.g x.bw x.base r e)
    let n := rowElems c.g dst.bw
    let key := poisonKeys c.g dst.bw dst.base
    if cross = some true then addPoison (dst.keys c.g c.rc) p
    else poisonPlaces c act keep sel bad key
      (fun e => ((List.range n).map fun i => e / n * n + i).filter fun i => key 0 i == key 0 e) (dst.size * n) p

/-- The poison list `p` after an instruction wrote mask `n`; its sources are judged by `p0`. -/
def maskPoisonAfter (p0 p : List Nat) (c : VCfg) (act : Nat → Nat → Bool) (n : Nat) (srcs : List VGroup) (ks : List Nat) : List Nat :=
  if p0 = [] ∧ p = [] then []
  else
    let sel (r e : Nat) : Bool := decide (e < c.vl) && ks.any fun k => maskBad p0 k r e
    let bad (r e : Nat) : Bool := sel r e || (decide (e < c.vl) && srcs.any fun x => elemBad p0 c.g x.bw x.base r e)
    poisonPlaces c act (fun _ _ => false) sel bad (fun r e => [maskKey n r e]) (fun e => (List.range 64).map fun i => e / 64 * 64 + i) (1536 * c.g) p

end Sys2Proof.Machine
end

