-- ==== Sys2Proof/Machine/VecCore.lean ====
section
/-! DEFINITION. The frame of vector instructions (spec/05 R162-R164, spec/02 R65-R71): the checks made at issue, the
vector queue and its head, completion, and memory faults of a vector instruction (spec/19 R427-R443). -/

namespace Sys2Proof.Machine

/-- How a vector instruction's effect ends: it completes; it traps with no effect; it stops with fault records and the
progress its entry holds (R305); it waits at the head of the queue (R149), with its progress. -/
inductive VRes where
  | done (s : State)
  | trap (c : Cause) (v : Word) (s : State)
  | stop (recs : List FaultRec) (e : VEntry) (s : State)
  | wait (e : VEntry) (s : State)

/-- Which field of LASTD an instruction sets (R20, R162). -/
inductive LastDest where
  | none | g (r : Reg) | v (r : Reg)
  deriving DecidableEq, Repr

/-- A vector instruction. -/
structure VSpec where
  word : Nat
  /-- the word its queue entry holds: a compact form's 32-bit counterpart (DEDUCED, log 15) -/
  qword : Nat
  size : Nat
  pfx : PfxKind
  /-- the destination group and its size by LMUL (R66) -/
  dst : Nat → Option (Nat × Nat)
  /-- the source groups and their sizes by LMUL -/
  srcs : Nat → List (Nat × Nat)
  /-- bases that must differ in parity (R65) -/
  bank : Option (Nat × Nat)
  /-- g operands read at issue, in the order of R438 -/
  gs : List Reg
  lastd : LastDest
  /-- the execution checks that the word, the configuration, the g operands and MGRANT.COUNT decide -/
  check : Hart → VCfg → List Word → Option (Cause × Word)
  /-- whether what `late` depends on is available (R162) -/
  ready : State → Bool := fun _ => true
  /-- the execution checks that depend on vector registers or a queue head -/
  late : Hart → VCfg → List Word → Option (Cause × Word) := fun _ _ _ => none
  /-- whether it writes memory -/
  writes : Bool := false
  run : VEntry → State → VRes

/-- A group that runs past v31 (R66). -/
def pastEnd (x : Nat × Nat) : Bool := decide (32 < x.1 + x.2)
/-- Whether two groups share a register. -/
def groupsMeet (x y : Nat × Nat) : Bool := decide (x.1 < y.1 + y.2) && decide (y.1 < x.1 + x.2)

/-- The copy group of a pending prefix on an instruction, with the size of its destination (R66, R68); where it has none,
of LMUL registers (DESIGN CHOICE, log 39). -/
def VSpec.copyGroup (f : VSpec) (t : Stream) (l : Nat) : Option (Nat × Nat) :=
  if t.pfxp ∧ pfxCen t.pfxd then some ((pfxReg t.pfxd).toNat, match f.dst l with | some d => d.2 | none => l) else none

/-- R65, then R66. -/
def VSpec.illenc (f : VSpec) (t : Stream) (l : Nat) : Bool :=
  (match f.bank with | some (a, b) => a % 2 == b % 2 | none => false)
  || (f.srcs l).any pastEnd
  || (match f.dst l with | some d => pastEnd d | none => false)
  || (match f.copyGroup t l with | some c => pastEnd c | none => false)

/-- R68 for a vector successor. -/
def VSpec.pfxbad (f : VSpec) (t : Stream) (l : Nat) : Bool :=
  t.pfxp && (f.pfx == .never || (pfxCen t.pfxd && f.pfx != .copy)
    || pfxSrc t.pfxd == 0 || decide (7 < (pfxSrc t.pfxd).toNat)
    || (match f.copyGroup t l with
      | some c => (f.srcs l).any (groupsMeet c) || (match f.dst l with | some d => groupsMeet c d | none => false)
      | none => false))

/-- Sets LASTD (R162). -/
def LastDest.set (l : LastDest) (t : Stream) : Stream :=
  match l with
  | .none => t
  | .g r => { t with lastG := r }
  | .v r => { t with lastV := r }

/-- The g destination, if there is one. -/
def LastDest.regs : LastDest → List Reg
  | .g r => [r]
  | _ => []

/-! ## What queued instructions write (R162) -/

/-- Whether a word enters the vector queue: majors 0x19-0x22, VWAIT, MAT, REMOTE, DPOST and XSTAT (R162). -/
def entersQueue (w : Nat) : Bool :=
  let major := w / 2 % 64
  let func6 := w / 2 ^ 26
  (decide (0x19 ≤ major) && decide (major ≤ 0x22) && major != 0x1F) || (major == 0x23 && decide (func6 ≤ 5)) || major == 0x24
  || major == 0x28 || (major == 0x29 && (func6 == 0 || func6 == 3))

/-- The destination group of a queued vector instruction, by its word and LMUL (R66). -/
def destOfWord (w l : Nat) : Option (Nat × Nat) :=
  let d := w / 128 % 32
  let func6 := w / 2 ^ 26
  let code := w / 4096 % 32
  match w / 2 % 64 with
  | 0x19 | 0x1A | 0x20 | 0x22 => some (d, l)
  | 0x1C => some (d, 1)
  | 0x1D => if func6 ≤ 9 ∨ func6 = 11 ∨ func6 = 12 then some (d, l) else none
  | 0x1E => some (d, if func6 ≤ 5 ∨ (func6 = 8 ∧ code = 4) then 2 * l else if func6 = 8 ∧ code = 5 then max 1 (l / 2) else l)
  | 0x24 => if func6 = 6 then some (d, l) else none
  | 0x28 => if func6 = 1 then none else some (d, l)
  | 0x29 => if func6 = 3 then some (d, l) else none
  | _ => none

/-- The element bytes of that group, from the bytes of SEW. -/
def destBytesOfWord (w b : Nat) : Nat :=
  let func6 := w / 2 ^ 26
  let code := w / 4096 % 32
  if w / 2 % 64 = 0x1E then (if func6 ≤ 5 ∨ (func6 = 8 ∧ code = 4) then 2 * b else if func6 = 8 ∧ code = 5 then b / 2 else b)
  else if w / 2 % 64 = 0x1C ∧ func6 = 8 then 2 * b else b

/-- The source groups of a queued vector instruction, by its word, LMUL and the bytes of SEW (R66); the scales of an MMUL
apart. -/
def srcsOfWord (w l b : Nat) : List (Nat × Nat) :=
  let d := (w / 128 % 32, l)
  let x := (w / 4096 % 32, l)
  let y := if bitAt w 25 then [] else [(w / 2 ^ 17 % 32, l)]
  let func6 := w / 2 ^ 26
  match w / 2 % 64 with
  | 0x19 => if func6 = 26 then [] else if func6 = 25 then y else x :: y
  | 0x1A => if func6 = 4 ∨ func6 = 11 then y else if func6 = 12 then [d] else if func6 = 5 ∨ func6 = 6 ∨ func6 = 7 then d :: x :: y
    else x :: y
  | 0x1B => if func6 < 12 then x :: y else []
  | 0x1C => (x.1, 1) :: y
  | 0x1D => if func6 = 11 ∨ func6 = 12 ∨ func6 = 14 then [] else if func6 = 4 then x :: y else [x]
  | 0x1E => if func6 ≤ 3 then x :: y else if func6 ≤ 5 then (d.1, 2 * l) :: x :: y else if func6 ≤ 7 then (x.1, 2 * l) :: y else y
  | 0x20 => if func6 = 3 ∨ func6 = 4 then y else []
  | 0x21 => d :: (if func6 = 3 ∨ func6 = 4 then y else [])
  | 0x22 => [(w / 2 ^ 17 % 32, l)]
  | 0x23 => if func6 ≤ 5 then y else []
  | 0x24 => if func6 = 3 ∨ (func6 = 5 ∧ d.1 = 0) then [x] else []
  | 0x28 => (if func6 = 1 then [d] else []) ++ y.map fun g => (g.1, l * (8 / b))
  | 0x29 => if func6 = 0 then y else []
  | _ => []

/-- The prefix that a queued vector instruction may take, by its word (R68). -/
def pfxOfWord (w : Nat) : PfxKind :=
  match w / 2 % 64 with
  | 0x19 | 0x1A | 0x1E | 0x20 => .copy
  | 0x1B => if w / 2 ^ 26 < 12 then .pred else .never
  | 0x21 => .pred
  | _ => .never

/-- Whether a queue entry breaks R66 or R68; `more` are source groups that its word does not give. -/
def VEntry.broken (e : VEntry) (more : List (Nat × Nat)) : Bool :=
  let w := e.word.toNat
  let l := vtypeLmul e.vtype
  let srcs := srcsOfWord w l (2 ^ vtypeSew e.vtype) ++ more
  let dst := (destOfWord w l).toList
  match e.pfx with
  | none => (srcs ++ dst).any pastEnd
  | some p =>
    let copy : List (Nat × Nat) := if pfxCen p then [((pfxReg p).toNat, (dst.map (·.2)).headD l)] else []
    (srcs ++ dst ++ copy).any pastEnd || pfxOfWord w == .never || (pfxCen p && pfxOfWord w != .copy)
    || pfxSrc p == 0 || decide (7 < (pfxSrc p).toNat) || copy.any fun c => (srcs ++ dst).any (groupsMeet c)

/-- The mask that a queued vector instruction writes as its destination (R171, R183, R316). -/
def maskOfWord (w : Nat) : Option Nat :=
  let func6 := w / 2 ^ 26
  match w / 2 % 64 with
  | 0x1A => if func6 = 12 then some (w / 4096 % 8) else none
  | 0x1B => if func6 ≤ 22 then some (w / 128 % 8) else none
  | 0x23 => if func6 ≤ 5 then some (w / 128 % 8) else none
  | _ => none

/-- Whether a queued vector instruction marks its progress in m0, which it leaves clear (R302, R303, R312, R495). -/
def wordMarks (w : Nat) : Bool :=
  let func6 := w / 2 ^ 26
  match w / 2 % 64 with
  | 0x20 | 0x21 => func6 == 3 || func6 == 4
  | 0x22 | 0x28 => true
  | _ => false

/-- Whether a queue entry writes a register of a group, as its destination or its copy group. -/
def VEntry.writesGroup (e : VEntry) (x : Nat × Nat) : Bool :=
  match destOfWord e.word.toNat (vtypeLmul e.vtype) with
  | none => false
  | some d => groupsMeet d x
    || (match e.pfx with | some p => pfxCen p && groupsMeet ((pfxReg p).toNat, d.2) x | none => false)

/-- Whether the queued instructions leave m0 known: none writes it, or the last one that does clears it. -/
def Hart.m0Known (h : Hart) : Bool :=
  match (h.vq.filter fun e => wordMarks e.word.toNat || maskOfWord e.word.toNat == some 0).getLast? with
  | some e => wordMarks e.word.toNat
  | none => true

/-- Whether no queued instruction writes a group of `idx` or a mask of `ks`, and m0 is known (R162). -/
def Hart.indexReady (h : Hart) (idx : List (Nat × Nat)) (ks : List Nat) : Bool :=
  h.vq.all (fun e => !idx.any e.writesGroup && !ks.any fun k => maskOfWord e.word.toNat == some k) && h.m0Known

/-- The masks that decide which positions of an instruction with mask field `k` are active, the pending prefix's too. -/
def Stream.maskFields (t : Stream) (k : BitVec 3) : List Nat :=
  (if k = 0 then [] else [k.toNat]) ++ (if t.pfxp ∧ pfxPen t.pfxd then [(pfxSrc t.pfxd).toNat] else [])

/-- The hart as an instruction issued now will find it, as far as its checks go: with m0 cleared by what is queued. -/
def Hart.issueView (h : Hart) : Hart :=
  if h.vq.any fun e => wordMarks e.word.toNat then { h with m := h.m.filter fun x => x.1 / 16384 / 8 != 0 } else h

/-- The entry of an instruction issued now (R438); a later entry takes VSTART 0, which the earlier ones leave (R157). -/
def VSpec.entry (f : VSpec) (s : State) : VEntry where
  pc := trapEpc 0 s.st
  word := BitVec.ofNat 32 f.qword
  pfx := if s.st.pfxp then some s.st.pfxd else none
  ops := f.gs.map s.rd
  win := s.st.win
  sv := s.hart.sv
  vtype := s.st.vtype
  vl := s.st.vl
  rc := s.st.rc
  vstart := if s.hart.vq.isEmpty then s.st.vstart else 0
  stopped := false
  fence := s.hart.main.dfseq
  begun := none
  latched := []
  bad := []
  again := false

/-- The main stream moves past an issued instruction (R20, R28, R162). -/
def VSpec.issued (f : VSpec) (s : State) : State := s.setSt (f.lastd.set (s.st.advance f.word f.size))

/-- Completes a vector instruction: VSTART becomes 0 (R157), its lane groups count it (R448). -/
def State.vdone (s : State) : VRes :=
  .done { s with hart := { s.hart with main := { s.hart.main with vstart := 0 }, vcount := s.hart.vcount + 1 } }

/-- Replaces the vector queue after the head has had its turn. -/
def State.setVq (s : State) (l : List VEntry) : State := { s with hart := { s.hart with vq := l }, atHead := false }

/-- VLDFF, which holds back VSET, STRIP and later vector instructions until it completes (R310). -/
def VEntry.isVldff (e : VEntry) : Bool := e.word.toNat / 2 % 64 == 0x20 && e.word.toNat / 67108864 == 5

/-- The state in which the head of the queue is checked: nothing is queued before it. -/
def State.alone (s : State) : State := { s with hart := { s.hart with vq := [] } }

/-- The checks of an entry that a restore has queued, made again where it begins (R162, R438, R439; DEDUCED, log 23). -/
def VSpec.recheck (f : VSpec) (e : VEntry) (s : State) : Option (Cause × Word) :=
  if e.again then
    let h := s.alone.hart
    match f.check h (VCfg.of h e) e.ops with
    | some x => some x
    | none => f.late h (VCfg.of h e) e.ops
  else none

/-- The scalar instruction that the main stream waits in is left when a queued one traps: it executes afresh later (R162, R262). -/
def State.leaveWait (s : State) : State := { s with hart := { s.hart.dropReads 0 with inWaitch := false } }

/-- Executes the head of the vector queue (R163). -/
def VSpec.runHead (f : VSpec) (s : State) : Out :=
  match s.hart.vq with
  | [] => .next { s with atHead := false }.yield
  | e :: rest =>
    if e.again ∧ f.ready s.alone = false then .next (s.setVq (e :: rest)).yield
    else match f.recheck e s with
    | some (c, v) => .next ((s.setVq rest).leaveWait.trapAt c.code v e.pc f.word)
    | none => match f.run { e with again := false } s with
    | .done s' => .next (s'.setVq rest)
    | .trap c v s' => .next ((s'.setVq rest).leaveWait.trapAt c.code v e.pc f.word)
    | .stop recs e' s' => .next ((s'.setVq (e' :: rest)).park 0b00010 recs)
    | .wait e' s' => .next (s'.setVq (e' :: rest)).yield

/-- A trap of the instruction at issue: it is precise, so the queued ones complete first (R162). -/
def State.trapInOrder (s : State) (c : Cause) (v : Word) (word : Nat) : Out :=
  if s.hart.vq = [] then .next (s.trap c v word) else .next s.yield

/-- Before a vector instruction that stores is issued: the stores of the scalar agent that wait are performed when one of its
loads has read of them, since the instruction may depend on that load (R327, R331; DESIGN CHOICE, log 7). -/
def VSpec.beforeIssue (f : VSpec) (s : State) : State :=
  if f.writes ∧ s.hart.late.any (·.read) then s.settle else s

/-- Issues an instruction that has passed its checks: into the queue, and its effect at once when no earlier one waits. -/
def VSpec.issue (f : VSpec) (e : VEntry) (s0 : State) : Out :=
  let s := f.beforeIssue s0
  let s1 := f.issued s
  if s.hart.vq ≠ [] then .next { s1 with hart := { s1.hart with vq := s1.hart.vq ++ [e] } }
  else match f.run e { s1 with atHead := true } with
    | .done s2 => .next (s2.setVq [])
    | .trap c v s2 => .next ((s2.setVq []).trapAt c.code v e.pc f.word)
    | .stop recs e' s2 => .next ((s2.setVq [e']).park 0b00010 recs)
    | .wait e' s2 => .next (s2.setVq [e'])

/-- A vector instruction (R162): the checks of R71 and R66, the execution checks, each as soon as what it depends on is
available, then its issue. -/
def runVector (f : VSpec) (s : State) : Out :=
  if s.atHead then f.runHead s
  else
    let l := vtypeLmul s.st.vtype
    if s.onFeeder then .next (s.trap .illop (wordVal f.word) f.word)
    else if f.illenc s.st l then s.trapInOrder .illenc (wordVal f.word) f.word
    else if f.pfxbad s.st l then s.trapInOrder .pfxbad (wordVal f.word) f.word
    else if s.hart.isControl then .next (s.trap .illop (wordVal f.word) f.word)
    else if s.regWait (f.lastd.regs ++ f.gs) ∨ s.hart.vq.length ≥ 16 ∨ s.hart.vq.any (·.isVldff) then .next s.yield
    else
      let e := f.entry s
      let c := VCfg.of s.hart e
      match f.check s.hart c e.ops with
      | some (x, v) => s.trapInOrder x v f.word
      | none =>
        if f.ready s = false then .next s.yield
        else match f.late s.hart.issueView c e.ops with
          | some (x, v) => s.trapInOrder x v f.word
          | none => f.issue e s

/-! ## Building blocks -/

/-- A g result of a queued instruction (R164). -/
def State.putG (s : State) (r : Reg) (v : Word) : State := { s with hart := { s.hart with main := s.hart.main.wr r v } }

/-- ORs flags into the main stream's FCSR (R173). -/
def State.orFlags (s : State) (f : Flags) : State :=
  { s with hart := { s.hart with main := { s.hart.main with flags := s.hart.main.flags ||| f } } }

/-- Replaces the vector registers and settles poison; newly poisoned groups are counted (R452, R457). -/
def State.putV (s : State) (v : Sparse Byte) (p : List Nat) : State :=
  let n := ((p.filter fun k => !s.hart.poison.contains k).length + 7) / 8
  ({ s with hart := { s.hart with v := v, poison := p } }).count s.hart.die 4 n

/-- A result over the destination `dst` from the groups `srcs` under the masks `ks`, whose positions in `keep` are left alone
(R156, R452); of a cross-element instruction, `cross` says whether it reads poison. -/
def State.mapWrite (s : State) (c : VCfg) (act : Nat → Nat → Bool) (dst : VGroup) (srcs : List VGroup) (ks : List Nat)
    (cross : Option Bool) (f : Nat → Nat → Nat) (keep : Nat → Nat → Bool := fun _ _ => false) : State :=
  let p1 := poisonAfter s.hart.poison c act keep dst srcs ks cross
  let p2 := match c.copyBase with
    | some cb => poisonAfter p1 c act keep { dst with base := cb } srcs ks cross
    | none => p1
  s.putV (writeGroup c act f dst.base dst.bw dst.size s.hart.v keep) p2

/-- Poisons the element groups at positions of a destination (R452). -/
def State.poisonAt (s : State) (c : VCfg) (base bw : Nat) (l : List (Nat × Nat)) : State :=
  if l = [] then s
  else s.putV s.hart.v (l.foldl (fun p x => addPoison (poisonKeys c.g bw base x.1 x.2) p) s.hart.poison)

/-- A result over mask `n` (R171, R452): its sources are judged by the poison `p0`. -/
def State.putMask (s : State) (p0 : List Nat) (c : VCfg) (act : Nat → Nat → Bool) (n : Nat) (srcs : List VGroup) (ks : List Nat)
    (f : Nat → Nat → Bool) : State :=
  let m := writeMask c act f n s.hart.m
  let p := maskPoisonAfter p0 s.hart.poison c act n srcs ks
  { s with hart := { s.hart with m := m, poison := p } }

/-- A vector operand: a group, or the low bits of a g value (R169). -/
inductive VSrc where
  | group (x : VGroup)
  | scalar (w : Word)
  deriving DecidableEq, Repr

/-- The operand's element at its width. -/
def VSrc.at_ (x : VSrc) (v : Sparse Byte) (g row e : Nat) : Nat :=
  match x with
  | .group x => elemRd v g x.bw x.base row e
  | .scalar w => w.toNat

/-- The groups an operand reads. -/
def VSrc.groups : VSrc → List VGroup
  | .group x => [x]
  | .scalar _ => []

/-- The floating-point format at SEW (R169). -/
def VCfg.fmt (c : VCfg) : Fmt :=
  match c.sew, c.alt with
  | 3, _ => fmtF64
  | 2, _ => fmtF32
  | 1, false => fmtF16
  | 1, true => fmtBf16
  | _, false => fmtE4m3
  | _, true => fmtE5m2

/-- ILLOP at execution with the word as TVAL (R170, R200, R300). -/
def illopIf (word : Nat) (b : Bool) : Option (Cause × Word) := if b then some (.illop, wordVal word) else none

end Sys2Proof.Machine
end

