-- ==== Sys2Proof/Machine/ScalarInt.lean ====
section
/-! DEFINITION. The integer family: INT, the immediates, the control transfers and the compact forms (spec/03 R83-R91,
R112-R114). -/

namespace Sys2Proof.Machine

/-! ## Integer results at a width -/

/-- Leading zero bits of an `n`-bit number. -/
def clzN (n x : Nat) : Nat := if x = 0 then n else n - 1 - Nat.log2 x
/-- Trailing zero bits, looking at `n` bits. -/
def ctzN : Nat → Nat → Nat
  | 0, _ => 0
  | n + 1, x => if x % 2 = 1 then 0 else 1 + ctzN n (x / 2)
/-- One bits among the low `n`. -/
def popcN : Nat → Nat → Nat
  | 0, _ => 0
  | n + 1, x => x % 2 + popcN n (x / 2)

/-- DIV at width `n`: truncated toward zero; all ones for a divisor of 0 (R85, R86). -/
def divS (n x y : Nat) : Nat := if sextN n y = 0 then 2 ^ n - 1 else lowBits n ((sextN n x).tdiv (sextN n y))
/-- REM at width `n` (R85, R86). -/
def remS (n x y : Nat) : Nat := if sextN n y = 0 then x % 2 ^ n else lowBits n ((sextN n x).tmod (sextN n y))
/-- DIVU at width `n` (R85, R86). -/
def divU (n x y : Nat) : Nat := if y % 2 ^ n = 0 then 2 ^ n - 1 else x % 2 ^ n / (y % 2 ^ n)
/-- REMU at width `n` (R85, R86). -/
def remU (n x y : Nat) : Nat := if y % 2 ^ n = 0 then x % 2 ^ n else x % 2 ^ n % (y % 2 ^ n)
/-- Bits [2n-1:n] of the signed product. -/
def mulhS (n x y : Nat) : Nat := lowBits n (sextN n x * sextN n y / (2 ^ n : Nat))
/-- Bits [2n-1:n] of the unsigned product. -/
def mulhU (n x y : Nat) : Nat := x % 2 ^ n * (y % 2 ^ n) / 2 ^ n % 2 ^ n

/-- A truth value as a register value. -/
def boolWord (b : Bool) : Word := if b then 1 else 0

/-- A signed immediate of `n` bits as a word. -/
def simm {n : Nat} (i : BitVec n) : Word := i.signExtend 64

/-- BSWAP (R85). -/
def bswap64 (x : Word) : Word := BitVec.ofNat 64 (leNat (toLe 8 x.toNat).reverse)

/-- Shift amount y[5:0]. -/
def sh6 (y : Word) : Nat := y.toNat % 64

/-! ## Frames -/

/-- An instruction that writes a value to g[d] and does nothing else. -/
def runAlu (word : Nat) (d : Reg) (rs : List Reg) (f : State → Word) (s : State) : Out :=
  runScalar ⟨word, 4, .copy, true, true, d :: rs⟩ (fun s => .ok () (s.finishG word 4 d (f s))) s

/-- An INT instruction of two sources (R84). -/
def runAlu2 (word : Nat) (d a b : Reg) (f : Word → Word → Word) (s : State) : Out :=
  runAlu word d [a, b] (fun s => f (s.rd a) (s.rd b)) s

/-- A unary INT or immediate instruction. -/
def runAlu1 (word : Nat) (d a : Reg) (f : Word → Word) (s : State) : Out :=
  runAlu word d [a] (fun s => f (s.rd a)) s

/-- A conditional branch (R89). -/
def runBranch (word : Nat) (a b : Reg) (o : BitVec 12) (c : Word → Word → Bool) (s : State) : Out :=
  runScalar ⟨word, 4, .never, true, true, [a, b]⟩
    (fun s => if c (s.rd a) (s.rd b) then .ok () (s.jump word 4 (s.st.pc + simm o * 2)) else .ok () (s.finish word 4)) s

/-- A compact form that writes a value to g[d] (R114): `f` has g[s] and g[LASTD.G]. -/
def runCompact (word : Nat) (d : Reg) (rs : List Reg) (f : State → Word) (s : State) : Out :=
  runScalar ⟨word, 2, .copy, true, true, d :: rs⟩ (fun s => .ok () (s.finishG word 2 d (f s))) s

/-- A compact branch (R114): sext({s, d}, 10) * 2. -/
def runCBranch (word : Nat) (hi lo : BitVec 5) (c : Word → Bool) (s : State) : Out :=
  runScalar ⟨word, 2, .never, true, true, [s.st.lastG]⟩
    (fun s => if c (s.rd s.st.lastG) then .ok () (s.jump word 2 (s.st.pc + simm (hi ++ lo) * 2)) else .ok () (s.finish word 2)) s

/-! ## INT (R85, R86) -/

/-- ADD (R85). -/
def execAdd (d a b : Reg) (s : State) : Out := runAlu2 (Enc.add d a b) d a b (fun x y => x + y) s
/-- SUB (R85). -/
def execSub (d a b : Reg) (s : State) : Out := runAlu2 (Enc.sub d a b) d a b (fun x y => x - y) s
/-- AND (R85). -/
def execAnd (d a b : Reg) (s : State) : Out := runAlu2 (Enc.and d a b) d a b (fun x y => x &&& y) s
/-- OR (R85). -/
def execOr (d a b : Reg) (s : State) : Out := runAlu2 (Enc.or d a b) d a b (fun x y => x ||| y) s
/-- XOR (R85). -/
def execXor (d a b : Reg) (s : State) : Out := runAlu2 (Enc.xor d a b) d a b (fun x y => x ^^^ y) s
/-- ANDN (R85). -/
def execAndn (d a b : Reg) (s : State) : Out := runAlu2 (Enc.andn d a b) d a b (fun x y => x &&& ~~~y) s
/-- ORN (R85). -/
def execOrn (d a b : Reg) (s : State) : Out := runAlu2 (Enc.orn d a b) d a b (fun x y => x ||| ~~~y) s
/-- SLL (R85). -/
def execSll (d a b : Reg) (s : State) : Out := runAlu2 (Enc.sll d a b) d a b (fun x y => x <<< sh6 y) s
/-- SRL (R85). -/
def execSrl (d a b : Reg) (s : State) : Out := runAlu2 (Enc.srl d a b) d a b (fun x y => x >>> sh6 y) s
/-- SRA (R85). -/
def execSra (d a b : Reg) (s : State) : Out := runAlu2 (Enc.sra d a b) d a b (fun x y => x.sshiftRight (sh6 y)) s
/-- ROL (R85). -/
def execRol (d a b : Reg) (s : State) : Out := runAlu2 (Enc.rol d a b) d a b (fun x y => (x <<< sh6 y) ||| (x >>> ((64 - sh6 y) % 64))) s
/-- ROR (R85). -/
def execRor (d a b : Reg) (s : State) : Out := runAlu2 (Enc.ror d a b) d a b (fun x y => (x >>> sh6 y) ||| (x <<< ((64 - sh6 y) % 64))) s
/-- MIN (R85). -/
def execMin (d a b : Reg) (s : State) : Out := runAlu2 (Enc.min d a b) d a b (fun x y => if x.sle y then x else y) s
/-- MAX (R85). -/
def execMax (d a b : Reg) (s : State) : Out := runAlu2 (Enc.max d a b) d a b (fun x y => if x.sle y then y else x) s
/-- MINU (R85). -/
def execMinu (d a b : Reg) (s : State) : Out := runAlu2 (Enc.minu d a b) d a b (fun x y => if x ≤ y then x else y) s
/-- MAXU (R85). -/
def execMaxu (d a b : Reg) (s : State) : Out := runAlu2 (Enc.maxu d a b) d a b (fun x y => if x ≤ y then y else x) s
/-- SLT (R85). -/
def execSlt (d a b : Reg) (s : State) : Out := runAlu2 (Enc.slt d a b) d a b (fun x y => boolWord (x.slt y)) s
/-- SLTU (R85). -/
def execSltu (d a b : Reg) (s : State) : Out := runAlu2 (Enc.sltu d a b) d a b (fun x y => boolWord (x.ult y)) s
/-- SEQ (R85). -/
def execSeq (d a b : Reg) (s : State) : Out := runAlu2 (Enc.seq d a b) d a b (fun x y => boolWord (x == y)) s
/-- SNE (R85). -/
def execSne (d a b : Reg) (s : State) : Out := runAlu2 (Enc.sne d a b) d a b (fun x y => boolWord (x != y)) s
/-- MUL (R85). -/
def execMul (d a b : Reg) (s : State) : Out := runAlu2 (Enc.mul d a b) d a b (fun x y => x * y) s
/-- MULH (R85). -/
def execMulh (d a b : Reg) (s : State) : Out := runAlu2 (Enc.mulh d a b) d a b (fun x y => BitVec.ofNat 64 (mulhS 64 x.toNat y.toNat)) s
/-- MULHU (R85). -/
def execMulhu (d a b : Reg) (s : State) : Out := runAlu2 (Enc.mulhu d a b) d a b (fun x y => BitVec.ofNat 64 (mulhU 64 x.toNat y.toNat)) s
/-- DIV (R85). -/
def execDiv (d a b : Reg) (s : State) : Out := runAlu2 (Enc.div d a b) d a b (fun x y => BitVec.ofNat 64 (divS 64 x.toNat y.toNat)) s
/-- DIVU (R85). -/
def execDivu (d a b : Reg) (s : State) : Out := runAlu2 (Enc.divu d a b) d a b (fun x y => BitVec.ofNat 64 (divU 64 x.toNat y.toNat)) s
/-- REM (R85). -/
def execRem (d a b : Reg) (s : State) : Out := runAlu2 (Enc.rem d a b) d a b (fun x y => BitVec.ofNat 64 (remS 64 x.toNat y.toNat)) s
/-- REMU (R85). -/
def execRemu (d a b : Reg) (s : State) : Out := runAlu2 (Enc.remu d a b) d a b (fun x y => BitVec.ofNat 64 (remU 64 x.toNat y.toNat)) s
/-- CLZ (R85). -/
def execClz (d a : Reg) (s : State) : Out := runAlu1 (Enc.clz d a) d a (fun x => BitVec.ofNat 64 (clzN 64 x.toNat)) s
/-- CTZ (R85). -/
def execCtz (d a : Reg) (s : State) : Out := runAlu1 (Enc.ctz d a) d a (fun x => BitVec.ofNat 64 (ctzN 64 x.toNat)) s
/-- POPC (R85). -/
def execPopc (d a : Reg) (s : State) : Out := runAlu1 (Enc.popc d a) d a (fun x => BitVec.ofNat 64 (popcN 64 x.toNat)) s
/-- BSWAP (R85). -/
def execBswap (d a : Reg) (s : State) : Out := runAlu1 (Enc.bswap d a) d a (fun x => bswap64 x) s
/-- SEL (R85): the old g[d] selects. -/
def execSel (d a b : Reg) (s : State) : Out :=
  runAlu (Enc.sel d a b) d [a, b] (fun s => if s.rd d ≠ 0 then s.rd a else s.rd b) s

/-! ## Immediates (R88, R45) -/

/-- ADDI (R88). -/
def execAddi (d a : Reg) (i : BitVec 15) (s : State) : Out := runAlu1 (Enc.addi d a i) d a (fun x => x + simm i) s
/-- ANDI (R88). -/
def execAndi (d a : Reg) (i : BitVec 15) (s : State) : Out := runAlu1 (Enc.andi d a i) d a (fun x => x &&& simm i) s
/-- ORI (R88). -/
def execOri (d a : Reg) (i : BitVec 15) (s : State) : Out := runAlu1 (Enc.ori d a i) d a (fun x => x ||| simm i) s
/-- XORI (R88). -/
def execXori (d a : Reg) (i : BitVec 15) (s : State) : Out := runAlu1 (Enc.xori d a i) d a (fun x => x ^^^ simm i) s
/-- SLLI (R88). -/
def execSlli (d a : Reg) (i : BitVec 6) (s : State) : Out := runAlu1 (Enc.slli d a i) d a (fun x => x <<< i.toNat) s
/-- SRLI (R88). -/
def execSrli (d a : Reg) (i : BitVec 6) (s : State) : Out := runAlu1 (Enc.srli d a i) d a (fun x => x >>> i.toNat) s
/-- SRAI (R88). -/
def execSrai (d a : Reg) (i : BitVec 6) (s : State) : Out := runAlu1 (Enc.srai d a i) d a (fun x => x.sshiftRight i.toNat) s
/-- SLTI (R88). -/
def execSlti (d a : Reg) (i : BitVec 12) (s : State) : Out := runAlu1 (Enc.slti d a i) d a (fun x => boolWord (x.slt (simm i))) s
/-- LDHI (R45). -/
def execLdhi (d : Reg) (i : BitVec 20) (s : State) : Out := runAlu (Enc.ldhi d i) d [] (fun _ => simm i <<< 15) s
/-- ADDPC (R45). -/
def execAddpc (d : Reg) (i : BitVec 20) (s : State) : Out := runAlu (Enc.addpc d i) d [] (fun s => s.st.pc + (simm i <<< 15)) s

/-! ## Control transfer (R89-R91) -/

/-- BEQ (R89). -/
def execBeq (a b : Reg) (o : BitVec 12) (s : State) : Out := runBranch (Enc.beq a b o) a b o (fun x y => x == y) s
/-- BNE (R89). -/
def execBne (a b : Reg) (o : BitVec 12) (s : State) : Out := runBranch (Enc.bne a b o) a b o (fun x y => x != y) s
/-- BLT (R89). -/
def execBlt (a b : Reg) (o : BitVec 12) (s : State) : Out := runBranch (Enc.blt a b o) a b o (fun x y => x.slt y) s
/-- BGE (R89). -/
def execBge (a b : Reg) (o : BitVec 12) (s : State) : Out := runBranch (Enc.bge a b o) a b o (fun x y => !x.slt y) s
/-- BLTU (R89). -/
def execBltu (a b : Reg) (o : BitVec 12) (s : State) : Out := runBranch (Enc.bltu a b o) a b o (fun x y => x.ult y) s
/-- BGEU (R89). -/
def execBgeu (a b : Reg) (o : BitVec 12) (s : State) : Out := runBranch (Enc.bgeu a b o) a b o (fun x y => !x.ult y) s
/-- JAL (R90). -/
def execJal (d : Reg) (o : BitVec 20) (s : State) : Out :=
  runScalar ⟨Enc.jal d o, 4, .never, true, true, [d]⟩
    (fun s => .ok () ((s.setG d (s.st.pc + 4)).jump (Enc.jal d o) 4 (s.st.pc + simm o * 2))) s
/-- JALR (R90, R28). -/
def execJalr (d a : Reg) (i : BitVec 12) (s : State) : Out :=
  runScalar ⟨Enc.jalr d a i, 4, .never, true, true, [d, a]⟩
    (fun s =>
      let t := s.rd a + simm i
      if t.toNat % 2 = 1 then .trap .misalign t s else .ok () ((s.setG d (s.st.pc + 4)).jump (Enc.jalr d a i) 4 t)) s

/-- Cuts the rows of the v registers and masks to the smaller width (R159). -/
def Hart.narrow (h : Hart) (g : Nat) : Hart :=
  let b := 192 * min h.main.grant g
  { h with
    v := h.v.filter fun x => x.1 % 2048 < b
    m := h.m.filter fun x => x.1 / 16384 / 8 == 0 || x.1 % 16384 < 8 * b }

/-- Applies a pending grant to the executing stream (R159). -/
def State.applyGrant (s : State) : State :=
  let g := s.pendWidth s.hart
  if s.st.grant = g then s
  else if s.onFeeder then s.setSt { s.st with grant := g }
  else { s with hart := { s.hart.narrow g with main := { s.hart.main with grant := g } } }

/-- Whether a VSET or STRIP must wait for earlier vector instructions: to apply a grant (R91, R175), or for a VLDFF
(R310). -/
def State.grantWaits (s : State) : Bool :=
  !s.onFeeder && ((s.st.grant != s.pendWidth s.hart && !s.hart.vq.isEmpty) || s.hart.vq.any (·.isVldff))

/-- VLMAX in force for the executing stream (R158). -/
def State.vlmax (s : State) : Nat := vlmaxOf s.st.vtype s.st.grant s.hart.vlcap

/-- STRIP (R91). -/
def execStrip (d a : Reg) (o : BitVec 12) (s : State) : Out :=
  runScalar ⟨Enc.strip d a o, 4, .never, false, false, [d, a]⟩
    (fun s =>
      if s.grantWaits then .wait s
      else
        let n := (s.rd a).toNat
        let s1 := s.applyGrant
        let vl := min n s1.vlmax
        let s2 := (s1.setSt { s1.st with vl := BitVec.ofNat 16 vl, vstart := 0 }).setG d (BitVec.ofNat 64 vl)
        if n = 0 then .ok () (s2.finish (Enc.strip d a o) 4)
        else .ok () (s2.jump (Enc.strip d a o) 4 (s.st.pc + simm o * 2))) s

/-! ## The prefix (R112) -/

/-- PFX (R36, R112). -/
def execPfx (r : Reg) (c e v : BitVec 1) (p : Reg) (s : State) : Out :=
  runScalar ⟨Enc.pfx r c e v p, 4, .never, true, true, []⟩
    (fun s =>
      let s1 := s.finish (Enc.pfx r c e v p) 4
      .ok () (s1.setSt { s1.st with pfxp := true, pfxd := BitVec.ofNat 25 (Enc.pfx r c e v p / 128) })) s

/-! ## Compact forms (R114) -/

/-- C.ADD (R114). -/
def execCAdd (d x : Reg) (s : State) : Out := runCompact (Enc.cAdd d x) d [x, s.st.lastG] (fun s => s.rd x + s.rd s.st.lastG) s
/-- C.SUB (R114). -/
def execCSub (d x : Reg) (s : State) : Out := runCompact (Enc.cSub d x) d [x, s.st.lastG] (fun s => s.rd x - s.rd s.st.lastG) s
/-- C.AND (R114). -/
def execCAnd (d x : Reg) (s : State) : Out := runCompact (Enc.cAnd d x) d [x, s.st.lastG] (fun s => s.rd x &&& s.rd s.st.lastG) s
/-- C.OR (R114). -/
def execCOr (d x : Reg) (s : State) : Out := runCompact (Enc.cOr d x) d [x, s.st.lastG] (fun s => s.rd x ||| s.rd s.st.lastG) s
/-- C.XOR (R114). -/
def execCXor (d x : Reg) (s : State) : Out := runCompact (Enc.cXor d x) d [x, s.st.lastG] (fun s => s.rd x ^^^ s.rd s.st.lastG) s
/-- C.SLL (R114). -/
def execCSll (d x : Reg) (s : State) : Out := runCompact (Enc.cSll d x) d [x, s.st.lastG] (fun s => s.rd x <<< sh6 (s.rd s.st.lastG)) s
/-- C.SRL (R114). -/
def execCSrl (d x : Reg) (s : State) : Out := runCompact (Enc.cSrl d x) d [x, s.st.lastG] (fun s => s.rd x >>> sh6 (s.rd s.st.lastG)) s
/-- C.MV (R114). -/
def execCMv (d x : Reg) (s : State) : Out := runCompact (Enc.cMv d x) d [x] (fun s => s.rd x) s
/-- C.ADDI (R114). -/
def execCAddi (d : Reg) (i : BitVec 5) (s : State) : Out := runCompact (Enc.cAddi d i) d [s.st.lastG] (fun s => s.rd s.st.lastG + simm i) s
/-- C.LI (R114). -/
def execCLi (d : Reg) (i : BitVec 5) (s : State) : Out := runCompact (Enc.cLi d i) d [] (fun _ => simm i) s
/-- C.LDD (R114). -/
def execCLdd (d x : Reg) (s : State) : Out :=
  runScalar ⟨Enc.cLdd d x, 2, .copy, true, true, [d, x]⟩
    (fun s => (s.load (Enc.cLdd d x) (s.rd x) 8).bind fun v s => .ok () (s.finishG (Enc.cLdd d x) 2 d v)) s
/-- C.STD (R114). -/
def execCStd (d x : Reg) (s : State) : Out :=
  runScalar ⟨Enc.cStd d x, 2, .pred, true, true, [d, x]⟩
    (fun s => (s.store (s.rd x) 8 (s.rd d)).bind fun _ s => .ok () (s.finish (Enc.cStd d x) 2)) s
/-- C.BEQZ (R114). -/
def execCBeqz (lo hi : BitVec 5) (s : State) : Out := runCBranch (Enc.cBeqz lo hi) hi lo (fun x => x == 0) s
/-- C.BNEZ (R114). -/
def execCBnez (lo hi : BitVec 5) (s : State) : Out := runCBranch (Enc.cBnez lo hi) hi lo (fun x => x != 0) s

end Sys2Proof.Machine
end

