-- ==== Sys2Proof/Machine/ScalarMem.lean ====
section
/-! DEFINITION. Scalar loads and stores, the scalar atomics, LDA and STL, and the scalar queues (spec/03 R92-R101). -/

namespace Sys2Proof.Machine

/-- A scalar load (R92): `f` extends the value read. -/
def runLoad (word : Nat) (d a : Reg) (i : BitVec 12) (n : Nat) (f : Word → Word) (s : State) : Out :=
  runScalar ⟨word, 4, .copy, true, true, [d, a]⟩
    (fun s => (s.load word (s.rd a + simm i) n).bind fun v s => .ok () (s.finishG word 4 d (f v))) s

/-- A scalar store (R92): g[d] is the data. -/
def runStore (word : Nat) (d a : Reg) (i : BitVec 12) (n : Nat) (s : State) : Out :=
  runScalar ⟨word, 4, .pred, true, true, [d, a]⟩
    (fun s => (s.store (s.rd a + simm i) n (s.rd d)).bind fun _ s => .ok () (s.finish word 4)) s

/-! ## Loads and stores (R92) -/

/-- LDB (R92). -/
def execLdb (d a : Reg) (i : BitVec 12) (s : State) : Out := runLoad (Enc.ldb d a i) d a i 1 (fun v => sextW 8 v) s
/-- LDBZ (R92). -/
def execLdbz (d a : Reg) (i : BitVec 12) (s : State) : Out := runLoad (Enc.ldbz d a i) d a i 1 (fun v => v) s
/-- LDH (R92). -/
def execLdh (d a : Reg) (i : BitVec 12) (s : State) : Out := runLoad (Enc.ldh d a i) d a i 2 (fun v => sextW 16 v) s
/-- LDHZ (R92). -/
def execLdhz (d a : Reg) (i : BitVec 12) (s : State) : Out := runLoad (Enc.ldhz d a i) d a i 2 (fun v => v) s
/-- LDW (R92). -/
def execLdw (d a : Reg) (i : BitVec 12) (s : State) : Out := runLoad (Enc.ldw d a i) d a i 4 (fun v => sextW 32 v) s
/-- LDWZ (R92). -/
def execLdwz (d a : Reg) (i : BitVec 12) (s : State) : Out := runLoad (Enc.ldwz d a i) d a i 4 (fun v => v) s
/-- LDD (R92). -/
def execLdd (d a : Reg) (i : BitVec 12) (s : State) : Out := runLoad (Enc.ldd d a i) d a i 8 (fun v => v) s
/-- STB (R92). -/
def execStb (d a : Reg) (i : BitVec 12) (s : State) : Out := runStore (Enc.stb d a i) d a i 1 s
/-- STH (R92). -/
def execSth (d a : Reg) (i : BitVec 12) (s : State) : Out := runStore (Enc.sth d a i) d a i 2 s
/-- STW (R92). -/
def execStw (d a : Reg) (i : BitVec 12) (s : State) : Out := runStore (Enc.stw d a i) d a i 4 s
/-- STD (R92). -/
def execStd (d a : Reg) (i : BitVec 12) (s : State) : Out := runStore (Enc.std d a i) d a i 8 s

/-! ## Atomics (R94-R96) -/

/-- Access bytes by SZ (R94). -/
def amoBytes (z : BitVec 1) : Nat := if z = 0 then 4 else 8

/-- A release at scope pkg, pod or dur waits until the stream's RSTX and RAMOX have returned (R496), one at dur until every
DURABLE write performed before it is durable (R405; DEDUCED, log 14). -/
def State.releaseWaits (s : State) (scope : BitVec 3) (rel : Bool) : Bool :=
  rel && ((scope == 5 && !s.ingress.isEmpty) || (decide (3 ≤ scope.toNat) && s.remoteStoresOut))

/-- What a release performs before it is judged: with scope dur, what the agent has waiting (R405). -/
def State.beforeRelease (s : State) (scope : BitVec 3) (rel : Bool) : State := if rel ∧ scope = 5 then s.settleMine else s

/-- An AMO (R94, R95). One without ACQ, and not a release at scope dur, may wait (R326, R327; DESIGN CHOICE, log 7). -/
def runAmo (word : Nat) (d a b : Reg) (scope : BitVec 3) (rel acq z : BitVec 1) (op : AmoOp) (s : State) : Out :=
  runScalar ⟨word, 4, .never, true, true, [d, a, b]⟩
    (fun s0 =>
      let n := amoBytes z
      if (s0.rd a).toNat % n ≠ 0 then .trap .misalign (s0.rd a) s0
      else
        let s := s0.beforeRelease scope (rel == 1)
        if s.releaseWaits scope (rel == 1) then .wait s
        else (s.atomic (s.rd a) ⟨op, n, s.rd b, s.rd d, d, trapEpc 0 s.st, word⟩
            (acq == 0 && !(rel == 1 && scope == 5))).bind fun r s =>
          .ok () (match r with
            | some v => s.finishG word 4 d v
            | none => s.setSt ({ s.st with lastG := d }.advance word 4))) s

/-- AMOADD (R94). -/
def execAmoadd (d a b : Reg) (c : BitVec 3) (l q z : BitVec 1) (s : State) : Out :=
  runAmo (Enc.amoadd d a b c l q z) d a b c l q z .add s
/-- AMOSWP (R94). -/
def execAmoswp (d a b : Reg) (c : BitVec 3) (l q z : BitVec 1) (s : State) : Out :=
  runAmo (Enc.amoswp d a b c l q z) d a b c l q z .swp s
/-- AMOCAS (R94). -/
def execAmocas (d a b : Reg) (c : BitVec 3) (l q z : BitVec 1) (s : State) : Out :=
  runAmo (Enc.amocas d a b c l q z) d a b c l q z .cas s
/-- AMOAND (R94). -/
def execAmoand (d a b : Reg) (c : BitVec 3) (l q z : BitVec 1) (s : State) : Out :=
  runAmo (Enc.amoand d a b c l q z) d a b c l q z .and s
/-- AMOOR (R94). -/
def execAmoor (d a b : Reg) (c : BitVec 3) (l q z : BitVec 1) (s : State) : Out :=
  runAmo (Enc.amoor d a b c l q z) d a b c l q z .or s
/-- AMOXOR (R94). -/
def execAmoxor (d a b : Reg) (c : BitVec 3) (l q z : BitVec 1) (s : State) : Out :=
  runAmo (Enc.amoxor d a b c l q z) d a b c l q z .xor s
/-- AMOMIN (R94). -/
def execAmomin (d a b : Reg) (c : BitVec 3) (l q z : BitVec 1) (s : State) : Out :=
  runAmo (Enc.amomin d a b c l q z) d a b c l q z .min s
/-- AMOMAX (R94). -/
def execAmomax (d a b : Reg) (c : BitVec 3) (l q z : BitVec 1) (s : State) : Out :=
  runAmo (Enc.amomax d a b c l q z) d a b c l q z .max s
/-- AMOMINU (R94). -/
def execAmominu (d a b : Reg) (c : BitVec 3) (l q z : BitVec 1) (s : State) : Out :=
  runAmo (Enc.amominu d a b c l q z) d a b c l q z .minu s
/-- AMOMAXU (R94). -/
def execAmomaxu (d a b : Reg) (c : BitVec 3) (l q z : BitVec 1) (s : State) : Out :=
  runAmo (Enc.amomaxu d a b c l q z) d a b c l q z .maxu s
/-- LDA (R94, R95): a plain read. -/
def execLda (d a : Reg) (c : BitVec 3) (z : BitVec 1) (s : State) : Out :=
  runScalar ⟨Enc.lda d a c z, 4, .never, true, true, [d, a]⟩
    (fun s => (s.loadAs ⟨0, amoBytes z, .sync, none⟩ (Enc.lda d a c z) (s.rd a)).bind fun v s =>
      .ok () (s.finishG (Enc.lda d a c z) 4 d (sextW (8 * amoBytes z) v))) s
/-- STL (R94, R95, R405): a plain write. -/
def execStl (a b : Reg) (c : BitVec 3) (z : BitVec 1) (s : State) : Out :=
  runScalar ⟨Enc.stl a b c z, 4, .never, true, true, [a, b]⟩
    (fun s =>
      if (s.rd a).toNat % amoBytes z ≠ 0 then .trap .misalign (s.rd a) s
      else
        let s := s.beforeRelease c true
        if s.releaseWaits c true then .wait s
        else (s.storeAs ⟨1, amoBytes z, .sync, none⟩ (s.rd a) (s.rd b) (c != 5)).bind fun _ s =>
          .ok () (s.finish (Enc.stl a b c z) 4)) s

/-! ## Scalar queues (R97-R101) -/

/-- A scalar queue. -/
def Hart.queue (h : Hart) (q : BitVec 3) : List Word := vget h.q [] q.toNat
/-- Replaces a scalar queue. -/
def Hart.setQueue (h : Hart) (q : BitVec 3) (l : List Word) : Hart := { h with q := vset h.q q.toNat l }

/-- QPSH (R98, R99): a release of the agent that pushes (R329). -/
def execQpsh (a : Reg) (q : BitVec 3) (s : State) : Out :=
  runScalar ⟨Enc.qpsh a q, 4, .never, true, false, [a]⟩
    (fun s =>
      if s.hart.hasFeeder = false ∨ (decide (q.toNat < 4) ≠ s.onFeeder) then .trap .illop (wordVal (Enc.qpsh a q)) s
      else if (s.hart.queue q).length ≥ 32 then .wait s
      else
        let s1 := s.settleMine
        .ok () (({ s1 with hart := s1.hart.setQueue q (s1.hart.queue q ++ [s1.rd a]) }).finish (Enc.qpsh a q) 4)) s
/-- QPOP (R98, R99). -/
def execQpop (d : Reg) (q : BitVec 3) (s : State) : Out :=
  runScalar ⟨Enc.qpop d q, 4, .never, true, false, [d]⟩
    (fun s =>
      if s.hart.hasFeeder = false ∨ (decide (q.toNat < 4) = s.onFeeder) then .trap .illop (wordVal (Enc.qpop d q)) s
      else match s.hart.queue q with
        | [] => .wait s
        | v :: r => .ok () (({ s with hart := s.hart.setQueue q r }).finishG (Enc.qpop d q) 4 d v)) s
/-- QCNT (R98, R99). -/
def execQcnt (d : Reg) (q : BitVec 3) (s : State) : Out :=
  runScalar ⟨Enc.qcnt d q, 4, .never, true, false, [d]⟩
    (fun s =>
      if s.hart.hasFeeder = false then .trap .illop (wordVal (Enc.qcnt d q)) s
      else .ok () (s.finishG (Enc.qcnt d q) 4 d (BitVec.ofNat 64 (s.hart.queue q).length))) s

end Sys2Proof.Machine
end

