-- ==== Sys2Proof/Machine/VecArith.lean ====
section
/-! DEFINITION. VSET and the elementwise vector instructions: VINT, VFP, VWIDE, the compares and the mask operations
(spec/06 R168-R190). -/

namespace Sys2Proof.Machine

/-! ## Elementwise frames -/

/-- The width of an operand against SEW (R179, R185). -/
inductive Wd where
  | same | double | half
  deriving DecidableEq, Repr

/-- Element bytes. -/
def Wd.bytes (w : Wd) (b : Nat) : Nat := match w with | .same => b | .double => 2 * b | .half => b / 2
/-- Registers of the group. -/
def Wd.size (w : Wd) (l : Nat) : Nat := match w with | .same => l | .double => 2 * l | .half => max 1 (l / 2)

/-- An elementwise instruction: its operands, and its result at (row, e) from x = vs1, y = vs2 or g, z = vd. -/
structure Elem where
  word : Nat
  d : Reg
  dw : Wd
  x : Option (Reg × Wd)
  y : Option (Reg × Wd × BitVec 1)
  /-- vd is a source too -/
  acc : Bool
  k : BitVec 3
  /-- the mask field selects and does not mask (R178) -/
  selects : Bool
  /-- ILLOP at execution (R170) -/
  bad : VCfg → Bool
  f : Hart → VCfg → Nat → Nat → Nat → Nat → Nat → Nat × Flags

/-- The vector groups an elementwise instruction reads. -/
def Elem.groups (i : Elem) (c : VCfg) : List VGroup :=
  (match i.x with | some (r, w) => [⟨r.toNat, w.bytes c.b, w.size c.lmul⟩] | none => [])
  ++ (match i.y with | some (r, w, 0) => [⟨r.toNat, w.bytes c.b, w.size c.lmul⟩] | _ => [])
  ++ (if i.acc then [⟨i.d.toNat, i.dw.bytes c.b, i.dw.size c.lmul⟩] else [])

/-- The value at a position (R169). -/
def Elem.value (i : Elem) (h : Hart) (c : VCfg) (ops : List Word) (row e : Nat) : Nat × Flags :=
  let x := match i.x with | some (r, w) => elemRd h.v c.g (w.bytes c.b) r.toNat row e | none => 0
  let y := match i.y with
    | some (r, w, 0) => elemRd h.v c.g (w.bytes c.b) r.toNat row e
    | some (_, _, _) => (ops.getD 0 0).toNat % 2 ^ c.bits
    | none => 0
  let z := if i.acc then elemRd h.v c.g (i.dw.bytes c.b) i.d.toNat row e else 0
  i.f h c row e x y z

/-- The mask field in force. -/
def Elem.mask (i : Elem) : Nat := if i.selects then 0 else i.k.toNat

/-- Its effect (R156, R172, R173). -/
def Elem.run (i : Elem) (e : VEntry) (s : State) : VRes :=
  let h := s.hart
  let c := VCfg.of h e
  let act := fun r j => c.active h.m i.mask r j
  let fl := c.positions.foldl (fun a p => if act p.1 p.2 then a ||| (i.value h c e.ops p.1 p.2).2 else a) (0 : Flags)
  ((s.orFlags fl).mapWrite c act ⟨i.d.toNat, i.dw.bytes c.b, i.dw.size c.lmul⟩ (i.groups c)
    (c.maskRegs i.k.toNat) none fun r j => (i.value h c e.ops r j).1).vdone

/-- The frame of an elementwise instruction. -/
def Elem.spec (i : Elem) : VSpec where
  word := i.word
  qword := i.word
  size := 4
  pfx := .copy
  dst := fun l => some (i.d.toNat, i.dw.size l)
  srcs := fun l =>
    (match i.x with | some (r, w) => [(r.toNat, w.size l)] | none => [])
    ++ (match i.y with | some (r, w, 0) => [(r.toNat, w.size l)] | _ => [])
    ++ (if i.acc then [(i.d.toNat, i.dw.size l)] else [])
  bank := match i.x, i.y with | some (r, _), some (q, _, 0) => some (r.toNat, q.toNat) | _, _ => none
  gs := match i.y with | some (r, _, 1) => [r] | _ => []
  lastd := .v i.d
  check := fun _ c _ => illopIf i.word (i.bad c)
  run := i.run

/-- A two-source integer form (R176, R177). -/
def vint2 (word : Nat) (d a b : Reg) (k : BitVec 3) (sb : BitVec 1) (f : Nat → Nat → Nat → Nat) (s : State) : Out :=
  runVector ({ word := word, d := d, dw := .same, x := some (a, .same), y := some (b, .same, sb), acc := false, k := k,
               selects := false, bad := fun _ => false, f := fun _ c _ _ x y _ => (f c.bits x y, 0) } : Elem).spec s

/-- The low `n` bits of an integer clamped to a range. -/
def clampN (n : Nat) (lo hi i : Int) : Nat := lowBits n (max lo (min hi i))
/-- Clamped to the signed range of `n` bits. -/
def clampS (n : Nat) (i : Int) : Nat := clampN n (-(2 ^ (n - 1) : Nat)) ((2 ^ (n - 1) : Nat) - 1) i
/-- Clamped to the unsigned range of `n` bits. -/
def clampU (n : Nat) (i : Int) : Nat := clampN n 0 ((2 ^ n : Nat) - 1) i

/-! ## VSET (R174, R175) -/

/-- VSET. -/
def execVset (d a : Reg) (m t x : BitVec 1) (e l : BitVec 2) (r : BitVec 3) (s : State) : Out :=
  runScalar ⟨Enc.vset d a m t x e l r, 4, .never, true, false, [d, a]⟩
    (fun s =>
      if s.grantWaits then .wait s
      else
        let avl := (s.rd a).toNat
        let s1 := s.applyGrant
        let ty := BitVec.ofNat 8 (Enc.vset d a m t x e l r / 131072)
        let vl := min avl (vlmaxOf ty s1.st.grant s1.hart.vlcap)
        let s2 := s1.setSt { s1.st with vtype := ty, vl := BitVec.ofNat 16 vl, rc := r.setWidth 4 + 1, vstart := 0 }
        .ok () (s2.finishG (Enc.vset d a m t x e l r) 4 d (BitVec.ofNat 64 vl))) s

/-! ## VINT (R177, R178) -/

/-- VADD (R177). -/
def execVadd (d a b : Reg) (k : BitVec 3) (sb : BitVec 1) (s : State) : Out :=
  vint2 (Enc.vadd d a b k sb) d a b k sb (fun n x y => (x + y) % 2 ^ n) s
/-- VSUB (R177). -/
def execVsub (d a b : Reg) (k : BitVec 3) (sb : BitVec 1) (s : State) : Out :=
  vint2 (Enc.vsub d a b k sb) d a b k sb (fun n x y => lowBits n ((x : Int) - y)) s
/-- VRSUB (R177). -/
def execVrsub (d a b : Reg) (k : BitVec 3) (sb : BitVec 1) (s : State) : Out :=
  vint2 (Enc.vrsub d a b k sb) d a b k sb (fun n x y => lowBits n ((y : Int) - x)) s
/-- VMUL (R177). -/
def execVmul (d a b : Reg) (k : BitVec 3) (sb : BitVec 1) (s : State) : Out :=
  vint2 (Enc.vmul d a b k sb) d a b k sb (fun n x y => x * y % 2 ^ n) s
/-- VMULH (R177). -/
def execVmulh (d a b : Reg) (k : BitVec 3) (sb : BitVec 1) (s : State) : Out :=
  vint2 (Enc.vmulh d a b k sb) d a b k sb (fun n x y => mulhS n x y) s
/-- VMULHU (R177). -/
def execVmulhu (d a b : Reg) (k : BitVec 3) (sb : BitVec 1) (s : State) : Out :=
  vint2 (Enc.vmulhu d a b k sb) d a b k sb (fun n x y => mulhU n x y) s
/-- VDIV (R177). -/
def execVdiv (d a b : Reg) (k : BitVec 3) (sb : BitVec 1) (s : State) : Out :=
  vint2 (Enc.vdiv d a b k sb) d a b k sb (fun n x y => divS n x y) s
/-- VDIVU (R177). -/
def execVdivu (d a b : Reg) (k : BitVec 3) (sb : BitVec 1) (s : State) : Out :=
  vint2 (Enc.vdivu d a b k sb) d a b k sb (fun n x y => divU n x y) s
/-- VREM (R177). -/
def execVrem (d a b : Reg) (k : BitVec 3) (sb : BitVec 1) (s : State) : Out :=
  vint2 (Enc.vrem d a b k sb) d a b k sb (fun n x y => remS n x y) s
/-- VREMU (R177). -/
def execVremu (d a b : Reg) (k : BitVec 3) (sb : BitVec 1) (s : State) : Out :=
  vint2 (Enc.vremu d a b k sb) d a b k sb (fun n x y => remU n x y) s
/-- VAND (R177). -/
def execVand (d a b : Reg) (k : BitVec 3) (sb : BitVec 1) (s : State) : Out :=
  vint2 (Enc.vand d a b k sb) d a b k sb (fun _ x y => x &&& y) s
/-- VOR (R177). -/
def execVor (d a b : Reg) (k : BitVec 3) (sb : BitVec 1) (s : State) : Out :=
  vint2 (Enc.vor d a b k sb) d a b k sb (fun _ x y => x ||| y) s
/-- VXOR (R177). -/
def execVxor (d a b : Reg) (k : BitVec 3) (sb : BitVec 1) (s : State) : Out :=
  vint2 (Enc.vxor d a b k sb) d a b k sb (fun _ x y => x ^^^ y) s
/-- VSLL (R177). -/
def execVsll (d a b : Reg) (k : BitVec 3) (sb : BitVec 1) (s : State) : Out :=
  vint2 (Enc.vsll d a b k sb) d a b k sb (fun n x y => x * 2 ^ (y % n) % 2 ^ n) s
/-- VSRL (R177). -/
def execVsrl (d a b : Reg) (k : BitVec 3) (sb : BitVec 1) (s : State) : Out :=
  vint2 (Enc.vsrl d a b k sb) d a b k sb (fun n x y => x / 2 ^ (y % n)) s
/-- VSRA (R177). -/
def execVsra (d a b : Reg) (k : BitVec 3) (sb : BitVec 1) (s : State) : Out :=
  vint2 (Enc.vsra d a b k sb) d a b k sb (fun n x y => lowBits n (sextN n x / (2 ^ (y % n) : Nat))) s
/-- VMIN (R177). -/
def execVmin (d a b : Reg) (k : BitVec 3) (sb : BitVec 1) (s : State) : Out :=
  vint2 (Enc.vmin d a b k sb) d a b k sb (fun n x y => if sextN n x ≤ sextN n y then x else y) s
/-- VMAX (R177). -/
def execVmax (d a b : Reg) (k : BitVec 3) (sb : BitVec 1) (s : State) : Out :=
  vint2 (Enc.vmax d a b k sb) d a b k sb (fun n x y => if sextN n x ≤ sextN n y then y else x) s
/-- VMINU (R177). -/
def execVminu (d a b : Reg) (k : BitVec 3) (sb : BitVec 1) (s : State) : Out :=
  vint2 (Enc.vminu d a b k sb) d a b k sb (fun _ x y => min x y) s
/-- VMAXU (R177). -/
def execVmaxu (d a b : Reg) (k : BitVec 3) (sb : BitVec 1) (s : State) : Out :=
  vint2 (Enc.vmaxu d a b k sb) d a b k sb (fun _ x y => max x y) s
/-- VSADD (R177). -/
def execVsadd (d a b : Reg) (k : BitVec 3) (sb : BitVec 1) (s : State) : Out :=
  vint2 (Enc.vsadd d a b k sb) d a b k sb (fun n x y => clampS n (sextN n x + sextN n y)) s
/-- VSADDU (R177). -/
def execVsaddu (d a b : Reg) (k : BitVec 3) (sb : BitVec 1) (s : State) : Out :=
  vint2 (Enc.vsaddu d a b k sb) d a b k sb (fun n x y => clampU n ((x : Int) + y)) s
/-- VSSUB (R177). -/
def execVssub (d a b : Reg) (k : BitVec 3) (sb : BitVec 1) (s : State) : Out :=
  vint2 (Enc.vssub d a b k sb) d a b k sb (fun n x y => clampS n (sextN n x - sextN n y)) s
/-- VSSUBU (R177). -/
def execVssubu (d a b : Reg) (k : BitVec 3) (sb : BitVec 1) (s : State) : Out :=
  vint2 (Enc.vssubu d a b k sb) d a b k sb (fun n x y => clampU n ((x : Int) - y)) s
/-- VMERGE (R178): the mask field selects. -/
def execVmerge (d a b : Reg) (k : BitVec 3) (sb : BitVec 1) (s : State) : Out :=
  runVector ({ word := Enc.vmerge d a b k sb, d := d, dw := .same, x := some (a, .same), y := some (b, .same, sb),
               acc := false, k := k, selects := true, bad := fun _ => false
               f := fun h _ r e x y _ => (if maskRd h.m k.toNat r e then y else x, 0) } : Elem).spec s
/-- VMV (R177). -/
def execVmv (d b : Reg) (k : BitVec 3) (sb : BitVec 1) (s : State) : Out :=
  runVector ({ word := Enc.vmv d b k sb, d := d, dw := .same, x := none, y := some (b, .same, sb),
               acc := false, k := k, selects := false, bad := fun _ => false, f := fun _ _ _ _ _ y _ => (y, 0) } : Elem).spec s
/-- VIDX (R177). -/
def execVidx (d : Reg) (k : BitVec 3) (s : State) : Out :=
  runVector ({ word := Enc.vidx d k, d := d, dw := .same, x := none, y := none, acc := false, k := k, selects := false
               bad := fun _ => false, f := fun _ c _ e _ _ _ => (e % 2 ^ c.bits, 0) } : Elem).spec s

/-- C.VADD (R114): VADD of vs and v[LASTD.V], which it reads at issue. -/
def execCVadd (d x : Reg) (s : State) : Out :=
  let i : Elem := { word := Enc.cVadd d x, d := d, dw := .same, x := some (x, .same), y := some (s.st.lastV, .same, 0)
                    acc := false, k := 0, selects := false, bad := fun _ => false
                    f := fun _ c _ _ x y _ => ((x + y) % 2 ^ c.bits, 0) }
  runVector { i.spec with size := 2, qword := Enc.vadd d x s.st.lastV 0 0 } s

/-! ## VFP (R181-R183) -/

/-- VFP forms need SEW above 8 (R170). -/
def sew8 (c : VCfg) : Bool := c.sew == 0

/-- A two-source floating-point form (R182). -/
def vfp2 (word : Nat) (d a b : Reg) (k : BitVec 3) (sb : BitVec 1) (f : Fmt → Rm → Nat → Nat → Nat × Flags) (s : State) : Out :=
  runVector ({ word := word, d := d, dw := .same, x := some (a, .same), y := some (b, .same, sb), acc := false, k := k,
               selects := false, bad := sew8, f := fun _ c _ _ x y _ => f c.fmt c.rm x y } : Elem).spec s

/-- A fused form (R182): vd is the addend. -/
def vfmaElem (word : Nat) (d a b : Reg) (k : BitVec 3) (sb : BitVec 1) (np nz : Bool) : Elem where
  word := word
  d := d
  dw := .same
  x := some (a, .same)
  y := some (b, .same, sb)
  acc := true
  k := k
  selects := false
  bad := sew8
  f := fun _ c _ _ x y z => c.fmt.fma c.rm np nz x y z

/-- VFADD (R182). -/
def execVfadd (d a b : Reg) (k : BitVec 3) (sb : BitVec 1) (s : State) : Out :=
  vfp2 (Enc.vfadd d a b k sb) d a b k sb (fun f r x y => f.add r x y) s
/-- VFSUB (R182). -/
def execVfsub (d a b : Reg) (k : BitVec 3) (sb : BitVec 1) (s : State) : Out :=
  vfp2 (Enc.vfsub d a b k sb) d a b k sb (fun f r x y => f.sub r x y) s
/-- VFMUL (R182). -/
def execVfmul (d a b : Reg) (k : BitVec 3) (sb : BitVec 1) (s : State) : Out :=
  vfp2 (Enc.vfmul d a b k sb) d a b k sb (fun f r x y => f.mul r x y) s
/-- VFDIV (R182). -/
def execVfdiv (d a b : Reg) (k : BitVec 3) (sb : BitVec 1) (s : State) : Out :=
  vfp2 (Enc.vfdiv d a b k sb) d a b k sb (fun f r x y => f.div r x y) s
/-- VFMIN (R182). -/
def execVfmin (d a b : Reg) (k : BitVec 3) (sb : BitVec 1) (s : State) : Out :=
  vfp2 (Enc.vfmin d a b k sb) d a b k sb (fun f _ x y => f.minmax false x y) s
/-- VFMAX (R182). -/
def execVfmax (d a b : Reg) (k : BitVec 3) (sb : BitVec 1) (s : State) : Out :=
  vfp2 (Enc.vfmax d a b k sb) d a b k sb (fun f _ x y => f.minmax true x y) s
/-- VFSIGN (R182). -/
def execVfsign (d a b : Reg) (k : BitVec 3) (sb : BitVec 1) (s : State) : Out :=
  vfp2 (Enc.vfsign d a b k sb) d a b k sb (fun f _ x y => (f.withSign 0 x y, 0)) s
/-- VFSQRT (R182). -/
def execVfsqrt (d b : Reg) (k : BitVec 3) (sb : BitVec 1) (s : State) : Out :=
  runVector ({ word := Enc.vfsqrt d b k sb, d := d, dw := .same, x := none, y := some (b, .same, sb), acc := false, k := k,
               selects := false, bad := sew8, f := fun _ c _ _ _ y _ => c.fmt.sqrt c.rm y } : Elem).spec s
/-- VFCLASS (R182). -/
def execVfclass (d b : Reg) (k : BitVec 3) (sb : BitVec 1) (s : State) : Out :=
  runVector ({ word := Enc.vfclass d b k sb, d := d, dw := .same, x := none, y := some (b, .same, sb), acc := false, k := k,
               selects := false, bad := sew8, f := fun _ c _ _ _ y _ => (c.fmt.classify y, 0) } : Elem).spec s
/-- VFMA (R182). -/
def execVfma (d a b : Reg) (k : BitVec 3) (sb : BitVec 1) (s : State) : Out :=
  runVector (vfmaElem (Enc.vfma d a b k sb) d a b k sb false false).spec s
/-- VFMSUB (R182). -/
def execVfmsub (d a b : Reg) (k : BitVec 3) (sb : BitVec 1) (s : State) : Out :=
  runVector (vfmaElem (Enc.vfmsub d a b k sb) d a b k sb false true).spec s
/-- VFNMA (R182). -/
def execVfnma (d a b : Reg) (k : BitVec 3) (sb : BitVec 1) (s : State) : Out :=
  runVector (vfmaElem (Enc.vfnma d a b k sb) d a b k sb true false).spec s

/-- C.VFMA (R114): VFMA of vs and v[LASTD.V]. -/
def execCVfma (d x : Reg) (s : State) : Out :=
  runVector { (vfmaElem (Enc.cVfma d x) d x s.st.lastV 0 0 false false).spec with
              size := 2, bank := some (x.toNat, s.st.lastV.toNat), qword := Enc.vfma d x s.st.lastV 0 0 } s

/-- What VPIV does to an element (R183): the new element, its mark, whether it counts as replaced, the flags. A signalling
threshold raises none (DESIGN CHOICE, log 40). -/
def pivotOne (f : Fmt) (thr x : Nat) : Nat × Bool × Bool × Flags :=
  let t := thr % f.signBit
  match f.read x with
  | .nan sg => (f.canon, true, false, flagIf sg flagNV)
  | xv =>
    let tv := f.read t
    let mag := f.read (x % f.signBit)
    if !tv.isNan && cmpVal mag tv == .lt then (f.signed xv.sign t, true, true, 0) else (x, false, false, 0)

/-- VPIV (R183, R184): with a copy prefix every active element is written to the copy group, one that VPIV leaves unchanged too
(DESIGN CHOICE, log 40). -/
def runVpiv (d : Reg) (n : BitVec 3) (k : BitVec 3) (e : VEntry) (s : State) : VRes :=
  let h := s.hart
  let c := VCfg.of h e
  let act := fun r j => c.active h.m k.toNat r j
  let one := fun r j => pivotOne c.fmt (e.ops.getD 0 0).toNat (elemRd h.v c.g c.b d.toNat r j)
  let live := c.positions.filter fun p => act p.1 p.2
  let fl := live.foldl (fun a p => a ||| (one p.1 p.2).2.2.2) (0 : Flags)
  let cnt := (live.filter fun p => (one p.1 p.2).2.2.1).length
  let g : VGroup := ⟨d.toNat, c.b, c.lmul⟩
  let ks := c.maskRegs k.toNat
  let s1 := (s.orFlags fl).mapWrite c act g [g] ks none fun r j => (one r j).1
  let s2 := s1.putMask h.poison c act n.toNat [g] ks fun r j => (one r j).2.1
  ({ s2 with hart := { s2.hart with pivcnt := h.pivcnt + BitVec.ofNat 64 cnt } }).vdone

/-- VPIV. -/
def execVpiv (d : Reg) (n : BitVec 3) (b : Reg) (k : BitVec 3) (s : State) : Out :=
  runVector
    { word := Enc.vpiv d n b k, qword := Enc.vpiv d n b k, size := 4, pfx := .copy
      dst := fun l => some (d.toNat, l), srcs := fun l => [(d.toNat, l)], bank := none, gs := [b], lastd := .v d
      check := fun _ c _ => illopIf (Enc.vpiv d n b k) (sew8 c), run := runVpiv d n k } s

/-! ## VWIDE (R179, R180, R185, R186) -/

/-- Widening forms need SEW below 64 (R170). -/
def sew64 (c : VCfg) : Bool := c.sew == 3

/-- A widening form (R180). -/
def vwide (word : Nat) (d a b : Reg) (k : BitVec 3) (sb : BitVec 1) (acc : Bool) (f : Nat → Nat → Nat → Nat → Nat) (s : State) : Out :=
  runVector ({ word := word, d := d, dw := .double, x := some (a, .same), y := some (b, .same, sb), acc := acc, k := k,
               selects := false, bad := sew64, f := fun _ c _ _ x y z => (f c.bits x y z, 0) } : Elem).spec s

/-- A narrowing form (R180): vs1 is wide; a scalar shift is read at SEW. -/
def vnarrow (word : Nat) (d a b : Reg) (k : BitVec 3) (sb : BitVec 1) (f : Nat → Nat → Nat → Nat) (s : State) : Out :=
  runVector ({ word := word, d := d, dw := .same, x := some (a, .double), y := some (b, .same, sb), acc := false, k := k,
               selects := false, bad := sew64, f := fun _ c _ _ x y _ => (f c.bits x y, 0) } : Elem).spec s

/-- VWADD (R180). -/
def execVwadd (d a b : Reg) (k : BitVec 3) (sb : BitVec 1) (s : State) : Out :=
  vwide (Enc.vwadd d a b k sb) d a b k sb false (fun n x y _ => lowBits (2 * n) (sextN n x + sextN n y)) s
/-- VWADDU (R180). -/
def execVwaddu (d a b : Reg) (k : BitVec 3) (sb : BitVec 1) (s : State) : Out :=
  vwide (Enc.vwaddu d a b k sb) d a b k sb false (fun _ x y _ => x + y) s
/-- VWMUL (R180). -/
def execVwmul (d a b : Reg) (k : BitVec 3) (sb : BitVec 1) (s : State) : Out :=
  vwide (Enc.vwmul d a b k sb) d a b k sb false (fun n x y _ => lowBits (2 * n) (sextN n x * sextN n y)) s
/-- VWMULU (R180). -/
def execVwmulu (d a b : Reg) (k : BitVec 3) (sb : BitVec 1) (s : State) : Out :=
  vwide (Enc.vwmulu d a b k sb) d a b k sb false (fun _ x y _ => x * y) s
/-- VWACC (R180). -/
def execVwacc (d a b : Reg) (k : BitVec 3) (sb : BitVec 1) (s : State) : Out :=
  vwide (Enc.vwacc d a b k sb) d a b k sb true (fun n x y z => lowBits (2 * n) (z + sextN n x * sextN n y)) s
/-- VWACCU (R180). -/
def execVwaccu (d a b : Reg) (k : BitVec 3) (sb : BitVec 1) (s : State) : Out :=
  vwide (Enc.vwaccu d a b k sb) d a b k sb true (fun n x y z => (z + x * y) % 2 ^ (2 * n)) s
/-- VNSRL (R180). -/
def execVnsrl (d a b : Reg) (k : BitVec 3) (sb : BitVec 1) (s : State) : Out :=
  vnarrow (Enc.vnsrl d a b k sb) d a b k sb (fun n x y => x / 2 ^ (y % (2 * n)) % 2 ^ n) s
/-- VNCLIP (R180): rounds half up, then clamps. -/
def execVnclip (d a b : Reg) (k : BitVec 3) (sb : BitVec 1) (s : State) : Out :=
  vnarrow (Enc.vnclip d a b k sb) d a b k sb
    (fun n x y =>
      let sh := y % (2 * n)
      let t := sextN (2 * n) x
      clampS n (if sh = 0 then t else (t + (2 ^ (sh - 1) : Nat)) / (2 ^ sh : Nat))) s

/-- The partner format of VFCVT code 4 (R186). -/
def VCfg.wider (c : VCfg) : Fmt :=
  match c.sew, c.alt with
  | 0, false => fmtBf16
  | 0, true => fmtF16
  | 1, _ => fmtF32
  | _, _ => fmtF64
/-- The partner format of VFCVT code 5 (R186). -/
def VCfg.narrower (c : VCfg) : Fmt :=
  match c.sew, c.alt with
  | 1, false => fmtE5m2
  | 1, true => fmtE4m3
  | 2, _ => fmtBf16
  | _, _ => fmtF32

/-- A VFCVT element by its code (R185). -/
def vfcvtOne (c : VCfg) (code x : Nat) : Nat × Flags :=
  match code with
  | 0 => c.fmt.toInt c.rm true c.bits x
  | 1 => c.fmt.toInt c.rm false c.bits x
  | 2 => c.fmt.ofInt c.rm (sextN c.bits x)
  | 3 => c.fmt.ofInt c.rm x
  | 4 => c.fmt.convert c.wider c.rm x
  | _ => c.fmt.convert c.narrower c.rm x

/-- VFCVT (R170, R185). -/
def execVfcvt (d c b : Reg) (k : BitVec 3) (s : State) : Out :=
  runVector ({ word := Enc.vfcvt d c b k, d := d, dw := if c = 4 then .double else if c = 5 then .half else .same, x := none
               y := some (b, .same, 0), acc := false, k := k, selects := false
               bad := fun cf => if c = 4 then sew64 cf else sew8 cf, f := fun _ cf _ _ _ y _ => vfcvtOne cf c.toNat y } : Elem).spec s

/-! ## Compares (R187) -/

/-- The effect of a compare into a mask. -/
def runVcmp (d : BitVec 3) (a b : Reg) (k : BitVec 3) (sb : BitVec 1) (f : VCfg → Nat → Nat → Bool × Flags) (e : VEntry) (s : State) : VRes :=
  let h := s.hart
  let c := VCfg.of h e
  let act := fun r j => c.active h.m k.toNat r j
  let one := fun r j =>
    f c (elemRd h.v c.g c.b a.toNat r j) (if sb = 0 then elemRd h.v c.g c.b b.toNat r j else (e.ops.getD 0 0).toNat % 2 ^ c.bits)
  let fl := c.positions.foldl (fun x p => if act p.1 p.2 then x ||| (one p.1 p.2).2 else x) (0 : Flags)
  let srcs : List VGroup := ⟨a.toNat, c.b, c.lmul⟩ :: (if sb = 0 then [⟨b.toNat, c.b, c.lmul⟩] else [])
  ((s.orFlags fl).putMask h.poison c act d.toNat srcs (c.maskRegs k.toNat) fun r j => (one r j).1).vdone

/-- The frame of a compare (R55, R65, R187). -/
def vcmpSpec (word : Nat) (d : BitVec 3) (a b : Reg) (k : BitVec 3) (sb : BitVec 1) (bad : VCfg → Bool)
    (f : VCfg → Nat → Nat → Bool × Flags) : VSpec where
  word := word
  qword := word
  size := 4
  pfx := .pred
  dst := fun _ => none
  srcs := fun l => (a.toNat, l) :: (if sb = 0 then [(b.toNat, l)] else [])
  bank := if sb = 0 then some (a.toNat, b.toNat) else none
  gs := if sb = 1 then [b] else []
  lastd := .none
  check := fun _ c _ => illopIf word (bad c)
  run := runVcmp d a b k sb f

/-- An integer compare. -/
def vcmpInt (word : Nat) (d : BitVec 3) (a b : Reg) (k : BitVec 3) (sb : BitVec 1) (f : Nat → Nat → Nat → Bool) (s : State) : Out :=
  runVector (vcmpSpec word d a b k sb (fun _ => false) fun c x y => (f c.bits x y, 0)) s
/-- A floating-point compare by its code (R136). -/
def vcmpFp (word : Nat) (d : BitVec 3) (a b : Reg) (k : BitVec 3) (sb : BitVec 1) (code : Nat) (s : State) : Out :=
  runVector (vcmpSpec word d a b k sb sew8 fun c x y => c.fmt.compare code x y) s

/-- VCMP_EQ (R187). -/
def execVcmpEq (d : BitVec 3) (a b : Reg) (k : BitVec 3) (sb : BitVec 1) (s : State) : Out :=
  vcmpInt (Enc.vcmpEq d a b k sb) d a b k sb (fun _ x y => x == y) s
/-- VCMP_NE (R187). -/
def execVcmpNe (d : BitVec 3) (a b : Reg) (k : BitVec 3) (sb : BitVec 1) (s : State) : Out :=
  vcmpInt (Enc.vcmpNe d a b k sb) d a b k sb (fun _ x y => x != y) s
/-- VCMP_LT (R187). -/
def execVcmpLt (d : BitVec 3) (a b : Reg) (k : BitVec 3) (sb : BitVec 1) (s : State) : Out :=
  vcmpInt (Enc.vcmpLt d a b k sb) d a b k sb (fun n x y => decide (sextN n x < sextN n y)) s
/-- VCMP_LE (R187). -/
def execVcmpLe (d : BitVec 3) (a b : Reg) (k : BitVec 3) (sb : BitVec 1) (s : State) : Out :=
  vcmpInt (Enc.vcmpLe d a b k sb) d a b k sb (fun n x y => decide (sextN n x ≤ sextN n y)) s
/-- VCMP_LTU (R187). -/
def execVcmpLtu (d : BitVec 3) (a b : Reg) (k : BitVec 3) (sb : BitVec 1) (s : State) : Out :=
  vcmpInt (Enc.vcmpLtu d a b k sb) d a b k sb (fun _ x y => decide (x < y)) s
/-- VCMP_LEU (R187). -/
def execVcmpLeu (d : BitVec 3) (a b : Reg) (k : BitVec 3) (sb : BitVec 1) (s : State) : Out :=
  vcmpInt (Enc.vcmpLeu d a b k sb) d a b k sb (fun _ x y => decide (x ≤ y)) s
/-- VFCMP_EQ (R187). -/
def execVfcmpEq (d : BitVec 3) (a b : Reg) (k : BitVec 3) (sb : BitVec 1) (s : State) : Out :=
  vcmpFp (Enc.vfcmpEq d a b k sb) d a b k sb 0 s
/-- VFCMP_LT (R187). -/
def execVfcmpLt (d : BitVec 3) (a b : Reg) (k : BitVec 3) (sb : BitVec 1) (s : State) : Out :=
  vcmpFp (Enc.vfcmpLt d a b k sb) d a b k sb 1 s
/-- VFCMP_LE (R187). -/
def execVfcmpLe (d : BitVec 3) (a b : Reg) (k : BitVec 3) (sb : BitVec 1) (s : State) : Out :=
  vcmpFp (Enc.vfcmpLe d a b k sb) d a b k sb 2 s
/-- VFCMP_UNORD (R187). -/
def execVfcmpUnord (d : BitVec 3) (a b : Reg) (k : BitVec 3) (sb : BitVec 1) (s : State) : Out :=
  vcmpFp (Enc.vfcmpUnord d a b k sb) d a b k sb 3 s

/-! ## Masks (R189, R190) -/

/-- The frame of an instruction on masks alone. -/
def maskSpec (word : Nat) (lastd : LastDest) (run : VEntry → State → VRes) : VSpec where
  word := word
  qword := word
  size := 4
  pfx := .never
  dst := fun _ => none
  srcs := fun _ => []
  bank := none
  gs := []
  lastd := lastd
  check := fun _ _ _ => none
  run := run

/-- MAND to MMV (R189): no inactive positions. -/
def runMask (word : Nat) (d a b : BitVec 3) (f : Bool → Bool → Bool) (s : State) : Out :=
  runVector (maskSpec word .none fun e s =>
    let h := s.hart
    let c := VCfg.of h e
    (s.putMask h.poison c (fun _ _ => true) d.toNat [] [a.toNat, b.toNat]
      fun r j => f (maskRd h.m a.toNat r j) (maskRd h.m b.toNat r j)).vdone) s

/-- MAND (R189). -/
def execMand (d a b : BitVec 3) (s : State) : Out := runMask (Enc.mand d a b) d a b (fun x y => x && y) s
/-- MOR (R189). -/
def execMor (d a b : BitVec 3) (s : State) : Out := runMask (Enc.mor d a b) d a b (fun x y => x || y) s
/-- MXOR (R189). -/
def execMxor (d a b : BitVec 3) (s : State) : Out := runMask (Enc.mxor d a b) d a b (fun x y => x != y) s
/-- MANDN (R189). -/
def execMandn (d a b : BitVec 3) (s : State) : Out := runMask (Enc.mandn d a b) d a b (fun x y => x && !y) s
/-- MNOT (R189). -/
def execMnot (d b : BitVec 3) (s : State) : Out := runMask (Enc.mnot d b) d b b (fun _ y => !y) s
/-- MMV (R189). -/
def execMmv (d b : BitVec 3) (s : State) : Out := runMask (Enc.mmv d b) d b b (fun _ y => y) s

/-- MCLR (R189): every bit, whatever VL; the feeder clears its own m0, no other mask (R145, R168), at any LMUL (DESIGN CHOICE,
DESIGN CHOICE, log 39). -/
def execMclr (d : BitVec 3) (s : State) : Out :=
  if s.onFeeder ∧ s.atHead = false then
    runScalar ⟨Enc.mclr d, 4, .never, d == 0, false, []⟩
      (fun s => .ok () (({ s with hart := { s.hart with fm0 := [], feed := { s.hart.feed with vstart := 0 } } }).finish
        (Enc.mclr d) 4)) s
  else
    runVector (maskSpec (Enc.mclr d) .none fun _ s =>
      ({ s with hart := { s.hart with
          m := s.hart.m.filter fun x => x.1 / 16384 / 8 != d.toNat
          poison := s.hart.poison.filter fun k => !(decide (49152 ≤ k) && (k - 49152) / 2048 == d.toNat) } }).vdone) s

/-- The body positions of mB, set. -/
def setBits (h : Hart) (c : VCfg) (b k : BitVec 3) : List (Nat × Nat) :=
  c.positions.filter fun p => c.active h.m k.toNat p.1 p.2 && maskRd h.m b.toNat p.1 p.2

/-- A g result computed from mask bits: a POISON record where one that it depends on is poisoned (R452). -/
def State.putMaskG (s : State) (word : Nat) (d : Reg) (b k : BitVec 3) (e : VEntry) (v : Word) : VRes :=
  let c := VCfg.of s.hart e
  let bad := s.hart.poison != [] && c.positions.any fun p => c.started p.1 p.2
    && (b.toNat :: c.maskRegs k.toNat).any fun n => maskBad s.hart.poison n p.1 p.2
  (if bad then (s.putG d v).poisonScalar e.pc word else s.putG d v).vdone

/-- MPOPC (R190). -/
def execMpopc (d : Reg) (b k : BitVec 3) (s : State) : Out :=
  runVector (maskSpec (Enc.mpopc d b k) (.g d) fun e s =>
    s.putMaskG (Enc.mpopc d b k) d b k e (BitVec.ofNat 64 (setBits s.hart (VCfg.of s.hart e) b k).length)) s
/-- MFIRST (R190). -/
def execMfirst (d : Reg) (b k : BitVec 3) (s : State) : Out :=
  runVector (maskSpec (Enc.mfirst d b k) (.g d) fun e s =>
    s.putMaskG (Enc.mfirst d b k) d b k e (match setBits s.hart (VCfg.of s.hart e) b k with
      | [] => BitVec.allOnes 64
      | p :: _ => BitVec.ofNat 64 (p.1 * 65536 + p.2))) s

end Sys2Proof.Machine
end

