-- ==== Sys2Proof/Machine/VecReduce.lean ====
section
/-! DEFINITION. The reductions (spec/06 R191-R196). -/

namespace Sys2Proof.Machine

/-- A reduction: `f` has the hart, the configuration, the row's initial value and its active (e, value) pairs in
ascending order, of which there is at least one. -/
structure Red where
  word : Nat
  d : Reg
  a : Reg
  b : Reg
  k : BitVec 3
  /-- vs1 and vd have width 2 * SEW (R191) -/
  wide : Bool
  /-- ILLOP at execution (R170) -/
  bad : VCfg → Bool
  f : VCfg → Nat → List (Nat × Nat) → Nat × Flags

/-- Element bytes of vs1 and vd. -/
def Red.bytes (i : Red) (c : VCfg) : Nat := if i.wide then 2 * c.b else c.b

/-- The result of a row: its initial value unchanged when no source position is active (R191). -/
def Red.row (i : Red) (h : Hart) (c : VCfg) (r : Nat) : Nat × Flags :=
  let init := elemRd h.v c.g (i.bytes c) i.a.toNat r 0
  let xs := ((List.range c.vl).filter fun e => c.active h.m i.k.toNat r e).map fun e => (e, elemRd h.v c.g c.b i.b.toNat r e)
  if xs = [] then (init, 0) else i.f c init xs

/-- Its effect (R191): element 0 of every row below RC; the elements above are tail. -/
def Red.run (i : Red) (e : VEntry) (s : State) : VRes :=
  let h := s.hart
  let c := VCfg.of h e
  let fl := (List.range c.rc).foldl (fun a r => a ||| (i.row h c r).2) (0 : Flags)
  let bad := c.readsBad h.poison
    [(⟨i.a.toNat, i.bytes c, 1⟩, (List.range c.rc).map fun r => (r, 0)), (⟨i.b.toNat, c.b, c.lmul⟩, c.positions)] (c.maskRegs i.k.toNat)
  ((s.orFlags fl).mapWrite { c with vl := 1 } (fun _ _ => true) ⟨i.d.toNat, i.bytes c, 1⟩ [] []
    (some bad) fun r _ => (i.row h c r).1).vdone

/-- The frame of a reduction. -/
def Red.spec (i : Red) : VSpec where
  word := i.word
  qword := i.word
  size := 4
  pfx := .never
  dst := fun _ => some (i.d.toNat, 1)
  srcs := fun l => [(i.a.toNat, 1), (i.b.toNat, l)]
  bank := some (i.a.toNat, i.b.toNat)
  gs := []
  lastd := .v i.d
  check := fun _ c _ => illopIf i.word (i.bad c || c.vrow != 0 || c.velem != 0)
  run := i.run

/-- An integer reduction (R192): folds a function of two values at SEW. -/
def redInt (word : Nat) (d a b : Reg) (k : BitVec 3) (f : Nat → Nat → Nat → Nat) (s : State) : Out :=
  runVector ({ word := word, d := d, a := a, b := b, k := k, wide := false, bad := fun _ => false
               f := fun c i xs => (xs.foldl (fun acc x => f c.bits acc x.2) i, 0) } : Red).spec s

/-- A floating-point reduction: ILLOP at SEW 8 (R170). -/
def redFp (word : Nat) (d a b : Reg) (k : BitVec 3) (f : VCfg → Nat → List (Nat × Nat) → Nat × Flags) (s : State) : Out :=
  runVector ({ word := word, d := d, a := a, b := b, k := k, wide := false, bad := sew8, f := f } : Red).spec s

/-- Folds a two-operand operation with flags over values. -/
def foldFp (f : Nat → Nat → Nat × Flags) (i : Nat) (xs : List Nat) : Nat × Flags :=
  xs.foldl (fun acc x => let r := f acc.1 x; (r.1, acc.2 ||| r.2)) (i, 0)

/-- One level of the pairwise tree of R194. -/
def treeLevel (f : Nat → Nat → Nat × Flags) : List Nat → List Nat × Flags
  | x :: y :: r =>
    let z := f x y
    let t := treeLevel f r
    (z.1 :: t.1, z.2 ||| t.2)
  | l => (l, 0)

/-- `n` levels of the tree. -/
def treeSum (f : Nat → Nat → Nat × Flags) : Nat → List Nat → List Nat × Flags
  | 0, l => (l, 0)
  | n + 1, l =>
    let t := treeLevel f l
    let r := treeSum f n t.1
    (r.1, t.2 ||| r.2)

/-- log2 of the smallest power of two not below `n`. -/
def ceilLog (n : Nat) : Nat := if n ≤ 1 then 0 else Nat.log2 (n - 1) + 1

/-- VFREDT's row (R194): the tree over all P positions with -0 at inactive ones, the initial value added last. -/
def redTree (c : VCfg) (i : Nat) (xs : List (Nat × Nat)) : Nat × Flags :=
  let add := fun x y => c.fmt.add c.rm x y
  let leaves := (List.range (2 ^ ceilLog c.vl)).map fun p =>
    match xs.find? (·.1 == p) with | some x => x.2 | none => c.fmt.signed true 0
  let t := treeSum add (ceilLog c.vl) leaves
  let r := add i (t.1.headD 0)
  (r.1, t.2 ||| r.2)

/-- An exact sum with its special state and flags (R130-R132). -/
def exactStep (f : Fmt) (acc : Special × Int × Int × Flags) (x : Nat) : Special × Int × Int × Flags :=
  match f.read x with
  | .fin n m e =>
    let t := exactSum (decide (acc.2.1 < 0)) acc.2.1.natAbs acc.2.2.1 n m e
    (acc.1, t.1, t.2, acc.2.2.2)
  | v => let r := specialTerm acc.1 v; (r.1, acc.2.1, acc.2.2.1, acc.2.2.2 ||| r.2)

/-- VFREDX's row (R195): the initial value enters first, then ascending e, which decides NV where a quiet NaN and both
infinities meet (DESIGN CHOICE, log 40). -/
def redExact (c : VCfg) (i : Nat) (xs : List (Nat × Nat)) : Nat × Flags :=
  let t := (i :: xs.map (·.2)).foldl (exactStep c.fmt) (.none, 0, 0, 0)
  let r := c.fmt.readout c.rm t.1 t.2.1 t.2.2.1
  (r.1, t.2.2.2 ||| r.2)

/-- VREDSUM (R192). -/
def execVredsum (d a b : Reg) (k : BitVec 3) (s : State) : Out :=
  redInt (Enc.vredsum d a b k) d a b k (fun n x y => (x + y) % 2 ^ n) s
/-- VREDMIN (R192). -/
def execVredmin (d a b : Reg) (k : BitVec 3) (s : State) : Out :=
  redInt (Enc.vredmin d a b k) d a b k (fun n x y => if sextN n x ≤ sextN n y then x else y) s
/-- VREDMAX (R192). -/
def execVredmax (d a b : Reg) (k : BitVec 3) (s : State) : Out :=
  redInt (Enc.vredmax d a b k) d a b k (fun n x y => if sextN n y ≤ sextN n x then x else y) s
/-- VREDMINU (R192). -/
def execVredminu (d a b : Reg) (k : BitVec 3) (s : State) : Out :=
  redInt (Enc.vredminu d a b k) d a b k (fun _ x y => if x ≤ y then x else y) s
/-- VREDMAXU (R192). -/
def execVredmaxu (d a b : Reg) (k : BitVec 3) (s : State) : Out :=
  redInt (Enc.vredmaxu d a b k) d a b k (fun _ x y => if y ≤ x then x else y) s
/-- VREDAND (R192). -/
def execVredand (d a b : Reg) (k : BitVec 3) (s : State) : Out :=
  redInt (Enc.vredand d a b k) d a b k (fun _ x y => x &&& y) s
/-- VREDOR (R192). -/
def execVredor (d a b : Reg) (k : BitVec 3) (s : State) : Out :=
  redInt (Enc.vredor d a b k) d a b k (fun _ x y => x ||| y) s
/-- VREDXOR (R192). -/
def execVredxor (d a b : Reg) (k : BitVec 3) (s : State) : Out :=
  redInt (Enc.vredxor d a b k) d a b k (fun _ x y => x ^^^ y) s
/-- VWREDSUM (R192). -/
def execVwredsum (d a b : Reg) (k : BitVec 3) (s : State) : Out :=
  runVector ({ word := Enc.vwredsum d a b k, d := d, a := a, b := b, k := k, wide := true, bad := sew64
               f := fun c i xs =>
                (xs.foldl (fun acc x => lowBits (2 * c.bits) ((acc : Int) + sextN c.bits x.2)) i, 0) } : Red).spec s
/-- VFREDO (R193). -/
def execVfredo (d a b : Reg) (k : BitVec 3) (s : State) : Out :=
  redFp (Enc.vfredo d a b k) d a b k (fun c i xs => foldFp (fun x y => c.fmt.add c.rm x y) i (xs.map (·.2))) s
/-- VFREDT (R194). -/
def execVfredt (d a b : Reg) (k : BitVec 3) (s : State) : Out :=
  redFp (Enc.vfredt d a b k) d a b k (fun c i xs => redTree c i xs) s
/-- VFREDX (R195). -/
def execVfredx (d a b : Reg) (k : BitVec 3) (s : State) : Out :=
  redFp (Enc.vfredx d a b k) d a b k (fun c i xs => redExact c i xs) s
/-- VFREDMIN (R196). -/
def execVfredmin (d a b : Reg) (k : BitVec 3) (s : State) : Out :=
  redFp (Enc.vfredmin d a b k) d a b k (fun c i xs => foldFp (fun x y => c.fmt.minmax false x y) i (xs.map (·.2))) s
/-- VFREDMAX (R196). -/
def execVfredmax (d a b : Reg) (k : BitVec 3) (s : State) : Out :=
  redFp (Enc.vfredmax d a b k) d a b k (fun c i xs => foldFp (fun x y => c.fmt.minmax true x y) i (xs.map (·.2))) s

end Sys2Proof.Machine
end

