-- ==== Sys2Proof/Machine/VecPerm.lean ====
section
/-! DEFINITION. Slides, permutes, reshape, row and element moves, and the tile-queue transfers (spec/07 R198-R214). -/

namespace Sys2Proof.Machine

/-- The frame of a form of this chapter: one destination group, its sources, and its checks (R198-R200). -/
def permSpec (word : Nat) (d : Reg) (srcs : List Reg) (gs : List Reg) (bank : Option (Nat × Nat))
    (bad : VCfg → List Word → Bool) (run : VEntry → State → VRes) : VSpec where
  word := word
  qword := word
  size := 4
  pfx := .never
  dst := fun l => some (d.toNat, l)
  srcs := fun l => srcs.map fun r => (r.toNat, l)
  bank := bank
  gs := gs
  lastd := .v d
  check := fun _ c ops => illopIf word (c.vrow != 0 || c.velem != 0 || bad c ops)
  run := run

/-- The element at SEW of a group. -/
def VCfg.el (c : VCfg) (h : Hart) (r : Reg) (row e : Nat) : Nat := elemRd h.v c.g c.b r.toNat row e

/-- Whether a form of this chapter reads poison in the rows `rows` of its sources (R452). -/
def permBad (h : Hart) (c : VCfg) (k : BitVec 3) (srcs : List Reg) (rows : List Nat) : Bool :=
  c.readsBad h.poison
    (srcs.map fun x => (⟨x.toNat, c.b, c.lmul⟩, rows.flatMap fun r => (List.range c.vl).map fun j => (r, j))) (c.maskRegs k.toNat)

/-- Writes active positions under the mask field `k`, all read first (R201), in the rows `rows`, below RC unless another list is
given; the positions of `keep` are left alone. -/
def permWrite (d : Reg) (k : BitVec 3) (srcs : List Reg) (f : Hart → VCfg → List Word → Nat → Nat → Nat) (e : VEntry)
    (s : State) (rows : VCfg → List Word → List Nat := fun c _ => List.range c.rc)
    (keep : VCfg → List Word → Nat → Nat → Bool := fun _ _ _ _ => false) : VRes :=
  let h := s.hart
  let c := VCfg.of h e
  let act := fun r j => c.active h.m k.toNat r j
  (s.mapWrite c act ⟨d.toNat, c.b, c.lmul⟩ [] [] (some (permBad h c k srcs (rows c e.ops)))
    (fun r j => f h c e.ops r j) fun r j => act r j && keep c e.ops r j).vdone

/-! ## Slides (R202-R204) -/

/-- FILL of a control word. -/
def slideFill (w : Word) : Nat := w.toNat / 65536 % 16
/-- K of a control word. -/
def slideK (w : Word) : Nat := w.toNat % 65536

/-- A fill value (R203); none for KEEP. -/
def fillValue (c : VCfg) (code : Nat) (scalar : Word) : Option Nat :=
  let n := c.bits
  let f := c.fmt
  match code with
  | 0 => none
  | 1 => some 0
  | 2 => some (2 ^ (n - 1))
  | 3 => some (match c.sew, c.alt with
      | 3, _ => 0x3FF0000000000000
      | 2, _ => 0x3F800000
      | 1, false => 0x3C00
      | 1, true => 0x3F80
      | _, false => 0x38
      | _, true => 0x3C)
  | 4 => some (f.inf.getD f.maxBits)
  | 5 => some (f.signed true (f.inf.getD f.maxBits))
  | 6 => some (2 ^ n - 1)
  | 7 => some 1
  | 8 => some (2 ^ (n - 1) - 1)
  | 9 => some (2 ^ (n - 1))
  | _ => some (scalar.toNat % 2 ^ n)

/-- The result of a slide at a position (R204): `src` is the source column, as an integer. -/
def slideAt (h : Hart) (c : VCfg) (d a : Reg) (fill : Option Nat) (row e : Nat) (src : Int) : Nat :=
  if 0 ≤ src ∧ src < c.vl then c.el h a row src.toNat
  else match fill with
    | none => c.el h d row e
    | some v => v

/-- The g registers a slide reads: g[vs2 + 1] only for a SCALAR fill (R203). -/
def slideRegs (b : Reg) (s : State) : List Reg := if slideFill (s.rd b) = 10 ∧ b ≠ 31 then [b, b + 1] else [b]

/-- R200 for the slides. -/
def slideBad (b : Reg) (ops : List Word) : Bool :=
  decide (11 ≤ slideFill (ops.getD 0 0)) || (slideFill (ops.getD 0 0) == 10 && b == 31)

/-- A slide by the control word: a position that takes the fill KEEP is left unchanged. -/
def runSlide (word : Nat) (d a b : Reg) (k : BitVec 3) (sign : Int) (s : State) : Out :=
  let src (ops : List Word) (e : Nat) : Int := (e : Int) + sign * slideK (ops.getD 0 0)
  runVector (permSpec word d [a] (slideRegs b s) none (fun _ ops => slideBad b ops) fun e s =>
    permWrite d k [a]
      (fun h c ops row e => slideAt h c d a (fillValue c (slideFill (ops.getD 0 0)) (ops.getD 1 0)) row e (src ops e)) e s
      (keep := fun c ops _ e => slideFill (ops.getD 0 0) == 0 && !(decide (0 ≤ src ops e) && decide (src ops e < c.vl)))) s

/-- A slide by 1. -/
def runSlide1 (word : Nat) (d a b : Reg) (k : BitVec 3) (sign : Int) (s : State) : Out :=
  runVector (permSpec word d [a] [b] none (fun _ _ => false)
    (permWrite d k [a] fun h c ops row e =>
      slideAt h c d a (some ((ops.getD 0 0).toNat % 2 ^ c.bits)) row e ((e : Int) + sign))) s

/-- VSLUP (R204). -/
def execVslup (d a b : Reg) (k : BitVec 3) (s : State) : Out := runSlide (Enc.vslup d a b k) d a b k (-1) s
/-- VSLDN (R204). -/
def execVsldn (d a b : Reg) (k : BitVec 3) (s : State) : Out := runSlide (Enc.vsldn d a b k) d a b k 1 s
/-- VSL1UP (R204). -/
def execVsl1up (d a b : Reg) (k : BitVec 3) (s : State) : Out := runSlide1 (Enc.vsl1up d a b k) d a b k (-1) s
/-- VSL1DN (R204). -/
def execVsl1dn (d a b : Reg) (k : BitVec 3) (s : State) : Out := runSlide1 (Enc.vsl1dn d a b k) d a b k 1 s

/-! ## Permutes (R205-R207) -/

/-- VPERM (R205). -/
def execVperm (d a b : Reg) (k : BitVec 3) (s : State) : Out :=
  runVector (permSpec (Enc.vperm d a b k) d [a, b] [] (some (a.toNat, b.toNat)) (fun _ _ => false)
    (permWrite d k [a, b] fun h c _ row e =>
      let i := c.el h b row e
      if i < c.vl then c.el h a row i else 0)) s

/-- The columns of a row whose selector bit is 1, ascending. -/
def selected (h : Hart) (c : VCfg) (k : BitVec 3) (row : Nat) : List Nat :=
  (List.range c.vl).filter fun e => maskRd h.m k.toNat row e

/-- VCOMPR's effect (R206): the positions above the packed ones follow TP as tail, MP does not apply. -/
def runCompr (d a : Reg) (k : BitVec 3) (e : VEntry) (s : State) : VRes :=
  let h := s.hart
  let c := VCfg.of h e
  let n := fun r => (selected h c k r).length
  (s.mapWrite { c with mp := false } (fun r j => decide (j < n r) || c.tp) ⟨d.toNat, c.b, c.lmul⟩ [] []
    (some (permBad h c k [a] (List.range c.rc)))
    fun r j => if j < n r then c.el h a r ((selected h c k r).getD j 0) else 0).vdone

/-- VCOMPR (R206). -/
def execVcompr (d a : Reg) (k : BitVec 3) (s : State) : Out :=
  runVector (permSpec (Enc.vcompr d a k) d [a] [] none (fun _ _ => false) (runCompr d a k)) s

/-- VEXPD (R207). -/
def execVexpd (d a : Reg) (k : BitVec 3) (s : State) : Out :=
  runVector (permSpec (Enc.vexpd d a k) d [a] [] none (fun _ _ => false)
    (permWrite d k [a] fun h c _ row e => c.el h a row ((selected h c k row).idxOf e))) s

/-! ## Reshape and rows (R208, R209) -/

/-- VRESHAPE (R208). -/
def execVreshape (d a b : Reg) (k : BitVec 3) (s : State) : Out :=
  runVector (permSpec (Enc.vreshape d a b k) d [a] [b] none
    (fun c ops =>
      let n := (ops.getD 0 0).toNat % 65536
      decide (0 < c.vl) && (n == 0 || c.vl % n != 0))
    (permWrite d k [a] fun h c ops row e =>
      let n := (ops.getD 0 0).toNat % 65536
      let m := c.vl / n
      c.el h a row (e % m * n + e / m))) s

/-- VROWB (R209). -/
def execVrowb (d a b : Reg) (k : BitVec 3) (s : State) : Out :=
  runVector (permSpec (Enc.vrowb d a b k) d [a] [b] none (fun _ _ => false) fun e s =>
    permWrite d k [a] (fun h c ops _ e => c.el h a ((ops.getD 0 0).toNat % 8) e) e s
      (rows := fun _ ops => [(ops.getD 0 0).toNat % 8])) s

/-- VROWX (R209). -/
def execVrowx (d a b : Reg) (k : BitVec 3) (s : State) : Out :=
  let from_ (ops : List Word) (row : Nat) : Nat :=
    let ra := (ops.getD 0 0).toNat % 8
    let rb := (ops.getD 0 0).toNat / 256 % 8
    if row = ra then rb else if row = rb then ra else row
  runVector (permSpec (Enc.vrowx d a b k) d [a] [b] none (fun _ _ => false) fun e s =>
    permWrite d k [a] (fun h c ops row e => c.el h a (from_ ops row) e) e s
      (rows := fun c ops => (List.range c.rc).map (from_ ops))) s

/-! ## Single elements (R210) -/

/-- VEXTR's effect; a poisoned element leaves a record (R452). -/
def runExtr (word : Nat) (d a : Reg) (e : VEntry) (s : State) : VRes :=
  let c := VCfg.of s.hart e
  let p := (e.ops.getD 0 0).toNat
  let row := p / 65536 % 8
  let i := p % 65536
  if i < c.lmul * rowElems c.g c.b then
    let s1 := s.putG d (BitVec.ofNat 64 (c.el s.hart a row i))
    (if elemBad s.hart.poison c.g c.b a.toNat row i then s1.poisonScalar e.pc word else s1).vdone
  else (s.putG d 0).vdone

/-- VEXTR (R200, R210). -/
def execVextr (d a : Reg) (b : MaskedReg) (s : State) : Out :=
  runVector { permSpec (Enc.vextr d a b.reg b.mask) d [a] [b.reg] none (fun _ _ => false) (runExtr (Enc.vextr d a b.reg b.mask) d a) with
              dst := fun _ => none, lastd := .g d, check := fun _ _ _ => illopIf (Enc.vextr d a b.reg b.mask) (b.mask != 0) } s

/-- VINSR's effect. -/
def runInsr (d : Reg) (e : VEntry) (s : State) : VRes :=
  let c := VCfg.of s.hart e
  let p := (e.ops.getD 0 0).toNat
  if p % 65536 < c.lmul * rowElems c.g c.b then
    let v := elemWr s.hart.v c.g c.b d.toNat (p / 65536 % 8) (p % 65536) ((e.ops.getD 1 0).toNat % 2 ^ c.bits)
    ({ s with hart := { s.hart with v := v } }).vdone
  else s.vdone

/-- VINSR (R200, R210). -/
def execVinsr (d a : Reg) (b : MaskedReg) (s : State) : Out :=
  runVector { permSpec (Enc.vinsr d a b.reg b.mask) d [] [b.reg, a] none (fun _ _ => false) (runInsr d) with
              check := fun _ _ _ => illopIf (Enc.vinsr d a b.reg b.mask) (b.mask != 0) } s

/-! ## Tile queues (R147, R148, R211-R214) -/

/-- The oldest tile of a queue, if it is full. -/
def Hart.tileHead (h : Hart) (q : Nat) : Option Tile :=
  match vget h.tq [] q with
  | t :: _ => if t.full then some t else none
  | [] => none

/-- Removes the oldest tile of a queue. -/
def Hart.popTile (h : Hart) (q : Nat) : Hart := { h with tq := vset h.tq q ((vget h.tq [] q).drop 1) }

/-- Adds a tile to a queue. -/
def Hart.pushTile (h : Hart) (q : Nat) (t : Tile) : Hart := { h with tq := vset h.tq q (vget h.tq [] q ++ [t]) }

/-- An element of a tile (R148, R436). -/
def Tile.elem (t : Tile) (row e : Nat) : Nat :=
  leNat ((t.bytes.drop ((row * t.vl + e) * 2 ^ t.sew.toNat)).take (2 ^ t.sew.toNat))

/-- One half of QGEOM's TVAL (R212). -/
def geomHalf (sew rc vl : Nat) : Nat := sew * 2 ^ 20 + rc % 16 * 65536 + vl % 65536

/-- TVAL of QGEOM: the stream's geometry above the tile's (R212). -/
def qgeomVal (sew rc vl tsew trc tvl : Nat) : Word := BitVec.ofNat 64 (geomHalf sew rc vl * 2 ^ 32 + geomHalf tsew trc tvl)

/-- Whether a tile has the geometry of a configuration (R211). -/
def Tile.fits (t : Tile) (sew rc vl : Nat) : Bool := t.sew.toNat == sew && t.rc == rc && t.vl == vl

/-- The tile queue that a queued vector instruction pops (R211, R235). -/
def popOfWord (w : Nat) : Option Nat :=
  if w / 2 % 64 = 0x1D ∧ w / 2 ^ 26 = 12 then some (w / 4096 % 4)
  else if w / 2 % 64 = 0x24 ∧ w / 2 ^ 26 = 5 ∧ w / 128 % 32 = 1 then some (w / 4096 % 2)
  else none

/-- Whether the tile that a pop issued now will take stands at the head of its queue (R162). -/
def Hart.popReady (h : Hart) (q : Nat) : Bool :=
  (h.tileHead q).isSome && !h.vq.any fun e => popOfWord e.word.toNat == some q

/-- The geometry check of a pop (R211, R235). -/
def geometry (q : Nat) (h : Hart) (c : VCfg) : Option (Cause × Word) :=
  match h.tileHead q with
  | some t => if t.fits c.sew c.rc c.vl then none else some (.qgeom, qgeomVal c.sew c.rc c.vl t.sew.toNat t.rc t.vl)
  | none => none

/-- VPOPQ's effect (R211), its tile checked at issue (R162). -/
def runPopq (d : Reg) (q : Nat) (k : BitVec 3) (e : VEntry) (s : State) : VRes :=
  let h := s.hart
  let c := VCfg.of h e
  match h.tileHead q with
  | none => .wait e s
  | some t =>
    let act := fun r j => c.active h.m k.toNat r j
    ((({ s with hart := h.popTile q }).mapWrite c act ⟨d.toNat, c.b, c.lmul⟩ [] (c.maskRegs k.toNat) none
      fun r j => t.elem r j).poisonAt c d.toNat c.b
        ((t.bad.map fun x => (x / 65536, x % 65536)).filter fun p => act p.1 p.2)).vdone

/-- VPOPQ (R211): queue 2 raises ILLOP (R200). -/
def execVpopq (d : Reg) (q : BitVec 2) (k : BitVec 3) (s : State) : Out :=
  runVector { permSpec (Enc.vpopq d q k) d [] [] none (fun _ _ => false) (runPopq d q.toNat k) with
              check := fun h c _ => illopIf (Enc.vpopq d q k) (c.vrow != 0 || c.velem != 0 || q == 2 || !h.hasFeeder)
              ready := fun s => s.hart.popReady q.toNat
              late := fun h c _ => geometry q.toNat h c } s

/-- The bytes of the tile that the positions of a group form. -/
def tileBytes (c : VCfg) (h : Hart) (a : Reg) : List Byte := c.positions.flatMap fun p => toLe c.b (c.el h a p.1 p.2)

/-- The positions of a group that hold poisoned elements (R452). -/
def badPositions (c : VCfg) (h : Hart) (a : Reg) : List Nat :=
  (c.positions.filter fun p => elemBad h.poison c.g c.b a.toNat p.1 p.2).map fun p => p.1 * 65536 + p.2

/-- VPSHQ's effect (R213). -/
def runPshq (a : Reg) (e : VEntry) (s : State) : VRes :=
  let h := s.hart
  let c := VCfg.of h e
  if (vget h.tq [] 2).length ≥ 2 then .wait e s
  else ({ s with hart := h.pushTile 2 ⟨BitVec.ofNat 2 c.sew, c.vl, c.rc, true, tileBytes c h a, badPositions c h a⟩ }).vdone

/-- VPSHQ (R200, R213): a tile larger than its slot raises QGEOM at issue. -/
def execVpshq (q : BitVec 2) (a : MaskedReg) (s : State) : Out :=
  runVector { permSpec (Enc.vpshq q a.reg a.mask) 0 [a.reg] [] none (fun _ _ => false) (runPshq a.reg) with
              dst := fun _ => none, lastd := .none,
              check := fun h c _ =>
                if c.vrow ≠ 0 ∨ c.velem ≠ 0 ∨ a.mask ≠ 0 ∨ q ≠ 2 ∨ h.hasFeeder = false then some (.illop, wordVal (Enc.vpshq q a.reg a.mask))
                else if 1536 * h.share < c.rc * c.vl * c.b then
                  some (.qgeom, qgeomVal c.sew c.rc c.vl c.sew c.rc c.vl)
                else none } s

end Sys2Proof.Machine
end

