-- ==== Sys2Proof/Machine/VecMem.lean ====
section
/-! DEFINITION. Vector loads, stores, atomics and waits, the feeder's loads, the fences and VAPPEND (spec/11 R297-R321,
spec/07 R215-R217, spec/05 R146). -/

namespace Sys2Proof.Machine

/-- A position row * 65536 + e, as VSTART lays it out (R154). -/
def posKey (p : Nat × Nat) : Nat := p.1 * 65536 + p.2

/-! ## Translating a list of positions -/

/-- A position and its address. -/
abbrev VItem := (Nat × Nat) × Word

/-- What translating the positions of one instruction gives: those that may be performed and those that fault. -/
structure XlAll where
  ok : List ((Nat × Nat) × Xl)
  bad : List ((Nat × Nat) × MemFault)
  s : State

/-- Translates every position in order (R306). -/
def State.translateAll (s : State) (a : Agent) (x : Access) : List VItem → XlAll
  | [] => ⟨[], [], s⟩
  | (p, va) :: r =>
    match s.translate a x va with
    | .ok y s' => let t := s'.translateAll a x r; { t with ok := (p, y) :: t.ok }
    | .mem f s' => let t := s'.translateAll a x r; { t with bad := (p, f) :: t.bad }
    | .trap _ _ s' | .wait s' => s'.translateAll a x r

/-- The positions of a vector access, translated and checked: once only while a DEVICE access waits for responses (R285). -/
def State.places (s : State) (a : Agent) (x : Access) (l : List VItem) : XlAll :=
  match s.kept with
  | some k => ⟨k, [], s⟩
  | none => s.translateAll a x l

/-- The elements after which a vector access of the positions `l` lets others have their turn (R305, R307, R324; DESIGN CHOICE,
DESIGN CHOICE, log 4): never one that touches a DEVICE page (R308). -/
def State.pauseAt (s : State) (l : List ((Nat × Nat) × Xl)) : Option Nat :=
  match s.pause with
  | none => none
  | some n => if n < l.length ∧ l.all (fun x => x.2.cls != 1) then some n else none

/-- Whether a store may pause after `n` of its positions: a persist unit of blocks of `w` bytes is whole (R402). -/
def unitsWhole (w : Option Nat) (l : List ((Nat × Nat) × Xl)) (n : Nat) : Bool :=
  match w with
  | none => true
  | some w => (l.take n).all fun x => x.2.cls != 2 || (l.drop n).all fun y => y.2.cls != 2 || x.2.pa / w != y.2.pa / w

/-- The pause has been taken: whoever comes next has the turn. -/
def State.paused (s : State) : State := { s with pause := none, quantum := 0 }

/-- Whether a refused access was to a DEVICE page (R308). -/
def State.refusedDevice (s : State) (a : Agent) (f : MemFault) : Bool :=
  !f.xlate && (match s.walk a f.va.toNat with | .leaf l => pteClass l.pte == 1 | .bad _ _ | .waits => false)

/-- Whether an access touches a DEVICE page (R308). -/
def XlAll.device (t : XlAll) (a : Agent) : Bool := t.ok.any (·.2.cls == 1) || t.bad.any fun f => t.s.refusedDevice a f.2

/-- Whether two faults of an instruction are on one page: of the leaf's size, or of 64 KiB where no leaf was found (R442;
DEDUCED, log 24). -/
def MemFault.samePage (f g : MemFault) : Bool := f.page == g.page && f.va.toNat / f.page == g.va.toNat / f.page

/-- The faults of an instruction by page, in order of first position, with the positions of each (R442). -/
def byPage : List ((Nat × Nat) × MemFault) → List (MemFault × Nat)
  | l => l.foldl (fun acc f =>
      if acc.any (fun g => g.1.samePage f.2) then acc.map fun g => if g.1.samePage f.2 then (g.1, g.2 + 1) else g
      else acc ++ [(f.2, 1)]) []

/-- The event of a vector instruction whose accesses fault (R441, R442). -/
def vecEvent (s : State) (pc : Word) (word : Nat) (aux : Nat) (l : List ((Nat × Nat) × MemFault)) : List FaultRec :=
  (byPage l).map fun f =>
    { streamRec s f.1.cause pc word with
      kind := f.1.kind, acc := BitVec.ofNat 8 f.1.acc, level := if f.1.xlate then f.1.level else 0xFF
      npos := f.2, va := f.1.va, vawin := f.1.win, aux := BitVec.ofNat 64 aux }

/-! ## Forms and addresses (R298, R299) -/

/-- The addressing of a load or store. -/
inductive VForm where
  | unit | stride | row | index | quad | first | transpose
  deriving DecidableEq, Repr

/-- Forms that mark their progress in m0 (R305). -/
def VForm.marks : VForm → Bool
  | .index | .quad => true
  | _ => false

/-- Forms whose vs2 names a g register. -/
def VForm.scalar2 : VForm → Bool
  | .stride | .row | .transpose => true
  | _ => false

/-- A vector load or store. -/
structure VMem where
  word : Nat
  store : Bool
  form : VForm
  d : Reg
  a : Reg
  b : Reg
  k : BitVec 3

/-- g registers read at issue, in the order of R438. -/
def VMem.gs (i : VMem) : List Reg := if i.form.scalar2 then [i.b, i.a] else [i.a]
/-- B. -/
def VMem.base (i : VMem) (ops : List Word) : Word := ops.getD (if i.form.scalar2 then 1 else 0) 0
/-- The stride. -/
def VMem.step (i : VMem) (ops : List Word) : Word := if i.form.scalar2 then ops.getD 0 0 else 0

/-- The address of a position; `x` is its index (R299). -/
def VMem.addr (i : VMem) (c : VCfg) (ops : List Word) (x row e : Nat) : Word :=
  let base := i.base ops
  let st := i.step ops
  match i.form with
  | .unit | .first => base + BitVec.ofNat 64 ((row * c.vl + e) * c.b)
  | .stride => base + BitVec.ofNat 64 (row * c.vl + e) * st
  | .row => base + BitVec.ofNat 64 row * st + BitVec.ofNat 64 (e * c.b)
  | .index => base + BitVec.ofNat 64 x
  | .quad => base + BitVec.ofNat 64 (x % 2 ^ 20)
  | .transpose => base + BitVec.ofNat 64 e * st + BitVec.ofNat 64 (row * c.b)

/-- The positions to perform, in row-major order, with their addresses: active, and not completed earlier (R302). The alignment
of those alone is checked (R300; DESIGN CHOICE, log 43). -/
def VMem.items (i : VMem) (c : VCfg) (ops : List Word) (act done : Nat → Nat → Bool) (x : Nat → Nat → Nat) : List VItem :=
  (c.positions.filter fun p => act p.1 p.2 && !(i.form.marks && done p.1 p.2)).map fun p => (p, i.addr c ops (x p.1 p.2) p.1 p.2)

/-- The items of a main-stream form. -/
def VMem.mainItems (i : VMem) (h : Hart) (c : VCfg) (ops : List Word) : List VItem :=
  i.items c ops (fun r e => c.active h.m i.k.toNat r e) (fun r e => maskRd h.m 0 r e) fun r e => c.el h i.b r e

/-- The first address that is not a multiple of `b` (R300). -/
def misaligned (b : Nat) (l : List VItem) : Option Word := (l.find? fun p => p.2.toNat % b != 0).map (·.2)

/-- The quad's four TCMs, to which VLDQ and VSTQ are bound (R301). -/
def VMem.place (i : VMem) (h : Hart) : Option (Nat × Nat × Bool) :=
  if i.form = .quad then
    some (0xA000000000 + idDie h.hartid * 0x2000000 + idQuad h.hartid * 0x100000, 0x100000, false)
  else none

/-- The checks of R300 but alignment of elements. -/
def VMem.bad (i : VMem) (c : VCfg) (main : Bool) : Bool :=
  (i.form == .quad && decide (c.sew < 2)) || (i.form == .first && c.rc != 1)
  || (main && i.form.marks && !i.store && groupsMeet (i.d.toNat, c.lmul) (i.b.toNat, c.lmul))

/-- R300 after the checks of `bad`. -/
def VMem.misalign (i : VMem) (c : VCfg) (ops : List Word) (l : List VItem) : Option Word :=
  if i.form = .quad ∧ (i.base ops).toNat % 2 ^ 20 ≠ 0 then some (i.base ops) else misaligned c.b l

/-! ## Reading the positions of a load -/

/-- A value read: its position, the value, whether its word was uncorrectable, and its physical address. -/
structure VRead where
  pos : Nat × Nat
  val : Nat
  bad : Bool
  pa : Nat
  deriving DecidableEq, Repr

/-- The positions of reads. -/
def readPos (l : List VRead) : List (Nat × Nat) := l.map fun r => r.pos

/-- Where an agent keeps the positions already read from DEVICE pages while a later one waits (R285, R529). -/
def State.readSlot (s : State) (p : Nat × Nat) : Nat := s.who * 2 ^ 32 + posKey p

/-- Keeps a value that has been read while a later position waits. -/
def State.keepRead (s : State) (p : Nat × Nat) (v : Word) (bad : Bool) : State :=
  { s with hart := { s.hart with remoteData := s.hart.remoteData ++ [(s.readSlot p, v, bad)] } }

/-- Reads positions in order: the values, whether one must wait, the state. What is read before a DEVICE position, or of one, is
kept: no position is read twice (R285, R308). -/
def State.readAll (s : State) (a : Agent) (b : Nat) : List ((Nat × Nat) × Xl) → List VRead × Bool × State
  | [] => ([], false, s)
  | (p, x) :: r =>
    let pa := a.readAt x
    match s.hart.remoteData.find? (·.1 == s.readSlot p) with
    | some v => let t := s.readAll a b r; (⟨p, v.2.1.toNat, v.2.2, pa⟩ :: t.1, t.2)
    | none =>
      match s.fetchValue a x b with
      | .ok v s1 =>
        let s2 := if x.cls = 1 ∨ r.any (·.2.cls == 1) then s1.keepRead p v (s.isPoisoned pa b) else s1
        let t := s2.readAll a b r
        (⟨p, v.toNat, s.isPoisoned pa b, pa⟩ :: t.1, t.2)
      | .trap _ _ s1 | .mem _ s1 | .wait s1 => ([], true, s1)

/-- Reads positions and keeps their values, for an access that pauses behind them (R324). -/
def State.readPart (s : State) (a : Agent) (b : Nat) (l : List ((Nat × Nat) × Xl)) : State :=
  l.foldl (fun t x =>
    if t.hart.remoteData.any (·.1 == t.readSlot x.1) then t
    else match t.fetchValue a x.2 b with
      | .ok v u => u.keepRead x.1 v (t.isPoisoned (a.readAt x.2) b)
      | .trap _ _ u | .mem _ u | .wait u => u) s

/-- The first read of each element group that an uncorrectable word feeds. -/
def firstBad (c : VCfg) (l : List VRead) : List VRead :=
  (l.filter (·.bad)).foldl (fun acc r =>
    if acc.any fun q => poisonKeys c.g c.b 0 q.pos.1 q.pos.2 == poisonKeys c.g c.b 0 r.pos.1 r.pos.2 then acc else acc ++ [r]) []

/-- The uncorrectable words among reads of `b` bytes. -/
def badWords (b : Nat) (l : List VRead) : List Nat :=
  (l.filter (·.bad)).foldl (fun acc r => (eccWords r.pa b).foldl (fun q w => insertNat w q) acc) []

/-- The records of R451, one for each element group that uncorrectable words feed after its replay, and the counters of
R457: a word counts once (DESIGN CHOICE, log 25). -/
def State.poisonReads (s : State) (pc : Word) (c : VCfg) (l : List VRead) : State :=
  if l.all (fun r => !r.bad) then s
  else
    (firstBad c l).foldl (fun t r =>
      let p := r.pos.2 % rowElems c.g c.b
      let aux := idCore s.hart.hartid * 65536 + s.hart.lanes.getD (p % (8 * c.g) / 8) (p % (8 * c.g) / 8) * 256 + p % 8
      (t.count s.hart.die 3 1).putEvent s.hart.die true
        [{ streamRec s 0x20 pc 0 with
            kind := 3, src := 3, flags := 0, va := BitVec.ofNat 64 r.pa, aux := BitVec.ofNat 64 aux, save := s.saveWord }])
      (s.count s.hart.die 1 (badWords c.b l).length)

/-! ## Loads of the main stream (R302, R305, R306, R310) -/

/-- Writes read values to the destination group and its prefix copy, and nothing else. -/
def putReads (c : VCfg) (d : Reg) (l : List VRead) (v : Sparse Byte) : Sparse Byte :=
  let bases := d.toNat :: (match c.copyBase with | some b => [b] | none => [])
  l.foldl (fun w r => bases.foldl (fun u b => elemWr u c.g c.b b r.pos.1 r.pos.2 r.val) w) v

/-- The poisoned groups that reads add, in the destination and its copy. -/
def readPoison (c : VCfg) (d : Reg) (l : List VRead) (p : List Nat) : List Nat :=
  let bases := d.toNat :: (match c.copyBase with | some b => [b] | none => [])
  (l.filter (·.bad)).foldl (fun q r => bases.foldl (fun u b => addPoison (poisonKeys c.g c.b b r.pos.1 r.pos.2) u) q) p

/-- Marks completed positions in m0 (R302). -/
def markDone (l : List (Nat × Nat)) (m : Sparse Bool) : Sparse Bool := l.foldl (fun w p => maskWr w 0 p.1 p.2 true) m

/-- m0 cleared (R302). -/
def clearM0 (m : Sparse Bool) : Sparse Bool := m.filter fun x => x.1 / 16384 / 8 != 0

/-- The index group, where there is one. -/
def VMem.indexGroup (i : VMem) (c : VCfg) : List VGroup := if i.form.marks then [⟨i.b.toNat, c.b, c.lmul⟩] else []

/-- The clean positions of a form that marks its progress, which its entry keeps. -/
def VEntry.withReads (e : VEntry) (l : List VRead) : VEntry :=
  { e with latched := e.latched ++ (l.filter (!·.bad)).map fun r => posKey r.pos }

/-- Completes a load whose addresses depend on the groups `idx`: the values at the positions read, now or as the entry keeps
them, the others by their class; a position that m0 marks is left alone, in the copy group too (R70, R302). -/
def VMem.finishLoad (i : VMem) (idx : List VGroup) (e : VEntry) (c : VCfg) (l : List VRead) (s : State) : VRes :=
  let h := s.hart
  let act := fun r j => c.active h.m i.k.toNat r j
  let l := l ++ e.latched.map fun k => ⟨(k / 65536, k % 65536), c.el h i.d (k / 65536) (k % 65536), false, 0⟩
  let s1 := s.mapWrite c act ⟨i.d.toNat, c.b, c.lmul⟩ idx (c.maskRegs i.k.toNat) none
    (fun r j => match l.find? (·.pos == (r, j)) with | some x => x.val | none => 0)
    fun r j => act r j && !l.any (·.pos == (r, j))
  let s2 := (s1.putV s1.hart.v (readPoison c i.d l s1.hart.poison)).poisonReads e.pc c l
  let s3 := s2.dropReads
  ({ s3 with hart := { s3.hart with m := if i.form.marks then clearM0 s3.hart.m else s3.hart.m } }).vdone

/-- A load that has performed the positions `part` and no others (R305): they are written, and marked in m0 or left before
the entry's VSTART, which becomes `point`. -/
def VMem.partLoad (i : VMem) (e : VEntry) (c : VCfg) (point : Nat) (part : List ((Nat × Nat) × Xl)) (s : State) : VEntry × State :=
  let r := s.readAll s.agent c.b part
  let h := r.2.2.hart
  let s1 := { r.2.2 with hart := { h with m := if i.form.marks then markDone (readPos r.1) h.m else h.m } }
  let s2 := s1.putV (putReads c i.d r.1 h.v) (readPoison c i.d r.1 h.poison)
  (if i.form.marks then { (e.withReads r.1) with stopped := true } else { e with vstart := BitVec.ofNat 19 point, stopped := true },
    s2.poisonReads e.pc c r.1)

/-- The first faulting position in row-major order. -/
def XlAll.point (t : XlAll) : Nat := (t.bad.map fun f => posKey f.1).foldl min 0x7FFFF

/-- The positions that complete although others fault (R306). -/
def VMem.survivors (i : VMem) (t : XlAll) : List ((Nat × Nat) × Xl) :=
  if i.form.marks then t.ok else t.ok.filter fun x => posKey x.1 < t.point

/-- A load that stops at faults: the completed positions are written and marked (R305, R306). -/
def VMem.stopLoad (i : VMem) (e : VEntry) (c : VCfg) (t : XlAll) (s : State) : VRes :=
  let r := i.partLoad e c t.point (i.survivors t) t.s
  .stop (vecEvent s e.pc i.word r.1.vstart.toNat t.bad) r.1 r.2

/-- The position at which an access of the positions `l` that has performed `n` of them goes on. -/
def nextPos (l : List ((Nat × Nat) × Xl)) (n : Nat) : Nat := posKey ((l.map (·.1)).getD n (0, 0))

/-- The positions that a fault-only-first load performs, below the VL that it sets (R310): that VL is kept in the entry while a
DEVICE access waits. -/
def VMem.readFirst (i : VMem) (e : VEntry) (c : VCfg) (vl : Nat) (l : List ((Nat × Nat) × Xl)) (s : State) : VRes :=
  match s.pauseAt l with
  | some n =>
    let r := i.partLoad e c (nextPos l n) (l.take n) s
    .wait r.1 r.2.paused
  | none =>
    let r := s.readAll s.agent c.b l
    if r.2.1 then .wait { e with vl := BitVec.ofNat 16 vl } (r.2.2.keep l)
    else match i.finishLoad (i.indexGroup c) e { c with vl := vl } r.1 r.2.2 with
      | .done s1 => .done { s1 with hart := { s1.hart with main := { s1.hart.main with vl := BitVec.ofNat 16 vl } } }
      | x => x

/-- The fault-only-first load (R310). -/
def VMem.runFirst (i : VMem) (e : VEntry) (c : VCfg) (items : List VItem) (s : State) : VRes :=
  let a := s.agent
  match s.kept with
  | some l => i.readFirst e c c.vl l s
  | none =>
    let t := s.translateAll a (.plain 0 c.b) items
    match items, t.bad with
    | [], _ => i.finishLoad (i.indexGroup c) e { c with mp := false } [] s
    | (p, _) :: _, (q, f) :: _ =>
      if p = q then
        let t1 := s.translateAll a (.plain 0 c.b) (items.take 1)
        let dev := t1.device a
        let e' := if dev then e else { e with vstart := BitVec.ofNat 19 (posKey p), stopped := true }
        .stop (vecEvent s e.pc i.word (if e'.stopped then e'.vstart.toNat else 0) [(q, f)]) e' t1.s
      else i.readFirst e c q.2 (t.ok.filter fun x => x.1.2 < q.2) t.s
    | _ :: _, [] => i.readFirst e c c.vl t.ok t.s

/-- A load of the main stream. -/
def VMem.runLoad (i : VMem) (e : VEntry) (s : State) : VRes :=
  let c := VCfg.of s.hart e
  let items := i.mainItems s.hart c e.ops
  if i.form = .first then i.runFirst e c items s
  else
    let t := s.places s.agent ⟨0, c.b, .plain, i.place s.hart⟩ items
    match t.bad, s.pauseAt t.ok with
    | [], some n =>
      let r := i.partLoad e c (nextPos t.ok n) (t.ok.take n) t.s
      .wait r.1 r.2.paused
    | [], none =>
      let r := t.s.readAll s.agent c.b t.ok
      if r.2.1 then .wait e (r.2.2.keep t.ok) else i.finishLoad (i.indexGroup c) e c r.1 r.2.2
    | _, _ =>
      if t.device s.agent then .stop (vecEvent s e.pc i.word 0 t.bad) { e with stopped := false } t.s
      else i.stopLoad e c t s

/-! ## Stores (R303, R305, R306, R309) -/

/-- The aligned block of `w` bytes that a persist unit writes in. -/
def PersistUnit.block (w : Nat) (u : PersistUnit) : Nat := (u.bytes.map fun c => c.1).headD u.atom / w

/-- Merges the persist units that one performance wrote within one aligned block of `w` bytes: an atom, or 8 bytes (R402). -/
def mergeUnits (w : Nat) (l : List PersistUnit) : List PersistUnit :=
  l.foldl (fun acc u =>
    if acc.any (fun v => v.block w == u.block w) then
      acc.map fun v => if v.block w = u.block w then { v with bytes := v.bytes ++ u.bytes, bad := v.bad || u.bad } else v
    else acc ++ [u]) []

/-- Whether a unit writes all 64 bytes of its atom with clean data (R409). -/
def PersistUnit.cleans (u : PersistUnit) : Bool :=
  !u.bad && (List.range 64).all fun i => u.bytes.any fun c => c.1 == u.atom + i

/-- The units after the first `n` become one for each aligned block of `w` bytes; those that clean their atoms do so. -/
def State.mergeFrom (s : State) (n w : Nat) : State :=
  let l := mergeUnits w (s.ingress.drop n)
  { s with ingress := s.ingress.take n ++ l
           poisonAtoms := s.poisonAtoms.filter fun a => !l.any fun u => u.atom == a && u.cleans }

/-- Whether two writes to one atom are of one operation, and so of one persist unit (R402). -/
def PersistUnit.withOp (u v : PersistUnit) : Bool := u.byOp.isSome && u.byOp == v.byOp && u.atom == v.atom

/-- The persist unit that a write belongs to: every write of its operation within the atom (R402). -/
def PersistUnit.whole (l : List PersistUnit) (u : PersistUnit) : PersistUnit :=
  (l.filter u.withOp).foldl (fun w v => { w with bytes := w.bytes ++ v.bytes, bad := w.bad || v.bad }) u

/-- The writes of a step of an operation, after the first `n` in the buffer, are one in each atom; a persist unit of the operation
that cleans its atom does so. -/
def State.mergeByOp (s0 : State) (n id : Nat) : State :=
  let s := s0.mergeFrom n 64
  { s with poisonAtoms := s.poisonAtoms.filter fun a => !s.ingress.any fun u =>
      u.byOp == some id && u.atom == a && (u.whole s.ingress).cleans }

/-- The aligned blocks within which the elements of a store make one persist unit: atoms, the 8 bytes of a strided store,
or none of an indexed one, each element of which is its own (R402). -/
def VMem.unitBytes (i : VMem) (c : VCfg) (ops : List Word) : Option Nat :=
  match i.form with
  | .unit | .row => some 64
  | .stride => some (if i.step ops = BitVec.ofNat 64 c.b then 64 else 8)
  | _ => none

/-- Whether a VST has the form of a block store (R309). -/
def VMem.isBlock (i : VMem) (e : VEntry) (c : VCfg) : Bool :=
  i.store && i.form == .unit && c.sew == 3 && c.vl == 8 && c.rc == 1 && e.vstart == 0 && i.k == 0 && e.pfx.isNone
  && (i.base e.ops).toNat % 64 == 0

/-- Performs the elements of a store in row-major order. -/
def VMem.performAll (i : VMem) (h : Hart) (c : VCfg) (a : Agent) (l : List ((Nat × Nat) × Xl)) (s : State) : State :=
  l.foldl (fun t x => t.perform a x.2 (toLe c.b (c.el h i.d x.1.1 x.1.2))
    (elemBad h.poison c.g c.b i.d.toNat x.1.1 x.1.2)) s

/-- Performs the positions `l` of a store, and merges their persist units (R402). -/
def VMem.performUnits (i : VMem) (c : VCfg) (ops : List Word) (h : Hart) (l : List ((Nat × Nat) × Xl)) (s : State) : State :=
  let t := i.performAll h c s.agent l s
  match i.unitBytes c ops with
  | some w => t.mergeFrom s.ingress.length w
  | none => t

/-- A store that has performed the positions `part` and no others (R305). -/
def VMem.partStore (i : VMem) (e : VEntry) (c : VCfg) (h : Hart) (point : Nat) (part : List ((Nat × Nat) × Xl)) (s : State) :
    VEntry × State :=
  let s1 := i.performUnits c e.ops h part s
  ({ e with vstart := if i.form.marks then e.vstart else BitVec.ofNat 19 point, stopped := true },
    { s1 with hart := { s1.hart with m := if i.form.marks then markDone (part.map (·.1)) s1.hart.m else s1.hart.m } })

/-- A store of the main stream. -/
def VMem.runStore (i : VMem) (e : VEntry) (s : State) : VRes :=
  let h := s.hart
  let c := VCfg.of h e
  let a := s.agent
  let items := i.mainItems h c e.ops
  let block := i.isBlock e c
  let t := s.translateAll a ⟨1, c.b, if block then .block else .plain, i.place h⟩ items
  match t.bad, (s.pauseAt t.ok).filter (unitsWhole (i.unitBytes c e.ops) t.ok) with
  | [], some n =>
    let r := i.partStore e c h (nextPos t.ok n) (t.ok.take n) t.s
    .wait r.1 r.2.paused
  | [], none =>
    let s1 := if block ∧ t.device a then
        match t.ok with
        | [] => t.s
        | x :: _ => t.s.perform a x.2 (t.ok.flatMap fun y => toLe 8 (c.el h i.d y.1.1 y.1.2)) false
      else i.performUnits c e.ops h t.ok t.s
    ({ s1 with hart := { s1.hart with m := if i.form.marks then clearM0 s1.hart.m else s1.hart.m } }).vdone
  | _, _ =>
    if t.device a then .stop (vecEvent s e.pc i.word 0 t.bad) { e with stopped := false } t.s
    else
      let r := i.partStore e c h t.point (i.survivors t) t.s
      .stop (vecEvent s e.pc i.word r.1.vstart.toNat t.bad) r.1 r.2

/-! ## Loads of the feeder (R146, R304) -/

/-- The configuration of a stream that has no vector queue. -/
def Stream.cfg (t : Stream) : VCfg where
  sew := vtypeSew t.vtype
  lmul := vtypeLmul t.vtype
  alt := t.vtype.getLsbD 3
  tp := t.vtype.getLsbD 1
  mp := t.vtype.getLsbD 0
  vl := t.vl.toNat
  rc := t.rc.toNat
  vrow := t.vstart.toNat / 65536
  velem := t.vstart.toNat % 65536
  g := t.grant
  rm := Rm.ofCode t.rm.toNat
  pfx := none

/-- Whether the feeder's current load holds a reserved slot of a queue. -/
def Hart.reserved (h : Hart) (q : Nat) : Bool := (vget h.tq [] q).any fun t => !t.full

/-- Whether a topology stream of the hart has tiles to push into a queue: its tiles enter contiguously (R380). -/
def State.streamAhead (s : State) (q : Nat) : Bool :=
  s.ops.any fun o => o.issuer == s.hart.tag && o.ctl.isNone && (match o.kind with | .tiles r l => r == q && !l.isEmpty | _ => false)

/-- Reserves a slot; the bytes of positions that the load will not write are free values (DESIGN CHOICE, log 3). -/
def State.reserve (s : State) (q : Nat) (c : VCfg) (excluded : Bool) : State :=
  let n := c.rc * c.vl * c.b
  let bytes := (List.range n).map fun i => if excluded then (Config.freeWord (s.freeCtr + i)).setWidth 8 else 0
  { s with hart := s.hart.pushTile q ⟨BitVec.ofNat 2 c.sew, c.vl, c.rc, false, bytes, []⟩
           freeCtr := if excluded then s.freeCtr + n else s.freeCtr }

/-- Gives the reserved slot of a queue back. -/
def Hart.release (h : Hart) (q : Nat) : Hart := { h with tq := vset h.tq q ((vget h.tq [] q).filter (·.full)) }

/-- Applies a function to the reserved tile of a queue. -/
def Hart.onReserved (h : Hart) (q : Nat) (f : Tile → Tile) : Hart :=
  { h with tq := vset h.tq q ((vget h.tq [] q).map fun t => if t.full then t else f t) }

/-- Writes values read into a tile. -/
def Tile.putReads (t : Tile) (b : Nat) (l : List VRead) : Tile :=
  { t with
    bad := l.foldl (fun p r => if r.bad then insertNat (posKey r.pos) p else p.filter (· != posKey r.pos)) t.bad
    bytes := l.foldl (fun bs r =>
      let o := (r.pos.1 * t.vl + r.pos.2) * b
      bs.take o ++ toLe b r.val ++ bs.drop (o + b)) t.bytes }

/-- Completes a feeder load: the tile becomes visible (R146), with the VL that VLDFF left (R310). -/
def VMem.finishFeed (i : VMem) (c : VCfg) (vl : Nat) (l : List VRead) (s : State) : Res Unit :=
  let q := i.d.toNat
  let index := if i.form.marks then match s.hart.tileHead 2 with | some t => t.bad | none => [] else []
  let h := s.hart.onReserved q fun t =>
    let t1 := t.putReads c.b l
    { t1 with full := true, vl := vl, bytes := t1.bytes.take (c.rc * vl * c.b)
              bad := index.foldl (fun p k => insertNat k p) (t1.bad.filter fun k => decide (k % 65536 < vl)) }
  let h1 := if i.form.marks then h.popTile 2 else h
  let h2 := { h1 with fm0 := if i.form.marks then [] else h1.fm0 }
  let s1 := ({ s with hart := h2 }).dropReads
  let s2 := s1.setSt { s1.st with vstart := 0, vl := BitVec.ofNat 16 vl }
  .ok () ((s2.poisonReads s.st.pc c l).finish i.word 4)

/-- A feeder load that has performed the positions `part` and no others (R304, R305): its slot and its index tile are
kept. -/
def VMem.partFeed (i : VMem) (c : VCfg) (point : Nat) (part : List ((Nat × Nat) × Xl)) (s : State) : State :=
  let r := s.readAll s.agent c.b part
  let s1 := r.2.2
  let h := s1.hart.onReserved i.d.toNat fun u => u.putReads c.b r.1
  let s2 := { s1 with hart := { h with fm0 := if i.form.marks then markDone (readPos r.1) h.fm0 else h.fm0 } }
  let s3 := if i.form.marks then s2 else s2.setSt { s2.st with vstart := BitVec.ofNat 19 point }
  s3.poisonReads s.st.pc c r.1

/-- A feeder load that faults. -/
def VMem.stopFeed (i : VMem) (c : VCfg) (t : XlAll) (s : State) : State :=
  if t.device s.agent then t.s.park 0b00010 (vecEvent s s.st.pc i.word 0 t.bad)
  else
    let s1 := i.partFeed c t.point (i.survivors t) t.s
    s1.park 0b00010 (vecEvent s s.st.pc i.word s1.st.vstart.toNat t.bad)

/-- The accesses of a feeder load that holds its slot and its index tile. -/
def VMem.feedAccess (i : VMem) (c : VCfg) (x : Nat → Nat → Nat) (s : State) : Out :=
  let a := s.agent
  let ops := i.gs.map s.rd
  let items := i.items c ops c.started (fun r e => maskRd s.hart.fm0 0 r e) x
  match i.misalign c ops items with
  | some va => .next (({ s with hart := s.hart.release i.d.toNat }).trap .misalign va i.word)
  | none =>
    let t := s.places a ⟨0, c.b, .plain, i.place s.hart⟩ items
    let read := fun (l : List ((Nat × Nat) × Xl)) (vl : Nat) (u : State) =>
      match u.pauseAt l with
      | some n => Host.Outcome.next (i.partFeed c (nextPos l n) (l.take n) u).paused
      | none =>
        let r := u.readAll a c.b l
        if r.2.1 then .next (r.2.2.keep l).yield else State.conclude i.word (i.finishFeed c vl r.1 r.2.2)
    match i.form, items, t.bad with
    | .first, (p, _) :: _, (q, f) :: _ =>
      if p = q then
        let t1 := s.translateAll a (.plain 0 c.b) (items.take 1)
        .next (i.stopFeed c { t1 with bad := [(q, f)] } s)
      else read (t.ok.filter fun x => x.1.2 < q.2) q.2 t.s
    | .first, _, [] =>
      read t.ok (if s.kept.isSome then ((t.ok.map fun x => x.1.2).getLast?.map (· + 1)).getD c.vl else c.vl) t.s
    | _, _, [] => read t.ok c.vl t.s
    | _, _, _ => .next (i.stopFeed c t s)

/-- A load of the feeder (R146): its checks, its slot, its index tile, its accesses. A pending prefix raises PFXBAD before
the ILLOP of R146 (DESIGN CHOICE, log 39). -/
def VMem.runFeed (i : VMem) (s : State) : Out :=
  let c := s.st.cfg
  if s.st.pfxp then .next (s.trap .pfxbad (wordVal i.word) i.word)
  else if s.regWait i.gs then .next s.yield
  else if 2 ≤ i.d.toNat ∨ (i.form.marks ∧ i.b ≠ 2) ∨ i.k ≠ 0 ∨ c.lmul ≠ 1 ∨ i.bad c false then
    .next (s.trap .illop (wordVal i.word) i.word)
  else
    let q := i.d.toNat
    if s.hart.reserved q = false ∧ ((vget s.hart.tq [] q).length ≥ 2 ∨ s.streamAhead q) then .next s.yield
    else
      let part := c.vrow != 0 || c.velem != 0 || !s.hart.fm0.isEmpty
      let s1 := if s.hart.reserved q then s else s.reserve q c part
      if i.form.marks then
        match s1.hart.tileHead 2 with
        | none => .next s1.yield
        | some t =>
          if t.fits c.sew c.rc c.vl then i.feedAccess c (fun r e => t.elem r e) s1
          else .next (({ s1 with hart := s1.hart.release q }).trap .qgeom
            (qgeomVal c.sew c.rc c.vl t.sew.toNat t.rc t.vl) i.word)
      else i.feedAccess c (fun _ _ => 0) s1

/-! ## The frames -/

/-- The frame of a load or store in the main stream. -/
def VMem.spec (i : VMem) : VSpec where
  word := i.word
  qword := i.word
  size := 4
  pfx := if i.store then .pred else .copy
  dst := fun l => if i.store then none else some (i.d.toNat, l)
  srcs := fun l => (if i.store then [(i.d.toNat, l)] else []) ++ (if i.form.marks then [(i.b.toNat, l)] else [])
  bank := if i.store ∧ i.form.marks then some (i.d.toNat, i.b.toNat) else none
  gs := i.gs
  lastd := if i.store then .none else .v i.d
  check := fun _ c _ => illopIf i.word (i.bad c true)
  ready := fun s =>
    s.hart.indexReady (if i.form.marks then [(i.b.toNat, vtypeLmul s.st.vtype)] else []) (s.st.maskFields i.k)
  late := fun h c ops => (i.misalign c ops (i.mainItems h c ops)).map fun va => (.misalign, va)
  writes := i.store
  run := if i.store then i.runStore else i.runLoad

/-- A load: of the feeder, or in the vector queue. -/
def runVld (i : VMem) (s : State) : Out :=
  if s.onFeeder ∧ s.atHead = false then i.runFeed s else runVector i.spec s

/-- VLD (R302). -/
def execVld (d a : Reg) (k : BitVec 3) (s : State) : Out := runVld (⟨Enc.vld d a k, false, .unit, d, a, 0, k⟩ : VMem) s
/-- VLDS (R302). -/
def execVlds (d a b : Reg) (k : BitVec 3) (s : State) : Out := runVld (⟨Enc.vlds d a b k, false, .stride, d, a, b, k⟩ : VMem) s
/-- VLDR (R302). -/
def execVldr (d a b : Reg) (k : BitVec 3) (s : State) : Out := runVld (⟨Enc.vldr d a b k, false, .row, d, a, b, k⟩ : VMem) s
/-- VLDX (R302, R305). -/
def execVldx (d a b : Reg) (k : BitVec 3) (s : State) : Out := runVld (⟨Enc.vldx d a b k, false, .index, d, a, b, k⟩ : VMem) s
/-- VLDQ (R301, R302). -/
def execVldq (d a b : Reg) (k : BitVec 3) (s : State) : Out := runVld (⟨Enc.vldq d a b k, false, .quad, d, a, b, k⟩ : VMem) s
/-- VLDFF (R310). -/
def execVldff (d a : Reg) (k : BitVec 3) (s : State) : Out := runVld (⟨Enc.vldff d a k, false, .first, d, a, 0, k⟩ : VMem) s
/-- VLDT (R299, R302). -/
def execVldt (d a b : Reg) (k : BitVec 3) (s : State) : Out := runVld (⟨Enc.vldt d a b k, false, .transpose, d, a, b, k⟩ : VMem) s
/-- VST (R303, R309). -/
def execVst (d a : Reg) (k : BitVec 3) (s : State) : Out := runVector ((⟨Enc.vst d a k, true, .unit, d, a, 0, k⟩ : VMem).spec) s
/-- VSTS (R303). -/
def execVsts (d a b : Reg) (k : BitVec 3) (s : State) : Out := runVector ((⟨Enc.vsts d a b k, true, .stride, d, a, b, k⟩ : VMem).spec) s
/-- VSTR (R303). -/
def execVstr (d a b : Reg) (k : BitVec 3) (s : State) : Out := runVector ((⟨Enc.vstr d a b k, true, .row, d, a, b, k⟩ : VMem).spec) s
/-- VSTX (R303, R305). -/
def execVstx (d a b : Reg) (k : BitVec 3) (s : State) : Out := runVector ((⟨Enc.vstx d a b k, true, .index, d, a, b, k⟩ : VMem).spec) s
/-- VSTQ (R301, R303). -/
def execVstq (d a b : Reg) (k : BitVec 3) (s : State) : Out := runVector ((⟨Enc.vstq d a b k, true, .quad, d, a, b, k⟩ : VMem).spec) s

/-! ## VAMO (R311-R314) -/

/-- A vector atomic: `f` has the width, the old value and the operand. -/
structure VAmo where
  word : Nat
  d : Reg
  a : Reg
  b : Reg
  k : BitVec 3
  f : Nat → Nat → Nat → Nat

/-- The positions of a VAMO. -/
def VAmo.items (i : VAmo) (h : Hart) (c : VCfg) (ops : List Word) : List VItem :=
  (⟨i.word, false, .index, i.d, i.a, i.b, i.k⟩ : VMem).mainItems h c ops

/-- Performs the elements in row-major order: the old values, and the state (R312). -/
def VAmo.performAll (i : VAmo) (h : Hart) (c : VCfg) (a : Agent) : List ((Nat × Nat) × Xl) → State → List VRead × State
  | [], s => ([], s)
  | (p, x) :: r, s =>
    let pa := a.readAt x
    let bad := s.isPoisoned pa c.b || elemBad h.poison c.g c.b i.d.toNat p.1 p.2
    let o := s.rmwAt a x c.b fun old => some (i.f c.bits old.toNat (c.el h i.d p.1 p.2))
    let s1 := if bad then o.2.markPoison pa c.b true else o.2
    let t := i.performAll h c a r s1
    (⟨p, o.1.toNat, s.isPoisoned pa c.b, pa⟩ :: t.1, t.2)

/-- The load with the same operands. -/
def VAmo.mem (i : VAmo) : VMem := ⟨i.word, false, .index, i.d, i.a, i.b, i.k⟩

/-- A VAMO that has performed the positions `part` and no others: each is performed once (R312). -/
def VAmo.partRun (i : VAmo) (e : VEntry) (c : VCfg) (h : Hart) (part : List ((Nat × Nat) × Xl)) (s : State) : VEntry × State :=
  let r := i.performAll h c s.agent part s
  let h1 := r.2.hart
  let s1 := { r.2 with hart := { h1 with m := markDone (readPos r.1) h1.m } }
  let s2 := s1.putV (putReads c i.d r.1 h1.v) (readPoison c i.d r.1 h1.poison)
  ({ (e.withReads r.1) with stopped := true }, s2.poisonReads e.pc c r.1)

/-- VAMO's effect: positions that fault are left for the restart (R306). -/
def VAmo.run (i : VAmo) (e : VEntry) (s : State) : VRes :=
  let h := s.hart
  let c := VCfg.of h e
  let a := s.agent
  let t := s.translateAll a (.plain 2 c.b) (i.items h c e.ops)
  match t.bad, s.pauseAt t.ok with
  | [], some n =>
    let r := i.partRun e c h (t.ok.take n) t.s
    .wait r.1 r.2.paused
  | [], none =>
    let r := i.performAll h c a t.ok t.s
    i.mem.finishLoad (i.mem.indexGroup c) e c r.1 r.2
  | _, _ =>
    if t.device a then .stop (vecEvent s e.pc i.word 0 t.bad) { e with stopped := false } t.s
    else
      let r := i.partRun e c h t.ok t.s
      .stop (vecEvent s e.pc i.word e.vstart.toNat t.bad) r.1 r.2

/-- A VAMO (R312): ILLOP below SEW 32 and where the operand and index groups overlap. -/
def runVamo (word : Nat) (d a b : Reg) (k : BitVec 3) (f : Nat → Nat → Nat → Nat) (s : State) : Out :=
  let i : VAmo := ⟨word, d, a, b, k, f⟩
  runVector
    { word := word, qword := word, size := 4, pfx := .never, dst := fun l => some (d.toNat, l)
      srcs := fun l => [(b.toNat, l)], bank := none, gs := [a], lastd := .v d
      check := fun _ c _ => illopIf word (decide (c.sew < 2) || groupsMeet (d.toNat, c.lmul) (b.toNat, c.lmul))
      ready := fun s => s.hart.indexReady [(b.toNat, vtypeLmul s.st.vtype)] (s.st.maskFields k)
      late := fun h c ops => (misaligned c.b (i.items h c ops)).map fun va => (.misalign, va)
      writes := true
      run := i.run } s

/-- fmin and fmax (R313): no flag. -/
def vamoFp (isMax : Bool) (n old op : Nat) : Nat := ((if n = 32 then fmtF32 else fmtF64).minmax isMax old op).1

/-- VAMO_ADD (R312). -/
def execVamoAdd (d a b : Reg) (k : BitVec 3) (sc l q : BitVec 1) (s : State) : Out :=
  runVamo (Enc.vamoAdd d a b k sc l q) d a b k (fun _ x y => x + y) s
/-- VAMO_SWP (R312). -/
def execVamoSwp (d a b : Reg) (k : BitVec 3) (sc l q : BitVec 1) (s : State) : Out :=
  runVamo (Enc.vamoSwp d a b k sc l q) d a b k (fun _ _ y => y) s
/-- VAMO_AND (R312). -/
def execVamoAnd (d a b : Reg) (k : BitVec 3) (sc l q : BitVec 1) (s : State) : Out :=
  runVamo (Enc.vamoAnd d a b k sc l q) d a b k (fun _ x y => x &&& y) s
/-- VAMO_OR (R312). -/
def execVamoOr (d a b : Reg) (k : BitVec 3) (sc l q : BitVec 1) (s : State) : Out :=
  runVamo (Enc.vamoOr d a b k sc l q) d a b k (fun _ x y => x ||| y) s
/-- VAMO_XOR (R312). -/
def execVamoXor (d a b : Reg) (k : BitVec 3) (sc l q : BitVec 1) (s : State) : Out :=
  runVamo (Enc.vamoXor d a b k sc l q) d a b k (fun _ x y => x ^^^ y) s
/-- VAMO_MIN (R312). -/
def execVamoMin (d a b : Reg) (k : BitVec 3) (sc l q : BitVec 1) (s : State) : Out :=
  runVamo (Enc.vamoMin d a b k sc l q) d a b k (fun n x y => if sextN n x ≤ sextN n y then x else y) s
/-- VAMO_MAX (R312). -/
def execVamoMax (d a b : Reg) (k : BitVec 3) (sc l q : BitVec 1) (s : State) : Out :=
  runVamo (Enc.vamoMax d a b k sc l q) d a b k (fun n x y => if sextN n y ≤ sextN n x then x else y) s
/-- VAMO_MINU (R312). -/
def execVamoMinu (d a b : Reg) (k : BitVec 3) (sc l q : BitVec 1) (s : State) : Out :=
  runVamo (Enc.vamoMinu d a b k sc l q) d a b k (fun _ x y => if x ≤ y then x else y) s
/-- VAMO_MAXU (R312). -/
def execVamoMaxu (d a b : Reg) (k : BitVec 3) (sc l q : BitVec 1) (s : State) : Out :=
  runVamo (Enc.vamoMaxu d a b k sc l q) d a b k (fun _ x y => if y ≤ x then x else y) s
/-- VAMO_FMIN (R313). -/
def execVamoFmin (d a b : Reg) (k : BitVec 3) (sc l q : BitVec 1) (s : State) : Out :=
  runVamo (Enc.vamoFmin d a b k sc l q) d a b k (fun n x y => vamoFp false n x y) s
/-- VAMO_FMAX (R313). -/
def execVamoFmax (d a b : Reg) (k : BitVec 3) (sc l q : BitVec 1) (s : State) : Out :=
  runVamo (Enc.vamoFmax d a b k sc l q) d a b k (fun n x y => vamoFp true n x y) s

/-! ## VWAIT (R315-R317) -/

/-- A wait: `cc` compares a value read with y, at a width. -/
structure VWait where
  word : Nat
  d : BitVec 3
  b : Reg
  k : BitVec 3
  cc : Nat → Nat → Nat → Bool

/-- The addresses of the active positions that are not satisfied. -/
def VWait.items (i : VWait) (h : Hart) (c : VCfg) (ops : List Word) (sat : List Nat) : List VItem :=
  (c.positions.filter fun p => c.active h.m i.k.toNat p.1 p.2 && !sat.contains (posKey p)).map fun p =>
    (p, ops.getD 0 0 + BitVec.ofNat 64 (c.el h i.b p.1 p.2))

/-- Completes a VWAIT with the satisfied positions; with no active position only the tail is written (R316). `bad` are the
positions whose last read was of an uncorrectable word (R452). -/
def VWait.finish (i : VWait) (c : VCfg) (sat bad : List Nat) (s : State) : State :=
  let act := fun r e => c.active s.hart.m i.k.toNat r e
  let c' := if c.positions.any fun p => act p.1 p.2 then c else { c with mp := false }
  let s1 := s.putMask s.hart.poison c' act i.d.toNat [⟨i.b.toNat, c.b, c.lmul⟩] (c.maskRegs i.k.toNat)
    fun r e => sat.contains (posKey (r, e))
  let p := bad.foldl (fun p k => insertNat (maskKey i.d.toNat (k / 65536) (k % 65536)) p) s1.hart.poison
  { s1 with hart := { s1.hart with poison := p } }

/-- The reads of a round whose element groups no earlier round has found uncorrectable: a failure is recorded once (R451). -/
def newlyBad (c : VCfg) (bad : List Nat) (l : List VRead) : List VRead :=
  l.filter fun r => r.bad && !bad.any fun k =>
    poisonKeys c.g c.b 0 (k / 65536) (k % 65536) == poisonKeys c.g c.b 0 r.pos.1 r.pos.2

/-- One round of polls (R316), which may pause between its reads (R324). -/
def VWait.run (i : VWait) (e : VEntry) (s : State) : VRes :=
  let c := VCfg.of s.hart e
  let t0 := e.begun.getD s.cycle
  let t := s.places s.agent (.plain 0 c.b) (i.items s.hart c e.ops e.latched)
  match t.bad, t.s.pauseAt t.ok with
  | _ :: _, _ =>
    .stop (vecEvent s e.pc i.word 0 t.bad) { e with begun := none, latched := [], bad := [], stopped := false } t.s.dropReads
  | [], some n => .wait { e with begun := some t0 } (t.s.readPart s.agent c.b (t.ok.take n)).paused
  | [], none =>
    let r := t.s.readAll s.agent c.b t.ok
    if r.2.1 then .wait { e with begun := some t0 } (r.2.2.keep t.ok)
    else
      let sat := e.latched ++ ((r.1.filter fun v => i.cc c.bits v.val ((e.ops.getD 1 0).toNat % 2 ^ c.bits)).map fun v => posKey v.pos)
      let bad := e.bad.filter e.latched.contains ++ (r.1.filter (·.bad)).map fun v => posKey v.pos
      let s1 := r.2.2.dropReads.poisonReads e.pc c (newlyBad c e.bad r.1)
      let budget := e.ops.getD 2 0
      if (i.items s.hart c e.ops sat) = [] ∨ (budget ≠ 0 ∧ budget ≤ s.cycle - t0) then (i.finish c sat bad s1).vdone
      else .wait { e with begun := some t0, latched := sat, bad := bad } s1

/-- A VWAIT. -/
def runVwait (i : VWait) (n : Reg) (s : State) : Out :=
  runVector
    { word := i.word, qword := i.word, size := 4, pfx := .never, dst := fun _ => none, srcs := fun l => [(i.b.toNat, l)]
      bank := none, gs := [n, n + 1, n + 2], lastd := .none, check := fun _ _ _ => none
      ready := fun s => s.hart.indexReady [(i.b.toNat, vtypeLmul s.st.vtype)] (s.st.maskFields i.k)
      late := fun h c ops => (misaligned c.b (i.items h c ops [])).map fun va => (.misalign, va)
      run := i.run } s

/-- The comparison of a VWAIT by func6 (R315): 0-5 are eq ne lt ge ltu geu. -/
def waitCc (code w v y : Nat) : Bool :=
  match code with
  | 0 => v == y
  | 1 => v != y
  | 2 => decide (sextN w v < sextN w y)
  | 3 => decide (sextN w y ≤ sextN w v)
  | 4 => decide (v < y)
  | _ => decide (y ≤ v)

/-- VWAIT_EQ (R316). -/
def execVwaitEq (d : BitVec 3) (n b : Reg) (k : BitVec 3) (s : State) : Out :=
  runVwait ⟨Enc.vwaitEq d n b k, d, b, k, waitCc 0⟩ n s
/-- VWAIT_NE (R316). -/
def execVwaitNe (d : BitVec 3) (n b : Reg) (k : BitVec 3) (s : State) : Out :=
  runVwait ⟨Enc.vwaitNe d n b k, d, b, k, waitCc 1⟩ n s
/-- VWAIT_LT (R316). -/
def execVwaitLt (d : BitVec 3) (n b : Reg) (k : BitVec 3) (s : State) : Out :=
  runVwait ⟨Enc.vwaitLt d n b k, d, b, k, waitCc 2⟩ n s
/-- VWAIT_GE (R316). -/
def execVwaitGe (d : BitVec 3) (n b : Reg) (k : BitVec 3) (s : State) : Out :=
  runVwait ⟨Enc.vwaitGe d n b k, d, b, k, waitCc 3⟩ n s
/-- VWAIT_LTU (R316). -/
def execVwaitLtu (d : BitVec 3) (n b : Reg) (k : BitVec 3) (s : State) : Out :=
  runVwait ⟨Enc.vwaitLtu d n b k, d, b, k, waitCc 4⟩ n s
/-- VWAIT_GEU (R316). -/
def execVwaitGeu (d : BitVec 3) (n b : Reg) (k : BitVec 3) (s : State) : Out :=
  runVwait ⟨Enc.vwaitGeu d n b k, d, b, k, waitCc 5⟩ n s

/-- The VWAIT of a queue entry. -/
def VEntry.vwait (e : VEntry) : Option VWait :=
  let w := e.word.toNat
  if w % 128 = 0x47 ∧ w / 2 ^ 26 ≤ 5 then
    some ⟨w, BitVec.ofNat 3 (w / 128), BitVec.ofNat 5 (w / 2 ^ 17), BitVec.ofNat 3 (w / 2 ^ 22), waitCc (w / 2 ^ 26)⟩
  else none

/-- Whether a main vector agent is inside an access: it has read positions, or awaits a response (R285, R316). -/
def Hart.midAccess (h : Hart) : Bool :=
  h.device.any (·.who == 1) || h.aperture.any (·.who == 1) || h.remoteData.any fun v => v.1 / 2 ^ 32 == 1

/-- VWAIT_BUDGET_EXPIRY (R316): the VWAIT at the head of the hart's vector queue completes when its budget has passed, which is
tested between its rounds. -/
def execVwaitBudgetExpiry (tag : BitVec 32) (s : State) : Out :=
  .next (s.asHart tag fun s =>
    match s.hart.vq with
    | e :: rest =>
      match e.vwait, e.begun with
      | some i, some t0 =>
        if s.hart.run = .running ∧ s.hart.midAccess = false ∧ e.ops.getD 2 0 ≠ 0 ∧ e.ops.getD 2 0 ≤ s.cycle - t0 then
          let s1 := i.finish (VCfg.of s.hart e) e.latched e.bad s
          let m := { s1.hart.main with vstart := 0 }
          { s1 with hart := { s1.hart with vq := rest, main := m, vcount := s1.hart.vcount + 1 } }
        else s
      | _, _ => s
    | [] => s)

/-! ## Fences (R318-R321) -/

/-- FENCE (R318, R319): one after scalar accesses performs the stores that wait (R326); one between vector accesses and
later scalar ones waits until the vector queue is empty; one before vector accesses holds in the order of the queue (DESIGN CHOICE, log 7).
RSTX and RAMOX leave the queue when they have returned (R496). -/
def execFence (sc : BitVec 3) (dir : BitVec 2) (s : State) : Out :=
  runScalar ⟨Enc.fence sc dir, 4, .never, true, true, []⟩
    (fun s =>
      if s.onFeeder = false ∧ (dir = 1 ∨ dir = 3) ∧ s.hart.vq ≠ [] then .wait s
      else
        let s1 := if s.onFeeder = false ∧ (dir = 0 ∨ dir = 3) then s.settle else s
        .ok () (s1.finish (Enc.fence sc dir) 4)) s

/-- The token of DFENCE.I (R320). -/
def dfenceToken (seq : BitVec 32) (feeder : Bool) : Word := BitVec.ofNat 64 (seq.toNat * 2 ^ 32 + feeder.toNat)

/-- DFENCE.I (R320, R321). -/
def execDfenceI (d : Reg) (s : State) : Out :=
  runScalar ⟨Enc.dfenceI d, 4, .never, true, false, [d]⟩
    (fun s =>
      let s1 := s.setSt { s.st with dfseq := s.st.dfseq + 1 }
      .ok () (s1.finishG (Enc.dfenceI d) 4 d (dfenceToken (s.st.dfseq + 1) s.onFeeder))) s

/-- Whether a vector instruction that stores, issued before DFENCE.I number `n`, still waits. -/
def Hart.storesBefore (h : Hart) (n : BitVec 32) : Bool :=
  h.vq.any fun e => wordStores e.word.toNat && decide (0 < (n - e.fence).toNat) && decide ((n - e.fence).toNat < 2 ^ 31)

/-- DFENCE.W (R321): the scalar stores that wait are performed; it waits for the vector instructions in the queue that store
and that its DFENCE.I covers. -/
def execDfenceW (a : Reg) (s : State) : Out :=
  runScalar ⟨Enc.dfenceW a, 4, .never, true, false, [a]⟩
    (fun s =>
      let t := (s.rd a).toNat
      let ahead := (s.st.dfseq - BitVec.ofNat 32 (t / 2 ^ 32)).toNat
      if t / 2 % 2 ^ 31 ≠ 0 ∨ decide (t % 2 = 1) ≠ s.onFeeder ∨ 2 ^ 31 ≤ ahead then .trap .illop (wordVal (Enc.dfenceW a)) s
      else if s.onFeeder = false ∧ s.hart.storesBefore (BitVec.ofNat 32 (t / 2 ^ 32)) then .wait s
      else
        let s1 := s.settleMine
        .ok () (s1.finish (Enc.dfenceW a) 4)) s

/-! ## VAPPEND (R215-R217) -/

/-- Pushes the notices that have room in q0: the value reached and the number left (R216). -/
def pushNotices (vlmax : Nat) : Nat → List Word → Word → Nat → List Word × Word × Nat
  | 0, q, t, n => (q, t, n)
  | fuel + 1, q, t, n =>
    if n = 0 ∨ q.length ≥ 32 then (q, t, n)
    else pushNotices vlmax fuel (q ++ [t + BitVec.ofNat 64 vlmax]) (t + BitVec.ofNat 64 vlmax) (n - 1)

/-- Goes on pushing the notices of an append that is performed; the entry holds what is left. -/
def noticeTurn (vlmax : Nat) (e : VEntry) (t : Word) (n : Nat) (s : State) : VRes :=
  let r := pushNotices vlmax 32 (s.hart.queue 0) t n
  let s1 := { s with hart := s.hart.setQueue 0 r.1 }
  if r.2.2 = 0 then s1.vdone else .wait { e with begun := some r.2.1, latched := [r.2.2] } s1

/-- Whether the positions that an append selects follow from a poisoned mask (R452). -/
def appendBad (h : Hart) (c : VCfg) (k : BitVec 3) : Bool :=
  h.poison != [] && k != 0 && c.positions.any fun p => maskBad h.poison k.toNat p.1 p.2

/-- The update of HEAD and NOTED and the stores of the entries, once all addresses are checked: their persist units are one
for each atom (R216, R402). -/
def appendStores (c : VCfg) (sel : List (Nat × Nat)) (off : Nat) (bad : Bool) (head noted : Word) (wr en : List ((Nat × Nat) × Xl))
    (s : State) : State :=
  let a := s.agent
  let s1 := ((wr.map (·.2)).zip [head, noted]).foldl (fun t x => t.perform a x.1 (toLe 8 x.2.toNat) bad) s
  let s2 := (en.zip sel).foldl (fun t x => t.perform a x.1.2 (toLe 4 (off + x.2.1 * c.vl + x.2.2)) bad) s1
  s2.mergeFrom s.ingress.length 64

/-- VAPPEND's effect (R216, R217): the descriptor, its checks, every entry address, then the update and the stores, then the
notices, which alone wait for room in q0.
A fault on the descriptor is reported as position (0, 0), before the entries (DESIGN CHOICE, log 43). -/
def runAppend (word : Nat) (k : BitVec 3) (e : VEntry) (s : State) : VRes :=
  let h := s.hart
  let c := VCfg.of h e
  let a := s.agent
  let d := e.ops.getD 0 0
  let vlmax := vlmaxOf e.vtype c.g h.vlcap
  match e.begun with
  | some t => noticeTurn vlmax e t (e.latched.headD 0) s
  | none =>
    let fault := fun (b : List ((Nat × Nat) × MemFault)) (s1 : State) => VRes.stop (vecEvent s e.pc word 0 b) e s1
    let sel := c.positions.filter fun p => c.active h.m k.toNat p.1 p.2
    let rd := s.places a (.plain 0 8) ((List.range 4).map fun j => ((0, j), d + BitVec.ofNat 64 (8 * j)))
    match rd.bad with
    | f :: _ => fault [f] rd.s
    | [] =>
      let r := rd.s.readAll a 8 rd.ok
      if r.2.1 then .wait e (r.2.2.keep rd.ok)
      else
        let s1 := r.2.2.dropReads.poisonReads e.pc c r.1
        let w := fun (j : Nat) => (r.1.map fun x => x.val).getD j 0
        let base : Word := BitVec.ofNat 64 (w 0)
        let cap := w 1 % 2 ^ 32
        let head : Word := BitVec.ofNat 64 (w 2)
        let noted : Word := BitVec.ofNat 64 (w 3)
        if cap = 0 then .trap .illop (wordVal word) s1
        else if base.toNat % 4 ≠ 0 then .trap .misalign base s1
        else if sel = [] then s1.vdone
        else
          let wr := s1.translateAll a (.plain 1 8) ((List.range 2).map fun j => ((0, 0), d + BitVec.ofNat 64 (16 + 8 * j)))
          let en := wr.s.translateAll a (.plain 1 4)
            (sel.mapIdx fun j p => (p, base + BitVec.ofNat 64 (4 * ((head.toNat + j) % cap))))
          match wr.bad.take 1 ++ en.bad with
          | _ :: _ => fault (wr.bad ++ en.bad) en.s
          | [] =>
            let head' := head + BitVec.ofNat 64 sel.length
            let n := if vlmax = 0 then 0 else (head'.toNat - noted.toNat) / vlmax
            noticeTurn vlmax e noted n
              (appendStores c sel (w 1 / 2 ^ 32) (r.1.any (·.bad) || appendBad h c k) head'
                (noted + BitVec.ofNat 64 (n * vlmax)) wr.ok en.ok en.s)

/-- VAPPEND (R215, R216): a hart without a feeder and VSTART other than 0 raise ILLOP, a descriptor not aligned to 32
MISALIGN, in this order (DESIGN CHOICE, log 43). Its descriptor is read when no queued instruction comes before it. -/
def execVappend (b : Reg) (k : BitVec 3) (s : State) : Out :=
  runVector
    { word := Enc.vappend b k, qword := Enc.vappend b k, size := 4, pfx := .never, dst := fun _ => none
      srcs := fun _ => [], bank := none, gs := [b], lastd := .none
      check := fun h c ops =>
        if c.vrow ≠ 0 ∨ c.velem ≠ 0 ∨ h.hasFeeder = false then some (.illop, wordVal (Enc.vappend b k))
        else if (ops.getD 0 0).toNat % 32 ≠ 0 then some (.misalign, ops.getD 0 0)
        else none
      ready := fun s => s.hart.vq.isEmpty
      writes := true
      run := runAppend (Enc.vappend b k) k } s

/-- Whether an entry is a VAPPEND whose descriptor checks have not been made: what follows it waits (R162). -/
def VEntry.uncheckedAppend (e : VEntry) : Bool :=
  e.word.toNat / 2 % 64 == 0x1D && e.word.toNat / 2 ^ 26 == 14 && e.begun.isNone

end Sys2Proof.Machine
end

