-- ==== Sys2Proof/Machine/Engines.lean ====
section
/-! DEFINITION. The engines' contexts, timelines and tokens, the accesses of an operation, the copy and timeline
instructions (spec/14 R343-R363, spec/19 R443, spec/22 R498). -/

namespace Sys2Proof.Machine

/-! ## Acceptance (R345-R348) -/

/-- Operations accepted on a context and not complete. -/
def State.outstanding (s : State) (c : CtxRef) : Nat := (s.ops.filter (·.ctx == c)).length

/-- The register that awaits a token becomes pending (R347). -/
def Stream.await (t : Stream) (d : Reg) : Stream :=
  if d = 0 then t else { t with pend := t.pend ||| (1#32 <<< d.toNat) }

/-- Accepts an operation: its number, its token, and the instruction completes. It is a release of the scalar agent that
issues (R349), which waits for the returns of the stream's RSTX and RAMOX (R496, R507). The HARTID kept resolves the aliases of the operation wherever the hart goes (DESIGN CHOICE, log 42). -/
def State.accept (s0 : State) (word : Nat) (c : CtxRef) (k : OpKind) (d : Reg) (also : Option (Nat × Nat)) : Res Unit :=
  let s := s0.settleMine
  let t := s.timeline c
  if s.remoteStoresOut then .wait s
  else if 2 ^ 63 ≤ t.issued + 1 then .trap .illop (wordVal word) s
  else
    let o : Op :=
      { id := s.nextOp, ctx := c, num := t.issued + 1, kind := k, issuer := s.hart.tag
        ctl := match s.hart.kind with | .cdie => none | .control n => some n
        feeder := s.onFeeder, token := d, win := s.st.win, sv := s.hart.sv, hartid := s.hart.hartid
        fab := match c with
          | .xchg x => (s.exchange x).map fun e => (e.members, s.rank)
          | .coll g => (s.collective g).map fun e => (e.members, s.rank)
          | _ => none
        also := also
        stage := .accepted }
    let s1 := s.setTimeline c { t with issued := t.issued + 1 }
    let s2 := { s1 with ops := s1.ops ++ [o], nextOp := s1.nextOp + 1 }
    .ok () (s2.setSt ({ (s2.st.await d) with lastG := d }.advance word 4))

/-! ## The end of an operation (R345, R347, R434) -/

/-- The operation of an id ends. -/
def State.endAt (s : State) (id : Nat) : State :=
  match s.ops.find? (·.id == id) with
  | some o => s.endOp o o.num
  | none => s

/-! ## The accesses of an operation (R348-R351) -/

/-- An operation as an agent, translating with the walkers of die `d`. -/
def Op.agent (o : Op) (d : Nat) : Agent where
  die := d
  id := if o.ctl.isSome then none else some o.hartid
  ctl := o.ctl
  sv := o.sv
  win := o.win
  engine := true
  tag := if o.ctl.isSome then none else some o.issuer
  feeder := o.feeder
  op := some o.id
  onHub := match o.ctx with | .bedrock _ | .xchg _ | .coll _ => true | .copy _ _ | .topo _ _ => false

/-- The die whose walkers serve a copy or a PARK: the issuing hart's; H for a control core. -/
def Op.die (o : Op) : Nat := if o.ctl.isSome then 4 else idDie o.hartid

/-- A byte that an engine has read, and whether its word was uncorrectable (R452). -/
abbrev EByte := Byte × Bool

/-- Reads `n` bytes in pieces within 64-byte blocks; the first number bounds the pieces. -/
def State.engRead (s : State) (a : Agent) : Nat → Word → Nat → Res (List EByte)
  | 0, _, _ => .ok [] s
  | k + 1, va, n =>
    if n = 0 then .ok [] s
    else
      let m := min n (64 - va.toNat % 64)
      (s.translate a (.plain 0 m) va).bind fun x s1 =>
        let pa := a.readAt x
        let here := (List.range m).map fun i => (s1.mem.byte (pa + i), s1.isPoisoned (pa + i) 1)
        (s1.engRead a k (va + BitVec.ofNat 64 m) (n - m)).bind fun r s2 => .ok (here ++ r) s2

/-- Writes bytes at a physical address, each ECC word with its own poison; the number bounds the words. -/
def State.putWords (s : State) (a : Agent) : Nat → Nat → List EByte → State
  | 0, _, _ => s
  | k + 1, pa, l =>
    match l with
    | [] => s
    | _ =>
      let m := eccSize pa - pa % eccSize pa
      let w := l.take m
      (s.putBytes a pa (w.map (·.1)) (w.any (·.2))).putWords a k (pa + m) (l.drop m)

/-- Writes bytes in pieces within 64-byte blocks. -/
def State.engWrite (s : State) (a : Agent) : Nat → Word → List EByte → Res Unit
  | 0, _, _ => .ok () s
  | k + 1, va, l =>
    match l with
    | [] => .ok () s
    | _ =>
      let m := min l.length (64 - va.toNat % 64)
      (s.translate a (.plain 1 m) va).bind fun x s1 =>
        ((s1.writeAt a x).foldl (fun t pa => t.putWords a 64 pa (l.take m)) s1).engWrite a k
          (va + BitVec.ofNat 64 m) (l.drop m)

/-- Reads `n` bytes. -/
def State.eread (s : State) (a : Agent) (va : Word) (n : Nat) : Res (List EByte) := s.engRead a (n / 64 + 2) va n
/-- Writes bytes. -/
def State.ewrite (s : State) (a : Agent) (va : Word) (l : List EByte) : Res Unit := s.engWrite a (l.length / 64 + 2) va l
/-- A number of `n` bytes. -/
def State.enum (s : State) (a : Agent) (va : Word) (n : Nat) : Res Nat :=
  (s.eread a va n).bind fun l s1 => .ok (leNat (l.map (·.1))) s1
/-- Numbers of `w` bytes at addresses that rise by `w`. -/
def State.enums (s : State) (a : Agent) (va : Word) (w n : Nat) : Res (List Nat) :=
  (s.eread a va (w * n)).bind fun l s1 =>
    .ok ((List.range n).map fun i => leNat (((l.map (·.1)).drop (w * i)).take w)) s1
/-- Clean bytes of a number. -/
def cleanLe (n v : Nat) : List EByte := (toLe n v).map fun b => (b, false)
/-- Clean bytes of numbers of `w` bytes. -/
def cleanNums (w : Nat) (l : List Nat) : List EByte := l.flatMap (cleanLe w)

/-- Steps taken one after another (R356). -/
def State.esteps {α : Type} (f : α → State → Res Unit) : List α → State → Res Unit
  | [], s => .ok () s
  | x :: r, s => (f x s).bind fun _ s1 => State.esteps f r s1

/-- `rows` steps, numbered from `r` up. -/
def State.erows (f : Nat → State → Res Unit) : Nat → Nat → State → Res Unit
  | 0, _, s => .ok () s
  | k + 1, r, s => (f r s).bind fun _ s1 => State.erows f k (r + 1) s1

/-! ## Copies (R352-R356) -/

/-- Moves `n` bytes as one step. -/
def State.emove (s : State) (a : Agent) (dst src : Word) (n : Nat) : Res Unit :=
  (s.eread a src n).bind fun l s1 => s1.ewrite a dst l

/-- The accesses of CPY, CPY2 and CPYX (R353-R355). -/
def copyPerform (a : Agent) (k : OpKind) (s : State) : Res Unit :=
  match k with
  | .cpy dst src n => s.emove a dst src n
  | .cpy2 dst src rowBytes rows dp sp =>
    State.erows (fun r s => s.emove a (dst + BitVec.ofNat 64 r * dp.signExtend 64) (src + BitVec.ofNat 64 r * sp.signExtend 64)
      rowBytes) rows 0 s
  | .cpyx dst src idx count esz scatter wide =>
    let w := if wide then 8 else 4
    State.erows (fun j s =>
      (s.enum a (idx + BitVec.ofNat 64 (j * w)) w).bind fun x s =>
        if x = 2 ^ (8 * w) - 1 then .ok () s
        else
          let i := BitVec.ofNat 64 (j * esz)
          let o := BitVec.ofNat 64 (x * esz)
          if scatter then s.emove a (dst + o) (src + i) esz else s.emove a (dst + i) (src + o) esz) count 0 s
  | _ => .ok () s

/-- Accepts a copy on CC0 or CC1, once one of its 16 places is free (R346). -/
def State.acceptCopy (s : State) (word : Nat) (d : Reg) (c : BitVec 1) (k : OpKind) : Res Unit :=
  if s.outstanding (.copy s.hart.tag c.toNat) ≥ 16 then .wait s else s.accept word (.copy s.hart.tag c.toNat) k d none

/-- CPY (R353): one of 0 bytes completes at once. -/
def execCpy (d a b : Reg) (c : BitVec 1) (s : State) : Out :=
  runScalar ⟨Enc.cpy d a b c, 4, .never, true, false, [d, a, b]⟩
    (fun s =>
      if 2 ^ 40 < (s.rd d).toNat then .trap .illop (wordVal (Enc.cpy d a b c)) s
      else (s.acceptCopy (Enc.cpy d a b c) d c (.cpy (s.rd a) (s.rd b) (s.rd d).toNat)).bind fun _ s1 =>
        .ok () (if s.rd d = 0 then s1.endAt s.nextOp else s1)) s

/-- Goes on with the `n` 8-byte words from an aligned address up, read as the issuing stream's scalar agent (R258, R354):
translated and checked before any is read, and each word of a DEVICE page read once, however long `f` waits with them (R285). -/
def State.withWords (s0 : State) (word : Nat) (va : Word) (n : Nat) (f : List Word → State → Res Unit) : Res Unit :=
  let s := s0.settleMine
  let t := s.places s.agent (.plain 0 8) ((List.range n).map fun j => ((0, j), va + BitVec.ofNat 64 (8 * j)))
  match t.bad with
  | (_, f) :: _ => .mem f t.s
  | [] =>
    if t.ok.length < n then .wait t.s
    else
    let r := t.s.readAll s.agent 8 t.ok
    let held := r.2.2.keep t.ok
    let words := r.1.map fun x => BitVec.ofNat 64 x.val
    if r.2.1 then .wait held
    else match f words held with
      | .wait u => .wait u
      | _ =>
        let u := held.dropReads
        f words (if r.1.any (·.bad) then u.poisonLoad (trapEpc 0 u.st) word else u)

/-- Goes on with a 32-byte descriptor: MISALIGN unless aligned to 32 (R354). -/
def State.withDesc (s : State) (word : Nat) (va : Word) (f : List Word → State → Res Unit) : Res Unit :=
  if va.toNat % 32 ≠ 0 then .trap .misalign va s else s.withWords word va 4 f

/-- CPY2 (R354). -/
def execCpy2 (d a : Reg) (c : BitVec 1) (s : State) : Out :=
  let word := Enc.cpy2 d a c
  runScalar ⟨word, 4, .never, true, false, [d, a]⟩
    (fun s0 => s0.withDesc word (s0.rd a) fun w s =>
      let rowBytes := (w.getD 2 0).toNat % 2 ^ 32
      let rows := (w.getD 2 0).toNat / 2 ^ 32
      if 2 ^ 40 < rowBytes * rows then .trap .illop (wordVal word) s
      else s.acceptCopy word d c
        (.cpy2 (w.getD 0 0) (w.getD 1 0) rowBytes rows ((w.getD 3 0).setWidth 32) (BitVec.ofNat 32 ((w.getD 3 0).toNat / 2 ^ 32)))) s

/-- CPYX (R355). -/
def execCpyx (d a : Reg) (c : BitVec 1) (s : State) : Out :=
  let word := Enc.cpyx d a c
  runScalar ⟨word, 4, .never, true, false, [d, a]⟩
    (fun s0 => s0.withDesc word (s0.rd a) fun w s =>
      let idx := w.getD 2 0
      let last := (w.getD 3 0).toNat
      let count := last % 2 ^ 32
      let esz := bitsAt last 47 32
      let flags := bitsAt last 63 48
      let wide := bitAt flags 1
      if esz = 0 ∨ 4096 < esz ∨ 2 ^ 40 < count * esz ∨ 4 ≤ flags then .trap .illop (wordVal word) s
      else if idx.toNat % (if wide then 8 else 4) ≠ 0 then .trap .misalign idx s
      else s.acceptCopy word d c (.cpyx (w.getD 0 0) (w.getD 1 0) idx count esz (bitAt flags 0) wide)) s

/-! ## Timeline instructions (R357-R361) -/

/-- All ones: what an id that names nothing reads as (R358). -/
def noCtx : Word := BitVec.allOnes 64

/-- The stream waits in TLWAIT, or no longer does. -/
def State.setTlw (s : State) (w : TlWait) : State := s.setSt { s.st with tlw := w }

/-- TLWAIT (R359): ILLOP when the context that it waits on ceases to exist, be it created anew (R361). -/
def execTlwait (a b : Reg) (s : State) : Out :=
  runScalar ⟨Enc.tlwait a b, 4, .never, true, true, [a, b]⟩
    (fun s =>
      match s.st.tlw, s.ctxOf (s.rd a) with
      | .gone, _ | _, none => .trap .illop (wordVal (Enc.tlwait a b)) (s.setTlw .none)
      | _, some c =>
        if (s.rd b).toNat ≤ (s.timeline c).count then .ok () ((s.setTlw .none).finish (Enc.tlwait a b) 4)
        else .wait (s.setTlw (.on c))) s

/-- TLREAD (R360). -/
def execTlread (d a : Reg) (s : State) : Out :=
  runScalar ⟨Enc.tlread d a, 4, .never, true, true, [d, a]⟩
    (fun s =>
      let v := match s.ctxOf (s.rd a) with | none => noCtx | some c => BitVec.ofNat 64 (s.timeline c).count
      .ok () (s.finishG (Enc.tlread d a) 4 d v)) s

/-- The Bedrock contexts that a request may take, in the order in which they are tried: of any free one the lowest is taken
(R361; DESIGN CHOICE, log 42). -/
def engctxWanted (w : Nat) : Option (List Nat) :=
  if w = 0x3FFF then some (List.range 8) else if 0x3000 ≤ w ∧ w < 0x3008 then some [w - 0x3000] else none

/-- ENGCTX create (R361). -/
def execEngctxCreate (d a : Reg) (s : State) : Out :=
  runScalar ⟨Enc.engctxCreate d a, 4, .never, true, true, [d, a]⟩
    (fun s =>
      match engctxWanted (s.rd a).toNat with
      | none => .trap .illop (wordVal (Enc.engctxCreate d a)) s
      | some l =>
        match l.find? (fun i => !(vget s.bedrock bedrockDefault i).exist) with
        | none => .ok () (s.finishG (Enc.engctxCreate d a) 4 d 0)
        | some i =>
          let s1 := { s with bedrock := vset s.bedrock i { exist := true, closing := false, win := s.st.win, tl := Timeline.zero } }
          .ok () (s1.finishG (Enc.engctxCreate d a) 4 d (BitVec.ofNat 64 (0x3000 + i)))) s

/-- ENGCTX destroy (R361): one that waits on a context that another destroys meanwhile executes again, and raises ILLOP or acts on
a context created anew (DESIGN CHOICE, log 42). -/
def execEngctxDestroy (a : Reg) (s : State) : Out :=
  runScalar ⟨Enc.engctxDestroy a, 4, .never, true, true, [a]⟩
    (fun s =>
      match s.ctxOf (s.rd a) with
      | some (.bedrock i) =>
        let c := vget s.bedrock bedrockDefault i
        if s.hart.sv = false ∧ s.st.win ≠ c.win then .trap .priv (wordVal (Enc.engctxDestroy a)) s
        else if c.tl.count = c.tl.issued then
          let s1 := { s with bedrock := vset s.bedrock i bedrockDefault }
          .ok () ((s1.endCtx (· == .bedrock i)).finish (Enc.engctxDestroy a) 4)
        else .wait { s with bedrock := vset s.bedrock i { c with closing := true } }
      | _ => .trap .illop (wordVal (Enc.engctxDestroy a)) s) s

/-- ENGCTX query (R361). -/
def execEngctxQuery (d a : Reg) (s : State) : Out :=
  runScalar ⟨Enc.engctxQuery d a, 4, .never, true, true, [d, a]⟩
    (fun s =>
      let v := match s.ctxOf (s.rd a) with | none => noCtx | some c => BitVec.ofNat 64 (s.timeline c).issued
      .ok () (s.finishG (Enc.engctxQuery d a) 4 d v)) s

/-! ## Completion (R345, R347, R351, R443) -/

/-- An operation accepted and not complete. -/
def State.op (s : State) (id : Nat) : Option Op := s.ops.find? (·.id == id)

/-- Replaces an operation, unless it is lost. -/
def State.setOp (s : State) (o : Op) : State :=
  { s with ops := s.ops.map fun x => if x.id = o.id ∧ x.stage ≠ .lost then o else x }

/-- Whether each of an operation's DURABLE writes is durable (R404). -/
def State.opDurable (s : State) (id : Nat) : Bool := !s.ingress.any fun u => u.byOp == some id

/-- The fault record queue that reports an operation (R443). -/
def Op.faultDie (o : Op) : Nat := if o.ctl.isSome then 0 else idDie o.hartid

/-- An operation stops at an access that faults, with a record (R351, R443); a copy of a killed hart is abandoned (R447). -/
def State.stopOp (s : State) (o : Op) (f : MemFault) : State :=
  let d := o.faultDie
  let n := vget s.stoppedOps 0 d
  let id := match o.ctl with
    | some _ => 0xFFFF
    | none => match s.findHart o.issuer with | some h => h.hartid.setWidth 16 | none => 0xFFFF
  let r : FaultRec :=
    { cause := f.cause, kind := f.kind, acc := BitVec.ofNat 8 f.acc, level := if f.xlate then f.level else 0xFF
      src := 2, flags := 0, npos := 1, handle := BitVec.ofNat 64 (2 ^ 63 + d * 2 ^ 58 + n % 2 ^ 32)
      va := f.va, vawin := f.win, hartid := id, index := 0, npage := 1, pc := 0, word := 0
      ctxid := BitVec.ofNat 16 o.ctx.id, aux := BitVec.ofNat 64 o.num, save := 0 }
  let s1 := { (s.setOp { o with stage := .stopped n }) with stoppedOps := vset s.stoppedOps d (n + 1) }
  let killed : Bool := match o.ctx with
    | .copy t _ => (s.findHart t).any fun h => match h.run with | .killed _ => true | _ => false
    | _ => false
  if killed then s.abandonOp o else s1.putEvent d false [r]

/-- The report of a round whose XRUN ended with a STATUS code (R508). -/
def Xchg.report (c : Xchg) (r : XRunState) (code : Nat) : XReport where
  status := code
  round := c.round
  recv := r.arrived
  posted := c.posted
  spillSent := r.spillSent
  spillRecv := r.spillRecv
  overflow := r.overflow
  ignored := c.ignored
  length := sumNat (c.phases.map (·.1))

/-- The round completes and the next is OPEN (R499). -/
def Xchg.nextRound (c : Xchg) : Xchg :=
  { Xchg.fresh c.x with
    tl := c.tl
    round := c.round + 1
    held := c.held
    asked := c.asked.filter fun p => decide (c.round < p.1)
    last := match c.run with
      | some r => some (c.report r (r.ended.getD 0))
      | none => c.last }

/-- OPERATION_COMPLETE (R345): an operation whose accesses are performed and whose DURABLE writes are durable ends; one whose
context has started afresh is abandoned. -/
def execOperationComplete (id : Nat) (s : State) : Out :=
  match s.op id with
  | none => .next s
  | some o =>
    if o.stage = .lost then .next (s.abandonOp o)
    else if o.stage = .performed ∧ s.opDurable id then
      let s1 := s.endOp o o.num
      match o.ctx with
      | .xchg x => .next (s1.setXchg (s1.xchg x).nextRound)
      | .coll g => .next (s1.setColl { (s1.coll g) with status := BitVec.ofNat 32 o.code })
      | _ => .next s1
    else .next s

end Sys2Proof.Machine
end

