-- ==== Sys2Proof/Machine/Bedrock.lean ====
section
/-! DEFINITION. Bedrock: PBAR, PARK, UNPARK, PSTAT, the persist domain, power loss and orderly shutdown
(spec/17 R399-R416). -/

namespace Sys2Proof.Machine

/-! ## PBAR and PSTAT -/

/-- Whether a persist unit was written by the executing stream itself (R406). -/
def State.wrote (s : State) (u : PersistUnit) : Bool :=
  u.byOp.isNone && (match s.hart.kind with
    | .cdie => u.byCtl.isNone && u.byTag == some s.hart.tag && u.byFeeder == s.onFeeder
    | .control n => u.byCtl == some n)

/-- PBAR (R406). -/
def execPbar (s : State) : Out :=
  runScalar ⟨Enc.pbar, 4, .never, true, true, []⟩
    (fun s =>
      let s1 := s.settleMine
      if (s1.onFeeder = false ∧ s1.hart.vq ≠ []) ∨ s1.ingress.any s1.wrote then .wait s1
      else .ok () (s1.finish Enc.pbar 4)) s

/-- Dirty bytes of the persist domain, by lines of one atom. -/
def State.dirtyBytes (s : State) : Nat := 64 * s.dirty.length

/-- PSTAT (R415). -/
def execPstat (d a : Reg) (s : State) : Out :=
  runScalar ⟨Enc.pstat d a, 4, .never, true, true, [d, a]⟩
    (fun s =>
      let v := match s.ctxOf (s.rd a) with
        | some (.bedrock i) => BitVec.ofNat 64 (s.hub.brPloss.toNat * 2 ^ 63 + (s.dirtyBytes + 2 ^ 20 - 1) / 2 ^ 20 * 2 ^ 32
            + s.hub.brdcap.toNat * 65536 + s.outstanding (.bedrock i))
        | _ => noCtx
      .ok () (s.finishG (Enc.pstat d a) 4 d v)) s

/-! ## Accepting PARK and UNPARK (R411-R413) -/

/-- The element size of EFMT. -/
def efmtBytes (e : Nat) : Nat := if e = 0 then 4 else 2
/-- The format of EFMT. -/
def efmtFmt (e : Nat) : Fmt := match e with | 0 => fmtF32 | 1 => fmtBf16 | _ => fmtF16

/-- Whether a descriptor of eight words breaks R413. -/
def badPark (park : Bool) (w : List Word) : Bool :=
  let src := (w.getD 1 0).toNat
  let dst := (w.getD 2 0).toNat
  let count := (w.getD 3 0).toNat
  let f := (w.getD 4 0).toNat
  let fmt := f % 256
  let efmt := f / 256 % 256
  decide (2 < fmt) || decide (2 < efmt) || bitsAt f 31 16 != 0 || w.getD 6 0 != 0 || w.getD 7 0 != 0
  || (fmt == 0 && efmt != 0) || decide (2 ^ 40 < count) || (fmt != 0 && count % 32 != 0)
  || (if park then dst else src) % 64 != 0
  || (if park then src else dst) % efmtBytes efmt != 0

/-- PARK and UNPARK up to acceptance (R413). -/
def runPark (park : Bool) (word : Nat) (d a b : Reg) (s : State) : Out :=
  runScalar ⟨word, 4, .never, true, true, [d, a, b]⟩
    (fun s =>
      match s.ctxOf (s.rd b) with
      | some (.bedrock i) =>
        let c := vget s.bedrock bedrockDefault i
        if c.closing then .trap .illop (wordVal word) s
        else if s.hart.sv = false ∧ s.st.win ≠ c.win then .trap .priv (wordVal word) s
        else if (s.rd a).toNat % 64 ≠ 0 then .trap .misalign (s.rd a) s
        else s.withWords word (s.rd a) 8 fun w s =>
          if badPark park w then .trap .illop (wordVal word) s
          else if 32 ≤ s.outstanding (.bedrock i) then .wait s
          else
            let f := (w.getD 4 0).toNat
            let fmt := BitVec.ofNat 8 f
            let efmt := BitVec.ofNat 8 (f / 256)
            let n := (w.getD 3 0).toNat
            s.accept word (.bedrock i)
              (if park then .park (s.rd a) (w.getD 1 0) (w.getD 2 0) n fmt efmt
               else .unpark (s.rd a) (w.getD 1 0) (w.getD 2 0) n fmt efmt) d none
      | _ => .trap .illop (wordVal word) s) s

/-- PARK (R413). -/
def execPark (d a b : Reg) (s : State) : Out := runPark true (Enc.park d a b) d a b s
/-- UNPARK (R413). -/
def execUnpark (d a b : Reg) (s : State) : Out := runPark false (Enc.unpark d a b) d a b s

/-! ## Performing them (R413, R414) -/

/-- The class of the page of an address, or the fault of its walk. -/
def State.classAt (s : State) (a : Agent) (acc : Nat) (va : Word) : Res Nat :=
  match s.tlbFor a va.toNat with
  | some e => .ok (pteClass e.pte.toNat) s
  | none => match s.walk a va.toNat with
    | .leaf l => .ok (pteClass l.pte) s
    | .waits => .wait s
    | .bad k lvl => .mem ⟨true, k, acc, BitVec.ofNat 8 lvl, va, a.win, 65536⟩ s

/-- Whether the class of every page of 64 KiB from the one of `va` up is as wanted. -/
def State.classesOk (s : State) (a : Agent) (acc : Nat) (ok : Nat → Bool) : Nat → Word → Res Bool
  | 0, _ => .ok true s
  | k + 1, va => (s.classAt a acc va).bind fun c s =>
      (s.classesOk a acc ok k (va + 65536)).bind fun r s => .ok (ok c && r) s

/-- Pages of 64 KiB that `n` bytes from `va` touch. -/
def pagesOf (va : Word) (n : Nat) : Nat := if n = 0 then 0 else (va.toNat % 65536 + n + 65535) / 65536

/-- Bytes of the image and of the unparked side. -/
def imageBytes (fmt count : Nat) : Nat := match fmt with | 0 => count | 1 => count + count / 32 | _ => count / 2 + count / 32
/-- See `imageBytes`. -/
def plainBytes (fmt efmt count : Nat) : Nat := if fmt = 0 then count else count * efmtBytes efmt

/-- RAW: each byte in ascending order (R413), in pieces within 64-byte blocks of both sides; a destination a little above
its source in storage repeats. The first number bounds the pieces. -/
def rawCopy (a : Agent) : Nat → Word → Word → Nat → State → Res Unit
  | 0, _, _, _, s => .ok () s
  | k + 1, dst, src, n, s =>
    if n = 0 then .ok () s
    else
      let m := min n (min (64 - src.toNat % 64) (64 - dst.toNat % 64))
      (s.translate a (.plain 0 m) src).bind fun x s => (s.translate a (.plain 1 m) dst).bind fun y s =>
        let l : List EByte := (List.range m).map fun i => (s.mem.byte (a.readAt x + i), s.isPoisoned (a.readAt x + i) 1)
        let gap := a.readAt y - a.readAt x
        let w := if 0 < gap ∧ gap < m then (List.range m).map fun i => l.getD (i % gap) (0, false) else l
        rawCopy a k (dst + BitVec.ofNat 64 m) (src + BitVec.ofNat 64 m) (n - m)
          ((s.writeAt a y).foldl (fun t pa => t.putWords a 64 pa w) s)

/-- The element bytes of a block: one byte each, or two in a byte (R120). -/
def packBlock (fmt : Nat) (l : List Nat) : List Byte :=
  if fmt = 1 then l.map (BitVec.ofNat 8)
  else (List.range 16).map fun j => BitVec.ofNat 8 (l.getD (2 * j) 0 % 16 + l.getD (2 * j + 1) 0 % 16 * 16)

/-- The element codes of a block. -/
def unpackBlock (fmt : Nat) (l : List Byte) : List Nat :=
  if fmt = 1 then l.map (·.toNat) else l.flatMap fun b => [b.toNat % 16, b.toNat / 16]

/-- The element format of FMT. -/
def parkFmt (fmt : Nat) : MxFmt := if fmt = 1 then .e4m3 else .e2m1

/-- Bytes of a block's elements. -/
def blockBytes (fmt : Nat) : Nat := if fmt = 1 then 32 else 16

/-- round_to of a decoded element, saturating: the bits, and whether they differ (R414). -/
def unparkElem (f : Fmt) (v : FVal) : Nat × Bool :=
  match v with
  | .fin n m e =>
    let r := f.round .rne ⟨n, m, e, false⟩
    if r.2 &&& flagOF ≠ 0 then (f.signed n f.maxBits, true) else (r.1, r.2 &&& flagNX != 0)
  | _ => (f.canon, false)

/-- One block of PARK: NaN blocks and inexact elements. -/
def parkBlock (a : Agent) (fmt efmt : Nat) (src dst scale : Word) (s : State) : Res (Nat × Nat) :=
  let w := efmtBytes efmt
  (s.eread a src (32 * w)).bind fun l s =>
    let bad := l.any (·.2)
    let b := (parkFmt fmt).encodeBlock
      ((List.range 32).map fun i => (efmtFmt efmt).read (leNat (((l.drop (w * i)).take w).map (·.1))))
    (s.ewrite a dst ((packBlock fmt b.elems).map fun x => (x, bad))).bind fun _ s =>
    (s.ewrite a scale [(BitVec.ofNat 8 b.scale, bad)]).bind fun _ s =>
      .ok (b.isNan.toNat, (b.inexact.filter id).length) s

/-- One block of UNPARK. -/
def unparkBlock (a : Agent) (fmt efmt : Nat) (src dst scale : Word) (s : State) : Res (Nat × Nat) :=
  let w := efmtBytes efmt
  let f := efmtFmt efmt
  (s.eread a src (blockBytes fmt)).bind fun l s =>
  (s.eread a scale 1).bind fun sc s =>
    let bad := l.any (·.2) || sc.any (·.2)
    let x := leNat (sc.map (·.1))
    let r := (unpackBlock fmt (l.map (·.1))).map fun c => unparkElem f ((parkFmt fmt).decode x c)
    (s.ewrite a dst (r.flatMap fun e => (toLe w e.1).map fun b => (b, bad))).bind fun _ s =>
      .ok (if x = 255 then 1 else 0, (r.filter (·.2)).length) s

/-- The blocks from `j` up, `n` of them, with the counts. -/
def blocks (f : Nat → State → Res (Nat × Nat)) : Nat → Nat → Nat → Nat → State → Res (Nat × Nat)
  | 0, _, x, y, s => .ok (x, y) s
  | n + 1, j, x, y, s => (f j s).bind fun r s => blocks f n (j + 1) (x + r.1) (y + r.2) s

/-- The accesses of PARK and UNPARK. -/
def parkOp (park : Bool) (a : Agent) (desc src dst : Word) (count fmt efmt : Nat) (s : State) : Res Unit :=
  let image := if park then dst else src
  let plain := if park then src else dst
  let ib := imageBytes fmt count
  let pb := plainBytes fmt efmt count
  (s.classesOk a (if park then 1 else 0) (· == 2) (pagesOf image ib) image).bind fun ok1 s =>
  (s.classesOk a (if park then 0 else 1) (· != 1) (pagesOf plain pb) plain).bind fun ok2 s =>
    if !(ok1 && ok2) then s.ewrite a desc (cleanLe 8 (8 + (if park then 16 else 8) * 2 ^ 32))
    else if count = 0 then s.ewrite a desc (cleanLe 8 0)
    else
      let scales := image + BitVec.ofNat 64 (if fmt = 1 then count else count / 2)
      (if fmt = 0 then (rawCopy a (count / 32 + 3) dst src count s).bind fun _ s => .ok (0, 0) s
        else
          let w := 32 * efmtBytes efmt
          blocks (fun j s =>
            let i := image + BitVec.ofNat 64 (j * blockBytes fmt)
            let p := plain + BitVec.ofNat 64 (j * w)
            let sc := scales + BitVec.ofNat 64 j
            if park then parkBlock a fmt efmt p i sc s else unparkBlock a fmt efmt i p sc s) (count / 32) 0 0 0 s).bind fun r s =>
      (s.ewrite a (desc + 36) (cleanLe 4 (min r.1 0xFFFFFFFF))).bind fun _ s =>
      (s.ewrite a (desc + 40) (cleanLe 8 r.2)).bind fun _ s => s.ewrite a desc (cleanLe 8 0)

/-- The accesses of an operation of a Bedrock context. -/
def bedrockPerform (o : Op) (s : State) : Res Unit :=
  match o.kind with
  | .park desc src dst n f e => parkOp true (o.agent o.die) desc src dst n f.toNat e.toNat s
  | .unpark desc src dst n f e => parkOp false (o.agent o.die) desc src dst n f.toNat e.toNat s
  | _ => .ok () s

/-! ## The persist domain (R399-R402) -/

/-- Writes of whole persist units become durable, in their order. -/
def State.makeDurable (s : State) (l : List PersistUnit) : State :=
  { s with durable := l.foldl (fun m u => u.bytes.foldl (fun m c => m.setByte c.1 c.2) m) s.durable
           dirty := l.foldl (fun d u => insertNat u.atom d) s.dirty
           durablePoison := l.foldl (fun p u =>
             let w := u.whole l
             if w.bad then insertNat u.atom p else if w.cleans then p.filter (· != u.atom) else p) s.durablePoison }

/-- Whether a persist unit may still grow: its operation has not performed its accesses (R402). -/
def State.growing (s : State) (u : PersistUnit) : Bool :=
  match u.byOp with
  | some id => (s.op id).any (·.stage != .performed)
  | none => false

/-- How many of the writes `l` to one atom, `k` at least, end with whole persist units; the first number bounds the search. -/
def closePrefix : Nat → List PersistUnit → Nat → Nat
  | 0, _, k => k
  | f + 1, l, k =>
    let ends := fun (u : PersistUnit) => l.length - ((l.reverse.findIdx? u.withOp).getD l.length)
    closePrefix f l ((l.take k).foldl (fun m u => max m (ends u)) k)

/-- The buffer without the first `k` writes to an atom. -/
def dropWrites (atom : Nat) : Nat → List PersistUnit → List PersistUnit
  | 0, l => l
  | _, [] => []
  | k + 1, u :: l => if u.atom = atom then dropWrites atom k l else u :: dropWrites atom (k + 1) l

/-- PERSIST_ACCEPT (R399, R400, R402): the oldest unit of an atom is accepted, with the writes that stand before its last one in
the atom's order, while the dirty bytes allow it. -/
def execPersistAccept (atom : Nat) (s : State) : Out :=
  let l := s.ingress.filter (·.atom == atom)
  let k := closePrefix l.length l 1
  if l.isEmpty ∨ s.down ∨ s.hub.brdcap.toNat * 2 ^ 20 < 64 * (insertNat atom s.dirty).length ∨ (l.take k).any s.growing then .next s
  else .next ({ s with ingress := dropWrites atom k s.ingress }.makeDurable (l.take k))

/-- The controller writes dirty lines to flash until the dirty bytes keep a limit in MiB (R400); which ones is its choice:
here those of the highest atoms (DESIGN CHOICE, log 19). -/
def State.drainTo (s : State) (limit : Nat) : State := { s with dirty := s.dirty.take (limit * 16384) }

/-- FLASH_WRITEBACK (R400): a dirty line becomes clean. -/
def execFlashWriteback (atom : Nat) (s : State) : Out := .next { s with dirty := s.dirty.filter (· != atom) }

/-! ## Power loss and shutdown (R401, R407, R409, R410) -/

/-- BRCTX and BRCTXW as the controller stops accepting. -/
def State.recordContexts (s : State) : State :=
  s.setHub { s.hub with
    brctx := s.bedrock.map fun c => if c.exist then BitVec.ofNat 64 c.tl.count else 0
    brctxw := s.bedrock.map fun c => if c.exist then BitVec.ofNat 9 (256 + c.win.toNat) else 0 }

/-- What the flash holds for recovery: a second loss before bring-up adds to what the first has left (R409; DESIGN CHOICE, log 19). -/
def Recovery.after (old : Option Recovery) (r : Recovery) : Recovery :=
  match old with
  | none => r
  | some o => { o with lost := r.lost.foldl (fun l a => insertNat a l) o.lost, ploss := o.ploss || r.ploss }

/-- The machine after restart (R407): everything as after reset, but for what the flash holds, which bring-up will recover. -/
def State.restart (s : State) (lost : List Nat) (ploss : Bool) : State :=
  { State.reset with
    freeCtr := s.freeCtr
    outbox := s.outbox
    durable := s.durable
    durablePoison := s.durablePoison
    recovery := some (Recovery.after s.recovery { lost := lost, ploss := ploss, ctx := s.hub.brctx, ctxw := s.hub.brctxw }) }

/-- The recovery of the persist domain (R407, R409, R410): the window as the flash holds it, with the lost atoms poisoned, and
the record in BRREC, BRCTX and BRCTXW. -/
def State.recover (s : State) : State :=
  match s.recovery with
  | none => s
  | some r =>
    let poison := r.lost.foldl (fun l a => insertNat a l) s.durablePoison
    let hub := { s.hub with
      brLost := BitVec.ofNat 32 (min r.lost.length 0xFFFFFFFF)
      brPoison := !poison.isEmpty
      brValid := true
      brPloss := r.ploss
      brctx := r.ctx
      brctxw := r.ctxw }
    { s with
      mem := s.durable.foldl (fun m c => m.setByte c.1 c.2) s.mem
      poisonAtoms := poison
      durablePoison := poison
      hub := hub
      recovery := none }

/-- POWER_LOSS (R401): acceptance stops, and writes in the ingress buffer are lost. -/
def execPowerLoss (s : State) : Out :=
  if s.down then .next s else .next { s.recordContexts with down := true, ingress := [], quantum := 0 }

/-- POWER_LOSS_DRAIN_END (R401, R409): the drain ends, and the atoms of the lines it failed for recover poisoned. -/
def execPowerLossDrainEnd (failed : List Nat) (s : State) : Out :=
  if s.down then .next (s.restart (s.dirty.filter failed.contains) true) else .next s

/-- ORDERLY_SHUTDOWN (R401): every performed write becomes durable, and the domain is drained. -/
def execOrderlyShutdown (s : State) : Out :=
  if s.down then .next s
  else
    let s1 := s.recordContexts
    .next ((s1.makeDurable s1.ingress).restart [] false)

end Sys2Proof.Machine
end

