-- ==== Sys2Proof/Machine/Matrix.lean ====
section
/-! DEFINITION. The matrix unit (spec/08 R219-R239) with the exact accumulators of spec/04 R128-R131, and the power
tokens (R226, R227). -/

namespace Sys2Proof.Machine

/-! ## Modes (R220, R232) -/

/-- What a format descriptor fixes. -/
structure Mode where
  /-- INT8 MXINT8 MXFP4 FP8 BF16 FP32 FP64 as 0-6 -/
  code : Nat
  /-- N -/
  cols : Nat
  /-- SEW code of an element in registers and memory -/
  sew : Nat
  /-- W of R128 -/
  fixed : Nat
  /-- width of the windowed accumulator -/
  window : Nat
  a : Fmt
  b : Fmt
  au : Bool
  bu : Bool
  aalt : Bool
  balt : Bool

/-- The mode of a descriptor's low byte. -/
def Mode.of (f : BitVec 8) : Mode :=
  let n := f.toNat
  let fp8 := fun (x : Bool) => if x then fmtE5m2 else fmtE4m3
  let mk := fun c cols sew fixed window (a b : Fmt) => Mode.mk c cols sew fixed window a b (bitAt n 6) (bitAt n 7) (bitAt n 4) (bitAt n 5)
  match n % 16 with
  | 0 => mk 0 128 0 0 32 fmtE4m3 fmtE4m3
  | 1 => mk 1 128 0 0 32 fmtE4m3 fmtE4m3
  | 2 => mk 2 128 0 0 32 fmtE2m1 fmtE2m1
  | 3 => mk 3 64 0 16 64 (fp8 (bitAt n 4)) (fp8 (bitAt n 5))
  | 4 => mk 4 64 1 16 64 fmtBf16 fmtBf16
  | 5 => mk 5 32 2 32 128 fmtF32 fmtF32
  | _ => mk 6 16 3 64 256 fmtF64 fmtF64

/-- MXINT8 and MXFP4. -/
def Mode.mx (m : Mode) : Bool := m.code == 1 || m.code == 2

/-- COUNT and FMT as the queued matrix instructions leave them (R162): MDETACH and MFMT. -/
def Hart.matAfter (h : Hart) : Nat × BitVec 8 :=
  h.vq.foldl (fun x e =>
    if e.word.toNat % 128 = 0x49 then
      match e.word.toNat / 2 ^ 26 with
      | 1 => (0, x.2)
      | 2 => (x.1, (e.ops.getD 0 0).setWidth 8)
      | _ => x
    else x) (h.mcount, h.mfmt)

/-- The mode in force once the queued instructions have executed. -/
def Hart.modeAfter (h : Hart) : Mode := Mode.of h.matAfter.2

/-! ## Macros (R219, R221) -/

/-- A zeroed accumulator. -/
def Acc.zero : Acc := ⟨0, 0, 0, none, .none⟩
/-- Key of an accumulator. -/
def accKey (m row n : Nat) : Nat := (m * 8 + row) * 128 + n
/-- Key of a B element. -/
def bKey (m k n : Nat) : Nat := (m * 256 + k) * 128 + n
/-- Key of a B scale. -/
def scaleKey (m j n : Nat) : Nat := (m * 8 + j) * 128 + n

/-- Every macro of the hart zeroed (R221). -/
def Hart.zeroMacros (h : Hart) : Hart := { h with mb := [], mscale := [], macc := [], mcs := [], matBad := [] }

/-- Macros of the hart's quad that no hart owns (R230). -/
def State.freeMacros (s : State) : Nat :=
  16 - sumNat ((s.allHarts.filter fun h => !h.isControl && idDie h.hartid == idDie s.hart.hartid
    && idQuad h.hartid == idQuad s.hart.hartid).map (·.mcount))

/-- The frame of a MAT instruction. -/
def matSpec (word : Nat) (gs : List Reg) (srcs : Nat → List (Nat × Nat)) (check : Hart → VCfg → List Word → Option (Cause × Word))
    (run : VEntry → State → VRes) : VSpec where
  word := word
  qword := word
  size := 4
  pfx := .never
  dst := fun _ => none
  srcs := srcs
  bank := none
  gs := gs
  lastd := .none
  check := check
  run := run

/-- MATTACH (R230): its grant fixes the later checks, so it waits until the queue is empty (R162). -/
def execMattach (b : Reg) (s : State) : Out :=
  runVector { matSpec (Enc.mattach b) [b] (fun _ => [])
      (fun h _ ops => illopIf (Enc.mattach b) (h.mcount != 0 || decide (16 < (ops.getD 0 0).toNat)))
      (fun e s =>
        let c := min (e.ops.getD 0 0).toNat s.freeMacros
        let h := s.hart.zeroMacros
        ({ s with hart := { h with mcount := c, mmiss := 0, mmissMac := 0 } }).vdone) with
    ready := fun s => s.hart.vq.isEmpty } s

/-- MDETACH (R231). -/
def execMdetach (s : State) : Out :=
  runVector (matSpec Enc.mdetach [] (fun _ => []) (fun _ _ _ => none)
    (fun _ s => ({ s with hart := { s.hart.zeroMacros with mcount := 0 } }).vdone)) s

/-- Whether a descriptor breaks R232. -/
def badDescriptor (w : Word) : Bool :=
  let n := w.toNat
  decide (256 ≤ n) || decide (6 < n % 16) || (n % 16 != 0 && n / 64 != 0) || (n % 16 != 3 && n / 16 % 4 != 0)

/-- MFMT (R232). -/
def execMfmt (b : Reg) (s : State) : Out :=
  runVector (matSpec (Enc.mfmt b) [b] (fun _ => []) (fun _ _ ops => illopIf (Enc.mfmt b) (badDescriptor (ops.getD 0 0)))
    (fun e s => ({ s with hart := { s.hart.zeroMacros with mfmt := (e.ops.getD 0 0).setWidth 8 } }).vdone)) s

/-! ## Sub-blocks (R129) -/

/-- The fixed-point form of an element for exponent E: q, and whether a bit is lost. -/
def fixOne (w : Nat) (emax : Int) (x : FVal) : Int × Bool :=
  match x with
  | .fin n m e =>
    let sh := e + w - 2 - emax
    let q := if 0 ≤ sh then m * 2 ^ sh.toNat else m / 2 ^ (-sh).toNat
    (if n then -(q : Int) else (q : Int), decide (sh < 0) && m % 2 ^ (-sh).toNat != 0)
  | _ => (0, false)

/-- A sub-block in fixed point (R129): E, the q values, MT. -/
def subBlock (w : Nat) (l : List FVal) : Option Int × List Int × Flags :=
  match maxIlog l with
  | none => (none, l.map fun _ => 0, 0)
  | some e =>
    let r := l.map (fixOne w e)
    (some e, r.map (·.1), flagIf (r.any (·.2)) flagMT)

/-- Groups of `n` of a list, `fuel` of them. -/
def groupsOf {α : Type} (n : Nat) : Nat → List α → List (List α)
  | 0, _ => []
  | k + 1, l => if l.isEmpty then [] else l.take n :: groupsOf n k (l.drop n)

/-- The sum of products of two lists of integers. -/
def dotInt (x y : List Int) : Int := (x.zipWith (· * ·) y).foldl (· + ·) 0

/-- Reads an INT8 element as AU or BU says (R223, R232). -/
def int8 (u : Bool) (v : Nat) : Int := if u then ((v % 256 : Nat) : Int) else sextN 8 v

/-! ## Checksum columns (R238) -/

/-- The integer or fixed-point values of stored elements of a row of A or a column of B, from a first position that is a
multiple of 16: an integer, an MX element in units of its format's step, or q of R129 at its sub-block. -/
def Mode.fixedOf (m : Mode) (f : Fmt) (u : Bool) (l : List Nat) : List Int :=
  match m.code with
  | 0 => l.map (int8 u)
  | 1 => l.map (int8 false)
  | 2 => l.map fun x => (fixOne 4 1 (MxFmt.e2m1.read (x % 16))).1
  | _ => (groupsOf 16 16 (l.map f.read)).flatMap fun g => (subBlock m.fixed g).2.1

/-- q_b of 16 rows of column `n` of macro `i`, from row 16 * blk. -/
def Hart.qColumn (h : Hart) (i blk n : Nat) : List Int :=
  let m := Mode.of h.mfmt
  m.fixedOf m.b m.bu ((List.range 16).map fun j => (Sparse.get 0 h.mb (bKey i (16 * blk + j) n)).toNat)

/-- The sums over all columns of q_b for 16 rows of a macro. -/
def Hart.rowSums (h : Hart) (i blk : Nat) : List Int :=
  (List.range (Mode.of h.mfmt).cols).foldl (fun acc n => acc.zipWith (· + ·) (h.qColumn i blk n)) (List.replicate 16 0)

/-- Brings the checksum column of macro `i` up to date for the sub-blocks that rows [lo, lo + n) lie in. -/
def Hart.putSums (h : Hart) (i lo n : Nat) : Hart :=
  if n = 0 then h
  else
    let blks := (List.range ((lo + n - 1) / 16 + 1 - lo / 16)).map fun j => lo / 16 + j
    { h with mcs := blks.foldl (fun c blk => ((h.rowSums i blk).zipIdx).foldl (fun d x =>
        Sparse.set 0 d (i * 256 + 16 * blk + x.2) (BitVec.ofInt 32 x.1)) c) h.mcs }

/-! ## Loading B (R233, R234) -/

/-- SCALE of a selector. -/
def selScale (w : Word) : Bool := w.getLsbD 24
/-- COL of a selector of B. -/
def selCol (w : Word) : Nat := bitsAt w.toNat 22 16
/-- KROW of a selector of B. -/
def selRow (w : Word) : Nat := bitsAt w.toNat 15 8
/-- MAC of a selector. -/
def selMac (w : Word) : Nat := w.toNat % 16

/-- The field checks that MLDB and MLDBM share: a block of `rows` by `cols`. -/
def badSelector (m : Mode) (count : Nat) (w : Word) (rows cols : Nat) : Bool :=
  w.getLsbD 23 || bitsAt w.toNat 7 4 != 0 || (selScale w && !m.mx) || decide (m.cols ≤ selCol w)
  || decide (count ≤ selMac w) || decide (m.cols < selCol w + cols)
  || (if selScale w then decide (7 < selRow w) || decide (8 < selRow w + rows) else decide (256 < selRow w + rows))

/-- Writes one element or scale of B. -/
def Hart.putB (h : Hart) (w : Word) (row col : Nat) (x : Word) : Hart :=
  if selScale w then
    { h with mscale := Sparse.set 0 h.mscale (scaleKey (selMac w) (selRow w + row) (selCol w + col)) (x.setWidth 8) }
  else { h with mb := Sparse.set 0 h.mb (bKey (selMac w) (selRow w + row) (selCol w + col)) x }

/-- Whether one element or scale of B holds poisoned data, from now on (R452). -/
def Hart.markB (h : Hart) (w : Word) (row col : Nat) (bad : Bool) : Hart :=
  let k := if selScale w then 3 * scaleKey (selMac w) (selRow w + row) (selCol w + col) + 1
    else 3 * bKey (selMac w) (selRow w + row) (selCol w + col)
  { h with matBad := if bad then insertNat k h.matBad else h.matBad.filter (· != k) }

/-- The checksum column after a load of `rows` rows of B by a selector: scales leave it (R238). -/
def Hart.loaded (h : Hart) (w : Word) (rows : Nat) : Hart := if selScale w then h else h.putSums (selMac w) (selRow w) rows

/-- MLDB (R229, R233, R238). -/
def execMldb (a b : Reg) (s : State) : Out :=
  runVector (matSpec (Enc.mldb a b) [b] (fun l => [(a.toNat, l)])
    (fun h c ops =>
      let w := ops.getD 0 0
      let m := h.modeAfter
      let count := h.matAfter.1
      illopIf (Enc.mldb a b) (count == 0 || c.vrow != 0 || c.velem != 0 || decide (2 ^ 25 ≤ w.toNat)
        || badSelector m count w c.rc c.vl
        || (if selScale w then c.sew != 0 else c.sew != m.sew || (m.code == 3 && c.alt != m.balt))))
    (fun e s =>
      let c := VCfg.of s.hart e
      let w := e.ops.getD 0 0
      let h := c.positions.foldl (fun (t : Hart) p => (t.putB w p.1 p.2 (BitVec.ofNat 64 (c.el s.hart a p.1 p.2))).markB w p.1 p.2
        (elemBad s.hart.poison c.g c.b a.toNat p.1 p.2)) s.hart
      ({ s with hart := if c.vl = 0 then h else h.loaded w c.rc }).vdone)) s

/-- PITCH, columns and rows of MLDBM's selector. -/
def selPitch (w : Word) : Nat := w.toNat / 2 ^ 48
/-- NC + 1. -/
def selCols (w : Word) : Nat := bitsAt w.toNat 46 40 + 1
/-- ROWS + 1. -/
def selRows (w : Word) : Nat := bitsAt w.toNat 39 32 + 1

/-- Element bytes of MLDBM's source. -/
def selBytes (m : Mode) (w : Word) : Nat := if selScale w then 1 else 2 ^ m.sew

/-- The source of MLDBM: the scratchpad of the hart's own quad (R296). -/
def quadSpad (h : Hart) : Nat × Nat × Bool :=
  (0x9000000000 + idDie h.hartid * 0x4000000 + idQuad h.hartid * 0x200000, 0x200000, true)

/-- MLDBM's effect: every address is checked before any B is written; it may pause between its reads (R324). -/
def runMldbm (word : Nat) (e : VEntry) (s : State) : VRes :=
  let h := s.hart
  let w := e.ops.getD 0 0
  let base := e.ops.getD 1 0
  let n := selBytes (Mode.of h.mfmt) w
  let items : List VItem := (List.range (selRows w)).flatMap fun r => (List.range (selCols w)).map fun j =>
    ((r, j), base + BitVec.ofNat 64 (r * selPitch w + j * n))
  let t := s.translateAll s.agent ⟨0, n, .plain, some (quadSpad h)⟩ items
  match t.bad with
  | _ :: _ => .stop (vecEvent s e.pc word 0 t.bad) e t.s.dropReads
  | [] =>
    match t.s.pauseAt t.ok with
    | some m => .wait e (t.s.readPart s.agent n (t.ok.take m)).paused
    | none =>
    let r := t.s.readAll s.agent n t.ok
    let h1 := r.1.foldl (fun (k : Hart) x => (k.putB w x.pos.1 x.pos.2 (BitVec.ofNat 64 x.val)).markB w x.pos.1 x.pos.2 x.bad)
      r.2.2.hart
    (({ r.2.2 with hart := h1.loaded w (selRows w) }).dropReads.poisonReads e.pc (VCfg.of h e) r.1).vdone

/-- MLDBM (R229, R234). -/
def execMldbm (a b : Reg) (s : State) : Out :=
  runVector (matSpec (Enc.mldbm a b) [b, a] (fun _ => [])
    (fun h _ ops =>
      let w := ops.getD 0 0
      let m := h.modeAfter
      let count := h.matAfter.1
      if count = 0 ∨ w.getLsbD 47 ∨ bitsAt w.toNat 31 25 ≠ 0 ∨ badSelector m count w (selRows w) (selCols w) then
        some (.illop, wordVal (Enc.mldbm a b))
      else if (ops.getD 1 0).toNat % selBytes m w ≠ 0 ∨ selPitch w % selBytes m w ≠ 0 then some (.misalign, ops.getD 1 0)
      else none)
    (runMldbm (Enc.mldbm a b))) s

/-! ## Windows (R130, R131) -/

/-- Adds mant * 2^exp to a windowed accumulator of width `w` (R131). -/
def Acc.addWindow (a : Acc) (w : Nat) (mant exp need : Int) : Acc × Flags :=
  if mant = 0 then (a, 0)
  else
    let e := min a.exp exp
    let t := a.mant * (2 ^ (a.exp - e).toNat : Nat) + mant * (2 ^ (exp - e).toNat : Nat)
    let h0 := match a.top with | none => need | some h => max h need
    let h := if t = 0 then h0 else max h0 (ilog t.natAbs e + 1)
    let lsb := h - w + 1
    if lsb ≤ e then ({ a with mant := t * (2 ^ (e - lsb).toNat : Nat), exp := lsb, top := some h }, 0)
    else
      let k : Int := (2 ^ (lsb - e).toNat : Nat)
      ({ a with mant := t.tdiv k, exp := lsb, top := some h }, flagIf (t.tmod k != 0) flagML)

/-- The special state after the products of a list of pairs, in ascending k (R130; the order is a DESIGN CHOICE, log 40). -/
def specialDot (s : Special) (l : List (FVal × FVal)) : Special × Flags :=
  l.foldl (fun acc p =>
    match p with
    | (.fin _ _ _, .fin _ _ _) => acc
    | (x, y) => let r := specialProduct acc.1 x y; (r.1, acc.2 ||| r.2)) (s, 0)

/-- The exact modes (R225): one accumulator, the A row and the B column; the sub-blocks join the window in ascending k (R131; the
order is a DESIGN CHOICE, log 40). -/
def dotExact (m : Mode) (acc : Acc) (x y : List FVal) : Acc × Flags :=
  ((groupsOf 16 16 x).zip (groupsOf 16 16 y)).foldl (fun r g =>
    let p := subBlock m.fixed g.1
    let q := subBlock m.fixed g.2
    let sp := specialDot r.1.special (g.1.zip g.2)
    let a := { r.1 with special := sp.1 }
    let fl := r.2 ||| p.2.2 ||| q.2.2 ||| sp.2
    match p.1, q.1 with
    | some ea, some eb =>
      let t := a.addWindow m.window (dotInt p.2.1 q.2.1) (ea + eb - 2 * m.fixed + 4) (ea + eb + 22)
      (t.1, fl ||| t.2)
    | _, _ => (a, fl)) (acc, 0)

/-- The exact sum of the products of finite values. -/
def dotFin (l : List (FVal × FVal)) : Int × Int :=
  l.foldl (fun acc p =>
    match mulVal p.1 p.2 with
    | some (.fin n m e) => exactSum (decide (acc.1 < 0)) acc.1.natAbs acc.2 n m e
    | _ => acc) (0, 0)

/-- The MX modes (R224): blocks of 32 with their scales. -/
def dotMx (m : Mode) (acc : Acc) (x y : List Nat) (sa sb : List Nat) : Acc × Flags :=
  let k : MxFmt := if m.code = 2 then .e2m1 else .int8
  ((groupsOf 32 8 (x.zip y)).zip (sa.zip sb)).foldl (fun r g =>
    let a := g.2.1
    let b := g.2.2
    if a = 255 ∨ b = 255 then ({ r.1 with special := (joinSpecial r.1.special none).1 }, r.2)
    else
      let c := dotFin (g.1.map fun p => (k.read (if m.code = 2 then p.1 % 16 else p.1), k.read (if m.code = 2 then p.2 % 16 else p.2)))
      let ex : Int := (a : Int) + b - 254
      let t := r.1.addWindow m.window c.1 (c.2 + ex) (ex + if m.code = 2 then 13 else 10)
      (t.1, r.2 ||| t.2)) (acc, 0)

/-- INT8 (R223). -/
def dotInt8 (m : Mode) (acc : Acc) (x y : List Nat) : Acc :=
  { acc with int := acc.int + BitVec.ofInt 32 (dotInt (x.map (int8 m.au)) (y.map (int8 m.bu))) }

/-! ## MMUL (R226, R227, R235) -/

/-- Adds one A row to an accumulator by the mode. -/
def Mode.dot (m : Mode) (acc : Acc) (x y sa sb : List Nat) : Acc × Flags :=
  if m.code = 0 then (dotInt8 m acc x y, 0)
  else if m.mx then dotMx m acc x y sa sb
  else dotExact m acc (x.map m.a.read) (y.map m.b.read)

/-- The accumulators and flags after an MMUL of `rc` rows of `k` elements. -/
def Hart.mmul (h : Hart) (rc k : Nat) (a : Nat → Nat → Nat) (sa : Nat → Nat → Nat) : Hart × Flags :=
  let m := Mode.of h.mfmt
  ((List.range h.mcount).flatMap fun i => (List.range rc).flatMap fun r => (List.range m.cols).map fun n => (i, r, n)).foldl
    (fun t p =>
      let acc := Sparse.get Acc.zero t.1.macc (accKey p.1 p.2.1 p.2.2)
      let x := m.dot acc ((List.range k).map (a p.2.1))
        ((List.range k).map fun j => (Sparse.get 0 h.mb (bKey p.1 j p.2.2)).toNat)
        ((List.range (k / 32)).map (sa p.2.1)) ((List.range (k / 32)).map fun j => (Sparse.get 0 h.mscale (scaleKey p.1 j p.2.2)).toNat)
      ({ t.1 with macc := Sparse.set Acc.zero t.1.macc (accKey p.1 p.2.1 p.2.2) x.1 }, t.2 ||| x.2)) (h, 0)

/-- The accumulators that an MMUL gives poisoned data (R452): `bad` says which rows of A hold some. -/
def Hart.mmulBad (h : Hart) (rc k : Nat) (bad : Nat → Bool) : Hart :=
  if h.matBad = [] ∧ (List.range rc).all (fun r => !bad r) then h
  else
    let m := Mode.of h.mfmt
    let dirty (i n : Nat) : Bool := (List.range k).any (fun j => h.matBad.contains (3 * bKey i j n))
      || (List.range (k / 32)).any fun j => h.matBad.contains (3 * scaleKey i j n + 1)
    { h with matBad := ((List.range h.mcount).flatMap fun i => (List.range m.cols).map fun n => (i, n)).foldl (fun l p =>
        let d := dirty p.1 p.2
        ((List.range rc).filter fun r => d || bad r).foldl (fun q r => insertNat (3 * accKey p.1 r p.2 + 2) q) l) h.matBad }

/-- Grants free tokens to waiting quads in round-robin order, `fuel` of them (R226). -/
def TokenRing.grant (count : Nat) : Nat → TokenRing → TokenRing
  | 0, t => t
  | k + 1, t =>
    if t.holders.length < count then
      match ((List.range 32).map fun i => (t.last + 1 + i) % 32).find? t.waiting.contains with
      | none => t
      | some q => TokenRing.grant count k
          { t with holders := t.holders ++ [(q, 0)], last := q, waiting := t.waiting.filter (· != q) }
    else t

/-- A quad gives its token back (R227). -/
def TokenRing.give (t : TokenRing) (q : Nat) : TokenRing := { t with holders := t.holders.filter (·.1 != q) }

/-- While another quad waits, the quads that have started 64 MMULs since their grant give their tokens back (R227). -/
def TokenRing.shed (t : TokenRing) : TokenRing :=
  if t.waiting = [] then t else { t with holders := t.holders.filter fun x => decide (x.2 < 64) }

/-- TOKENS of a die. -/
def State.tokenCount (s : State) (d : Nat) : Nat := (vget s.hub.pwrTokens 24 d).toNat
/-- The default of a ring read out of range. -/
def ringDefault : TokenRing := { holders := [], last := 0, waiting := [] }
/-- The ring of a die. -/
def State.ring (s : State) (d : Nat) : TokenRing := vget s.tokens ringDefault d
/-- Replaces the ring of a die, after granting what is free. -/
def State.setRing (s : State) (d : Nat) (t : TokenRing) : State :=
  { s with tokens := vset s.tokens d (t.grant (s.tokenCount d) 32) }

/-- An MMUL asks for its quad's token: whether it may start, and the rings. -/
def State.askToken (s : State) : Bool × State :=
  let d := idDie s.hart.hartid
  let q := idQuad s.hart.hartid
  let t := s.ring d
  let s1 := if t.holders.any (·.1 == q) then s
    else s.setRing d (TokenRing.shed { t with waiting := insertNat q t.waiting })
  ((s1.ring d).holders.any (·.1 == q), s1)

/-- An MMUL has started and completed: after 64 since the grant, with another quad waiting, the token goes back. -/
def State.spendToken (s : State) : State :=
  let d := idDie s.hart.hartid
  let q := idQuad s.hart.hartid
  let t := s.ring d
  let t1 : TokenRing := { t with holders := t.holders.map fun x => if x.1 = q then (q, x.2 + 1) else x }
  s.setRing d t1.shed

/-- The checks of MMUL (R229). -/
def badMmul (h : Hart) (c : VCfg) (tile : Bool) : Bool :=
  let m := h.modeAfter
  h.matAfter.1 == 0 || c.vrow != 0 || c.velem != 0 || c.sew != m.sew
  || (m.code == 3 && c.alt != m.aalt) || (m.code == 4 && !c.alt) || (decide (5 ≤ m.code) && c.alt)
  || decide (256 < c.vl) || (m.mx && (c.vl % 32 != 0 || tile))

/-- Σ_n Σ_k q_a(k) q_b(k, n) of R238 for a macro: `q` holds q_a. -/
def Hart.arraySum (h : Hart) (i : Nat) (q : List Int) : Int :=
  (List.range (Mode.of h.mfmt).cols).foldl (fun acc n =>
    acc + dotInt q ((List.range ((q.length + 15) / 16)).flatMap fun blk => h.qColumn i blk n)) 0

/-- Σ_k q_a(k) cs(k) of R238. -/
def Hart.checkSum (h : Hart) (i : Nat) (q : List Int) : Int :=
  dotInt q ((List.range q.length).map fun k => ((Sparse.get 0 h.mcs (i * 256 + k)).toNat : Int))

/-- The (macro, row) pairs of an MMUL of `rc` rows of `k` elements whose sums disagree (R238): the array's sum may be off by
soft errors (DESIGN CHOICE, log 25). -/
def Hart.mismatches (h : Hart) (rc k : Nat) (a : Nat → Nat → Nat) (n : Nat) : List (Nat × Nat) :=
  let m := Mode.of h.mfmt
  (List.range h.mcount).flatMap fun i => ((List.range rc).filter fun r =>
    let q := m.fixedOf m.a m.au ((List.range k).map (a r))
    BitVec.ofInt 32 (h.arraySum i q) + Config.arrayError n (8 * i + r) != BitVec.ofInt 32 (h.checkSum i q)).map fun r => (i, r)

/-- The mismatch record and MATMISS after an MMUL whose pairs `l` mismatched (R238, R457). -/
def State.recordMismatches (s : State) (l : List (Nat × Nat)) : State :=
  let miss := BitVec.ofNat 32 (min (2 ^ 32 - 1) (s.hart.mmiss.toNat + l.length))
  let macros := l.foldl (fun m p => m ||| BitVec.ofNat 16 (2 ^ p.1)) s.hart.mmissMac
  ({ s with hart := { s.hart with mmiss := miss, mmissMac := macros }, freeCtr := s.freeCtr + 1 }).count s.hart.die 9 l.length

/-- MMUL's effect once its A tile is at hand: `bad` says which of its rows are poisoned, `pop` removes it. -/
def mmulWith (e : VEntry) (a sa : Nat → Nat → Nat) (bad : Nat → Bool) (pop : Hart → Hart) (s : State) : VRes :=
  let c := VCfg.of s.hart e
  if c.vl = 0 then ({ s with hart := pop s.hart }).vdone
  else
    let t := s.askToken
    if t.1 then
      let r := ((pop t.2.hart).mmulBad c.rc c.vl bad).mmul c.rc c.vl a sa
      let u := ({ t.2 with hart := r.1 }).recordMismatches (r.1.mismatches c.rc c.vl a s.freeCtr)
      (u.spendToken.orFlags r.2).vdone
    else .wait e t.2

/-- MMUL of a register tile (R235): the scales of an MX mode stand in the register above the group. -/
def execMmulVreg (a : Reg) (s : State) : Out :=
  runVector (matSpec (Enc.mmulVreg a) [] (fun l => (a.toNat, l) :: (if s.hart.modeAfter.mx then [(a.toNat + l, 1)] else []))
    (fun h c _ => illopIf (Enc.mmulVreg a) (badMmul h c false))
    (fun e s =>
      let h := s.hart
      let c := VCfg.of h e
      mmulWith e (fun r k => c.el h a r k) (fun r j => elemRd h.v c.g 1 (a.toNat + c.lmul) r j)
        (fun r => h.poison != [] && ((List.range c.vl).any (fun k => elemBad h.poison c.g c.b a.toNat r k)
          || ((Mode.of h.mfmt).mx && (List.range (c.vl / 32)).any fun j => elemBad h.poison c.g 1 (a.toNat + c.lmul) r j))) id s)) s

/-- MMUL's effect from a tile queue, its tile checked at issue (R162). -/
def runMmulTq (q : Nat) (e : VEntry) (s : State) : VRes :=
  match s.hart.tileHead q with
  | none => .wait e s
  | some t => mmulWith e (fun r k => t.elem r k) (fun _ _ => 0) (fun r => t.bad.any fun x => x / 65536 == r) (fun h => h.popTile q) s

/-- MMUL of a tile of tq0 or tq1 (R235); without a feeder there is no queue (R147). -/
def execMmulTq (q : BitVec 1) (s : State) : Out :=
  runVector { matSpec (Enc.mmulTq q) [] (fun _ => [])
      (fun h c _ => illopIf (Enc.mmulTq q) (badMmul h c true || !h.hasFeeder)) (runMmulTq q.toNat) with
    ready := fun s => s.hart.popReady q.toNat
    late := fun h c _ => geometry q.toNat h c } s

/-! ## Reading and clearing (R236-R238) -/

/-- The checks of MACCR (R229, R236). -/
def badMaccr (h : Hart) (c : VCfg) (w : Word) : Bool :=
  let m := h.modeAfter
  let count := h.matAfter.1
  let col := bitsAt w.toNat 14 8
  count == 0 || c.vrow != 0 || c.velem != 0 || c.sew == 0 || (m.code == 0 && c.sew != 2)
  || decide (2 ^ 17 ≤ w.toNat) || w.getLsbD 15 || bitsAt w.toNat 7 4 != 0 || decide (m.cols ≤ col)
  || decide (count ≤ selMac w) || decide (count * m.cols < selMac w * m.cols + col + c.vl)

/-- MACCR's effect. -/
def runMaccr (d : Reg) (mode : BitVec 3) (e : VEntry) (s : State) : VRes :=
  let h := s.hart
  let c := VCfg.of h e
  let m := Mode.of h.mfmt
  let w := e.ops.getD 0 0
  let key := fun r j =>
    let p := selMac w * m.cols + bitsAt w.toNat 14 8 + j
    accKey (p / m.cols) r (p % m.cols)
  let value := fun r j =>
    let a := Sparse.get Acc.zero h.macc (key r j)
    if m.code = 0 then (a.int.toNat, (0 : Flags)) else c.fmt.readout (rmOf mode.toNat h.main.rm) a.special a.mant a.exp
  let fl := c.positions.foldl (fun a p => a ||| (value p.1 p.2).2) (0 : Flags)
  let s1 := (s.orFlags fl).mapWrite c (fun _ _ => true) ⟨d.toNat, c.b, c.lmul⟩ [] [] none fun r j => (value r j).1
  let s2 := s1.poisonAt c d.toNat c.b (if h.matBad = [] then []
    else c.positions.filter fun p => h.matBad.contains (3 * key p.1 p.2 + 2))
  let acc := if w.getLsbD 16 then c.positions.foldl (fun a p => Sparse.del a (key p.1 p.2)) h.macc else h.macc
  let bad := if w.getLsbD 16 ∧ h.matBad ≠ [] then
      c.positions.foldl (fun l p => l.filter (· != 3 * key p.1 p.2 + 2)) h.matBad
    else h.matBad
  ({ s2 with hart := { s2.hart with macc := acc, matBad := bad } }).vdone

/-- MACCR (R236). -/
def execMaccr (d : Reg) (m : BitVec 3) (b : Reg) (s : State) : Out :=
  runVector { matSpec (Enc.maccr d m b) [b] (fun _ => [])
      (fun h c ops => illopIf (Enc.maccr d m b) (badMaccr h c (ops.getD 0 0))) (runMaccr d m) with
    dst := fun l => some (d.toNat, l), lastd := .v d } s

/-- MACCZ (R237). -/
def execMaccz (s : State) : Out :=
  runVector (matSpec Enc.maccz [] (fun _ => []) (fun h _ _ => illopIf Enc.maccz (h.matAfter.1 == 0))
    (fun _ s => ({ s with hart := { s.hart with macc := [], matBad := s.hart.matBad.filter (· % 3 != 2) } }).vdone)) s

/-- MCHK (R238): gives the mismatch record and clears it. -/
def execMchk (d : Reg) (s : State) : Out :=
  runVector { matSpec (Enc.mchk d) [] (fun _ => []) (fun _ _ _ => none)
      (fun _ s =>
        let r := BitVec.ofNat 64 (s.hart.mmiss.toNat * 2 ^ 32 + s.hart.mmissMac.toNat)
        (({ s with hart := { s.hart with mmiss := 0, mmissMac := 0 } }).putG d r).vdone) with
    lastd := .g d } s

/-! ## Quads that no longer wait, and the idle return (R226, R227) -/

/-- Whether the head of a hart's vector queue is an MMUL. -/
def Hart.mmulNext (h : Hart) : Bool :=
  match h.vq with
  | e :: _ => e.word.toNat % 128 == 0x49 && e.word.toNat / 2 ^ 26 == 5
  | [] => false

/-- The hart in focus leaves its core: its quad waits on only for MMULs of its other harts (R226). -/
def State.unwait (s : State) : State :=
  let d := idDie s.hart.hartid
  let q := idQuad s.hart.hartid
  if s.hart.isControl ∨ (s.ring d).waiting.contains q = false
    ∨ (s.others.any fun h => h.inSlot && idDie h.hartid == d && idQuad h.hartid == q && h.mmulNext) then s
  else
    let t := s.ring d
    { s with tokens := vset s.tokens d { t with waiting := t.waiting.filter (· != q) } }

/-- Whether an MMUL of a quad is pending: it waits for a token, or stands in a vector queue. -/
def State.mmulPending (s : State) (d q : Nat) : Bool :=
  (s.ring d).waiting.contains q
  || s.allHarts.any fun h => h.inSlot && idDie h.hartid == d && idQuad h.hartid == q
    && h.vq.any fun e => e.word.toNat % 128 == 0x49 && e.word.toNat / 2 ^ 26 == 5

/-- POWER_TOKEN_IDLE_RETURN (R227): a quad without a pending MMUL gives its token back. -/
def execPowerTokenIdleReturn (d q : Nat) (s : State) : Out :=
  if s.mmulPending d q then .next s else .next (s.setRing d ((s.ring d).give q))

end Sys2Proof.Machine
end

