-- ==== Sys2Proof/Machine/Save.lean ====
section
/-! DEFINITION. The context save area: writing it, and restoring a hart from it (spec/19 R430-R439). -/

namespace Sys2Proof.Machine

/-! ## Bytes -/

/-- Clears [lo, lo + n) of memory. -/
def Mem.clear (m : Mem) (lo n : Nat) : Mem := m.filter fun c => !inRange c.1 lo n

/-- Writes 8-byte words from an address up. -/
def Mem.words (m : Mem) (a : Nat) : List Nat → Mem
  | [] => m
  | w :: r => (m.writeLe a 8 w).words (a + 8) r

/-- Sets bits of memory, each by its byte and its place. -/
def Mem.setBits (m : Mem) (l : List (Nat × Nat)) : Mem :=
  l.foldl (fun m x => m.setByte x.1 (m.byte x.1 ||| (1#8 <<< x.2))) m

/-- Size of a save area (R435). -/
def areaSize : Nat := 0x90000

/-! ## Writing (R436-R438) -/

/-- The words of a stream block (R437). -/
def streamWords (h : Hart) (t : Stream) (feeder : Bool) : List Nat :=
  (List.range 32).map (fun i => (t.rd (BitVec.ofNat 5 i)).toNat)
    ++ [t.pc.toNat, t.pfxd.toNat * 2 ^ 32 + t.ta.toNat * 4 + t.pfxp.toNat * 2 + h.sv.toNat,
      t.flags.toNat * 256 + t.rm.toNat, t.win.toNat, t.lastV.toNat * 256 + t.lastG.toNat, t.tvec.toNat, t.tepc.toNat,
      t.tcause.toNat, t.tval.toNat, t.vtype.toNat, t.vl.toNat, t.rc.toNat, t.vstart.toNat,
      if feeder then 0 else h.pivcnt.toNat, t.dfseq.toNat, t.pend.toNat]

/-- The words of a vector-queue entry (R438); only the oldest can be STOPPED. -/
def entryWords (e : VEntry) (stopped : Bool) : List Nat :=
  [e.pc.toNat, e.word.toNat + (match e.pfx with | some p => p.toNat + 2 ^ 31 | none => 0) * 2 ^ 32,
    (e.ops.getD 0 0).toNat, (e.ops.getD 1 0).toNat, (e.ops.getD 2 0).toNat,
    e.vtype.toNat + e.rc.toNat * 256 + e.vl.toNat * 65536, e.vstart.toNat, stopped.toNat]

/-- A VAPPEND whose entries are written and whose notices wait: it runs to completion (R430; DEDUCED, log 22). -/
def VEntry.appended (e : VEntry) : Bool := e.word.toNat % 128 == 0x3B && e.word.toNat / 2 ^ 26 == 14 && e.begun.isSome

/-- The entries that a save keeps. -/
def Hart.savedVq (h : Hart) : List VEntry := h.vq.filter fun e => !e.appended

/-- Tile slots 0-5: tq0, tq1, tq2, oldest first (R436). -/
def Hart.tileSlots (h : Hart) : List (Option Tile) :=
  (List.range 6).map fun n => (vget h.tq [] (n / 2))[n % 2]?

/-- TSLOT of a slot. -/
def tileState (t : Option Tile) : Nat := match t with | none => 0 | some t => if t.full then 1 else 2
/-- TGEOM of a slot. -/
def tileGeom (t : Option Tile) : Nat := match t with | none => 0 | some t => t.sew.toNat + t.rc * 16 + t.vl * 65536

/-- A list of numbers below 256 as bytes of one word. -/
def packBytes : List Nat → Nat
  | [] => 0
  | x :: r => x + 256 * packBytes r

/-- The hart's CYCLE (R434): while it is saved, the value at its save. -/
def State.hartCycle (s : State) (h : Hart) : Word :=
  if h.isSaved then h.cycOff else Sparse.get 0 s.cycles h.coreKey + h.cycOff

/-- The header words of an area: their offsets and values (R436). -/
def headerWords (s : State) (h : Hart) : List (Nat × List Nat) :=
  [(0, [h.reason.toNat, h.tag.toNat + h.hartid.toNat * 2 ^ 32,
      h.share + h.main.grant * 16 + h.lv * 256 + h.hasFeeder.toNat * 4096 + (if h.hasFeeder then h.feed.grant else 0) * 65536,
      h.mfmt.toNat * 256 + h.mcount, h.spawned.toNat * 2 ^ 32 + h.childDone.toNat, idQuad h.hartid]
      ++ h.arrive.toList
      ++ [(match h.barpend with | some t => t.toNat + 8 | none => 0), h.savedVq.length,
        packBytes (h.q.toList.map List.length), packBytes (h.tileSlots.map tileState)]
      ++ h.tileSlots.map tileGeom ++ [(s.hartCycle h).toNat]),
    (0x100, streamWords h h.main false)]
  ++ (if h.hasFeeder then [(0x300, streamWords h h.feed true)] else [])
  ++ (h.q.toList.mapIdx fun n l => (0x600 + 0x100 * n, l.map (·.toNat)))
  ++ (h.savedVq.mapIdx fun n e => (0xC00 + 64 * n, entryWords e (n == 0 && e.stopped)))

/-- Where the regions of registers start, in units of the share (R436). -/
def vregAt (share row o : Nat) : Nat := 0x2000 + row * 192 * share + o
/-- Byte and bit of bit `e` of a mask row. -/
def maskAt (share row e : Nat) : Nat × Nat := (0x2000 + 49152 * share + row * 192 * share + e / 8, e % 8)
/-- See `maskAt`, for the feeder's m0. -/
def fm0At (share row e : Nat) : Nat × Nat := (0x2000 + 61440 * share + row * 192 * share + e / 8, e % 8)
/-- Where a tile slot lies. -/
def tileAt (share n : Nat) : Nat := 0x2000 + 62976 * share + 1536 * share * n

/-- Writes the save area of a hart. -/
def State.writeArea (s : State) (h : Hart) : State :=
  let a := s.areaAt h
  let p := h.share
  let m0 := s.mem.clear a areaSize
  let m1 := (headerWords s h).foldl (fun m x => m.words (a + x.1) x.2) m0
  let m2 := h.v.foldl (fun m x => m.setByte (a + vregAt p (x.1 / 2048) (x.1 % 2048)) x.2) m1
  let at_ := fun (x : Nat × Nat) => (a + x.1, x.2)
  let m3 := m2.setBits (h.m.map fun x => at_ (maskAt p (x.1 / 16384) (x.1 % 16384)))
  let m4 := m3.setBits (h.fm0.map fun x => at_ (fm0At p (x.1 / 16384 % 8) (x.1 % 16384)))
  let m5 := (h.tileSlots.mapIdx fun n t => (n, t)).foldl (fun m x => match x.2 with
    | none => m
    | some t => m.setBytes (a + tileAt p x.1) t.bytes) m4
  let bad := (h.poison.map fun k =>
      if k < 49152 then a + vregAt p (k / 192) (8 * (k % 192)) else a + (maskAt p ((k - 49152) / 256) 0).1 + 8 * ((k - 49152) % 256))
    ++ (h.tileSlots.mapIdx fun n t => (n, t)).flatMap fun x => match x.2 with
      | none => []
      | some t => t.bad.map fun k => (a + tileAt p x.1 + (k / 65536 * t.vl + k % 65536) * 2 ^ t.sew.toNat) / 8 * 8
  { s with mem := m5
           memPoison := bad.foldl (fun l w => insertNat w l) (s.memPoison.filter fun w => !inRange w a areaSize) }

/-! ## Lane groups (R158, R448, R454) -/

/-- A lane group without a history. -/
def LaneGroup.fresh (die core group : Nat) : LaneGroup where
  die := die
  core := core
  group := group
  count := 0
  mismatches := []
  checkStopped := false
  spared := false
  retired := false

/-- The lane group of a core. -/
def State.lane (s : State) (die core group : Nat) : LaneGroup :=
  (s.lanes.find? fun l => l.die == die && l.core == core && l.group == group).getD (LaneGroup.fresh die core group)

/-- Replaces a lane group. -/
def State.setLane (s : State) (l : LaneGroup) : State :=
  { s with lanes := s.lanes.filter (fun x => !(x.die == l.die && x.core == l.core && x.group == l.group)) ++ [l] }

/-- Live lane groups of core `c` of die `d`: 8, less those retired (R456). -/
def State.liveGroups (s : State) (d c : Nat) : Nat :=
  8 - (s.lanes.filter fun l => l.die == d && l.core == c && l.retired).length

/-- The first `n` live groups of a core that no hart holds: which ones a hart receives has no visible effect (R158). -/
def State.freeLanes (s : State) (d c n : Nat) : List Nat :=
  ((List.range 8).filter fun g => !(s.lane d c g).retired
    && !s.allHarts.any fun h => h.inSlot && h.die == d && idCore h.hartid == c && h.lanes.contains g).take n

/-- A hart gives up its lane groups, which keep their count of instructions (R448). -/
def State.freeGroups (s : State) (tag : BitVec 32) : State :=
  match s.findHart tag with
  | none => s
  | some h =>
    let c := idCore h.hartid
    let t := if h.vcount = 0 then s else h.lanes.foldl (fun t g =>
      t.setLane { (t.lane h.die c g) with count := (t.lane h.die c g).count + h.vcount }) s
    t.onHart tag fun h => { h with lanes := [], vcount := 0 }

/-! ## HART_SAVE -/

/-- A hart leaves its core: its scalar stores are performed, and its quad no longer waits for a power token on its account. -/
def State.leaveCore (s : State) (tag : BitVec 32) : State := s.asHart tag fun s => s.settle.unwait

/-- A stream of a hart that is saved: no signature is open, and its waits start afresh (R430, R453). -/
def Stream.stopped (t : Stream) : Stream := { t with sig := none, tlw := .none }

/-- The hart of an area that has been written: its waits start afresh, and a VAPPEND that has only notices left keeps them
(R216, R430). -/
def Hart.afterSave (h : Hart) (ready : Bool) (cycle : Word) : Hart :=
  { h with run := .saved ready, reason := 0, events := [], cycOff := cycle
           vq := h.savedVq.map fun e => { e with begun := none, latched := [], bad := [] }
           owed := h.vq.find? (·.appended)
           main := h.main.stopped, feed := h.feed.stopped
           inWaitch := false, inWaitchFeed := false, remoteBad := [], remoteData := [], device := [], aperture := [] }

/-- Where the vector instruction of a hart that stopped partway goes on: its queue holds it at its head (R438, R441). -/
def Hart.stopPoint (h : Hart) : Word :=
  match h.savedVq with
  | e :: _ => if e.stopped then e.vstart.setWidth 64 else 0
  | [] => 0

/-- A record of a stream tells where a vector instruction of its hart stopped partway (R441). -/
def FaultRec.withStop (r : FaultRec) (p : Word) : FaultRec := if r.src ≤ 1 ∧ r.aux = 0 then { r with aux := p } else r

/-- HART_SAVE (R432, R436): the streams of the hart have stopped, and its accesses that run to completion have (R430); its
area is written, its slot and lane groups are free, and its events enter the fault record queue. -/
def execHartSave (tag : BitVec 32) (s : State) : Out :=
  match s.findHart tag with
  | none => .next s
  | some h =>
    if h.run ≠ .stopping ∨ h.remote ≠ [] ∨ h.aperture ≠ [] then .next s
    else
      let area := BitVec.ofNat 64 (s.areaAt h)
      let ready := h.reason == 0b10000
      let s0 := s.leaveCore tag
      let h := (s0.findHart tag).getD h
      let s1 := ((s0.writeArea h).freeGroups tag).onHart tag fun h => h.afterSave ready (s.hartCycle h)
      let s2 := h.events.foldl (fun t ev => t.putEvent h.die false (ev.map fun r => { (r.withStop h.stopPoint) with save := area })) s1
      let d := vget s2.dispatchers dispatcherDefault h.die
      let s3 := if ready then { s2 with dispatchers := vset s2.dispatchers h.die { d with ready := d.ready ++ [tag] } } else s2
      .next (s3.count h.die 10 1)

/-! ## Restoring (R434, R439) -/

/-- A stream block read back into a stream. -/
def readStream (m : Mem) (a : Nat) (grant : Nat) (t : Stream) : Stream :=
  let w := fun i => m.readLe (a + 8 * i) 8
  let st := w 33
  let rm := w 34 % 8
  { t with
    g := Vector.ofFn fun (i : Fin 32) => if i.val = 0 then 0 else BitVec.ofNat 64 (w i.val)
    pc := BitVec.ofNat 64 (w 32 / 2 * 2)
    ta := bitAt st 2
    pfxp := bitAt st 1
    pfxd := BitVec.ofNat 25 (st / 2 ^ 32)
    flags := BitVec.ofNat 7 (w 34 / 256)
    rm := if 1 ≤ rm ∧ rm ≤ 5 then BitVec.ofNat 3 rm else t.rm
    win := BitVec.ofNat 8 (w 35)
    lastG := BitVec.ofNat 5 (w 36)
    lastV := BitVec.ofNat 5 (w 36 / 256)
    tvec := BitVec.ofNat 64 (w 37 / 2 * 2)
    tepc := BitVec.ofNat 64 (w 38 / 2 * 2)
    tcause := BitVec.ofNat 8 (w 39)
    tval := BitVec.ofNat 64 (w 40)
    vtype := BitVec.ofNat 8 (w 41)
    vl := BitVec.ofNat 16 (w 42)
    rc := BitVec.ofNat 4 (w 43)
    vstart := BitVec.ofNat 19 (w 44)
    dfseq := BitVec.ofNat 32 (w 46)
    pend := BitVec.ofNat 32 (w 47)
    grant := grant
    sig := none }

/-- A vector-queue entry read back, under the WIN of the main stream and the hart's SV. -/
def readEntry (m : Mem) (a : Nat) (win : BitVec 8) (sv : Bool) : VEntry where
  pc := BitVec.ofNat 64 (m.readLe a 8)
  word := BitVec.ofNat 32 (m.readLe (a + 8) 4)
  pfx := if bitAt (m.readLe (a + 12) 4) 31 then some (BitVec.ofNat 25 (m.readLe (a + 12) 4)) else none
  ops := (List.range 3).map fun i => BitVec.ofNat 64 (m.readLe (a + 16 + 8 * i) 8)
  win := win
  sv := sv
  vtype := BitVec.ofNat 8 (m.readLe (a + 40) 1)
  rc := BitVec.ofNat 4 (m.readLe (a + 41) 1)
  vl := BitVec.ofNat 16 (m.readLe (a + 42) 2)
  vstart := BitVec.ofNat 19 (m.readLe (a + 48) 8)
  stopped := bitAt (m.readLe (a + 56) 8) 0
  begun := none
  latched := []
  bad := []
  again := true
  fence := 0

/-- A 32-bit word that breaks the bank rule (R65): the pairs the rule lists, by major and func6. -/
def bankBad (w : Nat) : Bool :=
  let major := w / 2 % 64
  let func6 := w / 2 ^ 26
  let vd := w / 2 ^ 7
  let vs1 := w / 2 ^ 12
  let vs2 := w / 2 ^ 17
  let two := (major == 0x19 && func6 != 25 && func6 != 26) || (major == 0x1A && func6 != 4 && func6 != 11 && func6 != 12)
    || (major == 0x1B && decide (func6 < 12)) || major == 0x1C || (major == 0x1D && func6 == 4)
    || (major == 0x1E && func6 != 8)
  (two && !bitAt w 25 && vs1 % 2 == vs2 % 2)
  || (((major == 0x21 && (func6 == 3 || func6 == 4)) || (major == 0x28 && func6 == 1)) && vd % 2 == vs2 % 2)

/-- VTYPE, RC and VL that keep R153 and R154 under a grant; ALT stands with SEW 8 or 16 only (R52). -/
def shapeOk (vt rc vl grant ceiling : Nat) : Bool :=
  decide (vt < 256) && !bitAt vt 2 && (!bitAt vt 3 || decide (vt / 16 % 4 ≤ 1)) && decide (1 ≤ rc) && decide (rc ≤ 8)
  && decide (vl ≤ vlmaxOf (BitVec.ofNat 8 vt) grant ceiling)

/-- The shape of a stream block. -/
def blockOk (m : Mem) (a grant ceiling : Nat) : Bool :=
  shapeOk (m.readLe (a + 0x148) 8) (m.readLe (a + 0x158) 8) (m.readLe (a + 0x150) 8) grant ceiling

/-- Whether a saved entry is one that the main stream could have issued: its word and its prefix pass the decode checks of
R71, and its configuration keeps R153 and R154. -/
def entryOk (mx : Bool) (grant ceiling : Nat) (e : VEntry) : Bool :=
  let w := e.word.toNat
  let scales := if w / 2 % 64 = 0x24 ∧ w / 2 ^ 26 = 5 ∧ w / 128 % 32 = 0 ∧ mx then
    [(w / 4096 % 32 + vtypeLmul e.vtype, 1)] else []
  entersQueue w && !bankBad w && (match decQueued w with | some i => i.wf | none => false)
  && (match e.pfx with | some p => (decPfx (29 + 128 * p.toNat)).any (·.wf) | none => true)
  && !e.broken scales && shapeOk e.vtype.toNat e.rc.toNat e.vl.toNat grant ceiling

/-- The entries of an area. -/
def areaEntries (m : Mem) (a : Nat) : List VEntry :=
  (List.range (min 16 (m.readLe (a + 0x58) 8))).map fun n =>
    readEntry m (a + 0xC00 + 64 * n) (BitVec.ofNat 8 (m.readLe (a + 0x218) 8)) (bitAt (m.readLe (a + 0x208) 8) 0)

/-- Whether the save area of a hart keeps the conditions of R439. -/
def areaOk (m : Mem) (a : Nat) (h : Hart) : Bool :=
  let geom := m.readLe (a + 0x10) 8
  let share := geom % 16
  let g := geom / 16 % 16
  let fg := geom / 65536 % 16
  let l := areaEntries m a
  (share == 1 || share == 2 || share == 4 || share == 8) && decide (g ≤ share) && decide (fg ≤ share)
  && blockOk m (a + 0x100) g h.vlcap && (!bitAt geom 12 || blockOk m (a + 0x300) fg h.vlcap)
  && decide (m.readLe (a + 0x58) 8 ≤ 16) && (List.range 6).all (fun n => decide (m.readLe (a + 0x60 + n) 1 ≤ 32))
  && (l.drop 1).all (fun e => !e.stopped)
  && (List.range l.length).all fun n => (l[n]?).all (entryOk ({ h with vq := l.take n }).modeAfter.mx g h.vlcap)

/-- A tile slot read back. -/
def readTile (m : Mem) (poison : List Nat) (a share n : Nat) : List Tile :=
  let g := m.readLe (a + 0x70 + 8 * n) 8
  let st := m.readLe (a + 0x68 + n) 1
  let vl := g / 65536 % 65536
  let rc := g / 16 % 16
  if st = 0 then []
  else [⟨BitVec.ofNat 2 g, vl, rc, st == 1, m.bytes (a + tileAt share n) (rc * vl * 2 ^ (g % 4)),
    if poison = [] then []
    else ((List.range rc).flatMap fun r => (List.range vl).map fun e => (r, e)).filterMap fun x =>
      if poison.contains ((a + tileAt share n + (x.1 * vl + x.2) * 2 ^ (g % 4)) / 8 * 8) then some (x.1 * 65536 + x.2) else none⟩]

/-- The listed bytes of a region of memory, by offset from its start. -/
def Mem.region (m : Mem) (a n : Nat) : List (Nat × Byte) := (m.filter fun c => inRange c.1 a n).map fun c => (c.1 - a, c.2)

/-- The bits set in a region of rows of `192 * share` bytes. -/
def Mem.rowBits (m : Mem) (a share rows : Nat) : Sparse Bool :=
  (m.region a (rows * 192 * share)).flatMap fun x => ((List.range 8).filter fun i => x.2.getLsbD i).map fun i =>
    (x.1 / (192 * share) * 16384 + x.1 % (192 * share) * 8 + i, true)

/-- The hart that an area describes, at a place (R434, R439). -/
def Hart.restored (h : Hart) (s : State) (hartid : BitVec 11) (lv : Nat) : Hart :=
  let m := s.mem
  let a := s.areaAt h
  let r := fun o => m.readLe (a + o) 8
  let geom := r 0x10
  let share := geom % 16
  let g := geom / 16 % 16
  let bar := r 0x50
  { h with
    run := .running
    hartid := hartid
    sv := bitAt (r 0x208) 0
    hasFeeder := bitAt geom 12
    main := readStream m (a + 0x100) g h.main
    feed := if bitAt geom 12 then { readStream m (a + 0x300) (geom / 65536 % 16) h.feed with lastV := 0 } else h.feed
    v := (m.region (a + 0x2000) (49152 * share)).map fun x => (x.1 / (192 * share) * 2048 + x.1 % (192 * share), x.2)
    m := m.rowBits (a + 0x2000 + 49152 * share) share 64
    fm0 := m.rowBits (a + 0x2000 + 61440 * share) share 8
    pivcnt := BitVec.ofNat 64 (r 0x268)
    share := share
    lv := lv
    q := Vector.ofFn fun (n : Fin 6) => (List.range (m.readLe (a + 0x60 + n.val) 1)).map fun i =>
      BitVec.ofNat 64 (r (0x600 + 0x100 * n.val + 8 * i))
    tq := Vector.ofFn fun (n : Fin 3) => readTile m s.memPoison a share (2 * n.val) ++ readTile m s.memPoison a share (2 * n.val + 1)
    arrive := Vector.ofFn fun (n : Fin 4) => r (0x30 + 8 * n.val)
    barpend := if bitAt bar 3 then some (BitVec.ofNat 64 (bar / 2 ^ 32 * 2 ^ 32 + bar % 8)) else none
    vq := h.owed.toList ++ (areaEntries m a).mapIdx fun n e => { e with fence := (h.vq[n]?.map (·.fence)).getD 0 }
    owed := none
    lanes := s.freeLanes (idDie hartid) (idCore hartid) lv
    vcount := 0
    cycOff := BitVec.ofNat 64 (r 0xA0) - Sparse.get 0 s.cycles (hartid.toNat / 4)
    poison := (s.memPoison.filter fun w => inRange w (a + 0x2000) (61440 * share)).foldl (fun l w =>
      let o := w - (a + 0x2000)
      insertNat (if o < 49152 * share then o / (192 * share) * 192 + o % (192 * share) / 8
        else 49152 + (o - 49152 * share) / (192 * share) * 256 + o % (192 * share) / 8) l) [] }

end Sys2Proof.Machine
end

