-- ==== Sys2Proof/Machine/Work.lean ====
section
/-! DEFINITION. Start records, the dispatchers, completion and retirement, SPAWN and WAITCH, the barriers
(spec/09 R241-R264, spec/03 R108, spec/19 R433-R434). -/

namespace Sys2Proof.Machine

/-! ## Start records (R241, R242) -/

/-- ENTRY. -/
def recEntry (r : List Byte) : Nat := fieldAt r 0 8
/-- FEEDER. -/
def recFeeder (r : List Byte) : Nat := fieldAt r 8 8
/-- ARG. -/
def recArg (r : List Byte) : Nat := fieldAt r 16 8
/-- DONE. -/
def recDone (r : List Byte) : Nat := fieldAt r 24 8
/-- WAITVAL. -/
def recWaitVal (r : List Byte) : Nat := fieldAt r 32 8
/-- WAITCTX. -/
def recWaitCtx (r : List Byte) : Nat := fieldAt r 40 2
/-- WIN. -/
def recWinOf (r : List Byte) : Nat := fieldAt r 42 1
/-- SHARE as lane groups. -/
def recShare (r : List Byte) : Nat := 2 ^ (fieldAt r 43 1 % 4)
/-- VLCAP. -/
def recVlcap (r : List Byte) : Nat := fieldAt r 44 2
/-- BGROUP. -/
def recGroup (r : List Byte) : Nat := fieldAt r 46 2
/-- PLACEQ. -/
def recPlaceq (r : List Byte) : Nat := fieldAt r 48 4
/-- PLACED. -/
def recPlaced (r : List Byte) : Nat := fieldAt r 52 1
/-- BGCOUNT. -/
def recCount (r : List Byte) : Nat := fieldAt r 54 2

/-- A malformed record (R242). -/
def malformedRecord (r : List Byte) : Bool :=
  recEntry r == 0 || bitAt (recEntry r) 0 || bitAt (recFeeder r) 0 || recDone r % 32 != 0
  || bitAt (fieldAt r 43 1) 7 || fieldAt r 43 1 / 4 % 4 != 0 || 16 ≤ recPlaced r || fieldAt r 53 1 != 0 || fieldAt r 56 8 != 0
  || ((recGroup r == 0) != (recCount r == 0)) || decide (2048 < recCount r)

/-! ## Completion records (R255) -/

/-- The dispatcher of a die as an agent: SV = 0, the record's WIN. -/
def dispatchAgent (die : Nat) (win : BitVec 8) (engine : Bool) : Agent where
  die := die
  id := none
  ctl := none
  sv := false
  win := win
  engine := engine
  tag := none
  feeder := false
  op := none

/-- What a completion record says. -/
structure Completion where
  die : Nat
  win : BitVec 8
  done : Nat
  arg : Word
  status : Nat
  /-- HARTID, or 0xFFFF -/
  hartid : BitVec 16
  tag : BitVec 32
  discard : Nat
  result : Word
  cycles : Word

/-- The 32 bytes. -/
def Completion.bytes (c : Completion) : List Byte :=
  toLe 8 c.arg.toNat ++ toLe 2 c.status ++ toLe 2 c.hartid.toNat ++ toLe 2 (min c.discard 65535) ++ [0, 0]
    ++ toLe 8 c.result.toNat ++ toLe 8 c.cycles.toNat

/-- Writes a completion record, unless DONE is 0; one in an aperture is one RDMA write (R529); a fault is an informational
record of SRC 4 (R255, R442). -/
def State.complete (s : State) (c : Completion) : State :=
  if c.done = 0 ∨ c.done % 32 ≠ 0 then s
  else
    match s.translate (dispatchAgent c.die c.win false) (.plain 1 32) (BitVec.ofNat 64 c.done) with
    | .ok x s1 => s1.perform (dispatchAgent c.die c.win true) x c.bytes false
    | .mem f s1 => s1.putEvent c.die true
        [{ cause := f.cause, kind := f.kind, acc := BitVec.ofNat 8 f.acc, level := if f.xlate then f.level else 0xFF
           src := 4, flags := 0, npos := 1, handle := c.tag.setWidth 64, va := f.va, vawin := f.win, hartid := c.hartid
           index := 0, npage := 1, pc := 0, word := 0, ctxid := 0, aux := 0, save := 0 }]
    | .trap _ _ s1 | .wait s1 => s1

/-- Whether a completion record has to wait for a link (R472). -/
def State.doneWaits (s : State) (die : Nat) (win : BitVec 8) (done : Nat) : Bool :=
  decide (done ≠ 0 ∧ done % 32 = 0) && (match s.translate (dispatchAgent die win false) (.plain 1 32) (BitVec.ofNat 64 done) with
    | .wait _ => true
    | .ok _ _ | .trap _ _ _ | .mem _ _ => false)

/-- Whether that of a start record has to. -/
def State.recWaits (s : State) (die : Nat) (r : List Byte) : Bool := s.doneWaits die (BitVec.ofNat 8 (recWinOf r)) (recDone r)

/-- Whether that of a hart has to. -/
def State.hartWaits (s : State) (h : Hart) : Bool := s.doneWaits h.die h.recWin h.doneAddr.toNat

/-- A record completes unstarted (R252), with CYCLES 0 (DESIGN CHOICE, log 41). -/
def State.unstarted (s : State) (die : Nat) (r : List Byte) (status : Nat) : State :=
  s.complete ⟨die, BitVec.ofNat 8 (recWinOf r), recDone r, BitVec.ofNat 64 (recArg r), status, 0xFFFF, 0, 0, 0, 0⟩

/-- The parent's CHDONE.DONE rises by 1, when it has not retired (R256). -/
def State.childEnded (s : State) (p : Option (BitVec 32)) : State :=
  match p with
  | none => s
  | some p => s.onHart p fun h => { h with childDone := h.childDone + 1 }

/-- A parent that is no longer there. -/
def parentLeft (tag : BitVec 32) (p : Option (BitVec 32)) : Option (BitVec 32) := if p = some tag then none else p

/-- The children of a hart that retires run on without a parent, those in the pools too (R256). -/
def State.leaveChildren (s : State) (tag : BitVec 32) : State :=
  let leave := fun (h : Hart) => { h with parent := parentLeft tag h.parent }
  let waits := fun (p : PoolRec) => { p with parent := parentLeft tag p.parent }
  { s with hart := leave s.hart, others := s.others.map leave
           dispatchers := s.dispatchers.map fun d => { d with pool := d.pool.map waits, spoil := d.spoil.map waits } }

/-! ## Retirement (R256) -/

/-- Removes a hart. -/
def State.dropHart (s : State) (tag : BitVec 32) : State :=
  if s.occupied ∧ s.hart.isControl = false ∧ s.hart.tag = tag then
    { s with hart := Hart.reset, occupied := false, onFeeder := false, atHead := false, quantum := 0 }
  else { s with others := s.others.filter fun h => h.isControl || h.tag != tag }

/-- Whether an operation belongs to a hart's copy contexts. -/
def Op.copyOf (o : Op) (tag : BitVec 32) : Bool := match o.ctx with | .copy t _ => t == tag | _ => false

/-- Whether an operation is a stream into a hart's tile queues. -/
def Op.streamOf (o : Op) (tag : BitVec 32) : Bool :=
  o.issuer == tag && o.ctl.isNone && (match o.kind with | .tiles _ _ => true | _ => false)

/-- Abandons the operations that a predicate picks. -/
def State.abandonWhere (s : State) (p : Op → Bool) : State := (s.ops.filter p).foldl (fun t o => t.abandonOp o) s

/-- The groups after a member retires; a group whose members have all retired is forgotten. -/
def retireMember (tag : BitVec 32) (gs : List Group) : List Group :=
  (gs.map fun g => { g with members := g.members.map fun m => if m.tag = tag then { m with retired := true } else m }).filter
    fun g => g.members.any fun m => !m.retired

/-- A hart retires with a status, in the order of R256. The dispatcher of its own die writes the record, and DISCARD of a hart
killed while saved counts the queues that were saved, whatever its area holds now, and no slot that a feeder load has reserved
(DESIGN CHOICE, log 41). -/
def State.retire (s0 : State) (tag : BitVec 32) (status : Nat) : State :=
  let left := s0.leaveCore tag
  match left.findHart tag with
  | none => s0
  | some h =>
    let s := left.freeGroups tag
    let discard := sumNat (h.q.toList.map List.length) + sumNat (h.tq.toList.map fun l => (l.filter (·.full)).length)
    let result := if h.isSaved then BitVec.ofNat 64 (s.mem.readLe (s.areaAt h + 0x108) 8) else h.main.rd 1
    let c : Completion :=
      ⟨h.die, h.recWin, h.doneAddr.toNat, h.arg, status, h.hartid.setWidth 16, tag, discard, result, s.hartCycle h - h.cycStart⟩
    let s1 := ((s.abandonWhere (·.streamOf tag)).dropHart tag).complete c
    let s2 := (s1.childEnded h.parent).leaveChildren tag
    { s2 with groups := retireMember tag s2.groups
              dispatchers := s2.dispatchers.map fun d => { d with ready := d.ready.filter (· != tag) } }

/-- EXIT (R101, R108). -/
def execExit (s : State) : Out :=
  runScalar ⟨Enc.exit, 4, .never, true, false, []⟩
    (fun s =>
      if s.onFeeder then
        let s1 := s.finish Enc.exit 4
        .ok () { s1 with hart := { s1.hart with feederLive := false }, quantum := 0 }
      else if s.hart.vq ≠ [] ∨ s.ops.any (·.copyOf s.hart.tag) ∨ s.hartWaits s.hart then .wait s
      else .ok () (s.retire s.hart.tag 1)) s

/-- HART_RETIRE (R256, R447): a killed hart retires once each of its operations has ended, and what it has under way that runs to
completion (R430), and once its completion record can be written (R472). -/
def execHartRetire (tag : BitVec 32) (s : State) : Out :=
  match s.findHart tag with
  | none => .next s
  | some h => match h.run with
    | .killed _ => if s.ops.any (·.copyOf tag) ∨ h.remote ≠ [] ∨ h.aperture ≠ [] ∨ s.hartWaits h then .next s else .next (s.retire tag 2)
    | _ => .next s

/-! ## Placement (R250, R434, R435, R456, R479) -/

/-- A member of a gang placed for the time being: die, core, slot, share. -/
structure Placed where
  die : Nat
  core : Nat
  slot : Nat
  share : Nat
  deriving DecidableEq, Repr

/-- The harts that occupy slots of a core, as placements. -/
def State.occupants (s : State) : List Placed :=
  (s.allHarts.filter (·.inSlot)).map fun h => ⟨idDie h.hartid, idCore h.hartid, h.hartid.toNat % 4, h.lv⟩

/-- The free slot of a core that can hold a share beside `used`, if there is one. -/
def State.slotFor (s : State) (used : List Placed) (d c share : Nat) : Option Nat :=
  let here := used.filter fun p => p.die == d && p.core == c
  if sumNat (here.map (·.share)) + share ≤ s.liveGroups d c then
    (List.range 4).find? fun i => !here.any (·.slot == i)
  else none

/-- Save areas of a die that no hart holds, beyond `taken` more (R435). -/
def State.freeArea (s : State) (d taken : Nat) : Option Nat :=
  ((List.range (vget s.hub.savcnt 0 d).toNat).filter fun i => !s.allHarts.any fun h => !h.isControl && h.die == d && h.area == i)[taken]?

/-- Cores that PLACED and PLACEQ permit, in the partition of die `home` (R479): those of `prefer` first. -/
def State.permitted (s : State) (home placed placeq : Nat) (prefer : List Nat) : List (Nat × Nat) :=
  let ok := fun (p : Nat × Nat) => decide (p.1 < 4) && decide (p.2 < 128) && s.samePart home p.1
    && (placed == 0 || bitAt placed p.1) && (placeq == 0 || bitAt placeq (p.2 / 4))
  let all := (List.range 4).flatMap fun d => (List.range 128).map fun c => (d, c)
  (prefer.map fun k => (k / 128, k % 128)).filter ok ++ all.filter ok

/-- Places records together by distinct slots (R250, R253), beside `used`; `areas` also asks for save areas. -/
def State.placeAll (s : State) (home : Nat) (prefer : List Nat) (areas : Bool) :
    List (List Byte) → List Placed → List Placed → Option (List Placed)
  | [], _, _ => some []
  | r :: rest, used, mine =>
    (s.permitted home (recPlaced r) (recPlaceq r) prefer).findSome? fun p =>
      match s.slotFor used p.1 p.2 (recShare r) with
      | none => none
      | some i =>
        if areas && (s.freeArea p.1 (mine.filter (·.die == p.1)).length).isNone then none
        else
          let x : Placed := ⟨p.1, p.2, i, recShare r⟩
          (s.placeAll home prefer areas rest (x :: used) (mine ++ [x])).map (x :: ·)

/-! ## Starting (R244, R253, R433) -/

/-- The next tag of a dispatcher, past those that harts hold. -/
def State.freeTag (s : State) (d : Nat) : Nat → Nat → Nat
  | 0, c => c
  | k + 1, c => if (s.findHart (BitVec.ofNat 32 (d * 2 ^ 30 + c % 2 ^ 30))).isSome then s.freeTag d k (c + 1) else c

/-- A stream as a record starts it (R30, R244). -/
def startStream (pc : Nat) (r : List Byte) (member g : Nat) : Stream :=
  let t := { Stream.reset with pc := BitVec.ofNat 64 pc, win := BitVec.ofNat 8 (recWinOf r), grant := g }
  (t.wr 1 (BitVec.ofNat 64 (recArg r))).wr 2 (BitVec.ofNat 64 member)

/-- Starts a record at a place. -/
def State.startOne (s : State) (home : Nat) (r : List Byte) (p : Placed) (member group : Nat) (parent : Option (BitVec 32)) : State :=
  let d := vget s.dispatchers dispatcherDefault home
  let n := s.freeTag home (s.allHarts.length + 1) d.started
  let id := BitVec.ofNat 11 (p.die * 512 + p.core * 4 + p.slot)
  let g := min p.share (s.cap p.die)
  let h : Hart :=
    { Hart.reset with
      tag := BitVec.ofNat 32 (home * 2 ^ 30 + n % 2 ^ 30)
      hartid := id
      startid := id
      run := .running
      hasFeeder := recFeeder r != 0
      feederLive := recFeeder r != 0
      main := startStream (recEntry r) r member g
      feed := startStream (recFeeder r) r member g
      share := p.share
      lv := p.share
      vlcap := recVlcap r
      arg := BitVec.ofNat 64 (recArg r)
      doneAddr := BitVec.ofNat 64 (recDone r)
      recWin := BitVec.ofNat 8 (recWinOf r)
      placeq := BitVec.ofNat 32 (recPlaceq r)
      placed := BitVec.ofNat 8 (recPlaced r)
      prio := recPrio r
      group := group
      member := member
      parent := parent
      area := (s.freeArea p.die 0).getD 0
      lanes := s.freeLanes p.die p.core p.share
      cycStart := Sparse.get 0 s.cycles (id.toNat / 4) }
  { s with others := s.others ++ [h]
           dispatchers := vset s.dispatchers home { d with started := n + 1 } }

/-- Starts the members of a gang, or one record, at their places. -/
def State.startAll (s : State) (home group : Nat) (parent : Option (BitVec 32)) : Nat → List (List Byte × Placed) → State
  | _, [] => s
  | i, (r, p) :: rest => (s.startOne home r p i group parent).startAll home group parent (i + 1) rest

/-- Starts records together: a gang is a new barrier group (R253). -/
def State.startRecords (s : State) (home : Nat) (rs : List (List Byte)) (ps : List Placed) (parent : Option (BitVec 32)) : State :=
  match rs with
  | [] => s
  | r :: _ =>
    if recGroup r = 0 then s.startAll home 0 parent 0 (rs.zip ps)
    else
      let g := s.nextGroup
      let s1 := s.startAll home g parent 0 (rs.zip ps)
      let ms := (s1.others.drop s.others.length).map fun h => (⟨h.tag, h.startid, false⟩ : Member)
      { s1 with groups := s1.groups ++ [⟨g, ms, []⟩], nextGroup := g + 1 }

/-! ## What a record at the head does (R249-R253) -/

/-- Whether a wait condition names no context, and whether it is satisfied (R250, R252, R363). -/
def State.noCtxFor (s : State) (r : List Byte) : Bool := recWaitCtx r != 0 && (s.sharedCtx (recWaitCtx r)).isNone
/-- See `noCtxFor`. -/
def State.waitMet (s : State) (r : List Byte) : Bool :=
  recWaitCtx r == 0 || (match s.sharedCtx (recWaitCtx r) with
    | some c => decide (recWaitVal r ≤ (s.timeline c).count)
    | none => false)

/-- Why records can never start: NOCTX 4 before NOFIT 3, none when they can. A gang whose BGCOUNT records are present
completes whole with NOCTX when a member names no context (DESIGN CHOICE, log 41). -/
def State.neverStarts (s : State) (home : Nat) (rs : List (List Byte)) : Option Nat :=
  if rs.any s.noCtxFor then some 4
  else if (s.placeAll home [] false rs [] []).isNone then some 3
  else none

/-- Where records can start now. -/
def State.startNow (s : State) (home : Nat) (prefer : List Nat) (rs : List (List Byte)) : Option (List Placed) :=
  if rs.all s.waitMet then s.placeAll home prefer true rs s.occupants [] else none

/-- Removes `n` records from the head of a queue, of which `bad` were malformed (R248). -/
def State.dequeue (s : State) (q n bad : Nat) : State :=
  let x := s.queue q
  s.setQueue { x with records := x.records.drop n, removed := x.removed + BitVec.ofNat 64 n
                      malformed := x.malformed + BitVec.ofNat 64 bad }

/-- Records that complete unstarted with one status. -/
def State.unstartedAll (s : State) (die : Nat) (l : List (List Byte)) (status : Nat) : State :=
  l.foldl (fun t r => t.unstarted die r status) s

/-- The first record after a gang's head that breaks R253, by its place. -/
def gangBreak (head : List Byte) (l : List (List Byte)) : Option Nat :=
  l.findIdx? fun r => malformedRecord r || recGroup r != recGroup head || recCount r != recCount head

/-- A visit to a mapped queue (R249): `starts` so far; the first number bounds the records taken. Records that end unstarted stay
while their completion has to wait for a link (R472). -/
def State.visitQueue (s : State) (die q : Nat) (prefer : List Nat) : Nat → Nat → State
  | 0, _ => s
  | k + 1, starts =>
    let l := (s.queue q).records
    match l with
    | [] => s
    | r :: _ =>
      if 64 ≤ starts then s
      else if malformedRecord r then if s.recWaits die r then s else ((s.unstarted die r 5).dequeue q 1 1).visitQueue die q prefer k starts
      else
        let n := if recGroup r = 0 then 1 else recCount r
        let gang := l.take n
        match gangBreak r (gang.drop 1) with
        | some j =>
          let bad := malformedRecord (gang.getD (j + 1) [])
          if (gang.take (j + 1 + bad.toNat)).any (s.recWaits die) then s
          else
          let s1 := s.unstartedAll die (gang.take (j + 1)) 6
          let s2 := if bad then s1.unstarted die (gang.getD (j + 1) []) 5 else s1
          (s2.dequeue q (j + 1 + bad.toNat) bad.toNat).visitQueue die q prefer k starts
        | none =>
          if gang.length < n then s
          else match s.neverStarts die gang with
            | some st => if gang.any (s.recWaits die) then s else ((s.unstartedAll die gang st).dequeue q n 0).visitQueue die q prefer k starts
            | none => match s.startNow die prefer gang with
              | none => s
              | some ps => ((s.startRecords die gang ps none).dequeue q n 0).visitQueue die q prefer k (starts + 1)

/-- A visit to a slot: the queue is unmapped afterwards (R249, R251). -/
def State.visitSlot (s : State) (die : Nat) (prefer : List Nat) (q : Nat) : State :=
  let s1 := if (s.queue q).enabled && (s.queue q).home == die then s.visitQueue die q prefer ((s.queue q).records.length + 1) 0 else s
  s1.setQueue (s1.queueWaits (s1.queue q))

/-- The dispatcher's fields replaced. -/
def State.onDispatcher (s : State) (die : Nat) (f : Dispatcher → Dispatcher) : State :=
  { s with dispatchers := vset s.dispatchers die (f (vget s.dispatchers dispatcherDefault die)) }

/-- A visit to the pool (R260): records in pool order, up to 64 starts; the first number bounds them. -/
def State.visitPool (s : State) (die : Nat) (prefer : List Nat) : List PoolRec → Nat → State
  | [], _ => s
  | p :: rest, starts =>
    let gone := fun (t : State) => t.onDispatcher die fun d => { d with pool := d.pool.erase p }
    match s.neverStarts die [p.bytes] with
    | some st =>
      if s.recWaits die p.bytes then s.visitPool die prefer rest starts
      else ((gone s).unstarted die p.bytes st |>.childEnded p.parent).visitPool die prefer rest starts
    | none =>
      if 64 ≤ starts then s.visitPool die prefer rest starts
      else match s.startNow die prefer [p.bytes] with
        | none => s.visitPool die prefer rest starts
        | some ps => ((gone s).startRecords die [p.bytes] ps p.parent).visitPool die prefer rest (starts + 1)

/-- Pool entries, and those outside the reserve (R258, R260). -/
def poolSize : Nat := 4096
/-- See `poolSize`. -/
def poolOpen : Nat := 3840

/-- Whether the parent of a record has a stream that waits in WAITCH. -/
def State.parentWaits (s : State) (p : PoolRec) : Bool :=
  match p.parent.bind s.findHart with | some h => h.inWaitch || h.inWaitchFeed | none => false

/-- Moves spoil-queue records into the pool (R260): the oldest outside the reserve, in order; then those whose parent waits,
into the reserve. -/
def State.refill (s : State) (die : Nat) : State :=
  s.onDispatcher die fun d =>
    let n := poolOpen - d.pool.length
    (d.spoil.drop n).foldl (fun (acc : Dispatcher) p =>
      if s.parentWaits p ∧ acc.pool.length < poolSize then { acc with pool := acc.pool ++ [p], spoil := acc.spoil.erase p } else acc)
      { d with pool := d.pool ++ d.spoil.take n, spoil := d.spoil.drop n }

/-! ## Killing a hart (R447) -/

/-- A REGLOST record of a hart that is killed (R439, R455, R456). -/
def reglostRec (kind : Nat) (tag : BitVec 32) : FaultRec where
  cause := 0x22
  kind := BitVec.ofNat 8 kind
  acc := 0
  level := 0xFF
  src := 4
  flags := 0
  npos := 1
  handle := tag.setWidth 64
  va := 0
  vawin := 0
  hartid := 0xFFFF
  index := 0
  npage := 1
  pc := 0
  word := 0
  ctxid := 0
  aux := 0
  save := 0

/-- Whether an operation is one of a hart's that a kill abandons: a stopped copy, or a stream into its queues. -/
def Op.diesWith (o : Op) (tag : BitVec 32) : Bool :=
  (o.copyOf tag && (match o.stage with | .stopped _ => true | _ => false)) || o.streamOf tag

/-- A hart is killed: it retires once its operations have ended. -/
def State.killHart (s : State) (tag : BitVec 32) : State :=
  let s1 := ((s.leaveCore tag).onHart tag fun h => { h with run := .killed h.isSaved, events := [] }).abandonWhere (·.diesWith tag)
  { s1 with dispatchers := s1.dispatchers.map fun d => { d with ready := d.ready.filter (· != tag) }
            quantum := if s1.occupied && s1.hart.tag == tag && !s1.hart.isControl then 0 else s1.quantum }

/-- A hart is killed for registers that are lost (R439, R455, R456). -/
def State.loseHart (s : State) (die kind : Nat) (tag : BitVec 32) : State :=
  (s.killHart tag).putEvent die false [reglostRec kind tag]

/-! ## Placing saved harts (R434, R456) -/

/-- The live groups that a hart saved for a retirement may still have on its own core (R456): with NARROW, where they are
at least its saved G; other harts hold `used` groups there. -/
def State.narrowed (s : State) (h : Hart) (used : Nat) : Option Nat :=
  let a := s.areaAt h
  let geom := s.mem.readLe (a + 0x10) 8
  let c := idCore h.hartid
  let lv := min (geom % 16) (s.liveGroups h.die c - used)
  if (vget s.hub.rasctl 0 h.die).getLsbD 8 ∧ bitAt (s.mem.readLe a 8) 4 ∧ s.liveGroups h.die c < 8 ∧ 0 < lv ∧ geom / 16 % 16 ≤ lv then
    some lv
  else none

/-- Places one ready hart on its own die, in its own quad when it owns macros; an area that breaks R439 kills it. -/
def State.placeReady (s : State) (die : Nat) (prefer : List Nat) (tag : BitVec 32) : State :=
  match s.findHart tag with
  | none => s
  | some h =>
    if h.run ≠ .saved true then s
    else if areaOk s.mem (s.areaAt h) h = false then s.loseHart die 2 tag
    else
      let share := s.mem.readLe (s.areaAt h + 0x10) 8 % 16
      let cores := (s.permitted die (2 ^ die) h.placeq.toNat prefer).filter fun p => h.mcount == 0 || p.2 / 4 == idQuad h.hartid
      let put := fun (c i lv : Nat) =>
        (s.onDispatcher die fun d => { d with ready := d.ready.filter (· != tag) }).onHart tag fun h =>
          h.restored s (BitVec.ofNat 11 (die * 512 + c * 4 + i)) lv
      let used := sumNat ((s.occupants.filter fun p => p.die == die && p.core == idCore h.hartid).map (·.share))
      let own := (s.narrowed h used).bind fun lv => (s.slotFor s.occupants die (idCore h.hartid) lv).map fun i => (i, lv)
      match own, cores.findSome? fun p => (s.slotFor s.occupants p.1 p.2 share).map fun i => (p.2, i) with
      | some (i, lv), _ => put (idCore h.hartid) i lv
      | none, some (c, i) => put c i share
      | none, none =>
        if (s.narrowed h 0).isNone && cores.all fun p => decide (s.liveGroups p.1 p.2 < share) then s.loseHart die 3 tag else s

/-! ## Rotations (R249, R251) -/

/-- A queue unmapped with records ages (R251). -/
def StartQueue.aged (q : StartQueue) : StartQueue :=
  { q with waiting := q.waiting.map fun w => (min 7 (w.1 + 1), w.2) }

/-- Whether a queue comes before another for a free slot: higher priority, then older, then lower. -/
def StartQueue.before (a b : StartQueue) : Bool :=
  match a.waiting, b.waiting with
  | some (p, x), some (r, y) => decide (r < p) || (p == r && (decide (x < y) || (x == y && decide (a.n < b.n))))
  | _, _ => false

/-- Inserts a queue in the order of R251. -/
def insertQueue (q : StartQueue) : List StartQueue → List StartQueue
  | [] => [q]
  | r :: l => if q.before r then q :: r :: l else r :: insertQueue q l

/-- Ages the queues of a die and maps the first 64 (R251). -/
def State.ageAndMap (s : State) (die : Nat) : State :=
  let mine := fun (q : StartQueue) => q.home == die && q.waiting.isSome
  let s1 := { s with queues := s.queues.map fun q => if mine q then q.aged else q }
  let order := (s1.queues.filter fun q => mine q && q.enabled).foldl (fun l q => insertQueue q l) []
  let slots := (order.take 64).map (·.n)
  let s2 := { s1 with queues := s1.queues.map fun (q : StartQueue) => if slots.contains q.n then { q with waiting := none } else q }
  s2.onDispatcher die fun d => { d with slots := slots, rotation := d.rotation + 1 }

/-- DISPATCH_ROTATION (R249, R434): ready harts, slots 0-63, the pool, then ageing and mapping; `cores` are the cores
that the lane allocator prefers, as die * 128 + core (R250). A stopped die's dispatcher does nothing (R480). -/
def execDispatchRotation (die : Nat) (cores : List Nat) (s : State) : Out :=
  if 4 ≤ die ∨ s.dieStopped die ∨ s.down then .next s
  else
    let d := vget s.dispatchers dispatcherDefault die
    let s1 := d.ready.foldl (fun t tag => t.placeReady die cores tag) s
    let s2 := d.slots.foldl (fun t q => t.visitSlot die cores q) s1
    let s3 := s2.onDispatcher die fun d => { d with slots := [] }
    let s4 := s3.visitPool die cores (vget s3.dispatchers dispatcherDefault die).pool 0
    .next ((s4.refill die).ageAndMap die)

/-! ## Appends (R246, R247) -/

/-- ENQUEUE_APPEND (R246): a write of 64 bytes is appended or refused, any other is refused. -/
def execEnqueueAppend (queue : Nat) (bytes : List Byte) (s : State) : Out :=
  if 1024 ≤ queue then .next s else .next (s.append queue bytes)

/-- STAGING_WORD_STORE (R247). -/
def execStagingWordStore (core word : Nat) (value : Word) (s : State) : Out :=
  .next (s.onControl core fun h => { h with staging := vset h.staging word value })

/-- The stream of a control core. -/
def State.control (s : State) (n : Nat) : Option Hart := s.allHarts.find? fun h => h.kind == .control n

/-- STAGING_APPEND (R247). -/
def execStagingAppend (core queue : Nat) (s : State) : Out :=
  match s.control core with
  | none => .next s
  | some h =>
    if 1024 ≤ queue then .next s
    else .next ((s.append queue (h.staging.toList.flatMap fun w => toLe 8 w.toNat)).onControl core fun h =>
      { h with staging := Vector.replicate 8 0 })

/-! ## SPAWN and WAITCH (R258-R262) -/

/-- Whether the spoil queue of a die takes another record (R258, R259). -/
def State.spoilOpen (s : State) (d : Nat) : Bool :=
  let n := (vget s.hub.splsize 0 d).toNat
  bitAt (vget s.hub.splbase 0 d).toNat 0 && decide (10 ≤ n) && decide (n ≤ 24)
  && decide ((vget s.dispatchers dispatcherDefault d).spoil.length < 2 ^ n)

/-- SPAWN (R258). An accepted child counts, whatever `d` is (DESIGN CHOICE, log 41). -/
def execSpawn (d a : Reg) (s : State) : Out :=
  runScalar ⟨Enc.spawn d a, 4, .never, true, false, [d, a]⟩
    (fun s0 =>
      if (s0.rd a).toNat % 64 ≠ 0 then .trap .misalign (s0.rd a) s0
      else if s0.onFeeder = false ∧ s0.hart.vq ≠ [] then .wait s0
      else s0.withWords (Enc.spawn d a) (s0.rd a) 8 fun w s =>
        let r := w.flatMap fun x => toLe 8 x.toNat
        let die := s.hart.die
        if malformedRecord r || recGroup r != 0 then .ok () (s.finishG (Enc.spawn d a) 4 d 3)
        else
          let p : PoolRec := ⟨r.set 52 (BitVec.ofNat 8 (2 ^ die)), some s.hart.tag⟩
          let x := vget s.dispatchers dispatcherDefault die
          let counted := fun (t : State) => { t with hart := { t.hart with spawned := t.hart.spawned + 1 } }
          if x.pool.length < poolOpen then
            .ok () ((counted (s.onDispatcher die fun x => { x with pool := x.pool ++ [p] })).finishG (Enc.spawn d a) 4 d 1)
          else if s.spoilOpen die then
            .ok () ((counted (s.onDispatcher die fun x => { x with spoil := x.spoil ++ [p] })).finishG (Enc.spawn d a) 4 d 2)
          else .ok () (s.finishG (Enc.spawn d a) 4 d 0)) s

/-- Whether the executing stream waits in WAITCH. -/
def State.setWaitch (s : State) (b : Bool) : State :=
  { s with hart := if s.onFeeder then { s.hart with inWaitchFeed := b } else { s.hart with inWaitch := b } }

/-- WAITCH (R262). -/
def execWaitch (a : Reg) (s : State) : Out :=
  runScalar ⟨Enc.waitch a, 4, .never, true, false, [a]⟩
    (fun s =>
      if (s.hart.childDone - (s.rd a).setWidth 32).toNat < 2 ^ 31 then .ok () ((s.setWaitch false).finish (Enc.waitch a) 4)
      else .wait (s.setWaitch true)) s

/-! ## Barriers (R263, R264) -/

/-- The unit of a scope that a HARTID lies in: core, quad, die, and the partition at pkg scope (R477). -/
def State.unitOf (s : State) (scope : Nat) (id : BitVec 11) : Nat :=
  match scope with
  | 0 => id.toNat / 4
  | 1 => id.toNat / 16
  | 2 => idDie id
  | _ => s.part (idDie id)

/-- Completed episodes of a group in a unit. -/
def Group.completed (g : Group) (scope unit : Nat) : Nat :=
  match g.complete.find? fun c => c.1 == scope && c.2.1 == unit with
  | some c => c.2.2
  | none => 0

/-- Completed episodes of a hart at a scope: without a group its own arrivals complete them (R264). -/
def State.episodes (s : State) (h : Hart) (scope : Nat) : Nat :=
  match s.groups.find? (·.id == h.group) with
  | some g => g.completed scope (s.unitOf scope h.startid)
  | none => vget h.arrive 0 scope

/-- The token of an arrival (R263). -/
def barToken (n scope : Nat) : Word := BitVec.ofNat 64 (n % 2 ^ 32 * 2 ^ 32 + scope)

/-- Counts an arrival of the executing hart, which releases its accesses (R264, R327). -/
def State.arrive (s0 : State) (scope : Nat) : State :=
  let s := s0.settle
  { s with hart := { s.hart with arrive := vset s.hart.arrive scope (vget s.hart.arrive 0 scope + 1) } }

/-- Whether the episode of a token has completed. -/
def State.episodeDone (s : State) (t : Word) : Bool := decide (t.toNat / 2 ^ 32 ≤ s.episodes s.hart (t.toNat % 8))

/-- BARRIER_EPISODE_COMPLETE (R264): the next episode completes when every member of the unit has arrived or retired. -/
def execBarrierEpisodeComplete (group scope unit : Nat) (s : State) : Out :=
  match s.groups.find? (·.id == group) with
  | none => .next s
  | some g =>
    let n := g.completed scope unit + 1
    let here := g.members.filter fun m => s.unitOf scope m.startid == unit
    let there := fun (m : Member) => m.retired || (match s.findHart m.tag with
      | some h => decide (n ≤ vget h.arrive 0 scope)
      | none => true)
    if here.any (fun m => !m.retired) && here.all there then
      let g' := { g with complete := (scope, unit, n) :: g.complete.filter fun c => !(c.1 == scope && c.2.1 == unit) }
      .next { s with groups := s.groups.map fun x => if x.id = group then g' else x }
    else .next s

/-- BAR (R264): an arrival once counted is not counted again (R430). -/
def execBar (sc : BitVec 3) (s : State) : Out :=
  runScalar ⟨Enc.bar sc, 4, .never, false, false, []⟩
    (fun s =>
      match s.hart.barpend with
      | some t => if s.episodeDone t then
          .ok () (({ s with hart := { s.hart with barpend := none } }).finish (Enc.bar sc) 4)
        else .wait s
      | none =>
        if s.hart.vq ≠ [] then .wait s
        else
          let s1 := s.arrive sc.toNat
          let t := barToken (vget s1.hart.arrive 0 sc.toNat) sc.toNat
          if s1.episodeDone t then .ok () (s1.finish (Enc.bar sc) 4)
          else .wait { s1 with hart := { s1.hart with barpend := some t } }) s

/-- BARA (R264). -/
def execBara (d : Reg) (sc : BitVec 3) (s : State) : Out :=
  runScalar ⟨Enc.bara d sc, 4, .never, false, false, [d]⟩
    (fun s =>
      if s.hart.vq ≠ [] then .wait s
      else
        let s1 := s.arrive sc.toNat
        .ok () (s1.finishG (Enc.bara d sc) 4 d (barToken (vget s1.hart.arrive 0 sc.toNat) sc.toNat))) s

/-- BARW (R264). -/
def execBarw (a : Reg) (sc : BitVec 3) (s : State) : Out :=
  runScalar ⟨Enc.barw a sc, 4, .never, false, false, [a]⟩
    (fun s =>
      let t := (s.rd a).toNat
      let epoch := t / 2 ^ 32
      if t % 2 ^ 32 / 8 ≠ 0 ∨ t % 8 ≠ sc.toNat ∨ epoch = 0 ∨ vget s.hart.arrive 0 sc.toNat < epoch then
        .trap .illop (wordVal (Enc.barw a sc)) s
      else if s.episodeDone (s.rd a) then .ok () (s.finish (Enc.barw a sc) 4)
      else .wait s) s

end Sys2Proof.Machine
end

