-- ==== Sys2Proof/Machine/Faults.lean ====
section
/-! DEFINITION. The service instructions FRPOP, RESUME and KILL, pre-emption requests, and the machine errors of lanes and
memory words (spec/19 R432, R444-R457). -/

namespace Sys2Proof.Machine

/-! ## FRPOP (R445) -/

/-- The frame of a service instruction (R444): supervisor-only, on either stream and on control cores. -/
def runService (word : Nat) (regs : List Reg) (body : State → Res Unit) (s : State) : Out :=
  runScalar ⟨word, 4, .never, true, true, regs⟩
    (fun s => if s.hart.sv = false then .trap .priv (wordVal word) s else body s) s

/-- Translates `n` eight-byte writes from `va` up. -/
def State.translateWords (s : State) (va : Word) : Nat → Res (List Xl)
  | 0 => .ok [] s
  | n + 1 => (s.translate s.agent (.plain 1 8) va).bind fun x s1 =>
      (s1.translateWords (va + 8) n).bind fun r s2 => .ok (x :: r) s2

/-- Performs eight-byte writes of consecutive pieces of `bytes`. -/
def State.performWords (s : State) : List Xl → List Byte → State
  | [], _ => s
  | x :: r, bytes => (s.perform s.agent x (bytes.take 8) false).performWords r (bytes.drop 8)

/-- FRPOP (R445): the oldest record of die `e`, and whether there was one, across its links (R481); on a DURABLE page its bytes are one persist unit (R402). -/
def execFrpop (d a : Reg) (e : BitVec 2) (s : State) : Out :=
  runService (Enc.frpop d a e) [d, a]
    (fun s =>
      let p := s.rd a
      if p.toNat % 64 ≠ 0 then .trap .misalign p s
      else if s.cut s.agent.start (baseOf (vget s.frq frqDefault e.toNat).base) then .wait s
      else match (vget s.frq frqDefault e.toNat).held with
        | [] => .ok () (s.finishG (Enc.frpop d a e) 4 d 0)
        | r :: _ => (s.translateWords p 8).bind fun xs s =>
            let s0 := s.settleMine
            let s1 := (s0.performWords xs r.bytes).mergeFrom s0.ingress.length 64
            let q := vget s1.frq frqDefault e.toNat
            let s2 := ({ s1 with frq := vset s1.frq e.toNat { q with held := q.held.drop 1 } }).flushFrq e.toNat
            .ok () (s2.finishG (Enc.frpop d a e) 4 d 1)) s

/-! ## RESUME and KILL (R446, R447) -/

/-- A handle with every bit that R441 requires to be 0. -/
def handleOk (h : Nat) : Bool :=
  if bitAt h 63 then bitsAt h 62 60 == 0 && bitsAt h 57 32 == 0 else bitsAt h 62 32 == 0

/-- The stopped operation that a handle names. -/
def State.stoppedOp (s : State) (h : Nat) : Option Op :=
  s.ops.find? fun o => o.faultDie == bitsAt h 59 58 && (match o.stage with
    | .stopped n => n % 2 ^ 32 == h % 2 ^ 32
    | _ => false)

/-- What RESUME does with a handle: none when nothing changes. -/
def State.resumed (s : State) (h : Nat) : Option State :=
  if bitAt h 63 then (s.stoppedOp h).map fun o => s.setOp { o with stage := .accepted }
  else
    let tag := BitVec.ofNat 32 h
    match s.findHart tag with
    | none => none
    | some x =>
      if x.run = .saved false then
        some ((s.onHart tag fun x => { x with run := .saved true }).onDispatcher x.die fun d => { d with ready := d.ready ++ [tag] })
      else none

/-- RESUME (R446). -/
def execResume (d a : Reg) (s : State) : Out :=
  runService (Enc.resume d a) [d, a]
    (fun s =>
      let h := (s.rd a).toNat
      if handleOk h = false then .trap .illop (wordVal (Enc.resume d a)) s
      else match s.resumed h with
        | some s1 => .ok () (s1.finishG (Enc.resume d a) 4 d 1)
        | none => .ok () (s.finishG (Enc.resume d a) 4 d 0)) s

/-- What KILL does with a handle: none when nothing changes. -/
def State.killed (s : State) (h : Nat) : Option State :=
  if bitAt h 63 then (s.stoppedOp h).map s.abandonOp
  else match s.findHart (BitVec.ofNat 32 h) with
    | none => none
    | some x => match x.run with
      | .killed _ => none
      | _ => some (s.killHart (BitVec.ofNat 32 h))

/-- KILL (R447). -/
def execKill (d a : Reg) (s : State) : Out :=
  runService (Enc.kill d a) [d, a]
    (fun s =>
      let h := (s.rd a).toNat
      if handleOk h = false then .trap .illop (wordVal (Enc.kill d a)) s
      else match s.killed h with
        | some s1 => .ok () (s1.finishG (Enc.kill d a) 4 d 1)
        | none => .ok () (s.finishG (Enc.kill d a) 4 d 0)) s

/-! ## Pre-emption (R432) -/

/-- PREEMPT_REQUEST (R432): a write of PREEMPTd. -/
def execPreemptRequest (die : Nat) (tag : BitVec 32) (s : State) : Out := .next (s.preemptTag die tag)

/-! ## Lane groups (R448, R454-R456) -/

/-- AUX of a record of lane hardware (R441). -/
def laneAux (core group lane : Nat) : Word := BitVec.ofNat 64 (core * 65536 + group * 256 + lane)

/-- A SPARED record (R454-R456): of the lane group, not of a hart. -/
def sparedRec (kind core group lane : Nat) : FaultRec where
  cause := 0x23
  kind := BitVec.ofNat 8 kind
  acc := 0
  level := 0xFF
  src := 3
  flags := 0
  npos := 1
  handle := 0
  va := 0
  vawin := 0
  hartid := 0xFFFF
  index := 0
  npage := 1
  pc := 0
  word := 0
  ctxid := 0
  aux := laneAux core group lane
  save := 0

/-- THRESH of RASCTLd; 0 acts as 4 (R457). -/
def State.thresh (s : State) (d : Nat) : Nat :=
  let t := (vget s.hub.rasctl 0 d).toNat % 256
  if t = 0 then 4 else t

/-- The harts that hold a lane group of a core (R158). -/
def State.holders (s : State) (die core group : Nat) : List (BitVec 32) :=
  (s.allHarts.filter fun h => h.inSlot && h.die == die && idCore h.hartid == core && h.lanes.contains group).map (·.tag)

/-- Pre-empts the harts of a lane group (R455, R456). -/
def State.preemptFor (s : State) (l : List (BitVec 32)) : State :=
  l.foldl (fun t tag => t.onHart tag fun h => match h.run with
    | .running | .stopping => { h with run := .stopping, reason := h.reason ||| 0b10000 }
    | _ => h) s

/-- N of a lane group now (R448): what its present holder has executed counts. -/
def State.laneN (s : State) (l : LaneGroup) : Nat :=
  l.count + sumNat ((s.allHarts.filter fun h => h.inSlot && h.die == l.die && idCore h.hartid == l.core && h.lanes.contains l.group).map
    (·.vcount))

/-- The mismatches within the last 2^20 instructions of the group, N of which is `n` (R454). -/
def LaneGroup.recent (l : LaneGroup) (n : Nat) : List (Nat × Nat) := l.mismatches.filter fun x => decide (n - x.2 < 2 ^ 20)

/-- The mismatch count of a lane. -/
def LaneGroup.laneCount (l : LaneGroup) (lane n : Nat) : Nat := ((l.recent n).filter (·.1 == lane)).length

/-- Whether three working lanes or more have mismatches in one span. -/
def LaneGroup.threeLanes (l : LaneGroup) (n : Nat) : Bool :=
  decide (3 ≤ ((List.range 8).filter fun i => decide (0 < l.laneCount i n)).length)

/-- A lane is spared (R455): the harts that hold the group are pre-empted, their words corrected and counted (R457), or killed for an uncorrectable
word of the failed lane, and the checking lane takes its place. -/
def State.spareLane (s : State) (l : LaneGroup) (lane : Nat) (found : SpareSave) : State :=
  let hs := s.holders l.die l.core l.group
  let s1 := s.preemptFor (hs.filter fun t => !found.bad.contains t)
  let s2 := (hs.filter found.bad.contains).foldl (fun t tag => t.loseHart l.die 1 tag) s1
  let s3 := s2.setLane { l with checkStopped := true, spared := true }
  (((s3.count l.die 0 found.corrected).count l.die 6 1).count l.die 7 1).putEvent l.die true [sparedRec 1 l.core l.group lane]

/-- A lane group is retired (R456): its core offers one group fewer, and the harts that hold it are pre-empted. -/
def State.retireGroup (s : State) (l : LaneGroup) (lane : Nat) : State :=
  (((s.preemptFor (s.holders l.die l.core l.group)).setLane { l with retired := true }).count l.die 8 1).putEvent l.die true
    [sparedRec 3 l.core l.group lane]

/-- A POISON record of a hart, from lane hardware (R451). -/
def State.poisonRec (s : State) (h : Hart) (kind : Nat) (pc va aux : Word) : FaultRec :=
  { sparedRec kind 0 0 0 with
    cause := 0x20, handle := h.tag.setWidth 64, hartid := h.hartid.setWidth 16, pc := pc, va := va, aux := aux
    save := BitVec.ofNat 64 (s.areaAt h) }

/-- The vector groups that an instruction writes: its destination and its copy group (R66, R70). -/
def issuedGroups (i : IssuedInstr) : List (Nat × Nat) :=
  match destOfWord i.word.toNat (vtypeLmul i.vtype) with
  | none => []
  | some d => d :: (match i.pfx with | some p => if pfxCen p then [((pfxReg p).toNat, d.2)] else [] | none => [])

/-- The destination groups of instruction I from element group k on, of those at `dest`, with group k itself, of a mask
destination too (R451): k is the group of (row, e). -/
def poisonFrom (i : IssuedInstr) (row e : Nat) (dest : List (Nat × Nat)) : List Nat :=
  let b := destBytesOfWord i.word.toNat (2 ^ vtypeSew i.vtype)
  let l := ((row, e) :: dest).filter fun p => decide (row * 65536 + e ≤ p.1 * 65536 + p.2) && decide (p.1 < 8)
  let v := (issuedGroups i).foldl (fun q d => (l.filter fun p => decide (p.2 < d.2 * rowElems i.grant b)).foldl
    (fun q p => addPoison (poisonKeys i.grant b d.1 p.1 p.2) q) q) []
  match maskOfWord i.word.toNat with
  | none => v
  | some n => (l.filter fun p => decide (p.2 < 16384)).foldl (fun q p => insertNat (maskKey n p.1 p.2) q) v

/-- A second failure (R451): groups of I commit poisoned, and a record is written. -/
def State.commitPoisoned (s : State) (h : Hart) (kind : Nat) (pc va aux : Word) (keys : List Nat) : State :=
  let s1 := s.onHart h.tag fun x => { x with poison := addPoison keys x.poison }
  (s1.count h.die 4 ((keys.filter fun k => decide (k < 49152)).length / 8)).putEvent h.die true [s.poisonRec h kind pc va aux]

/-- The lane group of its core that works on an element of an instruction's registers (R161). -/
def Hart.groupAt (h : Hart) (i : IssuedInstr) (e : Nat) : Option Nat :=
  h.lanes[e % rowElems i.grant (2 ^ vtypeSew i.vtype) % (8 * i.grant) / 8]?

/-- Whether a hart may still execute vector instructions. -/
def Hart.atWork (h : Hart) : Bool := match h.run with | .running | .stopping => true | _ => false

/-- CHECK_MISMATCH (R448, R450, R451, R454, R455): instruction `inst`, the hart's last, fails in the element group of
`at_`, a row and an element, in lane N mod 8. The first failure is replayed, a second poisons; the lane's count rises, checking stops when three
lanes have mismatches, and a lane that reaches THRESH is spared. -/
def execCheckMismatch (tag : BitVec 32) (inst : IssuedInstr) (at_ : Nat × Nat) (second : Bool) (dest : List (Nat × Nat))
    (found : SpareSave) (s : State) : Out :=
  match s.findHart tag with
  | none => .next s
  | some h => match h.groupAt inst at_.2 with
    | none => .next s
    | some group =>
      let core := idCore h.hartid
      let l := s.lane h.die core group
      let n := s.laneN l
      let lane := n % 8
      if h.atWork = false ∨ l.checkStopped ∨ l.retired then .next s
      else
        let s1 := s.count h.die 2 1
        let s2 := if second then s1.commitPoisoned h 2 inst.pc 0 (laneAux core group lane) (poisonFrom inst at_.1 at_.2 dest)
          else s1.count h.die 3 1
        let l1 := { l with mismatches := l.recent n ++ [(lane, n)] }
        if l1.threeLanes n then
          .next (((s2.setLane { l1 with checkStopped := true }).count h.die 7 1).putEvent h.die true [sparedRec 2 core group 8])
        else if s2.thresh h.die ≤ l1.laneCount lane n then .next ((s2.setLane l1).spareLane l1 lane found)
        else .next (s2.setLane l1)

/-- UNCORRECTABLE_CONSUMED (R450, R451, R456): an uncorrectable word of register storage or memory that instruction `inst`
consumes at the element group of (row, e); the first time it is replayed, and a second time, or at once on a DEVICE page,
it poisons. A word of register storage retires a lane group without a spare. -/
def execUncorrectableConsumed (tag : BitVec 32) (inst : IssuedInstr) (memory : Bool) (address row e : Nat) (second : Bool)
    (dest : List (Nat × Nat)) (s : State) : Out :=
  match s.findHart tag with
  | none => .next s
  | some h => match h.groupAt inst e with
    | none => .next s
    | some group =>
      if h.atWork = false then .next s
      else
        let core := idCore h.hartid
        let l := s.lane h.die core group
        let s1 := s.count h.die 1 1
        let device := memory && (match region address with | .hub _ => true | _ => false)
        let s2 :=
          if second || device then
            (if memory then s1.markPoison address 1 true else s1).commitPoisoned h (if memory then 3 else 1) inst.pc
              (if memory then BitVec.ofNat 64 address else 0) (laneAux core group (e % 8)) (poisonFrom inst row e dest)
          else s1.count h.die 3 1
        .next (if !memory && l.checkStopped && !l.retired then s2.retireGroup l (e % 8) else s2)

/-- LANE_SPARE (R455): a lane whose count has reached THRESH, which firmware may have lowered, is spared. -/
def execLaneSpare (die core group lane corrected : Nat) (bad : List (BitVec 32)) (s : State) : Out :=
  let l := s.lane die core group
  if 4 ≤ die ∨ 128 ≤ core ∨ 8 ≤ group ∨ 8 ≤ lane ∨ l.checkStopped ∨ l.retired
    ∨ l.laneCount lane (s.laneN l) < s.thresh die then .next s
  else .next (s.spareLane l lane ⟨corrected, bad⟩)

/-- GROUP_RETIRE (R456): a lane group without a spare is retired, for a lane whose count has reached THRESH or for an
uncorrectable register-storage word met there. -/
def execGroupRetire (die core group lane : Nat) (storage : Bool) (s : State) : Out :=
  let l := s.lane die core group
  if 4 ≤ die ∨ 128 ≤ core ∨ 8 ≤ group ∨ l.retired ∨ l.checkStopped = false
    ∨ (storage = false ∧ l.laneCount lane (s.laneN l) < s.thresh die) then .next s
  else .next (s.retireGroup l lane)

end Sys2Proof.Machine
end

