-- ==== Sys2Proof/Machine/MemEvents.lean ====
section
/-! DEFINITION. Page walks that fill a TLB, accesses of outside agents at their home, and the invalidation of
translations (spec/10 R274, R275, R280-R282, R290-R295). -/

namespace Sys2Proof.Machine

/-! ## Walks (R280, R290, R291) -/

/-- The agent whose walk fills a TLB: a stream of core `unit` of a C die, for 0-127; an operation of a hart of quad
`unit - 128`, for 128-159; else H, or an operation of the die that runs on H (R290, R293). -/
def walkAgent (die unit : Nat) (win : BitVec 8) (sv : Bool) : Agent where
  die := die
  id := if die < 4 then some (BitVec.ofNat 11 (die * 512 + (if unit < 128 then 4 * unit else (unit - 128) % 32 * 16))) else none
  ctl := if die < 4 then none else some 0
  sv := sv
  win := win
  engine := decide (128 ≤ unit)
  tag := none
  feeder := false
  op := none
  onHub := decide (160 ≤ unit)

/-- The entries that a unit holds (R290); the spec gives H no number. -/
def TlbUnit.room : TlbUnit → Option Nat
  | .core _ => some 64
  | .quad _ => some 2048
  | .hub => none

/-- An entry enters its unit in place of one for the same page; a full unit gives up its oldest (DESIGN CHOICE, log 44). -/
def insertTlb (e : TlbEntry) (l : List TlbEntry) : List TlbEntry :=
  let keep := l.filter fun t => !(t.unit == e.unit && t.die == e.die && inRange e.vbase t.vbase t.size)
  let mine := keep.filter (·.unit == e.unit)
  match e.unit.room, mine with
  | some n, old :: _ => (if n ≤ mine.length then keep.erase old else keep) ++ [e]
  | _, _ => keep ++ [e]

/-- The entries that a leaf gives in the units of an agent. -/
def State.holdLeaf (s : State) (a : Agent) (va : Word) (l : Leaf) : State :=
  let x := a.win.toNat * 2 ^ 64 + va.toNat
  { s with tlb := a.units.foldl (fun t u =>
      insertTlb ⟨u, a.die, x / l.size * l.size, l.size, l.at_, BitVec.ofNat 64 (s.mem.readLe l.at_ 8)⟩ t) s.tlb }

/-- PAGE_WALK (R280, R282): a walk for an access that its leaf permits sets A and D, and its leaf is held. -/
def execPageWalk (place : MmuPlace) (win : BitVec 8) (va : Word) (acc : Nat) (sv : Bool) (s : State) : Out :=
  if 5 ≤ place.die then .next s
  else match s.walk (walkAgent place.die place.unit win sv) va.toNat with
    | .bad _ _ | .waits => .next s
    | .leaf l => match s.useLeaf (walkAgent place.die place.unit win sv) (.plain acc 8) va l with
      | .ok _ s1 => .next (s1.holdLeaf (walkAgent place.die place.unit win sv) va l)
      | .trap _ _ _ | .mem _ _ | .wait _ => .next s

/-! ## Accesses at a home (R274, R275) -/

/-- Whether [pa, pa + size) is storage that an outside agent may access: no register and no hole. -/
def isStorage (pa : Nat) : Bool :=
  match region pa with | .hbm _ | .sram _ | .spad _ _ | .tcm _ _ | .bedrock => true | _ => false

/-- MEMORY_ACCESS_PERFORM (R274): an access of an agent whose program is not part of the machine is performed at its home; a
single-bit error that it meets is corrected and counted (R275, R457). The topology engines' regions are closed to it (R373); a module
whose bring-up has failed answers nothing (R530). -/
def execMemoryAccessPerform (pa size : Nat) (data : Option Word) (bitError : Bool) (s : State) : Out :=
  if (size ≠ 1 ∧ size ≠ 2 ∧ size ≠ 4 ∧ size ≠ 8) ∨ pa % size ≠ 0 ∨ isStorage pa = false ∨ s.topoStorage pa ∨ s.down ∨ s.stuckAtStart then .next s
  else
    let s1 := match data with
      | some v => s.putBytes { Agent.management with engine := true } pa (toLe size v.toNat) false
      | none => s
    .next (if bitError then match (region pa).home with | some d => s1.count d 0 1 | none => s1 else s1)

/-! ## Invalidation (R294, R295) -/

/-- Starts a command. -/
def State.startInv (s : State) (c : InvCmd) : State := { s with invs := s.invs ++ [c] }

/-- XLINV_PAGE (R294). -/
def execXlinvPage (win : BitVec 8) (va : Word) (dies : BitVec 5) (s : State) : Out := .next (s.startInv ⟨0, win, va, dies⟩)
/-- XLINV_WINDOW (R294). -/
def execXlinvWindow (win : BitVec 8) (dies : BitVec 5) (s : State) : Out := .next (s.startInv ⟨1, win, 0, dies⟩)
/-- XLINV_NONGLOBAL (R294). -/
def execXlinvNonglobal (dies : BitVec 5) (s : State) : Out := .next (s.startInv ⟨2, 0, 0, dies⟩)
/-- XLINV_ALL (R294). -/
def execXlinvAll (dies : BitVec 5) (s : State) : Out := .next (s.startInv ⟨3, 0, 0, dies⟩)

/-- The bit of DIES that names a unit (R294): that of its die, 4 for H. -/
def TlbUnit.dieBit : TlbUnit → Nat
  | .core c => c / 128
  | .quad q => q / 32
  | .hub => 4

/-- Whether a command covers an entry. -/
def InvCmd.covers (c : InvCmd) (e : TlbEntry) : Bool :=
  (c.dies == 0 || c.dies.getLsbD e.unit.dieBit) && (match c.kind with
    | 0 => inRange (c.win.toNat * 2 ^ 64 + c.va.toNat) e.vbase e.size
    | 1 => !pteBit e.pte.toNat 10 && e.vbase / 2 ^ 64 == c.win.toNat
    | 2 => !pteBit e.pte.toNat 10
    | _ => true)

/-- Whether a command covers the translations of a hart's accesses. -/
def InvCmd.coversHart (c : InvCmd) (h : Hart) : Bool := c.dies == 0 || c.dies.getLsbD h.die

/-- INVALIDATION_COMPLETE (R295): the oldest command completes, and XLSEQ counts it: the accesses that have used a covered
translation are performed first, those of DEVICE pages under way too. -/
def execInvalidationComplete (s0 : State) : Out :=
  match s0.invs with
  | [] => .next s0
  | c :: rest =>
    if s0.allHarts.any fun h => c.coversHart h && h.aperture != [] then .next s0
    else
      let s := s0.settleWhere c.coversHart
      let s1 := { s with invs := rest, tlb := s.tlb.filter fun e => !c.covers e }
      .next (s1.setHub { s1.hub with xlseq := s1.hub.xlseq + 1 })

end Sys2Proof.Machine
end

