-- ==== Sys2Proof/Machine/Links.lean ====
section
/-! DEFINITION. The Rolud links, their failures, partitions and their restart (spec/21 R468-R482). -/

namespace Sys2Proof.Machine

/-! ## Links and partitions (R468, R475, R476) -/

/-- The dies that ring links 0-3 join. -/
def ringDies (n : Nat) : Nat × Nat :=
  match n with | 0 => (0, 1) | 1 => (1, 3) | 2 => (3, 2) | _ => (2, 0)

/-- The partition a link belongs to; none for a ring link between two partitions. -/
def State.linkPart (s : State) (n : Nat) : Option Nat :=
  if n < 4 then if s.samePart (ringDies n).1 (ringDies n).2 then some (s.part (ringDies n).1) else none
  else if n < 8 then some (s.part (n - 4)) else none

/-- The dies of a partition. -/
def State.partDies (s : State) (p : Nat) : List Nat := (List.range 4).filter fun d => s.part d == p

/-- A link as it comes out of training: counters 0, carrying traffic, no failure since (R472, R474). -/
def LinkState.trained (l : LinkState) : LinkState :=
  { l with failed := false, up := true, frames := Vector.replicate 2 0, crcFails := Vector.replicate 2 0 }

/-- Replaces a link. -/
def State.setLink (s : State) (n : Nat) (l : LinkState) : State := { s with links := vset s.links n l }

/-! ## A partition stops (R480) -/

/-- Whether a hart's die is one of a list. -/
def Hart.onDies (h : Hart) (ds : List Nat) : Bool := !h.isControl && ds.contains h.die

/-- A hart stops where it is; a saved one stays saved, and a killed one retires no more. What it has in flight is discarded:
its stores that are not performed, and its reads without a response (R480, R481). -/
def Hart.halt (h : Hart) : Hart :=
  match h.run with
  | .saved _ => h
  | _ => { h with run := .halted, late := [], aperture := [], device := [], remote := [], remoteData := [] }

/-- Whether an operation was issued by a hart of dies, or runs on a topology context of theirs. -/
def Op.onDies (o : Op) (ds : List Nat) : Bool :=
  (o.ctl.isNone && ds.contains (idDie o.hartid)) || (match o.ctx with | .topo d _ => ds.contains d | _ => false)

/-- A LINKFAIL record (R480, R491). -/
def linkfailRec (kind aux : Nat) : FaultRec :=
  { sparedRec kind 0 0 0 with cause := 0x30, src := 4, aux := BitVec.ofNat 64 aux }

/-- Stops dies: streams, operations and topology contexts (R480). -/
def State.stopDies (s : State) (ds : List Nat) : State :=
  let s1 := (s.abandonWhere (·.onDies ds)).endCtx fun c => match c with
    | .topo d k => k != schedSlot && ds.contains d
    | .copy _ _ | .bedrock _ | .xchg _ | .coll _ => false
  { s1 with
    hart := if s1.hart.onDies ds then s1.hart.halt else s1.hart
    others := s1.others.map fun h => if h.onDies ds then h.halt else h
    quantum := if s1.hart.onDies ds then 0 else s1.quantum
    gens := s1.gens.filter fun g => !ds.contains g.die
    hub := { s1.hub with partstat := ds.foldl (fun (m : BitVec 4) d => m ||| (1#4 <<< d)) s1.hub.partstat } }

/-- Stops a partition and reports it on each of its dies whose link to H is up (R480). -/
def State.stopPart (s : State) (p kind aux : Nat) : State :=
  let ds := s.partDies p
  ((s.stopDies ds).partDies p).foldl (fun t d =>
    if (vget t.links linkDefault (4 + d)).up then t.putEvent d false [linkfailRec kind aux] else t) (s.stopDies ds)

/-- Whether a link's partition is stopped (R480). -/
def State.linkStopped (s : State) (n : Nat) : Bool := (s.linkPart n).any fun p => (s.partDies p).any s.dieStopped

/-- Whether a link carries nothing because its partition is stopped: a ring link. The H links that are still up carry the
accesses of agents on H (R480, R481). -/
def State.linkSilent (s : State) (n : Nat) : Bool := decide (n < 4) && s.linkStopped n

/-- A link fails (R473): its partition stops, unless it has stopped already; one held down between partitions stops none
(R476). -/
def State.failLink (s : State) (n kind : Nat) : State :=
  let s1 := s.setLink n { (vget s.links linkDefault n) with failkind := BitVec.ofNat 8 kind, failed := true, up := false }
  match s.linkPart n with
  | some p => if s.linkStopped n then s1 else s1.stopPart p kind n
  | none => s1

/-! ## Frames (R472, R473) -/

/-- Whether a link is held down between partitions (R476). -/
def State.heldDown (s : State) (n : Nat) : Bool := decide (n < 8) && (s.linkPart n).isNone

/-- Before a link stops carrying traffic, what waits in the harts of the machine has gone across (R472). -/
def State.drainLate (s : State) : State := s.settleWhere fun _ => true

/-- A frame of a direction is applied; one that brings its counter to 2^48 is the last before the link retrains (R472). -/
def LinkState.applied (l : LinkState) (direction : Nat) : LinkState :=
  let n := vget l.frames 0 direction + 1
  { l with frames := vset l.frames direction n, crcFails := vset l.crcFails direction 0, up := l.up && decide (n < 2 ^ 48) }

/-- LINK_FRAME_RECEIVE (R473): a frame whose CRC fails is sent again, up to the ninth failure; one whose tag does not verify under
the next counter fails the link; any other is applied. A held-down link records its failures and carries nothing (R476). -/
def execLinkFrameReceive (link direction : Nat) (crcOk tagOk inOrder : Bool) (s : State) : Out :=
  let l := vget s.links linkDefault link
  if 8 ≤ link ∨ 2 ≤ direction ∨ s.linkSilent link ∨ (l.up = false ∧ s.heldDown link = false) then .next s
  else if crcOk = false then
    let n := vget l.crcFails 0 direction + 1
    if 9 ≤ n then .next (s.failLink link 2)
    else .next (s.setLink link { l with retry := BitVec.ofNat 32 (min (l.retry.toNat + 1) 0xFFFFFFFF)
                                        crcFails := vset l.crcFails direction n })
  else if tagOk = false then .next (s.failLink link 1)
  else if inOrder = false then .next (s.failLink link 3)
  else if s.heldDown link then .next s
  else
    let l1 := l.applied direction
    .next ((if l1.up then s else s.drainLate).setLink link l1)

/-- LINK_REKEY (R472): a link whose counter stands at 2^48 retrains; traffic waits until it is trained. -/
def execLinkRekey (link direction : Nat) (s : State) : Out :=
  let l := vget s.links linkDefault link
  if 8 ≤ link ∨ 2 ≤ direction ∨ l.up = false ∨ vget l.frames 0 direction < 2 ^ 48 then .next s
  else .next (s.drainLate.setLink link { l with up := false })

/-- LINK_LOSS (R473): a link that carries traffic, retrains or is held down cannot be trained. -/
def execLinkLoss (link : Nat) (s : State) : Out :=
  let l := vget s.links linkDefault link
  if 8 ≤ link ∨ l.failed ∨ (l.up = false ∧ s.heldDown link = false ∧ l.frames.toList.all (· < 2 ^ 48)) then .next s
  else .next (s.failLink link 4)

/-- LINK_TRAINING_COMPLETE (R472, R474): a link comes up, but neither a ring link of a stopped partition nor its link that
failed (R480); none before bring-up, which trains the links itself, or after a failed one (R530). -/
def execLinkTrainingComplete (link : Nat) (s : State) : Out :=
  match s.linkPart link with
  | none => .next s
  | some _ => if s.linkSilent link ∨ (s.linkStopped link ∧ (vget s.links linkDefault link).failed) ∨ s.hub.mpstage ≠ 6 then .next s
      else .next (s.setLink link (vget s.links linkDefault link).trained)

/-! ## Partitions (R475, R482) -/

/-- The partition number of a die in a PID. -/
def pidOf (pid d : Nat) : Nat := pid / 4 ^ d % 4

/-- Whether each partition of a PID has one of the three shapes. -/
def pidShape (pid : Nat) : Bool :=
  (List.range 4).all fun p =>
    let ds := (List.range 4).filter fun d => pidOf pid d == p
    ds.length ≤ 1 || ds.length == 4 || (ds.length == 2 && ds != [0, 3] && ds != [1, 2])

/-- Whether a die holds anything that keeps its partition number. -/
def State.dieBusy (s : State) (d : Nat) : Bool :=
  s.dieHasHart d || s.gens.any (·.die == d) || s.queues.any (fun q => bitAt q.cfg.toNat 0 && q.home == d) || s.dieStopped d

/-- A write of PARTCFG by the management processor (R475); a ring link between two partitions is held down (R476). -/
def State.writePartcfg (s : State) (v : Nat) : State :=
  let pid := v % 256
  if pidShape pid && (List.range 4).all (fun d => pidOf pid d == s.part d || !s.dieBusy d) then
    let s1 := s.setHub { s.hub with partcfg := BitVec.ofNat 8 pid }
    { s1 with links := Vector.ofFn fun (i : Fin 8) =>
        let l := vget s.links linkDefault i.val
        if (s1.linkPart i.val).isNone then { l with up := false } else l }
  else s

/-- PARTCFG_WRITE (R475). -/
def execPartcfgWrite (value : Word) (s : State) : Out := .next (s.writePartcfg value.toNat)

/-- Storage on a C die itself: its scratchpads, TCMs and SRAM (R482). -/
def onDie (d pa : Nat) : Bool :=
  inRange pa (0x8000000000 + d * 0x100000000) 0x4000000 || inRange pa (0x9000000000 + d * 0x4000000) 0x4000000
  || inRange pa (0xA000000000 + d * 0x2000000) 0x2000000

/-- The dies of a restarted partition: no hart, cleared cores and on-die storage, its links trained (R482). -/
def State.restartDies (s : State) (ds : List Nat) : State :=
  let gone := s.hart.onDies ds
  let s1 := s.setHub { s.hub with partstat := ds.foldl (fun (m : BitVec 4) d => m &&& ~~~(1#4 <<< d)) s.hub.partstat }
  { s1 with
    hart := if gone then Hart.reset else s1.hart
    occupied := s1.occupied && !gone
    onFeeder := s1.onFeeder && !gone
    others := s1.others.filter fun h => !h.onDies ds
    groups := s1.groups.filter fun g => !g.members.any fun m => ds.contains (idDie m.startid)
    dispatchers := Vector.ofFn fun (i : Fin 4) =>
      let d := vget s1.dispatchers dispatcherDefault i.val
      if ds.contains i.val then { d with ready := [] } else d
    tokens := Vector.ofFn fun (i : Fin 4) =>
      if ds.contains i.val then { holders := [], last := 0, waiting := [] } else s1.tokens[i.val]
    cycles := s1.cycles.filter fun c => !ds.contains (c.1 / 128)
    mem := s1.mem.filter fun c => !ds.any fun d => onDie d c.1
    memPoison := s1.memPoison.filter fun w => !ds.any fun d => onDie d w
    links := Vector.ofFn fun (i : Fin 8) =>
      let l := vget s1.links linkDefault i.val
      match s1.linkPart i.val with
      | some p => if ds.any (fun d => s1.part d == p) then l.trained else l
      | none => l }

/-- A write of PARTRST by the management processor (R482). -/
def State.writePartrst (s : State) (v : Nat) : State :=
  let ds := (List.range 4).filter fun d => bitAt v d
  match ds with
  | [] => s
  | d :: _ => if ds == s.partDies (s.part d) && s.dieStopped d then s.restartDies ds else s

/-- PARTRST (R482). -/
def execPartrst (value : Word) (s : State) : Out := .next (s.writePartrst value.toNat)

end Sys2Proof.Machine
end

