-- ==== Sys2Proof/Machine/Remote.lean ====
section
/-! DEFINITION. Remote vector accesses: RLDX, RSTX and RAMOX, their requests and responses, and the registered windows of this
package (spec/22 R487-R497). -/

namespace Sys2Proof.Machine

/-! ## Frames between packages (R489, R490) -/

/-- The port on which a package sends a frame to a rank of another (R489): the node port to the index in its own node, else a
rail port. Which port leads where is the model's choice (DESIGN CHOICE, log 28): the node ports in the order of the
indexes, and of the rail ports, which all attach to one rail, the one of the target node modulo 8. -/
def routePort (me dest : Nat) : Nat :=
  if dest / 8 = me / 8 then 8 + (if dest % 8 < me % 8 then dest % 8 else dest % 8 - 1) else dest / 8 % 8

/-- The port of a response, which retraces its request's route (R489): where that changed the node and the index, the node
port comes first. -/
def responsePort (me dest : Nat) : Nat :=
  if dest / 8 ≠ me / 8 ∧ dest % 8 ≠ me % 8 then routePort me (me / 8 * 8 + dest % 8) else routePort me dest

/-- The transport from one rank to another. -/
def State.pair (s : State) (src dst : Nat) : PairSeq :=
  (s.pairs.find? fun p => p.src == src && p.dst == dst).getD ⟨src, dst, 0, 0⟩

/-- Replaces the transport of a pair. -/
def State.setPair (s : State) (p : PairSeq) : State :=
  { s with pairs := s.pairs.filter (fun q => !(q.src == p.src && q.dst == p.dst)) ++ [p] }

/-- Sends a message as rank `me` to a rank (R489, R490): it ends with that rank, the port and the number of its frame. One
to the own rank takes no port. -/
def State.sendBy (s : State) (port : Nat → Nat → Nat) (me dest : Nat) (m : Msg) : State :=
  if dest = me then s.send m
  else
    let p := s.pair me dest
    (s.setPair { p with next := p.next + 1 }).send { m with nums := m.nums ++ [dest, port me dest, p.next] }

/-- See `State.sendBy`. -/
def State.sendTo (s : State) (dest : Nat) (m : Msg) : State := s.sendBy routePort s.rank dest m

/-- Whether a message is to another package. -/
def MsgKind.toPackage : MsgKind → Bool
  | .remoteRequest | .remoteResponse | .post | .postRequest | .calendar | .ready | .segment | .mark | .spill | .final
  | .collPacket | .collAbort | .exchangeAck => true
  | .hostAck | .hostNak | .hostReadResponse | .apertureWrite | .apertureRead | .forward | .attestation | .management => false

/-- The frame of a number that was sent to a rank, sent again by the transport (R490). -/
def State.resend (s : State) (dest seq : Nat) : State :=
  match s.outbox.find? fun m => m.kind.toPackage && m.nums.drop (m.nums.length - 3) == [dest, m.nums.getD (m.nums.length - 2) 0, seq] with
  | some m => s.send m
  | none => s

/-! ## The operations of RAMOX (R59, R312, R313) -/

/-- An atomic by its code: the width, the old value and the operand. -/
def amoFn (code n x y : Nat) : Nat :=
  match code with
  | 0 => x + y
  | 1 => y
  | 2 => x &&& y
  | 3 => x ||| y
  | 4 => x ^^^ y
  | 5 => if sextN n x ≤ sextN n y then x else y
  | 6 => if sextN n y ≤ sextN n x then x else y
  | 7 => if x ≤ y then x else y
  | 8 => if y ≤ x then x else y
  | 9 => vamoFp false n x y
  | _ => vamoFp true n x y

/-! ## Requests (R493, R495, R497) -/

/-- A remote access: 0 a load, 1 a store, 16 + op an atomic. -/
structure Rem where
  word : Nat
  fn : Nat
  d : Reg
  a : Reg
  b : Reg
  k : BitVec 3

/-- A pending position with its index element. -/
abbrev RItem := (Nat × Nat) × Nat

/-- Key of a refused position. -/
def remKey (feeder : Bool) (p : Nat × Nat) : Nat := (if feeder then 2 ^ 32 else 0) + posKey p

/-- Whether a position of a stream is outstanding or refused. -/
def Hart.remoteBusy (h : Hart) (feeder : Bool) (p : Nat × Nat) : Bool :=
  h.remote.any (fun q => q.feeder == feeder && q.positions.contains p) || h.remoteBad.any (·.1 == remKey feeder p)

/-- RANK and the block of 256 bytes that an index names (R493, R497). -/
def remBlock (x : Nat) : Nat × Nat := (x / 2 ^ 48, x % 2 ^ 48 / 256)

/-- Cuts the pending positions into requests: runs in one block (R497). -/
def remRuns : List RItem → List (List RItem)
  | [] => []
  | x :: r =>
    match remRuns r with
    | (y :: l) :: rest => if remBlock x.2 = remBlock y.2 then (x :: y :: l) :: rest else [x] :: (y :: l) :: rest
    | rest => [x] :: rest

/-- Reply slots of a hart in use (R497). -/
def Hart.slotsUsed (h : Hart) : Nat := (h.remote.filter (·.slot)).length

/-- Sends requests in order while a reply slot is free where one is needed; a RANK of 4,096 or more is refused (R493). -/
def Rem.sendRuns (i : Rem) (feeder : Bool) (b window : Nat) (val : Nat × Nat → Nat × Bool) : List (List RItem) → State → State
  | [], s => s
  | run :: rest, s =>
    let rank := (run.map fun x => x.2 / 2 ^ 48).headD 0
    if 4096 ≤ rank then
      i.sendRuns feeder b window val rest
        { s with hart := { s.hart with remoteBad := s.hart.remoteBad ++ run.map fun x => (remKey feeder x.1, (0x18 : BitVec 8)) } }
    else if i.fn ≠ 1 ∧ 8 ≤ s.hart.slotsUsed then s
    else
      let q : RemoteReq :=
        { id := s.nextReq, positions := run.map (·.1), sent := s.cycle, slot := i.fn != 1, feeder := feeder
          budget := if s.hub.rtimeout = 0 then 0x01000000 else s.hub.rtimeout }
      let m : Msg :=
        ⟨.remoteRequest, [rank, s.hart.tag.toNat, s.nextReq, window, i.fn, b],
          run.flatMap fun x => [x.2 % 2 ^ 48, (val x.1).1, (val x.1).2.toNat]⟩
      i.sendRuns feeder b window val rest
        ({ s with hart := { s.hart with remote := s.hart.remote ++ [q] }, nextReq := s.nextReq + 1 }.sendTo rank m)

/-- The index element of a position: 64 bits (R495). -/
def Rem.index (i : Rem) (h : Hart) (c : VCfg) (p : Nat × Nat) : Nat := elemRd h.v c.g 8 i.b.toNat p.1 p.2

/-- The active positions that have not completed (R495). -/
def Rem.items (i : Rem) (h : Hart) (c : VCfg) : List RItem :=
  (c.positions.filter fun p => c.active h.m i.k.toNat p.1 p.2 && !maskRd h.m 0 p.1 p.2).map fun p => (p, i.index h c p)

/-- The first index element whose OFFSET is not a multiple of `b` (R493). -/
def remMisaligned (b : Nat) (l : List RItem) : Option Word := (l.find? fun x => x.2 % b != 0).map fun x => BitVec.ofNat 64 x.2

/-- ACC of a record (R287). -/
def Rem.acc (i : Rem) : Nat := if i.fn = 0 then 0 else if i.fn = 1 then 1 else 2

/-- The refused positions of a list, as faults: VA is the index element (R495). -/
def Rem.faults (i : Rem) (h : Hart) (feeder : Bool) (l : List RItem) : List ((Nat × Nat) × MemFault) :=
  l.filterMap fun x => (h.remoteBad.find? (·.1 == remKey feeder x.1)).map fun r =>
    (x.1, ⟨false, r.2, i.acc, 0xFF, BitVec.ofNat 64 x.2, 0, 65536⟩)

/-- Forgets the refused positions of a stream. -/
def Hart.clearBad (h : Hart) (feeder : Bool) : Hart :=
  { h with remoteBad := h.remoteBad.filter fun r => decide (r.1 < 2 ^ 32) == feeder }

/-- The load with the same operands. -/
def Rem.mem (i : Rem) : VMem := ⟨i.word, false, .index, i.d, i.a, i.b, i.k⟩

/-- A turn of a remote access of the main stream (R495). -/
def Rem.run (i : Rem) (e : VEntry) (s : State) : VRes :=
  let c := VCfg.of s.hart e
  let todo := fun (h : Hart) => (i.items h c).filter fun x => !h.remoteBusy false x.1
  let s1 := i.sendRuns false c.b ((e.ops.getD 0 0).toNat % 65536)
    (fun p => (c.el s.hart i.d p.1 p.2, elemBad s.hart.poison c.g c.b i.d.toNat p.1 p.2)) (remRuns (todo s.hart)) s
  if s1.hart.remote.any (!·.feeder) || !(todo s1.hart).isEmpty then .wait { e with begun := some 0, stopped := true } s1
  else
    match i.faults s1.hart false (i.items s1.hart c) with
    | [] =>
      if i.fn = 1 then ({ s1 with hart := { s1.hart with m := clearM0 s1.hart.m } }).vdone
      else i.mem.finishLoad [⟨i.b.toNat, 8, c.lmul * (8 / c.b)⟩] e c [] s1
    | l => .stop (vecEvent s1 e.pc i.word e.vstart.toNat l) { e with begun := none, stopped := true }
        { s1 with hart := s1.hart.clearBad false }

/-- A remote access of the main stream: its checks (R494, R495). -/
def Rem.spec (i : Rem) (s : State) : VSpec where
  word := i.word
  qword := i.word
  size := 4
  pfx := .never
  dst := fun l => if i.fn = 1 then none else some (i.d.toNat, l)
  srcs := fun l => (if i.fn = 1 then [(i.d.toNat, l)] else []) ++ [(i.b.toNat, l * (8 / 2 ^ vtypeSew s.st.vtype))]
  bank := if i.fn = 1 then some (i.d.toNat, i.b.toNat) else none
  gs := [i.a]
  lastd := if i.fn = 1 then .none else .v i.d
  check := fun _ c _ =>
    illopIf i.word (decide (c.sew < 2) || (i.fn != 1 && groupsMeet (i.d.toNat, c.lmul) (i.b.toNat, c.lmul * (8 / c.b))))
  ready := fun s =>
    s.hart.indexReady [(i.b.toNat, vtypeLmul s.st.vtype * (8 / 2 ^ vtypeSew s.st.vtype))] (s.st.maskFields i.k)
  late := fun h c _ => (remMisaligned c.b (i.items h c)).map fun x => (.misalign, x)
  writes := i.fn != 0
  run := i.run

/-- A turn of the feeder's RLDX, which holds its slot and its index tile (R146, R495). -/
def Rem.feedTurn (i : Rem) (c : VCfg) (t : Tile) (s : State) : Out :=
  let items := fun (h : Hart) => (c.positions.filter fun p => c.started p.1 p.2 && !maskRd h.fm0 0 p.1 p.2).map
    fun p => ((p, t.elem p.1 p.2) : RItem)
  let todo := fun (h : Hart) => (items h).filter fun x => !h.remoteBusy true x.1
  match remMisaligned 8 (items s.hart) with
  | some x => .next (({ s with hart := s.hart.release i.d.toNat }).trap .misalign x i.word)
  | none =>
    let s1 := i.sendRuns true 8 ((s.rd i.a).toNat % 65536) (fun _ => (0, false)) (remRuns (todo s.hart)) s
    if s1.hart.remote.any (·.feeder) || !(todo s1.hart).isEmpty then .next s1.yield
    else
      match i.faults s1.hart true (items s1.hart) with
      | [] => State.conclude i.word (i.mem.finishFeed c c.vl [] s1)
      | l => .next (({ s1 with hart := s1.hart.clearBad true }).park 0b00010
          (vecEvent s1 s1.st.pc i.word s1.st.vstart.toNat l))

/-- The feeder's RLDX (R146, R494). -/
def Rem.runFeed (i : Rem) (s : State) : Out :=
  let c := s.st.cfg
  if s.st.pfxp then .next (s.trap .pfxbad (wordVal i.word) i.word)
  else if s.regWait [i.a] then .next s.yield
  else if 2 ≤ i.d.toNat ∨ i.b ≠ 2 ∨ i.k ≠ 0 ∨ c.lmul ≠ 1 ∨ c.sew ≠ 3 then .next (s.trap .illop (wordVal i.word) i.word)
  else
    let q := i.d.toNat
    if s.hart.reserved q = false ∧ ((vget s.hart.tq [] q).length ≥ 2 ∨ s.streamAhead q) then .next s.yield
    else
      let part := c.vrow != 0 || c.velem != 0 || !s.hart.fm0.isEmpty
      let s1 := if s.hart.reserved q then s else s.reserve q c part
      match s1.hart.tileHead 2 with
      | none => .next s1.yield
      | some t =>
        if t.fits c.sew c.rc c.vl then i.feedTurn c t s1
        else .next (({ s1 with hart := s1.hart.release q }).trap .qgeom (qgeomVal c.sew c.rc c.vl t.sew.toNat t.rc t.vl) i.word)

/-- RLDX (R494, R495). -/
def execRldx (d a b : Reg) (k : BitVec 3) (s : State) : Out :=
  let i : Rem := ⟨Enc.rldx d a b k, 0, d, a, b, k⟩
  if s.onFeeder ∧ s.atHead = false then i.runFeed s else runVector (i.spec s) s

/-- RSTX (R494, R495). -/
def execRstx (d a b : Reg) (k : BitVec 3) (s : State) : Out :=
  runVector ((⟨Enc.rstx d a b k, 1, d, a, b, k⟩ : Rem).spec s) s

/-- RAMOX_ADD (R495). -/
def execRamoxAdd (d a b : Reg) (k : BitVec 3) (s : State) : Out := runVector ((⟨Enc.ramoxAdd d a b k, 16, d, a, b, k⟩ : Rem).spec s) s
/-- RAMOX_SWP (R495). -/
def execRamoxSwp (d a b : Reg) (k : BitVec 3) (s : State) : Out := runVector ((⟨Enc.ramoxSwp d a b k, 17, d, a, b, k⟩ : Rem).spec s) s
/-- RAMOX_AND (R495). -/
def execRamoxAnd (d a b : Reg) (k : BitVec 3) (s : State) : Out := runVector ((⟨Enc.ramoxAnd d a b k, 18, d, a, b, k⟩ : Rem).spec s) s
/-- RAMOX_OR (R495). -/
def execRamoxOr (d a b : Reg) (k : BitVec 3) (s : State) : Out := runVector ((⟨Enc.ramoxOr d a b k, 19, d, a, b, k⟩ : Rem).spec s) s
/-- RAMOX_XOR (R495). -/
def execRamoxXor (d a b : Reg) (k : BitVec 3) (s : State) : Out := runVector ((⟨Enc.ramoxXor d a b k, 20, d, a, b, k⟩ : Rem).spec s) s
/-- RAMOX_MIN (R495). -/
def execRamoxMin (d a b : Reg) (k : BitVec 3) (s : State) : Out := runVector ((⟨Enc.ramoxMin d a b k, 21, d, a, b, k⟩ : Rem).spec s) s
/-- RAMOX_MAX (R495). -/
def execRamoxMax (d a b : Reg) (k : BitVec 3) (s : State) : Out := runVector ((⟨Enc.ramoxMax d a b k, 22, d, a, b, k⟩ : Rem).spec s) s
/-- RAMOX_MINU (R495). -/
def execRamoxMinu (d a b : Reg) (k : BitVec 3) (s : State) : Out := runVector ((⟨Enc.ramoxMinu d a b k, 23, d, a, b, k⟩ : Rem).spec s) s
/-- RAMOX_MAXU (R495). -/
def execRamoxMaxu (d a b : Reg) (k : BitVec 3) (s : State) : Out := runVector ((⟨Enc.ramoxMaxu d a b k, 24, d, a, b, k⟩ : Rem).spec s) s
/-- RAMOX_FMIN (R495). -/
def execRamoxFmin (d a b : Reg) (k : BitVec 3) (s : State) : Out := runVector ((⟨Enc.ramoxFmin d a b k, 25, d, a, b, k⟩ : Rem).spec s) s
/-- RAMOX_FMAX (R495). -/
def execRamoxFmax (d a b : Reg) (k : BitVec 3) (s : State) : Out := runVector ((⟨Enc.ramoxFmax d a b k, 26, d, a, b, k⟩ : Rem).spec s) s

/-! ## Responses (R495) -/

/-- A position performed at the target (R495): its value is written where the waiting instruction asks, poisoned if the
word there was (R452), and it is marked. -/
def State.remoteDone (s : State) (feeder : Bool) (p : Nat × Nat) (v : Word) (bad : Bool) : State :=
  let h := s.hart
  if feeder then
    let q := if h.reserved 0 then 0 else 1
    let h1 := h.onReserved q fun t => t.putReads 8 [⟨p, v.toNat, bad, 0⟩]
    { s with hart := { h1 with fm0 := markDone [p] h1.fm0 } }
  else
    match h.vq with
    | [] => s
    | e :: rest =>
      let c := VCfg.of h e
      let d := e.word.toNat / 128 % 32
      let h1 := { h with m := markDone [p] h.m, vq := e.withReads [⟨p, 0, bad, 0⟩] :: rest }
      if e.word.toNat / 2 ^ 26 = 1 then { s with hart := h1 }
      else ({ s with hart := h1 }).putV (elemWr h.v c.g c.b d p.1 p.2 v.toNat)
        (if bad then addPoison (poisonKeys c.g c.b d p.1 p.2) h.poison else h.poison)

/-- The results of a request reach the executing hart. -/
def State.remoteReply (s : State) (q : RemoteReq) (l : List (BitVec 8 × Word × Bool)) : State :=
  (q.positions.zip l).foldl (fun (t : State) r =>
    if r.2.1 = 0 then t.remoteDone q.feeder r.1 r.2.2.1 r.2.2.2
    else { t with hart := { t.hart with remoteBad := t.hart.remoteBad ++ [(remKey q.feeder r.1, r.2.1)] } })
    { s with hart := { s.hart with remote := s.hart.remote.filter (·.id != q.id) } }

/-- REMOTE_RESPONSE (R495): a response whose request is no longer outstanding is discarded. -/
def execRemoteResponse (tag : BitVec 32) (id : Nat) (results : List (BitVec 8 × Word × Bool)) (s : State) : Out :=
  .next (s.asHart tag fun s =>
    match s.hart.remote.find? (·.id == id) with
    | some q => if results.length = q.positions.length then s.remoteReply q results else s
    | none => s)

/-- REMOTE_TIMEOUT (R488, R493): the positions of a request without a response within the budget it was sent under end in
RDOWN. -/
def execRemoteTimeout (tag : BitVec 32) (id : Nat) (s : State) : Out :=
  .next (s.asHart tag fun s =>
    match s.hart.remote.find? (·.id == id) with
    | some q =>
      if (s.hartCycle s.hart - q.sent).toNat < q.budget.toNat then s
      else s.remoteReply q (q.positions.map fun _ => (0x1A, 0, false))
    | none => s)

/-! ## Windows of this package (R492, R493) -/

/-- A window. -/
structure Window where
  vbase : Nat
  limit : Nat
  win : BitVec 8
  die : Nat
  perm : Nat

/-- The window of an id, if there is one. -/
def State.window (s : State) (id : Nat) : Option Window :=
  if s.hub.rwtcnt.toNat ≤ id then none
  else
    let a := baseOf s.hub.rwtbase + 32 * id
    some ⟨s.mem.readLe a 8, s.mem.readLe (a + 8) 8, s.mem.byte (a + 16), s.mem.readLe (a + 17) 1, s.mem.readLe (a + 18) 1⟩

/-- A window as an agent (R492): SV = 0, the walkers of its die; DEVICE pages are refused as to an engine. -/
def Window.agent (w : Window) : Agent where
  die := w.die
  id := none
  ctl := none
  sv := false
  win := w.win
  engine := true
  tag := none
  feeder := false
  op := none
  isWindow := true

/-- Whether a window takes an access of kind `acc` to [offset, offset + n) (R492, R493). -/
def Window.takes (w : Window) (acc offset n : Nat) : Bool :=
  bitAt w.perm 3 && bitAt w.perm acc && decide (offset + n ≤ w.limit) && decide (w.die < 4)

/-- The address of an offset. -/
def Window.addr (w : Window) (offset : Nat) : Word := BitVec.ofNat 64 (w.vbase + offset)

/-- Performs one element of a request at its home: 0, the value it returns and whether its word was uncorrectable, or the
kind of a refusal. Poisoned data poisons what it is written to (R452). None while a link on its way is shut (R472, R481). -/
def State.serveElem (s : State) (w : Option Window) (fn b : Nat) (offset data : Word) (bad : Bool) :
    Option ((BitVec 8 × Word × Bool) × State) :=
  match w with
  | none => some ((0x18, 0, false), s)
  | some w =>
    let acc := if fn = 0 then 0 else if fn = 1 then 1 else 2
    let va := w.addr offset.toNat
    if w.takes acc offset.toNat b = false then some ((0x18, 0, false), s)
    else match s.translate w.agent (.plain acc b) va with
      | .wait _ => none
      | .ok x s1 =>
        let pa := w.agent.readAt x
        let was := s1.isPoisoned pa b
        if fn = 0 then some ((0, BitVec.ofNat 64 (s1.mem.readLe pa b), was), s1)
        else if fn = 1 then some ((0, 0, false), s1.perform w.agent x (toLe b data.toNat) bad)
        else
          let r := s1.rmwAt w.agent x b fun old => some (amoFn (fn - 16) (8 * b) old.toNat (data.toNat % 2 ^ (8 * b)))
          some ((0, r.1, was), if bad then r.2.markPoison pa b true else r.2)
      | .mem f s1 => some ((if s1.refusedDevice w.agent f then 0x18 else 0x19, 0, false), s1)
      | .trap _ _ s1 => some ((0x19, 0, false), s1)

/-- Performs the elements in order. -/
def State.serveAll (s : State) (w : Option Window) (fn b : Nat) :
    List (Word × Word × Bool) → Option (List (BitVec 8 × Word × Bool) × State)
  | [] => some ([], s)
  | x :: r =>
    (s.serveElem w fn b x.1 x.2.1 x.2.2).bind fun y => (y.2.serveAll w fn b r).map fun t => (y.1 :: t.1, t.2)

/-- REMOTE_REQUEST (R492, R493, R496): the accesses are performed in order, each performed or refused, and the response is
sent at once by the route of the request; a request for storage across a shut link waits (R472, R481); a package that takes no
part in the fabric refuses all as RDOWN, and one whose bring-up has failed takes no message (R530). -/
def execRemoteRequest (src : BitVec 16) (id : Nat) (window : BitVec 16) (fn size : Nat) (elems : List (Word × Word × Bool))
    (s : State) : Out :=
  if (fn ≠ 0 ∧ fn ≠ 1 ∧ (fn < 16 ∨ 26 < fn)) ∨ (size ≠ 4 ∧ size ≠ 8) ∨ s.down ∨ s.stuckAtStart then .next s
  else
    let r := if s.hub.fabrank.getLsbD 15 then s.serveAll (s.window window.toNat) fn size elems
      else some (elems.map fun _ => ((0x1A : BitVec 8), (0 : Word), false), s)
    match r with
    | none => .next s
    | some r => .next (r.2.sendBy responsePort s.rank src.toNat
        ⟨.remoteResponse, [src.toNat, id], r.1.flatMap fun x => [x.1.toNat, x.2.1.toNat, x.2.2.toNat]⟩)

end Sys2Proof.Machine
end

