-- ==== Sys2Proof/Machine/Exchange.lean ====
section
/-! DEFINITION. The Weighbridge: posts, the calendar, rounds and the exchange itself (spec/22 R498-R508). -/

namespace Sys2Proof.Machine

/-! ## The calendar (R501, R502) -/

/-- Bytes of one unit. -/
def unitBytes : Nat := 65536

/-- The nodes that hold a member of an index, ascending. -/
def railNodes (t : TableEntry) (k : Nat) : List Nat := (t.members.filter (· % 8 == k)).map (· / 8)

/-- The place of a rank in the members. -/
def TableEntry.index (t : TableEntry) (rank : Nat) : Nat := t.members.idxOf rank

/-- Members of a node, by index, ascending. -/
def TableEntry.ofNode (t : TableEntry) (n : Nat) : List Nat :=
  (List.range t.members.length).filter fun j => t.members.getD j 0 / 8 == n

/-- Units that a member posted toward a node: ⌈bytes / 65,536⌉ (R501); `post` is by member index. -/
def unitsTo (t : TableEntry) (post : List Nat) (n : Nat) : Nat :=
  (sumNat ((t.ofNode n).map fun j => post.getD j 0) + 65535) / unitBytes

/-- The matrix of a rail (R501); `posts` is by member index. -/
def railMatrix (t : TableEntry) (posts : List (List Nat)) (k : Nat) : List (List Nat) :=
  let ns := railNodes t k
  ns.map fun n => ns.map fun m => if n = m then 0 else unitsTo t (posts.getD (t.index (n * 8 + k)) []) m

/-- An entry of a matrix. -/
def entry (a : List (List Nat)) (i j : Nat) : Nat := (a.getD i []).getD j 0
/-- The sum of a row. -/
def rowSum (a : List (List Nat)) (i : Nat) : Nat := sumNat (a.getD i [])
/-- The sum of a column. -/
def colSum (a : List (List Nat)) (j : Nat) : Nat := sumNat (a.map fun r => r.getD j 0)
/-- Adds to an entry. -/
def addEntry (a : List (List Nat)) (i j x : Nat) : List (List Nat) :=
  listSet a i (listSet (a.getD i []) j (entry a i j + x))

/-- D: the largest line sum. -/
def lineMax (a : List (List Nat)) : Nat :=
  (List.range a.length).foldl (fun m i => max m (max (rowSum a i) (colSum a i))) 0

/-- Padding to line sums of D. -/
def padMatrix (a : List (List Nat)) : List (List Nat) :=
  let d := lineMax a
  (List.range a.length).foldl (fun x i => (List.range a.length).foldl (fun y j =>
    addEntry y i j (min (d - rowSum y i) (d - colSum y j))) x) a

/-- The lexicographically smallest permutation over positive entries, from row `i` on; the first number counts rows. -/
def smallestPerm (a : List (List Nat)) : Nat → Nat → List Nat → Option (List Nat)
  | 0, _, _ => some []
  | k + 1, i, used => (List.range a.length).findSome? fun j =>
      if decide (0 < entry a i j) && !used.contains j then (smallestPerm a k (i + 1) (j :: used)).map (j :: ·) else none

/-- The phases of a padded matrix: length and permutation; the number bounds them. -/
def phasesOf : Nat → List (List Nat) → List (Nat × List Nat)
  | 0, _ => []
  | k + 1, a =>
    if a.all fun r => r.all (· == 0) then []
    else match smallestPerm a a.length 0 [] with
      | none => []
      | some p =>
        let len := ((List.range a.length).map fun i => entry a i (p.getD i 0)).foldl min (entry a 0 (p.getD 0 0))
        let rest := a.mapIdx fun i r => listSet r (p.getD i 0) (r.getD (p.getD i 0) 0 - len)
        (len, p) :: phasesOf k rest

/-- The calendar of a rail (R502). -/
def calendar (u : List (List Nat)) : List (Nat × List Nat) := phasesOf (u.length * u.length + 1) (padMatrix u)

/-! ## Posts and their arbitration (R500, R503) -/

/-- The exchange that the low bits of a word name. -/
def State.exchangeOf (s : State) (w : Word) : Option (Nat × TableEntry) :=
  match s.sharedCtx (w.toNat % 65536) with
  | some (.xchg x) => (s.exchange x).map fun t => (x, t)
  | _ => none

/-- The index of this package in an entry. -/
def State.me (s : State) (t : TableEntry) : Nat := t.index s.rank

/-- Bytes posted by member index. -/
def Xchg.byMember (c : Xchg) (t : TableEntry) : List Nat :=
  t.members.map fun r => sumNat ((c.post.filter (·.1 == r)).map (·.2))

/-- The closed post goes to a candidate. -/
def State.sendPost (s : State) (x : Nat) (t : TableEntry) (dest : Nat) : State :=
  let c := s.xchg x
  s.sendTo dest ⟨.post, [x, c.round, s.me t, dest], c.byMember t⟩

/-- Adds bytes toward a rank to a post: a rank that is no member is counted in IGNORED. -/
def Xchg.addPost (c : Xchg) (t : TableEntry) (rank n : Nat) : Xchg :=
  if n = 0 then c
  else if t.members.contains rank then
    { c with post := if c.post.any (·.1 == rank) then c.post.map fun p => if p.1 = rank then (rank, p.2 + n) else p
        else c.post ++ [(rank, n)] }
  else { c with ignored := c.ignored + n }

/-- DPOST with LAST: the post closes and goes to the first candidate, and to those that have asked (R503). -/
def State.closePost (s : State) (x : Nat) (t : TableEntry) : State :=
  let c := s.xchg x
  let now := c.asked.filter fun p => p.1 == c.round
  let s1 := s.setXchg { c with st := .closedR, cand := 0, asked := c.asked.filter fun p => p.1 != c.round }
  now.foldl (fun u p => u.sendPost x t p.2) (s1.sendPost x t (t.arb.headD 0))

/-- The positions and counts of a DPOST: rank and count of each active position. -/
def dpostItems (h : Hart) (c : VCfg) (b : Reg) (k first : Nat) : List (Nat × Nat) :=
  (c.positions.filter fun p => c.active h.m k p.1 p.2).map fun p =>
    (first + p.1 * c.vl + p.2, elemRd h.v c.g 8 b.toNat p.1 p.2)

/-- Whether a DPOST raises ILLOP whatever it posts (R500). -/
def State.dpostBad (s : State) (c : VCfg) (w : Word) : Bool :=
  (s.exchangeOf w).isNone || bitsAt w.toNat 30 28 != 0 || bitsAt w.toNat 63 32 != 0 || c.sew != 3

/-- Whether it does so for an active position: a rank of 4,096 or more, a count above 2^40 (R500). -/
def dpostOver (h : Hart) (c : VCfg) (b : Reg) (k : Nat) (w : Word) : Bool :=
  (dpostItems h c b k (bitsAt w.toNat 27 16)).any fun p => decide (4096 ≤ p.1) || decide (2 ^ 40 < p.2)

/-- DPOST's effect: it waits until the round is OPEN (R500). -/
def dpostRun (word : Nat) (b : Reg) (k : BitVec 3) (e : VEntry) (s : State) : VRes :=
  let c := VCfg.of s.hart e
  let w := e.ops.getD 0 0
  if s.dpostBad c w || dpostOver s.hart c b k.toNat w then .trap .illop (wordVal word) s
  else match s.exchangeOf w with
    | none => .trap .illop (wordVal word) s
    | some (x, t) =>
      let y := s.xchg x
      if y.st ≠ .openR then .wait e s
      else
        let y1 := (dpostItems s.hart c b k.toNat (bitsAt w.toNat 27 16)).foldl (fun (y : Xchg) p => y.addPost t p.1 p.2) y
        let s1 := s.setXchg y1
        (if bitAt w.toNat 31 then s1.closePost x t else s1).vdone

/-- DPOST (R500). -/
def execDpost (a b : Reg) (k : BitVec 3) (s : State) : Out :=
  runVector
    { word := Enc.dpost a b k, qword := Enc.dpost a b k, size := 4, pfx := .never, dst := fun _ => none
      srcs := fun l => [(b.toNat, l)], bank := none, gs := [a], lastd := .none
      check := fun _ c ops => illopIf (Enc.dpost a b k) (s.dpostBad c (ops.getD 0 0))
      ready := fun s => s.hart.indexReady [(b.toNat, vtypeLmul s.st.vtype)] (s.st.maskFields k)
      late := fun h c ops => illopIf (Enc.dpost a b k) (dpostOver h c b k.toNat (ops.getD 0 0))
      run := dpostRun (Enc.dpost a b k) b k } s

/-- POST_REQUEST (R503): the post is sent once it is closed; a request for a round that is not open yet is kept. -/
def execPostRequest (x round candidate : Nat) (s : State) : Out :=
  match s.exchange x with
  | none => .next s
  | some t =>
    let c := s.xchg x
    if round < c.round then .next s
    else if c.round < round ∨ c.st = .openR then
      .next (s.setXchg { c with asked := c.asked.filter (· != (round, candidate)) ++ [(round, candidate)] })
    else .next (s.sendPost x t candidate)

/-- The posts that a candidate holds of a round, by member index; none while one is missing. -/
def heldPosts (t : TableEntry) (held : List (Nat × Nat × List Nat)) (round : Nat) : Option (List (List Nat)) :=
  (List.range t.members.length).mapM fun j => (held.find? fun h => h.1 == round && h.2.1 == j).map (·.2.2)

/-- Sends every member the calendar of its rail and the bytes posted toward it (R503). -/
def State.sendCalendars (s : State) (x round : Nat) (t : TableEntry) (posts : List (List Nat)) : State :=
  t.members.foldl (fun u r =>
    let ph := calendar (railMatrix t posts (r % 8))
    u.sendTo r ⟨.calendar, [x, round, r, ph.length], ph.flatMap (fun p => p.1 :: p.2) ++ posts.map fun p => p.getD (t.index r) 0⟩) s

/-- POST_RECEIVE (R503): a candidate keeps a closed post, asks every member when the round is new to it, and sends the
calendar once it holds all. -/
def execPostReceive (x round member : Nat) (bytes : List Nat) (s : State) : Out :=
  match s.exchange x with
  | none => .next s
  | some t =>
    let c := s.xchg x
    if t.members.length ≤ member ∨ bytes.length ≠ t.members.length ∨ !t.arb.contains s.rank
        ∨ c.held.any (fun h => h.1 == round && h.2.1 == member) then .next s
    else
      let s1 := if c.held.any (·.1 == round) then s
        else t.members.foldl (fun u r => u.sendTo r ⟨.postRequest, [x, round, r], []⟩) s
      let held := c.held ++ [(round, member, bytes)]
      let s2 := s1.setXchg { c with held := held }
      .next (match heldPosts t held round with
        | some posts => s2.sendCalendars x round t posts
        | none => s2)

/-- CALENDAR_RECEIVE (R503): the first calendar of a closed round grants it. -/
def execCalendarReceive (x round : Nat) (phases : List (Nat × List Nat)) (posted : List Nat) (s : State) : Out :=
  let c := s.xchg x
  if (s.exchange x).isNone ∨ c.round ≠ round ∨ c.st ≠ .closedR then .next s
  else .next (s.setXchg { c with st := .grantedR, phases := phases, posted := posted })

/-- The next valid candidate after one. -/
def nextCand (arb : List Nat) (i : Nat) : Option Nat :=
  (List.range 4).find? fun j => decide (i < j) && arb.getD j 0xFFFF != 0xFFFF

/-- ARBITER_TIMEOUT (R503): the post goes to the next candidate; after the last the round is GRANTED as failed. -/
def execArbiterTimeout (x round : Nat) (s : State) : Out :=
  match s.exchange x with
  | none => .next s
  | some t =>
    let c := s.xchg x
    if c.round ≠ round ∨ c.st ≠ .closedR then .next s
    else match nextCand t.arb c.cand with
      | some j => .next ((s.setXchg { c with cand := j }).sendPost x t (t.arb.getD j 0))
      | none => .next (s.setXchg { c with st := .grantedR, failed := true })

/-- DGRANT (R503). -/
def execDgrant (d a : Reg) (s : State) : Out :=
  runScalar ⟨Enc.dgrant d a, 4, .never, false, false, [d, a]⟩
    (fun s =>
      match s.exchangeOf (s.rd a) with
      | none => .trap .illop (wordVal (Enc.dgrant d a)) s
      | some (x, _) =>
        let c := s.xchg x
        if c.st ≠ .grantedR then .wait s
        else
          let n := s.field 16 c.phases.length
          let l := n.2.field 32 (sumNat (c.phases.map (·.1)))
          .ok () (l.2.finishG (Enc.dgrant d a) 4 d (BitVec.ofNat 64 (c.failed.toNat * 2 ^ 63 + n.1 * 2 ^ 32 + l.1)))) s

/-! ## The exchange (R505, R506) -/

/-- What a running exchange works with. -/
structure XEnv where
  x : Nat
  t : TableEntry
  me : Nat
  rank : Nat
  op : Op
  a : Agent
  desc : Word
  sendBase : Word
  recvBase : Word

/-- The place of this package's node on its rail. -/
def XEnv.pos (v : XEnv) : Nat := (railNodes v.t (v.rank % 8)).idxOf (v.rank / 8)
/-- The member of this package's index at a place on the rail. -/
def XEnv.at_ (v : XEnv) (i : Nat) : Nat := v.t.index ((railNodes v.t (v.rank % 8)).getD i 0 * 8 + v.rank % 8)

/-- dst(p). -/
def XEnv.dst (v : XEnv) (c : Xchg) (p : Nat) : Option Nat :=
  let g := (c.phases.getD p (0, [])).2
  let j := g.getD v.pos v.pos
  if j = v.pos then none else some (v.at_ j)
/-- src(p). -/
def XEnv.src (v : XEnv) (c : Xchg) (p : Nat) : Option Nat :=
  let g := (c.phases.getD p (0, [])).2
  let i := g.idxOf v.pos
  if i = v.pos ∨ g.length ≤ i then none else some (v.at_ i)

/-- Real units of this package's entry in phase `p`: real units are used before dummy (R502). -/
def XEnv.real (v : XEnv) (c : Xchg) (p : Nat) : Nat :=
  match v.dst c p with
  | none => 0
  | some d =>
    let u := unitsTo v.t (c.byMember v.t) (v.t.members.getD d 0 / 8)
    let before := sumNat ((List.range p).map fun q => if v.dst c q = some d then (c.phases.getD q (0, [])).1 else 0)
    min (c.phases.getD p (0, [])).1 (u - min u before)

/-- The next `n` bytes for a member, and the counts after. -/
def XEnv.take (v : XEnv) (r : XRunState) (j n : Nat) (s : State) : Res (List EByte × XRunState) :=
  let off := (r.sends.getD j (0, 0)).1 + r.sent.getD j 0
  (s.eread v.a (v.sendBase + BitVec.ofNat 64 off) n).bind fun l s1 =>
    .ok (l, { r with sent := listSet r.sent j (r.sent.getD j 0 + n) }) s1

/-- The parts of a segment toward members of one node (R505). -/
def XEnv.parts (v : XEnv) (c : Xchg) (p : Nat) : List Nat → XRunState → State → Res (List (Nat × List EByte) × XRunState)
  | [], r, s => .ok ([], r) s
  | j :: js, r, s =>
    let sent := r.sent.getD j 0
    let n := min (unitBytes * v.real c p) (min ((c.byMember v.t).getD j 0 - sent) ((r.sends.getD j (0, 0)).2 - sent))
    (v.take r j n s).bind fun b s1 =>
      (v.parts c p js b.2 s1).bind fun rest s2 => .ok ((j, b.1) :: rest.1, rest.2) s2

/-- Bytes as they leave and arrive: bit 8 marks one of a poisoned word (R452). -/
def ofEBytes (l : List EByte) : List Nat := l.map fun b => b.1.toNat + 256 * b.2.toNat
/-- See `ofEBytes`. -/
def toEBytes (l : List (BitVec 9)) : List EByte := l.map fun b => (b.setWidth 8, b.getLsbD 8)

/-- A message as this package to a member. -/
def XEnv.post (v : XEnv) (dest : Nat) (m : Msg) (s : State) : State := s.sendBy routePort v.rank (v.t.members.getD dest 0) m

/-- A message of a round to a member: its numbers start with the exchange, the round, the phase, the sender and the
receiver. -/
def XEnv.tell (v : XEnv) (c : Xchg) (k : MsgKind) (p dest : Nat) (more : List Nat) (data : List Nat) (s : State) : State :=
  v.post dest ⟨k, [v.x, c.round, p, v.me, dest] ++ more, data⟩ s

/-- The send side (R505): phases while READY has come; the number bounds them. -/
def XEnv.sendPhases (v : XEnv) (c : Xchg) : Nat → XRunState → State → Res XRunState
  | 0, r, s => .ok r s
  | k + 1, r, s =>
    let p := r.sendPhase
    if c.phases.length ≤ p then .ok r s
    else match v.dst c p with
      | none => v.sendPhases c k { r with sendPhase := p + 1 } s
      | some d =>
        if !c.readys.contains (p, d) then .ok r s
        else (v.parts c p (v.t.ofNode (v.t.members.getD d 0 / 8)) r s).bind fun x s1 =>
          let s2 := x.1.foldl (fun u y => if y.2 = [] then u else v.tell c .segment p d [y.1] (ofEBytes y.2) u) s1
          let ends := x.1.map fun y => if (x.2.sends.getD y.1 (0, 0)).2 ≤ x.2.sent.getD y.1 0 then 1 else 0
          v.sendPhases c k { x.2 with sendPhase := p + 1 }
            (v.tell c .mark p d [] ((x.1.zip ends).flatMap fun y => [y.1.1, y.1.2.length, y.2]) s2)

/-- All that is left for members, in order, as messages of a kind (R505, R506). -/
def XEnv.sendRest (v : XEnv) (c : Xchg) (k : MsgKind) : List Nat → XRunState → State → Res XRunState
  | [], r, s => .ok r s
  | j :: js, r, s =>
    let n := (r.sends.getD j (0, 0)).2 - r.sent.getD j 0
    if n = 0 then v.sendRest c k js r s
    else (v.take r j n s).bind fun b s1 =>
      let r1 := if k = .spill then { b.2 with spillSent := b.2.spillSent + n } else b.2
      v.sendRest c k js r1 (v.tell c k c.phases.length j [] (ofEBytes b.1) s1)

/-- The receive side (R505): phases whose mark has come; the number bounds them. -/
def XEnv.recvPhases (v : XEnv) (c : Xchg) : Nat → XRunState → State → XRunState × State
  | 0, r, s => (r, s)
  | k + 1, r, s =>
    let p := r.recvPhase
    if c.phases.length ≤ p ∨ (v.src c p).any (fun q => !r.marks.contains (p, q)) then (r, s)
    else
      let s1 := match (if p + 1 < c.phases.length then v.src c (p + 1) else none) with
        | some q => v.tell c .ready (p + 1) q [] [] s
        | none => s
      v.recvPhases c k { r with recvPhase := p + 1 } s1

/-- Places bytes that arrive from a member, in arrival order, up to its receive capacity (R505, R506). -/
def XEnv.place (v : XEnv) (r : XRunState) (j : Nat) (bytes : List EByte) (s : State) : Res XRunState :=
  let lo := r.recvs.getD j 0
  let cap := r.recvs.getD (j + 1) 0 - lo
  let old := r.arrived.getD j 0
  let fit := if r.detail = 0 then bytes.take (cap - old) else []
  let drop := if r.detail = 0 then bytes.length - fit.length else 0
  let r1 := { r with arrived := listSet r.arrived j (old + bytes.length), overflow := r.overflow + drop }
  if fit = [] then .ok r1 s
  else (s.ewrite v.a (v.recvBase + BitVec.ofNat 64 (lo + old)) fit).bind fun _ s1 => .ok r1 s1

/-- The exchange ends: STATUS is written and the operation's accesses are performed. -/
def XEnv.finish (v : XEnv) (c : Xchg) (r : XRunState) (code detail : Nat) (s : State) : Res Unit :=
  (s.ewrite v.a v.desc (cleanLe 8 (code + detail * 2 ^ 32))).bind fun _ s1 =>
    .ok () ((s1.setXchg { c with run := some { r with ended := some code } }).setOp { v.op with stage := .performed })

/-- Goes on with a running exchange as far as what has arrived allows. -/
def XEnv.go (v : XEnv) (r0 : XRunState) (s0 : State) : Res Unit :=
  let c := s0.xchg v.x
  let n := c.phases.length
  let y := v.recvPhases c (n + 1) r0 s0
  (v.sendPhases c (n + 1) y.1 y.2).bind fun r s =>
    if r.sendPhase < n then .ok () (s.setXchg { c with run := some r })
    else
      let others := (List.range v.t.members.length).filter (· != v.me)
      (if r.finalsSent then .ok r s
        else (v.sendRest c .spill others r s).bind fun r1 s1 =>
          .ok { r1 with finalsSent := true } (others.foldl (fun u j => v.tell c .final n j [r1.sent.getD j 0] [] u) s1)).bind fun r s =>
        if others.all fun j => match c.finals.find? (·.1 == j) with
            | some f => decide (f.2 ≤ r.arrived.getD j 0) && decide (r.sent.getD j 0 ≤ r.acked.getD j 0)
            | none => false then
          v.finish c r (if r.detail = 0 then 0 else 2) r.detail s
        else .ok () (s.setXchg { c with run := some r })

/-- A list that does not fall. -/
def rising : List Nat → Bool
  | a :: b :: r => decide (a ≤ b) && rising (b :: r)
  | _ => true

/-- The exchange starts: its tables, its own entry, the members of its own node (R504, R505). Where the descriptor and its
tables are malformed in several of the three ways, DETAIL is 40, else 32, else 16 (DESIGN CHOICE, log 29). -/
def XEnv.start (v : XEnv) (sendTab recvTab : Word) (malformed : Nat) (s0 : State) : Res Unit :=
  let c := s0.xchg v.x
  let m := v.t.members.length
  let zero := List.replicate m 0
  let r0 : XRunState :=
    { op := v.op.id, sends := [], recvs := [], detail := 0, sendPhase := 0, recvPhase := 0, marks := [], sent := zero
      acked := zero, arrived := zero, spillSent := 0, spillRecv := 0, overflow := 0, finalsSent := false, ended := none }
  if c.failed then v.finish c r0 9 0 s0
  else
    (s0.enums v.a sendTab 8 (2 * m)).bind fun st s =>
    (s.enums v.a recvTab 8 (m + 1)).bind fun rt s =>
      let tab := (List.range m).map fun j => (st.getD (2 * j) 0, st.getD (2 * j + 1) 0)
      let detail := if malformed ≠ 0 then malformed else if rising rt = false then 32
        else if tab.any (fun e => decide (2 ^ 64 < v.sendBase.toNat + e.1 + e.2)) then 16 else 0
      let r : XRunState := { r0 with sends := if detail = 0 then tab else tab.map (fun e => (e.1, 0)), recvs := rt, detail := detail }
      (v.take r v.me (r.sends.getD v.me (0, 0)).2 s).bind fun b s =>
      (v.place b.2 v.me b.1 s).bind fun r1 s =>
      (v.sendRest c .segment ((v.t.ofNode (v.rank / 8)).filter (· != v.me)) r1 s).bind fun r2 s =>
        v.go r2 s

/-- What an exchange's operation works with: the members and the rank that it was accepted with (R488). -/
def Op.xenv (o : Op) (x : Nat) : Option XEnv :=
  match o.fab, o.kind with
  | some (ms, rank), .xrun desc sb _ rb _ _ =>
    let t : TableEntry := ⟨ms, []⟩
    some ⟨x, t, t.index rank, rank, o, o.agent o.die, desc, sb, rb⟩
  | _, _ => none

/-- The entry of an exchange: that of its running operation, else that of the table. -/
def State.xentry (s : State) (x : Nat) : Option TableEntry :=
  match (s.ops.find? (·.ctx == .xchg x)).bind (·.fab) with
  | some f => some ⟨f.1, []⟩
  | none => s.exchange x

/-! ## XRUN (R504) -/

/-- READY(0) leaves at the acceptance of an XRUN (R505, R520). -/
def State.firstReady (s : State) (x id : Nat) : State :=
  let c := s.xchg x
  match (s.op id).bind fun o => o.xenv x with
  | none => s
  | some v => match (if c.phases = [] then none else v.src c 0) with
    | some q => v.tell c .ready 0 q [] [] s
    | none => s

/-- XRUN up to acceptance: the round becomes RUNNING. -/
def execXrun (d a b : Reg) (s : State) : Out :=
  let word := Enc.xrun d a b
  runScalar ⟨word, 4, .never, false, false, [d, a, b]⟩
    (fun s0 =>
      match s0.exchangeOf (s0.rd a) with
      | none => .trap .illop (wordVal word) s0
      | some (x, _) =>
        if (s0.xchg x).st ≠ .grantedR then .trap .illop (wordVal word) s0
        else if (s0.rd b).toNat % 64 ≠ 0 then .trap .misalign (s0.rd b) s0
        else s0.withWords word (s0.rd b) 8 fun w s =>
          let bad := w.getD 5 0 != 0 || w.getD 6 0 != 0 || w.getD 7 0 != 0
          (s.accept word (.xchg x)
            (.xrun (s.rd b) (w.getD 1 0) (w.getD 2 0) (w.getD 3 0) (w.getD 4 0) (if bad then 40 else 0)) d none).bind fun _ s1 =>
            .ok () ((s1.setXchg { (s1.xchg x) with st := .runningR }).firstReady x s.nextOp)) s

/-- An XRUN's operation starts, or goes on after a fault. -/
def xrunPerform (o : Op) (s : State) : Res Unit :=
  match o.ctx, o.kind with
  | .xchg x, .xrun _ _ st _ rt bad =>
    match o.xenv x with
    | none => .ok () (s.setOp { o with stage := .performed })
    | some v => match (s.xchg x).run with
      | some r => v.go r s
      | none => v.start st rt bad s
  | _, _ => .ok () s

/-- The running exchange `x` of a round, with its operation; none while it does not run. -/
def State.running (s : State) (x round : Nat) : Option (XEnv × XRunState) :=
  let c := s.xchg x
  match c.run with
  | none => none
  | some r =>
    match s.op r.op with
    | none => none
    | some o =>
      if c.round = round ∧ r.ended = none ∧ o.stage = .accepted then (o.xenv x).map fun v => (v, r) else none

/-- The outcome of an exchange's work: a fault stops the operation, and nothing of the work stands (R351). -/
def State.orStop (s : State) (o : Op) (r : Res Unit) : State :=
  match r with
  | .ok _ s1 => s1.mergeByOp s.ingress.length o.id
  | .mem f _ => s.stopOp o f
  | .trap _ _ _ | .wait _ => s

/-- Goes on with an exchange if it runs. -/
def State.drive (s : State) (x round : Nat) : State :=
  match s.running x round with
  | none => s
  | some (v, r) => s.orStop v.op (v.go r s)

/-- READY_RECEIVE (R505, R520): a mark counts as its sender's alone. -/
def execReadyReceive (x round phase src : Nat) (s : State) : Out :=
  let c := s.xchg x
  if (s.xentry x).isNone ∨ c.round ≠ round ∨ 4096 ≤ src then .next s
  else .next ((s.setXchg { c with readys := c.readys.filter (· != (phase, src)) ++ [(phase, src)] }).drive x round)

/-- Bytes that arrive from a member are acknowledged to it (R506). -/
def XEnv.ack (v : XEnv) (c : Xchg) (src n : Nat) (s : State) : State :=
  if n = 0 then s else v.post src ⟨.exchangeAck, [v.x, c.round, v.me, src, n], []⟩ s

/-- Bytes that arrive: those for this member are placed, the others go on to their members (R489, R505). -/
def XEnv.arrive (v : XEnv) (c : Xchg) (phase src : Nat) : List (Nat × List (BitVec 9)) → XRunState → State → Res XRunState
  | [], r, s => .ok r s
  | (j, b) :: l, r, s =>
    if j = v.me then (v.place r src (toEBytes b) s).bind fun r1 s1 => v.arrive c phase src l r1 (v.ack c src b.length s1)
    else v.arrive c phase src l r (v.post j ⟨.segment, [v.x, c.round, phase, src, j], b.map (·.toNat)⟩ s)

/-- SEGMENT_RECEIVE (R505): a segment waits until the exchange runs. -/
def execSegmentReceive (x round phase src : Nat) (bytes : List (Nat × List (BitVec 9))) (mark : Bool) (s : State) : Out :=
  match s.running x round with
  | none => .next s
  | some (v, r) =>
    if v.t.members.length ≤ src then .next s
    else .next (s.orStop v.op ((v.arrive (s.xchg x) phase src bytes r s).bind fun r1 s1 =>
      v.go { r1 with marks := if mark then (phase, src) :: r1.marks else r1.marks } s1))

/-- SPILL_RECEIVE (R506). -/
def execSpillReceive (x round src : Nat) (bytes : List (BitVec 9)) (s : State) : Out :=
  match s.running x round with
  | none => .next s
  | some (v, r) =>
    if v.t.members.length ≤ src then .next s
    else .next (s.orStop v.op ((v.place { r with spillRecv := r.spillRecv + bytes.length } src (toEBytes bytes) s).bind fun r1 s1 =>
      v.go r1 (v.ack (s.xchg x) src bytes.length s1)))

/-- FINAL_RECEIVE (R506): a FINAL mark with its total, an acknowledgement of bytes that the running exchange has sent to
the member, or both. -/
def execFinalReceive (x round src : Nat) (total : Option Nat) (acked : Nat) (s : State) : Out :=
  match s.xentry x with
  | none => .next s
  | some t =>
    let c := s.xchg x
    let new := total.isSome && !c.finals.any (·.1 == src)
    if c.round ≠ round ∨ t.members.length ≤ src ∨ (new = false ∧ c.run = none) then .next s
    else .next ((s.setXchg
      { c with finals := c.finals ++ (if new then [(src, total.getD 0)] else [])
               run := c.run.map fun r => { r with acked := listSet r.acked src (r.acked.getD src 0 + acked) } }).drive x round)

/-- EXCHANGE_TIMEOUT (R506): an exchange that waits for a mark past XBUDGET ends as FAILED. -/
def execExchangeTimeout (x round : Nat) (s : State) : Out :=
  match s.running x round with
  | none => .next s
  | some (v, r) => .next (s.orStop v.op (v.finish (s.xchg x) r 9 0 s))

/-! ## XSTAT (R508) -/

/-- The words of KIND 2. -/
def XReport.summary (r : XReport) : List Nat :=
  [r.status, r.round, r.spillSent, r.spillRecv, sumNat ((r.posted.zip r.recv).map fun x => x.1 - x.2), r.overflow, r.ignored, r.length]

/-- A position's value. -/
def xstatValue (c : Xchg) (m kind first vl row e : Nat) : Nat :=
  match c.last with
  | none => 0
  | some r =>
    let j := first + row * vl + e
    match kind with
    | 0 => if j < m then r.recv.getD j 0 else 0
    | 1 => if j < m then r.posted.getD j 0 else 0
    | _ => if row = 0 then r.summary.getD e 0 else 0

/-- Whether an XSTAT raises ILLOP. -/
def State.xstatBad (s : State) (c : VCfg) (ops : List Word) : Bool :=
  let w := (ops.getD 0 0).toNat
  c.sew != 3 || w % 4 == 3 || w - (w % 4 + bitsAt w 27 16 * 65536) != 0 || (s.exchangeOf (ops.getD 1 0)).isNone

/-- XSTAT's effect. -/
def xstatRun (word : Nat) (d : Reg) (k : BitVec 3) (e : VEntry) (s : State) : VRes :=
  let c := VCfg.of s.hart e
  if s.xstatBad c e.ops then .trap .illop (wordVal word) s
  else match s.exchangeOf (e.ops.getD 1 0) with
    | none => .trap .illop (wordVal word) s
    | some (x, t) =>
      let w := (e.ops.getD 0 0).toNat
      let m := s.hart.m
      (s.mapWrite c (fun r j => c.active m k.toNat r j) ⟨d.toNat, 8, c.lmul⟩ [] (c.maskRegs k.toNat) none
        fun r j => xstatValue (s.xchg x) t.members.length (w % 4) (bitsAt w 27 16) c.vl r j).vdone

/-- XSTAT (R508). -/
def execXstat (d a b : Reg) (k : BitVec 3) (s : State) : Out :=
  runVector
    { word := Enc.xstat d a b k, qword := Enc.xstat d a b k, size := 4, pfx := .never, dst := fun l => some (d.toNat, l)
      srcs := fun _ => [], bank := none, gs := [b, a], lastd := .v d
      check := fun _ c ops => if s.xstatBad c ops then some (.illop, wordVal (Enc.xstat d a b k)) else none
      run := xstatRun (Enc.xstat d a b k) d k } s

end Sys2Proof.Machine
end

