-- ==== Sys2Proof/Machine/Coll.lean ====
section
/-! DEFINITION. The collectives: reductions, broadcasts, gathers and barriers over the tree of a group
(spec/22 R509-R514). -/

namespace Sys2Proof.Machine

/-! ## Acceptance (R509, R510) -/

/-- The group that the low bits of a word name. -/
def State.groupOf (s : State) (w : Word) : Option (Nat × TableEntry) :=
  match s.sharedCtx (w.toNat % 65536) with
  | some (.coll g) => (s.collective g).map fun t => (g, t)
  | _ => none

/-- Bytes of an element of CRED. -/
def credBytes (kind : Nat) : Nat := if kind = 3 then 4 else 8

/-- Accepts a call: the operation, and SEQ moves on. -/
def State.acceptColl (s : State) (word g : Nat) (k : OpKind) (d : Reg) : Res Unit :=
  (s.accept word (.coll g) k d none).bind fun _ s1 => .ok () (s1.setColl { (s1.coll g) with seq := (s1.coll g).seq + 1 })

/-- A call with a descriptor: ILLOP when the id names no group; `f` gives the operation, or none for ILLOP, and the
addresses to check with their alignment. -/
def collCall (word : Nat) (d a b : Reg) (f : TableEntry → List Word → Option (OpKind × List (Word × Nat))) (s : State) : Out :=
  runScalar ⟨word, 4, .never, false, false, [d, a, b]⟩
    (fun s =>
      match s.groupOf (s.rd a) with
      | none => .trap .illop (wordVal word) s
      | some (g, t) => s.withDesc word (s.rd b) fun w s1 =>
        match f t w with
        | none => .trap .illop (wordVal word) s1
        | some (k, al) => match al.find? fun x => x.1.toNat % x.2 != 0 with
          | some x => .trap .misalign x.1 s1
          | none => s1.acceptColl word g k d) s

/-- CRED (R510, R512). -/
def execCred (d a b k : Reg) (s : State) : Out :=
  let n := credBytes k.toNat
  collCall (Enc.cred d a b k) d a b (fun _ w =>
    let count := (w.getD 3 0).toNat
    if 2 ^ 24 < count then none
    else some (.coll 0 k.toNat (s.rd b) (w.getD 1 0) (w.getD 2 0) count 0, [(w.getD 1 0, n), (w.getD 2 0, n)])) s

/-- CBCAST (R510, R513). -/
def execCbcast (d a b : Reg) (s : State) : Out :=
  collCall (Enc.cbcast d a b) d a b (fun t w =>
    let count := (w.getD 2 0).toNat
    let root := (w.getD 3 0).toNat
    if 2 ^ 32 < count ∨ t.members.length ≤ root then none
    else some (.coll 1 0 (s.rd b) (w.getD 1 0) (w.getD 1 0) count root, [])) s

/-- CGATH (R510, R513). -/
def execCgath (d a b : Reg) (s : State) : Out :=
  collCall (Enc.cgath d a b) d a b (fun _ w =>
    let count := (w.getD 3 0).toNat
    if 2 ^ 32 ≤ count then none
    else some (.coll 2 0 (s.rd b) (w.getD 1 0) (w.getD 2 0) count 0, [])) s

/-- CBAR (R513). -/
def execCbar (d a : Reg) (s : State) : Out :=
  let word := Enc.cbar d a
  runScalar ⟨word, 4, .never, false, false, [d, a]⟩
    (fun s =>
      match s.groupOf (s.rd a) with
      | none => .trap .illop (wordVal word) s
      | some (g, _) => s.acceptColl word g (.coll 3 0 0 0 0 0 0) d) s

/-- CSTAT (R513). -/
def execCstat (d a : Reg) (s : State) : Out :=
  let word := Enc.cstat d a
  runScalar ⟨word, 4, .never, false, false, [d, a]⟩
    (fun s =>
      match s.groupOf (s.rd a) with
      | none => .trap .illop (wordVal word) s
      | some (g, _) =>
        let c := s.coll g
        .ok () (s.finishG word 4 d (BitVec.ofNat 64 (c.seq.toNat * 2 ^ 32 + c.status.toNat)))) s

/-! ## Values on the tree (R512) -/

/-- A value as it travels: bits, a byte with its member, or a multiple of 2^-1074 with a special state; and whether it is
poisoned (R452). -/
abbrev CollVal := Int × Nat × Bool

/-- The number of a special state on the tree. -/
def Special.num : Special → Nat
  | .none => 0
  | .nan => 1
  | .pinf => 2
  | .ninf => 3
  | .both => 4

/-- The special state of a number. -/
def Special.ofNum (n : Nat) : Special :=
  match n with
  | 0 => .none
  | 1 => .nan
  | 2 => .pinf
  | 3 => .ninf
  | _ => .both

/-- The special state of two accumulators together (R130). -/
def joinStates (a b : Special) : Special :=
  match b with
  | .none => a
  | .nan => (joinSpecial a none).1
  | .pinf => (joinSpecial a (some false)).1
  | .ninf => (joinSpecial a (some true)).1
  | .both => (joinSpecial (joinSpecial a (some false)).1 (some true)).1

/-- A member's own element as it enters the tree. -/
def collLeaf (kind x : Nat) (bad : Bool) : CollVal :=
  if kind = 2 then
    match fmtF64.read x with
    | .fin n m e => ((if n then -1 else 1) * ((m * 2 ^ (e + 1074).toNat : Nat) : Int), 0, bad)
    | v => (0, (specialTerm .none v).1.num, bad)
  else ((x : Int), 0, bad)

/-- combine (R512); what depends on a poisoned value is poisoned (R452). -/
def collCombine (kind : Nat) (a b : CollVal) : CollVal :=
  let x := a.1.toNat
  let y := b.1.toNat
  let bad := a.2.2 || b.2.2
  match kind with
  | 0 => (((x + y) % 2 ^ 64 : Nat), 0, bad)
  | 1 => ((fmtF64.add .rne x y).1, 0, bad)
  | 2 => (a.1 + b.1, (joinStates (Special.ofNum a.2.1) (Special.ofNum b.2.1)).num, bad)
  | 3 => ((fmtF32.add .rne x y).1, 0, bad)
  | 4 => ((fmtF64.minmax false x y).1, 0, bad)
  | 5 => ((fmtF64.minmax true x y).1, 0, bad)
  | 6 => ((if sextN 64 y < sextN 64 x then b else a).1, 0, bad)
  | _ => ((if sextN 64 x < sextN 64 y then b else a).1, 0, bad)

/-- The root's readout of an element: the .x64 accumulator is rounded once, RNE (R133). -/
def collReadout (kind : Nat) (v : CollVal) : CollVal :=
  if kind = 2 then ((fmtF64.readout .rne (Special.ofNum v.2.1) v.1 (-1074)).1, 0, v.2.2) else v

/-! ## A call under way -/

/-- What a call works with. -/
structure CEnv where
  g : Nat
  members : List Nat
  rank : Nat
  m : Nat
  me : Nat
  o : Op
  op : Nat
  kind : Nat
  desc : Word
  src : Word
  dst : Word
  count : Nat
  root : Nat

/-- The SEQ of an operation: the calls of a group are numbered with its timeline (R510). -/
def CEnv.seq (v : CEnv) : BitVec 32 := BitVec.ofNat 32 (v.o.num - 1)

/-- The children of this member (R512). -/
def CEnv.children (v : CEnv) : List Nat := [2 * v.me + 1, 2 * v.me + 2].filter (· < v.m)
/-- Its tree neighbours. -/
def CEnv.neighbours (v : CEnv) : List Nat := (if v.me = 0 then [] else [(v.me - 1) / 2]) ++ v.children

/-- What a call of the group works with: the members and the rank that it was accepted with (R488). -/
def Op.cenv (o : Op) (g : Nat) : Option CEnv :=
  match o.fab, o.kind with
  | some (ms, rank), .coll op kind desc src dst count root =>
    some ⟨g, ms, rank, ms.length, ms.idxOf rank, o, op, kind, desc, src, dst, count, root⟩
  | _, _ => none

/-- A message as this package to a member. -/
def CEnv.post (v : CEnv) (dest : Nat) (m : Msg) (s : State) : State := s.sendBy routePort v.rank (v.members.getD dest 0) m

/-- A packet of the call to a neighbour. -/
def CEnv.tell (v : CEnv) (phase : Nat) (payload : List CollVal) (s : State) (dest : Nat) : State :=
  v.post dest ⟨.collPacket, [v.g, v.me, dest, v.seq.toNat, v.op, v.kind, v.count, v.root, phase]
    ++ payload.map (fun x => 2 * x.2.1 + x.2.2.toNat), payload.map fun x => (x.1.natAbs * 2 + (if x.1 < 0 then 1 else 0))⟩ s

/-- An abort of the call to its neighbours (R511, R514). -/
def CEnv.abort (v : CEnv) (mismatch : Bool) (s : State) : State :=
  v.neighbours.foldl (fun u j => v.post j ⟨.collAbort, [v.g, v.me, j, v.seq.toNat, mismatch.toNat], []⟩ u) s

/-- The call ends with a status code, which CSTAT reports once its writes are complete (R513); of one that has FAILED, packets
that come late are discarded. -/
def CEnv.finish (v : CEnv) (code : Nat) (s : State) : Res Unit :=
  (if v.op = 3 then .ok () s else s.ewrite (v.o.agent v.o.die) v.desc (cleanLe 8 code)).bind fun _ s1 =>
    let c := s1.coll v.g
    let late := if code = 9 then c.failed ++ [v.seq] else c.failed
    .ok () ((s1.setColl { c with cur := none, sent := 0, got := c.got.filter (·.seq != v.seq), failed := late }).setOp
      { v.o with stage := .performed, code := code })

/-- The values that this member adds: its elements, the root's bytes, its own bytes with its index. -/
def CEnv.own (v : CEnv) (s : State) : Res (List CollVal) :=
  let a := v.o.agent v.o.die
  match v.op with
  | 0 => (s.eread a v.src (credBytes v.kind * v.count)).bind fun l s1 =>
      .ok ((records (credBytes v.kind) v.count l).map fun b => collLeaf v.kind (leNat (b.map (·.1))) (b.any (·.2))) s1
  | 1 => if v.me = v.root then (s.eread a v.src v.count).bind fun l s1 => .ok (l.map fun b => ((b.1.toNat : Int), 0, b.2)) s1 else .ok [] s
  | 2 => (s.eread a v.src v.count).bind fun l s1 => .ok (l.map fun b => ((b.1.toNat : Int), v.me, b.2)) s1
  | _ => .ok [] s

/-- The values of a subtree: this member's with each child's in turn. -/
def CEnv.join (v : CEnv) (x y : List CollVal) : List CollVal :=
  match v.op with
  | 0 => (x.zip y).map fun p => collCombine v.kind p.1 p.2
  | _ => x ++ y

/-- The bytes of values of `n` bytes. -/
def collBytes (n : Nat) (l : List CollVal) : List EByte := l.flatMap fun x => (toLe n x.1.toNat).map fun b => (b, x.2.2)

/-- Writes the whole result to its destination. -/
def CEnv.write (v : CEnv) (r : List CollVal) (s : State) : Res Unit :=
  let a := v.o.agent v.o.die
  match v.op with
  | 0 => s.ewrite a v.dst (collBytes (credBytes v.kind) r)
  | 1 => s.ewrite a v.dst (collBytes 1 r)
  | 2 => State.esteps (fun j s =>
      s.ewrite a (v.dst + BitVec.ofNat 64 (j * v.count)) (collBytes 1 (r.filter (·.2.1 == j)))) (List.range v.m) s
  | _ => .ok () s

/-- The result at a member: written, sent to the children, the call completes OK. -/
def CEnv.deliver (v : CEnv) (r : List CollVal) (s : State) : Res Unit :=
  (v.write r s).bind fun _ s1 => v.finish 0 (v.children.foldl (v.tell 2 r) s1)

/-- The packet of the call from a member in a phase. -/
def CEnv.packet (v : CEnv) (c : Coll) (src phase : Nat) : Option CollPacket :=
  c.got.find? fun p => p.src == src && p.seq == v.seq && p.phase == phase

/-- Whether a packet of the call carries another call (R511). -/
def CEnv.differs (v : CEnv) (p : CollPacket) : Bool :=
  p.seq == v.seq && p.phase < 3 && (p.op != v.op || p.kind != v.kind || p.count != v.count || p.root != v.root)

/-- Whether the first packet that a neighbour has sent and no call has used is of another SEQ (R511). -/
def CEnv.strays (v : CEnv) (c : Coll) : Bool :=
  v.neighbours.any fun j => (c.got.find? fun p => p.src == j && p.phase == 0).any fun p => p.seq != v.seq

/-- Goes on with a call as far as what has arrived allows (R511-R514). -/
def CEnv.go (v : CEnv) (s : State) : Res Unit :=
  let c := s.coll v.g
  if c.refusing then v.finish 0xA (v.abort true s)
  else if c.got.any v.differs then v.finish 0xA (v.abort true (s.setColl { c with refusing := true }))
  else if c.got.any fun p => p.seq == v.seq && p.phase == 3 then v.finish 9 (v.abort false s)
  else if v.strays c then v.finish 0xA (v.abort true (s.setColl { c with refusing := true }))
  else if !v.neighbours.all fun j => (v.packet c j 0).isSome then .ok () s
  else
    let ups := v.children.map fun j => v.packet c j 1
    if c.sent = 1 ∧ ups.all Option.isSome then
      (v.own s).bind fun x s1 =>
        let r := ups.foldl (fun acc p => match p with | some q => v.join acc q.payload | none => acc) x
        if v.me = 0 then v.deliver (r.map (collReadout (if v.op = 0 then v.kind else 0))) s1
        else .ok () ((v.tell 1 r s1 ((v.me - 1) / 2)).setColl { (s1.coll v.g) with sent := 2 })
    else match (if v.me = 0 then none else v.packet c ((v.me - 1) / 2) 2) with
      | some p => v.deliver p.payload s
      | none => .ok () s

/-- A call starts, or goes on after a fault: the calls of a group run in SEQ order (R511). -/
def collPerform (o : Op) (s : State) : Res Unit :=
  match o.ctx with
  | .coll g =>
    match o.cenv g with
    | none => .ok () (s.setOp { o with stage := .performed })
    | some v =>
      let c := s.coll g
      if s.ops.any fun p => p.ctx == o.ctx && decide (p.num < o.num) && p.stage != .performed then .ok () s
      else if c.cur = some o.id then v.go s
      else
        let s1 := s.setColl { c with cur := some o.id, sent := 1 }
        v.go (if c.refusing then s1 else v.neighbours.foldl (v.tell 0 []) s1)
  | _ => .ok () s

/-- The call under way in a group, while its operation is not stopped. -/
def State.calling (s : State) (g : Nat) : Option CEnv :=
  match (s.coll g).cur with
  | none => none
  | some id => match s.op id with
    | none => none
    | some o => if o.stage = .accepted then o.cenv g else none

/-- Goes on with a group's call. -/
def State.driveColl (s : State) (g : Nat) : State :=
  match s.calling g with
  | none => s
  | some v => s.orStop v.o (v.go s)

/-- The entry of a group: that of its operations under way, else that of the table. -/
def State.centry (s : State) (g : Nat) : Option TableEntry :=
  match (s.ops.find? (·.ctx == .coll g)).bind (·.fab) with
  | some f => some ⟨f.1, []⟩
  | none => s.collective g

/-- COLL_PACKET_RECEIVE (R511, R512): a packet is kept until the call that it belongs to has used it. -/
def execCollPacketReceive (g src : Nat) (seq : BitVec 32) (op kind count root phase : Nat) (payload : List CollVal) (s : State) : Out :=
  let c := s.coll g
  if (s.centry g).isNone ∨ 3 ≤ phase ∨ c.failed.contains seq ∨ c.got.any (fun p => p.src == src && p.seq == seq && p.phase == phase) then .next s
  else .next ((s.setColl { c with got := c.got ++ [⟨src, seq, op, kind, count, root, phase, payload⟩] }).driveColl g)

/-- COLL_ABORT_RECEIVE (R511, R514): the group refuses from a mismatch on; a failed call ends when it runs here. -/
def execCollAbortReceive (g src : Nat) (seq : BitVec 32) (mismatch : Bool) (s : State) : Out :=
  let c := s.coll g
  if (s.centry g).isNone ∨ c.failed.contains seq then .next s
  else if mismatch then .next ((s.setColl { c with refusing := true }).driveColl g)
  else .next ((s.setColl { c with got := c.got ++ [⟨src, seq, 0, 0, 0, 0, 3, []⟩] }).driveColl g)

/-- COLL_TIMEOUT (R514): the member fails the call that waits. -/
def execCollTimeout (g : Nat) (s : State) : Out :=
  match s.calling g with
  | none => .next s
  | some v => .next (s.orStop v.o (v.finish 9 (v.abort false s)))

end Sys2Proof.Machine
end

