-- ==== Sys2Proof/Machine/Signatures.lean ====
section
/-! DEFINITION. The algorithms that R531 fixes for firmware images: SHA-384, RSASSA-PSS with 3,072-bit keys, and SLH-DSA-SHAKE-256s
(spec/24 R531). The spec names them; what they compute is taken from the standards that publish them: FIPS 180-4, RFC 8017,
FIPS 202 and FIPS 205 (PRESUMED, log 45). -/

namespace Sys2Proof.Machine

/-- The number that bytes give, the first the most significant. -/
def beNat (l : List Byte) : Nat := leNat l.reverse

/-- `n` bytes of a number, the most significant first. -/
def toBe (n v : Nat) : List Byte := (toLe n v).reverse

/-! ## SHA-384 (FIPS 180-4) -/

/-- The 80 constants of the compression function. -/
def shaK : List Word :=
  [0x428A2F98D728AE22, 0x7137449123EF65CD, 0xB5C0FBCFEC4D3B2F, 0xE9B5DBA58189DBBC,
   0x3956C25BF348B538, 0x59F111F1B605D019, 0x923F82A4AF194F9B, 0xAB1C5ED5DA6D8118,
   0xD807AA98A3030242, 0x12835B0145706FBE, 0x243185BE4EE4B28C, 0x550C7DC3D5FFB4E2,
   0x72BE5D74F27B896F, 0x80DEB1FE3B1696B1, 0x9BDC06A725C71235, 0xC19BF174CF692694,
   0xE49B69C19EF14AD2, 0xEFBE4786384F25E3, 0x0FC19DC68B8CD5B5, 0x240CA1CC77AC9C65] ++
  [0x2DE92C6F592B0275, 0x4A7484AA6EA6E483, 0x5CB0A9DCBD41FBD4, 0x76F988DA831153B5,
   0x983E5152EE66DFAB, 0xA831C66D2DB43210, 0xB00327C898FB213F, 0xBF597FC7BEEF0EE4,
   0xC6E00BF33DA88FC2, 0xD5A79147930AA725, 0x06CA6351E003826F, 0x142929670A0E6E70,
   0x27B70A8546D22FFC, 0x2E1B21385C26C926, 0x4D2C6DFC5AC42AED, 0x53380D139D95B3DF,
   0x650A73548BAF63DE, 0x766A0ABB3C77B2A8, 0x81C2C92E47EDAEE6, 0x92722C851482353B] ++
  [0xA2BFE8A14CF10364, 0xA81A664BBC423001, 0xC24B8B70D0F89791, 0xC76C51A30654BE30,
   0xD192E819D6EF5218, 0xD69906245565A910, 0xF40E35855771202A, 0x106AA07032BBD1B8,
   0x19A4C116B8D2D0C8, 0x1E376C085141AB53, 0x2748774CDF8EEB99, 0x34B0BCB5E19B48A8,
   0x391C0CB3C5C95A63, 0x4ED8AA4AE3418ACB, 0x5B9CCA4F7763E373, 0x682E6FF3D6B2B8A3,
   0x748F82EE5DEFB2FC, 0x78A5636F43172F60, 0x84C87814A1F0AB72, 0x8CC702081A6439EC] ++
  [0x90BEFFFA23631E28, 0xA4506CEBDE82BDE9, 0xBEF9A3F7B2C67915, 0xC67178F2E372532B,
   0xCA273ECEEA26619C, 0xD186B8C721C0C207, 0xEADA7DD6CDE0EB1E, 0xF57D4F7FEE6ED178,
   0x06F067AA72176FBA, 0x0A637DC5A2C898A6, 0x113F9804BEF90DAE, 0x1B710B35131C471B,
   0x28DB77F523047D84, 0x32CAAB7B40C72493, 0x3C9EBE0A15C9BEBC, 0x431D67C49C100D4C,
   0x4CC5D4BECB3E42B6, 0x597F299CFC657E2A, 0x5FCB6FAB3AD6FAEC, 0x6C44198C4A475817]

/-- The initial hash value of SHA-384. -/
def shaInit : List Word :=
  [0xCBBB9D5DC1059ED8, 0x629A292A367CD507, 0x9159015A3070DD17, 0x152FECD8F70E5939,
   0x67332667FFC00B31, 0x8EB44A8768581511, 0xDB0C2E0D64F98FA7, 0x47B5481DBEFA4FA4]

/-- The message schedule, the newest word first. -/
def shaExtend : Nat → List Word → List Word
  | 0, w => w
  | k + 1, w =>
    let at_ := fun i => w.getD i 0
    let s0 := (at_ 14).rotateRight 1 ^^^ (at_ 14).rotateRight 8 ^^^ at_ 14 >>> 7
    let s1 := (at_ 1).rotateRight 19 ^^^ (at_ 1).rotateRight 61 ^^^ at_ 1 >>> 6
    shaExtend k ((s1 + at_ 6 + s0 + at_ 15) :: w)

/-- One round: the working variables a to h, a constant and a word of the schedule. -/
def shaRound (v : List Word) (k w : Word) : List Word :=
  match v with
  | [a, b, c, d, e, f, g, h] =>
    let t1 := h + (e.rotateRight 14 ^^^ e.rotateRight 18 ^^^ e.rotateRight 41) + (e &&& f ^^^ ~~~e &&& g) + k + w
    let t2 := (a.rotateRight 28 ^^^ a.rotateRight 34 ^^^ a.rotateRight 39) + (a &&& b ^^^ a &&& c ^^^ b &&& c)
    [t1 + t2, a, b, c, d + t1, e, f, g]
  | _ => v

/-- The compression of one block of 128 bytes. -/
def shaBlock (h : List Word) (b : List Byte) : List Word :=
  let w := (shaExtend 64 (((records 8 16 b).map fun x => BitVec.ofNat 64 (beNat x)).reverse)).reverse
  (h.zip ((shaK.zip w).foldl (fun v p => shaRound v p.1 p.2) h)).map fun p => p.1 + p.2

/-- SHA-384: 48 bytes. -/
def sha384 (m : List Byte) : List Byte :=
  let zeros := (256 - (m.length + 17) % 128) % 128
  let padded := m ++ 0x80 :: List.replicate zeros 0 ++ toBe 16 (8 * m.length)
  (((records 128 (padded.length / 128) padded).foldl shaBlock shaInit).take 6).flatMap fun x => toBe 8 x.toNat

/-! ## RSASSA-PSS with SHA-384, MGF1 with SHA-384 and a salt of 48 bytes (RFC 8017) -/

/-- MGF1: `n` bytes. -/
def mgf1 (seed : List Byte) (n : Nat) : List Byte :=
  ((List.range ((n + 47) / 48)).flatMap fun i => sha384 (seed ++ toBe 4 i)).take n

/-- The power of a base modulo `n`; the first number bounds the bits of the exponent. -/
def powMod (n base : Nat) : Nat → Nat → Nat
  | 0, _ => 1 % n
  | k + 1, e =>
    let h := powMod n base k (e / 2)
    let q := h * h % n
    if e % 2 = 1 then q * base % n else q

/-- EMSA-PSS verification of an encoded message of 3,071 bits. -/
def pssOk (message em : List Byte) : Bool :=
  let h := (em.drop 335).take 48
  let masked := em.take 335
  let db := ((masked.zip (mgf1 h 335)).map fun p => p.1 ^^^ p.2)
  let first := (db.headD 0) &&& 0x7F
  let digest := sha384 (List.replicate 8 0 ++ sha384 message ++ db.drop 287)
  em.length == 384 && em.drop 383 == [0xBC] && (masked.headD 0).toNat < 128
    && (first :: db.drop 1).take 286 == List.replicate 286 0 && (db.drop 286).take 1 == [1] && h == digest

/-- Whether an RSA-3072 signature of a message verifies. A public key is the 384 bytes of its modulus and those of its exponent,
each with the most significant byte first (PRESUMED, log 45). -/
def rsaOk (key sig message : List Byte) : Bool :=
  let n := beNat (key.take 384)
  let e := key.drop 384
  let s := beNat sig
  decide (2 ^ 3071 ≤ n) && sig.length == 384 && decide (s < n) && pssOk message (toBe 384 (powMod n s (8 * e.length) (beNat e)))

/-! ## SHAKE256 (FIPS 202) -/

/-- The round constants of the permutation. -/
def keccakRc : List Word :=
  [0x0000000000000001, 0x0000000000008082, 0x800000000000808A, 0x8000000080008000,
   0x000000000000808B, 0x0000000080000001, 0x8000000080008081, 0x8000000000008009,
   0x000000000000008A, 0x0000000000000088, 0x0000000080008009, 0x000000008000000A,
   0x000000008000808B, 0x800000000000008B, 0x8000000000008089, 0x8000000000008003,
   0x8000000000008002, 0x8000000000000080, 0x000000000000800A, 0x800000008000000A,
   0x8000000080008081, 0x8000000000008080, 0x0000000080000001, 0x8000000080008008]

/-- The rotations of its lanes. -/
def keccakRot : List Nat :=
  [0, 1, 62, 28, 27, 36, 44, 6, 55, 20, 3, 10, 43, 25, 39, 41, 45, 15, 21, 8, 18, 2, 61, 56, 14]

/-- One round of the permutation on 25 lanes, lane x + 5 y at column x and row y. -/
def keccakRound (a : List Word) (rc : Word) : List Word :=
  let at_ := fun i => a.getD i 0
  let c := (List.range 5).map fun x => at_ x ^^^ at_ (x + 5) ^^^ at_ (x + 10) ^^^ at_ (x + 15) ^^^ at_ (x + 20)
  let d := (List.range 5).map fun x => c.getD ((x + 4) % 5) 0 ^^^ (c.getD ((x + 1) % 5) 0).rotateLeft 1
  let t := a.mapIdx fun i v => v ^^^ d.getD (i % 5) 0
  let b := (List.range 25).map fun j =>
    let i := (j % 5 + 3 * (j / 5)) % 5 + 5 * (j % 5)
    (t.getD i 0).rotateLeft (keccakRot.getD i 0)
  (List.range 25).map fun i =>
    let x := fun k => b.getD (i / 5 * 5 + (i + k) % 5) 0
    let v := x 0 ^^^ ~~~(x 1) &&& x 2
    if i = 0 then v ^^^ rc else v

/-- The permutation. -/
def keccak (a : List Word) : List Word := keccakRc.foldl keccakRound a

/-- A block of 136 bytes joins the state. -/
def absorb (a : List Word) (b : List Byte) : List Word :=
  let w := (records 8 17 b).map fun x => BitVec.ofNat 64 (leNat x)
  keccak (a.mapIdx fun i v => v ^^^ w.getD i 0)

/-- `k` blocks of 136 bytes come out of the state. -/
def squeeze : Nat → List Word → List Byte
  | 0, _ => []
  | k + 1, a => (a.take 17).flatMap (fun x => toLe 8 x.toNat) ++ squeeze k (if k = 0 then a else keccak a)

/-- SHAKE256: `n` bytes. -/
def shake256 (m : List Byte) (n : Nat) : List Byte :=
  let gap := 136 - m.length % 136
  let pad : List Byte := if gap = 1 then [0x9F] else 0x1F :: List.replicate (gap - 2) 0 ++ [0x80]
  let padded := m ++ pad
  (squeeze ((n + 135) / 136) ((records 136 (padded.length / 136) padded).foldl absorb (List.replicate 25 0))).take n

/-! ## SLH-DSA-SHAKE-256s (FIPS 205): n = 32, h = 64, d = 8, a = 14, k = 22, w = 16 -/

/-- An address: layer, tree, type, key pair, and the two words that its type uses. -/
structure SlhAdrs where
  layer : Nat
  tree : Nat
  type : Nat
  pair : Nat
  mid : Nat
  last : Nat

/-- Its 32 bytes. -/
def SlhAdrs.bytes (x : SlhAdrs) : List Byte :=
  toBe 4 x.layer ++ toBe 12 x.tree ++ toBe 4 x.type ++ toBe 4 x.pair ++ toBe 4 x.mid ++ toBe 4 x.last

/-- The hash of a node at an address: F, H and the T functions alike. -/
def slhHash (seed : List Byte) (x : SlhAdrs) (m : List Byte) : List Byte := shake256 (seed ++ x.bytes ++ m) 32

/-- `count` numbers of `b` bits, the most significant bits first. -/
def slhDigits (l : List Byte) (b count : Nat) : List Nat :=
  (List.range count).map fun i => beNat l / 2 ^ (8 * l.length - b * (i + 1)) % 2 ^ b

/-- A WOTS+ chain: `n` steps from step `i`. -/
def slhChain (seed : List Byte) (x : SlhAdrs) (v : List Byte) : Nat → Nat → List Byte
  | 0, _ => v
  | n + 1, i => slhChain seed x (slhHash seed { x with last := i } v) n (i + 1)

/-- The WOTS+ public key that a signature of 67 values gives. -/
def slhWots (seed sig m : List Byte) (x : SlhAdrs) : List Byte :=
  let msg := slhDigits m 4 64
  let sum := (msg.map fun v => 15 - v).foldl (· + ·) 0
  let all := msg ++ slhDigits (toBe 2 (sum * 16)) 4 3
  let tops := ((records 32 67 sig).zip all).mapIdx fun i p => slhChain seed { x with mid := i } p.1 (15 - p.2) p.2
  slhHash seed { x with type := 1, mid := 0, last := 0 } tops.flatten

/-- The root above a node: its authentication path from height `h` up, the index of the node among its tree's. -/
def slhClimb (seed : List Byte) (x : SlhAdrs) : List (List Byte) → Nat → Nat → List Byte → List Byte
  | [], _, _, node => node
  | auth :: rest, h, i, node =>
    let y := { x with mid := h + 1, last := i / 2 }
    slhClimb seed x rest (h + 1) (i / 2) (slhHash seed y (if i % 2 = 0 then node ++ auth else auth ++ node))

/-- The root of an XMSS tree that a signature gives, of the leaf `i`. -/
def slhXmss (seed sig m : List Byte) (layer tree i : Nat) : List Byte :=
  let leaf := slhWots seed (sig.take 2144) m ⟨layer, tree, 0, i, 0, 0⟩
  slhClimb seed ⟨layer, tree, 2, 0, 0, 0⟩ (records 32 8 (sig.drop 2144)) 0 i leaf

/-- The root of the hypertree that a signature gives: one signature of 2,400 bytes for each layer from `layer` up. -/
def slhTree (seed : List Byte) : List (List Byte) → Nat → Nat → Nat → List Byte → List Byte
  | [], _, _, _, m => m
  | sig :: rest, layer, tree, i, m => slhTree seed rest (layer + 1) (tree / 256) (tree % 256) (slhXmss seed sig m layer tree i)

/-- The FORS public key that a signature gives. -/
def slhFors (seed sig md : List Byte) (tree pair : Nat) : List Byte :=
  let roots := ((records 480 22 sig).zip (slhDigits md 14 22)).mapIdx fun i p =>
    let x : SlhAdrs := ⟨0, tree, 3, pair, 0, 0⟩
    let node := i * 2 ^ 14 + p.2
    slhClimb seed x (records 32 14 (p.1.drop 32)) 0 node (slhHash seed { x with last := node } (p.1.take 32))
  slhHash seed ⟨0, tree, 4, pair, 0, 0⟩ roots.flatten

/-- Whether an SLH-DSA-SHAKE-256s signature of a message verifies, in pure mode with an empty context. -/
def slhOk (key sig message : List Byte) : Bool :=
  let seed := key.take 32
  let root := key.drop 32
  let digest := shake256 (sig.take 32 ++ seed ++ root ++ [0, 0] ++ message) 47
  let tree := beNat ((digest.drop 39).take 7)
  let pair := beNat (digest.drop 46)
  let fors := slhFors seed ((sig.drop 32).take 10560) (digest.take 39) tree pair
  key.length == 64 && sig.length == 29792 && slhTree seed (records 2400 8 (sig.drop 10592)) 0 tree pair fors == root

/-- Whether a signature of an image verifies under a key: scheme 0 is RSA-3072, else SLH-DSA (R531). -/
def signatureOk (scheme : Nat) (key sig message : List Byte) : Bool :=
  if scheme = 0 then rsaOk key sig message else slhOk key sig message

end Sys2Proof.Machine
end

