-- ==== Sys2Proof/Machine/HostPorts.lean ====
section
/-! DEFINITION. Fabric ports (spec/22 R490, R491), host ports, bring-up, attestation, power and telemetry, and the writes of hub
registers by their agents (spec/24 R525-R535, spec/10 R270). -/

namespace Sys2Proof.Machine

/-! ## Fabric ports (R490, R491) -/

/-- Replaces a fabric port. -/
def State.setPort (s : State) (n : Nat) (p : PortState) : State := { s with ports := vset s.ports n p }

/-- The first die of each partition, by partition number. -/
def State.parts (s : State) : List Nat := (List.range 4).foldl (fun l d => if l.contains (s.part d) then l else l ++ [s.part d]) []

/-- AUX of a port's LINKFAIL record (R491). -/
def portAux (n : Nat) : Nat := if n < 8 then 8 + n else 16 + (n - 8)

/-- A fabric port fails: every partition of the package stops (R491). -/
def State.failPort (s : State) (n kind : Nat) : State :=
  let s1 := s.setPort n { (vget s.ports portDefault n) with failkind := BitVec.ofNat 8 kind, failed := true, up := false }
  s1.parts.foldl (fun t p => t.stopPart p kind (portAux n)) s1

/-- A frame for this package (R490, R491): the next of its pair is taken, one beyond a gap waits for it, and a gap still open
after 8 retransmissions fails the port. -/
def State.takeFrame (s : State) (port src seq : Nat) : State :=
  let q := s.pair src s.rank
  if seq = q.next then s.setPair { q with next := q.next + 1, tries := 0 }
  else if seq < q.next then s
  else if 8 ≤ q.tries then s.failPort port 2
  else s.setPair { q with tries := q.tries + 1 }

/-- FABRIC_FRAME_RECEIVE (R489-R491): a frame with a bad FCS is dropped, for its sender to send again; an ICV failure fails the
port; a frame for another rank goes on to it on H. -/
def execFabricFrameReceive (port : Nat) (fcsOk icvOk : Bool) (frame : FabricFrame) (s : State) : Out :=
  let p := vget s.ports portDefault port
  if 15 ≤ port ∨ p.up = false then .next s
  else if fcsOk = false then .next (s.setPort port { p with retry := BitVec.ofNat 32 (min (p.retry.toNat + 1) 0xFFFFFFFF) })
  else if icvOk = false then .next (s.failPort port 1)
  else if s.hub.fabrank.getLsbD 15 ∧ frame.dst ≠ s.rank then
    .next (s.send ⟨.forward, [frame.src, frame.dst, routePort s.rank frame.dst, frame.seq], frame.body⟩)
  else .next (s.takeFrame port frame.src frame.seq)

/-- FABRIC_LINK_LOSS (R491). -/
def execFabricLinkLoss (port : Nat) (s : State) : Out :=
  let p := vget s.ports portDefault port
  if 15 ≤ port ∨ p.up = false then .next s else .next (s.failPort port 4)

/-! ## Host ports (R525-R529) -/

/-- The default of a host port read out of range. -/
def hostPortDefault : HostPort := { badop := 0, failed := false, up := false }

/-- A rail, node or host port comes up (R490, R525, R526): once bring-up is complete (R530). -/
def execPortLinkUp (host : Bool) (port : Nat) (s : State) : Out :=
  if s.hub.mpstage ≠ 6 then .next s
  else if host then
    .next { s with hostPorts := vset s.hostPorts port { (vget s.hostPorts hostPortDefault port) with failed := false, up := true } }
  else .next (s.setPort port { (vget s.ports portDefault port) with failed := false, up := true })

/-- Where a queue pair's entry lies (R526). -/
def State.qpAt (s : State) (qp : Nat) : Nat := baseOf s.hub.hqpbase + 32 * qp
/-- PORT of a queue pair. -/
def State.qpPort (s : State) (qp : Nat) : Nat := (s.mem.byte (s.qpAt qp + 4)).toNat

/-- A queue pair moves to the error state. -/
def State.qpError (s : State) (qp : Nat) : State := { s with mem := s.mem.setBytes (s.qpAt qp + 5) [2] }

/-- Whether a queue pair serves packets: it exists, is ready, and its port carries traffic. -/
def State.qpReady (s : State) (qp : Nat) : Bool :=
  s.hub.mpstage == 6 && decide (qp < s.hub.hqpcnt.toNat) && s.mem.byte (s.qpAt qp + 5) == 1
    && (vget s.hostPorts hostPortDefault (s.qpPort qp)).up && !s.down

/-- A packet is refused (R525, R527): a NAK of a kind (1 invalid request, 2 remote access error), counted, the queue pair in error. -/
def State.refuse (s : State) (qp kind : Nat) : State :=
  let p := vget s.hostPorts hostPortDefault (s.qpPort qp)
  let p1 := { p with badop := BitVec.ofNat 32 (min (p.badop.toNat + 1) 0xFFFFFFFF) }
  ({ s with hostPorts := vset s.hostPorts (s.qpPort qp) p1 }.qpError qp).send ⟨.hostNak, [qp, kind], []⟩

/-- The enqueue window of an R_Key (R527). -/
def keyQueue (rkey : BitVec 32) : Option Nat :=
  if 0x10000 ≤ rkey.toNat ∧ rkey.toNat < 0x10400 then some (rkey.toNat - 0x10000) else none

/-- A write of a range of a window: whether it is performed; none of it when any byte is refused. It waits for a link
(R472, R481). -/
def State.rdmaWrite (s : State) (w : Option Window) (offset : Nat) (bytes : List Byte) : Res Bool :=
  match w with
  | none => .ok false s
  | some w =>
    if w.takes 1 offset bytes.length = false then .ok false s
    else match s.ewrite w.agent (w.addr offset) (bytes.map fun b => (b, false)) with
      | .ok _ s1 => .ok true (s1.mergeFrom s.ingress.length 64)
      | .wait _ => .wait s
      | .trap _ _ _ | .mem _ _ => .ok false s

/-- A read of a range of a window: none when any byte is refused. It waits for a link (R472, R481). -/
def State.rdmaRead (s : State) (w : Option Window) (offset n : Nat) : Res (Option (List Byte)) :=
  match w with
  | none => .ok none s
  | some w =>
    if w.takes 0 offset n = false then .ok none s
    else match s.eread w.agent (w.addr offset) n with
      | .ok l s1 => .ok (some (l.map (·.1))) s1
      | .wait _ => .wait s
      | .trap _ _ _ | .mem _ _ => .ok none s

/-- A queue pair as the agent of a write to an enqueue window (R528): neither a hart nor a control core. -/
def hostAgent : Agent :=
  { die := 4, id := none, ctl := none, sv := false, win := 0, engine := true, tag := none, feeder := false, op := none }

/-- HOST_RDMA_WRITE (R527, R246, R247). -/
def execHostRdmaWrite (qp : Nat) (rkey : BitVec 32) (offset : Word) (bytes : List Byte) (s : State) : Out :=
  if s.qpReady qp = false then .next s
  else if rkey.toNat < 0x10000 then
    match s.rdmaWrite (s.window rkey.toNat) offset.toNat bytes with
    | .ok true s1 => .next (s1.send ⟨.hostAck, [qp], []⟩)
    | .wait _ => .next s
    | .ok false _ | .trap _ _ _ | .mem _ _ => .next (s.refuse qp 2)
  else match keyQueue rkey with
    | none => .next (s.refuse qp 2)
    | some n =>
      if 0x1000 < offset.toNat + bytes.length then .next (s.refuse qp 2)
      else .next ((s.windowWrite hostAgent n offset.toNat bytes).send ⟨.hostAck, [qp], []⟩)

/-- HOST_RDMA_READ (R527, R248). -/
def execHostRdmaRead (qp : Nat) (rkey : BitVec 32) (offset : Word) (len : Nat) (s : State) : Out :=
  if s.qpReady qp = false then .next s
  else if rkey.toNat < 0x10000 then
    match s.rdmaRead (s.window rkey.toNat) offset.toNat len with
    | .ok (some l) s1 => .next (s1.send ⟨.hostReadResponse, [qp], l.map (·.toNat)⟩)
    | .wait _ => .next s
    | .ok none _ | .trap _ _ _ | .mem _ _ => .next (s.refuse qp 2)
  else match keyQueue rkey with
    | none => .next (s.refuse qp 2)
    | some n =>
      if 0x1000 < offset.toNat + len then .next (s.refuse qp 2)
      else .next (s.send ⟨.hostReadResponse, [qp], (List.range len).map fun i =>
        let o := offset.toNat + i
        ((s.queue n).counter (o / 8 * 8)).toNat / 256 ^ (o % 8) % 256⟩)

/-- HOST_INVALID_OPCODE (R525). -/
def execHostInvalidOpcode (qp : Nat) (s : State) : Out := if s.qpReady qp then .next (s.refuse qp 1) else .next s

/-- HOST_PORT_INTEGRITY_FAIL (R525): every queue pair of the port moves to the error state. -/
def execHostPortIntegrityFail (port : Nat) (s : State) : Out :=
  let p := vget s.hostPorts hostPortDefault port
  if 4 ≤ port ∨ p.up = false then .next s
  else
    let s1 := { s with hostPorts := vset s.hostPorts port { p with failed := true } }
    .next ((List.range s.hub.hqpcnt.toNat).foldl (fun t q => if s.qpPort q = port then t.qpError q else t) s1)

/-- The response of an aperture load. -/
def Hart.apertureReply (h : Hart) (id : Nat) (v : Word) : Hart :=
  { h with aperture := h.aperture.map fun r => if r.id = id then { r with value := some v } else r }

/-- HOST_APERTURE_RESPONSE (R529): the value of a load; the acknowledgement of a store changes nothing. -/
def execHostApertureResponse (id : Nat) (data : Option Word) (s : State) : Out :=
  match data with
  | none => .next s
  | some v => .next { s with hart := s.hart.apertureReply id v, others := s.others.map (·.apertureReply id v) }

/-! ## Power and telemetry (R533-R535) -/

/-- A write of PWRCTLd by the management processor (R533): a field out of range keeps its value; tokens that a larger
count frees are granted (R227). -/
def State.writePwrctl (s : State) (d v : Nat) : State :=
  if 4 ≤ d then s
  else
    let limit := bitsAt v 31 20
    let tokens := bitsAt v 13 8
    let cap := v % 16
    let h := s.hub
    let s1 := s.setHub
      { h with pwrLimit := if 100 ≤ limit ∧ limit ≤ 600 then vset h.pwrLimit d (BitVec.ofNat 12 limit) else h.pwrLimit
               pwrAuto := vset h.pwrAuto d (bitAt v 16)
               pwrTokens := if 1 ≤ tokens ∧ tokens ≤ 32 then vset h.pwrTokens d (BitVec.ofNat 6 tokens) else h.pwrTokens
               pwrCap := if 1 ≤ cap ∧ cap ≤ 8 then vset h.pwrCap d (BitVec.ofNat 4 cap) else h.pwrCap }
    s1.setRing d (s1.ring d)

/-- PWRCTL_WRITE (R533). -/
def execPwrctlWrite (die : Nat) (value : Word) (s : State) : Out := .next (s.writePwrctl die value.toNat)

/-- The counters that the management processor gathers (R535). -/
def State.counters (s : State) : List Nat :=
  (s.queues.flatMap fun q => [q.n, q.appended.toNat, q.refused.toNat, q.removed.toNat, q.malformed.toNat])
    ++ (s.frq.toList.flatMap fun f => [f.lost.toNat, f.held.length]) ++ s.hub.rascnt.toList.map (·.toNat) ++ s.links.toList.map (·.word.toNat)
    ++ s.ports.toList.map (·.word.toNat) ++ s.hostPorts.toList.map (·.word.toNat)

/-- 105 °C in units of 0.125 °C. -/
def hotLimit : Nat := 840

/-- TELEMETRY_SAMPLE (R535): the samples are published and reported; a die at 105 °C or above stops every partition and shuts the
module down in order. -/
def execTelemetrySample (temps powers coolant : List Nat) (s : State) : Out :=
  if temps.length ≠ 4 ∨ powers.length ≠ 4 ∨ coolant.length ≠ 2 then .next s
  else
    let s1 := s.setHub { s.hub with telemetry := (temps ++ powers ++ coolant).map (BitVec.ofNat 64) }
    let s2 := s1.send ⟨.management, temps ++ powers ++ coolant, s1.counters⟩
    if temps.any (hotLimit ≤ ·) then execOrderlyShutdown (s2.stopDies [0, 1, 2, 3]) else .next s2

/-! ## Writes of registers (R5, R270) -/

/-- The management processor's write of a register. -/
def managementWrite (s : State) (v : Nat) : HubReg → State
  | .rasctl d => s.setHub { s.hub with rasctl := vset s.hub.rasctl d (BitVec.ofNat 9 v) }
  | .brdcap => if 1 ≤ v % 2 ^ 13 ∧ v % 2 ^ 13 ≤ 4096 then
      (s.setHub { s.hub with brdcap := BitVec.ofNat 13 v }).drainTo (v % 2 ^ 13) else s
  | .partcfg => s.writePartcfg v
  | .partrst => s.writePartrst v
  | .pwrctl d => s.writePwrctl d v
  | .qcfg _ | .splbase _ | .splsize _ | .xlroot _ | .xlva | .xlinv | .xlseq | .tsbase _ | .tssize _ | .brrec | .brctx _
  | .brctxw _ | .preempt _ | .savbase _ | .savcnt _ | .hslot _ _ | .frqbase _ | .frqsize _ | .frqcnt _ | .rascnt _ _
  | .partstat | .lnkstat _ | .fabrank | .rwtbase | .rwtcnt | .rtimeout | .xctbase | .cgtbase | .fbudget | .fpstat _
  | .hqpbase | .hqpcnt | .hpstat _ | .hapcfg _ | .hapbase _ | .telemetry _ => s

/-- The hub register at a physical address. -/
def hubRegAt (pa : Nat) : Option HubReg := match region pa with | .hub o => hubReg o | _ => none

/-- A control core's write of a register; one of a fabric register may end exchanges and groups, or begin them (R498). -/
def State.controlWrite (s : State) (v : Nat) (r : HubReg) : State :=
  match r with
  | .fabrank | .xctbase | .cgtbase => (firmwareWrite s v r).noteTables s fun _ => false
  | _ => firmwareWrite s v r

/-- REGISTER_WRITE (R270): agents 0-7 are the control cores at supervisor privilege, once bring-up has started them (R530); 8 is
the management processor; a write by any other agent is ignored, and any after a failed bring-up. -/
def execRegisterWrite (agent pa : Nat) (value : Word) (s : State) : Out :=
  match hubRegAt pa with
  | none => .next s
  | some r =>
    if s.stuckAtStart then .next s
    else if agent < 8 then if (s.control agent).isNone then .next s else .next (s.controlWrite value.toNat r)
    else if agent = 8 then .next (managementWrite s value.toNat r)
    else .next s

/-! ## Bring-up and attestation (R530-R532) -/

/-- A word that control firmware writes as it starts (R530): a register, or memory. -/
def State.bringUpWrite (s : State) (w : Nat × Word) : State :=
  match hubRegAt w.1 with
  | some r => s.controlWrite w.2.toNat r
  | none => if isStorage w.1 ∧ w.1 % 8 = 0 then s.putBytes { Agent.management with engine := true } w.1 (toLe 8 w.2.toNat) false else s

/-- The stream of control core `n` as it starts (R30, R530, R536). -/
def controlCore (n : Nat) (entry : Word) : Hart :=
  { Hart.reset with kind := .control n, run := .running, sv := true, main := { Stream.reset with pc := entry &&& ~~~1 } }

/-- A firmware image: its bytes, its security version, and for RSA-3072 and SLH-DSA a public key and a signature. -/
abbrev Image := List Byte × Nat × List (List Byte × List Byte)

/-- Whether an image is accepted (R531): both signatures verify under keys whose digests are fused, and its version is not below
the fused counter. -/
def Image.accepted (i : Image) : Bool :=
  decide (Config.fuseCounter ≤ i.2.1) && (List.range 2).all fun k =>
    match i.2.2[k]? with
    | some (key, sig) =>
      (List.range 2).any (fun slot => Config.fuseDigest k slot == sha384 key) && signatureOk k key sig i.1
    | none => false

/-- Bring-up stops at a step, which is reported on the management port (R530). -/
def State.startFailed (s : State) (step : Nat) : State :=
  (s.setHub { s.hub with mpstage := step }).send ⟨.management, [step], []⟩

/-- What an image is measured as: its digest and its security version (R532). -/
def Image.measure (i : Image) : List Byte × Nat := (sha384 i.1, i.2.1)

/-- The machine after steps 2 to 6: links trained, the persist domain recovered, the control cores started (R530); the verified
images are measured (R532). -/
def State.broughtUp (s : State) (images : List Image) (entries : List Word) (writes : List (Nat × Word)) : State :=
  let s1 := (s.setHub { s.hub with mpstage := 6 }).recover
  let s2 :=
    { s1 with
      measured := (images.take 2).map Image.measure
      links := Vector.ofFn fun (i : Fin 8) =>
        let l := vget s1.links linkDefault i.val
        if (s1.linkPart i.val).isSome then l.trained else l
      others := s1.others ++ (List.range 8).map fun n => controlCore n (entries.getD n 0) }
  writes.foldl State.bringUpWrite s2

/-- BRING_UP (R530, R531): from reset, through all six steps, or stopped at step 1 by management firmware, or at step 2 by
control firmware, that does not verify. -/
def execBringUp (images : List Image) (entries : List Word) (writes : List (Nat × Word)) (s : State) : Out :=
  if s.hub.mpstage ≠ 0 ∨ s.down then .next s
  else if (images[0]?).any Image.accepted = false then .next (s.startFailed 1)
  else if (images[1]?).any Image.accepted = false then .next (s.startFailed 2)
  else .next (s.broughtUp images entries writes)

/-- Cut or filled to a length. -/
def fitBytes (n : Nat) (l : List Byte) : List Byte := l.take n ++ List.replicate (n - l.length) 0

/-- The bytes of a report before its signatures (R532; DESIGN CHOICE, log 10): the version, the nonce, the measurements of the ROM,
the management firmware and the control firmware, their security versions, PARTCFG and FABRANK. -/
def State.report (s : State) (nonce : List Byte) : List Byte :=
  Config.reportVersion ++ nonce ++ sha384 Config.romImage ++ s.measured.flatMap (·.1) ++ s.measured.flatMap (fun m => toLe 8 m.2)
    ++ toLe 1 s.hub.partcfg.toNat ++ toLe 2 s.hub.fabrank.toNat

/-- ATTESTATION_REPORT (R532): the report for a nonce, with both signatures. -/
def execAttestationReport (nonce : List Byte) (s : State) : Out :=
  if s.hub.mpstage ≠ 6 ∨ nonce.length ≠ 32 then .next s
  else
    let body := s.report nonce
    let signed := body ++ fitBytes 384 (Config.attestSignature 0 body) ++ fitBytes 29792 (Config.attestSignature 1 body)
    .next (s.send ⟨.attestation, [], signed.map (·.toNat)⟩)

end Sys2Proof.Machine
end

