-- ==== Sys2Proof/Machine/ScalarFp.lean ====
section
/-! DEFINITION. Scalar floating point: FP and FMA (spec/04 R134-R140). -/

namespace Sys2Proof.Machine

/-- A floating-point instruction: `f` gives the value of g[d] and the flags (R123, R140). -/
def runFp (word : Nat) (d : Reg) (rs : List Reg) (f : State → Word × Flags) (s : State) : Out :=
  runScalar ⟨word, 4, .copy, true, true, d :: rs⟩
    (fun s =>
      let r := f s
      let s1 := s.setSt { s.st with flags := s.st.flags ||| r.2 }
      .ok () (s1.finishG word 4 d r.1)) s

/-- A result in a format: zero-extended (R116). -/
def fpWord (r : Nat × Flags) : Word × Flags := (BitVec.ofNat 64 r.1, r.2)

/-- The rounding mode of an instruction (R18, R123). -/
def State.rmOf (s : State) (m : BitVec 3) : Rm := Sys2Proof.Machine.rmOf m.toNat s.st.rm

/-- A two-source arithmetic form (R135). -/
def runFp2 (word : Nat) (d a b : Reg) (m t : BitVec 3) (f : Fmt → Rm → Nat → Nat → Nat × Flags) (s : State) : Out :=
  runFp word d [a, b] (fun s => fpWord (f (fmtOf t.toNat) (s.rmOf m) (s.rd a).toNat (s.rd b).toNat)) s

/-- An FMA-class form (R135): the old g[d] is the addend. -/
def runFma (word : Nat) (d a b : Reg) (m t : BitVec 3) (np nz : Bool) (s : State) : Out :=
  runFp word d [a, b]
    (fun s => fpWord ((fmtOf t.toNat).fma (s.rmOf m) np nz (s.rd a).toNat (s.rd b).toNat (s.rd d).toNat)) s

/-- A comparison (R136). -/
def runFcmp (word : Nat) (d a b : Reg) (t : BitVec 3) (code : Nat) (s : State) : Out :=
  runFp word d [a, b]
    (fun s => let r := (fmtOf t.toNat).compare code (s.rd a).toNat (s.rd b).toNat; (boolWord r.1, r.2)) s

/-- FADD (R135). -/
def execFadd (d a b : Reg) (m t : BitVec 3) (s : State) : Out := runFp2 (Enc.fadd d a b m t) d a b m t (fun f r x y => f.add r x y) s
/-- FSUB (R135). -/
def execFsub (d a b : Reg) (m t : BitVec 3) (s : State) : Out := runFp2 (Enc.fsub d a b m t) d a b m t (fun f r x y => f.sub r x y) s
/-- FMUL (R135). -/
def execFmul (d a b : Reg) (m t : BitVec 3) (s : State) : Out := runFp2 (Enc.fmul d a b m t) d a b m t (fun f r x y => f.mul r x y) s
/-- FDIV (R135). -/
def execFdiv (d a b : Reg) (m t : BitVec 3) (s : State) : Out := runFp2 (Enc.fdiv d a b m t) d a b m t (fun f r x y => f.div r x y) s
/-- FSQRT (R135). -/
def execFsqrt (d a : Reg) (m t : BitVec 3) (s : State) : Out :=
  runFp (Enc.fsqrt d a m t) d [a] (fun s => fpWord ((fmtOf t.toNat).sqrt (s.rmOf m) (s.rd a).toNat)) s
/-- FMIN (R125, R135). -/
def execFmin (d a b : Reg) (t : BitVec 3) (s : State) : Out :=
  runFp2 (Enc.fmin d a b t) d a b 0 t (fun f _ x y => f.minmax false x y) s
/-- FMAX (R125, R135). -/
def execFmax (d a b : Reg) (t : BitVec 3) (s : State) : Out :=
  runFp2 (Enc.fmax d a b t) d a b 0 t (fun f _ x y => f.minmax true x y) s
/-- FEQ (R136). -/
def execFeq (d a b : Reg) (t : BitVec 3) (s : State) : Out := runFcmp (Enc.feq d a b t) d a b t 0 s
/-- FLT (R136). -/
def execFlt (d a b : Reg) (t : BitVec 3) (s : State) : Out := runFcmp (Enc.flt d a b t) d a b t 1 s
/-- FLE (R136). -/
def execFle (d a b : Reg) (t : BitVec 3) (s : State) : Out := runFcmp (Enc.fle d a b t) d a b t 2 s
/-- FUNORD (R136). -/
def execFunord (d a b : Reg) (t : BitVec 3) (s : State) : Out := runFcmp (Enc.funord d a b t) d a b t 3 s

/-- The result of FCVT from source code `src` to destination code `dst` (R51, R126, R127, R139), as g[d] takes it
(R116). -/
def fcvtWord (rm : Rm) (src dst : Nat) (x : Word) : Word × Flags :=
  if src ≤ 3 then
    let f := fmtOf src
    match dst with
    | 4 => fpWord (f.toInt rm true 64 x.toNat)
    | 5 => fpWord (f.toInt rm false 64 x.toNat)
    | 6 => let r := f.toInt rm true 32 x.toNat; (wordOfInt (sextN 32 r.1), r.2)
    | 7 => fpWord (f.toInt rm false 32 x.toNat)
    | _ => fpWord (f.convert (fmtOf dst) rm x.toNat)
  else
    let i : Int := match src with
      | 4 => x.toInt
      | 5 => (x.toNat : Int)
      | 6 => sextN 32 x.toNat
      | _ => ((x.toNat % 2 ^ 32 : Nat) : Int)
    fpWord ((fmtOf dst).ofInt rm i)

/-- FCVT (R139). -/
def execFcvt (d a : Reg) (c m t : BitVec 3) (s : State) : Out :=
  runFp (Enc.fcvt d a c m t) d [a] (fun s => fcvtWord (s.rmOf m) c.toNat t.toNat (s.rd a)) s
/-- FCLASS (R137). -/
def execFclass (d a : Reg) (t : BitVec 3) (s : State) : Out :=
  runFp (Enc.fclass d a t) d [a] (fun s => (BitVec.ofNat 64 ((fmtOf t.toNat).classify (s.rd a).toNat), 0)) s
/-- FSIGN (R138). -/
def execFsign (d a b : Reg) (r t : BitVec 3) (s : State) : Out :=
  runFp (Enc.fsign d a b r t) d [a, b]
    (fun s => (BitVec.ofNat 64 ((fmtOf t.toNat).withSign r.toNat (s.rd a).toNat (s.rd b).toNat), 0)) s
/-- FMA (R135). -/
def execFma (d a b : Reg) (m t : BitVec 3) (s : State) : Out := runFma (Enc.fma d a b m t) d a b m t false false s
/-- FMSUB (R135). -/
def execFmsub (d a b : Reg) (m t : BitVec 3) (s : State) : Out := runFma (Enc.fmsub d a b m t) d a b m t false true s
/-- FNMA (R135). -/
def execFnma (d a b : Reg) (m t : BitVec 3) (s : State) : Out := runFma (Enc.fnma d a b m t) d a b m t true false s

end Sys2Proof.Machine
end

