-- ==== Sys2Proof/Machine/TopoForm.lean ====
section
/-! DEFINITION. Meshes as plain data (spec/15 R365-R371, R383-R387, R391): keys and faces, export forms and their
checks, closing marks, refining and coarsening, the layout of a generation. -/

namespace Sys2Proof.Machine

/-! ## Keys (R365, R366) -/

/-- LEVEL of a key. -/
def keyLevel (k : Nat) : Nat := k / 8 % 8
/-- TYPE of a key. -/
def keyType (k : Nat) : Nat := k % 8
/-- The PATH digit of level `l`, 1-6. -/
def keyDigit (k l : Nat) : Nat := k / 2 ^ (30 - 4 * l) % 16
/-- The digits of levels 1 to LEVEL. -/
def keyDigits (k : Nat) : List Nat := (List.range (keyLevel k)).map fun i => keyDigit k (i + 1)
/-- Children of a type. -/
def childCount (t : Nat) : Nat := if t = 3 then 10 else 8
/-- The type of a child. -/
def childType (t c : Nat) : Nat := if t = 3 ∧ 6 ≤ c then 1 else t
/-- Local faces of a type. -/
def faceCount (t : Nat) : Nat := match t with | 0 => 6 | 1 => 4 | 2 => 5 | 3 => 5 | _ => 0
/-- Whether a local face is a triangle. -/
def isTri (t f : Nat) : Bool := t == 1 || (t == 2 && decide (f < 2)) || (t == 3 && decide (1 ≤ f))

/-- The key of child `c`. -/
def childKey (k c : Nat) : Nat :=
  let l := keyLevel k
  k / 64 * 64 + c * 2 ^ (26 - 4 * l) + (l + 1) * 8 + childType (keyType k) c

/-- What the members of a family share: the digits above and the level. -/
def familyOf (k : Nat) : Nat × Nat := (k / 2 ^ (34 - 4 * keyLevel k), keyLevel k)

/-- The key of the parent, of a given type. -/
def parentKey (k ptype : Nat) : Nat :=
  let l := keyLevel k
  k / 2 ^ (34 - 4 * l) * 2 ^ (34 - 4 * l) + (l - 1) * 8 + ptype

/-- The digits of a tet key (R371): at most one is 8 or 9, and then those above are a pyramid's and those below a tet's. -/
def tetDigitsOk : List Nat → Bool
  | [] => true
  | d :: r => if 8 ≤ d then decide (d ≤ 9) && r.all (· ≤ 7) else
      (r.all (· ≤ 7) || decide (d ≤ 5)) && tetDigitsOk r

/-- Whether a key keeps R365 and R371. -/
def keyOk (k : Nat) : Bool :=
  let ds := keyDigits k
  decide (keyType k ≤ 3) && decide (keyLevel k ≤ 6)
  && (List.range 6).all (fun i => decide (i < keyLevel k) || keyDigit k (i + 1) == 0)
  && (match keyType k with
    | 1 => tetDigitsOk ds
    | 3 => ds.all (· ≤ 5)
    | _ => ds.all (· ≤ 7))

/-! ## Faces of children (R366) -/

/-- A list in the order of a number: each number gives one of its orders, and each order has a number. -/
def arrange {α : Type} : Nat → List α → Nat → List α
  | 0, _, _ => []
  | n + 1, l, k =>
    match l[k % l.length]? with
    | some x => x :: arrange n (l.eraseIdx (k % l.length)) (k / l.length)
    | none => []

/-- Subface u + 2v of a quad seen in one of its eight orientations. -/
def turnQuad (o u v : Nat) : Nat :=
  let p := if o % 2 = 0 then (u, v) else (v, u)
  (p.1 + o / 2) % 2 + 2 * ((p.2 + o / 4) % 2)

/-- Where a face of a child lies: (false, the parent's face, the subface) on the parent, or (true, a, b) between the children
a < b. -/
abbrev ChildSide := Bool × Nat × Nat

/-- The local faces of child `c` of a tet (R366): a corner tet is a smaller copy of its parent; the four tets of the octahedron
stand around the diagonal from edge 0-2 to edge 1-3, each at the centre of one face and against one corner tet, and which is
which, and their faces' numbers, are open (DESIGN CHOICE, log 9). -/
def tetSides (c : Nat) : List ChildSide :=
  let roles := arrange 4 [0, 1, 2, 3] (Config.childOrder 1 0)
  let child := fun (r : Nat) => 4 + roles.idxOf (r % 4)
  let corner := fun (r : Nat) => [1, 2, 3, 0].getD r 0
  let between := fun (a b : Nat) => (true, min a b, max a b)
  if c < 4 then
    (List.range 4).map fun f => if f = c then (true, c, child ([3, 0, 1, 2].getD c 0)) else (false, f, if c < f then c else c - 1)
  else
    let r := roles.getD (c - 4) 0
    arrange 4 [(false, [3, 0, 1, 2].getD r 0, 3), (true, corner r, c), between c (child (r + 1)), between c (child (r + 3))]
      (Config.childOrder 1 c)

/-- The local faces of child `c` of a prism (R366): corner prisms are smaller copies; the order of the centre's quads, and the
direction of a quad's first axis, are open (DESIGN CHOICE, log 9). -/
def prismSides (c : Nat) : List ChildSide :=
  let p := c % 4
  let z := c / 4
  let along := fun (k u : Nat) => if Config.childOrder 2 (8 + k) % 2 = 0 then u else 1 - u
  let ends := [if z = 0 then (false, 0, p) else (true, p, c), if z = 1 then (false, 1, p) else (true, c, p + 4)]
  ends ++ (if p = 3 then arrange 3 ((List.range 3).map fun t => (true, t + 4 * z, c)) (Config.childOrder 2 c)
    else (List.range 3).map fun k =>
      if k = p then (false, 2 + k, along k 0 + 2 * z)
      else if (k + 1) % 3 = p then (false, 2 + k, along k 1 + 2 * z)
      else (true, c, 3 + 4 * z))

/-- The local faces of child `c` of a pyramid (R366): the corner and apex pyramids are smaller copies; the orientation of the base,
and the order of the faces of the centre pyramid and of the tets, are open (DESIGN CHOICE, log 9). -/
def pyramidSides (c : Nat) : List ChildSide :=
  let cornerOf := fun (k j : Nat) => if j < (if j = k % 4 then k - 1 else k % 4) then 0 else 1
  if c < 4 then
    (false, 0, turnQuad (Config.childOrder 3 10) ([0, 1, 1, 0].getD c 0) (c / 2)) :: (List.range 4).map fun i =>
      let k := i + 1
      if k = c + 1 ∨ k % 4 = c then (false, k, cornerOf k c)
      else if k % 4 = (c + 2) % 4 then (true, c, 6 + c)
      else (true, c, if c = 0 then 9 else 5 + c)
  else if c = 4 then (true, 4, 5) :: (List.range 4).map fun i => (false, i + 1, 2)
  else if c = 5 then (true, 4, 5) :: arrange 4 ((List.range 4).map fun i => (true, 5, 6 + i)) (Config.childOrder 3 5)
  else
    let k := c - 5
    arrange 4 [(false, k, 3), (true, 5, c), (true, k - 1, c), (true, k % 4, c)] (Config.childOrder 3 c)

/-- The local faces of child `c` of a hex (R366). -/
def hexSides (c : Nat) : List ChildSide :=
  (List.range 6).map fun f =>
    let a := f / 2
    if c / 2 ^ a % 2 = f % 2 then (false, f, match a with | 0 => c / 2 | 1 => c % 2 + c / 4 * 2 | _ => c % 4)
    else if f % 2 = 0 then (true, c - 2 ^ a, c) else (true, c, c + 2 ^ a)

/-- The local faces of a child of a cell of type `t`. -/
def childSides (t c : Nat) : List ChildSide :=
  match t with
  | 0 => hexSides c
  | 1 => tetSides c
  | 2 => prismSides c
  | _ => pyramidSides c

/-- Where a face of a child lies: (true, sibling, its face), or (false, the parent's face, the subface). -/
def childFace (t c f : Nat) : Bool × Nat × Nat :=
  match (childSides t c).getD f (false, 0, 0) with
  | (true, a, b) =>
    let sib := if a = c then b else a
    (true, sib, (childSides t sib).idxOf (true, a, b))
  | x => x

/-- The child and its face at subface `u` of face `f`. -/
def childAt (t f u : Nat) : Option (Nat × Nat) :=
  (((List.range (childCount t)).flatMap fun c => (List.range (faceCount (childType t c))).map fun g => (c, g)).find?
    fun p => childFace t p.1 p.2 == (false, f, u))

/-- The subface of the other side's face that meets subface `u` of face `fa` of cell `ka`. -/
def subAcross (ka fa kb fb u : Nat) : Nat :=
  if (keyType ka = 0 ∧ keyType kb = 0 ∨ keyType ka = 2 ∧ keyType kb = 2 ∧ fa < 2) ∧ fa / 2 = fb / 2 ∧ fa ≠ fb then u
  else
    let o := Config.faceTurn (BitVec.ofNat 64 ka) fa (BitVec.ofNat 64 kb) fb
    if isTri (keyType ka) fa then
      if 3 ≤ u then u else if o / 3 % 2 = 0 then (u + o) % 3 else (2 * 3 + o - u) % 3
    else turnQuad o (u % 2) (u / 2)

/-! ## Export forms (R368-R371) -/

/-- A form read from memory. -/
structure Form where
  part : Nat
  ncell : Nat
  gen : Nat
  cells : List TCell
  faces : List TFaceRec
  deriving DecidableEq, Repr

/-- The boundary mark and the padding mark (R367). -/
def boundaryMark : Nat := 0xFFFFFFFE
/-- See `boundaryMark`. -/
def paddingMark : Nat := 0xFFFFFFFF

/-- A cell record, and whether its reserved bytes are 0. -/
def cellOf (l : List Byte) : TCell × Bool :=
  (⟨BitVec.ofNat 64 (fieldAt l 0 8), BitVec.ofNat 16 (fieldAt l 8 2), BitVec.ofNat 32 (fieldAt l 12 4)⟩, fieldAt l 10 2 == 0)

/-- A face record, and whether its reserved byte is 0. -/
def faceOf (l : List Byte) : TFaceRec × Bool :=
  (⟨fieldAt l 0 4, fieldAt l 4 4, fieldAt l 8 1, fieldAt l 9 1, fieldAt l 10 1, BitVec.ofNat 32 (fieldAt l 12 4)⟩,
    fieldAt l 11 1 == 0)

/-- The order of face records (R370). -/
def faceLt (a b : TFaceRec) : Bool :=
  decide (a.left < b.left) || (a.left == b.left && (decide (a.lface < b.lface)
    || (a.lface == b.lface && decide (a.sub < b.sub))))

/-- Whether a face has a boundary on its right. -/
def TFaceRec.isBoundary (f : TFaceRec) : Bool := f.right == boundaryMark

/-- Whether a cell record keeps R371: `i` is its index, `before` the cells before it. -/
def cellOk (nc i : Nat) (c : TCell) (before : List TCell) : Bool :=
  keyOk c.key.toNat && !before.any (·.key == c.key)
  && (i == 0 || i == nc || (match before.getLast? with | some p => decide (p.key.toNat < c.key.toNat) | none => true))

/-- The coarser side of a face between cells of different levels: its cell and its local face. -/
def TFaceRec.coarse (f : TFaceRec) (lev : Nat → Nat) : Nat × Nat :=
  if lev f.left < lev f.right then (f.left, f.lface) else (f.right, f.rface)

/-- Whether a face record keeps the values, the index ranges and the balance of R367 and R370. -/
def faceOk (keys : List Nat) (f : TFaceRec) : Bool :=
  let key := fun i => keys.getD i 0
  let lev := fun i => keyLevel (key i)
  decide (f.left < keys.length) && decide (f.lface < faceCount (keyType (key f.left)))
  && (if f.isBoundary then f.rface == 0xFF && f.sub == 0xFF
    else decide (f.right < keys.length) && decide (f.left < f.right) && f.btag == 0
      && decide (f.rface < faceCount (keyType (key f.right)))
      && decide (lev f.left ≤ lev f.right + 1) && decide (lev f.right ≤ lev f.left + 1)
      && (if lev f.left = lev f.right then f.sub == 0xFF else decide (f.sub ≤ 3)))

/-- Whether face `j` is the first record of a hanging face whose coarser side lacks a record for a subface, or has two
for one; a ghost's face need not be listed whole (R370). A record that offends by another value lists its subface (R371). -/
def hangingBad (nc : Nat) (keys : List Nat) (faces : List TFaceRec) (j : Nat) (f : TFaceRec) : Bool :=
  let lev := fun i => keyLevel (keys.getD i 0)
  let hanging := fun (g : TFaceRec) => !g.isBoundary && lev g.left != lev g.right
  if hanging f && faceOk keys f then
    let c := f.coarse lev
    let mine := fun (g : TFaceRec) => hanging g && decide (g.left < keys.length) && decide (g.right < keys.length) && g.coarse lev == c
    let subs := (faces.filter mine).map (·.sub)
    let again := (List.range 4).any fun u => decide (2 ≤ (subs.filter (· == u)).length)
    !((faces.take j).any mine) && (again || (decide (c.1 < nc) && !(List.range 4).all fun u => subs.contains u))
  else false

/-- The ordinal of the first cell record that breaks R371. -/
def firstBadCell (nc : Nat) : Nat → List (TCell × Bool) → List TCell → Option Nat
  | _, [], _ => none
  | i, (c, z) :: r, before =>
    if z && cellOk nc i c before then firstBadCell nc (i + 1) r (before ++ [c]) else some (i + 1)

/-- The number of the first face record that breaks R371. -/
def firstBadFace (nc : Nat) (keys : List Nat) (all : List TFaceRec) : Nat → List (TFaceRec × Bool) → Option TFaceRec → Option Nat
  | _, [], _ => none
  | j, (f, z) :: r, prev =>
    if z && faceOk keys f && (match prev with | none => true | some p => faceLt p f) && !hangingBad nc keys all j f then
      firstBadFace nc keys all (j + 1) r (some f)
    else some j

/-- The ordinal of the first offending record of a form, if it is malformed (R371). -/
def formBad (headerOk : Bool) (nc : Nat) (cells : List (TCell × Bool)) (faces : List (TFaceRec × Bool)) : Option Nat :=
  if !headerOk then some 0
  else match firstBadCell nc 0 cells [] with
    | some o => some o
    | none => (firstBadFace nc (cells.map (·.1.key.toNat)) (faces.map (·.1)) 0 faces none).map (· + 1 + cells.length)

/-! ## The layout of a generation (R367, R370) -/

/-- Where a new cell comes from (R385). -/
inductive Src where
  | copy (old : Nat) | refine (old : Nat) | coarsen (old count : Nat) | form (f i : Nat)
  deriving DecidableEq, Repr

/-- A cell of a generation to be laid out. -/
structure NCell where
  key : Nat
  owner : BitVec 16
  remote : BitVec 32
  owned : Bool
  src : Src
  deriving DecidableEq, Repr

/-- A face of a generation to be laid out, by keys; `b` none is a boundary. -/
structure NFace where
  a : Nat
  fa : Nat
  b : Option (Nat × Nat)
  sub : Nat
  btag : BitVec 32
  deriving DecidableEq, Repr

/-- Inserts a cell in key order. -/
def insertCell (c : NCell) : List NCell → List NCell
  | [] => [c]
  | d :: r => if c.key < d.key then c :: d :: r else d :: insertCell c r

/-- Inserts a face record in the order of R370; a record of the same face and subface is kept once. -/
def insertFace (f : TFaceRec) : List TFaceRec → List TFaceRec
  | [] => [f]
  | g :: r => if faceLt f g then f :: g :: r
    else if f.left = g.left ∧ f.right = g.right ∧ f.lface = g.lface ∧ f.rface = g.rface ∧ f.sub = g.sub then g :: r
    else g :: insertFace f r

/-- Lays a generation out: owned cells in key order, then the ghosts that share a face with one, and the face records
that touch an owned cell. -/
def layout (cells : List NCell) (faces : List NFace) : List NCell × List TFaceRec :=
  let isOwned := fun k => cells.any fun c => c.owned && c.key == k
  let near := faces.filter fun f => isOwned f.a || (match f.b with | some b => isOwned b.1 | none => false)
  let touched := fun k => near.any fun f => f.a == k || (match f.b with | some b => b.1 == k | none => false)
  let owned := (cells.filter (·.owned)).foldl (fun l c => insertCell c l) []
  let ghosts := (cells.filter fun c => !c.owned && touched c.key).foldl (fun l c => insertCell c l) []
  let all := owned ++ ghosts
  let index := fun k => all.findIdx fun c => c.key == k
  let recs := near.map fun f =>
    match f.b with
    | none => (⟨index f.a, boundaryMark, f.fa, 0xFF, 0xFF, f.btag⟩ : TFaceRec)
    | some (k, fb) =>
      if index f.a < index k then ⟨index f.a, index k, f.fa, fb, f.sub, 0⟩ else ⟨index k, index f.a, fb, f.fa, f.sub, 0⟩
  (all, recs.foldl (fun l f => insertFace f l) [])

/-- A remap record with one more cell, or the next record (R385); the list is held newest first. -/
def remapAdd (acc : List Remap) (i : Nat) (x : Src) : List Remap :=
  let fresh : Remap := match x with
    | .copy o => ⟨i, o, 1, 0, 0⟩
    | .refine o => ⟨i, o, 1, 1, 0⟩
    | .coarsen o n => ⟨i, o, n, 2, 0⟩
    | .form f j => ⟨i, j, 1, 4, f⟩
  match acc with
  | [] => [fresh]
  | r :: rest =>
    let joins : Bool := match x with
      | .copy o => r.kind == 0 && r.old + r.count == o
      | .refine o => r.kind == 1 && r.old == o
      | .coarsen _ _ => false
      | .form f j => r.kind == 4 && r.form == f && r.old + r.count == j
    if joins then { r with count := r.count + 1 } :: rest else fresh :: r :: rest

/-- The remap list of a generation, in ascending NEW. -/
def remapList (cells : List NCell) : List Remap :=
  ((cells.mapIdx fun i c => (i, c.src)).foldl (fun acc p => remapAdd acc p.1 p.2) []).reverse

/-- The cells of a layout. -/
def layoutCells (l : List NCell) : List TCell := l.map fun c => ⟨BitVec.ofNat 64 c.key, c.owner, c.remote⟩

/-- The owned and ghost cells of a layout as counts. -/
def ownedCount (l : List NCell) : Nat := (l.filter (·.owned)).length

/-! ## Closing marks (R383) -/

/-- Whether a family may keep -1: complete here, every member -1. -/
def familyFree (keys : List Nat) (f : List Int) (fam : Nat × Nat) : Bool :=
  let ms := (keys.zip f).filter fun p => familyOf p.1 == fam
  let count := if ms.any (fun p => keyType p.1 == 3 || decide (8 ≤ keyDigit p.1 fam.2)) then 10 else 8
  ms.length == count && ms.all (·.2 == -1)

/-- One pass of the loop over families. -/
def closeFamilies (keys : List Nat) (f : List Int) : List Int :=
  (keys.zip f).map fun p => if p.2 = -1 ∧ familyFree keys f (familyOf p.1) = false then 0 else p.2

/-- One pass of the loop over pairs. -/
def closePairs (keys : List Nat) (faces : List TFaceRec) (f : List Int) : List Int :=
  let lev := fun i => (keyLevel (keys.getD i 0) : Int)
  faces.foldl (fun g r =>
    if r.isBoundary then g
    else
      let up := fun (g : List Int) (c n : Nat) =>
        if lev c + g.getD c 0 + 1 < lev n + g.getD n 0 then g.set c (g.getD c 0 + 1) else g
      up (up g r.left r.right) r.right r.left) f

/-- The loop of R383; flags only rise, so `fuel` of two passes a cell reaches its end. -/
def closeMarks (keys : List Nat) (faces : List TFaceRec) : Nat → List Int → List Int
  | 0, f => f
  | k + 1, f =>
    let g := closePairs keys faces (closeFamilies keys f)
    if g = f then f else closeMarks keys faces k g

/-- A flag before the loop. -/
def firstMark (level : Nat) (input : Int) : Int :=
  if input = 1 then (if level = 6 then 0 else 1) else if input = -1 then (if level = 0 then 0 else -1) else 0

/-! ## Refining and coarsening (R384) -/

/-- What a side of an old face becomes: kept whole, split into the children at its four subfaces, a subface of the
parent's face, or inside the parent. -/
inductive Side where
  | whole (k f : Nat)
  | split (at_ : List (Nat × Nat))
  | part (k f u : Nat)
  | inner
  deriving DecidableEq, Repr

/-- The type of the parent of a family. -/
def parentType (keys : List Nat) (k : Nat) : Nat :=
  let fam := familyOf k
  if keys.any fun x => familyOf x == fam && (keyType x == 3 || decide (8 ≤ keyDigit x fam.2)) then 3 else keyType k

/-- What becomes of a side. -/
def sideOf (keys : List Nat) (marks : List Int) (i f : Nat) : Side :=
  let k := keys.getD i 0
  let m := marks.getD i 0
  if m = 1 then
    .split ((List.range 4).filterMap fun u => (childAt (keyType k) f u).map fun p => (childKey k p.1, p.2))
  else if m = -1 then
    let t := parentType keys k
    let x := childFace t (keyDigit k (keyLevel k)) f
    if x.1 then .inner else .part (parentKey k t) x.2.1 x.2.2
  else .whole k f

/-- The faces that an old interior face leaves when the first side is the coarser one, or the sides are of one level
(`s` none); (ka, fa, kb, fb) is the old face. -/
def pairSides (ka fa kb fb : Nat) (s : Option Nat) (x y : Side) : List NFace :=
  let face := fun (a : Nat × Nat) (b : Nat × Nat) (sub : Nat) => (⟨a.1, a.2, some b, sub, 0⟩ : NFace)
  match s with
  | none =>
    match x, y with
    | .whole a f, .whole b g => [face (a, f) (b, g) 0xFF]
    | .split l, .whole b g => l.mapIdx fun u a => face a (b, g) (subAcross ka fa kb fb u)
    | .whole a f, .split l => l.mapIdx fun v b => face (a, f) b (subAcross kb fb ka fa v)
    | .split l, .split r => l.mapIdx fun u a => face a (r.getD (subAcross ka fa kb fb u) (0, 0)) 0xFF
    | .part a f u, .whole b g => [face (a, f) (b, g) u]
    | .whole a f, .part b g v => [face (a, f) (b, g) v]
    | .part a f _, .part b g _ => [face (a, f) (b, g) 0xFF]
    | _, _ => []
  | some t =>
    match x, y with
    | .whole a f, .whole b g => [face (a, f) (b, g) t]
    | .split l, .whole b g => [face (l.getD t (0, 0)) (b, g) 0xFF]
    | .split l, .split r => r.mapIdx fun v b => face (l.getD t (0, 0)) b (subAcross kb fb (l.getD t (0, 0)).1 (l.getD t (0, 0)).2 v)
    | .whole a f, .part b g _ => [face (a, f) (b, g) 0xFF]
    | .split l, .part b g v => [face (l.getD t (0, 0)) (b, g) v]
    | .part a f u, .part b g _ => [face (a, f) (b, g) u]
    | _, _ => []

/-- The faces that an old face leaves. -/
def faceAfter (keys : List Nat) (marks : List Int) (r : TFaceRec) : List NFace :=
  let x := sideOf keys marks r.left r.lface
  let ka := keys.getD r.left 0
  if r.isBoundary then
    match x with
    | .whole k f => [⟨k, f, none, 0xFF, r.btag⟩]
    | .split l => l.map fun p => ⟨p.1, p.2, none, 0xFF, r.btag⟩
    | .part k f _ => [⟨k, f, none, 0xFF, r.btag⟩]
    | .inner => []
  else
    let y := sideOf keys marks r.right r.rface
    let kb := keys.getD r.right 0
    if keyLevel ka = keyLevel kb then pairSides ka r.lface kb r.rface none x y
    else if keyLevel ka < keyLevel kb then pairSides ka r.lface kb r.rface (some r.sub) x y
    else pairSides kb r.rface ka r.lface (some r.sub) y x

/-- The faces between the children of a cell. -/
def innerFaces (k : Nat) : List NFace :=
  let t := keyType k
  (List.range (childCount t)).flatMap fun c =>
    (List.range (faceCount (childType t c))).filterMap fun g =>
      let x := childFace t c g
      if x.1 && decide (c < x.2.1) then some ⟨childKey k c, g, some (childKey k x.2.1, x.2.2), 0xFF, 0⟩ else none

/-- The cells that an old cell leaves: itself, its children, or for the first member of a family the parent, which is owned as that
member is, also where the family has owned and ghost members (R384; DESIGN CHOICE, log 42). -/
def cellAfter (g : Gen) (keys : List Nat) (i : Nat) (c : TCell) : List NCell :=
  let k := c.key.toNat
  let owned := decide (i < g.ncell)
  let m := g.marks.getD i 0
  if m = 1 then
    (List.range (childCount (keyType k))).map fun d => ⟨childKey k d, c.owner, 0xFFFFFFFF, owned, .refine i⟩
  else if m = -1 then
    let t := parentType keys k
    if keyDigit k (keyLevel k) = 0 then [⟨parentKey k t, c.owner, 0xFFFFFFFF, owned, .coarsen i (childCount t)⟩] else []
  else [⟨k, c.owner, c.remote, owned, .copy i⟩]

/-- The cells and faces that TCOMMIT builds. -/
def refineGen (g : Gen) : List NCell × List TFaceRec :=
  let keys := g.cells.map (·.key.toNat)
  let cells := (g.cells.mapIdx fun i c => cellAfter g keys i c).flatten
  let inner := ((g.cells.mapIdx fun i c => if g.marks.getD i 0 = 1 then innerFaces c.key.toNat else [])).flatten
  layout cells (inner ++ g.faces.flatMap (faceAfter keys g.marks))

/-! ## Joining (R390, R391) -/

/-- The faces of a generation or a form by keys. -/
def facesByKey (cells : List TCell) (faces : List TFaceRec) : List NFace :=
  let key := fun i => match cells[i]? with | some c => c.key.toNat | none => 0
  faces.map fun f =>
    ⟨key f.left, f.lface, if f.isBoundary then none else some (key f.right, f.rface), f.sub, f.btag⟩

/-- The cells and faces of an export form of owned cells FIRST to FIRST + COUNT - 1 (R390). -/
def exportGen (g : Gen) (first count : Nat) (part : BitVec 16) : List NCell × List TFaceRec :=
  let cells := g.cells.mapIdx fun i c =>
    (⟨c.key.toNat, if i < g.ncell then part else c.owner, BitVec.ofNat 32 i, decide (first ≤ i) && decide (i < first + count),
      .copy i⟩ : NCell)
  layout cells (facesByKey g.cells g.faces)

/-- Adds a ghost candidate unless its key is there. -/
def addCell (l : List NCell) (c : NCell) : List NCell := if l.any (·.key == c.key) then l else l ++ [c]

/-- The cells and faces that TIMPORT joins (R391): `dest` holds DEST of each old owned cell, where there is one. -/
def importGen (g : Gen) (first count : Nat) (part : BitVec 16) (forms : List Form) (dest : List Nat) :
    List NCell × List NFace :=
  let kept := fun i => decide (first ≤ i) && decide (i < first + count)
  let listed := fun (k : Word) => (forms.findSome? fun f => f.cells.find? (·.key == k)).map (·.owner)
  let owner := fun (i : Nat) (k : Word) =>
    match (if i < g.ncell then dest[i]? else none) with
    | some d => BitVec.ofNat 16 d
    | none => (listed k).getD 0xFFFF
  let ownedOld := ((g.cells.mapIdx fun i c => (i, c)).filter fun p => kept p.1).map fun p =>
    (⟨p.2.key.toNat, part, p.2.remote, true, .copy p.1⟩ : NCell)
  let ownedForm := (forms.mapIdx fun n f => (f.cells.take f.ncell).mapIdx fun j c =>
    (⟨c.key.toNat, part, c.remote, true, .form n j⟩ : NCell)).flatten
  let ghostOld := ((g.cells.mapIdx fun i c => (i, c)).filter fun p => !kept p.1).map fun p =>
    (⟨p.2.key.toNat, owner p.1 p.2.key, p.2.remote, false, .copy p.1⟩ : NCell)
  let ghostForm := (forms.mapIdx fun n f => (f.cells.drop f.ncell).mapIdx fun j c =>
    (⟨c.key.toNat, (listed c.key).getD 0xFFFF, c.remote, false, .form n (f.ncell + j)⟩ : NCell)).flatten
  ((ghostOld ++ ghostForm).foldl addCell (ownedOld ++ ownedForm),
    facesByKey g.cells g.faces ++ forms.flatMap fun f => facesByKey f.cells f.faces)

/-- The form that holds the second cell of a key owned twice (R391). -/
def dupForm (own : List Nat) : Nat → List Form → Option Nat
  | _, [] => none
  | n, f :: r =>
    let ks := (f.cells.take f.ncell).map (·.key.toNat)
    if ks.any own.contains then some n else dupForm (own ++ ks) (n + 1) r

/-- The cells of `keys`, other than itself, that lie in cell `k` and touch its face `f`; the number bounds the levels. -/
def within (keys : List Nat) : Nat → Nat × Nat → List Nat
  | 0, _ => []
  | n + 1, x =>
    if keys.any fun k => decide (keyLevel x.1 < keyLevel k) && k / 2 ^ (30 - 4 * keyLevel x.1) == x.1 / 2 ^ (30 - 4 * keyLevel x.1) then
      (List.range 4).flatMap fun u =>
        match childAt (keyType x.1) x.2 u with
        | none => []
        | some p =>
          let y := (childKey x.1 p.1, p.2)
          (if keys.contains y.1 then [y.1] else []) ++ within keys n y
    else []

/-- The cells of `keys` that hold face `f` of cell `k` on one of their faces: the cell itself and those it lies in. -/
def around (keys : List Nat) : Nat → Nat × Nat → List Nat
  | 0, _ => []
  | n + 1, x =>
    (if keys.contains x.1 then [x.1] else [])
    ++ (if keyLevel x.1 = 0 then []
      else (if keyType x.1 = 1 ∧ 6 ≤ keyDigit x.1 (keyLevel x.1) then [1, 3] else [keyType x.1]).flatMap fun t =>
        if t = 1 ∧ 8 ≤ keyDigit x.1 (keyLevel x.1) then []
        else
          let y := childFace t (keyDigit x.1 (keyLevel x.1)) x.2
          if y.1 then [] else around keys n (parentKey x.1 t, y.2.1))

/-- Whether two lists hold cells of levels more than 1 apart. -/
def apart (l r : List Nat) : Bool :=
  l.any fun a => r.any fun b => decide (keyLevel a + 1 < keyLevel b) || decide (keyLevel b + 1 < keyLevel a)

/-- Whether cells of `keys` that lie in two cells of one level and meet across their common face differ in level by more than 1;
the number bounds the levels. -/
def meetApart (keys : List Nat) : Nat → Nat × Nat → Nat × Nat → Bool
  | 0, _, _ => false
  | n + 1, x, y =>
    let here := fun (z : Nat × Nat) => if keys.contains z.1 then [z.1] else []
    apart (here x) (here y ++ within keys 6 y) || apart (here y) (within keys 6 x)
    || (within keys 6 x != [] && within keys 6 y != [] && (List.range 4).any fun u =>
      match childAt (keyType x.1) x.2 u, childAt (keyType y.1) y.2 (subAcross x.1 x.2 y.1 y.2 u) with
      | some p, some q => meetApart keys n (childKey x.1 p.1, p.2) (childKey y.1 q.1, q.2)
      | _, _ => false)

/-- Whether two cells of a generation that share a face or subface differ in level by more than 1 (R371): those that a record
names, and those that they have become where the other side's record is older. -/
def unbalanced (cells : List NCell) (faces : List NFace) : Bool :=
  let keys := cells.map (·.key)
  faces.any fun f =>
    match f.b with
    | none => false
    | some b =>
      let x := (f.a, f.fa)
      apart (around keys 7 x) (around keys 7 b ++ within keys 6 b) || apart (around keys 7 b) (within keys 6 x)
      || (if keyLevel x.1 = keyLevel b.1 then meetApart keys 7 x b
        else
          let lo := if keyLevel x.1 < keyLevel b.1 then x else b
          let hi := if keyLevel x.1 < keyLevel b.1 then b else x
          match childAt (keyType lo.1) lo.2 f.sub with
          | some p => meetApart keys 7 (childKey lo.1 p.1, p.2) hi
          | none => false)

/-! ## Neighbours and benches (R381, R387) -/

/-- The distinct neighbours of a cell, in ascending index. -/
def neighbours (faces : List TFaceRec) (i : Nat) : List Nat :=
  faces.foldl (fun l f =>
    if f.isBoundary then l else if f.left = i then insertNat f.right l else if f.right = i then insertNat f.left l else l) []

/-- The bench of each face, in order (R387). -/
def colourFaces : List TFaceRec → List (TFaceRec × Nat) → List Nat
  | [], _ => []
  | f :: r, done =>
    let meets := fun (g : TFaceRec) =>
      g.left == f.left || g.left == f.right || (!g.isBoundary && (g.right == f.left || g.right == f.right))
    let b := ((List.range 32).find? fun b => !done.any fun p => p.2 == b && meets p.1).getD 32
    b :: colourFaces r (done ++ [(f, b)])

end Sys2Proof.Machine
end

