-- ==== Sys2Proof/Machine/Topo.lean ====
section
/-! DEFINITION. The topology engine: the TOPO instructions and their operations (spec/15 R372-R391). -/

namespace Sys2Proof.Machine

/-! ## Handles and acceptance (R372, R374, R377) -/

/-- The default of a vector of words. -/
def zeroWord : Word := 0

/-- What a handle operand names for the executing stream: (die, slot) of an open generation of its own die, or the
schedule context where `sched` allows it. -/
def State.handle (s : State) (w : Word) (sched : Bool) : Option (Nat × Nat) :=
  let id := w.toNat % 65536
  let d := s.hart.die
  let slot := id % 1024
  if id / 4096 = 2 ∧ id % 4096 / 1024 = d then
    if slot = schedSlot then (if sched then some (d, slot) else none)
    else match s.gen d slot with
      | some g => if g.closed.isNone then some (d, slot) else none
      | none => none
  else none

/-- Whether the engine of die `d` holds 64 operations (R374). -/
def State.topoFull (s : State) (d : Nat) : Bool :=
  decide (64 ≤ (s.ops.filter fun o => match o.ctx with | .topo e _ => e == d | _ => false).length)

/-- Accepts an operation of the engine, once it has room. -/
def State.acceptTopo (s : State) (word d slot : Nat) (k : OpKind) (token : Reg) (also : Option (Nat × Nat)) : Res Unit :=
  if s.topoFull d then .wait s else s.accept word (.topo d slot) k token also

/-- Writes a handle or a count, which is never pending, after acceptance (R377). -/
def State.giveG (s : State) (d : Reg) (v : Nat) : State := s.setG d (BitVec.ofNat 64 v)

/-- Runs a TOPO instruction that takes a handle: the checks of R377 in their order. -/
def runTopo (word : Nat) (d a b : Reg) (align : Nat) (sched : Bool) (body : Nat → Nat → State → Res Unit) (s : State) : Out :=
  runScalar ⟨word, 4, .never, true, false, [d, a, b]⟩
    (fun s => match s.handle (s.rd a) sched with
      | none => .trap .illop (wordVal word) s
      | some (die, slot) =>
        if (s.rd b).toNat % align ≠ 0 then .trap .misalign (s.rd b) s else body die slot s) s

/-- A generation that is being built. -/
def Gen.fresh (d slot : Nat) : Gen where
  die := d
  slot := slot
  number := 0
  part := 0
  ncell := 0
  cells := []
  faces := []
  marks := []
  benches := none
  remap := []
  built := false
  closed := none
  tl := Timeline.zero

/-- The lowest free slot of a die, if the engine may create a generation (R378). -/
def State.freeSlot (s : State) (d : Nat) : Option Nat :=
  if bitAt (vget s.hub.tsbase 0 d).toNat 0 then (List.range 1023).find? fun i => (s.gen d i).isNone else none

/-- Creates a generation whose operation 1 builds it (R378, R384): `also` is the old slot that counts it too. -/
def State.build (s : State) (word : Nat) (d : Reg) (k : OpKind) (old : Option Nat) : Res Unit :=
  let die := s.hart.die
  match s.freeSlot die with
  | none => .ok () (s.finishG word 4 d 0)
  | some slot =>
    let tl := match old with | some o => s.timeline (.topo die o) | none => Timeline.zero
    if s.topoFull die ∨ s.remoteStoresOut then .wait s
    else if 2 ^ 63 ≤ tl.issued + 1 then .trap .illop (wordVal word) s
    else
      let s1 := { s with gens := s.gens ++ [Gen.fresh die slot] }
      let s2 := match old with
        | some o => s1.setTimeline (.topo die o) { tl with issued := tl.issued + 1 }
        | none => s1
      (s2.acceptTopo word die slot k 0 (old.map fun o => (o, tl.issued + 1))).bind fun _ s3 =>
        .ok () (s3.giveG d (0x2000 + 1024 * die + slot))

/-- TBIND (R378). -/
def execTbind (d a b : Reg) (s : State) : Out :=
  let word := Enc.tbind d a b
  runScalar ⟨word, 4, .never, true, false, [d, a, b]⟩
    (fun s =>
      if (s.rd a).toNat % 64 ≠ 0 then .trap .misalign (s.rd a) s
      else if (s.rd b).toNat % 8 ≠ 0 then .trap .misalign (s.rd b) s
      else s.build word d (.tbind (s.rd a) (s.rd b)) none) s

/-- TCOMMIT (R384). -/
def execTcommit (d a b : Reg) (s : State) : Out :=
  runTopo (Enc.tcommit d a b) d a b 64 false
    (fun _ slot s => s.build (Enc.tcommit d a b) d (.tcommit slot (s.rd b)) (some slot)) s

/-- TIMPORT (R391). -/
def execTimport (d a b : Reg) (s : State) : Out :=
  runTopo (Enc.timport d a b) d a b 64 false
    (fun _ slot s => s.build (Enc.timport d a b) d (.timport slot (s.rd b)) (some slot)) s

/-- TMARK (R383). -/
def execTmark (d a b : Reg) (s : State) : Out :=
  runTopo (Enc.tmark d a b) d a b 8 false
    (fun die slot s => s.acceptTopo (Enc.tmark d a b) die slot (.tmark (s.rd b)) d none) s

/-- TCOLOUR (R387). -/
def execTcolour (d a b : Reg) (s : State) : Out :=
  runTopo (Enc.tcolour d a b) d a b 8 false
    (fun die slot s => s.acceptTopo (Enc.tcolour d a b) die slot (.tcolour (s.rd b)) d none) s

/-- TLEVEL (R388). -/
def execTlevel (d a b : Reg) (s : State) : Out :=
  runTopo (Enc.tlevel d a b) d a b 64 true
    (fun die slot s => s.acceptTopo (Enc.tlevel d a b) die slot (.tlevel (s.rd b)) d none) s

/-- TCUT (R389). -/
def execTcut (d a b : Reg) (s : State) : Out :=
  runTopo (Enc.tcut d a b) d a b 64 true
    (fun die slot s => s.acceptTopo (Enc.tcut d a b) die slot (.tcut (s.rd b)) d none) s

/-- TREMAP (R386). -/
def execTremap (d a b : Reg) (s : State) : Out :=
  runTopo (Enc.tremap d a b) d a b 64 false
    (fun die slot s => s.acceptTopo (Enc.tremap d a b) die slot (.tremap (s.rd b)) d none) s

/-- TXPORT (R390). -/
def execTxport (d a b : Reg) (s : State) : Out :=
  runTopo (Enc.txport d a b) d a b 64 false
    (fun die slot s => s.acceptTopo (Enc.txport d a b) die slot (.txport (s.rd b)) d none) s

/-- TFREE (R379): the stream that closed the generation waits and destroys it. -/
def execTfree (a : Reg) (s : State) : Out :=
  runScalar ⟨Enc.tfree a, 4, .never, true, false, [a]⟩
    (fun s =>
      let id := (s.rd a).toNat % 65536
      let d := s.hart.die
      let me := (s.hart.tag, s.onFeeder)
      match (if id / 4096 = 2 ∧ id % 4096 / 1024 = d ∧ id % 1024 ≠ schedSlot then s.gen d (id % 1024) else none) with
      | none => .trap .illop (wordVal (Enc.tfree a)) s
      | some g =>
        if g.closed.isSome ∧ g.closed ≠ some me then .trap .illop (wordVal (Enc.tfree a)) s
        else if g.tl.count = g.tl.issued then
          let s1 := { s with gens := s.gens.filter fun x => !(x.die == d && x.slot == g.slot) }
          .ok () ((s1.endCtx (· == .topo d g.slot)).finish (Enc.tfree a) 4)
        else .wait (s.setGen { g with closed := some me })) s

/-! ## The order of operations (R374) -/

/-- Whether an operation writes the state of the generation in a slot: a build of it, TMARK, TCOLOUR. -/
def Op.writes (o : Op) (d slot : Nat) : Bool :=
  o.ctx == .topo d slot && (match o.kind with
    | .tbind _ _ | .tcommit _ _ | .timport _ _ | .tmark _ | .tcolour _ => true
    | _ => false)

/-- The number of an operation on a generation's timeline, if it counts there. -/
def Op.numberOn (o : Op) (d slot : Nat) : Option Nat :=
  if o.ctx = .topo d slot then some o.num
  else match o.ctx, o.also with
    | .topo e _, some (x, k) => if e = d ∧ x = slot then some k else none
    | _, _ => none

/-- Whether every earlier operation that an operation follows on a generation has completed. -/
def State.topoClear (s : State) (o : Op) (d slot : Nat) : Bool :=
  match o.numberOn d slot with
  | none => true
  | some k => !s.ops.any fun p => (match p.numberOn d slot with | some j => decide (j < k) | none => false)
      && (o.writes d slot || p.writes d slot)

/-- Whether an operation may start. -/
def State.topoReady (s : State) (o : Op) : Bool :=
  match o.ctx with
  | .topo d slot => slot == schedSlot || (s.topoClear o d slot && (match o.also with | some (x, _) => s.topoClear o d x | none => true))
  | _ => true

/-! ## Streams into tile queues (R380-R382) -/

/-- An index as a stream emits it (R380). -/
def shifted (sh x : Nat) : Nat := if boundaryMark ≤ x then x else x * 2 ^ sh % 2 ^ 32

/-- A tile of 32-bit elements. -/
def tile32 (vl rc : Nat) (e : Nat → Nat → Nat) : Tile :=
  ⟨2, vl, rc, true, (List.range rc).flatMap fun r => (List.range vl).flatMap fun j => toLe 4 (e r j), []⟩

/-- The tiles of TNBR (R381). -/
def nbrTiles (g : Gen) (first count sh vl rc : Nat) : List Tile :=
  (List.range ((count + rc - 1) / rc)).map fun t =>
    let rows := (List.range rc).map fun r =>
      if t * rc + r < count then neighbours g.faces (first + t * rc + r) else []
    tile32 vl rc fun r j => shifted sh ((rows.getD r []).getD j paddingMark)

/-- The ordinals of the faces that TFACE lists (R382). -/
def faceList (g : Gen) (bench parts part : Nat) : List Nat :=
  let n := g.faces.length
  let of := fun (b : Nat) => match g.benches with
    | some l => (List.range n).filter fun i => l.getD i 32 == b
    | none => if b = 0 then List.range n else []
  if bench = 63 then (List.range 33).flatMap of
  else
    let l := of bench
    let lo := part * l.length / parts
    (l.take ((part + 1) * l.length / parts)).drop lo

/-- The tiles of TFACE. -/
def faceTiles (g : Gen) (l : List Nat) (sh vl rc : Nat) : List Tile :=
  (List.range ((l.length + vl - 1) / vl)).map fun t => tile32 vl rc fun r j =>
    match l[t * vl + j]? with
    | none => paddingMark
    | some i => match g.faces[i]? with
      | none => paddingMark
      | some f => shifted sh (if r = 0 then f.left else if r = 1 then f.right else i)

/-- Whether TNBR's selector breaks R381. -/
def badNbr (g : Gen) (w vl : Nat) : Bool :=
  decide (g.ncell < w % 2 ^ 32 + bitsAt w 55 32) || decide (vl < 24) || w / 2 ^ 60 != 0

/-- Whether TFACE's selector breaks R382. -/
def badFace (g : Gen) (w vl rc : Nat) : Bool :=
  let p := bitsAt w 21 16
  let b := w % 64
  rc != 3 || vl == 0 || p == 0 || decide (32 < p) || (decide (33 ≤ b) && decide (b ≤ 62)) || (b == 63 && p != 1)
  || (decide (b ≤ 32) && g.benches.isNone) || decide (p ≤ bitsAt w 12 8)
  || w / 2 ^ 60 != 0 || bitsAt w 55 22 != 0 || bitsAt w 15 13 != 0 || bitsAt w 7 6 != 0

/-- The frame of TNBR and TFACE: acceptance follows the build and every writer (R374), then the checks of R380. -/
def runStream (word : Nat) (d a b : Reg) (bad : Gen → Nat → Nat → Nat → Bool) (tiles : Gen → Nat → Nat → Nat → List Tile)
    (s : State) : Out :=
  runTopo word d a b 1 false
    (fun die slot s =>
      if s.hart.hasFeeder = false ∨ vtypeSew s.st.vtype ≠ 2 ∨ vtypeLmul s.st.vtype ≠ 1 then .trap .illop (wordVal word) s
      else match s.gen die slot with
        | none => .trap .illop (wordVal word) s
        | some g =>
          if s.ops.any fun o => o.writes die slot then .wait s
          else
            let w := (s.rd b).toNat
            let vl := s.st.vl.toNat
            let rc := s.st.rc.toNat
            if bad g w vl rc then .trap .illop (wordVal word) s
            else
              let l := tiles g w vl rc
              (s.acceptTopo word die slot (.tiles (bitsAt w 59 59) l) 0 none).bind fun _ s1 =>
                .ok () ((if l = [] then s1.endAt s.nextOp else s1).giveG d l.length)) s

/-- TNBR (R381). -/
def execTnbr (d a b : Reg) (s : State) : Out :=
  runStream (Enc.tnbr d a b) d a b (fun g w vl _ => badNbr g w vl)
    (fun g w vl rc => nbrTiles g (w % 2 ^ 32) (bitsAt w 55 32) (bitsAt w 58 56) vl rc) s

/-- TFACE (R382). -/
def execTface (d a b : Reg) (s : State) : Out :=
  runStream (Enc.tface d a b) d a b badFace
    (fun g w vl rc => faceTiles g (faceList g (w % 64) (bitsAt w 21 16) (bitsAt w 12 8)) (bitsAt w 58 56) vl rc) s

/-- Whether an operation is the oldest stream of its hart that has tiles to push into its queue. -/
def State.firstStream (s : State) (o : Op) (q : Nat) : Bool :=
  match s.ops.find? (fun p => p.issuer == o.issuer && p.ctl.isNone && (match p.kind with | .tiles r l => r == q && !l.isEmpty | _ => false)) with
  | some p => p.id == o.id
  | none => false

/-- The die of a generation operation. -/
def Op.topoDie (o : Op) : Nat := match o.ctx with | .topo d _ => d | _ => 0

/-- TOPO_TILE_PUSH (R380): the next tile of a stream enters its queue, when a slot is free and the hart is not saved; with its
last tile the stream completes. -/
def execTopoTilePush (op : Nat) (s : State) : Out :=
  match s.op op with
  | none => .next s
  | some o =>
    match o.kind with
    | .tiles q (t :: rest) =>
      match s.findHart o.issuer with
      | none => .next s
      | some h =>
        if h.isSaved = false ∧ (vget h.tq [] q).length < 2 ∧ s.firstStream o q then
          let s1 := s.onHart o.issuer fun h => h.pushTile q t
          .next (if rest = [] then s1.endOp o o.num else s1.setOp { o with kind := .tiles q rest })
        else .next s
    | _ => .next s

/-! ## Status words (R375) -/

/-- The codes of R375. -/
inductive TopoCode where
  | ok | badform | baddesc | nospace | residue | listfull | dupkey | baddata
  deriving DecidableEq, Repr

/-- The number of a code. -/
def TopoCode.num : TopoCode → Nat
  | .ok => 0 | .badform => 1 | .baddesc => 2 | .nospace => 3 | .residue => 4 | .listfull => 5 | .dupkey => 6 | .baddata => 7

/-- Writes a status word. -/
def State.status (s : State) (a : Agent) (at_ : Word) (c : TopoCode) (detail : Nat) : Res Unit :=
  s.ewrite a at_ (cleanLe 8 (c.num + detail % 2 ^ 32 * 2 ^ 32))

/-- Writes numbers of 4 bytes from an address up. -/
def State.put4 (s : State) (a : Agent) (at_ : Word) (l : List Nat) : Res Unit := s.ewrite a at_ (cleanNums 4 l)

/-! ## Reading forms (R368-R371) -/

/-- Reads a form: the form, or the ordinal of its first offending record. -/
def State.readForm (s : State) (a : Agent) (at_ : Word) : Res (Form ⊕ (Nat × Form)) :=
  (s.eread a at_ 64).bind fun h s =>
    let b := h.map (·.1)
    let nc := fieldAt b 8 4
    let n := nc + fieldAt b 12 4
    let nf := fieldAt b 16 4
    let head := fieldAt b 0 4 == 0x4E594D58 && fieldAt b 4 2 == 1 && fieldAt b 20 4 == 0 && fieldAt b 48 16 == 0
      && decide (n ≤ 0xFFFFFFFD)
    let empty : Form := ⟨fieldAt b 6 2, 0, fieldAt b 24 8, [], []⟩
    if !head then .ok (.inr (0, empty)) s
    else
      (s.eread a (at_ + BitVec.ofNat 64 (fieldAt b 32 8)) (16 * n)).bind fun cb s =>
      (s.eread a (at_ + BitVec.ofNat 64 (fieldAt b 40 8)) (16 * nf)).bind fun fb s =>
        let cells := (records 16 n (cb.map (·.1))).map cellOf
        let faces := (records 16 nf (fb.map (·.1))).map faceOf
        match formBad true nc cells faces with
        | some o => .ok (.inr (o, empty)) s
        | none => .ok (.inl { empty with ncell := nc, cells := cells.map (·.1), faces := faces.map (·.1) }) s

/-! ## Space (R373) -/

/-- The units a generation occupies: those of its typical size, which R373 bounds by one more (R393; DESIGN CHOICE, log 42). -/
def unitsOf (cells faces : Nat) : Nat := (64 * cells + 32 * faces + 65535) / 65536

/-- The free units of a die's region. -/
def State.freeUnits (s : State) (d : Nat) : Nat :=
  (vget s.hub.tssize 0 d).toNat - sumNat ((s.gens.filter (·.die == d)).map fun g => unitsOf g.cells.length g.faces.length)

/-- A generation is built from its cells and faces. -/
def State.built (s : State) (d slot : Nat) (number : Word) (part : BitVec 16) (ncell : Nat) (cells : List TCell)
    (faces : List TFaceRec) (remap : List Remap) : State :=
  match s.gen d slot with
  | none => s
  | some g => s.setGen { g with number := number, part := part, ncell := ncell, cells := cells, faces := faces
                                remap := remap, built := true }

/-! ## Operations -/

/-- TBIND's operation (R378). -/
def tbindOp (a : Agent) (d slot : Nat) (form status : Word) (s : State) : Res Unit :=
  (s.readForm a form).bind fun r s =>
    let done := fun (f : Form) (c : TopoCode) (det : Nat) (s : State) =>
      let s1 := s.built d slot (BitVec.ofNat 64 f.gen) (BitVec.ofNat 16 f.part) f.ncell f.cells f.faces []
      if status = 0 then .ok () s1 else s1.status a status c det
    match r with
    | .inr (o, f) => done f .badform o s
    | .inl f =>
      if s.freeUnits d < unitsOf f.cells.length f.faces.length then
        done { f with ncell := 0, cells := [], faces := [] } .nospace 0 s
      else done f .ok 0 s

/-- A signed byte. -/
def sbyte (b : Byte) : Int := sextN 8 b.toNat

/-- TMARK's operation (R383). -/
def tmarkOp (a : Agent) (g : Gen) (block : Word) (s : State) : Res Unit :=
  let n := g.cells.length
  (s.enum a (block + 12) 4).bind fun nmark s =>
    if nmark ≠ n then s.status a block .baddesc 12
    else
      (s.eread a (block + 16) n).bind fun fl s =>
        let input := fl.map fun b => sbyte b.1
        let keys := g.cells.map (·.key.toNat)
        let f := closeMarks keys g.faces (2 * n + 1) ((keys.zip input).map fun p => firstMark (keyLevel p.1) p.2)
        let changed := ((f.zip input).filter fun p => p.1 != p.2).length
        ((s.setGen { g with marks := f }).ewrite a (block + 16) (f.map fun x => (BitVec.ofInt 8 x, false))).bind fun _ s =>
        (s.put4 a (block + 8) [changed]).bind fun _ s => s.status a block .ok 0

/-- The bytes of a remap record (R385). -/
def Remap.bytes (r : Remap) : List Byte := toLe 4 r.new ++ toLe 4 r.old ++ toLe 4 r.count ++ [BitVec.ofNat 8 r.kind, BitVec.ofNat 8 r.form, 0, 0]

/-- The first part of a remap list that a capacity holds, as bytes. -/
def remapBytes (cap : Nat) (l : List Remap) : List EByte := ((l.take cap).flatMap Remap.bytes).map fun b => (b, false)

/-- The fields of TCOMMIT's and TIMPORT's descriptors that the build writes: where, and the capacity of the list. -/
structure BuildOut where
  status : Word
  remap : Word
  cap : Nat
  nremap : Word
  ncells : Word
  faces : Bool

/-- Ends a build: the generation, the lists, the counts, the status. -/
def buildEnd (a : Agent) (d slot : Nat) (o : BuildOut) (number : Word) (part : BitVec 16) (cells : List NCell)
    (faces : List TFaceRec) (c : TopoCode) (det : Nat) (s : State) : Res Unit :=
  let room := decide (unitsOf cells.length faces.length ≤ s.freeUnits d)
  let cells := if room then cells else []
  let faces := if room then faces else []
  let l := remapList cells
  let nc := ownedCount cells
  let s1 := s.built d slot number part nc (layoutCells cells) faces l
  (s1.ewrite a o.remap (remapBytes o.cap l)).bind fun _ s =>
  (s.put4 a o.nremap [l.length]).bind fun _ s =>
  (s.put4 a o.ncells ([nc, cells.length - nc] ++ (if o.faces then [faces.length] else []))).bind fun _ s =>
    if !room then s.status a o.status .nospace 0
    else if c = .ok ∧ o.cap < l.length then s.status a o.status .listfull l.length
    else s.status a o.status c det

/-- TCOMMIT's operation (R384). -/
def tcommitOp (a : Agent) (d slot : Nat) (old : Gen) (desc : Word) (s : State) : Res Unit :=
  (s.eread a desc 64).bind fun l s =>
    let b := l.map (·.1)
    let remap := fieldAt b 8 8
    let o : BuildOut := ⟨desc, BitVec.ofNat 64 remap, fieldAt b 16 4, desc + 20, desc + 24, true⟩
    let finish := fun cells faces c det s => buildEnd a d slot o (old.number + 1) old.part cells faces c det s
    if remap % 16 ≠ 0 then finish [] [] .baddesc 8 s
    else if fieldAt b 36 28 ≠ 0 then finish [] [] .baddesc 36 s
    else
      let r := refineGen old
      finish r.1 r.2 .ok 0 s

/-- The forms of TIMPORT, in order: all of them, or the first malformed one's ordinal. -/
def State.readForms (s : State) (a : Agent) : List Word → Res (List Form ⊕ Nat)
  | [] => .ok (.inl []) s
  | w :: r => (s.readForm a w).bind fun x s => match x with
    | .inr (o, _) => .ok (.inr o) s
    | .inl f => (s.readForms a r).bind fun y s => match y with
      | .inr o => .ok (.inr o) s
      | .inl l => .ok (.inl (f :: l)) s

/-- TIMPORT's operation (R391). -/
def timportOp (a : Agent) (d slot : Nat) (old : Gen) (desc : Word) (s : State) : Res Unit :=
  (s.eread a desc 64).bind fun l s =>
    let b := l.map (·.1)
    let first := fieldAt b 8 4
    let count := fieldAt b 12 4
    let nform := fieldAt b 16 2
    let part := BitVec.ofNat 16 (fieldAt b 18 2)
    let remap := fieldAt b 24 8
    let dest := fieldAt b 48 8
    let o : BuildOut := ⟨desc, BitVec.ofNat 64 remap, fieldAt b 32 4, desc + 36, desc + 40, false⟩
    let finish := fun cells faces c det s => buildEnd a d slot o (old.number + 1) part cells faces c det s
    if old.ncell < first then finish [] [] .baddesc 8 s
    else if old.ncell < first + count then finish [] [] .baddesc 12 s
    else if 8 < nform then finish [] [] .baddesc 16 s
    else if fieldAt b 56 8 ≠ 0 then finish [] [] .baddesc 56 s
    else
      (s.enums a (desc + 64) 8 nform).bind fun ws s =>
        match (List.range nform).find? fun i => ws.getD i 0 % 64 != 0 with
        | some i => finish [] [] .baddesc (64 + 8 * i) s
        | none =>
          (s.readForms a (ws.map (BitVec.ofNat 64))).bind fun x s =>
            match x with
            | .inr ord => finish [] [] .badform ord s
            | .inl forms =>
              (if dest = 0 then .ok [] s else s.enums a (BitVec.ofNat 64 dest) 2 old.ncell).bind fun ds s =>
                match dupForm (((old.cells.take (first + count)).drop first).map (·.key.toNat)) 0 forms with
                | some f => finish [] [] .dupkey f s
                | none =>
                  let j := importGen old first count part forms ds
                  let r := layout j.1 j.2
                  if unbalanced r.1 j.2 then finish [] [] .badform 0xFFFFFFFF s else finish r.1 r.2 .ok 0 s

/-- TCOLOUR's operation (R387). -/
def tcolourOp (a : Agent) (g : Gen) (table : Word) (s : State) : Res Unit :=
  let l := colourFaces g.faces []
  let counts := (List.range 33).map fun b => (l.filter (· == b)).length
  let nbench := (l.map (· + 1)).foldl max 0
  ((s.setGen { g with benches := some l }).put4 a (table + 8) (nbench :: counts)).bind fun _ s =>
    s.status a table (if l.contains 32 then .residue else .ok) 0

/-- The levels of the rows (R388), the newest first; `i` counts the rows taken, of which the newest is row i - 1, or
row N - i when UPPER. -/
def rowLevels (n : Nat) (upper : Bool) (cols : Nat → List Nat) : Nat → List Nat
  | 0 => []
  | i + 1 =>
    let done := rowLevels n upper cols i
    let row := if upper then n - 1 - i else i
    let dep := fun j => if upper then n - 1 - j else j
    let ds := (cols row).filter fun j => if upper then decide (row < j) else decide (j < row)
    (match ds with
      | [] => 0
      | _ => 1 + (ds.map fun j => done.getD (i - 1 - dep j) 0).foldl max 0) :: done

/-- TLEVEL's operation (R388). -/
def tlevelOp (a : Agent) (desc : Word) (s : State) : Res Unit :=
  (s.eread a desc 64).bind fun l s =>
    let b := l.map (·.1)
    let n := fieldAt b 40 4
    let flags := fieldAt b 44 4
    if n = 0 ∨ n = 0xFFFFFFFF then s.status a desc .baddesc 40
    else if 2 ≤ flags then s.status a desc .baddesc 44
    else if fieldAt b 52 12 ≠ 0 then s.status a desc .baddesc 52
    else
      (s.enums a (BitVec.ofNat 64 (fieldAt b 8 8)) 4 (n + 1)).bind fun ptr s =>
        let falls := (List.range n).find? fun i => decide (ptr.getD (i + 1) 0 < ptr.getD i 0) || (i == 0 && ptr.getD 0 0 != 0)
        let rows := falls.getD n
        (s.enums a (BitVec.ofNat 64 (fieldAt b 16 8)) 4 (ptr.getD rows 0)).bind fun col s =>
          let cols := fun i => (col.take (ptr.getD (i + 1) 0)).drop (ptr.getD i 0)
          match ((List.range rows).find? fun i => (cols i).any fun j => decide (n ≤ j)).or falls with
          | some i => s.status a desc .baddata i
          | none =>
            let upper := flags == 1
            let newest := rowLevels n upper cols n
            let lev := fun i => newest.getD (if upper then i else n - 1 - i) 0
            let nlev := 1 + newest.foldl max 0
            let perm := (List.range nlev).flatMap fun k => (List.range n).filter fun i => lev i == k
            let ptrs := (List.range (nlev + 1)).map fun k => ((List.range n).filter fun i => decide (lev i < k)).length
            (s.put4 a (BitVec.ofNat 64 (fieldAt b 24 8)) ptrs).bind fun _ s =>
            (s.put4 a (BitVec.ofNat 64 (fieldAt b 32 8)) perm).bind fun _ s =>
            (s.put4 a (desc + 48) [nlev]).bind fun _ s => s.status a desc .ok 0

/-- The destinations of cells by their weights (R389). -/
def cutDests (d wtotal : Nat) : Nat → List Nat → List Nat
  | _, [] => []
  | p, w :: r => min (d - 1) (p * d / wtotal) :: cutDests d wtotal (p + w) r

/-- TCUT's operation (R389): `own` is the NCELL of a generation, none on the schedule context. -/
def tcutOp (a : Agent) (own : Option Nat) (desc : Word) (s : State) : Res Unit :=
  (s.eread a desc 64).bind fun l s =>
    let b := l.map (·.1)
    let wtotal := fieldAt b 48 8
    let d := fieldAt b 56 2
    let cb := fieldAt b 58 2
    let nc := fieldAt b 60 4
    if wtotal = 0 then s.status a desc .baddesc 48
    else if d = 0 ∨ 4096 < d then s.status a desc .baddesc 56
    else if cb = 0 then s.status a desc .baddesc 58
    else if own.isSome ≠ decide (nc = 0) then s.status a desc .baddesc 60
    else
      (s.enums a (BitVec.ofNat 64 (fieldAt b 8 8)) 4 (own.getD nc)).bind fun ws s =>
        let ds := cutDests d wtotal (fieldAt b 40 8) ws
        let counts := (List.range d).map fun p => (ds.filter (· == p)).length
        (if fieldAt b 16 8 = 0 then .ok () s else s.ewrite a (BitVec.ofNat 64 (fieldAt b 16 8)) (cleanNums 2 ds)).bind fun _ s =>
        (s.ewrite a (BitVec.ofNat 64 (fieldAt b 24 8)) (cleanNums 8 counts)).bind fun _ s =>
        (s.ewrite a (BitVec.ofNat 64 (fieldAt b 32 8)) (cleanNums 8 (counts.map (· * cb)))).bind fun _ s =>
          s.status a desc .ok 0

/-! ## TREMAP (R386) -/

/-- A field of TREMAP. -/
structure RField where
  old : Word
  new : Word
  stride : Nat
  fmt : Nat
  refine : Nat
  coarsen : Nat
  deriving DecidableEq, Repr

/-- The 32 bytes of a field entry. -/
def RField.of (b : List Byte) : RField :=
  ⟨BitVec.ofNat 64 (fieldAt b 0 8), BitVec.ofNat 64 (fieldAt b 8 8), fieldAt b 16 4, fieldAt b 20 1, fieldAt b 21 1, fieldAt b 22 1⟩

/-- Bytes of a component; 0 for RAW. -/
def RField.esz (f : RField) : Nat := match f.fmt with | 1 => 8 | 2 => 4 | _ => 0

/-- The offset of the first field of an entry that breaks its limits. -/
def RField.bad (f : RField) (rest : Nat) : Option Nat :=
  if f.stride = 0 ∨ 2 ^ 20 < f.stride ∨ (f.esz ≠ 0 ∧ f.stride % f.esz ≠ 0) then some 16
  else if 2 < f.fmt then some 20
  else if 1 < f.refine then some 21
  else if 2 < f.coarsen ∨ (f.coarsen = 0 ∧ f.fmt = 0) then some 22
  else if rest ≠ 0 then some 23
  else none

/-- round_to(Σ / COUNT, FMT, RNE) of components as bits (R386). -/
def averageOf (f : Fmt) (l : List Nat) : Nat :=
  let vs := l.map f.read
  let sp := vs.foldl (fun sp v => (specialTerm sp v).1) Special.none
  let sum := vs.foldl (fun (acc : Int × Int) v => match v with
    | .fin n m e => exactSum (decide (acc.1 < 0)) acc.1.natAbs acc.2 n m e
    | _ => acc) (0, 0)
  match sp with
  | .none =>
    if sum.1 = 0 then 0
    else
      let sh := f.frac + 4 + Nat.log2 l.length
      let n := sum.1.natAbs * 2 ^ sh
      (f.round .rne ⟨decide (sum.1 < 0), n / l.length, sum.2 - sh, n % l.length != 0⟩).1
  | _ => (f.readout .rne sp 0 0).1

/-- The averaged bytes of `count` cells of a field. -/
def averageBytes (f : RField) (count : Nat) (src : List EByte) : List EByte :=
  let fmt := if f.fmt = 1 then fmtF64 else fmtF32
  let w := f.esz
  (List.range (f.stride / w)).flatMap fun j =>
    let parts := (List.range count).map fun i => (src.drop (i * f.stride + j * w)).take w
    let bad := parts.any fun p => p.any (·.2)
    (toLe w (averageOf fmt (parts.map fun p => leNat (p.map (·.1))))).map fun b => (b, bad)

/-- What one field of one record writes: where, and the bytes, once its source has been read. -/
def remapField (a : Agent) (r : Remap) (f : RField) (s : State) : Res (List (Word × List EByte)) :=
  let src := f.old + BitVec.ofNat 64 (r.old * f.stride)
  let dst := f.new + BitVec.ofNat 64 (r.new * f.stride)
  let read := fun (n : Nat) (g : List EByte → List EByte) => (s.eread a src n).bind fun l s1 => .ok [(dst, g l)] s1
  match r.kind with
  | 0 => read (r.count * f.stride) id
  | 1 => if f.refine = 0 then read f.stride fun l => (List.range r.count).flatMap fun _ => l else .ok [] s
  | 2 => match f.coarsen with
    | 0 => read (r.count * f.stride) (averageBytes f r.count)
    | 1 => read f.stride id
    | _ => .ok [] s
  | _ => .ok [] s

/-- The sources of all fields of a record, in table order. -/
def remapReads (a : Agent) (r : Remap) : List RField → State → Res (List (Word × List EByte))
  | [], s => .ok [] s
  | f :: fs, s => (remapField a r f s).bind fun l s1 => (remapReads a r fs s1).bind fun m s2 => .ok (l ++ m) s2

/-- One record: all its sources are read before it writes (R386). -/
def remapRecord (a : Agent) (fs : List RField) (r : Remap) (s : State) : Res Unit :=
  (remapReads a r fs s).bind fun l s1 => State.esteps (fun (p : Word × List EByte) s => s.ewrite a p.1 p.2) l s1

/-- Whether a record goes to the custom list. -/
def remapCustom (fs : List RField) (r : Remap) : Bool :=
  match r.kind with
  | 0 => false
  | 1 => fs.any (·.refine == 1)
  | 2 => fs.any (·.coarsen == 2)
  | _ => true

/-- A remap record from its bytes. -/
def Remap.of (b : List Byte) : Remap := ⟨fieldAt b 0 4, fieldAt b 4 4, fieldAt b 8 4, fieldAt b 12 1, fieldAt b 13 1⟩

/-- Whether an input record is no remap record. -/
def Remap.bad (r : Remap) : Bool := decide (4 < r.kind) || (r.kind == 2 && r.count == 0)

/-- TREMAP's operation: each record with its bytes, which go to the custom list verbatim. -/
def tremapOp (a : Agent) (g : Gen) (desc : Word) (s : State) : Res Unit :=
  (s.eread a desc 64).bind fun l s =>
    let b := l.map (·.1)
    let at_ := fieldAt b 8 8
    let nremap := if fieldAt b 16 4 = 0xFFFFFFFF then g.remap.length else fieldAt b 16 4
    let nfield := fieldAt b 20 2
    let custom := fieldAt b 24 8
    let cap := fieldAt b 32 4
    if 16 < nfield then s.status a desc .baddesc 20
    else if fieldAt b 22 2 ≠ 0 then s.status a desc .baddesc 22
    else if custom % 16 ≠ 0 then s.status a desc .baddesc 24
    else if fieldAt b 40 24 ≠ 0 then s.status a desc .baddesc 40
    else
      (s.eread a (desc + 64) (32 * nfield)).bind fun fb s =>
        let entries := records 32 nfield (fb.map (·.1))
        let fs := entries.map RField.of
        match (entries.mapIdx fun i e => ((RField.of e).bad (fieldAt e 23 9)).map fun o => 64 + 32 * i + o).findSome? id with
        | some o => s.status a desc .baddesc o
        | none =>
          (if at_ = 0 then .ok ((g.remap.take nremap).map fun r => (r, remapBytes 1 [r])) s
            else (s.eread a (BitVec.ofNat 64 at_) (16 * nremap)).bind fun rb s =>
              .ok ((records 16 nremap rb).map fun r => (Remap.of (r.map (·.1)), r)) s).bind fun rs s =>
            match rs.findIdx? fun r => r.1.bad with
            | some i => s.status a desc .baddata i
            | none =>
              (State.esteps (fun r => remapRecord a fs r.1) rs s).bind fun _ s =>
                let cs := rs.filter fun r => remapCustom fs r.1
                (s.ewrite a (BitVec.ofNat 64 custom) ((cs.take cap).flatMap (·.2))).bind fun _ s =>
                (s.put4 a (desc + 36) [cs.length]).bind fun _ s =>
                  if cap < cs.length then s.status a desc .listfull cs.length else s.status a desc .ok 0

/-! ## TXPORT (R390) -/

/-- The bytes of a face record. -/
def TFaceRec.bytes (f : TFaceRec) : List Byte :=
  toLe 4 f.left ++ toLe 4 f.right ++ [BitVec.ofNat 8 f.lface, BitVec.ofNat 8 f.rface, BitVec.ofNat 8 f.sub, 0] ++ toLe 4 f.btag.toNat

/-- The bytes of a cell record. -/
def TCell.bytes (c : TCell) : List Byte := toLe 8 c.key.toNat ++ toLe 2 c.owner.toNat ++ [0, 0] ++ toLe 4 c.remote.toNat

/-- The bytes of an export form. -/
def formBytes (part : BitVec 16) (number : Word) (ncell : Nat) (cells : List TCell) (faces : List TFaceRec) : List Byte :=
  toLe 4 0x4E594D58 ++ toLe 2 1 ++ toLe 2 part.toNat ++ toLe 4 ncell ++ toLe 4 (cells.length - ncell) ++ toLe 4 faces.length
    ++ toLe 4 0 ++ toLe 8 number.toNat ++ toLe 8 64 ++ toLe 8 (64 + 16 * cells.length) ++ toLe 16 0
    ++ cells.flatMap TCell.bytes ++ faces.flatMap TFaceRec.bytes

/-- TXPORT's operation. -/
def txportOp (a : Agent) (g : Gen) (desc : Word) (s : State) : Res Unit :=
  (s.eread a desc 64).bind fun l s =>
    let b := l.map (·.1)
    let out := fieldAt b 8 8
    let cap := fieldAt b 16 8
    let first := fieldAt b 24 4
    let count := fieldAt b 28 4
    let part := BitVec.ofNat 16 (fieldAt b 32 2)
    if out % 64 ≠ 0 then s.status a desc .baddesc 8
    else if g.ncell < first then s.status a desc .baddesc 24
    else if g.ncell < first + count then s.status a desc .baddesc 28
    else if fieldAt b 34 6 ≠ 0 then s.status a desc .baddesc 34
    else if fieldAt b 48 16 ≠ 0 then s.status a desc .baddesc 48
    else
      let r := exportGen g first count part
      let bytes := formBytes part g.number (ownedCount r.1) (layoutCells r.1) r.2
      (s.ewrite a (BitVec.ofNat 64 out) ((bytes.take cap).map fun x => (x, false))).bind fun _ s =>
      (s.ewrite a (desc + 40) (cleanLe 8 bytes.length)).bind fun _ s =>
        if cap < bytes.length then s.status a desc .listfull bytes.length else s.status a desc .ok 0

/-! ## Performing -/

/-- The accesses of an operation of the engine. -/
def topoPerform (o : Op) (s : State) : Res Unit :=
  match o.ctx with
  | .topo d slot =>
    let a := o.agent d
    let own := s.gen d slot
    let g := own.getD (Gen.fresh d slot)
    match o.kind with
    | .tbind form status => tbindOp a d slot form status s
    | .tmark block => tmarkOp a g block s
    | .tcommit old desc => tcommitOp a d slot ((s.gen d old).getD g) desc s
    | .tcolour table => tcolourOp a g table s
    | .tlevel desc => tlevelOp a desc s
    | .tcut desc => tcutOp a (own.map (·.ncell)) desc s
    | .tremap desc => tremapOp a g desc s
    | .txport desc => txportOp a g desc s
    | .timport old desc => timportOp a d slot ((s.gen d old).getD g) desc s
    | _ => .ok () s
  | _ => .ok () s

end Sys2Proof.Machine
end

