-- ==== Sys2Proof/Machine/Start.lean ====
section
/-! DEFINITION. An accepted engine operation begins performing (spec/14 R345, R346, R351, spec/15 R374). -/

namespace Sys2Proof.Machine

/-- The accesses of an operation, all performed. -/
def Op.whole (o : Op) (r : Res Unit) : Res Unit := r.bind fun _ s => .ok () (s.setOp { o with stage := .performed })

/-- Performs an operation. A stream of tiles ends with its last push (R380); an exchange or a call of a group goes as far
as its messages allow. -/
def opPerform (o : Op) (s : State) : Res Unit :=
  match o.kind with
  | .cpy _ _ _ | .cpy2 _ _ _ _ _ _ | .cpyx _ _ _ _ _ _ _ => o.whole (copyPerform (o.agent o.die) o.kind s)
  | .park _ _ _ _ _ _ | .unpark _ _ _ _ _ _ => o.whole (bedrockPerform o s)
  | .xrun _ _ _ _ _ _ => xrunPerform o s
  | .coll _ _ _ _ _ _ _ => collPerform o s
  | .tiles _ (_ :: _) => .ok () s
  | .tiles _ [] => o.whole (.ok () s)
  | .tbind _ _ | .tmark _ | .tcommit _ _ | .tcolour _ | .tlevel _ | .tcut _ | .tremap _ | .txport _ | .timport _ _ =>
    o.whole (topoPerform o s)

/-- OPERATION_START (R374, R351): an operation that its engine's order lets start performs its accesses, or stops at one that faults
with none of them performed. -/
def execOperationStart (op : Nat) (s : State) : Out :=
  match s.op op with
  | none => .next s
  | some o => if o.stage = .accepted ∧ s.topoReady o ∧ s.down = false then .next (s.orStop o (opPerform o s)) else .next s

end Sys2Proof.Machine
end

