-- ==== Sys2Proof/Machine/System.lean ====
section
/-! DEFINITION. The control and status registers and the SYS instructions that touch one stream (spec/03 R102-R111,
spec/01 R15-R23, spec/05 R153-R155). -/

namespace Sys2Proof.Machine

/-! ## CSRs -/

/-- STATUS as a word (R15). -/
def State.statusWord (s : State) : Word :=
  BitVec.ofNat 64 (s.st.pfxd.toNat * 2 ^ 32 + s.st.ta.toNat * 4 + s.st.pfxp.toNat * 2 + s.hart.sv.toNat)
/-- FCSR as a word (R17). -/
def Stream.fcsr (t : Stream) : Word := BitVec.ofNat 64 (t.flags.toNat * 256 + t.rm.toNat)
/-- LASTD as a word (R20). -/
def Stream.lastd (t : Stream) : Word := BitVec.ofNat 64 (t.lastV.toNat * 256 + t.lastG.toNat)
/-- MGRANT as a word (R222). -/
def Hart.mgrant (h : Hart) : Word := BitVec.ofNat 64 (h.mfmt.toNat * 256 + h.mcount)
/-- CHDONE as a word (R261). -/
def Hart.chdone (h : Hart) : Word := BitVec.ofNat 64 (h.spawned.toNat * 2 ^ 32 + h.childDone.toNat)

/-- The value of a CSR (R104). -/
def State.csr (s : State) (c : BitVec 12) : Word :=
  match c.toNat with
  | 0x000 => s.statusWord
  | 0x001 => s.st.fcsr
  | 0x002 => s.st.win.setWidth 64
  | 0x003 => s.st.lastd
  | 0x008 => s.st.tvec
  | 0x009 => s.st.tepc
  | 0x00A => s.st.tcause.setWidth 64
  | 0x00B => s.st.tval
  | 0x010 => s.hart.idWord
  | 0x011 => s.cycle
  | 0x020 => s.st.vtype.setWidth 64
  | 0x021 => s.st.vl.setWidth 64
  | 0x022 => s.st.rc.setWidth 64
  | 0x023 => s.st.vstart.setWidth 64
  | 0x024 => BitVec.ofNat 64 s.vlmax
  | 0x025 => BitVec.ofNat 64 (s.st.grant * 256 + s.pendWidth s.hart * 16 + s.hart.share)
  | 0x026 => s.hart.pivcnt
  | 0x027 => s.hart.mgrant
  | 0x028 => s.hart.chdone
  | _ => 0

/-- A write of a CSR, field by field (R5, R15-R21, R154, R184); a read-only one is ignored. -/
def State.setCsr (s : State) (c : BitVec 12) (v : Word) : State :=
  match c.toNat with
  | 0x000 =>
    let s1 := s.setSt { s.st with pfxd := BitVec.ofNat 25 (v.toNat / 2 ^ 32), ta := v.getLsbD 2, pfxp := v.getLsbD 1 }
    { s1 with hart := { s1.hart with sv := v.getLsbD 0 } }
  | 0x001 =>
    let rm := v.setWidth 3
    s.setSt { s.st with
      flags := BitVec.ofNat 7 (v.toNat / 256)
      rm := if 1 ≤ rm.toNat ∧ rm.toNat ≤ 5 then rm else s.st.rm }
  | 0x002 => s.setSt { s.st with win := v.setWidth 8 }
  | 0x003 => s.setSt { s.st with
      lastG := v.setWidth 5
      lastV := if s.onFeeder then s.st.lastV else BitVec.ofNat 5 (v.toNat / 256) }
  | 0x008 => s.setSt { s.st with tvec := v &&& ~~~1 }
  | 0x009 => s.setSt { s.st with tepc := v &&& ~~~1 }
  | 0x00A => s.setSt { s.st with tcause := v.setWidth 8 }
  | 0x00B => s.setSt { s.st with tval := v }
  | 0x023 => s.setSt { s.st with vstart := v.setWidth 19 }
  | 0x026 => { s with hart := { s.hart with pivcnt := v } }
  | _ => s

/-- Whether a write needs SV = 1 (R104). -/
def csrSupervisor (c : BitVec 12) : Bool := c == 0x000 || c == 0x011

/-- Whether a CSR instruction of either stream waits until the vector queue of the hart is empty: FCSR and layer 2 (R103). -/
def State.csrWaits (s : State) (c : BitVec 12) : Bool :=
  !s.hart.vq.isEmpty && (c == 0x001 || decide (0x020 ≤ c.toNat))

/-- A CSR instruction (R102, R103, R155, R536): `new` is the value to write, none for a read. -/
def runCsr (word : Nat) (d : Reg) (rs : List Reg) (c : BitVec 12) (new : State → Word → Option Word) (s : State) : Out :=
  runScalar ⟨word, 4, .never, true, true, d :: rs⟩
    (fun s =>
      let old := s.csr c
      let w := new s old
      if (w.isSome ∧ csrSupervisor c) ∧ s.hart.sv = false then .trap .priv (wordVal word) s
      else if (s.hart.isControl ∧ 0x020 ≤ c.toNat) ∨ (s.onFeeder ∧ c = 0x026) then .trap .illop (wordVal word) s
      else if s.csrWaits c then .wait s
      else
        match w with
        | none => .ok () (s.finishG word 4 d old)
        | some v =>
          let s1 := s.finish word 4
          let s2 := s1.setSt (s1.st.wr d old)
          let s3 := if c = 0x003 then s2 else s2.setSt { s2.st with lastG := d }
          .ok () (s3.setCsr c v)) s

/-- CSRR (R102). -/
def execCsrr (d : Reg) (c : BitVec 12) (s : State) : Out := runCsr (Enc.csrr d c) d [] c (fun _ _ => none) s
/-- CSRW (R102). -/
def execCsrw (d a : Reg) (c : BitVec 12) (s : State) : Out := runCsr (Enc.csrw d a c) d [a] c (fun s _ => some (s.rd a)) s
/-- CSRSET (R102): reads only with a = 0. -/
def execCsrset (d a : Reg) (c : BitVec 12) (s : State) : Out :=
  runCsr (Enc.csrset d a c) d [a] c (fun s old => if a = 0 then none else some (old ||| s.rd a)) s
/-- CSRCLR (R102): reads only with a = 0. -/
def execCsrclr (d a : Reg) (c : BitVec 12) (s : State) : Out :=
  runCsr (Enc.csrclr d a c) d [a] c (fun s old => if a = 0 then none else some (old &&& ~~~(s.rd a))) s

/-! ## Trap, return, yield, fetch fence, signature -/

/-- TRAP (R106). -/
def execTrap (i : BitVec 12) (s : State) : Out :=
  runScalar ⟨Enc.trap i, 4, .never, true, true, []⟩ (fun s => .trap .swtrap (i.setWidth 64) s) s
/-- RFT (R34, R107). -/
def execRft (s : State) : Out := runScalar ⟨Enc.rft, 4, .never, true, true, []⟩ (fun s => .ok () s.ret) s
/-- YIELD (R109, R165). -/
def execYield (s : State) : Out :=
  runScalar ⟨Enc.yield, 4, .never, true, true, []⟩ (fun s => .ok () (s.finish Enc.yield 4).yield) s
/-- IFENCE (R110): the stream's own earlier stores are performed first, those in the vector queue too, and none is stale
to its later fetches. -/
def execIfence (s : State) : Out :=
  runScalar ⟨Enc.ifence, 4, .never, true, true, []⟩
    (fun s =>
      if s.onFeeder = false ∧ s.hart.vq.any fun e => wordStores e.word.toNat then .wait s
      else
        let s0 := s.settleMine
        let s1 := s0.finish Enc.ifence 4
        .ok () (s1.setSt { s1.st with stale := [] })) s
/-- SIG (R81, R111): compares an open signature, then opens its own. -/
def execSig (h : BitVec 4) (l : BitVec 12) (s : State) : Out :=
  runScalar ⟨Enc.sig h l, 4, .never, true, true, []⟩
    (fun s =>
      let s1 := s.setSt ({ s.st with sig := none }.advance (Enc.sig h l) 4)
      let opened := s1.setSt { s1.st with sig := some { expected := h ++ l, crc := 0xFFFF } }
      match s.st.sig with
      | none => .ok () opened
      | some o => if o.crc = o.expected then .ok () opened else .ok () (s1.sigFail s.st.pc (Enc.sig h l))) s

/-- A word of the majors that enter the vector queue. -/
def vectorWord (raw : BitVec 32) : Bool := bitAt raw.toNat 0 && entersQueue raw.toNat

/-- UNALLOCATED_ENCODING (R39, R71): what no instruction is raises ILLOP, with the parcel or word as TVAL; the trap of a vector
word is precise (R162). -/
def execUnallocatedEncoding (raw : BitVec 32) (s : State) : Out :=
  if s.occupied = false then .next s
  else if vectorWord raw ∧ s.onFeeder = false then s.trapInOrder .illop (raw.setWidth 64) raw.toNat
  else .next (s.trap .illop (raw.setWidth 64) raw.toNat)

/-- CYCLE_INCREMENT (R23): core key `core`, with the control cores from 512 on. -/
def execCycleIncrement (core : Nat) (s : State) : Out :=
  .next { s with cycles := Sparse.set 0 s.cycles core (Sparse.get 0 s.cycles core + 1) }

end Sys2Proof.Machine
end

