-- ==== Sys2Proof/Machine/Dispatch.lean ====
section
/-! DEFINITION. One arm per constructor of Instr: a direct call of its meaning. -/

namespace Sys2Proof.Machine

/-- The meaning of an instruction or event. -/
def exec (i : Instr) (s : State) : Host.Outcome State Fault Refusal :=
  match i with
  | .add d a b => Sys2Proof.Machine.execAdd d a b s
  | .sub d a b => Sys2Proof.Machine.execSub d a b s
  | .and d a b => Sys2Proof.Machine.execAnd d a b s
  | .or d a b => Sys2Proof.Machine.execOr d a b s
  | .xor d a b => Sys2Proof.Machine.execXor d a b s
  | .andn d a b => Sys2Proof.Machine.execAndn d a b s
  | .orn d a b => Sys2Proof.Machine.execOrn d a b s
  | .sll d a b => Sys2Proof.Machine.execSll d a b s
  | .srl d a b => Sys2Proof.Machine.execSrl d a b s
  | .sra d a b => Sys2Proof.Machine.execSra d a b s
  | .rol d a b => Sys2Proof.Machine.execRol d a b s
  | .ror d a b => Sys2Proof.Machine.execRor d a b s
  | .min d a b => Sys2Proof.Machine.execMin d a b s
  | .max d a b => Sys2Proof.Machine.execMax d a b s
  | .minu d a b => Sys2Proof.Machine.execMinu d a b s
  | .maxu d a b => Sys2Proof.Machine.execMaxu d a b s
  | .slt d a b => Sys2Proof.Machine.execSlt d a b s
  | .sltu d a b => Sys2Proof.Machine.execSltu d a b s
  | .seq d a b => Sys2Proof.Machine.execSeq d a b s
  | .sne d a b => Sys2Proof.Machine.execSne d a b s
  | .clz d a => Sys2Proof.Machine.execClz d a s
  | .ctz d a => Sys2Proof.Machine.execCtz d a s
  | .popc d a => Sys2Proof.Machine.execPopc d a s
  | .bswap d a => Sys2Proof.Machine.execBswap d a s
  | .mul d a b => Sys2Proof.Machine.execMul d a b s
  | .mulh d a b => Sys2Proof.Machine.execMulh d a b s
  | .mulhu d a b => Sys2Proof.Machine.execMulhu d a b s
  | .div d a b => Sys2Proof.Machine.execDiv d a b s
  | .divu d a b => Sys2Proof.Machine.execDivu d a b s
  | .rem d a b => Sys2Proof.Machine.execRem d a b s
  | .remu d a b => Sys2Proof.Machine.execRemu d a b s
  | .sel d a b => Sys2Proof.Machine.execSel d a b s
  | .addi d a imm => Sys2Proof.Machine.execAddi d a imm s
  | .andi d a imm => Sys2Proof.Machine.execAndi d a imm s
  | .ori d a imm => Sys2Proof.Machine.execOri d a imm s
  | .xori d a imm => Sys2Proof.Machine.execXori d a imm s
  | .slli d a sc => Sys2Proof.Machine.execSlli d a sc s
  | .srli d a sc => Sys2Proof.Machine.execSrli d a sc s
  | .srai d a sc => Sys2Proof.Machine.execSrai d a sc s
  | .slti d a imm => Sys2Proof.Machine.execSlti d a imm s
  | .ldhi d imm => Sys2Proof.Machine.execLdhi d imm s
  | .addpc d imm => Sys2Proof.Machine.execAddpc d imm s
  | .beq a b o => Sys2Proof.Machine.execBeq a b o s
  | .bne a b o => Sys2Proof.Machine.execBne a b o s
  | .blt a b o => Sys2Proof.Machine.execBlt a b o s
  | .bge a b o => Sys2Proof.Machine.execBge a b o s
  | .bltu a b o => Sys2Proof.Machine.execBltu a b o s
  | .bgeu a b o => Sys2Proof.Machine.execBgeu a b o s
  | .jal d o => Sys2Proof.Machine.execJal d o s
  | .jalr d a imm => Sys2Proof.Machine.execJalr d a imm s
  | .strip d a o => Sys2Proof.Machine.execStrip d a o s
  | .csrr d c => Sys2Proof.Machine.execCsrr d c s
  | .csrw d a c => Sys2Proof.Machine.execCsrw d a c s
  | .csrset d a c => Sys2Proof.Machine.execCsrset d a c s
  | .csrclr d a c => Sys2Proof.Machine.execCsrclr d a c s
  | .trap imm => Sys2Proof.Machine.execTrap imm s
  | .sig h l => Sys2Proof.Machine.execSig h l s
  | .rft => Sys2Proof.Machine.execRft s
  | .exit => Sys2Proof.Machine.execExit s
  | .yield => Sys2Proof.Machine.execYield s
  | .ifence => Sys2Proof.Machine.execIfence s
  | .frpop d a e => Sys2Proof.Machine.execFrpop d a e s
  | .resume d a => Sys2Proof.Machine.execResume d a s
  | .kill d a => Sys2Proof.Machine.execKill d a s
  | .pfx r c e v p => Sys2Proof.Machine.execPfx r c e v p s
  | .qpsh a q => Sys2Proof.Machine.execQpsh a q s
  | .qpop d q => Sys2Proof.Machine.execQpop d q s
  | .qcnt d q => Sys2Proof.Machine.execQcnt d q s
  | .ldb d a imm => Sys2Proof.Machine.execLdb d a imm s
  | .ldbz d a imm => Sys2Proof.Machine.execLdbz d a imm s
  | .ldh d a imm => Sys2Proof.Machine.execLdh d a imm s
  | .ldhz d a imm => Sys2Proof.Machine.execLdhz d a imm s
  | .ldw d a imm => Sys2Proof.Machine.execLdw d a imm s
  | .ldwz d a imm => Sys2Proof.Machine.execLdwz d a imm s
  | .ldd d a imm => Sys2Proof.Machine.execLdd d a imm s
  | .stb d a imm => Sys2Proof.Machine.execStb d a imm s
  | .sth d a imm => Sys2Proof.Machine.execSth d a imm s
  | .stw d a imm => Sys2Proof.Machine.execStw d a imm s
  | .std d a imm => Sys2Proof.Machine.execStd d a imm s
  | .amoadd d a b sc l q z => Sys2Proof.Machine.execAmoadd d a b sc l q z s
  | .amoswp d a b sc l q z => Sys2Proof.Machine.execAmoswp d a b sc l q z s
  | .amocas d a b sc l q z => Sys2Proof.Machine.execAmocas d a b sc l q z s
  | .amoand d a b sc l q z => Sys2Proof.Machine.execAmoand d a b sc l q z s
  | .amoor d a b sc l q z => Sys2Proof.Machine.execAmoor d a b sc l q z s
  | .amoxor d a b sc l q z => Sys2Proof.Machine.execAmoxor d a b sc l q z s
  | .amomin d a b sc l q z => Sys2Proof.Machine.execAmomin d a b sc l q z s
  | .amomax d a b sc l q z => Sys2Proof.Machine.execAmomax d a b sc l q z s
  | .amominu d a b sc l q z => Sys2Proof.Machine.execAmominu d a b sc l q z s
  | .amomaxu d a b sc l q z => Sys2Proof.Machine.execAmomaxu d a b sc l q z s
  | .lda d a sc z => Sys2Proof.Machine.execLda d a sc z s
  | .stl a b sc z => Sys2Proof.Machine.execStl a b sc z s
  | .fadd d a b m t => Sys2Proof.Machine.execFadd d a b m t s
  | .fsub d a b m t => Sys2Proof.Machine.execFsub d a b m t s
  | .fmul d a b m t => Sys2Proof.Machine.execFmul d a b m t s
  | .fdiv d a b m t => Sys2Proof.Machine.execFdiv d a b m t s
  | .fsqrt d a m t => Sys2Proof.Machine.execFsqrt d a m t s
  | .fmin d a b t => Sys2Proof.Machine.execFmin d a b t s
  | .fmax d a b t => Sys2Proof.Machine.execFmax d a b t s
  | .feq d a b t => Sys2Proof.Machine.execFeq d a b t s
  | .flt d a b t => Sys2Proof.Machine.execFlt d a b t s
  | .fle d a b t => Sys2Proof.Machine.execFle d a b t s
  | .funord d a b t => Sys2Proof.Machine.execFunord d a b t s
  | .fcvt d a sc m t => Sys2Proof.Machine.execFcvt d a sc m t s
  | .fclass d a t => Sys2Proof.Machine.execFclass d a t s
  | .fsign d a b r t => Sys2Proof.Machine.execFsign d a b r t s
  | .fma d a b m t => Sys2Proof.Machine.execFma d a b m t s
  | .fmsub d a b m t => Sys2Proof.Machine.execFmsub d a b m t s
  | .fnma d a b m t => Sys2Proof.Machine.execFnma d a b m t s
  | .cAdd d sc => Sys2Proof.Machine.execCAdd d sc s
  | .cSub d sc => Sys2Proof.Machine.execCSub d sc s
  | .cAnd d sc => Sys2Proof.Machine.execCAnd d sc s
  | .cOr d sc => Sys2Proof.Machine.execCOr d sc s
  | .cXor d sc => Sys2Proof.Machine.execCXor d sc s
  | .cSll d sc => Sys2Proof.Machine.execCSll d sc s
  | .cSrl d sc => Sys2Proof.Machine.execCSrl d sc s
  | .cMv d sc => Sys2Proof.Machine.execCMv d sc s
  | .cAddi d imm => Sys2Proof.Machine.execCAddi d imm s
  | .cLi d imm => Sys2Proof.Machine.execCLi d imm s
  | .cLdd d sc => Sys2Proof.Machine.execCLdd d sc s
  | .cStd d sc => Sys2Proof.Machine.execCStd d sc s
  | .cBeqz l h => Sys2Proof.Machine.execCBeqz l h s
  | .cBnez l h => Sys2Proof.Machine.execCBnez l h s
  | .cVadd d sc => Sys2Proof.Machine.execCVadd d sc s
  | .cVfma d sc => Sys2Proof.Machine.execCVfma d sc s
  | .vset d a m t x e l r => Sys2Proof.Machine.execVset d a m t x e l r s
  | .vadd d a b k sc => Sys2Proof.Machine.execVadd d a b k sc s
  | .vsub d a b k sc => Sys2Proof.Machine.execVsub d a b k sc s
  | .vrsub d a b k sc => Sys2Proof.Machine.execVrsub d a b k sc s
  | .vmul d a b k sc => Sys2Proof.Machine.execVmul d a b k sc s
  | .vmulh d a b k sc => Sys2Proof.Machine.execVmulh d a b k sc s
  | .vmulhu d a b k sc => Sys2Proof.Machine.execVmulhu d a b k sc s
  | .vdiv d a b k sc => Sys2Proof.Machine.execVdiv d a b k sc s
  | .vdivu d a b k sc => Sys2Proof.Machine.execVdivu d a b k sc s
  | .vrem d a b k sc => Sys2Proof.Machine.execVrem d a b k sc s
  | .vremu d a b k sc => Sys2Proof.Machine.execVremu d a b k sc s
  | .vand d a b k sc => Sys2Proof.Machine.execVand d a b k sc s
  | .vor d a b k sc => Sys2Proof.Machine.execVor d a b k sc s
  | .vxor d a b k sc => Sys2Proof.Machine.execVxor d a b k sc s
  | .vsll d a b k sc => Sys2Proof.Machine.execVsll d a b k sc s
  | .vsrl d a b k sc => Sys2Proof.Machine.execVsrl d a b k sc s
  | .vsra d a b k sc => Sys2Proof.Machine.execVsra d a b k sc s
  | .vmin d a b k sc => Sys2Proof.Machine.execVmin d a b k sc s
  | .vmax d a b k sc => Sys2Proof.Machine.execVmax d a b k sc s
  | .vminu d a b k sc => Sys2Proof.Machine.execVminu d a b k sc s
  | .vmaxu d a b k sc => Sys2Proof.Machine.execVmaxu d a b k sc s
  | .vsadd d a b k sc => Sys2Proof.Machine.execVsadd d a b k sc s
  | .vsaddu d a b k sc => Sys2Proof.Machine.execVsaddu d a b k sc s
  | .vssub d a b k sc => Sys2Proof.Machine.execVssub d a b k sc s
  | .vssubu d a b k sc => Sys2Proof.Machine.execVssubu d a b k sc s
  | .vmerge d a b k sc => Sys2Proof.Machine.execVmerge d a b k sc s
  | .vmv d b k sc => Sys2Proof.Machine.execVmv d b k sc s
  | .vidx d k => Sys2Proof.Machine.execVidx d k s
  | .vfadd d a b k sc => Sys2Proof.Machine.execVfadd d a b k sc s
  | .vfsub d a b k sc => Sys2Proof.Machine.execVfsub d a b k sc s
  | .vfmul d a b k sc => Sys2Proof.Machine.execVfmul d a b k sc s
  | .vfdiv d a b k sc => Sys2Proof.Machine.execVfdiv d a b k sc s
  | .vfsqrt d b k sc => Sys2Proof.Machine.execVfsqrt d b k sc s
  | .vfma d a b k sc => Sys2Proof.Machine.execVfma d a b k sc s
  | .vfmsub d a b k sc => Sys2Proof.Machine.execVfmsub d a b k sc s
  | .vfnma d a b k sc => Sys2Proof.Machine.execVfnma d a b k sc s
  | .vfmin d a b k sc => Sys2Proof.Machine.execVfmin d a b k sc s
  | .vfmax d a b k sc => Sys2Proof.Machine.execVfmax d a b k sc s
  | .vfsign d a b k sc => Sys2Proof.Machine.execVfsign d a b k sc s
  | .vfclass d b k sc => Sys2Proof.Machine.execVfclass d b k sc s
  | .vpiv d n b k => Sys2Proof.Machine.execVpiv d n b k s
  | .vcmpEq d a b k sc => Sys2Proof.Machine.execVcmpEq d a b k sc s
  | .vcmpNe d a b k sc => Sys2Proof.Machine.execVcmpNe d a b k sc s
  | .vcmpLt d a b k sc => Sys2Proof.Machine.execVcmpLt d a b k sc s
  | .vcmpLe d a b k sc => Sys2Proof.Machine.execVcmpLe d a b k sc s
  | .vcmpLtu d a b k sc => Sys2Proof.Machine.execVcmpLtu d a b k sc s
  | .vcmpLeu d a b k sc => Sys2Proof.Machine.execVcmpLeu d a b k sc s
  | .vfcmpEq d a b k sc => Sys2Proof.Machine.execVfcmpEq d a b k sc s
  | .vfcmpLt d a b k sc => Sys2Proof.Machine.execVfcmpLt d a b k sc s
  | .vfcmpLe d a b k sc => Sys2Proof.Machine.execVfcmpLe d a b k sc s
  | .vfcmpUnord d a b k sc => Sys2Proof.Machine.execVfcmpUnord d a b k sc s
  | .mand d a b => Sys2Proof.Machine.execMand d a b s
  | .mor d a b => Sys2Proof.Machine.execMor d a b s
  | .mxor d a b => Sys2Proof.Machine.execMxor d a b s
  | .mandn d a b => Sys2Proof.Machine.execMandn d a b s
  | .mnot d b => Sys2Proof.Machine.execMnot d b s
  | .mmv d b => Sys2Proof.Machine.execMmv d b s
  | .mclr d => Sys2Proof.Machine.execMclr d s
  | .mpopc d b k => Sys2Proof.Machine.execMpopc d b k s
  | .mfirst d b k => Sys2Proof.Machine.execMfirst d b k s
  | .vredsum d a b k => Sys2Proof.Machine.execVredsum d a b k s
  | .vredmin d a b k => Sys2Proof.Machine.execVredmin d a b k s
  | .vredmax d a b k => Sys2Proof.Machine.execVredmax d a b k s
  | .vredminu d a b k => Sys2Proof.Machine.execVredminu d a b k s
  | .vredmaxu d a b k => Sys2Proof.Machine.execVredmaxu d a b k s
  | .vredand d a b k => Sys2Proof.Machine.execVredand d a b k s
  | .vredor d a b k => Sys2Proof.Machine.execVredor d a b k s
  | .vredxor d a b k => Sys2Proof.Machine.execVredxor d a b k s
  | .vwredsum d a b k => Sys2Proof.Machine.execVwredsum d a b k s
  | .vfredo d a b k => Sys2Proof.Machine.execVfredo d a b k s
  | .vfredt d a b k => Sys2Proof.Machine.execVfredt d a b k s
  | .vfredx d a b k => Sys2Proof.Machine.execVfredx d a b k s
  | .vfredmin d a b k => Sys2Proof.Machine.execVfredmin d a b k s
  | .vfredmax d a b k => Sys2Proof.Machine.execVfredmax d a b k s
  | .vslup d a b k => Sys2Proof.Machine.execVslup d a b k s
  | .vsldn d a b k => Sys2Proof.Machine.execVsldn d a b k s
  | .vsl1up d a b k => Sys2Proof.Machine.execVsl1up d a b k s
  | .vsl1dn d a b k => Sys2Proof.Machine.execVsl1dn d a b k s
  | .vperm d a b k => Sys2Proof.Machine.execVperm d a b k s
  | .vcompr d a k => Sys2Proof.Machine.execVcompr d a k s
  | .vexpd d a k => Sys2Proof.Machine.execVexpd d a k s
  | .vreshape d a b k => Sys2Proof.Machine.execVreshape d a b k s
  | .vrowb d a b k => Sys2Proof.Machine.execVrowb d a b k s
  | .vrowx d a b k => Sys2Proof.Machine.execVrowx d a b k s
  | .vextr d a b => Sys2Proof.Machine.execVextr d a b s
  | .vinsr d a b => Sys2Proof.Machine.execVinsr d a b s
  | .vpopq d q k => Sys2Proof.Machine.execVpopq d q k s
  | .vpshq q a => Sys2Proof.Machine.execVpshq q a s
  | .vappend b k => Sys2Proof.Machine.execVappend b k s
  | .vwadd d a b k sc => Sys2Proof.Machine.execVwadd d a b k sc s
  | .vwaddu d a b k sc => Sys2Proof.Machine.execVwaddu d a b k sc s
  | .vwmul d a b k sc => Sys2Proof.Machine.execVwmul d a b k sc s
  | .vwmulu d a b k sc => Sys2Proof.Machine.execVwmulu d a b k sc s
  | .vwacc d a b k sc => Sys2Proof.Machine.execVwacc d a b k sc s
  | .vwaccu d a b k sc => Sys2Proof.Machine.execVwaccu d a b k sc s
  | .vnsrl d a b k sc => Sys2Proof.Machine.execVnsrl d a b k sc s
  | .vnclip d a b k sc => Sys2Proof.Machine.execVnclip d a b k sc s
  | .vfcvt d c b k => Sys2Proof.Machine.execVfcvt d c b k s
  | .vld d a k => Sys2Proof.Machine.execVld d a k s
  | .vlds d a b k => Sys2Proof.Machine.execVlds d a b k s
  | .vldr d a b k => Sys2Proof.Machine.execVldr d a b k s
  | .vldx d a b k => Sys2Proof.Machine.execVldx d a b k s
  | .vldq d a b k => Sys2Proof.Machine.execVldq d a b k s
  | .vldff d a k => Sys2Proof.Machine.execVldff d a k s
  | .vldt d a b k => Sys2Proof.Machine.execVldt d a b k s
  | .vst d a k => Sys2Proof.Machine.execVst d a k s
  | .vsts d a b k => Sys2Proof.Machine.execVsts d a b k s
  | .vstr d a b k => Sys2Proof.Machine.execVstr d a b k s
  | .vstx d a b k => Sys2Proof.Machine.execVstx d a b k s
  | .vstq d a b k => Sys2Proof.Machine.execVstq d a b k s
  | .vamoAdd d a b k sc l q => Sys2Proof.Machine.execVamoAdd d a b k sc l q s
  | .vamoSwp d a b k sc l q => Sys2Proof.Machine.execVamoSwp d a b k sc l q s
  | .vamoAnd d a b k sc l q => Sys2Proof.Machine.execVamoAnd d a b k sc l q s
  | .vamoOr d a b k sc l q => Sys2Proof.Machine.execVamoOr d a b k sc l q s
  | .vamoXor d a b k sc l q => Sys2Proof.Machine.execVamoXor d a b k sc l q s
  | .vamoMin d a b k sc l q => Sys2Proof.Machine.execVamoMin d a b k sc l q s
  | .vamoMax d a b k sc l q => Sys2Proof.Machine.execVamoMax d a b k sc l q s
  | .vamoMinu d a b k sc l q => Sys2Proof.Machine.execVamoMinu d a b k sc l q s
  | .vamoMaxu d a b k sc l q => Sys2Proof.Machine.execVamoMaxu d a b k sc l q s
  | .vamoFmin d a b k sc l q => Sys2Proof.Machine.execVamoFmin d a b k sc l q s
  | .vamoFmax d a b k sc l q => Sys2Proof.Machine.execVamoFmax d a b k sc l q s
  | .vwaitEq d n b k => Sys2Proof.Machine.execVwaitEq d n b k s
  | .vwaitNe d n b k => Sys2Proof.Machine.execVwaitNe d n b k s
  | .vwaitLt d n b k => Sys2Proof.Machine.execVwaitLt d n b k s
  | .vwaitGe d n b k => Sys2Proof.Machine.execVwaitGe d n b k s
  | .vwaitLtu d n b k => Sys2Proof.Machine.execVwaitLtu d n b k s
  | .vwaitGeu d n b k => Sys2Proof.Machine.execVwaitGeu d n b k s
  | .vwaitBudgetExpiry tag => Sys2Proof.Machine.execVwaitBudgetExpiry tag s
  | .fence sc r => Sys2Proof.Machine.execFence sc r s
  | .dfenceI d => Sys2Proof.Machine.execDfenceI d s
  | .dfenceW a => Sys2Proof.Machine.execDfenceW a s
  | .mattach b => Sys2Proof.Machine.execMattach b s
  | .mdetach => Sys2Proof.Machine.execMdetach s
  | .mfmt b => Sys2Proof.Machine.execMfmt b s
  | .mldb a b => Sys2Proof.Machine.execMldb a b s
  | .mldbm a b => Sys2Proof.Machine.execMldbm a b s
  | .mmulVreg a => Sys2Proof.Machine.execMmulVreg a s
  | .mmulTq q => Sys2Proof.Machine.execMmulTq q s
  | .maccr d m b => Sys2Proof.Machine.execMaccr d m b s
  | .maccz => Sys2Proof.Machine.execMaccz s
  | .mchk d => Sys2Proof.Machine.execMchk d s
  | .powerTokenIdleReturn die quad => Sys2Proof.Machine.execPowerTokenIdleReturn die quad s
  | .cpy d a b c => Sys2Proof.Machine.execCpy d a b c s
  | .cpy2 d a c => Sys2Proof.Machine.execCpy2 d a c s
  | .cpyx d a c => Sys2Proof.Machine.execCpyx d a c s
  | .tlwait a b => Sys2Proof.Machine.execTlwait a b s
  | .tlread d a => Sys2Proof.Machine.execTlread d a s
  | .engctxCreate d a => Sys2Proof.Machine.execEngctxCreate d a s
  | .engctxDestroy a => Sys2Proof.Machine.execEngctxDestroy a s
  | .engctxQuery d a => Sys2Proof.Machine.execEngctxQuery d a s
  | .operationStart op => Sys2Proof.Machine.execOperationStart op s
  | .operationComplete op => Sys2Proof.Machine.execOperationComplete op s
  | .tbind d a b => Sys2Proof.Machine.execTbind d a b s
  | .tnbr d a b => Sys2Proof.Machine.execTnbr d a b s
  | .tface d a b => Sys2Proof.Machine.execTface d a b s
  | .tmark d a b => Sys2Proof.Machine.execTmark d a b s
  | .tcommit d a b => Sys2Proof.Machine.execTcommit d a b s
  | .tfree a => Sys2Proof.Machine.execTfree a s
  | .tcolour d a b => Sys2Proof.Machine.execTcolour d a b s
  | .tlevel d a b => Sys2Proof.Machine.execTlevel d a b s
  | .tcut d a b => Sys2Proof.Machine.execTcut d a b s
  | .tremap d a b => Sys2Proof.Machine.execTremap d a b s
  | .txport d a b => Sys2Proof.Machine.execTxport d a b s
  | .timport d a b => Sys2Proof.Machine.execTimport d a b s
  | .topoTilePush op => Sys2Proof.Machine.execTopoTilePush op s
  | .spawn d a => Sys2Proof.Machine.execSpawn d a s
  | .waitch a => Sys2Proof.Machine.execWaitch a s
  | .bar sc => Sys2Proof.Machine.execBar sc s
  | .bara d sc => Sys2Proof.Machine.execBara d sc s
  | .barw a sc => Sys2Proof.Machine.execBarw a sc s
  | .barrierEpisodeComplete group scope unit => Sys2Proof.Machine.execBarrierEpisodeComplete group scope unit s
  | .rldx d a b k => Sys2Proof.Machine.execRldx d a b k s
  | .rstx d a b k => Sys2Proof.Machine.execRstx d a b k s
  | .ramoxAdd d a b k => Sys2Proof.Machine.execRamoxAdd d a b k s
  | .ramoxSwp d a b k => Sys2Proof.Machine.execRamoxSwp d a b k s
  | .ramoxAnd d a b k => Sys2Proof.Machine.execRamoxAnd d a b k s
  | .ramoxOr d a b k => Sys2Proof.Machine.execRamoxOr d a b k s
  | .ramoxXor d a b k => Sys2Proof.Machine.execRamoxXor d a b k s
  | .ramoxMin d a b k => Sys2Proof.Machine.execRamoxMin d a b k s
  | .ramoxMax d a b k => Sys2Proof.Machine.execRamoxMax d a b k s
  | .ramoxMinu d a b k => Sys2Proof.Machine.execRamoxMinu d a b k s
  | .ramoxMaxu d a b k => Sys2Proof.Machine.execRamoxMaxu d a b k s
  | .ramoxFmin d a b k => Sys2Proof.Machine.execRamoxFmin d a b k s
  | .ramoxFmax d a b k => Sys2Proof.Machine.execRamoxFmax d a b k s
  | .remoteRequest src id window fn size elems => Sys2Proof.Machine.execRemoteRequest src id window fn size elems s
  | .remoteResponse tag id results => Sys2Proof.Machine.execRemoteResponse tag id results s
  | .remoteTimeout tag id => Sys2Proof.Machine.execRemoteTimeout tag id s
  | .dpost a b k => Sys2Proof.Machine.execDpost a b k s
  | .dgrant d a => Sys2Proof.Machine.execDgrant d a s
  | .xrun d a b => Sys2Proof.Machine.execXrun d a b s
  | .xstat d a b k => Sys2Proof.Machine.execXstat d a b k s
  | .postReceive x round member bytes => Sys2Proof.Machine.execPostReceive x round member bytes s
  | .postRequest x round candidate => Sys2Proof.Machine.execPostRequest x round candidate s
  | .calendarReceive x round phases posted => Sys2Proof.Machine.execCalendarReceive x round phases posted s
  | .arbiterTimeout x round => Sys2Proof.Machine.execArbiterTimeout x round s
  | .readyReceive x round phase src => Sys2Proof.Machine.execReadyReceive x round phase src s
  | .segmentReceive x round phase src bytes mark => Sys2Proof.Machine.execSegmentReceive x round phase src bytes mark s
  | .spillReceive x round src bytes => Sys2Proof.Machine.execSpillReceive x round src bytes s
  | .finalReceive x round src total acked => Sys2Proof.Machine.execFinalReceive x round src total acked s
  | .exchangeTimeout x round => Sys2Proof.Machine.execExchangeTimeout x round s
  | .cred d a b k => Sys2Proof.Machine.execCred d a b k s
  | .cbcast d a b => Sys2Proof.Machine.execCbcast d a b s
  | .cgath d a b => Sys2Proof.Machine.execCgath d a b s
  | .cbar d a => Sys2Proof.Machine.execCbar d a s
  | .cstat d a => Sys2Proof.Machine.execCstat d a s
  | .collPacketReceive g src seq op kind count root phase payload => Sys2Proof.Machine.execCollPacketReceive g src seq op kind count root phase payload s
  | .collAbortReceive g src seq mismatch => Sys2Proof.Machine.execCollAbortReceive g src seq mismatch s
  | .collTimeout g => Sys2Proof.Machine.execCollTimeout g s
  | .pbar => Sys2Proof.Machine.execPbar s
  | .park d a b => Sys2Proof.Machine.execPark d a b s
  | .unpark d a b => Sys2Proof.Machine.execUnpark d a b s
  | .pstat d a => Sys2Proof.Machine.execPstat d a s
  | .persistAccept atom => Sys2Proof.Machine.execPersistAccept atom s
  | .flashWriteback atom => Sys2Proof.Machine.execFlashWriteback atom s
  | .powerLoss => Sys2Proof.Machine.execPowerLoss s
  | .powerLossDrainEnd failed => Sys2Proof.Machine.execPowerLossDrainEnd failed s
  | .orderlyShutdown => Sys2Proof.Machine.execOrderlyShutdown s
  | .dispatchRotation die cores => Sys2Proof.Machine.execDispatchRotation die cores s
  | .enqueueAppend queue bytes => Sys2Proof.Machine.execEnqueueAppend queue bytes s
  | .stagingWordStore core word value => Sys2Proof.Machine.execStagingWordStore core word value s
  | .stagingAppend core queue => Sys2Proof.Machine.execStagingAppend core queue s
  | .hartRetire tag => Sys2Proof.Machine.execHartRetire tag s
  | .pageWalk place win va acc sv => Sys2Proof.Machine.execPageWalk place win va acc sv s
  | .memoryAccessPerform pa size data bitError => Sys2Proof.Machine.execMemoryAccessPerform pa size data bitError s
  | .xlinvPage win va dies => Sys2Proof.Machine.execXlinvPage win va dies s
  | .xlinvWindow win dies => Sys2Proof.Machine.execXlinvWindow win dies s
  | .xlinvNonglobal dies => Sys2Proof.Machine.execXlinvNonglobal dies s
  | .xlinvAll dies => Sys2Proof.Machine.execXlinvAll dies s
  | .invalidationComplete => Sys2Proof.Machine.execInvalidationComplete s
  | .preemptRequest die tag => Sys2Proof.Machine.execPreemptRequest die tag s
  | .hartSave tag => Sys2Proof.Machine.execHartSave tag s
  | .checkMismatch tag inst at_ second dest found => Sys2Proof.Machine.execCheckMismatch tag inst at_ second dest found s
  | .uncorrectableConsumed tag inst memory address row elem second dest => Sys2Proof.Machine.execUncorrectableConsumed tag inst memory address row elem second dest s
  | .laneSpare die core group lane corrected bad => Sys2Proof.Machine.execLaneSpare die core group lane corrected bad s
  | .groupRetire die core group lane storage => Sys2Proof.Machine.execGroupRetire die core group lane storage s
  | .linkFrameReceive link direction crcOk tagOk inOrder => Sys2Proof.Machine.execLinkFrameReceive link direction crcOk tagOk inOrder s
  | .linkRekey link direction => Sys2Proof.Machine.execLinkRekey link direction s
  | .linkLoss link => Sys2Proof.Machine.execLinkLoss link s
  | .partcfgWrite value => Sys2Proof.Machine.execPartcfgWrite value s
  | .partrst value => Sys2Proof.Machine.execPartrst value s
  | .fabricFrameReceive port fcsOk icvOk frame => Sys2Proof.Machine.execFabricFrameReceive port fcsOk icvOk frame s
  | .hostRdmaWrite qp rkey offset bytes => Sys2Proof.Machine.execHostRdmaWrite qp rkey offset bytes s
  | .hostRdmaRead qp rkey offset len => Sys2Proof.Machine.execHostRdmaRead qp rkey offset len s
  | .hostInvalidOpcode qp => Sys2Proof.Machine.execHostInvalidOpcode qp s
  | .hostPortIntegrityFail port => Sys2Proof.Machine.execHostPortIntegrityFail port s
  | .pwrctlWrite die value => Sys2Proof.Machine.execPwrctlWrite die value s
  | .telemetrySample temps powers coolant => Sys2Proof.Machine.execTelemetrySample temps powers coolant s
  | .bringUp images entries writes => Sys2Proof.Machine.execBringUp images entries writes s
  | .attestationReport nonce => Sys2Proof.Machine.execAttestationReport nonce s
  | .registerWrite agent pa value => Sys2Proof.Machine.execRegisterWrite agent pa value s
  | .unallocatedEncoding raw => Sys2Proof.Machine.execUnallocatedEncoding raw s
  | .cycleIncrement core => Sys2Proof.Machine.execCycleIncrement core s
  | .linkTrainingComplete link => Sys2Proof.Machine.execLinkTrainingComplete link s
  | .portLinkUp host port => Sys2Proof.Machine.execPortLinkUp host port s
  | .fabricLinkLoss port => Sys2Proof.Machine.execFabricLinkLoss port s
  | .hostApertureResponse id data => Sys2Proof.Machine.execHostApertureResponse id data s

end Sys2Proof.Machine
end

