-- ==== Sys2Proof/Machine/Fetch.lean ====
section
/-! DEFINITION. Fetching an instruction (spec/01 R27-R29), the head of the vector queue (spec/05 R162), and what a step
does between turns (DESIGN CHOICE, log 4). -/

namespace Sys2Proof.Machine

/-- The two bytes of a parcel at a physical address, one of the allowed old or new values (R29; DESIGN CHOICE, log 8). -/
def State.parcel (s : State) (pa : Nat) : List Byte × State :=
  let new := [s.mem.byte pa, s.mem.byte (pa + 1)]
  if s.st.stale.any (fun c => c.1 == pa || c.1 == pa + 1) then
    let old := [Sparse.get (s.mem.byte pa) s.st.stale pa, Sparse.get (s.mem.byte (pa + 1)) s.st.stale (pa + 1)]
    (if Config.fetchOld s.freeCtr then old else new, { s with freeCtr := s.freeCtr + 1 })
  else (new, s)

/-- Fetches one parcel at a virtual address (R27, R287). -/
def State.fetchParcel (s : State) (va : Word) : Res (List Byte) :=
  (s.translate s.agent (.plain 3 2) va).bind fun x s =>
    let r := s.parcel (s.agent.readAt x)
    .ok r.1 r.2

/-- Fetches the bytes of the instruction at PC: one parcel, or two when bit 0 of the first is 1 (R27, R39). -/
def State.fetch (s : State) : Res (List Byte) :=
  (s.fetchParcel s.st.pc).bind fun p s =>
    if (p.getD 0 0).toNat % 2 = 0 then .ok p s
    else (s.fetchParcel (s.st.pc + 2)).bind fun q s => .ok (p ++ q) s

/-- Whether the streams of a hart stop, but for a DEVICE access under way (R430, R447). -/
def Run.stops (r : Run) : Bool := r == .stopping || r == .killed false

noncomputable section

/-- Fetches, decodes and executes the instruction at PC; what no instruction is raises ILLOP (R71). -/
def State.stepStream (s : State) : Out :=
  match s.fetch with
  | .ok bytes s1 =>
    match decode bytes with
    | .ok i => exec i s1
    | .error _ => exec (.unallocatedEncoding (BitVec.ofNat 32 (leNat bytes))) s1
  | .trap c v s1 => .next (s1.trap c v 0)
  | .mem f s1 => .next (s1.memFault f 0)
  | .wait s1 => .next s1.yield

/-- The instruction of a vector-queue entry. -/
def VEntry.instr (e : VEntry) : Option Instr :=
  match decodeWord e.word.toNat with
  | .ok i => some i
  | .error _ => none

/-- One turn of the main stream: the head of the vector queue, and while that waits, the stream's next instruction
(R149, R163), but not behind a VAPPEND whose checks are not made (R162). While the hart stops, only the DEVICE access that
is under way goes on (R430). -/
def State.stepMain (s : State) : Out :=
  match s.hart.vq with
  | [] => s.stepStream
  | e :: _ =>
    match e.instr with
    | none => .fault .brokenQueue
    | some i =>
      if s.hart.run.stops ∧ s.hart.aperture.any (·.who == 1) = false then s.stepStream
      else match exec i { s with atHead := true } with
        | .next s1 =>
          if s1.hart.run = .running ∧ s.hart.vq.length ≤ s1.hart.vq.length ∧ s1.hart.vq.any VEntry.uncheckedAppend = false then
            { s1 with quantum := s.quantum }.stepStream
          else .next s1
        | o => o

end

/-- Whether a stream of the executing hart can execute (R145, R401, R430, R480): of a hart that stops or is killed, one whose DEVICE
access is under way (R285). -/
def State.mayRun (s : State) (feeder : Bool) : Bool :=
  s.occupied && !s.down && (!feeder || (s.hart.hasFeeder && s.hart.feederLive))
  && (s.hart.run == .running || (s.hart.run.stops && s.hart.aperture.any fun d => (d.who == 2) == feeder))

/-- Whether the stream that has the turn can execute. -/
def State.runnable (s : State) : Bool := s.mayRun s.onFeeder

/-- Whether a stream of a hart may have something to execute. -/
def Hart.awake (h : Hart) : Bool := h.run == .running || (h.run.stops && h.aperture != [])

/-! ## Between turns (DESIGN CHOICE, log 4) -/

/-- The state an outcome leads to, or the one it started from. -/
def orSame (s : State) : Out → State
  | .next t => t
  | .fault _ => s
  | .refused _ => s

/-- The events of the machine's own units that may be due: saves and retirements, engine operations, durability,
invalidations, barriers, dispatch, power tokens, the cycle of the core that had the turn. An event whose condition does
not hold changes nothing. -/
def State.due (s : State) : List (State → Out) :=
  (s.allHarts.flatMap fun h => if h.isControl then [] else
    [execHartSave h.tag, execHartRetire h.tag, execVwaitBudgetExpiry h.tag])
  ++ (s.ops.flatMap fun o => [execOperationStart o.id, execTopoTilePush o.id, execOperationComplete o.id])
  ++ (s.ingress.map fun u => execPersistAccept u.atom)
  ++ (s.invs.map fun _ => execInvalidationComplete)
  ++ (s.groups.flatMap fun g => (List.range 4).flatMap fun sc => g.members.map fun m =>
    execBarrierEpisodeComplete g.id sc (s.unitOf sc m.startid))
  ++ ((List.range 4).map fun d => execDispatchRotation d [])
  ++ ((List.range 4).flatMap fun d => if (s.ring d).waiting = [] then [] else
    (s.ring d).holders.map fun q => execPowerTokenIdleReturn d q.1)
  ++ (if s.occupied then [execCycleIncrement s.hart.coreKey] else [])

/-- Each due event in turn. -/
def State.sweep (s : State) : State := s.due.foldl (fun t f => orSame t (f t)) s

/-- The hart at place `i` of the others gets the turn. -/
def State.focusAt (s : State) (i : Nat) : State :=
  match s.others[i]? with
  | none => s
  | some h =>
    { s with hart := h, occupied := true, onFeeder := false, atHead := false
             others := s.others.eraseIdx i ++ (if s.occupied then [s.hart] else []) }

/-- The turn passes round: from a main stream to its feeder, else to the next hart that runs. -/
def State.rotate (s : State) : State :=
  if s.onFeeder = false ∧ s.mayRun true then { s with onFeeder := true, quantum := 1 }
  else match s.others.findIdx? Hart.awake with
    | some i => { (s.focusAt i) with quantum := 1 }
    | none => { s with onFeeder := false, quantum := 1 }

/-- Whether a hart is the one that a turn names. -/
def Hart.named (h : Hart) (ctl : Option Nat) (tag : BitVec 32) : Bool :=
  match ctl with
  | some n => h.kind == .control n
  | none => !h.isControl && h.tag == tag

/-- The turn passes to the stream that an input names. -/
def State.turnTo (s : State) (ctl : Option Nat) (tag : BitVec 32) (feeder : Bool) : State :=
  if s.occupied ∧ s.hart.named ctl tag then { s with onFeeder := feeder, quantum := 1 }
  else match s.others.findIdx? (·.named ctl tag) with
    | some i => { (s.focusAt i) with onFeeder := feeder, quantum := 1 }
    | none => s

/-- Stores of main scalar agents wait from now on, or are all performed (R326; DESIGN CHOICE, log 7). -/
def State.holding (s : State) (b : Bool) : State :=
  let s1 := { s with hold := b }
  if b then s1 else s1.settleWhere fun _ => true

noncomputable section

/-- No turn is left: the next input, else what is due and the next turn. -/
def State.turnOver (s : State) : Out :=
  match s.inputs with
  | .event i :: rest => if i.event then exec i { s with inputs := rest } else .next { s with inputs := rest }
  | .turn ctl tag feeder :: rest => .next ({ s with inputs := rest }.turnTo ctl tag feeder)
  | .pause n :: rest => .next { s with inputs := rest, pause := some n }
  | .hold b :: rest => .next ({ s with inputs := rest }.holding b)
  | .resend dest seq :: rest => .next ({ s with inputs := rest }.resend dest seq)
  | [] => .next (if s.down then s else s.sweep.rotate)

/-- A turn of the stream that has it. -/
def State.turn (s : State) : Out :=
  let s1 := { s with quantum := s.quantum - 1 }
  if s.onFeeder then s1.stepStream else s1.stepMain

end

/-! ## Placing an instruction (DESIGN CHOICE, log 6) -/

/-- A hart that runs and has the next turn, with an empty vector queue. -/
def State.seated (s : State) : State :=
  let s1 := { s with occupied := true, down := false, atHead := false, quantum := 1
                     hart := { s.hart with run := .running, vq := [] } }
  if s1.runnable then s1 else { s1 with onFeeder := false }

/-- A page of 256 MiB of HBM for code that no page maps: R, W, X, U, NORMAL, A and D set (R279-R281). -/
def State.codePage (s : State) (va : Word) : State :=
  let d := s.hart.die
  let pa := (if d < 4 then d else 0) * 0x2000000000 + 0x10000000
  let x := s.st.win.toNat * 2 ^ 64 + va.toNat
  let us := s.agent.units
  let e : TlbEntry := ⟨us.headD .hub, d, x / 2 ^ 28 * 2 ^ 28, 2 ^ 28, 0, BitVec.ofNat 64 (pa + 0x33F)⟩
  { s with tlb := e :: s.tlb.filter (fun t => !(us.contains t.unit && t.die == d && inRange x t.vbase t.size))
           hub := { s.hub with xlroot := vset s.hub.xlroot d (vget s.hub.xlroot 0 d ||| 1) } }

/-- Where a fetch of two bytes reads. -/
def State.fetchAt (s : State) (va : Word) : Option Nat :=
  match s.translate s.agent (.plain 3 2) va with
  | .ok x _ => some (s.agent.readAt x)
  | .trap _ _ _ | .mem _ _ | .wait _ => none

/-- Puts bytes where a fetch reads them. -/
def State.putCode (s : State) (pa : Nat) (bytes : List Byte) : State :=
  { s with mem := s.mem.setBytes pa bytes }.setSt
    { s.st with stale := s.st.stale.filter fun c => !inRange c.1 pa bytes.length }

/-- Two bytes at a virtual address, on a page of their own where none maps it. -/
def State.putParcel (s : State) (va : Word) (bytes : List Byte) : State :=
  match s.fetchAt va with
  | some pa => s.putCode pa bytes
  | none =>
    let s1 := s.codePage va
    match s1.fetchAt va with
    | some pa => s1.putCode pa bytes
    | none => s1

/-- The instruction whose low `nbits` bits are those of `w`, stored where the next step fetches. -/
def State.placeWord (s : State) (nbits w : Nat) : State :=
  let b := toLe 4 (w % 2 ^ nbits)
  let s1 := s.seated
  (s1.putParcel s1.st.pc (b.take 2)).putParcel (s1.st.pc + 2) (b.drop 2)

end Sys2Proof.Machine
end

