-- ==== Sys2Proof/Machine/Step.lean ====
section
/-! DEFINITION. One step of the machine. -/

namespace Sys2Proof.Machine

noncomputable section

/-- A step: the stream that has the turn executes one instruction; without a turn left, what is due between turns. -/
def step (s : State) : Host.Outcome State Fault Refusal :=
  if 0 < s.quantum ∧ s.runnable = true then s.turn else s.turnOver

end

/-- `s` with the instruction stored where its next step fetches, and a stream seated to fetch it. -/
def State.withFetchWord (s : State) (nbits w : Nat) : State := s.placeWord nbits w

end Sys2Proof.Machine
end

