-- ==== Sys2Proof/Safety.lean ====
section
/-! DEFINITION. The terms in which statements about the machine are made: when a form executes, what an instruction
leaves unchanged, the invariant of memory, and a safe run. -/

namespace Sys2Proof.Machine

/-! ## Runs -/

/-- A run of `n` steps that no fault and no refusal ends. -/
def State.Safe (s : State) (n : Nat) : Prop := ∃ t, Host.Core.run Sys2Proof.core n s = .next t

/-- Memory and its durable copy are in their canonical form. -/
def State.MemOk (s : State) : Prop := Memory.wf s.mem = true ∧ Memory.wf s.durable = true

/-! ## When a scalar form executes -/

/-- A scalar form may execute (R71): a stream that may run it, a prefix it may take, a predicate that holds (R69), no
register that awaits a value (R164, R347). -/
def State.ScalarReady (s : State) (k : PfxKind) (feeder control : Bool) (regs : List Reg) : Prop :=
  (s.onFeeder = true → feeder = true)
  ∧ (s.st.pfxp = true → k ≠ .never ∧ (k = .pred → pfxCen s.st.pfxd = false))
  ∧ (s.hart.isControl = true → control = true)
  ∧ s.regWait (if s.st.pfxp then pfxSrc s.st.pfxd :: pfxReg s.st.pfxd :: regs else regs) = false
  ∧ s.st.predicate = true

/-! ## What changes -/

/-- `t` differs from `s` in the executing stream only. -/
def State.StreamOnly (s t : State) : Prop := t = s.setSt t.st

/-- An instruction of `size` bytes has written `v` to g[d], and to the register of its prefix copy (R70), and nothing
else but PC, LASTD.G, the pending prefix and the open signature has changed. -/
def State.WroteG (s t : State) (word size : Nat) (d : Reg) (v : Word) : Prop :=
  s.StreamOnly t
  ∧ t.st = { s.st with g := t.st.g, pc := s.st.pc + BitVec.ofNat 64 size, lastG := d, pfxp := false
                       sig := sigAdd s.st.sig word size }
  ∧ ∀ r, t.st.rd r = if r = 0 then 0
      else if r = d ∨ (s.st.pfxp = true ∧ pfxCen s.st.pfxd = true ∧ r = pfxReg s.st.pfxd) then v else s.st.rd r

/-- An instruction of `size` bytes has completed without a g destination, and nothing but PC, the pending prefix and
the open signature has changed. -/
def State.Passed (s t : State) (word size : Nat) : Prop :=
  t = s.setSt { s.st with pc := s.st.pc + BitVec.ofNat 64 size, pfxp := false, sig := sigAdd s.st.sig word size }

/-- No signature is open, or it matches once the parcels of this instruction have entered it (R81). -/
def State.SigMatches (s : State) (word size : Nat) : Prop :=
  ∀ o, sigAdd s.st.sig word size = some o → o.crc = o.expected

/-- Control has passed to `target`, the signature is closed, and nothing else has changed. -/
def State.WentTo (s t : State) (target : Word) : Prop :=
  t = s.setSt { s.st with pc := target, pfxp := false, sig := none }

/-- SIGFAIL has been raised in `s`, whose PC is the next instruction, for the comparing instruction `word` at `at_`: a control
core takes a trap; a hart is parked with one record and REASON.SIGFAIL and REASON.FAULT, and SIGFAILS counts it (R453, R457,
R536). -/
def State.SigFailed (s t : State) (at_ : Word) (word : Nat) : Prop :=
  (s.hart.isControl = true → t = s.trapAt 0x21 at_ s.st.pc word)
  ∧ (s.hart.isControl = false → ∃ r, t.hart.events = s.hart.events ++ [[r]]
    ∧ r.cause = 0x21 ∧ r.flags = 1 ∧ r.src = (if s.onFeeder then 1 else 0) ∧ r.pc = at_ ∧ r.word = BitVec.ofNat 32 word
    ∧ r.handle = s.hart.tag.setWidth 64 ∧ r.hartid = s.hart.hartid.setWidth 16
    ∧ t.hart.run = s.hart.run.parked ∧ t.hart.reason = s.hart.reason ||| 0b01010
    ∧ vget t.hub.rascnt 0 (11 * s.hart.die + 5) = vget s.hub.rascnt 0 (11 * s.hart.die + 5) + 1
    ∧ { t with hart := { t.hart with run := s.hart.run, reason := s.hart.reason, events := s.hart.events }
               quantum := s.quantum, hub := { t.hub with rascnt := s.hub.rascnt } } = s)

/-- `i` has completed with the value `v` for g[d], and nothing else has changed but what every completion changes. -/
def State.Wrote (s t : State) (i : Instr) (d : Reg) (v : Word) : Prop := s.WroteG t (encodeNat i) i.size d v

/-- `i` has completed without a g destination, and nothing else has changed but what every completion changes. -/
def State.Finished (s t : State) (i : Instr) : Prop := s.Passed t (encodeNat i) i.size

/-- Whenever a scalar form with a g destination may execute, it completes with the value `v` for g[d] and changes
nothing else. -/
def Gives (i : Instr) (regs : List Reg) (d : Reg) (v : State → Word) : Prop :=
  ∀ s, s.ScalarReady .copy true true regs → ∃ t, exec i s = .next t ∧ s.Wrote t i d (v s)

/-! ## Waiting, traps, grants -/

/-- A form that may execute has to wait: nothing changes, and the stream gives up its turn (DESIGN CHOICE, log 4). -/
def State.Waits (s : State) (i : Instr) : Prop := exec i s = .next { s with quantum := 0 }

/-- `i` raises a trap with a value, with no other effect. -/
def State.Traps (s : State) (i : Instr) (c : Cause) (v : Word) : Prop := exec i s = .next (s.trap c v (encodeNat i))

/-- `i` raises a trap that reports the instruction. -/
def State.TrapsOn (s : State) (i : Instr) (c : Cause) : Prop := s.Traps i c (BitVec.ofNat 64 (encodeNat i))

/-- The width of SHARE.PEND (R158). -/
def State.newWidth (s : State) : Nat := min s.hart.share (min (s.cap s.hart.die) s.hart.lv)

/-- The pending width has been applied to the executing stream (R159): a main stream's register and mask rows keep the
bytes below both widths, m0 stays, and nothing else changes. -/
def State.Regranted (s t : State) : Prop :=
  t.st = { s.st with grant := s.newWidth }
  ∧ { t with hart := { t.hart with v := s.hart.v, m := s.hart.m } } = s.setSt t.st
  ∧ (s.onFeeder = true ∨ s.st.grant = s.newWidth → t.hart.v = s.hart.v ∧ t.hart.m = s.hart.m)
  ∧ (s.onFeeder = false → s.st.grant ≠ s.newWidth →
    (∀ n r o, r < 8 → o < 2048 → Sparse.get 0 t.hart.v (vKey n r o)
      = if o < 192 * min s.st.grant s.newWidth then Sparse.get 0 s.hart.v (vKey n r o) else 0)
    ∧ ∀ n r e, r < 8 → e < 16384 → Sparse.get false t.hart.m (mKey n r e)
      = if n = 0 ∨ e < 1536 * min s.st.grant s.newWidth then Sparse.get false s.hart.m (mKey n r e) else false)

/-! ## Vector instructions -/

/-- The configuration that a vector instruction of the executing stream takes at issue (R162). -/
def State.vcfg (s : State) : VCfg where
  sew := vtypeSew s.st.vtype
  lmul := vtypeLmul s.st.vtype
  alt := s.st.vtype.getLsbD 3
  tp := s.st.vtype.getLsbD 1
  mp := s.st.vtype.getLsbD 0
  vl := s.st.vl.toNat
  rc := s.st.rc.toNat
  vrow := s.st.vstart.toNat / 65536
  velem := s.st.vstart.toNat % 65536
  g := s.st.grant
  rm := Rm.ofCode s.st.rm.toNat
  pfx := if s.st.pfxp then some s.st.pfxd else none

/-- Two groups, each a base and a size, share no register. -/
def Apart (x y : Nat × Nat) : Prop := x.1 + x.2 ≤ y.1 ∨ y.1 + y.2 ≤ x.1

/-- A vector instruction may issue and, the vector queue being empty, execute at once: it is on a main stream of a C die
(R145, R536), its groups end at v31 (R66) and keep the bank rule (R65), its prefix is one that it may take (R68), and
none of the g registers `regs` pends (R164, R347). -/
def State.VecReady (s : State) (k : PfxKind) (dst : Option (Nat × Nat)) (srcs : List (Nat × Nat)) (bank : Prop)
    (regs : List Reg) : Prop :=
  s.atHead = false ∧ s.onFeeder = false ∧ s.hart.isControl = false ∧ s.hart.vq = [] ∧ s.regWait regs = false ∧ bank
  ∧ (∀ x ∈ srcs, x.1 + x.2 ≤ 32) ∧ (∀ x, dst = some x → x.1 + x.2 ≤ 32)
  ∧ (s.st.pfxp = true → k ≠ .never ∧ 1 ≤ (pfxSrc s.st.pfxd).toNat ∧ (pfxSrc s.st.pfxd).toNat ≤ 7
    ∧ (pfxCen s.st.pfxd = true → k = .copy ∧ ∃ x, dst = some x ∧ (pfxReg s.st.pfxd).toNat + x.2 ≤ 32
      ∧ ∀ y ∈ x :: srcs, Apart ((pfxReg s.st.pfxd).toNat, x.2) y))

/-- The elements of a group of `size` registers with elements of `bw` bytes hold VL (R154, R158). -/
def VCfg.Fits (c : VCfg) (bw size : Nat) : Prop := 1 ≤ c.g ∧ c.g ≤ 8 ∧ c.rc ≤ 8 ∧ c.vl ≤ size * rowElems c.g bw

/-- What a position of a destination holds afterwards (R156, R171): `val` at an active one. -/
def VCfg.after {α : Type} (c : VCfg) (act : Nat → Nat → Bool) (zero : α) (r e : Nat) (val old : α) : α :=
  if r < c.rc ∧ e < c.vl ∧ c.vrow * 65536 + c.velem ≤ r * 65536 + e then
    if act r e = true then val else if c.mp = true then zero else old
  else if c.tp = true ∧ c.vrow ≤ r ∧ r < c.rc ∧ c.vl ≤ e then zero else old

/-- `bit` is the OR of the flags of the active positions (R173). -/
def VCfg.Flags (c : VCfg) (act : Nat → Nat → Bool) (flag : Nat → Nat → BitVec 7) (fl : BitVec 7) : Prop :=
  ∀ j, fl.getLsbD j = true ↔ ∃ r e, r < c.rc ∧ e < c.vl ∧ act r e = true ∧ (flag r e).getLsbD j = true

/-- The destination group at `base` and the copy group of a prefix hold the results by position class (R70, R156), and
every other register is unchanged. -/
def State.VecWrote (s t : State) (c : VCfg) (act : Nat → Nat → Bool) (bw size base : Nat) (val : Nat → Nat → Nat) : Prop :=
  (∀ b ∈ base :: c.copyBase.toList, ∀ r e, r < 8 → e < size * rowElems c.g bw →
    elemRd t.hart.v c.g bw b r e = c.after act 0 r e (val r e % 2 ^ (8 * bw)) (elemRd s.hart.v c.g bw b r e))
  ∧ ∀ n r o, r < 8 → o < 2048 → (∀ b ∈ base :: c.copyBase.toList, n < b ∨ b + size ≤ n) →
    Sparse.get 0 t.hart.v (vKey n r o) = Sparse.get 0 s.hart.v (vKey n r o)

/-- The mask `d` holds the results by position class (R171), and every other mask is unchanged. -/
def State.MaskWrote (s t : State) (c : VCfg) (act : Nat → Nat → Bool) (d : Nat) (val : Nat → Nat → Bool) : Prop :=
  (∀ r e, r < 8 → e < 1536 * c.g → maskRd t.hart.m d r e = c.after act false r e (val r e) (maskRd s.hart.m d r e))
  ∧ ∀ n r e, n ≠ d → r < 8 → e < 16384 → maskRd t.hart.m n r e = maskRd s.hart.m n r e

/-- A vector instruction has completed: PC, the pending prefix, the open signature and VSTART change as every completion
changes them (R28, R81, R157), the rest of the stream is `u`, and nothing else has changed but the v registers, the
masks, the poison of register groups, the count of R448 and the RAS counter of poisoned groups. -/
def State.VecPassed (s t : State) (i : Instr) (u : Stream) : Prop :=
  t.st = { u with pc := s.st.pc + BitVec.ofNat 64 i.size, pfxp := false, vstart := 0
                  sig := sigAdd s.st.sig (encodeNat i) i.size }
  ∧ { t with hart := { t.hart with main := s.hart.main, v := s.hart.v, m := s.hart.m, poison := s.hart.poison, vcount := s.hart.vcount }
             hub := { t.hub with rascnt := s.hub.rascnt } } = s
  ∧ t.hart.vcount = s.hart.vcount + 1

/-- The same with LASTD.V = `d` and flags ORed into FCSR. -/
def State.VecSet (s t : State) (i : Instr) (d : Reg) (fl : BitVec 7) : Prop :=
  s.VecPassed t i { s.st with lastV := d, flags := s.st.flags ||| fl } ∧ t.hart.m = s.hart.m

/-- An elementwise instruction completes: values and flags by position, under the mask field `k`. -/
def State.Elementwise (s : State) (i : Instr) (d : Reg) (k bw size : Nat) (val : Nat → Nat → Nat × BitVec 7) : Prop :=
  let act := s.vcfg.active s.hart.m k
  ∃ t fl, exec i s = .next t ∧ s.VecSet t i d fl ∧ s.vcfg.Flags act (fun r e => (val r e).2) fl
    ∧ s.VecWrote t s.vcfg act bw size d.toNat fun r e => (val r e).1

/-! ## Vector accesses -/

/-- The positions row < RC, e < VL that are active, in row-major order. -/
def VCfg.places (c : VCfg) (act : Nat → Nat → Bool) : List (Nat × Nat) :=
  ((List.range c.rc).flatMap fun r => (List.range c.vl).map fun e => (r, e)).filter fun p => act p.1 p.2

/-- m0 is clear, as between indexed accesses (R152, R307). -/
def State.M0Clear (s : State) : Prop := ∀ x ∈ s.hart.m, x.1 / 16384 / 8 ≠ 0

/-- The accesses of an instruction at the addresses of its active positions are aligned and translate to memory, not to a DEVICE
page, `xl` says where, with accessed and dirty bits up to date (R282, R287, R300). -/
def State.Reaches (s : State) (x : Access) (act : Nat → Nat → Bool) (addr : Nat → Nat → Word) (xl : Nat → Nat → Xl) : Prop :=
  ∀ r e, r < s.vcfg.rc → e < s.vcfg.vl → act r e = true →
    (addr r e).toNat % 2 ^ s.vcfg.sew = 0 ∧ s.translate s.agent x (addr r e) = .ok (xl r e) s
    ∧ (xl r e).cls ≠ 1 ∧ ∀ o, region (xl r e).pa ≠ .hub o

/-- No access of the executing hart is under way: no store waits (DESIGN CHOICE, log 7), no DEVICE access awaits a response (R285, R529). -/
def State.Calm (s : State) : Prop :=
  s.hold = false ∧ s.hart.late = [] ∧ s.hart.device = [] ∧ s.hart.remoteData = [] ∧ s.hart.aperture = []

/-- And no pause within a vector access is due (DESIGN CHOICE, log 4). -/
def State.Quiet (s : State) : Prop := s.pause = none ∧ s.Calm

/-- Operations are as before, but that those of exchanges and groups that have started afresh are lost (R498, R509; DESIGN CHOICE, log 42). -/
def State.OpsKept (s t : State) : Prop :=
  ∃ p : CtxRef → Bool, (∀ c, p c = true → (∃ x, c = .xchg x) ∨ ∃ g, c = .coll g)
    ∧ t.ops = s.ops.map fun o => if p o.ctx then { o with stage := .lost } else o

/-- A vector instruction that stores has completed: what a write of memory touches may have changed (with it exchanges and groups
that it enables, and who waits on those), and POISON records, and in the stream and the hart what `VecPassed` allows. -/
def State.VecStored (s t : State) (i : Instr) (u : Stream) : Prop :=
  t.st = { u with pc := s.st.pc + BitVec.ofNat 64 i.size, pfxp := false, vstart := 0
                  sig := sigAdd s.st.sig (encodeNat i) i.size, stale := t.st.stale, tlw := t.st.tlw }
  ∧ { t with hart := { t.hart with main := s.hart.main, feed := { t.hart.feed with tlw := s.hart.feed.tlw }, v := s.hart.v
                                   m := s.hart.m, poison := s.hart.poison, vcount := s.hart.vcount }
             others := s.others, queues := s.queues, dispatchers := s.dispatchers
             hub := { t.hub with rascnt := s.hub.rascnt }
             mem := s.mem, ingress := s.ingress, memPoison := s.memPoison, poisonAtoms := s.poisonAtoms
             xchgs := s.xchgs, colls := s.colls, ops := s.ops, frq := s.frq } = s
  ∧ s.OpsKept t ∧ t.hart.vcount = s.hart.vcount + 1

/-- A matrix instruction has completed: as `VecPassed`, with the v registers and masks unchanged, and beyond it only
the hart's macros, format, mismatch record, tile queues and the power tokens may have changed. -/
def State.MatPassed (s t : State) (i : Instr) (u : Stream) : Prop :=
  ∃ v, s.VecPassed v i u ∧ v.hart.v = s.hart.v ∧ v.hart.m = s.hart.m
    ∧ t = { v with
        hart := { v.hart with mfmt := t.hart.mfmt, mcount := t.hart.mcount, mb := t.hart.mb, mscale := t.hart.mscale
                              macc := t.hart.macc, mcs := t.hart.mcs, mmiss := t.hart.mmiss, mmissMac := t.hart.mmissMac, matBad := t.hart.matBad
                              tq := t.hart.tq }
        tokens := t.tokens }

/-- The macros, the tile queues and the tokens are unchanged. -/
def State.SameMacros (s t : State) : Prop :=
  t.hart.mfmt = s.hart.mfmt ∧ t.hart.mcount = s.hart.mcount ∧ t.hart.mb = s.hart.mb ∧ t.hart.mscale = s.hart.mscale
  ∧ t.hart.macc = s.hart.macc ∧ t.hart.mcs = s.hart.mcs ∧ t.hart.mmiss = s.hart.mmiss ∧ t.hart.mmissMac = s.hart.mmissMac ∧ t.hart.tq = s.hart.tq
  ∧ t.tokens = s.tokens

/-! ## Engine operations -/

/-- The `n` 8-byte words from `va` up can be read by the executing stream: each access translates to memory, not to a DEVICE page, with its
accessed bit up to date, and is not poisoned; `w j` is word j (R282, R289, R452). -/
def State.Words (s : State) (va : Word) (n : Nat) (w : Nat → Word) : Prop :=
  va.toNat % 8 = 0 ∧ ∀ j, j < n → ∃ x, s.translate s.agent (.plain 0 8) (va + BitVec.ofNat 64 (8 * j)) = .ok x s
    ∧ x.cls ≠ 1 ∧ (∀ o, region x.pa ≠ .hub o) ∧ s.isPoisoned (s.agent.readAt x) 8 = false
    ∧ w j = BitVec.ofNat 64 (s.mem.readLe (s.agent.readAt x) 8)

/-- Only timelines, operations, generations, exchanges, groups and the executing stream differ. -/
def State.EngineOnly (s t : State) : Prop :=
  { t with hart := { t.hart with main := s.hart.main, feed := s.hart.feed, cc := s.hart.cc }
           ops := s.ops, nextOp := s.nextOp, gens := s.gens, sched := s.sched, bedrock := s.bedrock
           xchgs := s.xchgs, colls := s.colls } = s
  ∧ (s.onFeeder = true → t.hart.main = s.hart.main) ∧ (s.onFeeder = false → t.hart.feed = s.hart.feed)

/-- The newest operation of `t` is of kind `k` on context `c`, numbered after ISSUED, with the issuing stream's identity
(R345, R348), and ISSUED of `c` has risen by 1. -/
def State.NewOp (s t : State) (c : CtxRef) (k : OpKind) (token : Reg) (also : Option (Nat × Nat)) (issued : Nat) : Prop :=
  (∃ o, t.ops = s.ops ++ [o] ∧ o.id = s.nextOp ∧ o.ctx = c ∧ o.kind = k ∧ o.token = token ∧ o.num = issued + 1
    ∧ o.issuer = s.hart.tag ∧ o.feeder = s.onFeeder ∧ o.win = s.st.win ∧ o.sv = s.hart.sv ∧ o.hartid = s.hart.hartid
    ∧ o.also = also ∧ o.stage = .accepted)
  ∧ t.nextOp = s.nextOp + 1 ∧ (t.timeline c).issued = issued + 1

/-- An engine operation has been accepted on context `c` (R345-R348): the register of its token pends and is LASTD.G,
the instruction completes, and nothing else changes. -/
def State.Accepted (s t : State) (i : Instr) (c : CtxRef) (k : OpKind) (d : Reg) : Prop :=
  s.NewOp t c k d none (s.timeline c).issued
  ∧ (t.timeline c).count = (s.timeline c).count ∧ (t.timeline c).done = (s.timeline c).done
  ∧ (∀ c', c' ≠ c → t.timeline c' = s.timeline c')
  ∧ t.st = { s.st with pc := s.st.pc + 4, lastG := d, pfxp := false, sig := sigAdd s.st.sig (encodeNat i) 4
                       pend := if d = 0 then s.st.pend else s.st.pend ||| (1#32 <<< d.toNat) }
  ∧ s.EngineOnly t

end Sys2Proof.Machine
end

