-- ==== Sys2Proof/Certificates/Slice0/Obligations.lean ====
section
/-! DEFINITION. The statements about the machine, for the provers. -/

namespace Sys2Proof.Machine

/-! ## Terms of the statements on integers -/

/-- `n` is the number of leading 0 bits of `x`. -/
def LeadingZeros (x : Word) (n : Nat) : Prop :=
  n ≤ 64 ∧ (∀ j, j < n → x.getMsbD j = false) ∧ (n < 64 → x.getMsbD n = true)

/-- `n` is the number of trailing 0 bits of `x`. -/
def TrailingZeros (x : Word) (n : Nat) : Prop :=
  n ≤ 64 ∧ (∀ j, j < n → x.getLsbD j = false) ∧ (n < 64 → x.getLsbD n = true)

/-- What prefix a successor may take, by its parcel or word `w` of `size` bytes (R68): 2 a predicate and a copy, 1 a predicate
only, 0 none. -/
def successorKind (w size : Nat) : Nat :=
  if size = 2 then (if w / 2 % 32 ≤ 10 ∨ 14 ≤ w / 2 % 32 then 2 else if w / 2 % 32 = 11 then 1 else 0)
  else match w / 2 % 64 with
    | 0x01 | 0x02 | 0x03 | 0x04 | 0x05 | 0x06 | 0x07 | 0x08 | 0x10 | 0x13 | 0x14 | 0x19 | 0x1A | 0x1E | 0x20 => 2
    | 0x11 | 0x21 => 1
    | 0x1B => if w / 2 ^ 26 ≤ 11 then 1 else 0
    | _ => 0

/-- What the feeder may execute, by its parcel or word, its operands apart (R145). -/
def feederForm (w size : Nat) : Bool :=
  if size = 2 then decide (w / 2 % 32 ≤ 13)
  else
    let func6 := w / 2 ^ 26
    match w / 2 % 64 with
    | 0x0C => false
    | 0x18 | 0x20 | 0x25 | 0x26 | 0x2B => true
    | 0x1B => func6 == 22 && w / 2 ^ 7 % 32 == 0
    | 0x23 => decide (6 ≤ func6)
    | 0x27 => decide (w / 2 ^ 17 % 8 ≤ 1)
    | 0x28 => func6 == 0
    | m => decide (1 ≤ m) && decide (m ≤ 0x14)

/-- The groups that a vector word names, the copy group of the pending prefix among them, end at v31, and its bases keep the
bank rule (R65, R66). Where the successor has no destination group the copy group has LMUL registers (log 39). -/
def GroupsFit (s : State) (w : Nat) : Prop :=
  let l := vtypeLmul s.st.vtype
  let dst := (destOfWord w l).toList
  let scales := if w / 2 % 64 = 0x24 then [(w / 4096 % 32 + l, 1)] else []
  bankBad w = false ∧ (∀ x ∈ srcsOfWord w l (2 ^ vtypeSew s.st.vtype) ++ scales ++ dst, x.1 + x.2 ≤ 32)
  ∧ (pfxCen s.st.pfxd = true → (pfxReg s.st.pfxd).toNat + (dst.map (·.2)).headD l ≤ 32)

/-- What a kill of a hart abandons (R447): its stopped copies, and the streams into its tile queues. -/
def DiesWith (o : Op) (tag : BitVec 32) : Prop :=
  (∃ i n, o.ctx = .copy tag i ∧ o.stage = .stopped n)
  ∨ (o.issuer = tag ∧ o.ctl = none ∧ ∃ q l, o.kind = .tiles q l)

/-- What a release at scope `c` still waits for: at dur for DURABLE writes that are not durable (log 14), at pkg, pod and dur for
the RSTX and RAMOX of its stream (R496). -/
def State.ReleaseWaits (s : State) (c : BitVec 3) : Prop :=
  (c = 5 ∧ s.ingress ≠ [])
  ∨ (3 ≤ c.toNat ∧ s.onFeeder = false ∧ ∃ e ∈ s.hart.vq, wordRemoteStores e.word.toNat = true)

/-- The write of a completion record at DONE waits for a link (R256, R472, R481). -/
def State.RecordWaits (s : State) (die : Nat) (win : BitVec 8) (done : Word) : Prop :=
  done ≠ 0 ∧ done.toNat % 32 = 0 ∧ ∃ u, s.translate (dispatchAgent die win false) (.plain 1 32) done = .wait u

/-- The index of a 72-bit VA at a level of the tables (R278). -/
def walkIndex (va lvl : Nat) : Nat :=
  match lvl with
  | 4 => va / 2 ^ 64
  | 3 => va / 2 ^ 52 % 4096
  | 2 => va / 2 ^ 40 % 4096
  | 1 => va / 2 ^ 28 % 4096
  | _ => va / 2 ^ 16 % 4096

/-- A link that has failed, or whose counter stands at 2^48, while it is not up, lies on the way from a die (4 is H) to the home of
an address (R469, R472, R481). -/
def WayShut (s : State) (die pa : Nat) : Prop :=
  let home := match region pa with
    | .hbm d | .sram d | .spad d _ | .tcm d _ => d
    | .hub _ | .bedrock => 4
    | .aliasTcm _ | .aliasSpad _ | .aliasSram _ | .hole => die
  let via : List Nat :=
    if die = home then []
    else if home = 4 then [4 + die]
    else if die = 4 then [4 + home]
    else match die, home with
      | 0, 1 | 1, 0 => [0]
      | 1, 3 | 3, 1 => [1]
      | 3, 2 | 2, 3 => [2]
      | 2, 0 | 0, 2 => [3]
      | 0, 3 | 3, 0 => [0, 1]
      | 1, 2 | 2, 1 => [0, 3]
      | _, _ => [0, 3]
  ∃ n ∈ via, let l := vget s.links linkDefault n; l.up = false ∧ (l.failed = true ∨ ∃ k ∈ l.frames.toList, 2 ^ 48 ≤ k)

/-- A walk for a VA comes to level `lvl` with the table at a base (R280): each entry above is valid, well formed and no leaf, and no
link to it is shut. -/
inductive WalkAt (s : State) (a : Agent) (va : Nat) : Nat → Nat → Prop where
  | root : (vget s.hub.xlroot 0 a.die).toNat % 2 = 1 →
      s.tableAt a.bound ((vget s.hub.xlroot 0 a.die).toNat / 2 ^ 16 % 2 ^ 40 * 2 ^ 16) = true →
      WalkAt s a va 4 ((vget s.hub.xlroot 0 a.die).toNat / 2 ^ 16 % 2 ^ 40 * 2 ^ 16)
  | down {lvl t e : Nat} : WalkAt s a va (lvl + 1) t → e = s.mem.readLe (t + 8 * walkIndex va (lvl + 1)) 8 →
      ¬WayShut s a.die (t + 8 * walkIndex va (lvl + 1)) → e % 2 = 1 →
      s.malformed a.bound e (lvl + 1) = false → e / 2 % 2 = 0 → WalkAt s a va lvl (e / 2 ^ 16 % 2 ^ 40 * 2 ^ 16)

/-- The populated regions that a page's class may reach (R283); a hole is left to NOMEM, and so is HBM of a die other than 0
under REPLICATED, which is not. -/
def classReaches (cls pa : Nat) : Bool :=
  match region pa with
  | .hbm d => cls == 0 || (cls == 3 && d == 0)
  | .sram _ | .spad _ _ | .tcm _ _ | .aliasTcm _ | .aliasSpad _ | .aliasSram _ => cls == 0
  | .hub _ => cls == 1
  | .bedrock => cls == 2
  | .hole => true

/-- Whether an access finds no memory (R259, R267, R268, R272, R373, R435, R440, R478, R529): `pb` is its address with aliases
resolved. -/
def noMemory (s : State) (a : Agent) (x : Access) (cls pa pb : Nat) : Bool :=
  match region pa with
  | .hole => true
  | .aliasTcm _ | .aliasSpad _ | .aliasSram _ => a.id.isNone || s.closedTo a pb
  | .hbm d | .sram d | .spad d _ | .tcm d _ =>
    (s.reached a x cls pa).any (s.closedTo a) || (cls != 3 && decide (a.bound < 4) && !s.samePart a.bound d)
  | .hub o => match apertureOf o with
    | some (n, _) => s.apertureShut n || (x.form == .sync && x.size != 8)
    | none => if x.form = .block then (enqueueWindow o).isNone else x.acc != 2 && x.size != 8
  | .bedrock => false

/-- What an access under the leaf `e`, which lies at `p` and maps `size` bytes, answers (R282, R283, R287): it waits for a link that
is shut on its way to a place that it reaches, or on the walker's way to a leaf that it changes (R472, R481). -/
def LeafAnswers (s : State) (a : Agent) (x : Access) (va : Word) (p e size : Nat) (r : Res Xl) : Prop :=
  let cls := e / 64 % 4
  let pa := e / 2 ^ 16 % 2 ^ 40 * 2 ^ 16 + va.toNat % size
  let pb := match a.id with | some id => resolveAlias id pa | none => pa
  let reads : Bool := x.acc == 0 || x.acc == 2
  let writes : Bool := x.acc == 1 || x.acc == 2
  let checks : List (BitVec 8 × Bool) :=
    [ (0x10, !a.sv && !e.testBit 5),
      (0x11, reads && !e.testBit 2),
      (0x12, writes && !e.testBit 3),
      (0x13, x.acc == 3 && (!e.testBit 4 || cls == 1 || cls == 2)),
      (0x14, (cls == 1 && a.engine) || (cls == 3 && a.ctl.isSome) || !classReaches cls pa),
      (0x15, noMemory s a x cls pa pb),
      (0x16, x.acc == 2 && cls == 1),
      (0x17, match x.place with | none => false | some (lo, len, al) => !inRange (if al then pb else pa) lo len) ]
  match checks.find? (·.2) with
  | some (kind, _) => r = .mem ⟨false, kind, x.acc, 0xFF, va, a.win, size⟩ s
  | none =>
    let e' := withAD x.acc e
    let waits : Prop := (∃ q ∈ s.reached a x cls pa, WayShut s a.start q) ∨ (e' ≠ e ∧ WayShut s a.die p)
    (waits → r = .wait s)
    ∧ (¬waits → r = .ok ⟨pb, cls⟩ (
        if e' = e then s
        else { s with
          mem := s.mem.writeLe p 8 e'
          tlb := s.tlb.map fun h => if a.units.contains h.unit ∧ h.pteAt = p ∧ h.pte.toNat = e then { h with pte := BitVec.ofNat 64 e' } else h }))

/-- The addresses of the quad's four TCMs, which VLDQ, VSTQ and the loads of a macro are bound to (R301). -/
def quadTcms (s : State) : Nat × Nat × Bool :=
  (0xA000000000 + idDie s.hart.hartid * 0x2000000 + idQuad s.hart.hartid * 0x100000, 0x100000, false)

/-- The accesses of an instruction at its active positions are aligned; each translates, `xl` says where, or faults where `flt`
gives a fault. -/
def State.Tries (s : State) (x : Access) (act : Nat → Nat → Bool) (addr : Nat → Nat → Word) (xl : Nat → Nat → Xl)
    (flt : Nat → Nat → Option MemFault) : Prop :=
  ∀ r e, r < s.vcfg.rc → e < s.vcfg.vl → act r e = true →
    (addr r e).toNat % 2 ^ s.vcfg.sew = 0
    ∧ s.translate s.agent x (addr r e) = match flt r e with | none => .ok (xl r e) s | some f => .mem f s

/-- Two positions fault on one page: of the size of the leaf found, or of 64 KiB (R442; log 24). -/
def faultPage (flt : Nat → Nat → Option MemFault) (p q : Nat × Nat) : Bool :=
  match flt p.1 p.2, flt q.1 q.2 with
  | some f, some g => f.page == g.page && f.va.toNat / f.page == g.va.toNat / g.page
  | _, _ => false

/-- `i` has been performed in part (R305, R307): the main stream is past it, it stays in the vector queue with its VSTART and the
positions `kept`; what its elements touch may have changed, and nothing else has. -/
def State.Halfway (s t : State) (i : Instr) (u : Stream) (vstart : Nat) (kept : List Nat) (stopped : Bool) : Prop :=
  t.st = { u with pc := s.st.pc + BitVec.ofNat 64 i.size, pfxp := false, sig := sigAdd s.st.sig (encodeNat i) i.size
                  stale := t.st.stale, tlw := t.st.tlw }
  ∧ (∃ q, t.hart.vq = [q] ∧ q.word = BitVec.ofNat 32 (encodeNat i) ∧ q.stopped = stopped ∧ q.vstart.toNat = vstart
      ∧ q.latched = kept ∧ (q.vtype, q.vl, q.rc) = (s.st.vtype, s.st.vl, s.st.rc) ∧ q.pc = trapEpc 0 s.st)
  ∧ { t with hart := { t.hart with main := s.hart.main, feed := { t.hart.feed with tlw := s.hart.feed.tlw }, v := s.hart.v
                                   m := s.hart.m, poison := s.hart.poison, vq := [], run := s.hart.run, reason := s.hart.reason
                                   events := s.hart.events }
             others := s.others, queues := s.queues, dispatchers := s.dispatchers
             hub := { t.hub with rascnt := s.hub.rascnt }, quantum := s.quantum, pause := s.pause
             mem := s.mem, ingress := s.ingress, memPoison := s.memPoison, poisonAtoms := s.poisonAtoms
             xchgs := s.xchgs, colls := s.colls, ops := s.ops, frq := s.frq } = s
  ∧ s.OpsKept t

/-- The hart stops at the faults of `i` with REASON.FAULT (R427) and one event (R441, R442): a record for every page that
faults, in the order of their first positions, which counts its positions. -/
def State.StopsAt (s t : State) (i : Instr) (acc : Nat) (flt : Nat → Nat → Option MemFault) (places : List (Nat × Nat))
    (vstart : Nat) : Prop :=
  let bad := places.filter fun p => (flt p.1 p.2).isSome
  let firsts := bad.filter fun p => !bad.any fun q => decide (q.1 * 65536 + q.2 < p.1 * 65536 + p.2) && faultPage flt p q
  t.hart.run = s.hart.run.parked ∧ t.hart.reason = s.hart.reason ||| 2
  ∧ ∃ ev : List FaultRec, t.hart.events = s.hart.events ++ [ev] ∧ ev.length = firsts.length
    ∧ ∀ (j : Nat) (p : Nat × Nat) (f : MemFault), firsts[j]? = some p → flt p.1 p.2 = some f → ∃ r : FaultRec, ev[j]? = some r
      ∧ r.cause = (if f.xlate then 0x10 else 0x11) ∧ r.kind = f.kind ∧ r.acc = BitVec.ofNat 8 acc ∧ r.va = f.va ∧ r.vawin = f.win
      ∧ r.level = (if f.xlate then f.level else 0xFF) ∧ r.npos = (bad.filter (faultPage flt p)).length
      ∧ r.aux = BitVec.ofNat 64 vstart ∧ r.src = 0 ∧ r.flags = 1 ∧ r.pc = trapEpc 0 s.st ∧ r.word = BitVec.ofNat 32 (encodeNat i)
      ∧ r.handle = s.hart.tag.setWidth 64 ∧ r.hartid = s.hart.hartid.setWidth 16

/-- Context `c` has ceased to exist (R361, R363): each stream that waited on it in TLWAIT will raise ILLOP, a record at the head
of a queue that waited on it names no context, and so do those of the pools; nothing else has changed. -/
def State.CtxEnded (s t : State) (c : CtxRef) : Prop :=
  let ended (h k : Hart) : Prop := k =
    { h with main := { h.main with tlw := if h.main.tlw = .on c then .gone else h.main.tlw }
             feed := { h.feed with tlw := if h.feed.tlw = .on c then .gone else h.feed.tlw } }
  ended s.hart t.hart ∧ { t with hart := s.hart, others := s.others, queues := s.queues, dispatchers := s.dispatchers } = s
  ∧ s.others.length = t.others.length ∧ s.queues.length = t.queues.length
  ∧ (∀ (n : Nat) (h k : Hart), s.others[n]? = some h → t.others[n]? = some k → ended h k)
  ∧ (∀ (n : Nat) (q r : StartQueue), s.queues[n]? = some q → t.queues[n]? = some r →
      { r with records := q.records } = q ∧ r.records.length = q.records.length
      ∧ ∀ (j : Nat) (x : List Byte), q.records[j]? = some x → r.records[j]? = some
        (if j < headSize q.records ∧ ctxOfId (fieldAt x 40 2) = some c then (x.set 40 0x00).set 41 0x60 else x))
  ∧ (s.awaits (· == c) = false → t = s)

/-- Memory with the `n` bytes at `src` also at `dst`, all read before any is written (R356). -/
def moved (m : Nat → Byte) (dst src n : Nat) : Nat → Byte := fun k => if dst ≤ k ∧ k < dst + n then m (src + (k - dst)) else m k

/-- The bytes of memory have changed, of no DURABLE page, and with them only the poison of their words and the exchanges and
groups that they enable with what waits on those (R361, R363, R498, R509). -/
def State.BytesOnly (s t : State) : Prop :=
  { t with mem := s.mem, memPoison := s.memPoison, xchgs := s.xchgs, colls := s.colls, ops := s.ops, hart := s.hart
           others := s.others, queues := s.queues, dispatchers := s.dispatchers } = s
  ∧ s.OpsKept t
  ∧ t.hart = { s.hart with main := { s.hart.main with tlw := t.hart.main.tlw }, feed := { s.hart.feed with tlw := t.hart.feed.tlw } }
  ∧ (s.awaits (fun _ => true) = false → t.hart = s.hart ∧ t.others = s.others ∧ t.queues = s.queues ∧ t.dispatchers = s.dispatchers)

/-- An operation reads and writes the VAs [lo, lo + len) at the physical addresses from `base` up, on pages of class `cls`, whatever
becomes of memory, the persist units and the generations: by translations that are held. -/
def State.Maps (s : State) (a : Agent) (cls lo len base : Nat) : Prop :=
  (∀ k, k < len → (region (base + k) = .bedrock ↔ cls = 2) ∧ ∀ o, region (base + k) ≠ .hub o)
  ∧ ∀ (u : State) (acc n : Nat) (va : Word), s.BytesOnly { u with gens := s.gens, ingress := s.ingress, poisonAtoms := s.poisonAtoms } →
      acc ≤ 1 → 0 < n → va.toNat % 64 + n ≤ 64 → lo ≤ va.toNat → va.toNat + n ≤ lo + len →
      u.translate a (.plain acc n) va = .ok ⟨base + (va.toNat - lo), cls⟩ u

/-- Memory after entry `j` of CPYX (R355), or none where the entry reaches outside [lo, lo + len). -/
def copyEntry (lo len base : Nat) (dst src idx : Word) (esz w : Nat) (scatter : Bool) (m : Nat → Byte) (j : Nat) :
    Option (Nat → Byte) :=
  let inside (va : Word) (n : Nat) : Bool := decide (lo ≤ va.toNat) && decide (va.toNat + n ≤ lo + len)
  let at_ (va : Word) : Nat := base + (va.toNat - lo)
  let z := idx + BitVec.ofNat 64 (j * w)
  if !inside z w then none
  else
    let x := leNat ((List.range w).map fun i => m (at_ z + i))
    if x = 2 ^ (8 * w) - 1 then some m
    else
      let d := if scatter then dst + BitVec.ofNat 64 (x * esz) else dst + BitVec.ofNat 64 (j * esz)
      let c := if scatter then src + BitVec.ofNat 64 (j * esz) else src + BitVec.ofNat 64 (x * esz)
      if inside d esz && inside c esz then some (moved m (at_ d) (at_ c) esz) else none

/-! ## Terms of the statements on engines -/

/-- The number in `n` bytes of memory from an address up. -/
def numIn (m : Nat → Byte) (at_ n : Nat) : Nat := leNat ((List.range n).map fun i => m (at_ + i))

/-- Memory with numbers of `w` bytes from an address up. -/
def withNums (m : Nat → Byte) (at_ w : Nat) (l : List Nat) : Nat → Byte := fun k =>
  if at_ ≤ k ∧ k < at_ + w * l.length then BitVec.ofNat 8 (l.getD ((k - at_) / w) 0 / 256 ^ ((k - at_) % w)) else m k

/-- The pages that hold `n` bytes from a VA up are held, and their classes are as `cls` says. -/
def State.Classed (s : State) (a : Agent) (va : Word) (n : Nat) (cls : Nat → Nat) : Prop :=
  ∀ w : Word, 0 < n → va.toNat / 65536 ≤ w.toNat / 65536 → w.toNat / 65536 ≤ (va.toNat + n - 1) / 65536 →
    ∃ e, s.tlbFor a w.toNat = some e ∧ e.pte.toNat / 64 % 4 = cls (w.toNat / 65536)

/-- A key keeps R365 and R371. -/
def KeyFollows (k : Nat) : Prop :=
  let lev := k / 8 % 8
  let digit (l : Nat) : Nat := k / 2 ^ (30 - 4 * l) % 16
  k % 8 ≤ 3 ∧ lev ≤ 6 ∧ (∀ l, lev < l → l ≤ 6 → digit l = 0)
  ∧ ∀ l, 1 ≤ l → l ≤ lev →
    if k % 8 = 3 then digit l ≤ 5
    else if k % 8 = 1 then digit l ≤ 9
      ∧ (8 ≤ digit l → (∀ j, 1 ≤ j → j < l → digit j ≤ 5) ∧ ∀ j, l < j → j ≤ lev → digit j ≤ 7)
    else digit l ≤ 7

/-- LEVEL of a key (R365). -/
def levelOf (k : Nat) : Nat := k / 8 % 8

/-- What the keys of a family share (R365): the level, and the digits above the last. -/
def familyIs (k : Nat) : Nat × Nat := (levelOf k, k / 2 ^ (34 - 4 * levelOf k))

/-- Cell record `i` of a form breaks R371: `spare` is its reserved field. -/
def CellOffends (nc : Nat) (key spare : Nat → Nat) (i : Nat) : Prop :=
  spare i ≠ 0 ∨ ¬KeyFollows (key i) ∨ (∃ j, j < i ∧ key j = key i) ∨ (i ≠ 0 ∧ i ≠ nc ∧ key i ≤ key (i - 1))

/-- Face record `f` keeps the values of R370 among `n` cells. -/
def FaceValues (n : Nat) (key : Nat → Nat) (f : TFaceRec) : Prop :=
  let lev (i : Nat) : Nat := levelOf (key i)
  let faces (i : Nat) : Nat := [6, 4, 5, 5].getD (key i % 8) 0
  f.left < n ∧ f.lface < faces f.left
  ∧ (f.right = 0xFFFFFFFE → f.rface = 0xFF ∧ f.sub = 0xFF)
  ∧ (f.right ≠ 0xFFFFFFFE → f.right < n ∧ f.left < f.right ∧ f.btag = 0 ∧ f.rface < faces f.right
    ∧ lev f.left ≤ lev f.right + 1 ∧ lev f.right ≤ lev f.left + 1
    ∧ (lev f.left = lev f.right → f.sub = 0xFF) ∧ (lev f.left ≠ lev f.right → f.sub ≤ 3))

/-- Face record `j` of `nf` breaks R371: a hanging face whose coarser side is a face of an owned cell is listed as one record for
each subface. -/
def FaceOffends (n nc nf : Nat) (key : Nat → Nat) (face : Nat → TFaceRec) (spare : Nat → Nat) (j : Nat) : Prop :=
  let lev (i : Nat) : Nat := levelOf (key i)
  let f := face j
  let hangs (g : TFaceRec) : Prop := g.left < n ∧ g.right < n ∧ g.right ≠ 0xFFFFFFFE ∧ lev g.left ≠ lev g.right
  let coarse (g : TFaceRec) : Nat × Nat := if lev g.left < lev g.right then (g.left, g.lface) else (g.right, g.rface)
  let mine (i : Nat) : Prop := i < nf ∧ hangs (face i) ∧ coarse (face i) = coarse f
  spare j ≠ 0 ∨ ¬FaceValues n key f
  ∨ (0 < j ∧ let p := face (j - 1)
    ¬(p.left < f.left ∨ (p.left = f.left ∧ (p.lface < f.lface ∨ (p.lface = f.lface ∧ p.sub < f.sub)))))
  ∨ (hangs f ∧ (∀ i, i < j → ¬mine i)
    ∧ ((∃ i k, i < k ∧ mine i ∧ mine k ∧ (face i).sub = (face k).sub)
      ∨ ((coarse f).1 < nc ∧ ∃ u, u < 4 ∧ ∀ i, mine i → (face i).sub ≠ u)))

/-- Memory holds a form from an address up (R368-R370), with its fields as given and its first offending record, if any (R371). -/
structure FormIn (m : Nat → Byte) (pa : Nat) (f : Form) (ghosts : Nat) (bad : Option Nat) : Prop where
  head : numIn m pa 4 = 0x4E594D58 ∧ numIn m (pa + 4) 2 = 1 ∧ numIn m (pa + 20) 4 = 0 ∧ numIn m (pa + 48) 16 = 0
  counts : f.ncell = numIn m (pa + 8) 4 ∧ ghosts = numIn m (pa + 12) 4 ∧ f.cells.length = f.ncell + ghosts
    ∧ f.faces.length = numIn m (pa + 16) 4 ∧ f.cells.length ≤ 0xFFFFFFFD
  names : f.part = numIn m (pa + 6) 2 ∧ f.gen = numIn m (pa + 24) 8
  cell : ∀ i c, f.cells[i]? = some c → let at_ := pa + numIn m (pa + 32) 8 + 16 * i
    c.key.toNat = numIn m at_ 8 ∧ c.owner.toNat = numIn m (at_ + 8) 2 ∧ c.remote.toNat = numIn m (at_ + 12) 4
  face : ∀ i (r : TFaceRec), f.faces[i]? = some r → let at_ := pa + numIn m (pa + 40) 8 + 16 * i
    r.left = numIn m at_ 4 ∧ r.right = numIn m (at_ + 4) 4 ∧ r.lface = numIn m (at_ + 8) 1 ∧ r.rface = numIn m (at_ + 9) 1
    ∧ r.sub = numIn m (at_ + 10) 1 ∧ r.btag.toNat = numIn m (at_ + 12) 4
  offends : let key (i : Nat) : Nat := (f.cells.getD i ⟨0, 0, 0⟩).key.toNat
    let n := f.cells.length
    let wrong (o : Nat) : Prop :=
      (∃ i, i < n ∧ o = 1 + i ∧ CellOffends f.ncell key (fun i => numIn m (pa + numIn m (pa + 32) 8 + 16 * i + 10) 2) i)
      ∨ ∃ j, j < f.faces.length ∧ o = 1 + n + j ∧ FaceOffends n f.ncell f.faces.length key (fun j => f.faces.getD j ⟨0, 0, 0, 0, 0, 0⟩)
          (fun j => numIn m (pa + numIn m (pa + 40) 8 + 16 * j + 11) 1) j
    match bad with
    | none => ∀ o, ¬wrong o
    | some o => wrong o ∧ ∀ p, p < o → ¬wrong p

/-- The 16 bytes of a record as four numbers of 4: a cell (R369), a face (R370), a record of a remap list (R385). -/
def cellNums (c : TCell) : List Nat := [c.key.toNat % 2 ^ 32, c.key.toNat / 2 ^ 32, c.owner.toNat, c.remote.toNat]
/-- See `cellNums`. -/
def faceNums (f : TFaceRec) : List Nat := [f.left, f.right, f.lface + 256 * f.rface + 65536 * f.sub, f.btag.toNat]
/-- See `cellNums`. -/
def remapNums (r : Remap) : List Nat := [r.new, r.old, r.count, r.kind + 256 * r.form]

/-- Flags closed under R383 from `start` up, for cells of these keys. -/
def MarksClosed (keys : List Nat) (faces : List TFaceRec) (start f : Nat → Int) : Prop :=
  let key (i : Nat) : Nat := keys.getD i 0
  let digit (k : Nat) : Nat := k / 2 ^ (30 - 4 * levelOf k) % 16
  (∀ i, i < keys.length → start i ≤ f i)
  ∧ (∀ i, i < keys.length →
    let family := (List.range keys.length).filter fun j => familyIs (key j) == familyIs (key i)
    let whole := family.length = if family.any fun j => key j % 8 == 3 || decide (8 ≤ digit (key j)) then 10 else 8
    ¬whole ∨ (∃ j ∈ family, f j ≠ -1) → f i ≠ -1)
  ∧ ∀ r ∈ faces, r.right ≠ 0xFFFFFFFE →
    (levelOf (key r.right) : Int) + f r.right ≤ levelOf (key r.left) + f r.left + 1
    ∧ (levelOf (key r.left) : Int) + f r.left ≤ levelOf (key r.right) + f r.right + 1

/-- The key of child `c` of a cell, and its type (R365, R366). -/
def childOf (k c : Nat) : Nat :=
  let t := k % 8
  k / 64 * 64 + c * 2 ^ (26 - 4 * levelOf k) + 8 * (levelOf k + 1) + (if t = 3 ∧ 6 ≤ c then 1 else t)

/-- The number of children of a cell (R366). -/
def childrenOf (k : Nat) : Nat := if k % 8 = 3 then 10 else 8

/-- A record of a remap list says where cell `j` of a new generation comes from (R385): `old` and `new` are keys by index, `forms`
those of the forms of TIMPORT. -/
def RemapSays (old new : Nat → Nat) (forms : Nat → Nat → Nat) (r : Remap) (j : Nat) : Prop :=
  let i := j - r.new
  r.new ≤ j ∧ (
    (r.kind = 0 ∧ i < r.count ∧ new j = old (r.old + i))
    ∨ (r.kind = 1 ∧ i < r.count ∧ ∃ c, c < childrenOf (old r.old) ∧ new j = childOf (old r.old) c)
    ∨ (r.kind = 2 ∧ i = 0 ∧ r.count = childrenOf (new j) ∧ old r.old = childOf (new j) 0)
    ∨ (r.kind = 4 ∧ i < r.count ∧ new j = forms r.form (r.old + i)))

/-- 1 when a comparison holds, else 0 (R85). -/
def truth (p : Prop) [Decidable p] : Word := if p then 1 else 0

/-! ## Terms of the statements on number formats -/

/-- What an encoding stands for, in the spec's own terms (R117, R118). -/
inductive RVal where
  | nan (signalling : Bool)
  | inf (neg : Bool)
  | fin (neg : Bool) (x : Rat)
  deriving DecidableEq

/-- A row of the table of R117. -/
structure Layout where
  width : Nat
  frac : Nat
  bias : Nat
  /-- the largest finite magnitude, ∞ and the canonical NaN, as encoded -/
  top : Nat
  inf : Option Nat
  nan : Nat

/-- The table of R117, but for E2M1. -/
def layouts : List (Fmt × Layout) :=
  [ (fmtF64, ⟨64, 52, 1023, 0x7FEFFFFFFFFFFFFF, some 0x7FF0000000000000, 0x7FF8000000000000⟩),
    (fmtF32, ⟨32, 23, 127, 0x7F7FFFFF, some 0x7F800000, 0x7FC00000⟩),
    (fmtF16, ⟨16, 10, 15, 0x7BFF, some 0x7C00, 0x7E00⟩),
    (fmtBf16, ⟨16, 7, 127, 0x7F7F, some 0x7F80, 0x7FC0⟩),
    (fmtE4m3, ⟨8, 3, 7, 0x7E, none, 0x7F⟩),
    (fmtE5m2, ⟨8, 2, 15, 0x7B, some 0x7C, 0x7E⟩) ]

/-- The number that a magnitude stands for (R117). -/
def Layout.mag (l : Layout) (m : Nat) : Rat :=
  let e := m / 2 ^ l.frac
  let f : Rat := (m % 2 ^ l.frac : Nat)
  if e = 0 then f * 2 ^ (1 - l.bias - l.frac : Int) else (2 ^ l.frac + f) * 2 ^ (e - l.bias - l.frac : Int)

/-- What the low bits of a number stand for. -/
def Layout.value (l : Layout) (w : Nat) : RVal :=
  let m := w % 2 ^ (l.width - 1)
  let neg : Bool := w / 2 ^ (l.width - 1) % 2 == 1
  if m ≤ l.top then .fin neg (if neg then -l.mag m else l.mag m)
  else if l.inf = some m then .inf neg
  else .nan (l.inf.isSome && m / 2 ^ (l.frac - 1) % 2 == 0)

/-- A magnitude with a sign. -/
def Layout.code (l : Layout) (neg : Bool) (m : Nat) : Nat := if neg then 2 ^ (l.width - 1) + m else m

/-- Where one number stands to another. -/
def ratCmp (x y : Rat) : Ordering := if x < y then .lt else if x = y then .eq else .gt

/-- Whether a magnitude from `k` spacings `q` to below `k + 1` goes up to `k + 1` (R18): `c` says where it stands to a number. -/
def goesUp (rm : Rm) (neg : Bool) (c : Rat → Ordering) (k : Nat) (q : Rat) : Bool :=
  match rm with
  | .rne => c ((k + 1 / 2) * q) == .gt || (c ((k + 1 / 2) * q) == .eq && k % 2 == 1)
  | .rmm => c ((k + 1 / 2) * q) != .lt
  | .rtz => false
  | .rup => !neg && c (k * q) == .gt
  | .rdn => neg && c (k * q) == .gt

/-- What overflow delivers (R123, R127). -/
def Layout.over (l : Layout) (rm : Rm) (neg : Bool) : Nat :=
  match l.inf, rm, neg with
  | none, _, _ | some _, .rtz, _ | some _, .rdn, false | some _, .rup, true => l.top
  | some i, _, _ => i

/-- `w` and `fl` are the rounding and its flags of a magnitude that lies in the binade of 2^e, from `k` spacings of the format up
to `k + 1` and from `u` to `u + 1` of an unbounded exponent (R37, R123). -/
def Layout.roundsAt (l : Layout) (rm : Rm) (neg : Bool) (c : Rat → Ordering) (w : Nat) (fl : Flags) (e : Int) (k u : Nat) : Bool :=
  let q : Rat := 2 ^ (max e (1 - l.bias) - l.frac : Int)
  let p : Rat := 2 ^ (e - l.frac : Int)
  let r : Rat := (k + if goesUp rm neg c k q then 1 else 0) * q
  let v : Rat := (u + if goesUp rm neg c u p then 1 else 0) * p
  c (2 ^ e) != .lt && c (2 ^ (e + 1)) == .lt && c (k * q) != .lt && c ((k + 1) * q) == .lt && c (u * p) != .lt && c ((u + 1) * p) == .lt
  && (if l.mag l.top < r then decide (w = l.code neg (l.over rm neg)) && fl == 0x14
    else decide (w < 2 ^ l.width) && decide (l.value w = .fin neg (if neg then -r else r))
      && fl == (if c r = .eq then 0 else 0x04 ||| if v < 2 ^ (1 - l.bias : Int) then 0x08 else 0))

/-- The rounding of a nonzero exact number: its sign, and where its magnitude stands to any number. -/
def Layout.Rounds (l : Layout) (rm : Rm) (neg : Bool) (c : Rat → Ordering) (r : Nat × Flags) : Prop :=
  ∃ (e : Int) (k u : Nat), l.roundsAt rm neg c r.1 r.2 e k u = true

/-- The rounding of an exact number that is a ratio, of the sign `zero` where it is 0. -/
def Layout.RoundsTo (l : Layout) (rm : Rm) (zero : Bool) (x : Rat) (r : Nat × Flags) : Prop :=
  if x = 0 then r = (l.code zero 0, 0) else l.Rounds rm (decide (x < 0)) (ratCmp (if x < 0 then -x else x)) r

/-- The sum of two values that are no NaN (R123, R124, R135). -/
def Layout.Sums (l : Layout) (rm : Rm) (p q : RVal) (r : Nat × Flags) : Prop :=
  match p, q with
  | .inf m, .inf n => r = if m = n then (l.code m (l.inf.getD 0), 0) else (l.nan, flagNV)
  | .inf m, .fin _ _ | .fin _ _, .inf m => r = (l.code m (l.inf.getD 0), 0)
  | .fin m y, .fin n z => l.RoundsTo rm (if m = n then m else decide (rm = .rdn)) (y + z) r
  | .nan _, _ | _, .nan _ => True

/-- The value with its sign changed. -/
def RVal.minus : RVal → RVal
  | .nan s => .nan s
  | .inf n => .inf !n
  | .fin n x => .fin (!n) (-x)

/-- Whether a value is a NaN; with `true`, a signalling one. -/
def RVal.isNan (only : Bool) : RVal → Bool
  | .nan s => s || !only
  | .inf _ | .fin _ _ => false

/-- The sign of a value. -/
def RVal.neg : RVal → Bool
  | .nan _ => false
  | .inf n | .fin n _ => n

/-- Whether a value is ±0. -/
def RVal.zero : RVal → Bool
  | .fin _ x => x == 0
  | .nan _ | .inf _ => false

/-- Whether one value that is no NaN stands below another, -0 equal to +0. -/
def RVal.less : RVal → RVal → Bool
  | .inf m, .inf n => m && !n
  | .inf m, .fin _ _ => m
  | .fin _ _, .inf n => !n
  | .fin _ x, .fin _ y => decide (x < y)
  | .nan _, _ | _, .nan _ => false

/-- Node `j` of level `k` of the tree of R194 over its leaves, and the flags of its additions. -/
def treeNode (add : Nat → Nat → Nat × Flags) (leaf : Nat → Nat) : Nat → Nat → Nat × Flags
  | 0, j => (leaf j, 0)
  | k + 1, j =>
    let a := treeNode add leaf k (2 * j)
    let b := treeNode add leaf k (2 * j + 1)
    ((add a.1 b.1).1, a.2 ||| b.2 ||| (add a.1 b.1).2)

/-- The part of a number before its point, toward 0. -/
def ratTrunc (x : Rat) : Int := if x < 0 then -(-x).floor else x.floor

/-- The magnitude of a number. -/
def ratAbs (x : Rat) : Rat := if x < 0 then -x else x

/-- V of a windowed accumulator (R131). -/
def Acc.value (a : Acc) : Rat := a.mant * 2 ^ a.exp

/-- A windowed accumulator of A bits after a contribution `c` with its `need`, and whether bits are lost (R131). -/
def Windowed (width : Nat) (c : Rat) (need : Int) (a b : Acc) (lost : Bool) : Prop :=
  if c = 0 then b = a ∧ lost = false
  else
    let t := a.value + c
    let h0 := match a.top with | none => need | some h => max h need
    ∃ h : Int, b = { a with mant := b.mant, exp := b.exp, top := some h } ∧ h0 ≤ h ∧ ratAbs t < 2 ^ h ∧ (h = h0 ∨ 2 ^ (h - 1) ≤ ratAbs t)
      ∧ b.value = ratTrunc (t / 2 ^ (h - width + 1)) * 2 ^ (h - width + 1) ∧ (lost = true ↔ b.value ≠ t)

/-- The number of a finite value; 0 else. -/
def RVal.num : RVal → Rat
  | .fin _ x => x
  | .nan _ | .inf _ => 0

/-- The sum of the products of two lists. -/
def ratDot (x y : List Rat) : Rat := (x.zipWith (· * ·) y).foldl (· + ·) 0

/-- The number of an element of E2M1 (R117, R120). -/
def e2m1 (x : Nat) : Rat := (if x / 8 % 2 = 1 then -1 else 1) * [0, 1 / 2, 1, 3 / 2, 2, 3, 4, 6].getD (x % 8) 0

/-- Whether a value is finite. -/
def RVal.finite (x : RVal) : Prop := x = .fin x.neg x.num

/-- A block of 32 values as PARK encodes it (R121, R414), in elements of layout `k`: `inexact` says which elements differ. -/
def Parked (k : Layout) (emax : Int) (x : Nat → RVal) (scale : Nat) (code : Nat → Nat) (inexact : Nat → Bool) : Prop :=
  ((∃ i, i < 32 ∧ ¬(x i).finite) → scale = 255 ∧ ∀ i, i < 32 → code i = 0 ∧ inexact i = false)
  ∧ ((∀ i, i < 32 → (x i).finite) →
    ((∀ i, i < 32 → (x i).num = 0) → scale = 127 ∧ ∀ i, i < 32 → code i = 0 ∧ inexact i = false)
    ∧ ∀ g : Int, (∀ i, i < 32 → ratAbs (x i).num < 2 ^ (g + 1)) → (∃ i, i < 32 ∧ 2 ^ g ≤ ratAbs (x i).num) →
      let e := min (max (g - emax) (-127)) 127
      (scale : Int) = e + 127 ∧ ∀ i, i < 32 → ∃ fl : Flags, k.RoundsTo .rne (x i).neg ((x i).num / 2 ^ e) (code i, fl)
        ∧ inexact i = fl.getLsbD 2)

/-- An element as UNPARK decodes it (R120, R414), to a number of layout `l`. A NaN of the element's format is left out (log 42). -/
def Unparked (l k : Layout) (scale code w : Nat) (inexact : Bool) : Prop :=
  (scale = 255 → w = l.nan ∧ inexact = false)
  ∧ (scale ≠ 255 → (k.value code).finite →
    let n := (k.value code).neg
    let z := (k.value code).num * 2 ^ (scale - 127 : Int)
    (l.mag l.top < ratAbs z → w = l.code n l.top ∧ inexact = true)
    ∧ (ratAbs z ≤ l.mag l.top → ∃ fl : Flags, l.RoundsTo .rne n z (w, fl) ∧ inexact = fl.getLsbD 2))

/-- The layouts of EFMT: binary32, bfloat16, binary16 (R412). -/
def parkedFrom (efmt : Nat) : Layout :=
  match efmt with
  | 0 => ⟨32, 23, 127, 0x7F7FFFFF, some 0x7F800000, 0x7FC00000⟩
  | 1 => ⟨16, 7, 127, 0x7F7F, some 0x7F80, 0x7FC0⟩
  | _ => ⟨16, 10, 15, 0x7BFF, some 0x7C00, 0x7E00⟩

/-- The layouts of the elements of MX8 and MX4: E4M3 and E2M1 (R117, R412). -/
def parkedAs (fmt : Nat) : Layout := if fmt = 1 then ⟨8, 3, 7, 0x7E, none, 0x7F⟩ else ⟨4, 1, 1, 7, none, 0⟩

/-- The number of an 8-bit element. -/
def int8Of (unsigned : Bool) (x : Nat) : Int := if unsigned then (x % 256 : Nat) else (BitVec.ofNat 8 x).toInt

end Sys2Proof.Machine

open Sys2Proof Sys2Proof.Machine

/-- R85, R86: the value each INT instruction writes, whenever it may execute, and that it changes nothing else. R88, R45: the same
of each immediate instruction. R114: the compact forms on g registers, whose second source is g[LASTD.G]. -/
def Obligations.ScalarIntegerResults : Prop := (∀ d a b : Reg,
  Gives (.add d a b) [d, a, b] d (fun s => s.rd a + s.rd b)
  ∧ Gives (.sub d a b) [d, a, b] d (fun s => s.rd a - s.rd b)
  ∧ Gives (.and d a b) [d, a, b] d (fun s => s.rd a &&& s.rd b)
  ∧ Gives (.or d a b) [d, a, b] d (fun s => s.rd a ||| s.rd b)
  ∧ Gives (.xor d a b) [d, a, b] d (fun s => s.rd a ^^^ s.rd b)
  ∧ Gives (.andn d a b) [d, a, b] d (fun s => s.rd a &&& ~~~s.rd b)
  ∧ Gives (.orn d a b) [d, a, b] d (fun s => s.rd a ||| ~~~s.rd b)
  ∧ Gives (.sll d a b) [d, a, b] d (fun s => s.rd a <<< ((s.rd b).toNat % 64))
  ∧ Gives (.srl d a b) [d, a, b] d (fun s => s.rd a >>> ((s.rd b).toNat % 64))
  ∧ Gives (.sra d a b) [d, a, b] d (fun s => (s.rd a).sshiftRight ((s.rd b).toNat % 64))
  ∧ Gives (.rol d a b) [d, a, b] d (fun s => (s.rd a).rotateLeft ((s.rd b).toNat % 64))
  ∧ Gives (.ror d a b) [d, a, b] d (fun s => (s.rd a).rotateRight ((s.rd b).toNat % 64))
  ∧ Gives (.min d a b) [d, a, b] d (fun s => if (s.rd a).toInt ≤ (s.rd b).toInt then s.rd a else s.rd b)
  ∧ Gives (.max d a b) [d, a, b] d (fun s => if (s.rd a).toInt ≤ (s.rd b).toInt then s.rd b else s.rd a)
  ∧ Gives (.minu d a b) [d, a, b] d (fun s => if (s.rd a).toNat ≤ (s.rd b).toNat then s.rd a else s.rd b)
  ∧ Gives (.maxu d a b) [d, a, b] d (fun s => if (s.rd a).toNat ≤ (s.rd b).toNat then s.rd b else s.rd a)
  ∧ Gives (.slt d a b) [d, a, b] d (fun s => truth ((s.rd a).toInt < (s.rd b).toInt))
  ∧ Gives (.sltu d a b) [d, a, b] d (fun s => truth ((s.rd a).toNat < (s.rd b).toNat))
  ∧ Gives (.seq d a b) [d, a, b] d (fun s => truth (s.rd a = s.rd b))
  ∧ Gives (.sne d a b) [d, a, b] d (fun s => truth (s.rd a ≠ s.rd b))
  ∧ Gives (.mul d a b) [d, a, b] d (fun s => s.rd a * s.rd b)
  ∧ Gives (.mulh d a b) [d, a, b] d (fun s => BitVec.ofInt 64 ((s.rd a).toInt * (s.rd b).toInt / 2 ^ 64))
  ∧ Gives (.mulhu d a b) [d, a, b] d (fun s => BitVec.ofNat 64 ((s.rd a).toNat * (s.rd b).toNat / 2 ^ 64))
  ∧ Gives (.div d a b) [d, a, b] d (fun s => if s.rd b = 0 then BitVec.allOnes 64
      else BitVec.ofInt 64 ((s.rd a).toInt.tdiv (s.rd b).toInt))
  ∧ Gives (.divu d a b) [d, a, b] d (fun s => if s.rd b = 0 then BitVec.allOnes 64
      else BitVec.ofNat 64 ((s.rd a).toNat / (s.rd b).toNat))
  ∧ Gives (.rem d a b) [d, a, b] d (fun s => if s.rd b = 0 then s.rd a
      else BitVec.ofInt 64 ((s.rd a).toInt.tmod (s.rd b).toInt))
  ∧ Gives (.remu d a b) [d, a, b] d (fun s => if s.rd b = 0 then s.rd a
      else BitVec.ofNat 64 ((s.rd a).toNat % (s.rd b).toNat))
  ∧ Gives (.sel d a b) [d, a, b] d (fun s => if s.rd d ≠ 0 then s.rd a else s.rd b)
  ∧ (∀ (s : State), s.ScalarReady .copy true true [d, a] →
    (∃ t n, exec (.clz d a) s = .next t ∧ LeadingZeros (s.rd a) n ∧ s.Wrote t (.clz d a) d (BitVec.ofNat 64 n))
    ∧ (∃ t n, exec (.ctz d a) s = .next t ∧ TrailingZeros (s.rd a) n ∧ s.Wrote t (.ctz d a) d (BitVec.ofNat 64 n))
    ∧ (∃ t, exec (.popc d a) s = .next t ∧ s.Wrote t (.popc d a) d
        (BitVec.ofNat 64 ((List.range 64).filter fun j => (s.rd a).getLsbD j).length))
    ∧ (∃ t v, exec (.bswap d a) s = .next t ∧ s.Wrote t (.bswap d a) d v
        ∧ ∀ j, j < 8 → (v >>> (8 * j)).setWidth 8 = ((s.rd a) >>> (8 * (7 - j))).setWidth 8)))
  ∧ (∀ (d a : Reg) (i : BitVec 15) (j : BitVec 12) (sh : BitVec 6) (k : BitVec 20),
    Gives (.addi d a i) [d, a] d (fun s => s.rd a + i.signExtend 64)
    ∧ Gives (.andi d a i) [d, a] d (fun s => s.rd a &&& i.signExtend 64)
    ∧ Gives (.ori d a i) [d, a] d (fun s => s.rd a ||| i.signExtend 64)
    ∧ Gives (.xori d a i) [d, a] d (fun s => s.rd a ^^^ i.signExtend 64)
    ∧ Gives (.slli d a sh) [d, a] d (fun s => s.rd a <<< sh.toNat)
    ∧ Gives (.srli d a sh) [d, a] d (fun s => s.rd a >>> sh.toNat)
    ∧ Gives (.srai d a sh) [d, a] d (fun s => (s.rd a).sshiftRight sh.toNat)
    ∧ Gives (.slti d a j) [d, a] d (fun s => truth ((s.rd a).toInt < j.toInt))
    ∧ Gives (.ldhi d k) [d] d (fun _ => BitVec.ofInt 64 (k.toInt * 2 ^ 15))
    ∧ Gives (.addpc d k) [d] d (fun s => s.st.pc + BitVec.ofInt 64 (k.toInt * 2 ^ 15)))
  ∧ (∀ (d x : Reg) (i : BitVec 5) (s : State),
    let y := s.rd s.st.lastG
    (s.ScalarReady .copy true true [d, x, s.st.lastG] →
      (∃ t, exec (.cAdd d x) s = .next t ∧ s.Wrote t (.cAdd d x) d (s.rd x + y))
      ∧ (∃ t, exec (.cSub d x) s = .next t ∧ s.Wrote t (.cSub d x) d (s.rd x - y))
      ∧ (∃ t, exec (.cAnd d x) s = .next t ∧ s.Wrote t (.cAnd d x) d (s.rd x &&& y))
      ∧ (∃ t, exec (.cOr d x) s = .next t ∧ s.Wrote t (.cOr d x) d (s.rd x ||| y))
      ∧ (∃ t, exec (.cXor d x) s = .next t ∧ s.Wrote t (.cXor d x) d (s.rd x ^^^ y))
      ∧ (∃ t, exec (.cSll d x) s = .next t ∧ s.Wrote t (.cSll d x) d (s.rd x <<< (y.toNat % 64)))
      ∧ (∃ t, exec (.cSrl d x) s = .next t ∧ s.Wrote t (.cSrl d x) d (s.rd x >>> (y.toNat % 64))))
    ∧ (s.ScalarReady .copy true true [d, x] → ∃ t, exec (.cMv d x) s = .next t ∧ s.Wrote t (.cMv d x) d (s.rd x))
    ∧ (s.ScalarReady .copy true true [d, s.st.lastG] →
      ∃ t, exec (.cAddi d i) s = .next t ∧ s.Wrote t (.cAddi d i) d (y + i.signExtend 64))
    ∧ (s.ScalarReady .copy true true [d] →
      ∃ t, exec (.cLi d i) s = .next t ∧ s.Wrote t (.cLi d i) d (i.signExtend 64)))

/-- R89, R114: which branches are taken and where they go; a branch not taken goes on. R90, R28: JAL and JALR write
the return address and go to their target; JALR reads g[a] first; an odd target raises MISALIGN with no register
written. R81, R453, R536: where a taken transfer ends a signature that does not match, it is taken, and SIGFAIL is raised at it. -/
def Obligations.ControlTransfers : Prop :=
  (∀ (s : State) (a b : Reg) (o : BitVec 12) (l h : BitVec 5),
    let goes (i : Instr) (taken : Prop) (target : Word) : Prop := ∃ t, exec i s = .next t
      ∧ (taken → s.SigMatches (encodeNat i) i.size → s.WentTo t target) ∧ (¬taken → s.Finished t i)
      ∧ (taken → ¬s.SigMatches (encodeNat i) i.size → ∃ u, s.WentTo u target ∧ u.SigFailed t s.st.pc (encodeNat i))
    (s.ScalarReady .never true true [a, b] →
      goes (.beq a b o) (s.rd a = s.rd b) (s.st.pc + o.signExtend 64 * 2)
      ∧ goes (.bne a b o) (s.rd a ≠ s.rd b) (s.st.pc + o.signExtend 64 * 2)
      ∧ goes (.blt a b o) ((s.rd a).toInt < (s.rd b).toInt) (s.st.pc + o.signExtend 64 * 2)
      ∧ goes (.bge a b o) ((s.rd b).toInt ≤ (s.rd a).toInt) (s.st.pc + o.signExtend 64 * 2)
      ∧ goes (.bltu a b o) ((s.rd a).toNat < (s.rd b).toNat) (s.st.pc + o.signExtend 64 * 2)
      ∧ goes (.bgeu a b o) ((s.rd b).toNat ≤ (s.rd a).toNat) (s.st.pc + o.signExtend 64 * 2))
    ∧ (s.ScalarReady .never true true [s.st.lastG] →
      goes (.cBeqz l h) (s.rd s.st.lastG = 0) (s.st.pc + (h ++ l).signExtend 64 * 2)
      ∧ goes (.cBnez l h) (s.rd s.st.lastG ≠ 0) (s.st.pc + (h ++ l).signExtend 64 * 2)))
  ∧ (∀ (s : State) (d a : Reg) (o : BitVec 20) (i : BitVec 12),
    let linked (t : State) (target : Word) : Prop := s.StreamOnly t
      ∧ t.st = { s.st with g := t.st.g, pc := target, lastG := d, pfxp := false, sig := none }
      ∧ ∀ r, t.st.rd r = if r = 0 then 0 else if r = d then s.st.pc + 4 else s.st.rd r
    let target := s.rd a + i.signExtend 64
    let goes (i : Instr) (target : Word) : Prop := ∃ t u, exec i s = .next t ∧ linked u target
      ∧ (s.SigMatches (encodeNat i) 4 → t = u) ∧ (¬s.SigMatches (encodeNat i) 4 → u.SigFailed t s.st.pc (encodeNat i))
    (s.ScalarReady .never true true [d] → goes (.jal d o) (s.st.pc + o.signExtend 64 * 2))
    ∧ (s.ScalarReady .never true true [d, a] →
      (target.getLsbD 0 = false → goes (.jalr d a i) target)
      ∧ (target.getLsbD 0 = true → exec (.jalr d a i) s = .next (s.trap .misalign target (encodeNat (.jalr d a i))))))

/-- R15, R17, R20, R22, R104, R158, R222: what each CSR reads as, its reserved bits 0. R5, R15-R21, R104, R154, R184: what a
write of each CSR changes: the writable fields take the written bits, RM keeps its value for a reserved code, bit 0 of TVEC and
TEPC stays 0, a read-only CSR stays; nothing else changes. R102, R103, R536: a CSR instruction gives the old value and writes the
new one; a write of STATUS or CYCLE needs the supervisor; on FCSR and the CSRs of layer 2 it waits while a vector instruction of
the hart is queued. R155, R536: the feeder's access to PIVCNT, and a control core's to a CSR of layer 2, raises ILLOP. That it
gives up its turn while it waits is the model's choice (log 4). -/
def Obligations.ControlStatusRegisters : Prop :=
  (∀ s : State,
    (s.csr 0x000).toNat = s.st.pfxd.toNat * 2 ^ 32 + s.st.ta.toNat * 4 + s.st.pfxp.toNat * 2 + s.hart.sv.toNat
    ∧ (s.csr 0x001).toNat = s.st.flags.toNat * 2 ^ 8 + s.st.rm.toNat
    ∧ s.csr 0x002 = s.st.win.setWidth 64
    ∧ (s.csr 0x003).toNat = s.st.lastV.toNat * 2 ^ 8 + s.st.lastG.toNat
    ∧ s.csr 0x008 = s.st.tvec ∧ s.csr 0x009 = s.st.tepc ∧ s.csr 0x00A = s.st.tcause.setWidth 64 ∧ s.csr 0x00B = s.st.tval
    ∧ s.csr 0x010 = (match s.hart.kind with | .cdie => s.hart.hartid.setWidth 64 | .control n => BitVec.ofNat 64 (0x800 + n))
    ∧ s.csr 0x011 = Sparse.get 0 s.cycles s.hart.coreKey + s.hart.cycOff
    ∧ s.csr 0x020 = s.st.vtype.setWidth 64 ∧ s.csr 0x021 = s.st.vl.setWidth 64 ∧ s.csr 0x022 = s.st.rc.setWidth 64
    ∧ s.csr 0x023 = s.st.vstart.setWidth 64
    ∧ (let m := 8 * s.st.grant * (24 / 2 ^ ((s.st.vtype >>> 4).setWidth 2).toNat) * 2 ^ (s.st.vtype >>> 6).toNat;
        s.csr 0x024 = BitVec.ofNat 64 (if s.hart.vlcap = 0 then m else min m s.hart.vlcap))
    ∧ s.csr 0x025 = BitVec.ofNat 64 (s.st.grant * 2 ^ 8 + s.newWidth * 2 ^ 4 + s.hart.share) ∧ s.csr 0x026 = s.hart.pivcnt
    ∧ s.csr 0x027 = BitVec.ofNat 64 (s.hart.mfmt.toNat * 2 ^ 8 + s.hart.mcount)
    ∧ (s.csr 0x028 >>> 32).setWidth 32 = s.hart.spawned ∧ (s.csr 0x028).setWidth 32 = s.hart.childDone)
  ∧ (∀ (s : State) (v : Word),
    (∃ t, s.setCsr 0x000 v = t ∧ t.st = { s.st with pfxd := (v >>> 32).setWidth 25, ta := v.getLsbD 2, pfxp := v.getLsbD 1 }
      ∧ t.hart.sv = v.getLsbD 0 ∧ { t with hart := { t.hart with sv := s.hart.sv } } = s.setSt t.st)
    ∧ s.setCsr 0x001 v = s.setSt { s.st with
        flags := (v >>> 8).setWidth 7
        rm := if v.setWidth 3 = 0#3 ∨ v.setWidth 3 = 6#3 ∨ v.setWidth 3 = 7#3 then s.st.rm else v.setWidth 3 }
    ∧ s.setCsr 0x002 v = s.setSt { s.st with win := v.setWidth 8 }
    ∧ s.setCsr 0x003 v = s.setSt { s.st with
        lastG := v.setWidth 5, lastV := if s.onFeeder then s.st.lastV else (v >>> 8).setWidth 5 }
    ∧ s.setCsr 0x008 v = s.setSt { s.st with tvec := v >>> 1 <<< 1 }
    ∧ s.setCsr 0x009 v = s.setSt { s.st with tepc := v >>> 1 <<< 1 }
    ∧ s.setCsr 0x00A v = s.setSt { s.st with tcause := v.setWidth 8 }
    ∧ s.setCsr 0x00B v = s.setSt { s.st with tval := v }
    ∧ s.setCsr 0x023 v = s.setSt { s.st with vstart := v.setWidth 19 }
    ∧ s.setCsr 0x026 v = { s with hart := { s.hart with pivcnt := v } }
    ∧ (∀ c : BitVec 12, c ∈ [0x010#12, 0x011#12, 0x020#12, 0x021#12, 0x022#12, 0x024#12, 0x025#12, 0x027#12, 0x028#12] →
        s.setCsr c v = s))
  ∧ ∀ (s : State) (d a : Reg) (c : BitVec 12),
  csrListed c = true → s.ScalarReady .never true true [d, a] →
  let foreign : Prop := (s.hart.isControl = true ∧ 0x020 ≤ c.toNat) ∨ (s.onFeeder = true ∧ c = 0x026)
  let waits : Prop := s.hart.vq ≠ [] ∧ (c = 0x001 ∨ 0x020 ≤ c.toNat)
  let reads (i : Instr) : Prop :=
    (foreign → s.TrapsOn i .illop) ∧ (¬foreign → waits → s.Waits i)
    ∧ (¬foreign → ¬waits → ∃ t, exec i s = .next t ∧ s.Wrote t i d (s.csr c))
  let writes (i : Instr) (v : Word) : Prop :=
    (csrSupervisor c = true → s.hart.sv = false → s.TrapsOn i .priv)
    ∧ ((csrSupervisor c = true → s.hart.sv = true) →
      (foreign → s.TrapsOn i .illop) ∧ (¬foreign → waits → s.Waits i)
      ∧ (¬foreign → ¬waits → ∃ t u, exec i s = .next t ∧ s.Wrote u i d (s.csr c) ∧ t = u.setCsr c v))
  reads (.csrr d c)
  ∧ writes (.csrw d a c) (s.rd a)
  ∧ (a = 0 → reads (.csrset d a c) ∧ reads (.csrclr d a c))
  ∧ (a ≠ 0 → writes (.csrset d a c) (s.csr c ||| s.rd a) ∧ writes (.csrclr d a c) (s.csr c &&& ~~~s.rd a))

/-- R33: a trap that does not escalate saves the address of the instruction (of its prefix, unless the cause is
PFXBAD), the cause and the value, marks the handler active, drops the prefix and the open signature, and goes to TVEC; a TLWAIT
that the stream waited in is left (R359).
R33, R428, R536: a trap with no handler, or inside one, escalates: the trap registers keep their values, PC is the
address that would have been saved; a hart of a C die stops to be parked with one record marked ESC, a control-core
stream halts. -/
def Obligations.TrapEntryAndEscalation : Prop :=
  (∀ (s : State) (c : Cause) (v : Word) (word : Nat),
    s.st.tvec ≠ 0 → s.st.ta = false →
    s.trap c v word = s.setSt { s.st with
      tepc := if s.st.pfxp = true ∧ c ≠ .pfxbad then s.st.pc - 4 else s.st.pc
      tcause := c.code, tval := v, pfxp := false, pfxd := 0, ta := true, pc := s.st.tvec, sig := none
      tlw := .none })
  ∧ (∀ (s : State) (c : Cause) (v : Word) (word : Nat),
    (s.st.tvec = 0 ∨ s.st.ta = true) →
    let t := s.trap c v word
    t.st = { s.st with pc := if s.st.pfxp = true ∧ c ≠ .pfxbad then s.st.pc - 4 else s.st.pc
                       pfxp := false, pfxd := 0, sig := none, tlw := .none }
    ∧ t.mem = s.mem ∧ t.quantum = 0
    ∧ (s.hart.isControl = true → t.hart.run = .halted ∧ t.hart.events = s.hart.events)
    ∧ (s.hart.isControl = false → t.hart.run = s.hart.run.parked ∧ ∃ r, t.hart.events = s.hart.events ++ [[r]]
        ∧ r.cause = c.code ∧ r.flags = 3 ∧ r.pc = t.st.pc ∧ r.word = BitVec.ofNat 32 word ∧ r.handle = s.hart.tag.setWidth 64))

/-- R34, R106, R107: TRAP takes its trap with the zero-extended code; RFT returns to TEPC and ends the handler. R112: PFX records
its prefix. R81, R111, R453, R536: SIG opens a signature with CRC 0xFFFF after an open one has matched; after one that has not,
it raises SIGFAIL. The model's choices: YIELD gives up the turn, as an instruction that waits does (log 4); IFENCE waits until
no queued vector instruction stores, and then forgets every old value that a fetch could still read (R110, log 8). -/
def Obligations.TrapReturnAndStreamControl : Prop :=
  (∀ (s : State) (i : BitVec 12), s.ScalarReady .never true true [] →
    exec (.trap i) s = .next (s.trap .swtrap (i.setWidth 64) (encodeNat (.trap i)))
    ∧ ∃ t, exec .rft s = .next t ∧ t = s.setSt { s.st with pc := s.st.tepc, ta := false, pfxp := false, sig := none })
  ∧ (∀ s : State, s.ScalarReady .never true true [] →
    (∃ t u, exec .yield s = .next t ∧ s.Finished u .yield ∧ t = { u with quantum := 0 })
    ∧ (s.onFeeder = false → (∃ e ∈ s.hart.vq, wordStores e.word.toNat = true) → s.Waits .ifence)
    ∧ (s.onFeeder = true ∨ s.hart.late = [] ∧ (∀ e ∈ s.hart.vq, wordStores e.word.toNat = false) →
        ∃ t u, exec .ifence s = .next t ∧ s.Finished u .ifence ∧ t = u.setSt { u.st with stale := [] })
    ∧ (∀ (r : Reg) (c e v : BitVec 1) (p : Reg), ∃ t u, exec (.pfx r c e v p) s = .next t ∧ s.Finished u (.pfx r c e v p)
        ∧ t = u.setSt { u.st with pfxp := true, pfxd := BitVec.ofNat 25 (encodeNat (.pfx r c e v p) / 128) })
    ∧ (∀ (h : BitVec 4) (l : BitVec 12), let i : Instr := .sig h l
        ((∀ o, s.st.sig = some o → o.crc = o.expected) → ∃ t u, exec i s = .next t ∧ s.Finished u i
            ∧ t = u.setSt { u.st with sig := some { expected := h ++ l, crc := 0xFFFF } })
        ∧ (∀ o, s.st.sig = some o → o.crc ≠ o.expected → ∃ t u, exec i s = .next t ∧ s.Finished u i
            ∧ (u.setSt { u.st with sig := none }).SigFailed t s.st.pc (encodeNat i))))

/-- R69: while the predicate of a pending prefix is false, every prefixed scalar successor only completes. R36, R68: a second
prefix and every other successor that takes none raise PFXBAD with epc at the successor, and so do a copy on a successor that
takes a predicate only, and every vector successor on the feeder. The operand checks of R65 and R66 come first. R162: the trap of
a vector successor waits until the vector queue is empty, which gives up the turn (the model's choice, log 4). The model's
choice (logs 20, 39): PFXBAD comes before the ILLOP of an instruction that a control core, or the feeder by its operands, may not
execute. -/
def Obligations.PrefixRules : Prop := ∀ (s : State) (i : Instr),
  i.wf = true → i.event = false → s.st.pfxp = true → s.atHead = false →
  let w := encodeNat i
  let kind := successorKind w i.size
  let scalar : Prop := if i.size = 2 then w / 2 % 32 ≤ 13 else w / 2 % 64 < 0x18
  let copies : Prop := pfxCen s.st.pfxd = true
  (scalar → kind = 2 ∨ (kind = 1 ∧ ¬copies) →
    pfxPen s.st.pfxd = true → ((s.rd (pfxSrc s.st.pfxd) ≠ 0) ↔ pfxPol s.st.pfxd = true) → s.st.pend = 0 → s.hart.vq = [] →
    ∃ t, exec i s = .next t ∧ s.Finished t i)
  ∧ (s.st.tvec ≠ 0 → s.st.ta = false →
    (s.onFeeder = false → kind = 0 ∨ (kind = 1 ∧ copies)) →
    (s.onFeeder = true → feederForm w i.size = true ∧ (kind = 0 ∨ (kind = 1 ∧ copies) ∨ ¬scalar)) →
    (s.onFeeder = false → entersQueue w = true → GroupsFit s w) →
    (s.onFeeder = false → entersQueue w = true → s.hart.vq ≠ [] → s.Waits i)
    ∧ ((s.onFeeder = false → entersQueue w = true → s.hart.vq = []) →
      exec i s = .next (s.setSt { s.st with tepc := s.st.pc, tcause := 0x03, tval := BitVec.ofNat 64 w, pfxp := false
                                            pfxd := 0, ta := true, pc := s.st.tvec, sig := none, tlw := .none })))

/-- R98, R99: the scalar queues (that a stream which waits gives up its turn is the model's choice, log 4): QPSH appends while fewer than 32 entries are held, QPOP takes the oldest, QCNT counts; at
32 entries QPSH waits, and on an empty queue QPOP does; a use by the wrong stream, and any on a hart without a feeder,
raises ILLOP. -/
def Obligations.ScalarQueues : Prop := ∀ (s : State) (d a : Reg) (q : BitVec 3),
  q.toNat ≤ 5 → s.ScalarReady .never true false [d, a] →
  let pushes : Bool := decide (q.toNat < 4) == s.onFeeder
  let old := s.hart.queue q
  (s.hart.hasFeeder = false → s.TrapsOn (.qpsh a q) .illop ∧ s.TrapsOn (.qpop d q) .illop ∧ s.TrapsOn (.qcnt d q) .illop)
  ∧ (s.hart.hasFeeder = true →
    (pushes = true → old.length < 32 → s.onFeeder = true ∨ s.hart.late = [] → ∃ t u, exec (.qpsh a q) s = .next t ∧ s.Finished u (.qpsh a q)
      ∧ t = { u with hart := u.hart.setQueue q (old ++ [s.rd a]) })
    ∧ (pushes = true → 32 ≤ old.length → s.Waits (.qpsh a q))
    ∧ (pushes = false → ∀ v r, old = v :: r → ∃ t u, exec (.qpop d q) s = .next t ∧ s.Wrote u (.qpop d q) d v
      ∧ t = { u with hart := u.hart.setQueue q r })
    ∧ (pushes = false → old = [] → s.Waits (.qpop d q))
    ∧ (∃ t, exec (.qcnt d q) s = .next t ∧ s.Wrote t (.qcnt d q) d (BitVec.ofNat 64 old.length))
    ∧ (pushes = false → s.TrapsOn (.qpsh a q) .illop) ∧ (pushes = true → s.TrapsOn (.qpop d q) .illop))

/-- R26, R92, R114, R289: a scalar load takes the value at g[a] + imm (for C.LDD at g[s]), extended as its mnemonic
says; a misaligned one raises MISALIGN, a faulting one does what a memory fault does; one of an uncorrectable word counts it and
leaves a POISON record (R452, R457). R26, R92, R114, R289: a scalar
store writes the low bytes of g[d] at g[a] + imm (for C.STD at g[s]) and then only completes. -/
def Obligations.ScalarLoadsAndStores : Prop :=
  (∀ (s : State) (d a : Reg) (i : BitVec 12),
    s.ScalarReady .copy true true [d, a] → s.Calm →
    let loads (ins : Instr) (va : Word) (n : Nat) (ext : Word → Word) : Prop :=
      (va.toNat % n ≠ 0 → exec ins s = .next (s.trap .misalign va (encodeNat ins)))
      ∧ (va.toNat % n = 0 → ∀ f s1, s.translate s.agent (.plain 0 n) va = .mem f s1 →
          exec ins s = .next (s1.memFault f (encodeNat ins)))
      ∧ (va.toNat % n = 0 → ∀ x s1 v s2, s.translate s.agent (.plain 0 n) va = .ok x s1 → s1.fetchValue s1.agent x n = .ok v s2 →
          ∃ t, exec ins s = .next t
            ∧ (if s2.isPoisoned (s2.agent.readAt x) n then (s2.count s2.hart.die 1 1).poisonScalar (trapEpc 0 s2.st) (encodeNat ins)
                else s2).Wrote t ins d (ext v))
    let va := s.rd a + i.signExtend 64
    loads (.ldb d a i) va 1 (fun v => (v.setWidth 8).signExtend 64) ∧ loads (.ldbz d a i) va 1 id
    ∧ loads (.ldh d a i) va 2 (fun v => (v.setWidth 16).signExtend 64) ∧ loads (.ldhz d a i) va 2 id
    ∧ loads (.ldw d a i) va 4 (fun v => (v.setWidth 32).signExtend 64) ∧ loads (.ldwz d a i) va 4 id
    ∧ loads (.ldd d a i) va 8 id ∧ loads (.cLdd d a) (s.rd a) 8 id)
  ∧ (∀ (s : State) (d a : Reg) (i : BitVec 12),
    s.ScalarReady .pred true true [d, a] → s.Calm →
    let stores (ins : Instr) (va : Word) (n : Nat) : Prop :=
      (va.toNat % n ≠ 0 → exec ins s = .next (s.trap .misalign va (encodeNat ins)))
      ∧ (va.toNat % n = 0 → ∀ f s1, s.translate s.agent (.plain 1 n) va = .mem f s1 →
          exec ins s = .next (s1.memFault f (encodeNat ins)))
      ∧ (va.toNat % n = 0 → ∀ x s1, s.translate s.agent (.plain 1 n) va = .ok x s1 →
          ∃ t, exec ins s = .next t ∧ (s1.perform s.agent x (toLe n (s.rd d).toNat) false).Finished t ins)
    let va := s.rd a + i.signExtend 64
    stores (.stb d a i) va 1 ∧ stores (.sth d a i) va 2 ∧ stores (.stw d a i) va 4 ∧ stores (.std d a i) va 8
    ∧ stores (.cStd d a) (s.rd a) 8)

/-- R2, R286, R289: an access of `size` bytes at a translated address of memory reads the bytes there, lowest address
first; a write changes the bytes it covers and no other: one run, or on a REPLICATED page the run in the replica of
each die of the partition. A write of memory changes nothing but memory, the ingress buffer, the poison of its words,
the exchanges and groups whose table entries it enables or ends with their operations and the streams and records that wait on
them, and the old bytes that the stream's fetch may still see. -/
def Obligations.MemoryReadsAndWrites : Prop :=
  (∀ (s : State) (a : Agent) (x : Xl) (size : Nat) (l : List Byte) (bad : Bool),
    (∀ o, region x.pa ≠ .hub o) →
    s.fetchValue a x size = .ok (BitVec.ofNat 64 (leNat (s.mem.bytes (a.readAt x) size))) s
    ∧ (x.cls ≠ 3 → ∀ b, (s.perform a x l bad).mem.byte b
        = if x.pa ≤ b ∧ b < x.pa + l.length then l.getD (b - x.pa) 0 else s.mem.byte b)
    ∧ (x.cls = 3 → (∀ b, (∀ e ∈ s.replicaDies a, ¬(e * 0x2000000000 + x.pa ≤ b ∧ b < e * 0x2000000000 + x.pa + l.length)) →
          (s.perform a x l bad).mem.byte b = s.mem.byte b)
        ∧ (l.length ≤ 0x2000000000 → ∀ e ∈ s.replicaDies a, (s.perform a x l bad).mem.bytes (e * 0x2000000000 + x.pa) l.length = l)))
  ∧ (∀ (s : State) (a : Agent) (x : Xl) (l : List Byte) (bad : Bool),
    (∀ o, region x.pa ≠ .hub o) →
    let t := s.perform a x l bad
    { t with mem := s.mem, ingress := s.ingress, memPoison := s.memPoison, poisonAtoms := s.poisonAtoms
             xchgs := s.xchgs, colls := s.colls, ops := s.ops, hart := s.hart, others := s.others, queues := s.queues
             dispatchers := s.dispatchers } = s
    ∧ s.OpsKept t
    ∧ t.hart = { (s.setSt { s.st with stale := t.st.stale }).hart with main := t.hart.main, feed := t.hart.feed }
    ∧ t.hart.main = { (s.setSt { s.st with stale := t.st.stale }).hart.main with tlw := t.hart.main.tlw }
    ∧ t.hart.feed = { (s.setSt { s.st with stale := t.st.stale }).hart.feed with tlw := t.hart.feed.tlw }
    ∧ (s.awaits (fun _ => true) = false →
        t.hart = (s.setSt { s.st with stale := t.st.stale }).hart
        ∧ t.others = s.others ∧ t.queues = s.queues ∧ t.dispatchers = s.dispatchers)
    ∧ (region x.pa ≠ .bedrock → x.cls ≠ 3 → t.ingress = s.ingress ∧ t.poisonAtoms = s.poisonAtoms))

/-- R280, R281: a walk from the root of the translating die reports the first entry that is not valid or malformed, with its
level, or ends at a leaf. R290, R291: a held entry answers for a walk while its accessed and dirty bits need no change, or its
value is still the one in memory. R283, R287: under a leaf the first check of the table that fails gives the kind. R282: where
none fails, the accessed bit, and for a write or an atomic the dirty bit, are brought up to date in the leaf's entry, in memory
and where it is held, and nothing else changes. R472, R481: an access, and a walk's read of a table, across a link that has failed
or retrains waits. The order among CLASS's own cases, and what holds translations, are the model's choices (log 34). -/
def Obligations.Translation : Prop := ∀ (s : State) (a : Agent) (x : Access) (va : Word),
  let root := (vget s.hub.xlroot 0 a.die).toNat
  let n := a.win.toNat * 2 ^ 64 + va.toNat
  let walked (r : Res Xl) : Prop :=
    (root % 2 = 0 → r = .mem ⟨true, 0x01, x.acc, 4, va, a.win, 65536⟩ s)
    ∧ (root % 2 = 1 → s.tableAt a.bound (root / 2 ^ 16 % 2 ^ 40 * 2 ^ 16) = false → r = .mem ⟨true, 0x03, x.acc, 4, va, a.win, 65536⟩ s)
    ∧ ∀ lvl t, WalkAt s a n lvl t →
      let p := t + 8 * walkIndex n lvl
      let e := s.mem.readLe p 8
      (WayShut s a.die p → r = .wait s)
      ∧ (¬WayShut s a.die p → e % 2 = 0 → r = .mem ⟨true, 0x02, x.acc, BitVec.ofNat 8 lvl, va, a.win, 65536⟩ s)
      ∧ (¬WayShut s a.die p → e % 2 = 1 → s.malformed a.bound e lvl = true →
          r = .mem ⟨true, 0x03, x.acc, BitVec.ofNat 8 lvl, va, a.win, 65536⟩ s)
      ∧ (¬WayShut s a.die p → e % 2 = 1 → s.malformed a.bound e lvl = false → e / 2 % 2 = 1 →
          LeafAnswers s a x va p e (if lvl = 2 then 2 ^ 40 else if lvl = 1 then 2 ^ 28 else 2 ^ 16) r)
  (root % 2 = 0 ∨ s.tlbFor a va.toNat = none → walked (s.translate a x va))
  ∧ (root % 2 = 1 → ∀ h, s.tlbFor a va.toNat = some h →
      (h ∈ s.tlb ∧ h.unit ∈ a.units ∧ h.die = a.die ∧ h.vbase ≤ n ∧ n < h.vbase + h.size)
      ∧ (withAD x.acc h.pte.toNat ≠ h.pte.toNat → s.mem.readLe h.pteAt 8 ≠ h.pte.toNat → walked (s.translate a x va))
      ∧ (withAD x.acc h.pte.toNat = h.pte.toNat ∨ s.mem.readLe h.pteAt 8 = h.pte.toNat →
          LeafAnswers s a x va h.pteAt h.pte.toNat h.size (s.translate a x va)))
  ∧ ∀ e < 2 ^ 64, withAD x.acc e = e ||| (if x.acc = 1 ∨ x.acc = 2 then 0x300 else 0x100)

/-- R94, R95: the scalar atomics on memory: g[d] takes the old value sign-extended, memory the new one; a failed
AMOCAS writes nothing; no other byte and no other register changes. LDA is a plain read, sign-extended, STL a plain write. R496:
a release at scope pkg, pod or dur waits for the stream's RSTX and RAMOX. The model's choices: a release at scope dur waits for
every write in the ingress buffer (R405, log 14), and an instruction that waits gives up its turn (log 4). -/
def Obligations.ScalarAtomics : Prop :=
  (∀ (s : State) (d a b : Reg) (c : BitVec 3) (l q z : BitVec 1),
    s.ScalarReady .never true true [d, a, b] → s.onFeeder = true ∨ s.hart.late = [] ∧ s.hold = false →
    let n := if z = 0 then 4 else 8
    let w := 8 * n
    let op := (s.rd b).toNat % 2 ^ w
    let amo (ins : Instr) (new : Nat → Nat) : Prop :=
      ((s.rd a).toNat % n ≠ 0 → exec ins s = .next (s.trap .misalign (s.rd a) (encodeNat ins)))
      ∧ ((s.rd a).toNat % n = 0 → l = 1 ∧ s.ReleaseWaits c → s.Waits ins)
      ∧ ((s.rd a).toNat % n = 0 → ¬(l = 1 ∧ s.ReleaseWaits c) → ∀ f s1, s.translate s.agent (.plain 2 n) (s.rd a) = .mem f s1 →
          exec ins s = .next (s1.memFault f (encodeNat ins)))
      ∧ ((s.rd a).toNat % n = 0 → ¬(l = 1 ∧ s.ReleaseWaits c) →
          ∀ x s1, s.translate s.agent (.plain 2 n) (s.rd a) = .ok x s1 →
          let pa := s.agent.readAt x
          let old := s1.mem.readLe pa n
          ∃ t, exec ins s = .next t
            ∧ t.mem.readLe pa n = new old % 2 ^ w
            ∧ (∀ m, ¬(pa ≤ m ∧ m < pa + n) → t.mem.byte m = s1.mem.byte m)
            ∧ t.st = { s.st with g := t.st.g, stale := t.st.stale, tlw := t.st.tlw, pc := s.st.pc + 4, lastG := d, pfxp := false
                                 sig := sigAdd s.st.sig (encodeNat ins) 4 }
            ∧ { t with hart := { t.hart with main := s.hart.main, feed := s.hart.feed }, hub := { t.hub with rascnt := s.hub.rascnt }
                       mem := s1.mem, ingress := s.ingress, memPoison := s.memPoison, poisonAtoms := s.poisonAtoms, frq := s.frq
                       xchgs := s.xchgs, colls := s.colls, ops := s.ops, others := s.others, queues := s.queues
                       dispatchers := s.dispatchers } = s1
            ∧ s.OpsKept t
            ∧ ∀ r, t.st.rd r = if r = 0 then 0 else if r = d then BitVec.ofInt 64 ((BitVec.ofNat w old).toInt) else s.st.rd r)
    let sg (v : Nat) : Int := (BitVec.ofNat w v).toInt
    amo (.amoadd d a b c l q z) (fun old => old + op)
    ∧ amo (.amoswp d a b c l q z) (fun _ => op)
    ∧ amo (.amocas d a b c l q z) (fun old => if old = (s.rd d).toNat % 2 ^ w then op else old)
    ∧ amo (.amoand d a b c l q z) (fun old => old &&& op)
    ∧ amo (.amoor d a b c l q z) (fun old => old ||| op)
    ∧ amo (.amoxor d a b c l q z) (fun old => old ^^^ op)
    ∧ amo (.amomin d a b c l q z) (fun old => if sg old ≤ sg op then old else op)
    ∧ amo (.amomax d a b c l q z) (fun old => if sg op ≤ sg old then old else op)
    ∧ amo (.amominu d a b c l q z) (fun old => if old ≤ op then old else op)
    ∧ amo (.amomaxu d a b c l q z) (fun old => if op ≤ old then old else op))
  ∧ (∀ (s : State) (d a b : Reg) (c : BitVec 3) (z : BitVec 1),
    let n := if z = 0 then 4 else 8
    s.Calm →
    (s.ScalarReady .never true true [d, a] →
      ((s.rd a).toNat % n ≠ 0 → s.Traps (.lda d a c z) .misalign (s.rd a))
      ∧ ((s.rd a).toNat % n = 0 → ∀ f s1, s.translate s.agent ⟨0, n, .sync, none⟩ (s.rd a) = .mem f s1 →
          exec (.lda d a c z) s = .next (s1.memFault f (encodeNat (.lda d a c z))))
      ∧ ((s.rd a).toNat % n = 0 → ∀ x s1 v s2, s.translate s.agent ⟨0, n, .sync, none⟩ (s.rd a) = .ok x s1 →
          s1.fetchValue s1.agent x n = .ok v s2 →
          ∃ t, exec (.lda d a c z) s = .next t
            ∧ (if s2.isPoisoned (s2.agent.readAt x) n then
                (s2.count s2.hart.die 1 1).poisonScalar (trapEpc 0 s2.st) (encodeNat (.lda d a c z)) else s2).Wrote t (.lda d a c z) d
                (if z = 0 then (v.setWidth 32).signExtend 64 else v)))
    ∧ (s.ScalarReady .never true true [a, b] →
      ((s.rd a).toNat % n ≠ 0 → s.Traps (.stl a b c z) .misalign (s.rd a))
      ∧ ((s.rd a).toNat % n = 0 → s.ReleaseWaits c → s.Waits (.stl a b c z))
      ∧ ((s.rd a).toNat % n = 0 → ¬s.ReleaseWaits c → ∀ f s1, s.translate s.agent ⟨1, n, .sync, none⟩ (s.rd a) = .mem f s1 →
          exec (.stl a b c z) s = .next (s1.memFault f (encodeNat (.stl a b c z))))
      ∧ ((s.rd a).toNat % n = 0 → ¬s.ReleaseWaits c → ∀ x s1, s.translate s.agent ⟨1, n, .sync, none⟩ (s.rd a) = .ok x s1 →
        ∃ t, exec (.stl a b c z) s = .next t
          ∧ (s1.perform s.agent x (toLe n (s.rd b).toNat) false).Finished t (.stl a b c z))))

/-- R117-R119, R123-R127, R135-R139: the arithmetic that the other statements name. Each operation delivers the one rounding of
its exact result, the next value of the format below or above by the mode, with NX, OF and UF as R123 has them; the invalid cases
deliver the canonical NaN with NV, a division by 0 ∞ with DZ, and NaN operands the canonical NaN with NV for a signalling one.
R136, R125: comparisons, minimum and maximum. R137, R138: FCLASS and FSIGN. R126, R127: conversions saturate with NV, and E4M3
saturates in place of ∞. -/
def Obligations.FormatArithmetic : Prop := (∀ (f : Fmt) (l : Layout), (f, l) ∈ layouts → ∀ (rm : Rm) (a b c : Nat),
  let x := l.value a
  let y := l.value b
  let z := l.value c
  let nv (p : Bool) : Flags := if p then 0x40 else 0
  let infinity (n : Bool) : Nat × Flags := (l.code n (l.inf.getD 0), 0)
  let no : Nat × Flags := (l.nan, 0x40)
  let some2 (r : Nat × Flags) (q : Prop) : Prop :=
    if x.isNan false || y.isNan false then r = (l.nan, nv (x.isNan true || y.isNan true)) else q
  (l.inf ≠ none →
    some2 (f.add rm a b) (l.Sums rm x y (f.add rm a b)) ∧ some2 (f.sub rm a b) (l.Sums rm x y.minus (f.sub rm a b))
    ∧ some2 (f.mul rm a b) (match x, y with
      | .fin m p, .fin n q => l.RoundsTo rm (m != n) (p * q) (f.mul rm a b)
      | _, _ => f.mul rm a b = if x.zero || y.zero then no else infinity (x.neg != y.neg))
    ∧ some2 (f.div rm a b) (match x, y with
      | .inf _, .inf _ => f.div rm a b = no
      | .inf _, .fin _ _ => f.div rm a b = infinity (x.neg != y.neg)
      | .fin _ _, .inf _ => f.div rm a b = (l.code (x.neg != y.neg) 0, 0)
      | .fin m p, .fin n q => if q = 0 then f.div rm a b = if p = 0 then no else ((infinity (m != n)).1, 0x20)
        else l.RoundsTo rm (m != n) (p / q) (f.div rm a b)
      | .nan _, _ | _, .nan _ => True)
    ∧ (match x with
      | .nan s => f.sqrt rm a = (l.nan, nv s)
      | .inf n => f.sqrt rm a = if n then no else infinity false
      | .fin n p => if p = 0 then f.sqrt rm a = (l.code n 0, 0) else if n then f.sqrt rm a = no
        else l.Rounds rm false (fun t => ratCmp p (t * t)) (f.sqrt rm a))
    ∧ (∀ np nz : Bool,
      let r := f.fma rm np nz a b c
      let add := if nz then z.minus else z
      let sums (p : RVal) : Prop := l.Sums rm (if np then p.minus else p) add r
      if x.isNan false || y.isNan false then r = (l.nan, nv (x.isNan true || y.isNan true || z.isNan true))
      else match x, y with
        | .fin m p, .fin n q => if z.isNan false then r = (l.nan, nv (z.isNan true)) else sums (.fin (m != n) (p * q))
        | _, _ => if x.zero || y.zero then r = no else if z.isNan false then r = (l.nan, nv (z.isNan true)) else sums (.inf (x.neg != y.neg))))
  ∧ (let nan := x.isNan false || y.isNan false
    let equal : Bool := !x.less y && !y.less x
    f.compare 0 a b = (!nan && equal, nv (x.isNan true || y.isNan true)) ∧ f.compare 1 a b = (!nan && x.less y, nv nan)
    ∧ f.compare 2 a b = (!nan && !y.less x, nv nan) ∧ f.compare 3 a b = (nan, nv (x.isNan true || y.isNan true)))
  ∧ (∀ isMax : Bool,
    let p := a % 2 ^ l.width
    let q := b % 2 ^ l.width
    let below : Bool := x.less y || (!y.less x && x.neg && !y.neg)
    f.minmax isMax a b = (if x.isNan false && y.isNan false then l.nan else if x.isNan false then q else if y.isNan false then p
      else if below then (if isMax then q else p) else if isMax then p else q, nv (x.isNan true || y.isNan true)))
  ∧ (let sign := a / 2 ^ (l.width - 1) % 2
    f.classify a = sign + match x with
      | .nan s => 0x20 + 2 * (if s then 4 else 5)
      | .inf _ => 2 * 3
      | .fin _ p => 0x10 + 2 * (if p = 0 then 0 else if ratCmp (if p < 0 then -p else p) (2 ^ (1 - l.bias : Int)) = .lt then 1 else 2))
  ∧ (∀ rule : Nat, rule < 5 →
    let s := a / 2 ^ (l.width - 1) % 2 == 1
    let t := b / 2 ^ (l.width - 1) % 2 == 1
    f.withSign rule a b = l.code (match rule with | 0 => t | 1 => !t | 2 => s != t | 3 => false | _ => !s) (a % 2 ^ (l.width - 1)))
  ∧ (∀ (g : Fmt) (k : Layout), (g, k) ∈ layouts → match x with
    | .nan s => f.convert g rm a = (k.nan, nv s)
    | .inf n => f.convert g rm a = match k.inf with
      | some i => (k.code n i, 0)
      | none => (k.code n k.top, 0x40)
    | .fin n p => k.RoundsTo rm n p (f.convert g rm a))
  ∧ (∀ i : Int, l.RoundsTo rm false i (f.ofInt rm i))
  ∧ (∀ (signed : Bool) (n : Nat), n = 8 ∨ n = 16 ∨ n = 32 ∨ n = 64 →
    let hi : Int := if signed then 2 ^ (n - 1) - 1 else 2 ^ n - 1
    let lo : Int := if signed then -(2 ^ (n - 1)) else 0
    let gives (i : Int) (fl : Flags) : Prop := f.toInt rm signed n a = ((BitVec.ofInt n i).toNat, fl)
    match x with
    | .nan _ => gives hi 0x40
    | .inf m => gives (if m then lo else hi) 0x40
    | .fin m p => ∀ k : Nat, (k : Rat) ≤ (if p < 0 then -p else p) → (if p < 0 then -p else p) < k + 1 →
      let j : Nat := k + if goesUp rm m (ratCmp (if p < 0 then -p else p)) k 1 then 1 else 0
      let i : Int := if m then -(j : Int) else j
      if i < lo then gives lo 0x40 else if hi < i then gives hi 0x40 else gives i (if (i : Rat) = p then 0 else 0x04)))
  ∧ (∀ (rm : Rm) (t : Nat) (w : Word), t ≤ 3 →
    let f := fmtOf t
    let num (r : Nat × Flags) : Word × Flags := (BitVec.ofNat 64 r.1, r.2)
    (∀ u, u ≤ 3 → fcvtWord rm t u w = num (f.convert (fmtOf u) rm w.toNat))
    ∧ fcvtWord rm t 4 w = num (f.toInt rm true 64 w.toNat) ∧ fcvtWord rm t 5 w = num (f.toInt rm false 64 w.toNat)
    ∧ fcvtWord rm t 6 w = ((BitVec.ofNat 32 (f.toInt rm true 32 w.toNat).1).signExtend 64, (f.toInt rm true 32 w.toNat).2)
    ∧ fcvtWord rm t 7 w = num (f.toInt rm false 32 w.toNat)
    ∧ fcvtWord rm 4 t w = num (f.ofInt rm w.toInt) ∧ fcvtWord rm 5 t w = num (f.ofInt rm w.toNat)
    ∧ fcvtWord rm 6 t w = num (f.ofInt rm (w.setWidth 32).toInt) ∧ fcvtWord rm 7 t w = num (f.ofInt rm (w.setWidth 32).toNat))

/-- R123, R135-R140: the scalar floating-point instructions: g[d] takes the result in its format, zero-extended, the
flags are ORed into FCSR, and nothing else changes. -/
def Obligations.ScalarFloatingPoint : Prop := ∀ (d a b : Reg) (m t r c : BitVec 3) (s : State),
  s.ScalarReady .copy true true [d, a, b] →
  let fp (ins : Instr) (v : Word) (fl : BitVec 7) : Prop := ∃ u, exec ins s = .next u
    ∧ (s.setSt { s.st with flags := s.st.flags ||| fl }).Wrote u ins d v
  let f := fmtOf t.toNat
  let rm := Sys2Proof.Machine.rmOf m.toNat s.st.rm
  let x := (s.rd a).toNat
  let y := (s.rd b).toNat
  let z := (s.rd d).toNat
  let num (ins : Instr) (p : Nat × BitVec 7) : Prop := fp ins (BitVec.ofNat 64 p.1) p.2
  let cmp (ins : Instr) (p : Bool × BitVec 7) : Prop := fp ins (if p.1 then 1 else 0) p.2
  num (.fadd d a b m t) (f.add rm x y) ∧ num (.fsub d a b m t) (f.sub rm x y) ∧ num (.fmul d a b m t) (f.mul rm x y)
  ∧ num (.fdiv d a b m t) (f.div rm x y) ∧ num (.fsqrt d a m t) (f.sqrt rm x)
  ∧ num (.fmin d a b t) (f.minmax false x y) ∧ num (.fmax d a b t) (f.minmax true x y)
  ∧ cmp (.feq d a b t) (f.compare 0 x y) ∧ cmp (.flt d a b t) (f.compare 1 x y) ∧ cmp (.fle d a b t) (f.compare 2 x y)
  ∧ cmp (.funord d a b t) (f.compare 3 x y)
  ∧ fp (.fclass d a t) (BitVec.ofNat 64 (f.classify x)) 0
  ∧ fp (.fsign d a b r t) (BitVec.ofNat 64 (f.withSign r.toNat x y)) 0
  ∧ num (.fma d a b m t) (f.fma rm false false x y z) ∧ num (.fmsub d a b m t) (f.fma rm false true x y z)
  ∧ num (.fnma d a b m t) (f.fma rm true false x y z)
  ∧ fp (.fcvt d a c m t) (fcvtWord rm c.toNat t.toNat (s.rd a)).1 (fcvtWord rm c.toNat t.toNat (s.rd a)).2

/-- R91, R158, R159: STRIP applies the pending width, sets VL to the remaining count up to VLMAX and branches while
elements remain, its target raising SIGFAIL where it ends a signature that does not match (R81); it waits for the vector queue
only to apply a new width or for a VLDFF (giving up its turn, log 4). R153, R158, R159, R175: VSET
applies the pending width and sets VTYPE, RC, VL and VSTART of its stream; g[d] takes VL. -/
def Obligations.VectorConfiguration : Prop :=
  (∀ (s : State) (d a : Reg) (o : BitVec 12), s.ScalarReady .never false false [d, a] →
    let i : Instr := .strip d a o
    let slots : Nat := 8 * s.newWidth * (24 / 2 ^ ((s.st.vtype >>> 4).setWidth 2).toNat) * 2 ^ (s.st.vtype >>> 6).toNat
    let limit := if s.hart.vlcap = 0 then slots else min slots s.hart.vlcap
    let vl : Word := BitVec.ofNat 64 (min (s.rd a).toNat limit)
    (s.hart.vq = [] ∨ (s.st.grant = s.newWidth ∧ ∀ e ∈ s.hart.vq, e.isVldff = false) →
      ∃ t u, exec i s = .next t ∧ s.Regranted u
        ∧ let w := u.setSt { u.st with vl := vl.setWidth 16, vstart := 0 }
          ((s.rd a).toNat = 0 → w.Wrote t i d 0)
          ∧ ((s.rd a).toNat ≠ 0 → ∃ v, (w.setG d vl).WentTo v (s.st.pc + o.signExtend 64 * 2)
              ∧ (s.SigMatches (encodeNat i) 4 → t = v) ∧ (¬s.SigMatches (encodeNat i) 4 → v.SigFailed t s.st.pc (encodeNat i))))
    ∧ (s.hart.vq ≠ [] → s.st.grant ≠ s.newWidth → s.Waits i)
    ∧ ((∃ e ∈ s.hart.vq, e.isVldff = true) → s.Waits i))
  ∧ (∀ (s : State) (d a : Reg) (mp tp alt : BitVec 1) (sew lmul : BitVec 2) (rows : BitVec 3),
    s.ScalarReady .never true false [d, a] →
    let i : Instr := .vset d a mp tp alt sew lmul rows
    let slots := 8 * s.newWidth * (24 / 2 ^ sew.toNat) * 2 ^ lmul.toNat
    let limit := if s.hart.vlcap = 0 then slots else min slots s.hart.vlcap
    let vl : Word := BitVec.ofNat 64 (min (s.rd a).toNat limit)
    (s.onFeeder = true ∨ s.hart.vq = [] ∨ (s.st.grant = s.newWidth ∧ ∀ e ∈ s.hart.vq, e.isVldff = false) →
      ∃ t u, exec i s = .next t ∧ s.Regranted u
        ∧ (u.setSt { u.st with vtype := lmul ++ sew ++ alt ++ 0#1 ++ tp ++ mp, vl := vl.setWidth 16
                               rc := rows.setWidth 4 + 1, vstart := 0 }).Wrote t i d vl)
    ∧ (s.onFeeder = false → s.hart.vq ≠ [] → s.st.grant ≠ s.newWidth → s.Waits i)
    ∧ (s.onFeeder = false → (∃ e ∈ s.hart.vq, e.isVldff = true) → s.Waits i))

/-- R101, R108, R255, R256: a feeder's EXIT stops the feeder; a main stream's, once the vector queue and the hart's copies are
done, retires the hart: no stream is left, its parent counts it, and the completion record is written at DONE unless that is 0.
R472: it waits while the write of that record does. That an instruction that waits gives up its turn is the model's choice
(log 4). -/
def Obligations.ExitInstruction : Prop := ∀ s : State, s.ScalarReady .never true false [] →
  (s.onFeeder = true → ∃ t u, exec .exit s = .next t ∧ s.Finished u .exit
    ∧ t = { u with hart := { u.hart with feederLive := false }, quantum := 0 })
  ∧ (s.onFeeder = false → s.hart.vq ≠ [] → s.Waits .exit)
  ∧ (s.onFeeder = false → (∃ o ∈ s.ops, ∃ i, o.ctx = .copy s.hart.tag i) → s.Waits .exit)
  ∧ (s.onFeeder = false → s.RecordWaits s.hart.die s.hart.recWin s.hart.doneAddr → s.Waits .exit)
  ∧ (s.onFeeder = false → s.occupied = true → s.hart.vq = [] → s.hart.late = [] → (∀ o ∈ s.ops, ∀ i, o.ctx ≠ .copy s.hart.tag i) →
      (∀ o ∈ s.ops, o.issuer = s.hart.tag → o.ctl = none → ∀ q l, o.kind ≠ .tiles q l) → s.hart.isSaved = false →
      ¬s.RecordWaits s.hart.die s.hart.recWin s.hart.doneAddr →
    ∃ t, exec .exit s = .next t ∧ t.occupied = false ∧ s.OpsKept t
      ∧ t.others = s.others.map (fun (h : Hart) =>
          { h with childDone := if h.isControl = false ∧ s.hart.parent = some h.tag then h.childDone + 1 else h.childDone
                   parent := if h.parent = some s.hart.tag then none else h.parent })
      ∧ (∀ d p, p ∈ (vget t.dispatchers dispatcherDefault d).pool ∨ p ∈ (vget t.dispatchers dispatcherDefault d).spoil →
          p.parent ≠ some s.hart.tag)
      ∧ (∀ g ∈ t.groups, ∃ m ∈ g.members, m.retired = false)
      ∧ (s.hart.doneAddr = 0 → t.mem = s.mem)
      ∧ (s.hart.doneAddr ≠ 0 → s.hart.doneAddr.toNat % 32 = 0 → ∀ x s1,
          s.translate (dispatchAgent s.hart.die s.hart.recWin false) (.plain 1 32) s.hart.doneAddr = .ok x s1 →
          x.cls ≠ 3 → (∀ o, region x.pa ≠ .hub o) →
          t.mem.readLe x.pa 8 = s.hart.arg.toNat ∧ t.mem.readLe (x.pa + 8) 2 = 1
          ∧ t.mem.readLe (x.pa + 10) 2 = s.hart.hartid.toNat ∧ t.mem.readLe (x.pa + 12) 2 = min
              (sumNat (s.hart.q.toList.map List.length) + sumNat (s.hart.tq.toList.map fun l => (l.filter (·.full)).length)) 65535
          ∧ t.mem.readLe (x.pa + 14) 2 = 0
          ∧ t.mem.readLe (x.pa + 16) 8 = (s.hart.main.rd 1).toNat
          ∧ t.mem.readLe (x.pa + 24) 8 = (s.cycle - s.hart.cycStart).toNat
          ∧ ∀ b, ¬(x.pa ≤ b ∧ b < x.pa + 32) → t.mem.byte b = s1.mem.byte b))

/-- R31, R444: the service instructions need the supervisor. R446: RESUME makes a hart that was parked or held ready,
or lets a stopped operation try again, and answers 1; for any other handle it changes nothing and answers 0; a handle
with a bit that has to be 0 raises ILLOP. R447: KILL stops a hart that is not already being killed, drops its events
and its place among the ready harts, abandons its stopped copies and its streams, and answers 1; for an unknown handle or a hart being killed it answers 0 and
changes nothing. R445: FRPOP takes the oldest record of a die's queue, as 64 bytes at g[a]; without one, or at an address that
is not a multiple of 64 or that faults, the queue keeps its records. R472, R481: it waits while a link to the queue is shut, which
gives up the turn (the model's choice, log 4). -/
def Obligations.ServiceInstructions : Prop :=
  (∀ (s : State) (d a : Reg) (e : BitVec 2), s.hart.sv = false →
    s.ScalarReady .never true true [d, a] →
    s.TrapsOn (.frpop d a e) .priv ∧ s.TrapsOn (.resume d a) .priv ∧ s.TrapsOn (.kill d a) .priv)
  ∧ (∀ (s : State) (d a : Reg), s.hart.sv = true →
    s.ScalarReady .never true true [d, a] →
    let i : Instr := .resume d a
    let h := (s.rd a).toNat
    let tag : BitVec 32 := BitVec.ofNat 32 h
    (handleOk h = false → s.TrapsOn i .illop)
    ∧ (handleOk h = true → h < 2 ^ 63 → ∀ x, s.findHart tag = some x → x.run = .saved false →
        ∃ t u : State, exec i s = .next t ∧ u.Wrote t i d 1
          ∧ u.findHart tag = some { x with run := .saved true }
          ∧ (vget u.dispatchers dispatcherDefault x.die).ready
              = (if x.die < 4 then (vget s.dispatchers dispatcherDefault x.die).ready ++ [tag] else [])
          ∧ { u with hart := s.hart, others := s.others, dispatchers := s.dispatchers } = s)
    ∧ (handleOk h = true → h < 2 ^ 63 → (∀ x, s.findHart tag = some x → x.run ≠ .saved false) →
        ∃ t, exec i s = .next t ∧ s.Wrote t i d 0)
    ∧ (handleOk h = true → 2 ^ 63 ≤ h → ∀ o, s.stoppedOp h = some o →
        ∃ t, exec i s = .next t ∧ ({ s with ops := s.ops.map fun (x : Op) => if x.id = o.id then { o with stage := .accepted } else x }).Wrote t i d 1)
    ∧ (handleOk h = true → 2 ^ 63 ≤ h → s.stoppedOp h = none → ∃ t, exec i s = .next t ∧ s.Wrote t i d 0))
  ∧ (∀ (s : State) (d a : Reg), s.hart.sv = true →
    s.ScalarReady .never true true [d, a] →
    let i : Instr := .kill d a
    let h := (s.rd a).toNat
    let tag : BitVec 32 := BitVec.ofNat 32 h
    (handleOk h = false → s.TrapsOn i .illop)
    ∧ (handleOk h = true → h < 2 ^ 63 → s.findHart tag = none → ∃ t, exec i s = .next t ∧ s.Wrote t i d 0)
    ∧ (handleOk h = true → h < 2 ^ 63 → ∀ x b, s.findHart tag = some x → x.run = .killed b →
        ∃ t, exec i s = .next t ∧ s.Wrote t i d 0)
    ∧ (handleOk h = true → h < 2 ^ 63 → ∀ x, s.findHart tag = some x → (∀ b, x.run ≠ .killed b) → x.late = [] →
        ∃ t u : State, exec i s = .next t ∧ u.Wrote t i d 1
          ∧ (∃ y, u.findHart tag = some y ∧ y.run = .killed x.isSaved ∧ y.events = [])
          ∧ (∀ k, tag ∉ (vget u.dispatchers dispatcherDefault k).ready)
          -- its stopped copies and its streams are abandoned, no other operation is
          ∧ (∀ o ∈ u.ops, o ∈ s.ops ∧ ¬DiesWith o tag)
          ∧ (∀ o ∈ s.ops, (∀ q ∈ s.ops, DiesWith q tag → q.id ≠ o.id) → o ∈ u.ops)
          ∧ ((∀ o ∈ s.ops, ¬DiesWith o tag) →
              u.findHart tag = some { x with run := .killed x.isSaved, events := [] }
              ∧ { u with hart := s.hart, others := s.others, dispatchers := s.dispatchers, quantum := s.quantum
                         tokens := s.tokens } = s))
    ∧ (handleOk h = true → 2 ^ 63 ≤ h → s.stoppedOp h = none → ∃ t, exec i s = .next t ∧ s.Wrote t i d 0)
    ∧ (handleOk h = true → 2 ^ 63 ≤ h → ∀ o, s.stoppedOp h = some o →
        ∃ t, exec i s = .next t ∧ (s.abandonOp o).Wrote t i d 1))
  ∧ (∀ (s : State) (d a : Reg) (e : BitVec 2), s.hart.sv = true →
    s.ScalarReady .never true true [d, a] → s.onFeeder = true ∨ s.hart.late = [] →
    let i : Instr := .frpop d a e
    let p := s.rd a
    let held := (vget s.frq frqDefault e.toNat).held
    let shut : Prop := WayShut s s.agent.start ((vget s.frq frqDefault e.toNat).base.toNat / 2 ^ 16 % 2 ^ 40 * 2 ^ 16)
    (p.toNat % 64 ≠ 0 → s.Traps i .misalign p)
    ∧ (p.toNat % 64 = 0 → shut → s.Waits i)
    ∧ (p.toNat % 64 = 0 → ¬shut → held = [] → ∃ t, exec i s = .next t ∧ s.Wrote t i d 0)
    ∧ (p.toNat % 64 = 0 → ¬shut → held ≠ [] → ∀ f s1, s.translateWords p 8 = .mem f s1 → exec i s = .next (s1.memFault f (encodeNat i)))
    ∧ (p.toNat % 64 = 0 → ¬shut → ∀ r rest, held = r :: rest → ∀ xs s1, s.translateWords p 8 = .ok xs s1 →
        ∃ t, exec i s = .next t
          ∧ (vget t.frq frqDefault e.toNat).held.take rest.length = rest
          ∧ ((vget s.frq frqDefault e.toNat).waiting = [] → (vget t.frq frqDefault e.toNat).held = rest)
          ∧ ((∀ x ∈ xs, ∀ o, region x.pa ≠ .hub o) →
              ∀ k, k < 4 → k ≠ e.toNat → vget t.frq frqDefault k = vget s.frq frqDefault k)
          ∧ t.mem = (s1.performWords xs r.bytes).mem
          ∧ (d ≠ 0 → t.st.rd d = 1) ∧ ∀ q, q ≠ d → t.st.rd q = s.st.rd q))

/-- R318-R321: FENCE completes once no vector access of the stream that it covers waits; DFENCE.I counts, and gives the
token {SEQ, STREAM}; DFENCE.W refuses a token that is not its stream's, and completes when no store that its DFENCE.I
covers waits. The model's choices: a FENCE after vector accesses waits until the queue is empty, one before them holds in the
queue's order, and a FENCE of scalar accesses performs the stores that wait (logs 7, 21); DFENCE.W performs those too and looks
for stores in the queue only (log 38). That either gives up the turn while it waits is the model's choice too (log 4). -/
def Obligations.FenceInstructions : Prop := ∀ (s : State) (d : Reg) (sc : BitVec 3) (dir : BitVec 2),
  (s.ScalarReady .never true true [] →
    (s.onFeeder = true ∨ s.hart.late = [] ∧ (s.hart.vq = [] ∨ (dir ≠ 1 ∧ dir ≠ 3)) → ∃ t, exec (.fence sc dir) s = .next t ∧ s.Finished t (.fence sc dir))
    ∧ (s.onFeeder = false → s.hart.vq ≠ [] → dir = 1 ∨ dir = 3 → s.Waits (.fence sc dir)))
  ∧ (s.ScalarReady .never true false [d] →
    let n := s.st.dfseq + 1
    let stream : BitVec 32 := if s.onFeeder then 1 else 0
    (∃ t, exec (.dfenceI d) s = .next t ∧ (s.setSt { s.st with dfseq := n }).Wrote t (.dfenceI d) d (n ++ stream))
    ∧ (∀ seq low : BitVec 32, s.rd d = seq ++ low →
        ((low ≠ stream ∨ 2 ^ 31 ≤ (s.st.dfseq - seq).toNat) → s.TrapsOn (.dfenceW d) .illop)
        ∧ (low = stream → (s.st.dfseq - seq).toNat < 2 ^ 31 → s.onFeeder = false →
            (∃ e ∈ s.hart.vq, wordStores e.word.toNat = true ∧ 0 < (seq - e.fence).toNat ∧ (seq - e.fence).toNat < 2 ^ 31) →
            s.Waits (.dfenceW d))
        ∧ (low = stream → (s.st.dfseq - seq).toNat < 2 ^ 31 → s.onFeeder = true ∨ s.hart.late = [] ∧
            (∀ e ∈ s.hart.vq, ¬(wordStores e.word.toNat = true ∧ 0 < (seq - e.fence).toNat ∧ (seq - e.fence).toNat < 2 ^ 31)) →
            ∃ t, exec (.dfenceW d) s = .next t ∧ s.Finished t (.dfenceW d))))

/-- R156, R162, R177, R178, R114: the value each VINT instruction gives an active position, from the elements of vs1 and
of vs2 or the low SEW bits of g[vs2]; it sets LASTD.V, raises no flag, and changes nothing else. -/
def Obligations.VectorIntegerResults : Prop := ∀ (s : State) (d a b : Reg) (k : BitVec 3) (sb : BitVec 1),
  let c := s.vcfg
  let l := c.lmul
  let n := 8 * 2 ^ c.sew
  let x (r e : Nat) : Nat := elemRd s.hart.v c.g (2 ^ c.sew) a.toNat r e
  let y (r e : Nat) : Nat := if sb = 0 then elemRd s.hart.v c.g (2 ^ c.sew) b.toNat r e else (s.rd b).toNat % 2 ^ n
  let sg (v : Nat) : Int := (BitVec.ofNat n v).toInt
  let low (v : Int) : Nat := (BitVec.ofInt n v).toNat
  let clampS (v : Int) : Nat := low (max (-2 ^ (n - 1)) (min (2 ^ (n - 1) - 1) v))
  let clampU (v : Int) : Nat := low (max 0 (min (2 ^ n - 1) v))
  let ySrc := if sb = 0 then [(b.toNat, l)] else []
  let yReg := if sb = 0 then [] else [b]
  let gives (i : Instr) (f : Nat → Nat → Nat) : Prop :=
    s.Elementwise i d k.toNat (2 ^ c.sew) l fun r e => (f (x r e) (y r e), 0)
  c.Fits (2 ^ c.sew) l →
  (s.VecReady .copy (some (d.toNat, l)) ((a.toNat, l) :: ySrc) (sb = 0 → a.toNat % 2 ≠ b.toNat % 2) yReg →
    gives (.vadd d a b k sb) (fun x y => x + y) ∧ gives (.vsub d a b k sb) (fun x y => low (x - y))
    ∧ gives (.vrsub d a b k sb) (fun x y => low (y - x)) ∧ gives (.vmul d a b k sb) (fun x y => x * y)
    ∧ gives (.vmulh d a b k sb) (fun x y => low (sg x * sg y / 2 ^ n)) ∧ gives (.vmulhu d a b k sb) (fun x y => x * y / 2 ^ n)
    ∧ gives (.vdiv d a b k sb) (fun x y => if y = 0 then 2 ^ n - 1 else low ((sg x).tdiv (sg y)))
    ∧ gives (.vdivu d a b k sb) (fun x y => if y = 0 then 2 ^ n - 1 else x / y)
    ∧ gives (.vrem d a b k sb) (fun x y => if y = 0 then x else low ((sg x).tmod (sg y)))
    ∧ gives (.vremu d a b k sb) (fun x y => if y = 0 then x else x % y)
    ∧ gives (.vand d a b k sb) (fun x y => x &&& y) ∧ gives (.vor d a b k sb) (fun x y => x ||| y)
    ∧ gives (.vxor d a b k sb) (fun x y => x ^^^ y) ∧ gives (.vsll d a b k sb) (fun x y => x * 2 ^ (y % n))
    ∧ gives (.vsrl d a b k sb) (fun x y => x / 2 ^ (y % n)) ∧ gives (.vsra d a b k sb) (fun x y => low (sg x / 2 ^ (y % n)))
    ∧ gives (.vmin d a b k sb) (fun x y => if sg x ≤ sg y then x else y)
    ∧ gives (.vmax d a b k sb) (fun x y => if sg x ≤ sg y then y else x)
    ∧ gives (.vminu d a b k sb) (fun x y => if x ≤ y then x else y) ∧ gives (.vmaxu d a b k sb) (fun x y => if x ≤ y then y else x)
    ∧ gives (.vsadd d a b k sb) (fun x y => clampS (sg x + sg y)) ∧ gives (.vsaddu d a b k sb) (fun x y => clampU (x + y))
    ∧ gives (.vssub d a b k sb) (fun x y => clampS (sg x - sg y)) ∧ gives (.vssubu d a b k sb) (fun x y => clampU (x - y))
    ∧ s.Elementwise (.vmerge d a b k sb) d 0 (2 ^ c.sew) l fun r e => (if maskRd s.hart.m k.toNat r e then y r e else x r e, 0))
  ∧ (s.VecReady .copy (some (d.toNat, l)) ySrc True yReg → gives (.vmv d b k sb) fun _ y => y)
  ∧ (s.VecReady .copy (some (d.toNat, l)) [] True [] →
    s.Elementwise (.vidx d k) d k.toNat (2 ^ c.sew) l fun _ e => (e, 0))
  ∧ (s.VecReady .copy (some (d.toNat, l)) [(a.toNat, l), (s.st.lastV.toNat, l)] (a.toNat % 2 ≠ s.st.lastV.toNat % 2) [] →
    s.Elementwise (.cVadd d a) d 0 (2 ^ c.sew) l fun r e =>
      (x r e + elemRd s.hart.v c.g (2 ^ c.sew) s.st.lastV.toNat r e, 0))

/-- R169, R170, R173, R182, R114: the value and the flags that each VFP instruction gives an active position, in the
format at SEW; at SEW 8 it raises ILLOP. -/
def Obligations.VectorFloatingPoint : Prop := ∀ (s : State) (d a b : Reg) (k : BitVec 3) (sb : BitVec 1),
  let c := s.vcfg
  let l := c.lmul
  let f : Fmt := if c.sew = 3 then fmtF64 else if c.sew = 2 then fmtF32 else if c.alt then fmtBf16 else fmtF16
  let el (q : Reg) (r e : Nat) : Nat := elemRd s.hart.v c.g (2 ^ c.sew) q.toNat r e
  let y (r e : Nat) : Nat := if sb = 0 then el b r e else (s.rd b).toNat % 2 ^ (8 * 2 ^ c.sew)
  let ySrc := if sb = 0 then [(b.toNat, l)] else []
  let yReg := if sb = 0 then [] else [b]
  let gives (i : Instr) (f : Nat → Nat → Nat × BitVec 7) : Prop :=
    s.Elementwise i d k.toNat (2 ^ c.sew) l fun r e => f (el a r e) (y r e)
  let fused (i : Instr) (np nz : Bool) : Prop :=
    s.Elementwise i d k.toNat (2 ^ c.sew) l fun r e => f.fma c.rm np nz (el a r e) (y r e) (el d r e)
  let bank := sb = 0 → a.toNat % 2 ≠ b.toNat % 2
  (c.Fits (2 ^ c.sew) l → c.sew ≠ 0 →
    (s.VecReady .copy (some (d.toNat, l)) ((a.toNat, l) :: ySrc) bank yReg →
      gives (.vfadd d a b k sb) (fun x y => f.add c.rm x y) ∧ gives (.vfsub d a b k sb) (fun x y => f.sub c.rm x y)
      ∧ gives (.vfmul d a b k sb) (fun x y => f.mul c.rm x y) ∧ gives (.vfdiv d a b k sb) (fun x y => f.div c.rm x y)
      ∧ gives (.vfmin d a b k sb) (fun x y => f.minmax false x y) ∧ gives (.vfmax d a b k sb) (fun x y => f.minmax true x y)
      ∧ gives (.vfsign d a b k sb) (fun x y => (f.withSign 0 x y, 0)))
    ∧ (s.VecReady .copy (some (d.toNat, l)) ySrc True yReg →
      gives (.vfsqrt d b k sb) (fun _ y => f.sqrt c.rm y) ∧ gives (.vfclass d b k sb) fun _ y => (f.classify y, 0))
    ∧ (s.VecReady .copy (some (d.toNat, l)) ((a.toNat, l) :: ySrc ++ [(d.toNat, l)]) bank yReg →
      fused (.vfma d a b k sb) false false ∧ fused (.vfmsub d a b k sb) false true ∧ fused (.vfnma d a b k sb) true false)
    ∧ (s.VecReady .copy (some (d.toNat, l)) [(a.toNat, l), (s.st.lastV.toNat, l), (d.toNat, l)]
        (a.toNat % 2 ≠ s.st.lastV.toNat % 2) [] →
      s.Elementwise (.cVfma d a) d 0 (2 ^ c.sew) l fun r e =>
        f.fma c.rm false false (el a r e) (el s.st.lastV r e) (el d r e)))
  ∧ (c.sew = 0 →
    (s.VecReady .copy (some (d.toNat, l)) ((a.toNat, l) :: ySrc) bank yReg →
      s.TrapsOn (.vfadd d a b k sb) .illop ∧ s.TrapsOn (.vfsub d a b k sb) .illop ∧ s.TrapsOn (.vfmul d a b k sb) .illop
      ∧ s.TrapsOn (.vfdiv d a b k sb) .illop ∧ s.TrapsOn (.vfmin d a b k sb) .illop ∧ s.TrapsOn (.vfmax d a b k sb) .illop
      ∧ s.TrapsOn (.vfsign d a b k sb) .illop)
    ∧ (s.VecReady .copy (some (d.toNat, l)) ySrc True yReg →
      s.TrapsOn (.vfsqrt d b k sb) .illop ∧ s.TrapsOn (.vfclass d b k sb) .illop)
    ∧ (s.VecReady .copy (some (d.toNat, l)) ((a.toNat, l) :: ySrc ++ [(d.toNat, l)]) bank yReg →
      s.TrapsOn (.vfma d a b k sb) .illop ∧ s.TrapsOn (.vfmsub d a b k sb) .illop ∧ s.TrapsOn (.vfnma d a b k sb) .illop)
    ∧ (s.VecReady .copy (some (d.toNat, l)) [(a.toNat, l), (s.st.lastV.toNat, l), (d.toNat, l)]
        (a.toNat % 2 ≠ s.st.lastV.toNat % 2) [] →
      s.TrapsOn (.cVfma d a) .illop))

/-- R170, R179, R180: the widening and narrowing instructions; at SEW 64 they raise ILLOP. R170, R185, R186: VFCVT by
its code: integers and the format at SEW both ways, the wider and the narrower partner format; codes 0-3 and 5 raise
ILLOP at SEW 8, code 4 at SEW 64. -/
def Obligations.VectorWideningAndConversion : Prop :=
  (∀ (s : State) (d a b : Reg) (k : BitVec 3) (sb : BitVec 1),
    let c := s.vcfg
    let l := c.lmul
    let w := 2 ^ c.sew
    let n := 8 * w
    let x (r e : Nat) : Nat := elemRd s.hart.v c.g w a.toNat r e
    let wide (q : Reg) (r e : Nat) : Nat := elemRd s.hart.v c.g (2 * w) q.toNat r e
    let y (r e : Nat) : Nat := if sb = 0 then elemRd s.hart.v c.g w b.toNat r e else (s.rd b).toNat % 2 ^ n
    let sg (m v : Nat) : Int := (BitVec.ofNat m v).toInt
    let low (m : Nat) (v : Int) : Nat := (BitVec.ofInt m v).toNat
    let half (k : Nat) (v : Int) : Int := if k = 0 then v else (v + 2 ^ (k - 1)) / 2 ^ k
    let clamp (v : Int) : Int := max (-2 ^ (n - 1)) (min (2 ^ (n - 1) - 1) v)
    let ySrc := if sb = 0 then [(b.toNat, l)] else []
    let yReg := if sb = 0 then [] else [b]
    let bank := sb = 0 → a.toNat % 2 ≠ b.toNat % 2
    let gives (i : Instr) (f : Nat → Nat → Nat) : Prop :=
      s.Elementwise i d k.toNat (2 * w) (2 * l) fun r e => (f (x r e) (y r e), 0)
    (c.Fits w l → c.sew ≠ 3 →
      (s.VecReady .copy (some (d.toNat, 2 * l)) ((a.toNat, l) :: ySrc) bank yReg →
        gives (.vwadd d a b k sb) (fun x y => low (2 * n) (sg n x + sg n y)) ∧ gives (.vwaddu d a b k sb) (fun x y => x + y)
        ∧ gives (.vwmul d a b k sb) (fun x y => low (2 * n) (sg n x * sg n y)) ∧ gives (.vwmulu d a b k sb) (fun x y => x * y))
      ∧ (s.VecReady .copy (some (d.toNat, 2 * l)) ((a.toNat, l) :: ySrc ++ [(d.toNat, 2 * l)]) bank yReg →
        (s.Elementwise (.vwacc d a b k sb) d k.toNat (2 * w) (2 * l) fun r e =>
          (low (2 * n) (wide d r e + sg n (x r e) * sg n (y r e)), 0))
        ∧ s.Elementwise (.vwaccu d a b k sb) d k.toNat (2 * w) (2 * l) fun r e => (wide d r e + x r e * y r e, 0))
      ∧ (s.VecReady .copy (some (d.toNat, l)) ((a.toNat, 2 * l) :: ySrc) bank yReg →
        (s.Elementwise (.vnsrl d a b k sb) d k.toNat w l fun r e => (wide a r e / 2 ^ (y r e % (2 * n)), 0))
        ∧ s.Elementwise (.vnclip d a b k sb) d k.toNat w l fun r e =>
          (low n (clamp (half (y r e % (2 * n)) (sg (2 * n) (wide a r e)))), 0)))
    ∧ (c.sew = 3 →
      (s.VecReady .copy (some (d.toNat, 2 * l)) ((a.toNat, l) :: ySrc) bank yReg →
        s.TrapsOn (.vwadd d a b k sb) .illop ∧ s.TrapsOn (.vwaddu d a b k sb) .illop ∧ s.TrapsOn (.vwmul d a b k sb) .illop
        ∧ s.TrapsOn (.vwmulu d a b k sb) .illop)
      ∧ (s.VecReady .copy (some (d.toNat, 2 * l)) ((a.toNat, l) :: ySrc ++ [(d.toNat, 2 * l)]) bank yReg →
        s.TrapsOn (.vwacc d a b k sb) .illop ∧ s.TrapsOn (.vwaccu d a b k sb) .illop)
      ∧ (s.VecReady .copy (some (d.toNat, l)) ((a.toNat, 2 * l) :: ySrc) bank yReg →
        s.TrapsOn (.vnsrl d a b k sb) .illop ∧ s.TrapsOn (.vnclip d a b k sb) .illop)))
  ∧ (∀ (s : State) (d b code : Reg) (k : BitVec 3),
    let c := s.vcfg
    let l := c.lmul
    let w := 2 ^ c.sew
    let n := 8 * w
    let f : Fmt := c.fmt
    let x (r e : Nat) : Nat := elemRd s.hart.v c.g w b.toNat r e
    let wider : Fmt := if c.sew = 0 then (if c.alt then fmtF16 else fmtBf16) else if c.sew = 1 then fmtF32 else fmtF64
    let narrower : Fmt := if c.sew = 1 then (if c.alt then fmtE4m3 else fmtE5m2) else if c.sew = 2 then fmtBf16 else fmtF32
    let i : Instr := .vfcvt d code b k
    let ready (size : Nat) : Prop := s.VecReady .copy (some (d.toNat, size)) [(b.toNat, l)] True []
    let gives (code' bw size : Nat) (g : Nat → Nat × BitVec 7) : Prop :=
      code.toNat = code' → ready size → s.Elementwise i d k.toNat bw size fun r e => g (x r e)
    (c.Fits w l →
      (c.sew ≠ 0 →
        gives 0 w l (fun v => f.toInt c.rm true n v) ∧ gives 1 w l (fun v => f.toInt c.rm false n v)
        ∧ gives 2 w l (fun v => f.ofInt c.rm (BitVec.ofNat n v).toInt) ∧ gives 3 w l (fun v => f.ofInt c.rm v)
        ∧ gives 5 (w / 2) (max 1 (l / 2)) (fun v => f.convert narrower c.rm v))
      ∧ (c.sew ≠ 3 → gives 4 (2 * w) (2 * l) fun v => f.convert wider c.rm v))
    ∧ (c.sew = 0 → code.toNat ≤ 3 → ready l → s.TrapsOn i .illop)
    ∧ (c.sew = 0 → code.toNat = 5 → ready (max 1 (l / 2)) → s.TrapsOn i .illop)
    ∧ (c.sew = 3 → code.toNat = 4 → ready (2 * l) → s.TrapsOn i .illop))

/-- R170, R171, R187: the compares: the bit each gives an active position, and the flags of the floating-point ones; those
raise ILLOP at SEW 8. R183, R184: VPIV replaces the elements below the threshold by it with their own sign, makes NaNs
canonical, marks both in its mask, and adds the number of replaced elements to PIVCNT; at SEW 8 it raises ILLOP. That a
signalling threshold raises no flag, and that a copy prefix copies the elements that VPIV leaves unchanged too, are the model's
choices (log 40). -/
def Obligations.VectorCompares : Prop :=
  (∀ (s : State) (d : BitVec 3) (a b : Reg) (k : BitVec 3) (sb : BitVec 1),
    let c := s.vcfg
    let l := c.lmul
    let n := 8 * 2 ^ c.sew
    let f : Fmt := if c.sew = 3 then fmtF64 else if c.sew = 2 then fmtF32 else if c.alt then fmtBf16 else fmtF16
    let x (r e : Nat) : Nat := elemRd s.hart.v c.g (2 ^ c.sew) a.toNat r e
    let y (r e : Nat) : Nat := if sb = 0 then elemRd s.hart.v c.g (2 ^ c.sew) b.toNat r e else (s.rd b).toNat % 2 ^ n
    let sg (v : Nat) : Int := (BitVec.ofNat n v).toInt
    let act := c.active s.hart.m k.toNat
    let gives (i : Instr) (t : Nat → Nat → Bool) (flag : Nat → Nat → BitVec 7) : Prop :=
      ∃ u fl, exec i s = .next u ∧ s.VecPassed u i { s.st with flags := s.st.flags ||| fl } ∧ u.hart.v = s.hart.v
        ∧ c.Flags act (fun r e => flag (x r e) (y r e)) fl ∧ s.MaskWrote u c act d.toNat fun r e => t (x r e) (y r e)
    let ints (i : Instr) (t : Nat → Nat → Bool) : Prop := gives i t fun _ _ => 0
    let fps (i : Instr) (code : Nat) : Prop := gives i (fun x y => (f.compare code x y).1) fun x y => (f.compare code x y).2
    s.VecReady .pred none ((a.toNat, l) :: (if sb = 0 then [(b.toNat, l)] else [])) (sb = 0 → a.toNat % 2 ≠ b.toNat % 2)
        (if sb = 0 then [] else [b]) →
    (c.Fits (2 ^ c.sew) l →
      ints (.vcmpEq d a b k sb) (fun x y => decide (x = y)) ∧ ints (.vcmpNe d a b k sb) (fun x y => decide (x ≠ y))
      ∧ ints (.vcmpLt d a b k sb) (fun x y => decide (sg x < sg y)) ∧ ints (.vcmpLe d a b k sb) (fun x y => decide (sg x ≤ sg y))
      ∧ ints (.vcmpLtu d a b k sb) (fun x y => decide (x < y)) ∧ ints (.vcmpLeu d a b k sb) (fun x y => decide (x ≤ y))
      ∧ (c.sew ≠ 0 → fps (.vfcmpEq d a b k sb) 0 ∧ fps (.vfcmpLt d a b k sb) 1 ∧ fps (.vfcmpLe d a b k sb) 2
          ∧ fps (.vfcmpUnord d a b k sb) 3))
    ∧ (c.sew = 0 → s.TrapsOn (.vfcmpEq d a b k sb) .illop ∧ s.TrapsOn (.vfcmpLt d a b k sb) .illop
        ∧ s.TrapsOn (.vfcmpLe d a b k sb) .illop ∧ s.TrapsOn (.vfcmpUnord d a b k sb) .illop))
  ∧ (∀ (s : State) (d b : Reg) (n k : BitVec 3),
    let c := s.vcfg
    let l := c.lmul
    let f : Fmt := if c.sew = 3 then fmtF64 else if c.sew = 2 then fmtF32 else if c.alt then fmtBf16 else fmtF16
    let thr := (s.rd b).toNat % f.signBit
    let x (r e : Nat) : Nat := elemRd s.hart.v c.g (2 ^ c.sew) d.toNat r e
    let isNan (v : Nat) : Bool := (f.read v).isNan
    let less (v : Nat) : Bool := !isNan v && !isNan thr && cmpVal (f.read (v % f.signBit)) (f.read thr) == .lt
    let act := c.active s.hart.m k.toNat
    let i : Instr := .vpiv d n b k
    s.VecReady .copy (some (d.toNat, l)) [(d.toNat, l)] True [b] →
    (c.sew = 0 → s.TrapsOn i .illop)
    ∧ (c.Fits (2 ^ c.sew) l → c.sew ≠ 0 →
      ∃ t u fl, exec i s = .next t
        ∧ s.VecPassed u i { s.st with lastV := d, flags := s.st.flags ||| fl }
        ∧ t = { u with hart := { u.hart with pivcnt := t.hart.pivcnt } }
        ∧ s.VecWrote t c act (2 ^ c.sew) l d.toNat (fun r e =>
            if isNan (x r e) then f.canon
            else if less (x r e) then (if f.signBit ≤ x r e then f.signBit + thr else thr) else x r e)
        ∧ s.MaskWrote t c act n.toNat (fun r e => isNan (x r e) || less (x r e))
        ∧ t.hart.pivcnt = s.hart.pivcnt + BitVec.ofNat 64
            (((List.range c.rc).flatMap fun r => (List.range c.vl).map fun e => (r, e)).filter fun p =>
              act p.1 p.2 && less (x p.1 p.2)).length
        ∧ c.Flags act (fun r e => if (f.read (x r e)).isSnan then 0x40 else 0) fl))

/-- R145, R171, R189, R190: the mask operations, which have no inactive positions; MCLR, of the whole mask or of the
feeder's m0; MPOPC and MFIRST, which write g[d] and set LASTD.G. -/
def Obligations.MaskInstructions : Prop := ∀ (s : State) (d a b k : BitVec 3) (q : Reg),
  let c := s.vcfg
  let bit (n : BitVec 3) (r e : Nat) : Bool := maskRd s.hart.m n.toNat r e
  let gives (i : Instr) (f : Bool → Bool → Bool) : Prop := ∃ t, exec i s = .next t ∧ s.VecPassed t i s.st
    ∧ t.hart.v = s.hart.v ∧ s.MaskWrote t c (fun _ _ => true) d.toNat fun r e => f (bit a r e) (bit b r e)
  let counted : List (Nat × Nat) := ((List.range c.rc).flatMap fun r => (List.range c.vl).map fun e => (r, e)).filter fun p =>
    c.active s.hart.m k.toNat p.1 p.2 && bit b p.1 p.2
  let toG (i : Instr) (v : Word) : Prop := ∃ t u, exec i s = .next t ∧ t = { u with frq := t.frq } ∧ (s.hart.poison = [] → t = u)
    ∧ s.VecPassed u i { (s.st.wr q v) with lastG := q } ∧ u.hart.v = s.hart.v ∧ u.hart.m = s.hart.m
  (s.VecReady .never none [] True [] →
    (c.g ≤ 8 → c.rc ≤ 8 → c.vl ≤ 16384 →
      gives (.mand d a b) (fun x y => x && y) ∧ gives (.mor d a b) (fun x y => x || y) ∧ gives (.mxor d a b) (fun x y => x ^^ y)
      ∧ gives (.mandn d a b) (fun x y => x && !y) ∧ gives (.mnot d b) (fun _ y => !y) ∧ gives (.mmv d b) (fun _ y => y))
    ∧ ∃ t, exec (.mclr d) s = .next t ∧ s.VecPassed t (.mclr d) s.st ∧ t.hart.v = s.hart.v
      ∧ ∀ n r e, r < 8 → e < 16384 → maskRd t.hart.m n r e = if n = d.toNat then false else maskRd s.hart.m n r e)
  ∧ (s.VecReady .never none [] True [q] →
    toG (.mpopc q b k) (BitVec.ofNat 64 counted.length)
    ∧ toG (.mfirst q b k) (match counted with | [] => BitVec.allOnes 64 | p :: _ => BitVec.ofNat 64 (p.1 * 65536 + p.2)))
  ∧ (s.onFeeder = true → s.atHead = false → s.ScalarReady .never true false [] →
    ∃ t u, exec (.mclr 0) s = .next t ∧ s.Finished u (.mclr 0)
      ∧ t = { u with hart := { u.hart with fm0 := [], feed := { u.hart.feed with vstart := 0 } } })
  ∧ (s.onFeeder = true → s.atHead = false → d ≠ 0 → s.TrapsOn (.mclr d) .illop)

/-- R170, R191-R196: the reductions give element 0 of every row below RC the row's result: its initial value in v[a]
unchanged when no position of the row is active, else that value combined with the active elements in ascending order (the
order in which VFREDX takes its terms is the model's choice, log 40); with VSTART other than 0, VWREDSUM at SEW 64 and the
floating-point ones at SEW 8 they raise ILLOP. -/
def Obligations.VectorReductions : Prop := ∀ (s : State) (d a b : Reg) (k : BitVec 3),
  let c := s.vcfg
  let l := c.lmul
  let w := 2 ^ c.sew
  let n := 8 * w
  let sg (v : Nat) : Int := (BitVec.ofNat n v).toInt
  let init (bw r : Nat) : Nat := elemRd s.hart.v c.g bw a.toNat r 0
  let places (r : Nat) : List Nat := (List.range c.vl).filter fun e => c.active s.hart.m k.toNat r e
  let xs (r : Nat) : List Nat := (places r).map fun e => elemRd s.hart.v c.g w b.toNat r e
  let reduces (i : Instr) (bw : Nat) (f : Nat → Nat → Nat × BitVec 7) : Prop :=
    let one (r : Nat) : Nat × BitVec 7 := if xs r = [] then (init bw r, 0) else f r (init bw r)
    ∃ t fl, exec i s = .next t ∧ s.VecSet t i d fl
      ∧ (∀ j, fl.getLsbD j = true ↔ ∃ r, r < c.rc ∧ (one r).2.getLsbD j = true)
      ∧ s.VecWrote t { c with vl := 1, pfx := none } (fun _ _ => true) bw 1 d.toNat fun r _ => (one r).1
  let ints (i : Instr) (f : Nat → Nat → Nat) : Prop := reduces i w fun r v => ((xs r).foldl f v, 0)
  let fold (f : Nat → Nat → Nat × BitVec 7) (l : List Nat) (v : Nat) : Nat × BitVec 7 :=
    l.foldl (fun acc x => ((f acc.1 x).1, acc.2 ||| (f acc.1 x).2)) (v, 0)
  let stops (i : Instr) : Prop := s.TrapsOn i .illop
  s.VecReady .never (some (d.toNat, 1)) [(a.toNat, 1), (b.toNat, l)] (a.toNat % 2 ≠ b.toNat % 2) [] →
  (c.Fits w l → s.st.vstart = 0 →
    ints (.vredsum d a b k) (fun x y => (x + y) % 2 ^ n)
    ∧ ints (.vredmin d a b k) (fun x y => if sg x ≤ sg y then x else y)
    ∧ ints (.vredmax d a b k) (fun x y => if sg y ≤ sg x then x else y)
    ∧ ints (.vredminu d a b k) min ∧ ints (.vredmaxu d a b k) max
    ∧ ints (.vredand d a b k) (fun x y => x &&& y) ∧ ints (.vredor d a b k) (fun x y => x ||| y)
    ∧ ints (.vredxor d a b k) (fun x y => x ^^^ y)
    ∧ (c.sew ≠ 3 → reduces (.vwredsum d a b k) (2 * w) fun r v =>
        ((BitVec.ofInt (2 * n) (v + ((xs r).map sg).sum)).toNat, 0))
    ∧ (c.sew ≠ 0 →
      (reduces (.vfredo d a b k) w fun r v => fold (fun x y => c.fmt.add c.rm x y) (xs r) v)
      ∧ (reduces (.vfredt d a b k) w fun r v => redTree c v ((places r).map fun e => (e, elemRd s.hart.v c.g w b.toNat r e)))
      ∧ (reduces (.vfredx d a b k) w fun r v => redExact c v ((places r).map fun e => (e, elemRd s.hart.v c.g w b.toNat r e)))
      ∧ (reduces (.vfredmin d a b k) w fun r v => fold (fun x y => c.fmt.minmax false x y) (xs r) v)
      ∧ reduces (.vfredmax d a b k) w fun r v => fold (fun x y => c.fmt.minmax true x y) (xs r) v))
  ∧ (c.sew = 3 → stops (.vwredsum d a b k))
  ∧ (c.sew = 0 → stops (.vfredo d a b k) ∧ stops (.vfredt d a b k) ∧ stops (.vfredx d a b k) ∧ stops (.vfredmin d a b k)
    ∧ stops (.vfredmax d a b k))
  ∧ (s.st.vstart ≠ 0 → stops (.vredsum d a b k) ∧ stops (.vredmin d a b k) ∧ stops (.vredmax d a b k)
    ∧ stops (.vredminu d a b k) ∧ stops (.vredmaxu d a b k) ∧ stops (.vredand d a b k) ∧ stops (.vredor d a b k)
    ∧ stops (.vredxor d a b k) ∧ stops (.vwredsum d a b k) ∧ stops (.vfredo d a b k) ∧ stops (.vfredt d a b k)
    ∧ stops (.vfredx d a b k) ∧ stops (.vfredmin d a b k) ∧ stops (.vfredmax d a b k))

/-- R200, R202-R209: slides, permutes, reshape and row moves: the element of vs1 that each active position takes; with
VSTART other than 0, a slide with a reserved fill code or SCALAR and no g[vs2 + 1], and a VRESHAPE of a shape that does not
divide VL, they raise ILLOP. -/
def Obligations.VectorPermutes : Prop := ∀ (s : State) (d a b : Reg) (k : BitVec 3),
  let c := s.vcfg
  let l := c.lmul
  let w := 2 ^ c.sew
  let n := 8 * w
  let el (q : Reg) (r e : Nat) : Nat := elemRd s.hart.v c.g w q.toNat r e
  let g := (s.rd b).toNat
  let gives (i : Instr) (val : Nat → Nat → Nat) : Prop := s.Elementwise i d k.toNat w l fun r e => (val r e, 0)
  let ready (srcs : List Reg) (bank : Prop) (regs : List Reg) : Prop :=
    s.VecReady .never (some (d.toNat, l)) (srcs.map fun q => (q.toNat, l)) bank regs
  let sel (r : Nat) : List Nat := (List.range c.vl).filter fun e => maskRd s.hart.m k.toNat r e
  let fill : Option Nat :=
    match g / 65536 % 16 with
    | 0 => none
    | 1 => some 0
    | 2 => some (2 ^ (n - 1))
    | 3 => some (if c.sew = 3 then 0x3FF0000000000000 else if c.sew = 2 then 0x3F800000
        else if c.sew = 1 then (if c.alt then 0x3F80 else 0x3C00) else if c.alt then 0x3C else 0x38)
    | 4 => some (c.fmt.inf.getD c.fmt.maxBits)
    | 5 => some (2 ^ (n - 1) + c.fmt.inf.getD c.fmt.maxBits)
    | 6 => some (2 ^ n - 1)
    | 7 => some 1
    | 8 => some (2 ^ (n - 1) - 1)
    | 9 => some (2 ^ (n - 1))
    | _ => some ((s.rd (b + 1)).toNat % 2 ^ n)
  let shifted (fill : Option Nat) (r e : Nat) (src : Int) : Nat :=
    if 0 ≤ src ∧ src < c.vl then el a r src.toNat else fill.getD (el d r e)
  (c.Fits w l → s.st.vstart = 0 →
    (g / 65536 % 16 ≤ 10 → (g / 65536 % 16 = 10 → b ≠ 31) → ready [a] True (if g / 65536 % 16 = 10 then [b, b + 1] else [b]) →
      gives (.vslup d a b k) (fun r e => shifted fill r e ((e : Int) - (g % 65536 : Nat)))
      ∧ gives (.vsldn d a b k) fun r e => shifted fill r e ((e : Int) + (g % 65536 : Nat)))
    ∧ (ready [a] True [b] →
      gives (.vsl1up d a b k) (fun r e => shifted (some (g % 2 ^ n)) r e ((e : Int) - 1))
      ∧ gives (.vsl1dn d a b k) (fun r e => shifted (some (g % 2 ^ n)) r e ((e : Int) + 1))
      ∧ ((c.vl = 0 ∨ (g % 65536 ≠ 0 ∧ c.vl % (g % 65536) = 0)) →
        gives (.vreshape d a b k) fun r e =>
          el a r (e % (c.vl / (g % 65536)) * (g % 65536) + e / (c.vl / (g % 65536))))
      ∧ gives (.vrowb d a b k) (fun _ e => el a (g % 8) e)
      ∧ gives (.vrowx d a b k) fun r e =>
          el a (if r = g % 8 then g / 256 % 8 else if r = g / 256 % 8 then g % 8 else r) e)
    ∧ (ready [a, b] (a.toNat % 2 ≠ b.toNat % 2) [] →
      gives (.vperm d a b k) fun r e => if el b r e < c.vl then el a r (el b r e) else 0)
    ∧ (ready [a] True [] →
      (∃ t, exec (.vcompr d a k) s = .next t ∧ s.VecSet t (.vcompr d a k) d 0
        ∧ (∀ r e, r < 8 → e < l * rowElems c.g w → elemRd t.hart.v c.g w d.toNat r e
            = if r < c.rc then (if e < (sel r).length then el a r ((sel r).getD e 0) else if c.tp then 0 else el d r e)
              else el d r e)
        ∧ ∀ q r o, r < 8 → o < 2048 → (q < d.toNat ∨ d.toNat + l ≤ q) →
            Sparse.get 0 t.hart.v (vKey q r o) = Sparse.get 0 s.hart.v (vKey q r o))
      ∧ gives (.vexpd d a k) fun r e => el a r ((sel r).idxOf e)))
  ∧ (ready [a] True (if g / 65536 % 16 = 10 ∧ b ≠ 31 then [b, b + 1] else [b]) →
    s.st.vstart ≠ 0 ∨ 11 ≤ g / 65536 % 16 ∨ (g / 65536 % 16 = 10 ∧ b = 31) →
    s.TrapsOn (.vslup d a b k) .illop ∧ s.TrapsOn (.vsldn d a b k) .illop)
  ∧ (ready [a] True [b] → c.vl ≠ 0 → g % 65536 = 0 ∨ c.vl % (g % 65536) ≠ 0 → s.TrapsOn (.vreshape d a b k) .illop)
  ∧ (s.st.vstart ≠ 0 →
    (ready [a] True [b] → s.TrapsOn (.vsl1up d a b k) .illop ∧ s.TrapsOn (.vsl1dn d a b k) .illop
      ∧ s.TrapsOn (.vreshape d a b k) .illop ∧ s.TrapsOn (.vrowb d a b k) .illop ∧ s.TrapsOn (.vrowx d a b k) .illop)
    ∧ (ready [a, b] (a.toNat % 2 ≠ b.toNat % 2) [] → s.TrapsOn (.vperm d a b k) .illop)
    ∧ (ready [a] True [] → s.TrapsOn (.vcompr d a k) .illop ∧ s.TrapsOn (.vexpd d a k) .illop))

/-- R210: VEXTR gives g[d] the element that g[b] names, or 0 beyond the group; VINSR writes it; neither heeds VL, RC,
VSTART or a policy; a mask field in them raises ILLOP. R147, R148, R149, R200, R211-R213: VPOPQ takes the oldest tile of its
queue when its geometry is the stream's, raises QGEOM with both geometries when it is not, and waits whole on an empty queue;
VPSHQ adds a tile of the stream's geometry to tq2, waits on a full tq2 at the head of the vector queue while the stream goes
on, and raises QGEOM for one larger than its slot; without a feeder both raise ILLOP. That VPOPQ gives up the turn while it waits
is the model's choice (log 4). -/
def Obligations.ElementAndTileMoves : Prop :=
  (∀ (s : State) (d a b : Reg) (k : BitVec 3),
    let c := s.vcfg
    let l := c.lmul
    let w := 2 ^ c.sew
    let row := (s.rd b).toNat / 65536 % 8
    let e := (s.rd b).toNat % 65536
    let inside := e < l * rowElems c.g w
    1 ≤ c.g → c.g ≤ 8 →
    (s.VecReady .never none [(a.toNat, l)] True [d, b] →
      (k ≠ 0 → s.TrapsOn (.vextr d a ⟨b, k⟩) .illop)
      ∧ ∃ t u, exec (.vextr d a ⟨b, 0⟩) s = .next t ∧ t = { u with frq := t.frq } ∧ (s.hart.poison = [] → t = u)
        ∧ u.hart.v = s.hart.v ∧ u.hart.m = s.hart.m
        ∧ s.VecPassed u (.vextr d a ⟨b, 0⟩)
            { (s.st.wr d (BitVec.ofNat 64 (if inside then elemRd s.hart.v c.g w a.toNat row e else 0))) with lastG := d })
    ∧ (s.VecReady .never (some (d.toNat, l)) [] True [b, a] →
      (k ≠ 0 → s.TrapsOn (.vinsr d a ⟨b, k⟩) .illop)
      ∧ ∃ t, exec (.vinsr d a ⟨b, 0⟩) s = .next t ∧ s.VecPassed t (.vinsr d a ⟨b, 0⟩) { s.st with lastV := d }
        ∧ t.hart.m = s.hart.m ∧ t.hart.poison = s.hart.poison
        ∧ (¬inside → t.hart.v = s.hart.v)
        ∧ (inside → elemRd t.hart.v c.g w d.toNat row e = (s.rd a).toNat % 2 ^ (8 * w))
        ∧ ∀ n r o, r < 8 → o < 2048 →
            (∀ j, j < w → vKey n r o ≠ elemKey c.g w d.toNat row e + j) →
            Sparse.get 0 t.hart.v (vKey n r o) = Sparse.get 0 s.hart.v (vKey n r o)))
  ∧ (∀ (s : State) (d a : Reg) (q : BitVec 2) (k : BitVec 3),
    let c := s.vcfg
    let l := c.lmul
    let w := 2 ^ c.sew
    let half (sew rc vl : Nat) : BitVec 32 := BitVec.ofNat 32 (sew * 2 ^ 20 + rc % 16 * 2 ^ 16 + vl % 2 ^ 16)
    let pop : Instr := .vpopq d q k
    let push : Instr := .vpshq q ⟨a, 0⟩
    (s.VecReady .never (some (d.toNat, l)) [] True [] →
      (s.st.vstart ≠ 0 ∨ q = 2 ∨ s.hart.hasFeeder = false → s.TrapsOn pop .illop)
      ∧ (s.st.vstart = 0 → q.toNat < 2 → s.hart.hasFeeder = true →
        ((∀ t rest, vget s.hart.tq [] q.toNat = t :: rest → t.full = false) → s.Waits pop)
        ∧ ∀ t rest, vget s.hart.tq [] q.toNat = t :: rest → t.full = true →
          ((t.sew.toNat, t.rc, t.vl) ≠ (c.sew, c.rc, c.vl) →
            s.Traps pop .qgeom (half c.sew c.rc c.vl ++ half t.sew.toNat t.rc t.vl))
          ∧ ((t.sew.toNat, t.rc, t.vl) = (c.sew, c.rc, c.vl) → c.Fits w l →
            ∃ u v, exec pop s = .next u ∧ u = { v with hart := { v.hart with tq := u.hart.tq } }
              ∧ s.VecSet v pop d 0 ∧ u.hart.tq = vset s.hart.tq q.toNat rest
              ∧ s.VecWrote u c (c.active s.hart.m k.toNat) w l d.toNat fun r e =>
                  leNat ((t.bytes.drop ((r * c.vl + e) * w)).take w))))
    ∧ (s.VecReady .never none [(a.toNat, l)] True [] →
      (s.st.vstart ≠ 0 ∨ k ≠ 0 ∨ q ≠ 2 ∨ s.hart.hasFeeder = false → s.TrapsOn (.vpshq q ⟨a, k⟩) .illop)
      ∧ (s.st.vstart = 0 → q = 2 → s.hart.hasFeeder = true →
        (1536 * s.hart.share < c.rc * c.vl * w → s.Traps push .qgeom (half c.sew c.rc c.vl ++ half c.sew c.rc c.vl))
        ∧ (c.rc * c.vl * w ≤ 1536 * s.hart.share → 2 ≤ (s.hart.tq[2]).length →
          ∃ t e, exec push s = .next t ∧ t.st = s.st.advance (encodeNat push) 4 ∧ t.hart.vq = [e]
            ∧ e.word = BitVec.ofNat 32 (encodeNat push) ∧ e.pc = s.st.pc ∧ e.vtype = s.st.vtype ∧ (e.vl, e.rc) = (s.st.vl, s.st.rc)
            ∧ { t with hart := { t.hart with main := s.hart.main, vq := [] } } = s)
        ∧ (c.rc * c.vl * w ≤ 1536 * s.hart.share → (s.hart.tq[2]).length < 2 →
          ∃ u v t, exec push s = .next u ∧ u = { v with hart := { v.hart with tq := u.hart.tq } }
            ∧ s.VecPassed v push s.st ∧ v.hart.v = s.hart.v ∧ v.hart.m = s.hart.m
            ∧ u.hart.tq = s.hart.tq.set 2 (s.hart.tq[2] ++ [t])
            ∧ t.full = true ∧ (t.sew.toNat, t.rc, t.vl) = (c.sew, c.rc, c.vl) ∧ t.bytes.length = c.rc * c.vl * w
            ∧ ∀ r e, r < c.rc → e < c.vl → leNat ((t.bytes.drop ((r * c.vl + e) * w)).take w) = elemRd s.hart.v c.g w a.toNat r e))))

/-- R156, R299-R302, R310: a load of the main stream gives each active position the value at its address and the other
positions what their class says; VLDFF with no active position writes only the tail, and one that meets a fault after
its first active position shortens VL and loads the positions before it. -/
def Obligations.VectorLoads : Prop := ∀ (s : State) (d a b : Reg) (k : BitVec 3) (xl : Nat → Nat → Xl),
  let c := s.vcfg
  let l := c.lmul
  let w := 2 ^ c.sew
  let act := c.active s.hart.m k.toNat
  let base := s.rd a
  let step := s.rd b
  let index (r e : Nat) : Nat := elemRd s.hart.v c.g w b.toNat r e
  let clean : Prop := ∀ r e, r < c.rc → e < c.vl → act r e = true → s.isPoisoned (s.agent.readAt (xl r e)) w = false
  let ready (srcs : List (Nat × Nat)) (gs : List Reg) : Prop := s.VecReady .copy (some (d.toNat, l)) srcs True gs
  let loads (i : Instr) (x : Access) (addr : Nat → Nat → Word) : Prop := s.Reaches x act addr xl → clean →
    s.Elementwise i d k.toNat w l fun r e => (s.mem.readLe (s.agent.readAt (xl r e)) w, 0)
  let flat (r e : Nat) : Word := base + BitVec.ofNat 64 ((r * c.vl + e) * w)
  c.Fits w l → s.Quiet →
  (ready [] [a] → loads (.vld d a k) (.plain 0 w) flat)
  ∧ (ready [] [b, a] →
    loads (.vlds d a b k) (.plain 0 w) (fun r e => base + BitVec.ofNat 64 (r * c.vl + e) * step)
    ∧ loads (.vldr d a b k) (.plain 0 w) (fun r e => base + BitVec.ofNat 64 r * step + BitVec.ofNat 64 (e * w))
    ∧ loads (.vldt d a b k) (.plain 0 w) fun r e => base + BitVec.ofNat 64 e * step + BitVec.ofNat 64 (r * w))
  ∧ (ready [(b.toNat, l)] [a] → s.M0Clear → Apart (d.toNat, l) (b.toNat, l) →
    loads (.vldx d a b k) (.plain 0 w) (fun r e => base + BitVec.ofNat 64 (index r e))
    ∧ (2 ≤ c.sew → base.toNat % 2 ^ 20 = 0 →
      loads (.vldq d a b k) ⟨0, w, .plain, some (quadTcms s)⟩ fun r e => base + BitVec.ofNat 64 (index r e % 2 ^ 20)))
  ∧ (ready [] [a] → c.rc = 1 →
    ((∃ e, e < c.vl ∧ act 0 e = true) → loads (.vldff d a k) (.plain 0 w) flat)
    ∧ ((∀ e, e < c.vl → act 0 e = false) →
      ∃ t, exec (.vldff d a k) s = .next t ∧ s.VecSet t (.vldff d a k) d 0
        ∧ s.VecWrote t { c with mp := false } act w l d.toNat fun _ _ => 0)
    ∧ ∀ q, q < c.vl → act 0 q = true → (∃ e, e < q ∧ act 0 e = true) → clean → base.toNat % w = 0 →
        (∀ e, e < c.vl → act 0 e = true →
          (e < q → s.translate s.agent (.plain 0 w) (flat 0 e) = .ok (xl 0 e) s ∧ (xl 0 e).cls ≠ 1
            ∧ ∀ o, region (xl 0 e).pa ≠ .hub o)
          ∧ (e = q → ∃ f, s.translate s.agent (.plain 0 w) (flat 0 e) = .mem f s)
          ∧ (q < e → (∃ x, s.translate s.agent (.plain 0 w) (flat 0 e) = .ok x s)
              ∨ ∃ f, s.translate s.agent (.plain 0 w) (flat 0 e) = .mem f s)) →
        ∃ t, exec (.vldff d a k) s = .next t
          ∧ s.VecPassed t (.vldff d a k) { s.st with lastV := d, vl := BitVec.ofNat 16 q } ∧ t.hart.m = s.hart.m
          ∧ s.VecWrote t { c with vl := q } act w l d.toNat fun r e => s.mem.readLe (s.agent.readAt (xl r e)) w)

/-- R146-R148, R299, R304: a load of the feeder fills a slot of tq0 or tq1 with a tile of the feeder's geometry, whose
element (row, e) is the value at its address, and writes no register; an index load takes its index tile from tq2. -/
def Obligations.FeederLoads : Prop := ∀ (s : State) (d a b : Reg) (xl : Nat → Nat → Xl),
  let c := s.vcfg
  let w := 2 ^ c.sew
  let q := d.toNat
  let base := s.rd a
  let step := s.rd b
  let all : Nat → Nat → Bool := fun _ _ => true
  let loads (i : Instr) (x : Access) (addr : Nat → Nat → Word) (tq2 : List Tile) : Prop :=
    s.Reaches x all addr xl → (∀ r e, r < c.rc → e < c.vl → s.isPoisoned (s.agent.readAt (xl r e)) w = false) →
    ∃ t tile, exec i s = .next t
      ∧ t.st = { s.st with pc := s.st.pc + 4, vstart := 0, sig := sigAdd s.st.sig (encodeNat i) 4 }
      ∧ { t with hart := { t.hart with tq := s.hart.tq, feed := s.hart.feed } } = s
      ∧ t.hart.tq = vset (vset s.hart.tq q (vget s.hart.tq [] q ++ [tile])) 2 tq2
      ∧ tile.full = true ∧ (tile.sew.toNat, tile.vl, tile.rc) = (c.sew, c.vl, c.rc) ∧ tile.bytes.length = c.rc * c.vl * w
      ∧ ∀ r e, r < c.rc → e < c.vl →
          leNat ((tile.bytes.drop ((r * c.vl + e) * w)).take w) = s.mem.readLe (s.agent.readAt (xl r e)) w
  let free : Prop := s.onFeeder = true ∧ s.atHead = false ∧ s.hart.isControl = false ∧ s.st.pfxp = false ∧ c.lmul = 1
    ∧ q < 2 ∧ s.st.vstart = 0 ∧ s.hart.fm0 = [] ∧ s.Quiet ∧ (vget s.hart.tq [] q).length < 2
    ∧ (∀ t ∈ vget s.hart.tq [] q, t.full = true) ∧ s.streamAhead q = false
  let tq2 := vget s.hart.tq [] 2
  free →
  (s.regWait [a] = false →
    loads (.vld d a 0) (.plain 0 w) (fun r e => base + BitVec.ofNat 64 ((r * c.vl + e) * w)) tq2
    ∧ (c.rc = 1 → loads (.vldff d a 0) (.plain 0 w) (fun r e => base + BitVec.ofNat 64 ((r * c.vl + e) * w)) tq2)
    ∧ ∀ t rest, tq2 = t :: rest → t.full = true → (t.sew.toNat, t.rc, t.vl) = (c.sew, c.rc, c.vl) →
      let index (r e : Nat) : Nat := leNat ((t.bytes.drop ((r * c.vl + e) * w)).take w)
      loads (.vldx d a 2 0) (.plain 0 w) (fun r e => base + BitVec.ofNat 64 (index r e)) rest
      ∧ (2 ≤ c.sew → base.toNat % 2 ^ 20 = 0 →
        loads (.vldq d a 2 0) ⟨0, w, .plain, some (quadTcms s)⟩ (fun r e => base + BitVec.ofNat 64 (index r e % 2 ^ 20)) rest))
  ∧ (s.regWait [b, a] = false →
    loads (.vlds d a b 0) (.plain 0 w) (fun r e => base + BitVec.ofNat 64 (r * c.vl + e) * step) tq2
    ∧ loads (.vldr d a b 0) (.plain 0 w) (fun r e => base + BitVec.ofNat 64 r * step + BitVec.ofNat 64 (e * w)) tq2
    ∧ loads (.vldt d a b 0) (.plain 0 w) (fun r e => base + BitVec.ofNat 64 e * step + BitVec.ofNat 64 (r * w)) tq2)

/-- R299, R300, R303: a store writes the element of each active position to its address in row-major order, and no
other byte of memory; it writes no register. -/
def Obligations.VectorStores : Prop := ∀ (s : State) (d a b : Reg) (k : BitVec 3) (xl : Nat → Nat → Xl),
  let c := s.vcfg
  let l := c.lmul
  let w := 2 ^ c.sew
  let act := c.active s.hart.m k.toNat
  let base := s.rd a
  let step := s.rd b
  let index (r e : Nat) : Nat := elemRd s.hart.v c.g w b.toNat r e
  let block : Bool := c.sew == 3 && c.vl == 8 && c.rc == 1 && s.st.vstart == 0 && k == 0 && !s.st.pfxp && base.toNat % 64 == 0
  let stores (i : Instr) (x : Access) (addr : Nat → Nat → Word) : Prop :=
    s.Quiet → s.Reaches x act addr xl → (∀ r e, r < c.rc → e < c.vl → act r e = true → (xl r e).cls ≠ 3) →
    ∃ t, exec i s = .next t ∧ s.VecStored t i s.st ∧ t.hart.v = s.hart.v ∧ t.hart.m = s.hart.m
      ∧ (∀ m, (∀ p ∈ c.places act, ¬((xl p.1 p.2).pa ≤ m ∧ m < (xl p.1 p.2).pa + w)) → t.mem.byte m = s.mem.byte m)
      ∧ ∀ r e, (r, e) ∈ c.places act →
          (∀ p ∈ c.places act, r * 65536 + e < p.1 * 65536 + p.2 →
            (xl p.1 p.2).pa + w ≤ (xl r e).pa ∨ (xl r e).pa + w ≤ (xl p.1 p.2).pa) →
          t.mem.readLe (xl r e).pa w = elemRd s.hart.v c.g w d.toNat r e
  let ready (srcs : List (Nat × Nat)) (bank : Prop) (gs : List Reg) : Prop :=
    s.VecReady .pred none ((d.toNat, l) :: srcs) bank gs
  (ready [] True [a] →
    stores (.vst d a k) ⟨1, w, if block then .block else .plain, none⟩ fun r e => base + BitVec.ofNat 64 ((r * c.vl + e) * w))
  ∧ (ready [] True [b, a] →
    stores (.vsts d a b k) (.plain 1 w) (fun r e => base + BitVec.ofNat 64 (r * c.vl + e) * step)
    ∧ stores (.vstr d a b k) (.plain 1 w) fun r e => base + BitVec.ofNat 64 r * step + BitVec.ofNat 64 (e * w))
  ∧ (ready [(b.toNat, l)] (d.toNat % 2 ≠ b.toNat % 2) [a] → s.M0Clear →
    stores (.vstx d a b k) (.plain 1 w) (fun r e => base + BitVec.ofNat 64 (index r e))
    ∧ (2 ≤ c.sew → base.toNat % 2 ^ 20 = 0 →
      stores (.vstq d a b k) ⟨1, w, .plain, some (quadTcms s)⟩ fun r e => base + BitVec.ofNat 64 (index r e % 2 ^ 20)))

/-- R312, R313: a VAMO applies its elements one after another in row-major order: memory takes each new value, the
element of vd the old one; every form needs SEW 32 or 64 and an index group apart from vd, else it raises ILLOP. -/
def Obligations.VectorAtomics : Prop := ∀ (s : State) (d a b : Reg) (k : BitVec 3) (sc l q : BitVec 1) (xl : Nat → Nat → Xl),
  let c := s.vcfg
  let g := c.lmul
  let w := 2 ^ c.sew
  let n := 8 * w
  let sg (v : Nat) : Int := (BitVec.ofNat n v).toInt
  let act := c.active s.hart.m k.toNat
  let at_ (p : Nat × Nat) : Nat := s.agent.readAt (xl p.1 p.2)
  let op (p : Nat × Nat) : Nat := elemRd s.hart.v c.g w d.toNat p.1 p.2
  let addr (r e : Nat) : Word := s.rd a + BitVec.ofNat 64 (elemRd s.hart.v c.g w b.toNat r e)
  let amo (i : Instr) (f : Nat → Nat → Nat) : Prop :=
    let apply (m : Mem) (p : Nat × Nat) : Mem := m.writeLe (at_ p) w (f (m.readLe (at_ p) w) (op p))
    let before (r e : Nat) : Mem := ((c.places act).filter fun p => p.1 * 65536 + p.2 < r * 65536 + e).foldl apply s.mem
    s.Reaches (.plain 2 w) act addr xl →
    ∃ t, exec i s = .next t ∧ s.VecStored t i { s.st with lastV := d } ∧ t.hart.m = s.hart.m
      ∧ t.mem = (c.places act).foldl apply s.mem
      ∧ s.VecWrote t c act w g d.toNat fun r e => (before r e).readLe (at_ (r, e)) w
  let fp (isMax : Bool) (x y : Nat) : Nat := ((if c.sew = 2 then fmtF32 else fmtF64).minmax isMax x y).1
  s.VecReady .never (some (d.toNat, g)) [(b.toNat, g)] True [a] →
  (c.Fits w g → 2 ≤ c.sew → Apart (d.toNat, g) (b.toNat, g) → s.M0Clear → s.Quiet →
    amo (.vamoAdd d a b k sc l q) (fun x y => x + y) ∧ amo (.vamoSwp d a b k sc l q) (fun _ y => y)
    ∧ amo (.vamoAnd d a b k sc l q) (fun x y => x &&& y) ∧ amo (.vamoOr d a b k sc l q) (fun x y => x ||| y)
    ∧ amo (.vamoXor d a b k sc l q) (fun x y => x ^^^ y)
    ∧ amo (.vamoMin d a b k sc l q) (fun x y => if sg x ≤ sg y then x else y)
    ∧ amo (.vamoMax d a b k sc l q) (fun x y => if sg y ≤ sg x then x else y)
    ∧ amo (.vamoMinu d a b k sc l q) min ∧ amo (.vamoMaxu d a b k sc l q) max
    ∧ amo (.vamoFmin d a b k sc l q) (fp false) ∧ amo (.vamoFmax d a b k sc l q) (fp true))
  ∧ (c.sew < 2 ∨ ¬Apart (d.toNat, g) (b.toNat, g) →
    s.TrapsOn (.vamoAdd d a b k sc l q) .illop ∧ s.TrapsOn (.vamoSwp d a b k sc l q) .illop
    ∧ s.TrapsOn (.vamoAnd d a b k sc l q) .illop ∧ s.TrapsOn (.vamoOr d a b k sc l q) .illop
    ∧ s.TrapsOn (.vamoXor d a b k sc l q) .illop ∧ s.TrapsOn (.vamoMin d a b k sc l q) .illop
    ∧ s.TrapsOn (.vamoMax d a b k sc l q) .illop ∧ s.TrapsOn (.vamoMinu d a b k sc l q) .illop
    ∧ s.TrapsOn (.vamoMaxu d a b k sc l q) .illop ∧ s.TrapsOn (.vamoFmin d a b k sc l q) .illop
    ∧ s.TrapsOn (.vamoFmax d a b k sc l q) .illop)

/-- R305, R306, R312, R441, R442: a vector access some of whose positions fault stops there: indexed forms have performed every
other position and marked it in m0, the other forms those before the first fault, which VSTART names; no other position is loaded
or stored. R308: where a DEVICE page is among the positions, none has been performed. R307: an access can pause after `n` elements
with the same progress (when it does so is the model's choice, log 4). R309: a block store to an enqueue window gives it its 64
bytes in one write. What one page is follows log 24. -/
def Obligations.VectorFaults : Prop := ∀ (s : State) (d a b : Reg) (k : BitVec 3) (sc rl aq : BitVec 1)
    (xl : Nat → Nat → Xl) (flt : Nat → Nat → Option MemFault),
  let c := s.vcfg
  let l := c.lmul
  let w := 2 ^ c.sew
  let act := c.active s.hart.m k.toNat
  let places := c.places act
  let base := s.rd a
  let step := s.rd b
  let index (r e : Nat) : Nat := elemRd s.hart.v c.g w b.toNat r e
  let key (p : Nat × Nat) : Nat := p.1 * 65536 + p.2
  let bad := places.filter fun p => (flt p.1 p.2).isSome
  let good := places.filter fun p => (flt p.1 p.2).isNone
  let clean : Prop := s.hart.poison = [] ∧ ∀ p ∈ good, s.isPoisoned (s.agent.readAt (xl p.1 p.2)) w = false
  let plain : Prop := (∀ p ∈ good, (xl p.1 p.2).cls ≠ 1 ∧ ∀ o, region (xl p.1 p.2).pa ≠ .hub o)
    ∧ ∀ p ∈ bad, ∀ f, flt p.1 p.2 = some f → s.refusedDevice s.agent f = false
  let device : Prop := (∃ p ∈ good, (xl p.1 p.2).cls = 1) ∨ ∃ p ∈ bad, ∃ f, flt p.1 p.2 = some f ∧ s.refusedDevice s.agent f = true
  let marked (t : State) (on : List (Nat × Nat)) : Prop := ∀ n r e, r < 8 → e < 16384 →
    maskRd t.hart.m n r e = if n = 0 then on.contains (r, e) else maskRd s.hart.m n r e
  let loaded (t : State) (on : List (Nat × Nat)) : Prop := t.mem = s.mem
    ∧ ∀ q ∈ d.toNat :: c.copyBase.toList, ∀ r e, r < 8 → e < l * rowElems c.g w → elemRd t.hart.v c.g w q r e
      = if on.contains (r, e) then s.mem.readLe (s.agent.readAt (xl r e)) w else elemRd s.hart.v c.g w q r e
  let stored (t : State) (on : List (Nat × Nat)) : Prop := t.hart.v = s.hart.v
    ∧ t.mem = on.foldl (fun m p => m.writeLe (xl p.1 p.2).pa w (elemRd s.hart.v c.g w d.toNat p.1 p.2)) s.mem
  let pauses (i : Instr) (x : Access) (addr : Nat → Nat → Word) (u : Stream) (marks : Bool) (keep : List (Nat × Nat) → List Nat)
      (does : State → List (Nat × Nat) → Prop) : Prop :=
    s.Tries x act addr xl flt → ∀ n, plain → (x.acc = 1 → ∀ p ∈ good, (xl p.1 p.2).cls ≠ 2) → bad = [] → s.pause = some n →
      n < places.length →
      let on := places.take n
      ∃ t, exec i s = .next t ∧ t.quantum = 0 ∧ t.pause = none ∧ does t on
        ∧ s.Halfway t i u (if marks then 0 else key (places.getD n (0, 0))) (keep on) true
        ∧ t.hart.run = s.hart.run ∧ t.hart.reason = s.hart.reason ∧ t.hart.events = s.hart.events
        ∧ (marks = true → marked t on) ∧ (marks = false → t.hart.m = s.hart.m)
  let access (i : Instr) (x : Access) (addr : Nat → Nat → Word) (u : Stream) (marks : Bool) (keep : List (Nat × Nat) → List Nat)
      (does : State → List (Nat × Nat) → Prop) : Prop :=
    pauses i x addr u marks keep does ∧ (s.Tries x act addr xl flt →
    (plain → s.pause = none → ∀ p ∈ bad, (∀ q ∈ bad, key p ≤ key q) →
      let on := if marks then good else good.filter fun q => decide (key q < key p)
      ∃ t, exec i s = .next t ∧ t.quantum = 0 ∧ t.pause = none ∧ does t on
        ∧ s.Halfway t i u (if marks then 0 else key p) (keep on) true
        ∧ s.StopsAt t i x.acc flt places (if marks then 0 else key p)
        ∧ (marks = true → marked t on) ∧ (marks = false → t.hart.m = s.hart.m))
    ∧ (device → s.pause = none → bad ≠ [] →
      ∃ t, exec i s = .next t ∧ t.quantum = 0 ∧ t.pause = none ∧ does t [] ∧ s.Halfway t i u 0 [] false ∧ s.StopsAt t i x.acc flt places 0
        ∧ t.hart.m = s.hart.m))
  let keys (on : List (Nat × Nat)) : List Nat := on.map key
  let none_ (_ : List (Nat × Nat)) : List Nat := []
  let u := { s.st with lastV := d }
  let flat (r e : Nat) : Word := base + BitVec.ofNat 64 ((r * c.vl + e) * w)
  let strided (r e : Nat) : Word := base + BitVec.ofNat 64 (r * c.vl + e) * step
  let rows (r e : Nat) : Word := base + BitVec.ofNat 64 r * step + BitVec.ofNat 64 (e * w)
  let indexed (r e : Nat) : Word := base + BitVec.ofNat 64 (index r e)
  let inQuad (r e : Nat) : Word := base + BitVec.ofNat 64 (index r e % 2 ^ 20)
  let block : Bool := c.sew == 3 && c.vl == 8 && c.rc == 1 && k == 0 && !s.st.pfxp && base.toNat % 64 == 0
  let home : Prop := ∀ p ∈ good, (xl p.1 p.2).cls ≠ 3
  c.Fits w l → s.Calm → s.st.vstart = 0 → clean →
  (s.VecReady .copy (some (d.toNat, l)) [] True [a] → access (.vld d a k) (.plain 0 w) flat u false none_ loaded
    ∧ (c.rc = 1 → pauses (.vldff d a k) (.plain 0 w) flat u false none_ loaded))
  ∧ (s.VecReady .copy (some (d.toNat, l)) [] True [b, a] →
    access (.vlds d a b k) (.plain 0 w) strided u false none_ loaded
    ∧ access (.vldr d a b k) (.plain 0 w) rows u false none_ loaded
    ∧ access (.vldt d a b k) (.plain 0 w) (fun r e => base + BitVec.ofNat 64 e * step + BitVec.ofNat 64 (r * w)) u false none_ loaded)
  ∧ (s.VecReady .copy (some (d.toNat, l)) [(b.toNat, l)] True [a] → s.M0Clear → Apart (d.toNat, l) (b.toNat, l) →
    access (.vldx d a b k) (.plain 0 w) indexed u true keys loaded
    ∧ (2 ≤ c.sew → base.toNat % 2 ^ 20 = 0 →
      access (.vldq d a b k) ⟨0, w, .plain, some (quadTcms s)⟩ inQuad u true keys loaded))
  ∧ (home → s.VecReady .pred none [(d.toNat, l)] True [a] →
    access (.vst d a k) ⟨1, w, if block then .block else .plain, none⟩ flat s.st false none_ stored)
  ∧ (home → s.VecReady .pred none [(d.toNat, l)] True [b, a] →
    access (.vsts d a b k) (.plain 1 w) strided s.st false none_ stored
    ∧ access (.vstr d a b k) (.plain 1 w) rows s.st false none_ stored)
  ∧ (home → s.VecReady .pred none [(d.toNat, l), (b.toNat, l)] (d.toNat % 2 ≠ b.toNat % 2) [a] → s.M0Clear →
    access (.vstx d a b k) (.plain 1 w) indexed s.st true none_ stored
    ∧ (2 ≤ c.sew → base.toNat % 2 ^ 20 = 0 →
      access (.vstq d a b k) ⟨1, w, .plain, some (quadTcms s)⟩ inQuad s.st true none_ stored))
  ∧ (s.VecReady .never (some (d.toNat, l)) [(b.toNat, l)] True [a] → 2 ≤ c.sew → Apart (d.toNat, l) (b.toNat, l) → s.M0Clear →
    access (.vamoAdd d a b k sc rl aq) (.plain 2 w) indexed u true keys fun t on =>
      t.mem = on.foldl (fun m p => m.writeLe (s.agent.readAt (xl p.1 p.2)) w
        (m.readLe (s.agent.readAt (xl p.1 p.2)) w + elemRd s.hart.v c.g w d.toNat p.1 p.2)) s.mem)
  ∧ (block = true → s.pause = none → s.VecReady .pred none [(d.toNat, l)] True [a] → s.Tries ⟨1, w, .block, none⟩ act flat xl flt →
    bad = [] → ∀ o n off, (xl 0 0).cls = 1 → region (xl 0 0).pa = .hub o → apertureOf o = none → enqueueWindow o = some (n, off) →
    off % 64 = 0 → off ≠ 0x800 → off ≠ 0x840 →
    ∃ t, exec (.vst d a k) s = .next t ∧ t.hart.v = s.hart.v ∧ t.hart.m = s.hart.m ∧ t.hart.vq = []
      ∧ t.queues = (s.append n ((List.range 8).flatMap fun e => toLe 8 (elemRd s.hart.v c.g w d.toNat 0 e))).queues
      ∧ t.st.pc = s.st.pc + 4 ∧ t.mem = s.mem)

/-- R315-R317: a VWAIT whose active positions all satisfy its comparison completes and marks them; one with a position left waits
at the head of the vector queue while the main stream goes on; its budget's end completes it with the satisfied positions alone.
R316, R317: when the budget of the VWAIT at the head of a hart's vector queue has passed, it completes with the positions latched;
before that, within a round, and for any other head, nothing changes. That a round which nothing interrupts is one step is the
model's (log 4). -/
def Obligations.VectorWaits : Prop :=
  (∀ (s : State) (d k : BitVec 3) (n b : Reg) (xl : Nat → Nat → Xl),
    let c := s.vcfg
    let w := 2 ^ c.sew
    let sg (v : Nat) : Int := (BitVec.ofNat (8 * w) v).toInt
    let act := c.active s.hart.m k.toNat
    let y := (s.rd (n + 1)).toNat % 2 ^ (8 * w)
    let polled (r e : Nat) : Nat := s.mem.readLe (s.agent.readAt (xl r e)) w
    let addr (r e : Nat) : Word := s.rd n + BitVec.ofNat 64 (elemRd s.hart.v c.g w b.toNat r e)
    let some_ : Prop := ∃ r e, r < c.rc ∧ e < c.vl ∧ act r e = true
    let waits (i : Instr) (cc : Nat → Nat → Bool) : Prop :=
      ((∀ r e, r < c.rc → e < c.vl → act r e = true → cc (polled r e) y = true) →
        ∃ t, exec i s = .next t ∧ s.VecPassed t i s.st ∧ t.hart.v = s.hart.v
          ∧ (some_ → s.MaskWrote t c act d.toNat fun _ _ => true)
          ∧ (¬some_ → s.MaskWrote t { c with mp := false } act d.toNat fun _ _ => true))
      ∧ (∀ r e, r < c.rc → e < c.vl → act r e = true → cc (polled r e) y = false → s.rd (n + 2) = 0 →
        ∃ t entry, exec i s = .next t
          ∧ t.st = s.st.advance (encodeNat i) i.size ∧ t.hart.vq = [entry] ∧ entry.word = BitVec.ofNat 32 (encodeNat i)
          ∧ entry.begun = some s.cycle ∧ { t with hart := { t.hart with main := s.hart.main, vq := [] } } = s)
    s.VecReady .never none [(b.toNat, c.lmul)] True [n, n + 1, n + 2] → c.g ≤ 8 → c.rc ≤ 8 → c.vl ≤ 16384 →
    s.Quiet → s.Reaches (.plain 0 w) act addr xl →
    (∀ r e, r < c.rc → e < c.vl → act r e = true → s.isPoisoned (s.agent.readAt (xl r e)) w = false) →
    waits (.vwaitEq d n b k) (fun v y => decide (v = y)) ∧ waits (.vwaitNe d n b k) (fun v y => decide (v ≠ y))
    ∧ waits (.vwaitLt d n b k) (fun v y => decide (sg v < sg y)) ∧ waits (.vwaitGe d n b k) (fun v y => decide (sg y ≤ sg v))
    ∧ waits (.vwaitLtu d n b k) (fun v y => decide (v < y)) ∧ waits (.vwaitGeu d n b k) (fun v y => decide (y ≤ v)))
  ∧ (∀ (s : State) (e : VEntry) (rest : List VEntry) (start : Word),
    s.occupied = true → s.hart.isControl = false → s.hart.run = .running → s.hart.vq = e :: rest → e.begun = some start →
    let ins : Instr := .vwaitBudgetExpiry s.hart.tag
    let budget := e.ops.getD 2 0
    let inRound : Prop := (∃ r ∈ s.hart.device, r.who = 1) ∨ (∃ r ∈ s.hart.aperture, r.who = 1)
      ∨ ∃ v ∈ s.hart.remoteData, v.1 / 2 ^ 32 = 1
    let c := VCfg.of s.hart e
    let w := e.word.toNat
    let act := c.active s.hart.m (w / 2 ^ 22 % 8)
    w % 128 = 0x47 → w / 2 ^ 26 ≤ 5 → c.g ≤ 8 → c.rc ≤ 8 → c.vl ≤ 16384 →
    (¬inRound → budget ≠ 0 → budget ≤ s.cycle - start →
      ∃ t, exec ins s = .next t ∧ t.hart.vq = rest ∧ t.hart.main = { s.hart.main with vstart := 0 }
        ∧ t.hart.vcount = s.hart.vcount + 1
        ∧ { t with hart := { t.hart with main := s.hart.main, vq := s.hart.vq, m := s.hart.m, poison := s.hart.poison
                                         vcount := s.hart.vcount } } = s
        ∧ s.MaskWrote t (if c.places act = [] then { c with mp := false } else c) act (w / 128 % 8)
            fun r p => e.latched.contains (r * 65536 + p))
    ∧ (inRound ∨ budget = 0 ∨ s.cycle - start < budget → exec ins s = .next s))

/-- R149, R216, R217: VAPPEND adds the selected positions to the index array from HEAD on, each at slot (HEAD + j) mod CAP,
raises HEAD by their number, and pushes into q0 a notice for every VLMAX entries since NOTED; a notice without room waits at the
head of the vector queue while the main stream goes on; without a selected position it only completes. That NOTED above HEAD
gives no notice is read from the rule (log 22); that the ILLOP comes before MISALIGN is the model's choice (log 43). -/
def Obligations.VectorAppend : Prop := ∀ (s : State) (b : Reg) (k : BitVec 3) (xd xw xe : Nat → Xl),
  let c := s.vcfg
  let i : Instr := .vappend b k
  let act := c.active s.hart.m k.toNat
  let sel := c.places act
  let d := s.rd b
  let word (j : Nat) : Nat := s.mem.readLe (s.agent.readAt (xd j)) 8
  let base : Word := BitVec.ofNat 64 (word 0)
  let cap := word 1 % 2 ^ 32
  let offset := word 1 / 2 ^ 32
  let head := word 2
  let noted := word 3
  let vlmax := s.vlmax
  let q0 := s.hart.queue 0
  let notices := if vlmax = 0 then 0 else ((head + sel.length) % 2 ^ 64 - noted) / vlmax
  let pushed := min notices (32 - q0.length)
  let memory (x : Xl) : Prop := (∀ o, region x.pa ≠ .hub o) ∧ x.cls ≠ 1 ∧ x.cls ≠ 3
  s.VecReady .never none [] True [b] → s.Quiet → q0.length ≤ 32 →
  (s.st.vstart ≠ 0 ∨ s.hart.hasFeeder = false → s.TrapsOn i .illop)
  ∧ (s.st.vstart = 0 → s.hart.hasFeeder = true →
    (d.toNat % 32 ≠ 0 → s.Traps i .misalign d)
    ∧ (d.toNat % 32 = 0 →
      (∀ j, j < 4 → s.translate s.agent (.plain 0 8) (d + BitVec.ofNat 64 (8 * j)) = .ok (xd j) s ∧ memory (xd j)
        ∧ s.isPoisoned (s.agent.readAt (xd j)) 8 = false) →
      (cap = 0 → s.TrapsOn i .illop)
      ∧ (cap ≠ 0 → base.toNat % 4 ≠ 0 → s.Traps i .misalign base)
      ∧ (cap ≠ 0 → base.toNat % 4 = 0 → sel = [] → ∃ t, exec i s = .next t ∧ s.VecPassed t i s.st
          ∧ t.hart.v = s.hart.v ∧ t.hart.m = s.hart.m)
      ∧ (cap ≠ 0 → base.toNat % 4 = 0 → sel ≠ [] →
        (∀ j, j < 2 → s.translate s.agent (.plain 1 8) (d + BitVec.ofNat 64 (16 + 8 * j)) = .ok (xw j) s ∧ memory (xw j)) →
        (∀ j, j < sel.length →
          s.translate s.agent (.plain 1 4) (base + BitVec.ofNat 64 (4 * ((head + j) % cap))) = .ok (xe j) s ∧ memory (xe j)) →
        ∃ t u, exec i s = .next t ∧ s.VecStored u i s.st ∧ u.hart.v = s.hart.v ∧ u.hart.m = s.hart.m
          ∧ t.mem = u.mem ∧ t.hart.queue 0 = q0 ++ (List.range pushed).map (fun j => BitVec.ofNat 64 (noted + (j + 1) * vlmax))
          ∧ (pushed = notices → t = { u with hart := u.hart.setQueue 0 (t.hart.queue 0) })
          ∧ (pushed < notices → ∃ e, t.hart.vq = [e] ∧ e.word = BitVec.ofNat 32 (encodeNat i) ∧ e.latched = [notices - pushed]
              ∧ e.begun = some (BitVec.ofNat 64 (noted + pushed * vlmax))
              ∧ t = { u with hart := { (u.hart.setQueue 0 (t.hart.queue 0)) with vq := t.hart.vq, vcount := s.hart.vcount } })
          ∧ t.mem = (List.range sel.length).foldl (fun m j =>
              m.writeLe (xe j).pa 4 (offset + (sel.getD j (0, 0)).1 * c.vl + (sel.getD j (0, 0)).2))
              ((s.mem.writeLe (xw 0).pa 8 (head + sel.length)).writeLe (xw 1).pa 8 (noted + notices * vlmax)))))

/-- R222, R229-R232, R237, R238: MATTACH takes up to g[b] of the quad's free macros, zeroed; MDETACH gives them back; MFMT sets
the format and zeroes them; MACCZ zeroes the accumulators; MCHK gives the mismatch record and clears it. R226, R227: a quad
without a pending MMUL gives its power token back, and the free tokens go to waiting quads one after another, each to the first
waiting quad after the one granted last; a quad with one keeps it. The ring as it stands before any grant is the model's (log 5).
-/
def Obligations.MatrixOwnershipAndTokens : Prop :=
  (∀ (s : State) (d b : Reg),
    let n := (s.rd b).toNat
    let owned := sumNat ((s.allHarts.filter fun h => !h.isControl && idDie h.hartid == idDie s.hart.hartid
      && idQuad h.hartid == idQuad s.hart.hartid).map (·.mcount))
    let zeroed (t : State) : Prop := t.hart.mb = [] ∧ t.hart.mscale = [] ∧ t.hart.macc = [] ∧ t.hart.mcs = []
    let kept (t : State) : Prop := t.hart.tq = s.hart.tq ∧ t.tokens = s.tokens
    let sound : Prop := n < 256 ∧ n % 16 ≤ 6 ∧ (n % 16 ≠ 0 → n / 64 = 0) ∧ (n % 16 ≠ 3 → n / 16 % 4 = 0)
    (s.VecReady .never none [] True [b] →
      (s.hart.mcount = 0 → n ≤ 16 → ∃ t, exec (.mattach b) s = .next t ∧ s.MatPassed t (.mattach b) s.st ∧ zeroed t ∧ kept t
        ∧ t.hart.mcount = min n (16 - owned) ∧ t.hart.mfmt = s.hart.mfmt ∧ t.hart.mmiss = 0 ∧ t.hart.mmissMac = 0)
      ∧ (s.hart.mcount ≠ 0 ∨ 16 < n → s.TrapsOn (.mattach b) .illop)
      ∧ (sound → ∃ t, exec (.mfmt b) s = .next t ∧ s.MatPassed t (.mfmt b) s.st ∧ zeroed t ∧ kept t
        ∧ t.hart.mfmt = (s.rd b).setWidth 8 ∧ t.hart.mcount = s.hart.mcount
        ∧ t.hart.mmiss = s.hart.mmiss ∧ t.hart.mmissMac = s.hart.mmissMac)
      ∧ (¬sound → s.TrapsOn (.mfmt b) .illop))
    ∧ (s.VecReady .never none [] True [] →
      (∃ t, exec .mdetach s = .next t ∧ s.MatPassed t .mdetach s.st ∧ zeroed t ∧ kept t ∧ t.hart.mcount = 0
        ∧ t.hart.mfmt = s.hart.mfmt ∧ t.hart.mmiss = s.hart.mmiss ∧ t.hart.mmissMac = s.hart.mmissMac)
      ∧ (s.hart.mcount ≠ 0 → ∃ t, exec .maccz s = .next t ∧ s.MatPassed t .maccz s.st ∧ t.hart.macc = []
        ∧ s.SameMacros { t with hart := { t.hart with macc := s.hart.macc } })
      ∧ (s.hart.mcount = 0 → s.TrapsOn .maccz .illop))
    ∧ (s.VecReady .never none [] True [d] →
      ∃ t, exec (.mchk d) s = .next t ∧ t.hart.mmiss = 0 ∧ t.hart.mmissMac = 0
        ∧ s.MatPassed t (.mchk d) { (s.st.wr d (s.hart.mmiss ++ 0#16 ++ s.hart.mmissMac)) with lastG := d }
        ∧ s.SameMacros { t with hart := { t.hart with mmiss := s.hart.mmiss, mmissMac := s.hart.mmissMac } }))
  ∧ (∀ (s : State) (d q : Nat), d < 4 →
    let i : Instr := .powerTokenIdleReturn d q
    let ring := s.ring d
    (s.mmulPending d q = true → exec i s = .next s)
    ∧ (s.mmulPending d q = false → ∃ t, exec i s = .next t ∧ { t with tokens := s.tokens } = s
      ∧ (∀ e, e ≠ d → t.ring e = s.ring e)
      ∧ (∀ x ∈ (t.ring d).holders, x.1 ≠ q)
      ∧ (∀ x ∈ ring.holders, x.1 ≠ q → x ∈ (t.ring d).holders)
      ∧ (ring.waiting.Nodup → (∀ w ∈ ring.waiting, w < 32) →
          let kept := ring.holders.filter fun x => x.1 != q
          let after (p w : Nat) : Nat := (w + 63 - p % 32) % 32
          ∃ g : List Nat, g.length = min ((vget s.hub.pwrTokens 24 d).toNat - kept.length) ring.waiting.length
            ∧ (t.ring d).holders = kept ++ g.map (fun w => (w, 0))
            ∧ (t.ring d).waiting = ring.waiting.filter (fun w => !g.contains w) ∧ (t.ring d).last = g.getLastD ring.last
            ∧ ∀ (j w : Nat), g[j]? = some w → w ∈ ring.waiting ∧ w ∉ g.take j
              ∧ ∀ v ∈ ring.waiting, v ∉ g.take j → after ((ring.last :: g).getD j 0) w ≤ after ((ring.last :: g).getD j 0) v)))

/-- R229, R233, R234, R238: MLDB puts the elements of a register group into B of one macro, or into its scales; MLDBM the elements
at an address of the quad's scratchpad; the checksum column follows B; no other element, scale or accumulator changes; a selector
out of range, VSTART other than 0 or another SEW or ALT raises ILLOP. R226, R229, R235: MMUL, once its quad holds a power token,
adds row r of A times column n of each macro's B into accumulator (macro, r, n), by the mode's rule, and ORs the flags; the rows
from RC on keep their accumulators; from a tile queue it removes its tile; with VL = 0 it does no more than that; without a token
to have it waits (log 4). R238: the (macro, row) pairs whose sums disagree, which pairs being left open (the model's log 25), add
to the mismatch record. -/
def Obligations.MatrixLoadAndMultiply : Prop :=
  (∀ (s : State) (a b : Reg) (xl : Nat → Nat → Xl),
    let c := s.vcfg
    let m := Mode.of s.hart.mfmt
    let sel := s.rd b
    let scale := sel.getLsbD 24
    let mac := (sel.setWidth 4).toNat
    let krow := ((sel >>> 8).setWidth 8).toNat
    let col := ((sel >>> 16).setWidth 7).toNat
    let fits (rows cols : Nat) : Prop := s.hart.mcount ≠ 0 ∧ sel.getLsbD 23 = false ∧ (sel >>> 4).setWidth 4 = 0#4
      ∧ (scale = true → m.mx = true) ∧ col < m.cols ∧ mac < s.hart.mcount ∧ col + cols ≤ m.cols
      ∧ (if scale then krow ≤ 7 ∧ krow + rows ≤ 8 else krow + rows ≤ 256)
    let summed (t : State) (q k : Nat) : BitVec 32 :=
      BitVec.ofInt 32 ((List.range m.cols).map fun n => (t.hart.qColumn q (k / 16) n).getD (k % 16) 0).sum
    let loaded (t : State) (rows cols : Nat) (x : Nat → Nat → Nat) : Prop :=
      t.hart.macc = s.hart.macc ∧ t.hart.mcount = s.hart.mcount ∧ t.hart.mfmt = s.hart.mfmt
      ∧ t.hart.mmiss = s.hart.mmiss ∧ t.hart.mmissMac = s.hart.mmissMac ∧ t.hart.tq = s.hart.tq ∧ t.tokens = s.tokens
      ∧ (scale = false → t.hart.mscale = s.hart.mscale
        ∧ (∀ q k n, k < 256 → n < 128 → Sparse.get 0 t.hart.mb (bKey q k n) =
          if q = mac ∧ krow ≤ k ∧ k < krow + rows ∧ col ≤ n ∧ n < col + cols then BitVec.ofNat 64 (x (k - krow) (n - col))
          else Sparse.get 0 s.hart.mb (bKey q k n))
        ∧ ∀ q k, k < 256 → Sparse.get 0 t.hart.mcs (q * 256 + k) =
          if q = mac ∧ 0 < rows ∧ 0 < cols ∧ krow / 16 ≤ k / 16 ∧ k / 16 ≤ (krow + rows - 1) / 16 then summed t q k
          else Sparse.get 0 s.hart.mcs (q * 256 + k))
      ∧ (scale = true → t.hart.mb = s.hart.mb ∧ t.hart.mcs = s.hart.mcs
        ∧ ∀ q j n, j < 8 → n < 128 → Sparse.get 0 t.hart.mscale (scaleKey q j n) =
          if q = mac ∧ krow ≤ j ∧ j < krow + rows ∧ col ≤ n ∧ n < col + cols then BitVec.ofNat 8 (x (j - krow) (n - col))
          else Sparse.get 0 s.hart.mscale (scaleKey q j n))
    let w := if scale then 1 else 2 ^ m.sew
    let rows := ((sel >>> 32).setWidth 8).toNat + 1
    let cols := ((sel >>> 40).setWidth 7).toNat + 1
    let pitch := (sel >>> 48).toNat
    let spad := 0x9000000000 + idDie s.hart.hartid * 0x4000000 + idQuad s.hart.hartid * 0x200000
    let addr (r n : Nat) : Word := s.rd a + BitVec.ofNat 64 (r * pitch + n * w)
    let soundReg : Prop := s.st.vstart = 0 ∧ sel.toNat < 2 ^ 25 ∧ fits c.rc c.vl
      ∧ (if scale then c.sew = 0 else c.sew = m.sew ∧ (m.code = 3 → c.alt = m.balt))
    let soundMem : Prop := sel.getLsbD 47 = false ∧ (sel >>> 25).setWidth 7 = 0#7 ∧ fits rows cols
    (s.VecReady .never none [(a.toNat, c.lmul)] True [b] →
      (soundReg → ∃ t, exec (.mldb a b) s = .next t ∧ s.MatPassed t (.mldb a b) s.st
        ∧ loaded t c.rc c.vl fun r e => elemRd s.hart.v c.g (2 ^ c.sew) a.toNat r e)
      ∧ (¬soundReg → s.TrapsOn (.mldb a b) .illop))
    ∧ (s.VecReady .never none [] True [b, a] →
      (¬soundMem → s.TrapsOn (.mldbm a b) .illop)
      ∧ (soundMem → (s.rd a).toNat % w ≠ 0 ∨ pitch % w ≠ 0 → s.Traps (.mldbm a b) .misalign (s.rd a))
      ∧ (soundMem → (s.rd a).toNat % w = 0 → pitch % w = 0 → s.Quiet →
        (∀ r n, r < rows → n < cols → (xl r n).cls ≠ 1 ∧ (∀ o, region (xl r n).pa ≠ .hub o)
          ∧ s.translate s.agent ⟨0, w, .plain, some (spad, 0x200000, true)⟩ (addr r n) = .ok (xl r n) s
          ∧ s.isPoisoned (s.agent.readAt (xl r n)) w = false) →
        ∃ t, exec (.mldbm a b) s = .next t ∧ s.MatPassed t (.mldbm a b) s.st
          ∧ loaded t rows cols fun r n => s.mem.readLe (s.agent.readAt (xl r n)) w)))
  ∧ (∀ (s : State) (a : Reg) (q : BitVec 1),
    let c := s.vcfg
    let m := Mode.of s.hart.mfmt
    let die := idDie s.hart.hartid
    let quad := idQuad s.hart.hartid
    let held : Prop := ∃ x ∈ (s.ring die).holders, x.1 = quad
    let none_ : Prop := (∀ x ∈ (s.ring die).holders, x.1 ≠ quad ∧ x.2 < 64)
      ∧ (vget s.hub.pwrTokens 24 die).toNat ≤ (s.ring die).holders.length
    let shape (mxOk : Bool) : Prop := s.hart.mcount ≠ 0 ∧ s.st.vstart = 0 ∧ c.sew = m.sew ∧ (m.code = 3 → c.alt = m.aalt)
      ∧ (m.code = 4 → c.alt = true) ∧ (5 ≤ m.code → c.alt = false) ∧ c.vl ≤ 256 ∧ (m.mx = true → c.vl % 32 = 0 ∧ mxOk = true)
    let dot (el sc : Nat → Nat → Nat) (i r n : Nat) : Acc × BitVec 7 :=
      m.dot (Sparse.get Acc.zero s.hart.macc (accKey i r n)) ((List.range c.vl).map (el r))
        ((List.range c.vl).map fun k => (Sparse.get 0 s.hart.mb (bKey i k n)).toNat)
        ((List.range (c.vl / 32)).map (sc r))
        ((List.range (c.vl / 32)).map fun j => (Sparse.get 0 s.hart.mscale (scaleKey i j n)).toNat)
    let multiplied (ins : Instr) (el sc : Nat → Nat → Nat) (tq : Vector (List Tile) 3) : Prop :=
      ∃ (t u : State) (fl : BitVec 7) (miss : List (Nat × Nat)), exec ins s = .next t
        ∧ s.MatPassed u ins { s.st with flags := s.st.flags ||| fl } ∧ t.hart.tq = tq
        ∧ t = { u with freeCtr := if 0 < c.vl then s.freeCtr + 1 else s.freeCtr }
        ∧ miss.Nodup ∧ (∀ p ∈ miss, 0 < c.vl ∧ p.1 < s.hart.mcount ∧ p.2 < c.rc)
        ∧ t.hart.mmiss.toNat = min (2 ^ 32 - 1) (s.hart.mmiss.toNat + miss.length)
        ∧ (∀ j, j < 16 → t.hart.mmissMac.getLsbD j = (s.hart.mmissMac.getLsbD j || miss.any fun p => p.1 == j))
        ∧ t.hart.mb = s.hart.mb ∧ t.hart.mscale = s.hart.mscale ∧ t.hart.mcs = s.hart.mcs
        ∧ t.hart.mcount = s.hart.mcount ∧ t.hart.mfmt = s.hart.mfmt
        ∧ (∀ j, fl.getLsbD j = true ↔ 0 < c.vl ∧ ∃ i r n, i < s.hart.mcount ∧ r < c.rc ∧ n < m.cols
            ∧ (dot el sc i r n).2.getLsbD j = true)
        ∧ ∀ i r n, r < 8 → n < 128 → Sparse.get Acc.zero t.hart.macc (accKey i r n) =
            if 0 < c.vl ∧ i < s.hart.mcount ∧ r < c.rc ∧ n < m.cols then (dot el sc i r n).1
            else Sparse.get Acc.zero s.hart.macc (accKey i r n)
    (s.VecReady .never none ((a.toNat, c.lmul) :: (if m.mx then [(a.toNat + c.lmul, 1)] else [])) True [] →
      (¬shape true → s.TrapsOn (.mmulVreg a) .illop)
      ∧ (shape true → c.rc ≤ 8 → s.hart.mcount ≤ 16 →
        (held ∨ c.vl = 0 → multiplied (.mmulVreg a) (fun r k => elemRd s.hart.v c.g (2 ^ c.sew) a.toNat r k)
          (fun r j => elemRd s.hart.v c.g 1 (a.toNat + c.lmul) r j) s.hart.tq)
        ∧ (none_ → die < 4 → 0 < c.vl → ∃ t entry, exec (.mmulVreg a) s = .next t ∧ t.hart.vq = [entry] ∧ t.hart.macc = s.hart.macc
          ∧ quad ∈ (t.ring die).waiting ∧ t.st = s.st.advance (encodeNat (.mmulVreg a)) 4)))
    ∧ (s.VecReady .never none [] True [] →
      (¬shape false ∨ s.hart.hasFeeder = false → s.TrapsOn (.mmulTq q) .illop)
      ∧ (shape false → c.rc ≤ 8 → s.hart.mcount ≤ 16 → s.hart.hasFeeder = true →
        ((∀ t rest, vget s.hart.tq [] q.toNat = t :: rest → t.full = false) → s.Waits (.mmulTq q))
        ∧ ∀ t rest, vget s.hart.tq [] q.toNat = t :: rest → t.full = true → (t.sew.toNat, t.rc, t.vl) = (c.sew, c.rc, c.vl) →
          held ∨ c.vl = 0 →
          multiplied (.mmulTq q) (fun r k => leNat ((t.bytes.drop ((r * c.vl + k) * 2 ^ c.sew)).take (2 ^ c.sew))) (fun _ _ => 0)
            (vset s.hart.tq q.toNat rest))))

/-- R229, R236: MACCR gives each position the accumulator of its column, the columns running on from one macro into the
next: the integer, or its value rounded to the format at SEW with the flags of that; with ZERO the accumulators read are
zeroed, and no other accumulator changes; a selector out of range, SEW 8, VSTART other than 0 and an integer mode at another SEW
than 32 raise ILLOP. -/
def Obligations.MatrixReadout : Prop := ∀ (s : State) (d b : Reg) (rm : BitVec 3),
  let c := s.vcfg
  let m := Mode.of s.hart.mfmt
  let sel := s.rd b
  let mac := (sel.setWidth 4).toNat
  let col := ((sel >>> 8).setWidth 7).toNat
  let key (r e : Nat) : Nat := accKey ((mac * m.cols + col + e) / m.cols) r ((mac * m.cols + col + e) % m.cols)
  let acc (r e : Nat) : Acc := Sparse.get Acc.zero s.hart.macc (key r e)
  let value (r e : Nat) : Nat × BitVec 7 :=
    if m.code = 0 then ((acc r e).int.toNat, 0)
    else c.fmt.readout (Sys2Proof.Machine.rmOf rm.toNat s.st.rm) (acc r e).special (acc r e).mant (acc r e).exp
  let sound : Prop := s.hart.mcount ≠ 0 ∧ s.st.vstart = 0 ∧ c.sew ≠ 0 ∧ (m.code = 0 → c.sew = 2) ∧ sel.toNat < 2 ^ 17
    ∧ sel.getLsbD 15 = false ∧ (sel >>> 4).setWidth 4 = 0#4 ∧ col < m.cols ∧ mac < s.hart.mcount
    ∧ mac * m.cols + col + c.vl ≤ s.hart.mcount * m.cols
  s.VecReady .never (some (d.toNat, c.lmul)) [] True [b] →
  (¬sound → s.TrapsOn (.maccr d rm b) .illop)
  ∧ (sound → c.Fits (2 ^ c.sew) c.lmul →
    ∃ t v fl, exec (.maccr d rm b) s = .next t ∧ s.VecSet v (.maccr d rm b) d fl
      ∧ t = { v with hart := { v.hart with macc := t.hart.macc, matBad := t.hart.matBad } }
      ∧ c.Flags (fun _ _ => true) (fun r e => (value r e).2) fl
      ∧ s.VecWrote t c (fun _ _ => true) (2 ^ c.sew) c.lmul d.toNat (fun r e => (value r e).1)
      ∧ (∀ r e, r < c.rc → e < c.vl → sel.getLsbD 16 = true → Sparse.get Acc.zero t.hart.macc (key r e) = Acc.zero)
      ∧ ∀ k, sel.getLsbD 16 = false ∨ (∀ r e, r < c.rc → e < c.vl → key r e ≠ k) →
          Sparse.get Acc.zero t.hart.macc k = Sparse.get Acc.zero s.hart.macc k)

/-- R130-R133, R194, R195, R223-R225, R236: the sums that the reductions and the matrix unit name. VFREDT adds over the whole
tree, the initial value last. VFREDX, and a readout, deliver the one rounding of an exact sum, or what the special state says. A
row of A times a column of B: INT8 adds modulo 2^32; a sub-block of 16 converts to fixed point under its largest binade, with MT
where bits are lost, and enters the window with ML where bits are lost; an MX block enters under its scales; sub-blocks and
blocks enter one after another. Where a NaN and both infinities meet, NV of VFREDX is the model's choice (log 40), and left out. -/
def Obligations.ExactAccumulation : Prop :=
  (∀ (c : VCfg) (i : Nat) (xs : List (Nat × Nat)) (k : Nat), c.vl ≤ 2 ^ k → (k = 0 ∨ 2 ^ (k - 1) < c.vl) →
    let leaf (p : Nat) : Nat := match xs.find? (·.1 == p) with | some x => x.2 | none => c.fmt.signed true 0
    let t := treeNode (fun x y => c.fmt.add c.rm x y) leaf k 0
    let r := c.fmt.add c.rm i t.1
    redTree c i xs = (r.1, t.2 ||| r.2))
  ∧ (∀ (f : Fmt) (l : Layout), (f, l) ∈ layouts → l.inf ≠ none →
    let infinity (n : Bool) : Nat := l.code n (l.inf.getD 0)
    (∀ (c : VCfg) (i : Nat) (xs : List (Nat × Nat)), c.fmt = f →
      let vs := (i :: xs.map (·.2)).map l.value
      let r := redExact c i xs
      let nan := vs.any (·.isNan false)
      let snan := vs.any (·.isNan true)
      let up := vs.any (· == .inf false)
      let down := vs.any (· == .inf true)
      (nan = true → r.1 = l.nan ∧ (snan = true ∨ up = false ∨ down = false → r.2 = if snan then 0x40 else 0))
      ∧ (nan = false → (up = true → down = true → r = (l.nan, 0x40)) ∧ (up = true → down = false → r = (infinity false, 0))
        ∧ (up = false → down = true → r = (infinity true, 0))
        ∧ (up = false → down = false → l.RoundsTo c.rm (decide (c.rm = .rdn)) ((vs.map RVal.num).foldl (· + ·) 0) r)))
    ∧ (∀ (rm : Rm) (mant exp : Int), f.readout rm .nan mant exp = (l.nan, 0) ∧ f.readout rm .both mant exp = (l.nan, 0)
      ∧ f.readout rm .pinf mant exp = (infinity false, 0) ∧ f.readout rm .ninf mant exp = (infinity true, 0)
      ∧ l.RoundsTo rm (decide (rm = .rdn)) (mant * 2 ^ exp) (f.readout rm .none mant exp)))
  ∧ (∀ (fmt : BitVec 8) (acc : Acc) (x y : List Nat), x.length = y.length → x.length ≤ 256 →
    let m := Mode.of fmt
    let au := fmt.getLsbD 6
    let bu := fmt.getLsbD 7
    (fmt.toNat % 16 = 0 → m.dot acc x y [] [] = ({ acc with
      int := acc.int + BitVec.ofInt 32 (((x.map (int8Of au)).zipWith (· * ·) (y.map (int8Of bu))).foldl (· + ·) 0) }, 0))
    ∧ (∀ a b : Nat, fmt.toNat % 16 = 1 ∨ fmt.toNat % 16 = 2 → x.length = 32 → a < 256 → b < 256 →
      let e2 := fmt.toNat % 16 = 2
      let el (z : Nat) : Rat := if e2 then e2m1 z else int8Of false z * 2 ^ (-6 : Int)
      let r := m.dot acc x y [a] [b]
      (a = 255 ∨ b = 255 → r = ({ acc with special := .nan }, 0))
      ∧ (a ≠ 255 → b ≠ 255 → (r.2 = 0 ∨ r.2 = 0x01)
        ∧ Windowed 32 (2 ^ (a + b - 254 : Int) * ratDot (x.map el) (y.map el)) (a + b - 254 + if e2 then 13 else 10) acc r.1 (r.2 == 0x01)))
    ∧ (∀ (la lb : Layout) (w width : Nat), (m.a, la) ∈ layouts → (m.b, lb) ∈ layouts →
      (fmt.toNat % 16, w, width) ∈ [(3, 16, 64), (4, 16, 64), (5, 32, 128), (6, 64, 256)] → x.length ≤ 16 →
      let vx := x.map la.value
      let vy := y.map lb.value
      let r := m.dot acc x y [] []
      let nonzero (v : List RVal) : Prop := ∃ p ∈ v, p.num ≠ 0
      let top (v : List RVal) (e : Int) : Prop := (∀ p ∈ v, ratAbs p.num < 2 ^ (e + 1)) ∧ ∃ p ∈ v, 2 ^ e ≤ ratAbs p.num
      let fixed (v : List RVal) (e : Int) : List Rat := v.map fun p => (ratTrunc (p.num * 2 ^ (w - 2 - e)) : Rat)
      let cut (v : List RVal) (e : Int) : Prop := ∃ p ∈ v, (ratTrunc (p.num * 2 ^ (w - 2 - e)) : Rat) ≠ p.num * 2 ^ (w - 2 - e)
      let bits (a : Acc) : Acc := { a with special := .none }
      (∀ ea eb, top vx ea → top vy eb →
        Windowed width (ratDot (fixed vx ea) (fixed vy eb) * 2 ^ (ea + eb - 2 * w + 4)) (ea + eb + 22) (bits acc) (bits r.1) (r.2.getLsbD 0))
      ∧ (r.2.getLsbD 1 = true ↔ (∃ e, top vx e ∧ cut vx e) ∨ ∃ e, top vy e ∧ cut vy e)
      ∧ (¬nonzero vx ∨ ¬nonzero vy → bits r.1 = bits acc ∧ r.2.getLsbD 0 = false)
      ∧ (let pairs := vx.zip vy
        let never := pairs.any fun p => p.1.isNan false || p.2.isNan false || (p.1.zero && p.2 == .inf p.2.neg) || (p.2.zero && p.1 == .inf p.1.neg)
        let loud := pairs.any fun p => p.1.isNan true || p.2.isNan true
          || (p.1.zero && p.2 == .inf p.2.neg) || (p.2.zero && p.1 == .inf p.1.neg)
        let goes (n : Bool) := pairs.any fun p => (p.1 == .inf p.1.neg || p.2 == .inf p.2.neg) && (p.1.neg != p.2.neg) == n
        let up := goes false || acc.special == .pinf || acc.special == .both
        let down := goes true || acc.special == .ninf || acc.special == .both
        (acc.special = .nan ∨ never = true → r.1.special = .nan ∧ (loud = true → r.2.getLsbD 6 = true))
        ∧ (acc.special ≠ .nan → never = false →
          r.1.special = (if up && down then .both else if up then .pinf else if down then .ninf else .none)
          ∧ (r.2.getLsbD 6 = true ↔ up = true ∧ down = true ∧ acc.special ≠ .both))))
    ∧ (∀ (x' y' sa sb sa' sb' : List Nat), fmt.toNat % 16 < 7 → x'.length = y'.length → x.length + x'.length ≤ 256 →
      x.length % (if fmt.toNat % 16 ≤ 2 then 32 else 16) = 0 → sa.length = x.length / 32 → sb.length = x.length / 32 →
      let r := m.dot acc x y sa sb
      let t := m.dot r.1 x' y' sa' sb'
      m.dot acc (x ++ x') (y ++ y') (sa ++ sa') (sb ++ sb') = (t.1, r.2 ||| t.2)))

/-- R345-R347, R353-R355: CPY, CPY2 and CPYX read their operands or descriptor, and are accepted while their copy
context holds fewer than 16 operations; at 16 they wait; a count or descriptor past its limits raises ILLOP, an
unaligned descriptor or index array MISALIGN, and nothing is accepted; a CPY of 0 bytes completes at once. R413: PARK and UNPARK, on a Bedrock context that
exists and is open, with the WIN that it records or at supervisor privilege. R349, R496: acceptance is a release at pkg, which
waits for the stream's RSTX and RAMOX. That an instruction that waits gives up its turn is the model's choice (log 4). -/
def Obligations.EngineInstructions : Prop := ∀ (s : State) (d a b : Reg) (c : BitVec 1) (w : Nat → Word),
  let cc : CtxRef := .copy s.hart.tag c.toNat
  let p := s.rd a
  let takes (i : Instr) (x : CtxRef) (most : Nat) (k : OpKind) : Prop :=
    (s.timeline x).issued + 1 < 2 ^ 63 →
    (s.outstanding x < most → ¬s.ReleaseWaits 3 → ∃ t, exec i s = .next t ∧ s.Accepted t i x k d)
    ∧ (most ≤ s.outstanding x ∨ s.ReleaseWaits 3 → s.Waits i)
  let lo (j : Nat) : Nat := ((w j).setWidth 32).toNat
  let hi (j : Nat) : Nat := (w j >>> 32).toNat
  let esz := ((w 3 >>> 32).setWidth 16).toNat
  let scatter := (w 3).getLsbD 48
  let wide := (w 3).getLsbD 49
  let inLimits : Prop := 1 ≤ esz ∧ esz ≤ 4096 ∧ lo 3 * esz ≤ 2 ^ 40 ∧ (w 3 >>> 50) = 0
  s.Calm →
  (s.occupied = true →
    (s.ScalarReady .never true false [d, a, b] →
      (s.rd d ≠ 0 → (s.rd d).toNat ≤ 2 ^ 40 → takes (.cpy d a b c) cc 16 (.cpy (s.rd a) (s.rd b) (s.rd d).toNat))
      ∧ (s.rd d = 0 → 16 ≤ s.outstanding cc ∨ s.ReleaseWaits 3 → s.Waits (.cpy d a b c))
      ∧ (s.rd d = 0 → s.outstanding cc < 16 → ¬s.ReleaseWaits 3 → s.hart.isControl = false → s.hart.run = .running → (∀ o ∈ s.ops, o.id ≠ s.nextOp) →
        let n := (s.timeline cc).issued + 1
        n < 2 ^ 63 →
        ∃ t, exec (.cpy d a b c) s = .next t ∧ t.ops = s.ops ∧ t.nextOp = s.nextOp + 1 ∧ (t.timeline cc).issued = n
          ∧ ((s.timeline cc).done = [] → (t.timeline cc).count = if n = (s.timeline cc).count + 1 then n else (s.timeline cc).count)
          ∧ t.st = { s.st with g := t.st.g, pc := s.st.pc + 4, lastG := d, pfxp := false
                               sig := sigAdd s.st.sig (encodeNat (.cpy d a b c)) 4 }
          ∧ (∀ r, t.st.rd r = if r = 0 then 0 else if r = d then BitVec.ofNat 64 n else s.st.rd r)
          ∧ s.EngineOnly t)
      ∧ (2 ^ 40 < (s.rd d).toNat → s.TrapsOn (.cpy d a b c) .illop))
    ∧ (s.ScalarReady .never true false [d, a] →
      (p.toNat % 32 ≠ 0 → s.Traps (.cpy2 d a c) .misalign p ∧ s.Traps (.cpyx d a c) .misalign p)
      ∧ (p.toNat % 32 = 0 → s.Words p 4 w →
        (lo 2 * hi 2 ≤ 2 ^ 40 → takes (.cpy2 d a c) cc 16
          (.cpy2 (w 0) (w 1) (lo 2) (hi 2) ((w 3).setWidth 32) ((w 3 >>> 32).setWidth 32)))
        ∧ (2 ^ 40 < lo 2 * hi 2 → s.TrapsOn (.cpy2 d a c) .illop)
        ∧ (inLimits → (w 2).toNat % (if wide then 8 else 4) = 0 →
          takes (.cpyx d a c) cc 16 (.cpyx (w 0) (w 1) (w 2) (lo 3) esz scatter wide))
        ∧ (¬inLimits → s.TrapsOn (.cpyx d a c) .illop)
        ∧ (inLimits → (w 2).toNat % (if wide then 8 else 4) ≠ 0 → s.Traps (.cpyx d a c) .misalign (w 2)))))
  ∧ (∀ i : Nat, s.ScalarReady .never true true [d, a, b] → (s.rd b).toNat % 65536 = 0x3000 + i → i < 8 →
    let x := vget s.bedrock bedrockDefault i
    let fmt := (w 4).setWidth 8
    let efmt := (w 4 >>> 8).setWidth 8
    let sound (image plain : Word) : Prop := fmt.toNat ≤ 2 ∧ efmt.toNat ≤ 2 ∧ (w 4 >>> 16).setWidth 16 = 0#16 ∧ w 6 = 0 ∧ w 7 = 0
      ∧ (fmt = 0 → efmt = 0) ∧ (w 3).toNat ≤ 2 ^ 40 ∧ (fmt ≠ 0 → (w 3).toNat % 32 = 0) ∧ image.toNat % 64 = 0
      ∧ plain.toNat % (if efmt = 0 then 4 else 2) = 0
    (x.exist = false ∨ x.closing = true → s.TrapsOn (.park d a b) .illop ∧ s.TrapsOn (.unpark d a b) .illop)
    ∧ (x.exist = true → x.closing = false →
      (s.hart.sv = false → s.st.win ≠ x.win → s.TrapsOn (.park d a b) .priv ∧ s.TrapsOn (.unpark d a b) .priv)
      ∧ (s.hart.sv = true ∨ s.st.win = x.win →
        (p.toNat % 64 ≠ 0 → s.Traps (.park d a b) .misalign p ∧ s.Traps (.unpark d a b) .misalign p)
        ∧ (p.toNat % 64 = 0 → s.Words p 8 w →
          (sound (w 2) (w 1) → takes (.park d a b) (.bedrock i) 32 (.park p (w 1) (w 2) (w 3).toNat fmt efmt))
          ∧ (sound (w 1) (w 2) → takes (.unpark d a b) (.bedrock i) 32 (.unpark p (w 1) (w 2) (w 3).toNat fmt efmt))
          ∧ (¬sound (w 2) (w 1) → s.TrapsOn (.park d a b) .illop)
          ∧ (¬sound (w 1) (w 2) → s.TrapsOn (.unpark d a b) .illop)))))

/-- R343: what an id names. R358-R361: TLWAIT completes once COUNT has reached g[b], and waits before (log 4); TLREAD gives COUNT,
ENGCTX query ISSUED, and 2^64 - 1 for an id that names nothing; ENGCTX create makes the requested or the lowest free Bedrock
context (the lowest is the model's choice, log 42) and gives its id, or 0; destroy closes a context and destroys it once COUNT =
ISSUED, and a TLWAIT that waits on it then raises ILLOP. R406, R415: PBAR waits until no write of its stream is left in the
ingress buffer; PSTAT gives the state of a Bedrock context, its HELD counting dirty lines as 64-byte atoms (log 19). -/
def Obligations.TimelineInstructions : Prop := ∀ (s : State) (d a b : Reg),
  let id := ((s.rd a).setWidth 16).toNat
  let bedrock (i : Nat) : BedrockCtx := vget s.bedrock bedrockDefault i
  (∀ i x : Nat,
    (id = 0x1000 + i → i < 2 → s.hart.isControl = false → s.ctxOf (s.rd a) = some (.copy s.hart.tag i))
    ∧ (id = 0x2000 + 1024 * x + 1023 → x < 4 → s.ctxOf (s.rd a) = some (.topo x 1023))
    ∧ (id = 0x3000 + i → i < 8 → s.ctxOf (s.rd a) = if (bedrock i).exist then some (.bedrock i) else none)
    ∧ (id < 0x1000 ∨ 0x6000 ≤ id → s.ctxOf (s.rd a) = none))
  ∧ (s.ScalarReady .never true true [a, b] →
    let on (w : TlWait) : State := s.setSt { s.st with tlw := w }
    (s.ctxOf (s.rd a) = none ∨ s.st.tlw = .gone →
      exec (.tlwait a b) s = .next ((on .none).trap .illop (BitVec.ofNat 64 (encodeNat (.tlwait a b))) (encodeNat (.tlwait a b))))
    ∧ ∀ c, s.ctxOf (s.rd a) = some c → s.st.tlw ≠ .gone →
      ((s.rd b).toNat ≤ (s.timeline c).count → ∃ t, exec (.tlwait a b) s = .next t ∧ (on .none).Finished t (.tlwait a b))
      ∧ ((s.timeline c).count < (s.rd b).toNat → exec (.tlwait a b) s = .next { on (.on c) with quantum := 0 }))
  ∧ (s.ScalarReady .never true true [d, a] →
    (s.ctxOf (s.rd a) = none →
      (∃ t, exec (.tlread d a) s = .next t ∧ s.Wrote t (.tlread d a) d (BitVec.allOnes 64))
      ∧ (∃ t, exec (.engctxQuery d a) s = .next t ∧ s.Wrote t (.engctxQuery d a) d (BitVec.allOnes 64))
      ∧ ∃ t, exec (.pstat d a) s = .next t ∧ s.Wrote t (.pstat d a) d (BitVec.allOnes 64))
    ∧ (∀ c, s.ctxOf (s.rd a) = some c →
      (∃ t, exec (.tlread d a) s = .next t ∧ s.Wrote t (.tlread d a) d (BitVec.ofNat 64 (s.timeline c).count))
      ∧ ∃ t, exec (.engctxQuery d a) s = .next t ∧ s.Wrote t (.engctxQuery d a) d (BitVec.ofNat 64 (s.timeline c).issued))
    ∧ (∀ i, s.ctxOf (s.rd a) = some (.bedrock i) → s.dirty.length ≤ 2 ^ 26 → s.outstanding (.bedrock i) < 2 ^ 16 →
      ∃ t v, exec (.pstat d a) s = .next t ∧ s.Wrote t (.pstat d a) d v
        ∧ v.getLsbD 63 = s.hub.brPloss ∧ ((v >>> 32).setWidth 31).toNat = (s.dirty.length * 64 + 2 ^ 20 - 1) / 2 ^ 20
        ∧ (v >>> 16).setWidth 16 = s.hub.brdcap.setWidth 16 ∧ (v.setWidth 16).toNat = s.outstanding (.bedrock i))
    ∧ (∀ i, i < 8 → (∀ j, j < i → (bedrock j).exist = true) ∧ s.rd a = 0x3FFF ∨ s.rd a = 0x3000 + BitVec.ofNat 64 i →
      let ins : Instr := .engctxCreate d a
      ((bedrock i).exist = false → ∃ t u, exec ins s = .next t ∧ s.Wrote u ins d (0x3000 + BitVec.ofNat 64 i)
        ∧ t = { u with bedrock := vset s.bedrock i { exist := true, closing := false, win := s.st.win, tl := Timeline.zero } })
      ∧ ((bedrock i).exist = true → s.rd a ≠ 0x3FFF → ∃ t, exec ins s = .next t ∧ s.Wrote t ins d 0))
    ∧ (s.rd a = 0x3FFF → (∀ i, i < 8 → (bedrock i).exist = true) →
      ∃ t, exec (.engctxCreate d a) s = .next t ∧ s.Wrote t (.engctxCreate d a) d 0)
    ∧ ((s.rd a).toNat ≠ 0x3FFF → (s.rd a).toNat < 0x3000 ∨ 0x3008 ≤ (s.rd a).toNat → s.TrapsOn (.engctxCreate d a) .illop))
  ∧ (s.ScalarReady .never true true [a] →
    let ins : Instr := .engctxDestroy a
    ((∀ i, s.ctxOf (s.rd a) ≠ some (.bedrock i)) → s.TrapsOn ins .illop)
    ∧ ∀ i, s.ctxOf (s.rd a) = some (.bedrock i) →
      let x := bedrock i
      (s.hart.sv = false → s.st.win ≠ x.win → s.TrapsOn ins .priv)
      ∧ (s.hart.sv = true ∨ s.st.win = x.win →
        (x.tl.count = x.tl.issued → ∃ t u v, exec ins s = .next t ∧ s.Finished u ins ∧ u.CtxEnded v (.bedrock i)
          ∧ t = { v with bedrock := vset s.bedrock i bedrockDefault } ∧ (vget t.bedrock bedrockDefault i).exist = false)
        ∧ (x.tl.count ≠ x.tl.issued →
          exec ins s = .next { s with bedrock := vset s.bedrock i { x with closing := true }, quantum := 0 })))
  ∧ (s.ScalarReady .never true true [] →
    let mine : Prop := ∃ u ∈ s.ingress, s.wrote u = true
    (¬mine → s.onFeeder = true ∨ (s.hart.vq = [] ∧ s.hart.late = []) → ∃ t, exec .pbar s = .next t ∧ s.Finished t .pbar)
    ∧ (mine ∨ (s.onFeeder = false ∧ s.hart.vq ≠ []) → s.onFeeder = true ∨ s.hart.late = [] → s.Waits .pbar))

/-- R345, R347, R351, R353-R356, R374: an operation starts once its engine's order lets it. CPY moves its bytes as they stood;
CPY2 moves its rows and CPYX its entries one after another, each as it stood before its own step, the padding entries left out;
no other byte changes. A copy whose source faults stops with a record and moves nothing; that of a killed hart is abandoned
(R447). R404: an operation completes once its accesses are performed and its DURABLE writes are durable: its token is
written and no longer pends, COUNT rises over it, and it is gone. When an operation starts, and that all of it is performed in
one step, are the model's choices (log 18), and so is that one whose exchange or group has started afresh is abandoned and counts
there no longer (log 42). -/
def Obligations.OperationLifecycle : Prop := ∀ (s : State) (o : Op), s.op o.id = some o →
  let start : Instr := .operationStart o.id
  let ends : Instr := .operationComplete o.id
  let a := o.agent o.die
  (o.stage ≠ .accepted ∨ s.down = true → exec start s = .next s)
  ∧ (∀ d slot p, o.ctx = .topo d slot → slot ≠ 1023 → p ∈ s.ops → p.ctx = .topo d slot → p.num < o.num →
    o.writes d slot = true ∨ p.writes d slot = true → exec start s = .next s)
  ∧ ((∀ d slot, o.ctx ≠ .topo d slot) → o.stage = .accepted → s.down = false → (∀ u ∈ s.ingress, u.byOp ≠ some o.id) →
    (∀ lo len base : Nat, lo + len ≤ 2 ^ 64 → s.Maps a 0 lo len base →
      let inside (va : Word) (n : Nat) : Prop := lo ≤ va.toNat ∧ va.toNat + n ≤ lo + len
      let at_ (va : Word) : Nat := base + (va.toNat - lo)
      let leaves (m : Nat → Byte) : Prop := ∃ t, exec start s = .next t
        ∧ (∀ k, t.mem.byte k = m k)
        ∧ (s.setOp { o with stage := .performed }).OpsKept t
        ∧ s.BytesOnly { t with ops := s.ops }
      (∀ dst src n, o.kind = .cpy dst src n → inside dst n → inside src n →
        leaves (moved s.mem.byte (at_ dst) (at_ src) n))
      ∧ (∀ dst src rowBytes rows dp sp, o.kind = .cpy2 dst src rowBytes rows dp sp →
        let d (r : Nat) : Word := dst + BitVec.ofNat 64 r * dp.signExtend 64
        let c (r : Nat) : Word := src + BitVec.ofNat 64 r * sp.signExtend 64
        (∀ r, r < rows → inside (d r) rowBytes ∧ inside (c r) rowBytes) →
        leaves ((List.range rows).foldl (fun m r => moved m (at_ (d r)) (at_ (c r)) rowBytes) s.mem.byte))
      ∧ (∀ dst src idx count esz scatter wide m, o.kind = .cpyx dst src idx count esz scatter wide →
        (List.range count).foldlM (copyEntry lo len base dst src idx esz (if wide then 8 else 4) scatter) s.mem.byte = some m →
        leaves m))
    ∧ (∀ (dst src : Word) (n : Nat) (f : MemFault), o.kind = .cpy dst src n → 0 < n → src.toNat % 64 + n ≤ 64 →
      s.translate a (.plain 0 n) src = .mem f s →
      let d := o.faultDie
      let k := vget s.stoppedOps 0 d
      let dead : Prop := ∃ tag i h r, o.ctx = .copy tag i ∧ s.findHart tag = some h ∧ h.run = .killed r
      (dead → ∃ t, exec start s = .next t ∧ t.ops = s.ops.filter (fun p => p.id != o.id) ∧ t.frq = s.frq ∧ t.stoppedOps = s.stoppedOps)
      ∧ (¬dead → d < 4 → ∃ t r, exec start s = .next t ∧ t.ops = (s.setOp { o with stage := .stopped k }).ops
        ∧ t.stoppedOps = vset s.stoppedOps d (k + 1)
        ∧ t.frq = vset s.frq d ((vget s.frq frqDefault d).put false [r])
        ∧ r.cause = f.cause ∧ r.kind = f.kind ∧ r.acc = BitVec.ofNat 8 f.acc ∧ r.va = f.va ∧ r.vawin = f.win ∧ r.src = 2
        ∧ r.handle = BitVec.ofNat 64 (2 ^ 63 + d * 2 ^ 58 + k % 2 ^ 32)
        ∧ r.ctxid = BitVec.ofNat 16 o.ctx.id ∧ r.aux = BitVec.ofNat 64 o.num ∧ r.npos = 1 ∧ r.npage = 1
        ∧ { t with ops := s.ops, stoppedOps := s.stoppedOps, frq := s.frq } = s)))
  ∧ (o.stage = .lost → exec ends s = .next
      { s.writeToken o (BitVec.ofNat 64 (o.num + 2 ^ 63)) with ops := s.ops.filter (fun p => p.id != o.id) })
  ∧ (o.stage ≠ .lost → o.stage ≠ .performed ∨ (∃ u ∈ s.ingress, u.byOp = some o.id) → exec ends s = .next s)
  ∧ (∀ i, o.ctx = .copy s.hart.tag i → i < 2 → o.also = none → o.stage = .performed → (∀ u ∈ s.ingress, u.byOp ≠ some o.id) →
    o.ctl = none → o.issuer = s.hart.tag → s.occupied = true → s.hart.isControl = false → s.hart.run = .running →
    let old := s.timeline o.ctx
    let x := if o.feeder then s.hart.feed else s.hart.main
    ∃ t, exec ends s = .next t ∧ t.ops = s.ops.filter (fun p => p.id != o.id)
      ∧ (let y := if o.feeder then t.hart.feed else t.hart.main
        y = { x with g := y.g, pend := if o.token = 0 then x.pend else x.pend &&& ~~~(1#32 <<< o.token.toNat) }
        ∧ ∀ r, y.rd r = if r = o.token ∧ r ≠ 0 then BitVec.ofNat 64 o.num else x.rd r)
      ∧ (if o.feeder then t.hart.main = s.hart.main else t.hart.feed = s.hart.feed)
      ∧ (t.timeline o.ctx).issued = old.issued
      ∧ (o.num = old.count + 1 → old.done = [] → (t.timeline o.ctx).count = o.num)
      ∧ (o.num ≠ old.count + 1 → old.count + 1 ∉ old.done → (t.timeline o.ctx).count = old.count)
      ∧ { t with hart := { t.hart with main := s.hart.main, feed := s.hart.feed, cc := s.hart.cc }, ops := s.ops } = s)

/-- R375, R378, R383-R391, R412-R414: what an operation that starts does. TBIND builds the generation of a form, or an empty one
where a record of it offends; TMARK closes marks upwards as far as its rules ask and no further; TCOMMIT replaces marked cells by
their children and families by their parent, in key order, and TIMPORT joins old cells with those of forms; the list that they write
covers the new cells. TCOLOUR gives each face the lowest bench it may have, TLEVEL each row the lowest level; TCUT cuts the curve;
TREMAP moves fields record by record, TXPORT writes a form. PARK and UNPARK encode and decode block by block. Each writes its status
word; apart from what is said, nothing changes. Units, and the faces of refined cells, are the model's or open (logs 9, 42). -/
def Obligations.EngineEffects : Prop := (∀ (f : Fmt) (l : Layout) (xs : List Nat), (f, l) ∈ layouts → l.inf ≠ none → xs ≠ [] →
    let vs := xs.map l.value
    let up := vs.any (· == .inf false)
    let down := vs.any (· == .inf true)
    (vs.any (·.isNan false) = true ∨ (up = true ∧ down = true) → averageOf f xs = l.nan)
    ∧ (vs.any (·.isNan false) = false → up ≠ down → averageOf f xs = l.code down (l.inf.getD 0))
    ∧ (vs.any (·.isNan false) = false → up = false → down = false →
      ∃ fl, l.RoundsTo .rne false ((vs.map RVal.num).foldl (· + ·) 0 / xs.length) (averageOf f xs, fl)))
  ∧ ∀ (s : State) (o : Op) (lo len base : Nat), s.op o.id = some o → o.stage = .accepted → s.down = false → s.topoReady o = true →
  (∀ u ∈ s.ingress, u.byOp ≠ some o.id) → lo + len ≤ 2 ^ 64 →
  let start : Instr := .operationStart o.id
  let m := s.mem.byte
  let at_ (va : Word) : Nat := base + (va.toNat - lo)
  let inside (va : Word) (n : Nat) : Prop := n = 0 ∨ (lo ≤ va.toNat ∧ va.toNat + n ≤ lo + len)
  let num (va : Word) (n : Nat) : Nat := numIn m (at_ va) n
  let ptr (va : Word) : Word := BitVec.ofNat 64 (num va 8)
  let status (m : Nat → Byte) (va : Word) (code detail : Nat) : Nat → Byte := withNums m (at_ va) 8 [code + detail * 2 ^ 32]
  let broken (l : List (Bool × Nat)) : Option Nat := (l.find? (·.1)).map (·.2)
  (∀ d slot, o.ctx = .topo d slot → s.Maps (o.agent d) 0 lo len base →
    let did (m : Nat → Byte) (gens : List Gen) : Prop := ∃ t, exec start s = .next t ∧ (∀ k, t.mem.byte k = m k) ∧ t.gens = gens
      ∧ (s.setOp { o with stage := .performed }).OpsKept t ∧ s.BytesOnly { t with ops := s.ops, gens := s.gens }
    let with_ (g : Gen) : List Gen := s.gens.map fun x => if x.die = d ∧ x.slot = slot then g else x
    (∀ desc : Word, o.kind = .tlevel desc → inside desc 64 →
      let n := num (desc + 40) 4
      let flags := num (desc + 44) 4
      let row := ptr (desc + 8)
      let col := ptr (desc + 16)
      let first (i : Nat) : Nat := num (row + BitVec.ofNat 64 (4 * i)) 4
      let column (e : Nat) : Nat := num (col + BitVec.ofNat 64 (4 * e)) 4
      match broken [(decide (n = 0 ∨ n = 2 ^ 32 - 1), 40), (decide (2 ≤ flags), 44), (decide (num (desc + 52) 12 ≠ 0), 52)] with
      | some k => did (status m desc 2 k) s.gens
      | none =>
        let wrong (i : Nat) : Prop := first (i + 1) < first i ∨ ∃ e, first i ≤ e ∧ e < first (i + 1) ∧ n ≤ column e
        inside row (4 * (n + 1)) → (∀ i, i ≤ n → inside col (4 * first i)) → first 0 = 0 →
        (∀ i, i < n → wrong i → (∀ j, j < i → ¬wrong j) → did (status m desc 7 i) s.gens)
        ∧ ((∀ i, i < n → ¬wrong i) → inside (ptr (desc + 24)) (4 * (n + 1)) → inside (ptr (desc + 32)) (4 * n) →
          let needs (i j : Nat) : Prop := (if flags = 1 then i < j else j < i) ∧ ∃ e, first i ≤ e ∧ e < first (i + 1) ∧ column e = j
          ∃ (lev : Nat → Nat) (levels : Nat),
            (∀ i, i < n → (∀ j, needs i j → lev j < lev i) ∧ (lev i = 0 ∨ ∃ j, needs i j ∧ lev i = lev j + 1))
            ∧ (∀ i, i < n → lev i < levels) ∧ (∃ i, i < n ∧ levels = lev i + 1)
            ∧ (let ptrs := (List.range (levels + 1)).map fun k => ((List.range n).filter fun i => decide (lev i < k)).length
              let perm := (List.range levels).flatMap fun k => (List.range n).filter fun i => lev i == k
              did (status (withNums (withNums (withNums m (at_ (ptr (desc + 24))) 4 ptrs) (at_ (ptr (desc + 32))) 4 perm)
                (at_ (desc + 48)) 4 [levels]) desc 0 0) s.gens)))
    ∧ (∀ desc : Word, o.kind = .tcut desc → inside desc 64 →
      let own := s.gen d slot
      let total := num (desc + 48) 8
      let dests := num (desc + 56) 2
      let size := num (desc + 58) 2
      let given := num (desc + 60) 4
      let dest := ptr (desc + 16)
      match broken [(total == 0, 48), (decide (dests = 0 ∨ 4096 < dests), 56), (size == 0, 58), (own.isSome == (given != 0), 60)] with
      | some k => did (status m desc 2 k) s.gens
      | none =>
        let n := match own with | some g => g.ncell | none => given
        let weight (i : Nat) : Nat := num (ptr (desc + 8) + BitVec.ofNat 64 (4 * i)) 4
        let before (i : Nat) : Nat := num (desc + 40) 8 + sumNat ((List.range i).map weight)
        let dests_ := (List.range n).map fun i => min (dests - 1) (before i * dests / total)
        let counts := (List.range dests).map fun p => (dests_.filter (· == p)).length
        inside (ptr (desc + 8)) (4 * n) → (dest = 0 ∨ inside dest (2 * n)) → inside (ptr (desc + 24)) (8 * dests) →
        inside (ptr (desc + 32)) (8 * dests) →
        did (status (withNums (withNums (if dest = 0 then m else withNums m (at_ dest) 2 dests_) (at_ (ptr (desc + 24))) 8 counts)
          (at_ (ptr (desc + 32))) 8 (counts.map (· * size))) desc 0 0) s.gens)
    ∧ ∀ g : Gen, s.gen d slot = some g →
      let n := g.cells.length
      let keyOf (g : Gen) (i : Nat) : Nat := (g.cells.getD i ⟨0, 0, 0⟩).key.toNat
      let key := keyOf g
      (∀ block : Word, o.kind = .tmark block → inside block (16 + n) →
        let input (i : Nat) : Int := (m (at_ (block + 16) + i)).toInt
        let level (i : Nat) : Nat := levelOf (key i)
        let begins (i : Nat) : Int := if input i = 1 ∧ level i ≠ 6 then 1 else if input i = -1 ∧ level i ≠ 0 then -1 else 0
        let closed := MarksClosed (g.cells.map (·.key.toNat)) g.faces begins
        (num (block + 12) 4 ≠ n → did (status m block 2 12) s.gens)
        ∧ (num (block + 12) 4 = n →
          (∀ r ∈ g.faces, r.right ≠ 0xFFFFFFFE → r.left < n ∧ r.right < n ∧ level r.left ≤ level r.right + 1 ∧ level r.right ≤ level r.left + 1) →
          ∃ f : Nat → Int, closed f ∧ (∀ h, closed h → ∀ i, i < n → f i ≤ h i)
            ∧ did (status (withNums (withNums m (at_ (block + 16)) 1 ((List.range n).map fun i => (BitVec.ofInt 8 (f i)).toNat))
                (at_ (block + 8)) 4 [((List.range n).filter fun i => f i != input i).length]) block 0 0)
              (with_ { g with marks := (List.range n).map f })))
      ∧ (∀ table : Word, o.kind = .tcolour table → inside table 144 →
        let shares (x y : TFaceRec) : Prop := ∃ c, (c = x.left ∨ (c = x.right ∧ c ≠ 0xFFFFFFFE)) ∧ (c = y.left ∨ (c = y.right ∧ c ≠ 0xFFFFFFFE))
        (∀ f ∈ g.faces, f.left ≠ 0xFFFFFFFE) → ∃ (l : List Nat) (top : Nat), l.length = g.faces.length
          ∧ (∀ (i b : Nat) (f : TFaceRec), g.faces[i]? = some f → l[i]? = some b → b ≤ 32
            ∧ (b < 32 → ∀ (j : Nat) (h : TFaceRec), j < i → g.faces[j]? = some h → l[j]? = some b → ¬shares h f)
            ∧ ∀ c, c < b → ∃ (j : Nat) (h : TFaceRec), j < i ∧ g.faces[j]? = some h ∧ l[j]? = some c ∧ shares h f)
          ∧ (∀ b ∈ l, b < top) ∧ (top = 0 ∨ top - 1 ∈ l)
          ∧ did (status (withNums m (at_ (table + 8)) 4 (top :: (List.range 33).map fun b => (l.filter (· == b)).length))
              table (if 32 ∈ l then 4 else 0) 0) (with_ { g with benches := some l }))
      ∧ (∀ desc : Word, o.kind = .txport desc → inside desc 64 →
        let out := ptr (desc + 8)
        let cap := num (desc + 16) 8
        let first := num (desc + 24) 4
        let count := num (desc + 28) 4
        let part := num (desc + 32) 2
        match broken [(out.toNat % 64 != 0, 8), (decide (g.ncell < first), 24), (decide (g.ncell < first + count), 28),
          (num (desc + 34) 6 != 0, 34), (num (desc + 48) 16 != 0, 48)] with
        | some k => did (status m desc 2 k) s.gens
        | none =>
          let face (i : Nat) : TFaceRec := g.faces.getD i ⟨0, 0, 0, 0, 0, 0⟩
          let owned (i : Nat) : Prop := first ≤ i ∧ i < first + count
          let near (f : TFaceRec) : Prop := owned f.left ∨ (f.right ≠ 0xFFFFFFFE ∧ owned f.right)
          g.ncell ≤ n → n ≤ 0xFFFFFFFD → (∀ j i, j < i → i < n → key j ≠ key i ∧ (i < g.ncell → key j < key i) ∧ (g.ncell ≤ j → key j < key i)) →
          (∀ i, i < g.faces.length → ∀ f, f = face i →
            f.left < n ∧ f.lface < 256 ∧ f.rface < 256 ∧ f.sub < 256
            ∧ ((f.right = 0xFFFFFFFE ∧ f.rface = 0xFF ∧ f.sub = 0xFF) ∨ (f.left < f.right ∧ f.right < n))
            ∧ ∀ j, j < i → (face j).left < f.left ∨ ((face j).left = f.left
              ∧ ((face j).lface < f.lface ∨ ((face j).lface = f.lface ∧ (face j).sub < f.sub)))) →
          ∃ (ghosts : List Nat) (faces : List TFaceRec),
            (∀ i, i ∈ ghosts ↔ i < n ∧ ¬owned i ∧ ∃ f ∈ g.faces, near f ∧ (f.left = i ∨ f.right = i))
            ∧ ghosts.Pairwise (fun i j => key i < key j)
            ∧ (let all := (List.range count).map (first + ·) ++ ghosts
              let cells := all.map fun i => let c := g.cells.getD i ⟨0, 0, 0⟩
                ({ c with owner := if i < g.ncell then BitVec.ofNat 16 part else c.owner, remote := BitVec.ofNat 32 i } : TCell)
              let here (f : TFaceRec) : TFaceRec :=
                if f.right = 0xFFFFFFFE then { f with left := all.idxOf f.left }
                else if all.idxOf f.left < all.idxOf f.right then { f with left := all.idxOf f.left, right := all.idxOf f.right, btag := 0 }
                else ⟨all.idxOf f.right, all.idxOf f.left, f.rface, f.lface, f.sub, 0⟩
              let form := [0x4E594D58, 1 + 65536 * part, count, ghosts.length, faces.length, 0, g.number.toNat % 2 ^ 32,
                  g.number.toNat / 2 ^ 32, 64, 0, (64 + 16 * all.length) % 2 ^ 32, (64 + 16 * all.length) / 2 ^ 32, 0, 0, 0, 0]
                ++ cells.flatMap cellNums ++ faces.flatMap faceNums
              (∀ r, r ∈ faces ↔ ∃ f ∈ g.faces, near f ∧ r = here f)
              ∧ faces.Nodup
              ∧ faces.Pairwise (fun p q => p.left < q.left ∨ (p.left = q.left ∧ (p.lface < q.lface ∨ (p.lface = q.lface ∧ p.sub ≤ q.sub))))
              ∧ (inside out (min cap (4 * form.length)) →
                did (status (withNums (fun k => if k < at_ out + cap then withNums m (at_ out) 4 form k else m k) (at_ (desc + 40)) 8
                  [4 * form.length]) desc (if cap < 4 * form.length then 5 else 0) (if cap < 4 * form.length then 4 * form.length % 2 ^ 32 else 0)) s.gens)))
      ∧ (∀ desc : Word, o.kind = .tremap desc → inside desc 64 →
        let fields := num (desc + 20) 2
        let custom := ptr (desc + 24)
        let cap := num (desc + 32) 4
        let f (i k n : Nat) : Nat := num (desc + BitVec.ofNat 64 (64 + 32 * i + k)) n
        let esz (i : Nat) : Nat := if f i 20 1 = 1 then 8 else if f i 20 1 = 2 then 4 else 0
        inside desc (64 + 32 * fields) →
        match broken ([(decide (16 < fields), 20), (num (desc + 22) 2 != 0, 22), (custom.toNat % 16 != 0, 24), (num (desc + 40) 24 != 0, 40)]
          ++ (List.range fields).flatMap fun i =>
            [(decide (f i 16 4 = 0 ∨ 2 ^ 20 < f i 16 4 ∨ (esz i ≠ 0 ∧ f i 16 4 % esz i ≠ 0)), 64 + 32 * i + 16), (decide (2 < f i 20 1), 64 + 32 * i + 20),
              (decide (1 < f i 21 1), 64 + 32 * i + 21), (decide (2 < f i 22 1 ∨ (f i 22 1 = 0 ∧ f i 20 1 = 0)), 64 + 32 * i + 22),
              (decide (f i 23 9 ≠ 0), 64 + 32 * i + 23)]) with
        | some k => did (status m desc 2 k) s.gens
        | none =>
          let list := ptr (desc + 8)
          let asked := num (desc + 16) 4
          let want := if asked = 2 ^ 32 - 1 then g.remap.length else asked
          ∀ (rs : List Remap) (ws : List (List Nat)),
          (list = 0 → rs = g.remap.take want ∧ ws = rs.map remapNums) →
          (list ≠ 0 → inside list (16 * want) ∧ rs.length = want
            ∧ ws = (List.range want).map (fun j => (List.range 4).map fun k => num (list + BitVec.ofNat 64 (16 * j + 4 * k)) 4)
            ∧ ∀ (j : Nat) (r : Remap), rs[j]? = some r → let x := list + BitVec.ofNat 64 (16 * j)
              r.new = num x 4 ∧ r.old = num (x + 4) 4 ∧ r.count = num (x + 8) 4 ∧ r.kind = num (x + 12) 1 ∧ r.form = num (x + 13) 1) →
          let bad (r : Remap) : Prop := 4 < r.kind ∨ (r.kind = 2 ∧ r.count = 0)
          let stride (i : Nat) : Nat := f i 16 4
          let src (i : Nat) (r : Remap) : Word := BitVec.ofNat 64 (f i 0 8) + BitVec.ofNat 64 (r.old * stride i)
          let dst (i : Nat) (r : Remap) : Word := BitVec.ofNat 64 (f i 8 8) + BitVec.ofNat 64 (r.new * stride i)
          let read (m : Nat → Byte) (va : Word) (n : Nat) : List Nat := (List.range n).map fun k => (m (at_ va + k)).toNat
          let gives (m : Nat → Byte) (r : Remap) (i : Nat) : Option (List Nat) :=
            if r.kind = 0 then some (read m (src i r) (r.count * stride i))
            else if r.kind = 1 then
              if f i 21 1 = 0 then some ((List.range r.count).flatMap fun _ => read m (src i r) (stride i)) else none
            else if r.kind = 2 then
              if f i 22 1 = 1 then some (read m (src i r) (stride i))
              else if f i 22 1 = 0 then some ((List.range (stride i / esz i)).flatMap fun j =>
                (toLe (esz i) (averageOf (if f i 20 1 = 1 then fmtF64 else fmtF32) ((List.range r.count).map fun c =>
                  numIn m (at_ (src i r) + c * stride i + j * esz i) (esz i)))).map (·.toNat))
              else none
            else none
          let moves (m : Nat → Byte) (r : Remap) : Nat → Byte := (List.range fields).foldl (fun w i =>
            match gives m r i with | some l => withNums w (at_ (dst i r)) 1 l | none => w) m
          let queued (r : Remap) : Bool := r.kind == 3 || r.kind == 4
            || (r.kind == 1 && (List.range fields).any fun i => f i 21 1 == 1) || (r.kind == 2 && (List.range fields).any fun i => f i 22 1 == 2)
          let cs := (rs.zip ws).filter fun r => queued r.1
          (∀ (j : Nat) (r : Remap), rs[j]? = some r → bad r → (∀ (k : Nat) (q : Remap), k < j → rs[k]? = some q → ¬bad q) → did (status m desc 7 j) s.gens)
          ∧ ((∀ r ∈ rs, ¬bad r ∧ r.kind < 256 ∧ r.form < 256) → inside custom (16 * min cap cs.length) →
            (∀ r ∈ rs, r.kind < 3 → ∀ i, i < fields → inside (src i r) (max 1 r.count * stride i) ∧ inside (dst i r) (max 1 r.count * stride i)) →
            did (status (withNums (withNums (rs.foldl moves m) (at_ custom) 4 ((cs.take cap).flatMap (·.2))) (at_ (desc + 36)) 4 [cs.length])
              desc (if cap < cs.length then 5 else 0) (if cap < cs.length then cs.length % 2 ^ 32 else 0)) s.gens))
      ∧ (let empty (m : Nat → Byte) : Prop := ∃ x : Gen, did m (with_ x)
          ∧ x = { g with number := x.number, part := x.part, built := true, ncell := 0, cells := [], faces := [], remap := [] }
        let made (number part : Nat) : Gen := { g with number := BitVec.ofNat 64 number, part := BitVec.ofNat 16 part, built := true }
        let units (cells faces : Nat) : Nat := (64 * cells + 32 * faces + 65535) / 65536
        (∀ form at0, o.kind = .tbind form at0 → inside form 64 → (at0 = 0 ∨ inside at0 8) →
          let ends (c det : Nat) : Nat → Byte := if at0 = 0 then m else status m at0 c det
          (numIn m (at_ form) 4 ≠ 0x4E594D58 ∨ num (form + 4) 2 ≠ 1 ∨ num (form + 20) 4 ≠ 0 ∨ num (form + 48) 16 ≠ 0
            ∨ 0xFFFFFFFD < num (form + 8) 4 + num (form + 12) 4 → empty (ends 1 0))
          ∧ ∀ x ghosts bad, FormIn m (at_ form) x ghosts bad →
            inside (form + BitVec.ofNat 64 (num (form + 32) 8)) (16 * x.cells.length) →
            inside (form + BitVec.ofNat 64 (num (form + 40) 8)) (16 * x.faces.length) →
            form.toNat + num (form + 32) 8 < 2 ^ 64 → form.toNat + num (form + 40) 8 < 2 ^ 64 →
            match bad with
            | some k => empty (ends 1 (k % 2 ^ 32))
            | none => if s.freeUnits d < units x.cells.length x.faces.length then empty (ends 3 0)
              else did (ends 0 0) (with_ { made x.gen x.part with ncell := x.ncell, cells := x.cells, faces := x.faces, remap := [] }))
        ∧ ∀ (slotOld : Nat) (old : Gen) (desc : Word), s.gen d slotOld = some old → inside desc 64 →
          let oldKey := keyOf old
          let oldN := old.cells.length
          let fails (code detail : Nat) : Prop := ∃ w, numIn w (at_ desc) 8 = code + detail * 2 ^ 32 ∧ empty w
          let laid (x : Gen) : Prop := x.ncell ≤ x.cells.length
            ∧ (∀ i j, i < j → j < x.cells.length → j < x.ncell ∨ x.ncell ≤ i → keyOf x i < keyOf x j)
            ∧ ∀ i, x.ncell ≤ i → i < x.cells.length → ∃ f ∈ x.faces, (f.left = i ∧ f.right < x.ncell) ∨ (f.right = i ∧ f.left < x.ncell)
          let listed (w : Nat → Byte) (x : Gen) (remap : Word) (cap : Nat) (counts : Word) (forms : Nat → Nat → Nat) : Prop :=
            numIn w (at_ desc) 8 = (if cap < x.remap.length then 5 + x.remap.length % 2 ^ 32 * 2 ^ 32 else 0)
            ∧ numIn w (at_ counts) 4 = x.remap.length % 2 ^ 32 ∧ numIn w (at_ (counts + 4)) 4 = x.ncell % 2 ^ 32
            ∧ numIn w (at_ (counts + 8)) 4 = (x.cells.length - x.ncell) % 2 ^ 32
            ∧ (∀ (i j c : Nat) (r : Remap), x.remap[i]? = some r → i < cap → (remapNums r)[j]? = some c → numIn w (at_ remap + 16 * i + 4 * j) 4 = c % 2 ^ 32)
            ∧ (∀ j, j < x.cells.length → ∃ r ∈ x.remap, RemapSays oldKey (keyOf x) forms r j)
            ∧ x.remap.Pairwise (fun p q => p.new + (if p.kind = 2 then 1 else p.count) ≤ q.new
              ∧ (p.kind = 0 → q.kind = 0 → p.new + p.count = q.new → p.old + p.count ≠ q.old))
          let placed (x : Gen) (w : Nat → Byte) : Prop := did w (with_ x) ∧ units x.cells.length x.faces.length ≤ s.freeUnits d
          let distinct : Prop := ∀ i j, i < oldN → j < oldN → i ≠ j → levelOf (oldKey i) ≤ levelOf (oldKey j) →
            oldKey i / 2 ^ (30 - 4 * levelOf (oldKey i)) ≠ oldKey j / 2 ^ (30 - 4 * levelOf (oldKey i))
          let apart (remap : Word) (cap : Nat) : Prop := inside remap (16 * cap)
            ∧ (remap.toNat + 16 * cap ≤ desc.toNat ∨ desc.toNat + 64 ≤ remap.toNat)
          (o.kind = .tcommit slotOld desc →
            let remap := ptr (desc + 8)
            let mark (i : Nat) : Int := old.marks.getD i 0
            let digit (k : Nat) : Nat := k / 2 ^ (30 - 4 * levelOf k) % 16
            match broken [(remap.toNat % 16 != 0, 8), (num (desc + 36) 28 != 0, 36)] with
            | some k => fails 2 k
            | none =>
              ∀ parent : Nat → Nat,
              distinct →
              (∀ i, i < oldN → KeyFollows (oldKey i) ∧ (mark i = 1 → levelOf (oldKey i) < 6)
                ∧ (mark i = -1 → KeyFollows (parent i) ∧ levelOf (oldKey i) = levelOf (parent i) + 1
                  ∧ (∀ j, j < oldN → familyIs (oldKey j) = familyIs (oldKey i) →
                    (∃ c, c < childrenOf (parent i) ∧ oldKey j = childOf (parent i) c) ∧ mark j = -1 ∧ (j < old.ncell ↔ i < old.ncell))
                  ∧ ∀ c, c < childrenOf (parent i) → ∃ j, j < oldN ∧ oldKey j = childOf (parent i) c)) →
              apart remap (num (desc + 16) 4) →
              let news (i : Nat) : List Nat :=
                if mark i = 1 then (List.range (childrenOf (oldKey i))).map (childOf (oldKey i))
                else if mark i = -1 then (if digit (oldKey i) = 0 then [parent i] else [])
                else [oldKey i]
              ∃ x, laid x
                ∧ ((s.freeUnits d < units x.cells.length x.faces.length ∧ fails 3 0) ∨ ∃ w, placed x w
                  ∧ listed w x remap (num (desc + 16) 4) (desc + 20) (fun _ _ => 0) ∧ numIn w (at_ (desc + 32)) 4 = x.faces.length % 2 ^ 32)
                ∧ x = { made (old.number + 1).toNat old.part.toNat with ncell := x.ncell, cells := x.cells, faces := x.faces, remap := x.remap }
                ∧ (∀ k, (∃ j, j < x.ncell ∧ keyOf x j = k) ↔ ∃ i, i < old.ncell ∧ i < oldN ∧ k ∈ news i)
                ∧ ∀ j, x.ncell ≤ j → j < x.cells.length → ∃ i, old.ncell ≤ i ∧ i < oldN ∧ keyOf x j ∈ news i)
          ∧ (o.kind = .timport slotOld desc →
            let first := num (desc + 8) 4
            let count := num (desc + 12) 4
            let forms := num (desc + 16) 2
            let dest := ptr (desc + 48)
            let form (i : Nat) : Word := ptr (desc + BitVec.ofNat 64 (64 + 8 * i))
            match broken [(decide (old.ncell < first), 8), (decide (old.ncell < first + count), 12), (decide (8 < forms), 16),
              (num (desc + 56) 8 != 0, 56)] with
            | some k => fails 2 k
            | none =>
              inside desc (64 + 8 * forms) →
              match broken ((List.range forms).map fun i => ((form i).toNat % 64 != 0, 64 + 8 * i)) with
              | some k => fails 2 k
              | none =>
                ∀ fs : List Form, fs.length = forms →
                (∀ (i : Nat) (x : Form), fs[i]? = some x → ∃ ghosts, FormIn m (at_ (form i)) x ghosts none ∧ inside (form i) 64
                  ∧ inside (form i + BitVec.ofNat 64 (num (form i + 32) 8)) (16 * x.cells.length)
                  ∧ inside (form i + BitVec.ofNat 64 (num (form i + 40) 8)) (16 * x.faces.length)
                  ∧ (form i).toNat + num (form i + 32) 8 < 2 ^ 64 ∧ (form i).toNat + num (form i + 40) 8 < 2 ^ 64) →
                distinct → (dest = 0 ∨ inside dest (2 * old.ncell)) → old.ncell ≤ oldN → apart (ptr (desc + 24)) (num (desc + 32) 4) →
                let formKey (f i : Nat) : Nat := ((fs.getD f ⟨0, 0, 0, [], []⟩).cells.getD i ⟨0, 0, 0⟩).key.toNat
                let formOwns (f k : Nat) : Prop := ∃ i, i < (fs.getD f ⟨0, 0, 0, [], []⟩).ncell ∧ formKey f i = k
                let kept (k : Nat) : Prop := ∃ i, first ≤ i ∧ i < first + count ∧ oldKey i = k
                let twice (f : Nat) : Prop := ∃ k, formOwns f k ∧ (kept k ∨ ∃ e, e < f ∧ formOwns e k)
                (∀ f, f < forms → twice f → (∀ e, e < f → ¬twice e) → fails 6 f)
                ∧ ((∀ f, f < forms → ¬twice f) →
                  let oneLevel : Prop := ∃ l, (∀ i, i < oldN → levelOf (oldKey i) = l) ∧ ∀ x ∈ fs, ∀ c ∈ x.cells, levelOf c.key.toNat = l
                  let listing (k : Word) (e : Nat) (o : TCell) : Prop := ∃ x, fs[e]? = some x ∧ o ∈ x.cells ∧ o.key = k
                  ∃ x, laid x
                    ∧ ((¬oneLevel ∧ fails 1 (2 ^ 32 - 1)) ∨ (s.freeUnits d < units x.cells.length x.faces.length ∧ fails 3 0)
                      ∨ ∃ w, placed x w ∧ listed w x (ptr (desc + 24)) (num (desc + 32) 4) (desc + 36) formKey)
                    ∧ x = { made (old.number + 1).toNat (num (desc + 18) 2) with ncell := x.ncell, cells := x.cells, faces := x.faces, remap := x.remap }
                    ∧ (∀ k, (∃ j, j < x.ncell ∧ keyOf x j = k) ↔ kept k ∨ ∃ f, f < forms ∧ formOwns f k)
                    ∧ (∀ (j : Nat) (c : TCell), j < x.ncell → x.cells[j]? = some c → c.owner.toNat = num (desc + 18) 2)
                    ∧ ∀ (j : Nat) (c : TCell), x.ncell ≤ j → x.cells[j]? = some c →
                      (∀ i, dest ≠ 0 → i < old.ncell → oldKey i = c.key.toNat → c.owner.toNat = num (dest + BitVec.ofNat 64 (2 * i)) 2)
                      ∧ (dest = 0 ∨ (∀ i, i < old.ncell → oldKey i ≠ c.key.toNat) →
                        (∀ e o, listing c.key e o → (∀ f p, f < e → ¬listing c.key f p) → c.owner = o.owner)
                        ∧ ((∀ e o, ¬listing c.key e o) → c.owner = 0xFFFF))))))
  ∧ ∀ (i : Nat) (park : Bool) (desc src dst : Word) (n : Nat) (fmt efmt : BitVec 8) (lo' len' base' : Nat), o.ctx = .bedrock i →
    o.kind = (if park then .park desc src dst n fmt efmt else .unpark desc src dst n fmt efmt) → fmt ≤ 2 → efmt ≤ 2 →
    (fmt ≠ 0 → n % 32 = 0) → let a := o.agent o.die
    s.Maps a 0 lo len base → s.Maps a 2 lo' len' base' → lo' + len' ≤ 2 ^ 64 → inside desc 64 →
    let f := fmt.toNat
    let w := if f = 0 then 1 else if efmt = 0 then 4 else 2
    let image := if park then dst else src
    let plain := if park then src else dst
    let size := if f = 0 then n else if f = 1 then n + n / 32 else n / 2 + n / 32
    let pages (va : Word) (n p : Nat) : Prop := va.toNat / 65536 ≤ p ∧ p ≤ (va.toNat + n - 1) / 65536
    let did (m : Nat → Byte) : Prop := ∃ t, exec start s = .next t ∧ (∀ k, t.mem.byte k = m k)
      ∧ (s.setOp { o with stage := .performed }).OpsKept t
      ∧ (∀ u ∈ t.ingress, u ∈ s.ingress ∨ u.byOp = some o.id) ∧ (∀ u ∈ s.ingress, u ∈ t.ingress)
      ∧ s.BytesOnly { t with ops := s.ops, ingress := s.ingress, poisonAtoms := s.poisonAtoms }
    (n = 0 → did (status m desc 0 0))
    ∧ ∀ ci cp : Nat → Nat, 0 < n → image.toNat + size ≤ 2 ^ 64 → plain.toNat + n * w ≤ 2 ^ 64 →
      s.Classed a image size ci → s.Classed a plain (n * w) cp →
      ((∃ p, pages image size p ∧ ci p ≠ 2) ∨ (∃ p, pages plain (n * w) p ∧ cp p = 1) → did (status m desc 8 (if park then 16 else 8)))
      ∧ ((∀ p, pages image size p → ci p = 2) → (∀ p, pages plain (n * w) p → cp p ≠ 1) →
        lo' ≤ image.toNat → image.toNat + size ≤ lo' + len' → inside plain (n * w) →
        let im := base' + (image.toNat - lo')
        let scales := im + if f = 1 then n else n / 2
        let l := parkedFrom efmt.toNat
        let k := parkedAs f
        let counts (m : Nat → Byte) (scale : Nat → Nat) (inexact : Nat → Nat → Bool) : Nat → Byte :=
          status (withNums (withNums m (at_ (desc + 36)) 4 [min ((List.range (n / 32)).filter fun j => scale j == 255).length 0xFFFFFFFF])
            (at_ (desc + 40)) 8 [((List.range n).filter fun e => inexact (e / 32) (e % 32)).length]) desc 0 0
        (f = 0 → did (counts (if park then moved m im (at_ plain) n else moved m (at_ plain) im n) (fun _ => 0) (fun _ _ => false)))
        ∧ (f ≠ 0 → park = true → ∃ (scale : Nat → Nat) (code : Nat → Nat → Nat) (inexact : Nat → Nat → Bool),
          (∀ j, j < n / 32 → Parked k (if f = 1 then 8 else 2) (fun e => l.value (numIn m (at_ plain + (32 * j + e) * w) w)) (scale j) (code j) (inexact j))
          ∧ did (counts (withNums (withNums m im 1 (if f = 1 then (List.range n).map fun e => code (e / 32) (e % 32)
              else (List.range (n / 2)).map fun b => code (2 * b / 32) (2 * b % 32) + 16 * code (2 * b / 32) (2 * b % 32 + 1)))
              scales 1 ((List.range (n / 32)).map scale)) scale inexact))
        ∧ (f ≠ 0 → park = false → ∃ (value : Nat → Nat → Nat) (inexact : Nat → Nat → Bool),
          let scale (j : Nat) : Nat := (m (scales + j)).toNat
          let code (e : Nat) : Nat := if f = 1 then (m (im + e)).toNat else (m (im + e / 2)).toNat / 16 ^ (e % 2) % 16
          (∀ j e, j < n / 32 → e < 32 → Unparked l k (scale j) (code (32 * j + e)) (value j e) (inexact j e))
          ∧ did (counts (withNums m (at_ plain) w ((List.range n).map fun e => value (e / 32) (e % 32))) scale inexact)))

/-- R377: the checks of a TOPO instruction, and its acceptance. R378, R384, R391: TBIND, TCOMMIT and TIMPORT create a
generation in the lowest free slot, which their operation builds, and give its handle, or 0 where there is none to have.
R379: TFREE closes a generation, and destroys it once its operations have completed. R372: TLEVEL and TCUT also run on
the schedule context, on which the others raise ILLOP. R349, R496: acceptance waits for the stream's RSTX and RAMOX. That an
instruction that waits gives up its turn is the model's choice (log 4). -/
def Obligations.TopologyInstructions : Prop := ∀ (s : State) (d a b : Reg),
  let die := s.hart.die
  let id := ((s.rd a).setWidth 16).toNat
  let p := s.rd b
  let names (k : Nat) (g : Gen) : Prop := id = 0x2000 + 1024 * die + k ∧ k < 1023 ∧ s.gen die k = some g ∧ g.closed = none
  let sched : Prop := id = 0x2000 + 1024 * die + 1023
  let waits : Prop := s.topoFull die = true ∨ s.ReleaseWaits 3
  let room (k : Nat) : Prop := ¬waits ∧ (s.timeline (.topo die k)).issued + 1 < 2 ^ 63
  let takes (i : Instr) (k : Nat) (op : OpKind) : Prop := room k → ∃ t, exec i s = .next t ∧ s.Accepted t i (.topo die k) op d
  let token (i : Instr) (align : Nat) (op : OpKind) : Prop :=
    (∀ k g, names k g → (p.toNat % align ≠ 0 → s.Traps i .misalign p)
      ∧ (p.toNat % align = 0 → takes i k op ∧ (waits → s.Waits i)))
    ∧ ((∀ k g, ¬names k g) → ¬sched → s.TrapsOn i .illop)
  let gives (i : Instr) (k : Nat) (op : OpKind) (also : Option (Nat × Nat)) : Prop :=
    ∃ t, exec i s = .next t ∧ s.NewOp t (.topo die k) op 0 also 0 ∧ s.EngineOnly t
      ∧ t.st = { s.st with g := t.st.g, pc := s.st.pc + 4, lastG := d, pfxp := false, sig := sigAdd s.st.sig (encodeNat i) 4 }
      ∧ (∀ r, t.st.rd r = if r = 0 then 0 else if r = d then BitVec.ofNat 64 (0x2000 + 1024 * die + k) else s.st.rd r)
      ∧ t.gen die k = some { Gen.fresh die k with tl := ⟨1, 0, []⟩ }
      ∧ (∀ o, also = some o → t.timeline (.topo die o.1) = { s.timeline (.topo die o.1) with issued := o.2 })
      ∧ ∀ e j, (e, j) ≠ (die, k) → (∀ o, also = some o → (e, j) ≠ (die, o.1)) → t.gen e j = s.gen e j
  let free (k : Nat) : Prop := (vget s.hub.tsbase 0 die).getLsbD 0 = true ∧ k < 1023 ∧ s.gen die k = none
    ∧ ∀ j, j < k → (s.gen die j).isSome = true
  let none_ : Prop := (vget s.hub.tsbase 0 die).getLsbD 0 = false ∨ ∀ j, j < 1023 → (s.gen die j).isSome = true
  s.onFeeder = true ∨ s.hart.late = [] →
  (s.ScalarReady .never true false [d, a, b] →
    token (.tmark d a b) 8 (.tmark p) ∧ token (.tcolour d a b) 8 (.tcolour p) ∧ token (.tlevel d a b) 64 (.tlevel p)
    ∧ token (.tcut d a b) 64 (.tcut p) ∧ token (.tremap d a b) 64 (.tremap p) ∧ token (.txport d a b) 64 (.txport p)
    ∧ (sched → s.TrapsOn (.tmark d a b) .illop ∧ s.TrapsOn (.tcommit d a b) .illop ∧ s.TrapsOn (.tcolour d a b) .illop
      ∧ s.TrapsOn (.tremap d a b) .illop ∧ s.TrapsOn (.txport d a b) .illop ∧ s.TrapsOn (.timport d a b) .illop
      ∧ s.TrapsOn (.tnbr d a b) .illop ∧ s.TrapsOn (.tface d a b) .illop ∧ s.TrapsOn (.tfree a) .illop
      ∧ (p.toNat % 64 = 0 → takes (.tlevel d a b) 1023 (.tlevel p) ∧ takes (.tcut d a b) 1023 (.tcut p)))
    ∧ ((s.rd a).toNat % 64 ≠ 0 → s.Traps (.tbind d a b) .misalign (s.rd a))
    ∧ ((s.rd a).toNat % 64 = 0 → p.toNat % 8 ≠ 0 → s.Traps (.tbind d a b) .misalign p)
    ∧ ((s.rd a).toNat % 64 = 0 → p.toNat % 8 = 0 →
      (none_ → ∃ t, exec (.tbind d a b) s = .next t ∧ s.Wrote t (.tbind d a b) d 0)
      ∧ ∀ k, free k → (waits → s.Waits (.tbind d a b))
        ∧ (¬waits → gives (.tbind d a b) k (.tbind (s.rd a) p) none))
    ∧ ((∀ k g, ¬names k g) → s.TrapsOn (.tcommit d a b) .illop ∧ s.TrapsOn (.timport d a b) .illop)
    ∧ (∀ k g, names k g → p.toNat % 64 ≠ 0 → s.Traps (.tcommit d a b) .misalign p ∧ s.Traps (.timport d a b) .misalign p)
    ∧ ∀ old g, names old g → p.toNat % 64 = 0 →
      (none_ → (∃ t, exec (.tcommit d a b) s = .next t ∧ s.Wrote t (.tcommit d a b) d 0)
        ∧ ∃ t, exec (.timport d a b) s = .next t ∧ s.Wrote t (.timport d a b) d 0)
      ∧ ∀ k, free k → (waits → s.Waits (.tcommit d a b) ∧ s.Waits (.timport d a b)) ∧ (room old →
        gives (.tcommit d a b) k (.tcommit old p) (some (old, g.tl.issued + 1))
        ∧ gives (.timport d a b) k (.timport old p) (some (old, g.tl.issued + 1))))
  ∧ (s.ScalarReady .never true false [a] → ∀ k g, id = 0x2000 + 1024 * die + k → k < 1023 →
    let me := (s.hart.tag, s.onFeeder)
    let i : Instr := .tfree a
    (s.gen die k = none → s.TrapsOn i .illop)
    ∧ (s.gen die k = some g →
      (g.closed ≠ none → g.closed ≠ some me → s.TrapsOn i .illop)
      ∧ (g.closed = none ∨ g.closed = some me →
        (g.tl.count = g.tl.issued → ∃ t u v, exec i s = .next t ∧ s.Finished u i ∧ u.CtxEnded v (.topo die k)
          ∧ t = { v with gens := t.gens }
          ∧ t.gen die k = none ∧ ∀ e j, (e, j) ≠ (die, k) → t.gen e j = s.gen e j)
        ∧ (g.tl.count ≠ g.tl.issued → ∃ t, exec i s = .next t ∧ t = { s with gens := t.gens, quantum := 0 }
          ∧ t.gen die k = some { g with closed := some me } ∧ ∀ e j, (e, j) ≠ (die, k) → t.gen e j = s.gen e j))))

/-- R380-R382: TNBR and TFACE give the number of their tiles and start a stream of them: a row of neighbours for each
cell in ascending index, or LEFT, RIGHT and the index of each face, shifted, with padding. TOPO_TILE_PUSH puts the next
tile of the oldest stream into its queue, and the stream completes with its last, one without tiles at once. R349, R496:
acceptance waits for the stream's RSTX and RAMOX. That TNBR and TFACE give up the turn while they wait is the model's choice
(log 4). -/
def Obligations.TileStreams : Prop :=
  (∀ (s : State) (d a b : Reg) (k : Nat) (g : Gen),
    let die := s.hart.die
    let w := s.rd b
    let vl := s.st.vl.toNat
    let rc := s.st.rc.toNat
    let sh := ((w >>> 56).setWidth 3).toNat
    let queue := ((w >>> 59).setWidth 1).toNat
    let index (x : Nat) : Nat := if 0xFFFFFFFE ≤ x then x else x * 2 ^ sh % 2 ^ 32
    let el (t : Tile) (r e : Nat) : Nat := leNat ((t.bytes.drop ((r * t.vl + e) * 4)).take 4)
    let streams (i : Instr) (n : Nat) (val : Nat → Nat → Nat → Nat) : Prop := (∀ o ∈ s.ops, o.id ≠ s.nextOp) →
      ∃ t, exec i s = .next t ∧ s.EngineOnly t ∧ t.nextOp = s.nextOp + 1 ∧ (t.timeline (.topo die k)).issued = g.tl.issued + 1
        ∧ t.st = { s.st with g := t.st.g, pc := s.st.pc + 4, lastG := d, pfxp := false, sig := sigAdd s.st.sig (encodeNat i) 4 }
        ∧ (∀ r, t.st.rd r = if r = 0 then 0 else if r = d then BitVec.ofNat 64 n else s.st.rd r)
        ∧ (n = 0 → t.ops = s.ops ∧ (g.tl.done = [] → (t.timeline (.topo die k)).count
            = if g.tl.issued = g.tl.count then g.tl.issued + 1 else g.tl.count))
        ∧ (0 < n → ∃ l, s.NewOp t (.topo die k) (.tiles queue l) 0 none g.tl.issued ∧ (t.timeline (.topo die k)).count = g.tl.count
        ∧ l.length = n ∧ ∀ j x, l[j]? = some x → (x.sew.toNat, x.vl, x.rc, x.full) = (2, vl, rc, true) ∧ x.bytes.length = rc * vl * 4
          ∧ ∀ r e, r < rc → e < vl → el x r e = val j r e)
    let first := (w.setWidth 32).toNat
    let count := ((w >>> 32).setWidth 24).toNat
    let parts := ((w >>> 16).setWidth 6).toNat
    let part := ((w >>> 8).setWidth 5).toNat
    let bench := (w.setWidth 6).toNat
    let nbrOk : Prop := first + count ≤ g.ncell ∧ 24 ≤ vl ∧ w >>> 60 = 0
    let faceOk : Prop := rc = 3 ∧ 0 < vl ∧ 1 ≤ parts ∧ parts ≤ 32 ∧ (bench ≤ 32 ∨ bench = 63) ∧ (bench = 63 → parts = 1)
      ∧ (bench ≤ 32 → g.benches ≠ none) ∧ part < parts ∧ w >>> 60 = 0 ∧ (w >>> 22).setWidth 34 = 0#34
      ∧ (w >>> 13).setWidth 3 = 0#3 ∧ (w >>> 6).setWidth 2 = 0#2
    s.ScalarReady .never true false [d, a, b] → ((s.rd a).setWidth 16).toNat = 0x2000 + 1024 * die + k → k < 1023 →
    s.gen die k = some g → g.closed = none → s.onFeeder = true ∨ s.hart.late = [] →
    (s.hart.hasFeeder = false ∨ vtypeSew s.st.vtype ≠ 2 ∨ vtypeLmul s.st.vtype ≠ 1 →
      s.TrapsOn (.tnbr d a b) .illop ∧ s.TrapsOn (.tface d a b) .illop)
    ∧ (s.hart.hasFeeder = true → vtypeSew s.st.vtype = 2 → vtypeLmul s.st.vtype = 1 →
      ((∃ o ∈ s.ops, o.writes die k = true) → s.Waits (.tnbr d a b) ∧ s.Waits (.tface d a b))
      ∧ ((∀ o ∈ s.ops, o.writes die k = false) →
        (¬nbrOk → s.TrapsOn (.tnbr d a b) .illop) ∧ (¬faceOk → s.TrapsOn (.tface d a b) .illop)
        ∧ (s.topoFull die = true ∨ s.ReleaseWaits 3 → (nbrOk → s.Waits (.tnbr d a b)) ∧ (faceOk → s.Waits (.tface d a b)))
        ∧ (s.topoFull die = false → ¬s.ReleaseWaits 3 → g.tl.issued + 1 < 2 ^ 63 →
          (∀ nbrs : Nat → List Nat, nbrOk → (∀ f ∈ g.faces, f.left < 2 ^ 32 ∧ f.right < 2 ^ 32) →
            (∀ c, (nbrs c).Pairwise (· < ·) ∧ ∀ x, x ∈ nbrs c ↔
              ∃ f ∈ g.faces, f.right ≠ 0xFFFFFFFE ∧ ((f.left = c ∧ f.right = x) ∨ (f.left ≠ c ∧ f.right = c ∧ f.left = x))) →
            streams (.tnbr d a b) ((count + rc - 1) / rc) fun j r e =>
              if j * rc + r < count then index ((nbrs (first + j * rc + r)).getD e 0xFFFFFFFF) else 0xFFFFFFFF)
          ∧ (∀ fs : List Nat, faceOk → (∀ f ∈ g.faces, f.left < 2 ^ 32 ∧ f.right < 2 ^ 32) → g.faces.length < 2 ^ 32 →
            (bench = 63 → g.benches = none → fs = List.range g.faces.length) →
            (bench = 63 → g.benches ≠ none → fs = (List.range 33).flatMap fun x =>
              (List.range g.faces.length).filter fun i => (g.benches.getD []).getD i 32 == x) →
            (bench ≤ 32 → fs = (((List.range g.faces.length).filter fun i => (g.benches.getD []).getD i 32 == bench).take
              ((part + 1) * ((List.range g.faces.length).filter fun i => (g.benches.getD []).getD i 32 == bench).length / parts)).drop
              (part * ((List.range g.faces.length).filter fun i => (g.benches.getD []).getD i 32 == bench).length / parts)) →
            streams (.tface d a b) ((fs.length + vl - 1) / vl) fun j r e =>
              match fs[j * vl + e]? with
              | none => 0xFFFFFFFF
              | some i => match g.faces[i]? with
                | none => 0xFFFFFFFF
                | some f => index (if r = 0 then f.left else if r = 1 then f.right else i))))))
  ∧ (∀ (s : State) (o : Op) (q : Nat) (x : Tile) (rest : List Tile),
    let i : Instr := .topoTilePush o.id
    let room : Prop := s.hart.isSaved = false ∧ (vget s.hart.tq [] q).length < 2 ∧ s.firstStream o q = true
    s.op o.id = some o → o.kind = .tiles q (x :: rest) → s.occupied = true → s.hart.isControl = false → o.issuer = s.hart.tag → q < 2 →
    o.token = 0 → o.also = none → (∃ d k, o.ctx = .topo d k ∧ k < 1023 ∧ (s.gen d k).isSome = true) →
    (room → ∃ t, exec i s = .next t
      ∧ t.hart = { s.hart with tq := vset s.hart.tq q (vget s.hart.tq [] q ++ [x]) }
      ∧ (rest ≠ [] → t.ops = (s.setOp { o with kind := .tiles q rest }).ops ∧ { t with hart := s.hart, ops := s.ops } = s)
      ∧ (rest = [] → t.ops = s.ops.filter (fun p => p.id != o.id) ∧ { t with hart := s.hart, ops := s.ops, gens := s.gens } = s
        ∧ (∀ c, c ≠ o.ctx → t.timeline c = s.timeline c)
        ∧ (t.timeline o.ctx).issued = (s.timeline o.ctx).issued
        ∧ (o.num = (s.timeline o.ctx).count + 1 → (s.timeline o.ctx).done = [] → (t.timeline o.ctx).count = o.num)))
    ∧ (¬room → exec i s = .next s))

/-- R258: SPAWN reads a record and puts it, bound to the hart's die, into the pool, or into the spoil queue when the pool is full
outside its reserve, or refuses it; a malformed record or one with a BGROUP gives 3. R262: WAITCH completes once DONE has reached
its target modulo 2^32. R263, R264: BARA counts an arrival and gives its token; BAR counts one once and completes when the episode
of its token has; BARW waits for the episode of a token, and raises ILLOP for a token that is none of its scope. An episode of a
unit completes when every member in it has arrived or retired. That a child counts whatever d is, and what a step that waits does,
are the model's choices (logs 4, 41). -/
def Obligations.SpawnAndBarriers : Prop :=
  (∀ (s : State) (d a : Reg) (w : Nat → Word),
    let i : Instr := .spawn d a
    let p := s.rd a
    let die := s.hart.die
    let x := vget s.dispatchers dispatcherDefault die
    let bytes := (List.range 8).flatMap fun j => toLe 8 (w j).toNat
    let bound : PoolRec := ⟨bytes.set 52 (BitVec.ofNat 8 (2 ^ die)), some s.hart.tag⟩
    let spawned (y : Dispatcher) (v : Word) : Prop := ∃ t u, exec i s = .next t ∧ s.Wrote u i d v
      ∧ t = { u with hart := { u.hart with spawned := s.hart.spawned + 1 }, dispatchers := vset s.dispatchers die y }
    let refused (v : Word) : Prop := ∃ t, exec i s = .next t ∧ s.Wrote t i d v
    let done := s.hart.childDone - (s.rd a).setWidth 32
    (s.ScalarReady .never true false [d, a] →
      (p.toNat % 64 ≠ 0 → s.Traps i .misalign p)
      ∧ (p.toNat % 64 = 0 → s.onFeeder = false → s.hart.vq ≠ [] → s.Waits i)
      ∧ (p.toNat % 64 = 0 → s.onFeeder = true ∨ s.hart.vq = [] → s.Calm → s.Words p 8 w →
        (malformedRecord bytes = true ∨ recGroup bytes ≠ 0 → refused 3)
        ∧ (malformedRecord bytes = false → recGroup bytes = 0 →
          (x.pool.length < 3840 → spawned { x with pool := x.pool ++ [bound] } 1)
          ∧ (3840 ≤ x.pool.length → s.spoilOpen die = true → spawned { x with spoil := x.spoil ++ [bound] } 2)
          ∧ (3840 ≤ x.pool.length → s.spoilOpen die = false → refused 0))))
    ∧ (s.ScalarReady .never true false [a] →
      (done.getLsbD 31 = false → ∃ t u, exec (.waitch a) s = .next t ∧ s.Finished u (.waitch a) ∧ t.st = u.st
        ∧ { t with hart := { t.hart with inWaitch := u.hart.inWaitch, inWaitchFeed := u.hart.inWaitchFeed } } = u)
      ∧ (done.getLsbD 31 = true → ∃ t, exec (.waitch a) s = .next t ∧ t.quantum = 0
        ∧ (if s.onFeeder then t.hart.inWaitchFeed = true else t.hart.inWaitch = true)
        ∧ { t with quantum := s.quantum, hart := { t.hart with inWaitch := s.hart.inWaitch, inWaitchFeed := s.hart.inWaitchFeed } } = s)))
  ∧ (∀ (s : State) (d a : Reg) (sc : BitVec 3), sc.toNat < 4 →
    let n := vget s.hart.arrive 0 sc.toNat
    let arrived := vset s.hart.arrive sc.toNat (n + 1)
    let token (k : Nat) : Word := BitVec.ofNat 32 k ++ (0#29 ++ sc)
    let t := s.rd a
    let reached (h : Hart) (k : Nat) : Prop := k ≤ s.episodes h sc.toNat
    let lone : Prop := ∀ g ∈ s.groups, g.id ≠ s.hart.group
    (s.ScalarReady .never false false [d] →
      (s.hart.vq ≠ [] → s.Waits (.bara d sc))
      ∧ (s.hart.vq = [] → s.hart.late = [] → ∃ u v, exec (.bara d sc) s = .next u ∧ s.Wrote v (.bara d sc) d (token (n + 1))
        ∧ u = { v with hart := { v.hart with arrive := arrived } }))
    ∧ (s.ScalarReady .never false false [a] →
      let epoch := (t >>> 32).toNat
      let sound : Prop := (t.setWidth 32 >>> 3) = 0 ∧ t.setWidth 3 = sc ∧ 1 ≤ epoch ∧ epoch ≤ n
      (¬sound → s.TrapsOn (.barw a sc) .illop)
      ∧ (sound → reached s.hart epoch → ∃ u, exec (.barw a sc) s = .next u ∧ s.Finished u (.barw a sc))
      ∧ (sound → ¬reached s.hart epoch → s.Waits (.barw a sc)))
    ∧ (s.ScalarReady .never false false [] → n + 1 < 2 ^ 32 → s.hart.late = [] →
      (s.hart.barpend = none → s.hart.vq ≠ [] → s.Waits (.bar sc))
      ∧ (s.hart.barpend = none → s.hart.vq = [] →
        (lone ∨ reached s.hart (n + 1) → ∃ u v, exec (.bar sc) s = .next u ∧ s.Finished v (.bar sc)
          ∧ u = { v with hart := { v.hart with arrive := arrived } })
        ∧ (¬lone → ¬reached s.hart (n + 1) → exec (.bar sc) s =
            .next { s with hart := { s.hart with arrive := arrived, barpend := some (token (n + 1)) }, quantum := 0 }))
      ∧ (∀ k, k < 2 ^ 32 → s.hart.barpend = some (token k) →
        (reached s.hart k → ∃ u v, exec (.bar sc) s = .next u ∧ s.Finished v (.bar sc)
          ∧ u = { v with hart := { v.hart with barpend := none } })
        ∧ (¬reached s.hart k → s.Waits (.bar sc)))))
  ∧ (∀ (s : State) (g : Group) (scope unit : Nat), s.groups.find? (fun x => x.id == g.id) = some g →
    let i : Instr := .barrierEpisodeComplete g.id scope unit
    let n := g.completed scope unit + 1
    let here (m : Member) : Prop := m ∈ g.members ∧ s.unitOf scope m.startid = unit
    let there (m : Member) : Prop := m.retired = true ∨ (∀ h, s.findHart m.tag = some h → n ≤ vget h.arrive 0 scope)
    ((∃ m, here m ∧ m.retired = false) → (∀ m, here m → there m) →
      ∃ t g', exec i s = .next t ∧ { t with groups := s.groups } = s ∧ t.groups.find? (fun x => x.id == g.id) = some g'
        ∧ g'.id = g.id ∧ g'.members = g.members
        ∧ ∀ sc' u', g'.completed sc' u' = if sc' = scope ∧ u' = unit then n else g.completed sc' u')
    ∧ ((∃ m, here m ∧ ¬there m) ∨ (∀ m, here m → m.retired = true) → exec i s = .next s))

/-- R493-R495, R497: a remote access raises ILLOP for an element of less than 32 bits or an overlap, and MISALIGN for an
offset that is no multiple of the element; without an active position it completes; its positions in one block of one
rank go out as one request, and it waits at the head of the vector queue. Once every position is marked it completes:
the loaded and old values stand, m0 is clear. The feeder's RLDX takes its indices from tq2 and reserves a slot. R488: a request
keeps the budget under which it was sent. R452: it carries the poison of its data. That it waits is log 4, the port log 28. -/
def Obligations.RemoteInstructions : Prop := ∀ (s : State) (d a b : Reg) (k : BitVec 3),
  let accesses : List (Instr × Nat) :=
    [(.rldx d a b k, 0), (.ramoxAdd d a b k, 16), (.ramoxSwp d a b k, 17), (.ramoxAnd d a b k, 18), (.ramoxOr d a b k, 19),
      (.ramoxXor d a b k, 20), (.ramoxMin d a b k, 21), (.ramoxMax d a b k, 22), (.ramoxMinu d a b k, 23),
      (.ramoxMaxu d a b k, 24), (.ramoxFmin d a b k, 25), (.ramoxFmax d a b k, 26)]
  let window := ((s.rd a).setWidth 16).toNat
  let budget := if s.hub.rtimeout = 0 then 0x01000000 else s.hub.rtimeout
  let sent (t : State) (rank : Nat) (m : Msg) : Prop := t.outbox = (s.sendTo rank m).outbox ∧ t.pairs = (s.sendTo rank m).pairs
  (let c := s.vcfg
    let l := c.lmul
    let w := 2 ^ c.sew
    let act := c.active s.hart.m k.toNat
    let index (p : Nat × Nat) : Nat := elemRd s.hart.v c.g 8 b.toNat p.1 p.2
    let group := (b.toNat, l * (8 / w))
    let places := c.places act
    let sends (i : Instr) (fn : Nat) (u : Stream) : Prop := ∀ rank block, rank < 4096 → places ≠ [] →
      (∀ p ∈ places, index p / 2 ^ 48 = rank ∧ index p % 2 ^ 48 / 256 = block) →
      ∃ t e, exec i s = .next t ∧ t.st = { u with pc := s.st.pc + 4, pfxp := false, sig := sigAdd s.st.sig (encodeNat i) 4 }
        ∧ t.hart.vq = [e] ∧ e.word = BitVec.ofNat 32 (encodeNat i)
        ∧ t.hart.remote = [⟨s.nextReq, places, s.cycle, fn != 1, false, budget⟩] ∧ t.nextReq = s.nextReq + 1
        ∧ sent t rank ⟨.remoteRequest, [rank, s.hart.tag.toNat, s.nextReq, window, fn, w],
            places.flatMap fun p => [index p % 2 ^ 48, elemRd s.hart.v c.g w d.toNat p.1 p.2,
              (elemBad s.hart.poison c.g w d.toNat p.1 p.2).toNat]⟩
        ∧ { t with outbox := s.outbox, pairs := s.pairs, nextReq := s.nextReq, hart := { t.hart with main := s.hart.main, vq := [], remote := [] } } = s
    let misaligned (i : Instr) : Prop := ∀ p before after, places = before ++ p :: after →
      (∀ x ∈ before, index x % w = 0) → index p % w ≠ 0 → s.Traps i .misalign (BitVec.ofNat 64 (index p))
    let aligned : Prop := ∀ p ∈ places, index p % w = 0
    s.hart.remote = [] → s.hart.remoteBad = [] → s.Calm → s.M0Clear →
    (s.VecReady .never (some (d.toNat, l)) [group] True [a] → ∀ i fn, (i, fn) ∈ accesses →
      (c.sew < 2 ∨ ¬Apart (d.toNat, l) group → s.TrapsOn i .illop)
      ∧ (2 ≤ c.sew → Apart (d.toNat, l) group → c.Fits w l →
        misaligned i ∧ (aligned → sends i fn { s.st with lastV := d })
        ∧ (places = [] → ∃ t, exec i s = .next t ∧ s.VecSet t i d 0 ∧ s.VecWrote t c act w l d.toNat fun _ _ => 0)))
    ∧ (s.VecReady .never none [(d.toNat, l), group] (d.toNat % 2 ≠ b.toNat % 2) [a] →
      (c.sew < 2 → s.TrapsOn (.rstx d a b k) .illop)
      ∧ (2 ≤ c.sew → c.Fits w l →
        misaligned (.rstx d a b k) ∧ (aligned → sends (.rstx d a b k) 1 s.st)
        ∧ (places = [] → ∃ t, exec (.rstx d a b k) s = .next t ∧ s.VecPassed t (.rstx d a b k) s.st
          ∧ t.hart.v = s.hart.v ∧ t.hart.m = s.hart.m))))
  ∧ (∀ e rest, s.atHead = true → s.onFeeder = false → s.hart.vq = e :: rest → e.pfx = none → e.again = false → s.Calm →
    let c := VCfg.of s.hart e
    let act := c.active s.hart.m k.toNat
    let completes (i : Instr) (t : State) : Prop := exec i s = .next t
      ∧ t.hart.vq = rest ∧ t.hart.main = { s.hart.main with vstart := 0 } ∧ t.hart.vcount = s.hart.vcount + 1
      ∧ (∀ n r x, r < 8 → x < 16384 → maskRd t.hart.m n r x = if n = 0 then false else maskRd s.hart.m n r x)
      ∧ { t with atHead := true, hub := { t.hub with rascnt := s.hub.rascnt }
                 hart := { t.hart with main := s.hart.main, vq := s.hart.vq, v := s.hart.v, m := s.hart.m
                                       poison := s.hart.poison, vcount := s.hart.vcount } } = s
    c.Fits (2 ^ c.sew) c.lmul → (∀ q ∈ s.hart.remote, q.feeder = true) → s.hart.remoteBad = [] →
    (∀ r x, r < c.rc → x < c.vl → act r x = true → maskRd s.hart.m 0 r x = true) →
    (∀ i fn, (i, fn) ∈ accesses → ∃ t, completes i t
      ∧ s.VecWrote t c act (2 ^ c.sew) c.lmul d.toNat fun r x => elemRd s.hart.v c.g (2 ^ c.sew) d.toNat r x)
    ∧ ∃ t, completes (.rstx d a b k) t ∧ t.hart.v = s.hart.v)
  ∧ (∀ rank block tile tiles, s.onFeeder = true → s.atHead = false → s.hart.isControl = false → s.st.pfxp = false →
    let c := s.vcfg
    let q := d.toNat
    let i : Instr := .rldx d a b k
    let places := c.places fun _ _ => true
    s.regWait [a] = false → b = 2 → k = 0 → q < 2 → c.lmul = 1 → c.sew = 3 → s.st.vstart = 0 → s.hart.fm0 = [] →
    (vget s.hart.tq [] q).length < 2 → (∀ t ∈ vget s.hart.tq [] q, t.full = true) → s.streamAhead q = false →
    s.hart.remote = [] → s.hart.remoteBad = [] → vget s.hart.tq [] 2 = tile :: tiles → tile.full = true →
    (tile.sew.toNat, tile.vl, tile.rc) = (3, c.vl, c.rc) → places ≠ [] → rank < 4096 →
    (∀ p ∈ places, tile.elem p.1 p.2 % 8 = 0 ∧ tile.elem p.1 p.2 / 2 ^ 48 = rank ∧ tile.elem p.1 p.2 % 2 ^ 48 / 256 = block) →
    ∃ t slot, exec i s = .next t ∧ t.quantum = 0 ∧ t.st = s.st
      ∧ t.hart.tq = vset s.hart.tq q (vget s.hart.tq [] q ++ [slot]) ∧ slot.full = false
      ∧ (slot.sew.toNat, slot.vl, slot.rc) = (3, c.vl, c.rc)
      ∧ t.hart.remote = [⟨s.nextReq, places, s.cycle, true, true, budget⟩] ∧ t.nextReq = s.nextReq + 1
      ∧ sent t rank ⟨.remoteRequest, [rank, s.hart.tag.toNat, s.nextReq, window, 0, 8],
          places.flatMap fun p => [tile.elem p.1 p.2 % 2 ^ 48, 0, 0]⟩
      ∧ { t with outbox := s.outbox, pairs := s.pairs, nextReq := s.nextReq, quantum := s.quantum
                 hart := { t.hart with tq := s.hart.tq, remote := [] } } = s)

/-- R493, R495: a response writes the values of its positions where the waiting instruction asks and marks them, or
notes a refusal; one that nothing awaits is discarded; past the budget it was sent under, and not before, the positions of a
request end as RDOWN (R488). R452: poisoned data poisons the element that takes it. R492, R493, R497: a request is served element
by element through its window, each performed or refused with its kind, and the response is sent at once; R472, R481: one for
storage across a shut link waits. R489, R490: a message
to another package leaves on the port of its route with the next number of the pair's sequence (which port is log 28). -/
def Obligations.RemoteEvents : Prop :=
  (∀ (s : State) (e : VEntry) (rest : List VEntry) (q : RemoteReq) (results : List (BitVec 8 × Word × Bool)),
    let c := VCfg.of s.hart e
    let w := 2 ^ c.sew
    let d := e.word.toNat / 128 % 32
    let store : Prop := e.word.toNat / 2 ^ 26 = 1
    let key (p : Nat × Nat) : Nat := p.1 * 65536 + p.2
    let refused (p : Nat × Nat) (kind : BitVec 8) (t : State) : Prop := (key p, kind) ∈ t.hart.remoteBad
    s.occupied = true → s.hart.isControl = false → s.hart.vq = e :: rest → s.hart.remote.find? (fun x => x.id == q.id) = some q →
    q.feeder = false → 1 ≤ c.g → c.g ≤ 8 → q.positions.Nodup →
    (∀ p ∈ q.positions, p.1 < 8 ∧ p.2 < c.lmul * rowElems c.g w ∧ p.2 < 16384) →
    (results.length = q.positions.length →
      ∃ t, exec (.remoteResponse s.hart.tag q.id results) s = .next t
        ∧ t.hart.remote = s.hart.remote.filter (fun x => x.id != q.id)
        ∧ (∀ p kind v bad, (p, kind, v, bad) ∈ q.positions.zip results →
          (kind = 0 → maskRd t.hart.m 0 p.1 p.2 = true
            ∧ (¬store → elemRd t.hart.v c.g w d p.1 p.2 = v.toNat % 2 ^ (8 * w)
              ∧ (bad = true → ∀ x ∈ poisonKeys c.g w d p.1 p.2, x ∈ t.hart.poison)))
          ∧ (kind ≠ 0 → refused p kind t ∧ maskRd t.hart.m 0 p.1 p.2 = maskRd s.hart.m 0 p.1 p.2
            ∧ elemRd t.hart.v c.g w d p.1 p.2 = elemRd s.hart.v c.g w d p.1 p.2))
        ∧ (∀ r x, r < 8 → (r, x) ∉ q.positions →
          (x < 16384 → maskRd t.hart.m 0 r x = maskRd s.hart.m 0 r x)
          ∧ (x < c.lmul * rowElems c.g w → elemRd t.hart.v c.g w d r x = elemRd s.hart.v c.g w d r x))
        ∧ (store → t.hart.v = s.hart.v)
        ∧ t.hart.vq = { e with latched := e.latched ++
            ((q.positions.zip results).filter fun y => y.2.1 == 0 && !y.2.2.2).map fun y => key y.1 } :: rest
        ∧ ((∀ y ∈ results, y.2.2 = false) → t.hart.poison = s.hart.poison ∧ t.hub = s.hub)
        ∧ { t with hub := { t.hub with rascnt := s.hub.rascnt }
                   hart := { t.hart with remote := s.hart.remote, remoteBad := s.hart.remoteBad, m := s.hart.m, v := s.hart.v
                                         vq := s.hart.vq, poison := s.hart.poison } } = s)
    ∧ (∀ id, (∀ x ∈ s.hart.remote, x.id ≠ id) → exec (.remoteResponse s.hart.tag id results) s = .next s)
    ∧ (s.hart.run = .running →
      ((s.cycle - q.sent).toNat < q.budget.toNat → exec (.remoteTimeout s.hart.tag q.id) s = .next s)
      ∧ (q.budget.toNat ≤ (s.cycle - q.sent).toNat → ∃ t, exec (.remoteTimeout s.hart.tag q.id) s = .next t
        ∧ t.hart.remote = s.hart.remote.filter (fun x => x.id != q.id)
        ∧ t.hart.remoteBad = s.hart.remoteBad ++ q.positions.map (fun p => (key p, 0x1A))
        ∧ { t with hart := { t.hart with remote := s.hart.remote, remoteBad := s.hart.remoteBad } } = s)))
  ∧ (∀ (s : State) (src wid : BitVec 16) (id fn size : Nat) (elems : List (Word × Word × Bool)) (x : Word × Word × Bool) (xl : Word → Xl),
    let at_ := baseOf s.hub.rwtbase + 32 * wid.toNat
    let win : Window := ⟨s.mem.readLe at_ 8, s.mem.readLe (at_ + 8) 8, s.mem.byte (at_ + 16), (s.mem.byte (at_ + 17)).toNat
      , (s.mem.byte (at_ + 18)).toNat⟩
    let acc := if fn = 0 then 0 else if fn = 1 then 1 else 2
    let answers (i : List (Word × Word × Bool)) (t : State) (l : List (BitVec 8 × Word × Bool)) : Prop :=
      let r := s.sendBy responsePort s.rank src.toNat
        ⟨.remoteResponse, [src.toNat, id], l.flatMap fun y => [y.1.toNat, y.2.1.toNat, y.2.2.toNat]⟩
      exec (.remoteRequest src id wid fn size i) s = .next t ∧ t.outbox = r.outbox ∧ t.pairs = r.pairs
    let unchanged (t : State) : Prop := { t with outbox := s.outbox, pairs := s.pairs } = s
    let written (t : State) : Prop :=
      { t with outbox := s.outbox, pairs := s.pairs, mem := s.mem, ingress := s.ingress, memPoison := s.memPoison
               poisonAtoms := s.poisonAtoms, xchgs := s.xchgs, colls := s.colls, ops := s.ops, hart := s.hart
               others := s.others, queues := s.queues, dispatchers := s.dispatchers } = s
      ∧ s.OpsKept t
      ∧ (s.awaits (fun _ => true) = false → t.hart = s.hart ∧ t.others = s.others ∧ t.queues = s.queues ∧ t.dispatchers = s.dispatchers)
    let takes (o : Word) : Prop := wid.toNat < s.hub.rwtcnt.toNat ∧ bitAt win.perm 3 = true ∧ bitAt win.perm acc = true
      ∧ o.toNat + size ≤ win.limit ∧ win.die < 4
    let va (o : Word) : Word := BitVec.ofNat 64 (win.vbase + o.toNat)
    let reaches (o : Word) : Prop := takes o ∧ s.translate win.agent (.plain acc size) (va o) = .ok (xl o) s ∧ (xl o).cls ≠ 3
      ∧ ∀ h, region (xl o).pa ≠ .hub h
    (fn = 0 ∨ fn = 1 ∨ (16 ≤ fn ∧ fn ≤ 26)) → size = 4 ∨ size = 8 → s.down = false → s.stuckAtStart = false →
    (s.hub.fabrank.getLsbD 15 = false → ∃ t, answers elems t (elems.map fun _ => (0x1A, 0, false)) ∧ unchanged t)
    ∧ (s.hub.fabrank.getLsbD 15 = true →
      ((∀ y ∈ elems, ¬takes y.1) → ∃ t, answers elems t (elems.map fun _ => (0x18, 0, false)) ∧ unchanged t)
      ∧ (takes x.1 → ∀ f, s.translate win.agent (.plain acc size) (va x.1) = .mem f s → s.refusedDevice win.agent f = false →
        ∃ t, answers [x] t [(0x19, 0, false)] ∧ unchanged t)
      ∧ (takes x.1 → (∃ u, s.translate win.agent (.plain acc size) (va x.1) = .wait u) →
        exec (.remoteRequest src id wid fn size [x]) s = .next s)
      ∧ (fn = 0 → (∀ y ∈ elems, reaches y.1) →
        ∃ t, answers elems t (elems.map fun y =>
            (0, BitVec.ofNat 64 (s.mem.readLe (xl y.1).pa size), s.isPoisoned (xl y.1).pa size)) ∧ unchanged t)
      ∧ (fn = 1 → reaches x.1 → ∃ t, answers [x] t [(0, 0, false)] ∧ written t
        ∧ t.mem = s.mem.setBytes (xl x.1).pa (toLe size x.2.1.toNat)
        ∧ t.memPoison = (s.putBytes win.agent (xl x.1).pa (toLe size x.2.1.toNat) x.2.2).memPoison)
      ∧ (16 ≤ fn → reaches x.1 →
        let old := s.mem.readLe (xl x.1).pa size
        let new := amoFn (fn - 16) (8 * size) old (x.2.1.toNat % 2 ^ (8 * size))
        ∃ t, answers [x] t [(0, BitVec.ofNat 64 old, s.isPoisoned (xl x.1).pa size)] ∧ written t
          ∧ t.mem = s.mem.setBytes (xl x.1).pa (toLe size new))))
  ∧ (∀ (s : State) (me dest : Nat) (m : Msg),
    let node (a b : Nat) : Nat := 8 + (if b % 8 < a % 8 then b % 8 else b % 8 - 1)
    let route : Nat := if dest / 8 = me / 8 then node me dest else dest / 8 % 8
    let back : Nat := if dest / 8 ≠ me / 8 ∧ dest % 8 ≠ me % 8 then node me dest else route
    let leaves (t : State) (port : Nat) : Prop :=
      (dest = me → t = { s with outbox := m :: s.outbox })
      ∧ (dest ≠ me → t.outbox = { m with nums := m.nums ++ [dest, port, (s.pair me dest).next] } :: s.outbox
        ∧ t.pair me dest = { s.pair me dest with src := me, dst := dest, next := (s.pair me dest).next + 1 }
        ∧ (∀ x y, (x, y) ≠ (me, dest) → t.pair x y = s.pair x y) ∧ { t with outbox := s.outbox, pairs := s.pairs } = s)
    leaves (s.sendBy routePort me dest m) route ∧ leaves (s.sendBy responsePort me dest m) back)

/-- R500: DPOST adds the count of each active position to the post of an OPEN round, toward a member or as IGNORED, and
with LAST closes the post and sends it; a round that is not OPEN makes it wait; ranks from 4,096 on, counts above 2^40,
a SEW other than 64 and reserved bits raise ILLOP. R503: DGRANT gives the calendar of a GRANTED round; a number of phases or a length that its field cannot hold leaves it open (the
model's choice, log 3). R496, R507: XRUN waits for the stream's RSTX and RAMOX. R504: XRUN is
accepted in a GRANTED round, which it makes RUNNING, and sends READY(0) at its acceptance (R520). R508: XSTAT gives the last
completed round. That the waits take place at the head of the queue or the instruction is log 4; DETAIL 40 before others log 29. -/
def Obligations.ExchangeInstructions : Prop := ∀ (s : State) (d a b : Reg) (k : BitVec 3) (x : Nat) (e : TableEntry) (w : Nat → Word),
  let named (v : Word) : Prop := (v.setWidth 16).toNat = 0x4000 + x ∧ x < 256 ∧ s.exchange x = some e
  let names (v : Word) : Prop := ∃ y f, (v.setWidth 16).toNat = 0x4000 + y ∧ y < 256 ∧ s.exchange y = some f
  let y := s.xchg x
  let c := s.vcfg
  let act := c.active s.hart.m k.toNat
  let sel := s.rd a
  let first := ((sel >>> 16).setWidth 12).toNat
  let count (p : Nat × Nat) : Nat := elemRd s.hart.v c.g 8 b.toNat p.1 p.2
  let rank (p : Nat × Nat) : Nat := first + p.1 * c.vl + p.2
  let toward (r : Nat) (q : List (Nat × Nat)) : Nat := sumNat ((q.filter fun z => z.1 == r).map (·.2))
  let posted (r : Nat) : Nat := sumNat (((c.places act).filter fun p => rank p == r).map count)
  let sound : Prop := names sel ∧ (sel >>> 28).setWidth 3 = 0#3 ∧ sel >>> 32 = 0 ∧ c.sew = 3
    ∧ ∀ p ∈ c.places act, rank p < 4096 ∧ count p ≤ 2 ^ 40
  (s.VecReady .never none [(b.toNat, c.lmul)] True [a] →
    let i : Instr := .dpost a b k
    (¬sound → s.TrapsOn i .illop)
    ∧ (sound → named sel →
      (y.st ≠ .openR → ∃ t z, exec i s = .next t ∧ t.hart.vq = [z] ∧ z.word = BitVec.ofNat 32 (encodeNat i)
        ∧ t.st = s.st.advance (encodeNat i) 4 ∧ { t with hart := { t.hart with main := s.hart.main, vq := [] } } = s)
      ∧ (y.st = .openR → (y.post.map (·.1)).Nodup → ∃ t v, exec i s = .next t ∧ s.VecPassed v i s.st ∧ v.hart.v = s.hart.v ∧ v.hart.m = s.hart.m
        ∧ t = { v with xchgs := t.xchgs, outbox := t.outbox, pairs := t.pairs }
        ∧ (∀ r, r ∈ e.members → toward r (t.xchg x).post = toward r y.post + posted r)
        ∧ (t.xchg x).ignored = y.ignored
          + sumNat (((c.places act).filter fun p => !e.members.contains (rank p)).map count)
        ∧ (∀ z, z ≠ x → t.xchg z = s.xchg z) ∧ (t.xchg x).round = y.round
        ∧ (sel.getLsbD 31 = false → (t.xchg x).st = .openR ∧ t.outbox = s.outbox ∧ t.pairs = s.pairs)
        ∧ (sel.getLsbD 31 = true → (t.xchg x).st = .closedR ∧ (t.xchg x).asked = y.asked.filter (fun p => p.1 != y.round)
          ∧ let u := (e.arb.headD 0 :: (y.asked.filter fun p => p.1 == y.round).map (·.2)).foldl (fun (u : State) dest =>
              u.sendTo dest ⟨.post, [x, y.round, e.members.idxOf (s.hub.fabrank.toNat % 4096), dest],
                e.members.map fun r => toward r (t.xchg x).post⟩) s
            t.outbox = u.outbox ∧ t.pairs = u.pairs))))
  ∧ (s.ScalarReady .never false false [d, a] →
    let i : Instr := .dgrant d a
    (¬names sel → s.TrapsOn i .illop)
    ∧ (named sel → (y.st ≠ .grantedR → s.Waits i)
      ∧ (y.st = .grantedR → ∃ (t : State) (v : Word), exec i s = .next t ∧ ({ s with freeCtr := t.freeCtr }).Wrote t i d v
        ∧ v.getLsbD 63 = y.failed ∧ (v >>> 48).setWidth 15 = 0#15
        ∧ (y.phases.length < 2 ^ 16 → ((v >>> 32).setWidth 16).toNat = y.phases.length)
        ∧ (sumNat (y.phases.map (·.1)) < 2 ^ 32 → (v.setWidth 32).toNat = sumNat (y.phases.map (·.1)))
        ∧ (y.phases.length < 2 ^ 16 → sumNat (y.phases.map (·.1)) < 2 ^ 32 → t.freeCtr = s.freeCtr))))
  ∧ (s.ScalarReady .never false false [d, a, b] →
    let i : Instr := .xrun d a b
    let p := s.rd b
    let bad : Nat := if w 5 = 0 ∧ w 6 = 0 ∧ w 7 = 0 then 0 else 40
    (¬names sel → s.TrapsOn i .illop)
    ∧ (named sel → (y.st ≠ .grantedR → s.TrapsOn i .illop)
      ∧ (y.st = .grantedR → p.toNat % 64 ≠ 0 → s.Traps i .misalign p)
      ∧ (y.st = .grantedR → p.toNat % 64 = 0 → s.Calm → s.Words p 8 w → s.ReleaseWaits 3 → s.Waits i)
      ∧ (y.st = .grantedR → p.toNat % 64 = 0 → s.Calm → s.Words p 8 w → ¬s.ReleaseWaits 3 → y.tl.issued + 1 < 2 ^ 63 → (∀ o ∈ s.ops, o.id ≠ s.nextOp) →
        let nodes := railNodes e (s.rank % 8)
        let pos := nodes.idxOf (s.rank / 8)
        let first := (y.phases.headD (0, [])).2
        let from_ := e.members.idxOf (nodes.getD (first.idxOf pos) 0 * 8 + s.rank % 8)
        ∃ t u, exec i s = .next t ∧ s.Accepted u i (.xchg x) (.xrun p (w 1) (w 2) (w 3) (w 4) bad) d
          ∧ u.xchg x = { y with tl := { y.tl with issued := y.tl.issued + 1 }, st := .runningR }
          ∧ (∀ z, z ≠ x → u.xchg z = s.xchg z)
          ∧ (y.phases = [] ∨ first.idxOf pos = pos ∨ first.length ≤ first.idxOf pos → t = u)
          ∧ (y.phases ≠ [] → first.idxOf pos ≠ pos → first.idxOf pos < first.length →
            t = u.sendTo (e.members.getD from_ 0) ⟨.ready, [x, y.round, 0, e.members.idxOf s.rank, from_], []⟩))))
  ∧ (s.VecReady .never (some (d.toNat, c.lmul)) [] True [b, a] →
    let i : Instr := .xstat d a b k
    let kind := (s.rd b).setWidth 2
    let from_ := ((s.rd b >>> 16).setWidth 12).toNat
    let ok : Prop := c.sew = 3 ∧ kind ≠ 3 ∧ s.rd b = (kind.setWidth 64 ||| (BitVec.ofNat 64 from_ <<< 16)) ∧ names sel
    (¬ok → s.TrapsOn i .illop)
    ∧ (ok → named sel → c.Fits 8 c.lmul →
      let value (r j : Nat) : Nat := match y.last with
        | none => 0
        | some z =>
          let m := from_ + r * c.vl + j
          if kind = 0 then (if m < e.members.length then z.recv.getD m 0 else 0)
          else if kind = 1 then (if m < e.members.length then z.posted.getD m 0 else 0)
          else if r = 0 then [z.status, z.round, z.spillSent, z.spillRecv, sumNat ((z.posted.zip z.recv).map fun p => p.1 - p.2),
            z.overflow, z.ignored, z.length].getD j 0 else 0
      ∃ t, exec i s = .next t ∧ s.VecSet t i d 0 ∧ s.VecWrote t c act 8 c.lmul d.toNat value))

/-- R503: a hub answers a request for its post once it is closed, one for a round to come when that is closed; a candidate keeps
each post, asks every member on the first of a round, and sends every member the calendar of its rail once it holds all; the first
calendar of a closed round grants it, and the budgets of the candidates lead from one to the next and at last to a FAILED grant.
R505, R520: READY from the member that a phase is for releases its segment, of the units that are real, each member's part with
its bytes, and the mark. R505, R506: what arrives for a running exchange is kept or placed in arrival order and acknowledged,
acknowledgements of what it sent are counted, and a budget that passes ends it as FAILED. R499: the end of its operation opens the
next round. How messages carry a phase, and which DETAIL stands, are the model's choices (log 29). -/
def Obligations.ExchangeEvents : Prop := ∀ (s : State) (x round : Nat) (e : TableEntry), s.exchange x = some e →
  let c := s.xchg x
  let others (t : State) : Prop := ∀ z, z ≠ x → t.xchg z = s.xchg z
  let only (t : State) : Prop := others t ∧ { t with xchgs := s.xchgs } = s
  let sum (l : List (Nat × Nat)) (r : Nat) : Nat := sumNat ((l.filter fun p => p.1 == r).map (·.2))
  let post (dest : Nat) : Msg := ⟨.post, [x, c.round, s.me e, dest], e.members.map (sum c.post)⟩
  let sends (t : State) (l : List (Nat × Msg)) : Prop :=
    let u := l.foldl (fun (u : State) m => u.sendTo m.1 m.2) s
    t.outbox = u.outbox ∧ t.pairs = u.pairs
  (∀ dest, let i : Instr := .postRequest x round dest
    (round < c.round → exec i s = .next s)
    ∧ (c.round < round ∨ (c.round = round ∧ c.st = .openR) → ∃ t, exec i s = .next t ∧ only t
      ∧ (∀ r, r ∈ (t.xchg x).asked ↔ r = (round, dest) ∨ r ∈ c.asked) ∧ t.xchg x = { c with asked := (t.xchg x).asked })
    ∧ (c.round = round → c.st ≠ .openR → exec i s = .next (s.sendTo dest (post dest))))
  ∧ (∀ (member : Nat) (bytes : List Nat), member < e.members.length → bytes.length = e.members.length → s.rank ∈ e.arb →
    (∀ h ∈ c.held, ¬(h.1 = round ∧ h.2.1 = member)) →
    let i : Instr := .postReceive x round member bytes
    let held := c.held ++ [(round, member, bytes)]
    let asks : List (Nat × Msg) := if ∃ h ∈ c.held, h.1 = round then [] else e.members.map fun r => (r, ⟨.postRequest, [x, round, r], []⟩)
    ∃ t, exec i s = .next t ∧ t.xchg x = { c with held := held } ∧ others t
      ∧ { t with xchgs := s.xchgs, outbox := s.outbox, pairs := s.pairs } = s
      ∧ ((∃ j, j < e.members.length ∧ ∀ h ∈ held, ¬(h.1 = round ∧ h.2.1 = j)) → sends t asks)
      ∧ (∀ posts : List (List Nat), posts.length = e.members.length →
        (∀ j l, posts[j]? = some l → ∃ h, held.find? (fun h => h.1 == round && h.2.1 == j) = some h ∧ h.2.2 = l) →
        sends t (asks ++ e.members.map fun r =>
          let ph := calendar (railMatrix e posts (r % 8))
          (r, ⟨.calendar, [x, round, r, ph.length], ph.flatMap (fun p => p.1 :: p.2) ++ posts.map fun p => p.getD (e.members.idxOf r) 0⟩))))
  ∧ (∀ (phases : List (Nat × List Nat)) (posted : List Nat), let i : Instr := .calendarReceive x round phases posted
    (c.round ≠ round ∨ c.st ≠ .closedR → exec i s = .next s)
    ∧ (c.round = round → c.st = .closedR → ∃ t, exec i s = .next t ∧ only t
      ∧ t.xchg x = { c with st := .grantedR, phases := phases, posted := posted }))
  ∧ (let i : Instr := .arbiterTimeout x round
    let valid (j : Nat) : Prop := c.cand < j ∧ j < 4 ∧ e.arb.getD j 0xFFFF ≠ 0xFFFF
    (c.round ≠ round ∨ c.st ≠ .closedR → exec i s = .next s)
    ∧ (c.round = round → c.st = .closedR →
      (∀ j, valid j → (∀ m, m < j → ¬valid m) → ∃ t, exec i s = .next t ∧ t.xchg x = { c with cand := j } ∧ others t
        ∧ sends t [(e.arb.getD j 0, post (e.arb.getD j 0))]
        ∧ { t with xchgs := s.xchgs, outbox := s.outbox, pairs := s.pairs } = s)
      ∧ ((∀ j, ¬valid j) → ∃ t, exec i s = .next t ∧ only t ∧ t.xchg x = { c with st := .grantedR, failed := true })))
  ∧ (c.run = none → c.round = round → (∀ o ∈ s.ops, o.ctx ≠ .xchg x) →
    (∀ phase src, src < 4096 → ∃ t, exec (.readyReceive x round phase src) s = .next t ∧ only t
      ∧ t.xchg x = { c with readys := (t.xchg x).readys } ∧ ∀ p, p ∈ (t.xchg x).readys ↔ p = (phase, src) ∨ p ∈ c.readys)
    ∧ (∀ src total acked, src < e.members.length → (∀ f ∈ c.finals, f.1 ≠ src) →
      ∃ t, exec (.finalReceive x round src (some total) acked) s = .next t ∧ only t
        ∧ t.xchg x = { c with finals := c.finals ++ [(src, total)] })
    ∧ (∀ src acked, exec (.finalReceive x round src none acked) s = .next s)
    ∧ (∀ phase src bytes mark, exec (.segmentReceive x round phase src bytes mark) s = .next s)
    ∧ (∀ src bytes, exec (.spillReceive x round src bytes) s = .next s) ∧ exec (.exchangeTimeout x round) s = .next s)
  ∧ (∀ (v : XEnv) (r : XRunState) (src : Nat) (b : List (BitVec 9)) (u : State), s.running x round = some (v, r) →
    s.xentry x = some v.t →
    let lo := r.recvs.getD src 0
    let old := r.arrived.getD src 0
    let noMark : Prop := r.recvPhase < c.phases.length ∧ ∃ q, v.src c r.recvPhase = some q ∧ (r.recvPhase, q) ∉ r.marks
    let noReady (p : Nat) : Prop := p < c.phases.length ∧ ∃ q, v.dst c p = some q ∧ (p, q) ∉ c.readys
    let stuck : Prop := noMark ∧ noReady r.sendPhase
    let placed := listSet r.arrived src (old + b.length)
    let acked (t : State) : Prop :=
      let w := u.sendBy routePort v.rank (v.t.members.getD src 0) ⟨.exchangeAck, [x, c.round, v.me, src, b.length], []⟩
      t.outbox = w.outbox ∧ t.pairs = w.pairs
    (stuck → src < v.t.members.length → r.detail = 0 → b ≠ [] → old + b.length ≤ r.recvs.getD (src + 1) 0 - lo →
      s.ewrite v.a (v.recvBase + BitVec.ofNat 64 (lo + old)) (b.map fun y => (y.setWidth 8, y.getLsbD 8)) = .ok () u → u.xchgs = s.xchgs →
      (∃ t, exec (.segmentReceive x round 0 src [(v.me, b)] false) s = .next t ∧ t.mem = u.mem
        ∧ t.xchg x = { c with run := some { r with arrived := placed } } ∧ acked t)
      ∧ ∃ t, exec (.spillReceive x round src b) s = .next t ∧ t.mem = u.mem ∧ acked t
        ∧ t.xchg x = { c with run := some { r with arrived := placed, spillRecv := r.spillRecv + b.length } })
    ∧ (∀ n, stuck → src < v.t.members.length → ∃ t, exec (.finalReceive x round src none n) s = .next t ∧ t.mem = s.mem
      ∧ t.xchg x = { c with run := some { r with acked := listSet r.acked src (r.acked.getD src 0 + n) } } ∧ t.outbox = s.outbox)
    ∧ (∀ p d (bytes : Nat → List EByte), noMark → r.sendPhase = p → p < c.phases.length → v.dst c p = some d → d < 4096 →
      (p, d) ∉ c.readys → noReady (p + 1) → r.sent.length = v.t.members.length →
      let toNode (m : Nat) : List Nat := (List.range v.t.members.length).filter fun j => v.t.members.getD j 0 / 8 == v.t.members.getD m 0 / 8
      let posted (j : Nat) : Nat := sum c.post (v.t.members.getD j 0)
      let units := (sumNat ((toNode d).map posted) + 65535) / 65536
      let before := sumNat ((List.range p).map fun q => if v.dst c q = some d then (c.phases.getD q (0, [])).1 else 0)
      let real := min (c.phases.getD p (0, [])).1 (units - min units before)
      let n (j : Nat) : Nat := min (65536 * real) (min (posted j - r.sent.getD j 0) ((r.sends.getD j (0, 0)).2 - r.sent.getD j 0))
      (∀ j ∈ toNode d, (bytes j).length = n j
        ∧ s.eread v.a (v.sendBase + BitVec.ofNat 64 ((r.sends.getD j (0, 0)).1 + r.sent.getD j 0)) (n j) = .ok (bytes j) s) →
      let msg (k : MsgKind) (more data : List Nat) : Msg := ⟨k, [x, c.round, p, v.me, d] ++ more, data⟩
      let leaves : List Msg := (((toNode d).filter fun j => n j != 0).map fun j =>
          msg .segment [j] ((bytes j).map fun y => y.1.toNat + 256 * y.2.toNat))
        ++ [msg .mark [] ((toNode d).flatMap fun j => [j, n j, if (r.sends.getD j (0, 0)).2 ≤ r.sent.getD j 0 + n j then 1 else 0])]
      ∃ t w, exec (.readyReceive x round p d) s = .next t ∧ t.mem = s.mem
        ∧ (let u := leaves.foldl (fun (u : State) m => u.sendBy routePort v.rank (v.t.members.getD d 0) m) s
          t.outbox = u.outbox ∧ t.pairs = u.pairs)
        ∧ t.xchg x = { c with readys := (t.xchg x).readys, run := some w } ∧ w = { r with sendPhase := p + 1, sent := w.sent }
        ∧ ∀ j, j < v.t.members.length → w.sent.getD j 0 = if j ∈ toNode d then r.sent.getD j 0 + n j else r.sent.getD j 0)
    ∧ (s.ewrite v.a v.desc ((toLe 8 9).map fun y => (y, false)) = .ok () u →
      ∃ t, exec (.exchangeTimeout x round) s = .next t ∧ t.mem = u.mem
        ∧ t.xchg x = { c with run := some { r with ended := some 9 } } ∧ (u.setOp { v.op with stage := .performed }).OpsKept t))
  ∧ (∀ (o : Op) (r : XRunState) (code : Nat), s.op o.id = some o → o.ctx = .xchg x → o.stage = .performed → o.token = 0 →
    o.also = none → (∀ u ∈ s.ingress, u.byOp ≠ some o.id) → c.run = some r → r.ended = some code →
    ∃ t y, exec (.operationComplete o.id) s = .next t ∧ t.xchg x = y ∧ others t ∧ t.ops = s.ops.filter (fun p => p.id != o.id)
      ∧ y.round = c.round + 1 ∧ y.st = .openR ∧ y.post = [] ∧ y.run = none ∧ y.failed = false ∧ y.held = c.held
      ∧ y.asked = c.asked.filter (fun p => decide (c.round < p.1))
      ∧ ∃ z, y.last = some z ∧ z.status = code ∧ z.round = c.round ∧ z.recv = r.arrived ∧ z.posted = c.posted
        ∧ z.spillSent = r.spillSent ∧ z.spillRecv = r.spillRecv ∧ z.overflow = r.overflow ∧ z.ignored = c.ignored
        ∧ z.length = sumNat (c.phases.map (·.1)))

/-- R509, R510, R513: CRED, CBCAST and CGATH read their descriptor and, within its limits, are accepted as the group's next call,
as is CBAR; SEQ rises by 1. CSTAT gives SEQ and the status of the last call. R511, R514: packets and aborts are kept until the
call that they belong to; a budget that passes ends the call as FAILED, with an abort to each neighbour in the tree. R133, R512:
once the packets of its children are in, a member of a CRED combines its own elements with each child's in turn, as KIND says, and
sends the result to its parent; the root rounds an .x64 sum once, writes the result, sends it on to its children and ends the call
OK. R452: what depends on poisoned data is poisoned. R404, R513: CSTAT reports the status once the call's operation has completed.
R496, R507: a call waits to be accepted for the stream's RSTX and RAMOX. The form of the packets is the model's (log 30). -/
def Obligations.Collectives : Prop := ∀ (s : State) (g : Nat) (e : TableEntry), s.collective g = some e → g < 256 →
  let c := s.coll g
  let others (t : State) : Prop := ∀ z, z ≠ g → t.coll z = s.coll z
  (∀ (d a b k : Reg) (w : Nat → Word),
    let p := s.rd b
    let sel := ((s.rd a).setWidth 16).toNat
    let n := if k = 3 then 4 else 8
    let lo (j : Nat) : Nat := ((w j).setWidth 32).toNat
    let takes (i : Instr) (op : OpKind) : Prop := c.tl.issued + 1 < 2 ^ 63 →
      (s.ReleaseWaits 3 → s.Waits i)
      ∧ (¬s.ReleaseWaits 3 → ∃ t, exec i s = .next t ∧ s.Accepted t i (.coll g) op d ∧ others t
        ∧ t.coll g = { c with tl := { c.tl with issued := c.tl.issued + 1 }, seq := c.seq + 1 })
    let credOk : Prop := w 3 >>> 32 = 0 ∧ lo 3 ≤ 2 ^ 24
    let bcastOk : Prop := (w 2).toNat ≤ 2 ^ 32 ∧ (w 3).toNat < e.members.length
    let gathOk : Prop := w 3 >>> 32 = 0
    s.Calm →
    (s.ScalarReady .never false false [d, a, b] →
      (sel < 0x5000 ∨ 0x5100 ≤ sel → s.TrapsOn (.cred d a b k) .illop ∧ s.TrapsOn (.cbcast d a b) .illop ∧ s.TrapsOn (.cgath d a b) .illop)
      ∧ (sel = 0x5000 + g → p.toNat % 32 ≠ 0 →
        s.Traps (.cred d a b k) .misalign p ∧ s.Traps (.cbcast d a b) .misalign p ∧ s.Traps (.cgath d a b) .misalign p)
      ∧ (sel = 0x5000 + g → p.toNat % 32 = 0 → s.Words p 4 w →
        (¬credOk → s.TrapsOn (.cred d a b k) .illop)
        ∧ (credOk → (w 1).toNat % n ≠ 0 → s.Traps (.cred d a b k) .misalign (w 1))
        ∧ (credOk → (w 1).toNat % n = 0 → (w 2).toNat % n ≠ 0 → s.Traps (.cred d a b k) .misalign (w 2))
        ∧ (credOk → (w 1).toNat % n = 0 → (w 2).toNat % n = 0 →
          takes (.cred d a b k) (.coll 0 k.toNat p (w 1) (w 2) (lo 3) 0))
        ∧ (¬bcastOk → s.TrapsOn (.cbcast d a b) .illop)
        ∧ (bcastOk → takes (.cbcast d a b) (.coll 1 0 p (w 1) (w 1) (w 2).toNat (w 3).toNat))
        ∧ (¬gathOk → s.TrapsOn (.cgath d a b) .illop)
        ∧ (gathOk → takes (.cgath d a b) (.coll 2 0 p (w 1) (w 2) (lo 3) 0))))
    ∧ (s.ScalarReady .never false false [d, a] →
      (sel < 0x5000 ∨ 0x5100 ≤ sel → s.TrapsOn (.cbar d a) .illop ∧ s.TrapsOn (.cstat d a) .illop)
      ∧ (sel = 0x5000 + g → takes (.cbar d a) (.coll 3 0 0 0 0 0 0)
        ∧ ∃ t, exec (.cstat d a) s = .next t ∧ s.Wrote t (.cstat d a) d (c.seq ++ c.status))))
  ∧ (s.calling g = none →
    let packet (src : Nat) (seq : BitVec 32) (op kind count root phase : Nat) (l : List (Int × Nat × Bool)) : CollPacket :=
      ⟨src, seq, op, kind, count, root, phase, l⟩
    let only (t : State) : Prop := others t ∧ { t with colls := s.colls } = s
    (∀ src seq op kind count root phase l, phase < 3 → seq ∉ c.failed →
      (∀ q ∈ c.got, ¬(q.src = src ∧ q.seq = seq ∧ q.phase = phase)) →
      ∃ t, exec (.collPacketReceive g src seq op kind count root phase l) s = .next t ∧ only t
        ∧ t.coll g = { c with got := c.got ++ [packet src seq op kind count root phase l] })
    ∧ (∀ src seq mismatch, seq ∈ c.failed → exec (.collAbortReceive g src seq mismatch) s = .next s)
    ∧ (∀ src seq, seq ∉ c.failed → (∃ t, exec (.collAbortReceive g src seq true) s = .next t ∧ only t ∧ t.coll g = { c with refusing := true })
      ∧ ∃ t, exec (.collAbortReceive g src seq false) s = .next t ∧ only t
        ∧ t.coll g = { c with got := c.got ++ [packet src seq 0 0 0 0 3 []] })
    ∧ exec (.collTimeout g) s = .next s)
  ∧ (∀ v u, s.calling g = some v → v.op ≠ 3 →
    let seq := BitVec.ofNat 32 (v.o.num - 1)
    let aborted := v.neighbours.foldl (fun (u : State) j =>
      u.sendBy routePort v.rank (v.members.getD j 0) ⟨.collAbort, [g, v.me, j, seq.toNat, 0], []⟩) s
    aborted.ewrite (v.o.agent v.o.die) v.desc ((toLe 8 9).map fun y => (y, false)) = .ok () u → u.colls = s.colls →
    ∃ t, exec (.collTimeout g) s = .next t ∧ t.mem = u.mem ∧ t.outbox = u.outbox ∧ t.pairs = u.pairs ∧ others t
      ∧ (u.setOp { v.o with stage := .performed, code := 9 }).OpsKept t
      ∧ t.coll g = { c with cur := none, sent := 0, got := c.got.filter fun q => q.seq != seq, failed := c.failed ++ [seq] })
  ∧ (∀ o : Op, s.op o.id = some o → o.ctx = .coll g → o.stage = .performed → o.token = 0 → o.also = none →
    (∀ u ∈ s.ingress, u.byOp ≠ some o.id) →
    ∃ t, exec (.operationComplete o.id) s = .next t ∧ others t ∧ t.ops = s.ops.filter (fun p => p.id != o.id)
      ∧ t.coll g = { c with tl := (t.coll g).tl, status := BitVec.ofNat 32 o.code })
  ∧ (∀ (v : CEnv) (src : Nat) (l : List (Int × Nat × Bool)) (bytes : List EByte) (pl : Nat → List (Int × Nat × Bool)), s.calling g = some v →
    v.op = 0 → v.kind < 8 → v.children ≠ [] → c.sent = 1 → c.refusing = false →
    let a := v.o.agent v.o.die
    let seq := BitVec.ofNat 32 (v.o.num - 1)
    let p : CollPacket := ⟨src, seq, v.op, v.kind, v.count, v.root, 1, l⟩
    let got := c.got ++ [p]
    let size := if v.kind = 3 then 4 else 8
    let sg (x : Int) : Int := (BitVec.ofInt 64 x).toInt
    let special (x : Nat) : Special := if x = 0 then .none else if x = 1 then .nan else if x = 2 then .pinf else if x = 3 then .ninf else .both
    let own (j : Nat) : List EByte := (bytes.drop (size * j)).take size
    let leaf (j : Nat) : Int × Nat × Bool :=
      let x := leNat ((own j).map (·.1))
      let bad := (own j).any (·.2)
      if v.kind ≠ 2 then (x, 0, bad)
      else match fmtF64.read x with
        | .fin n m e => ((if n then -1 else 1) * (m * 2 ^ (e + 1074).toNat : Nat), 0, bad)
        | .inf n => (0, if n then 3 else 2, bad)
        | _ => (0, 1, bad)
    let combine (x y : Int × Nat × Bool) : Int × Nat × Bool :=
      let z : Int × Nat :=
        if v.kind = 0 then (((x.1.toNat + y.1.toNat) % 2 ^ 64 : Nat), 0)
        else if v.kind = 1 then ((fmtF64.add .rne x.1.toNat y.1.toNat).1, 0)
        else if v.kind = 2 then (x.1 + y.1, (joinStates (special x.2.1) (special y.2.1)).num)
        else if v.kind = 3 then ((fmtF32.add .rne x.1.toNat y.1.toNat).1, 0)
        else if v.kind = 4 then ((fmtF64.minmax false x.1.toNat y.1.toNat).1, 0)
        else if v.kind = 5 then ((fmtF64.minmax true x.1.toNat y.1.toNat).1, 0)
        else if v.kind = 6 then (if sg y.1 < sg x.1 then y.1 else x.1, 0)
        else (if sg x.1 < sg y.1 then y.1 else x.1, 0)
      (z.1, z.2, x.2.2 || y.2.2)
    let sums := v.children.foldl (fun acc j => (acc.zip (pl j)).map fun q => combine q.1 q.2) ((List.range v.count).map leaf)
    let result : List (Int × Nat × Bool) :=
      if v.kind = 2 then sums.map fun q => (((fmtF64.readout .rne (special q.2.1) q.1 (-1074)).1 : Int), 0, q.2.2) else sums
    let tell (phase dest : Nat) (r : List (Int × Nat × Bool)) (u : State) : State :=
      u.sendBy routePort v.rank (v.members.getD dest 0) ⟨.collPacket, [g, v.me, dest, seq.toNat, 0, v.kind, v.count, v.root, phase]
          ++ r.map (fun q => 2 * q.2.1 + if q.2.2 then 1 else 0),
        r.map fun q => q.1.natAbs * 2 + (if q.1 < 0 then 1 else 0)⟩
    (∀ j ∈ v.neighbours, ∃ q ∈ got, q.src = j ∧ q.seq = seq ∧ q.phase = 0) →
    (∀ j ∈ v.children, ∃ q, got.find? (fun q => q.src == j && q.seq == seq && q.phase == 1) = some q ∧ q.payload = pl j) →
    (∀ q ∈ got, q.seq = seq ∧ q.op = 0 ∧ q.kind = v.kind ∧ q.count = v.count ∧ q.root = v.root ∧ (q.phase = 0 ∨ q.phase = 1)) →
    (∀ q ∈ c.got, ¬(q.src = src ∧ q.phase = 1)) → seq ∉ c.failed →
    s.eread a v.src (size * v.count) = .ok bytes s →
    let i : Instr := .collPacketReceive g src seq v.op v.kind v.count v.root 1 l
    (v.me ≠ 0 → ∃ t, exec i s = .next t ∧ others t ∧ t.coll g = { c with got := got, sent := 2 }
      ∧ (let u := tell 1 ((v.me - 1) / 2) sums s
        { t with colls := s.colls } = { u with colls := s.colls }))
    ∧ (v.me = 0 → ∀ u w : State, s.ewrite a v.dst (result.flatMap fun q => (toLe size q.1.toNat).map fun y => (y, q.2.2)) = .ok () u →
      (v.children.foldl (fun (u : State) j => tell 2 j result u) u).ewrite a v.desc ((toLe 8 0).map fun y => (y, false)) = .ok () w →
      w.colls = s.colls →
      ∃ t, exec i s = .next t ∧ t.mem = w.mem ∧ t.outbox = w.outbox ∧ t.pairs = w.pairs ∧ others t
        ∧ (w.setOp { v.o with stage := .performed, code := 0 }).OpsKept t
        ∧ t.coll g = { c with cur := none, sent := 0, got := got.filter fun q => q.seq != seq }))

/-- R399, R402: the oldest persist unit of an atom becomes durable whole, with the writes of the atom that stand before its last
one, and R400: only while the dirty bytes stay within
BRDCAP.LIMIT, and R402: once its operation has performed its accesses; a dirty line that is written back is clean, and a
lower LIMIT leaves no more dirty bytes than it allows. R409: a unit of poisoned bytes poisons its atom, and a clean one
of all 64 bytes clears it. R401, R410: on power loss the ingress buffer is lost, and BRCTX and BRCTXW record the Bedrock
contexts; an orderly shutdown makes every performed write durable and sets no PLOSS. R407, R409: what restarts is as after
reset but for the durable bytes and the record that bring-up will recover, the atoms that the drain failed for among it. An
atom as the unit of a line, the bytes of memory that nothing has written, and that a second loss before bring-up adds to what
the first left to recover, are the model's choices (logs 2, 5, 19). -/
def Obligations.Durability : Prop := ∀ s : State,
  let contexts (t : State) : Prop := ∀ j, j < 8 →
    let c := vget s.bedrock bedrockDefault j
    vget t.hub.brctx 0 j = (if c.exist then BitVec.ofNat 64 c.tl.count else 0)
    ∧ vget t.hub.brctxw 0 j = (if c.exist then BitVec.ofNat 9 (256 + c.win.toNat) else 0)
  let fresh (t : State) (lost : List Nat) (ploss : Bool) : Prop :=
    (∃ r : Recovery, t.recovery = some r ∧ match s.recovery with
      | none => r.lost = lost ∧ r.ploss = ploss
      | some o => (∀ a, a ∈ r.lost ↔ a ∈ o.lost ∨ a ∈ lost) ∧ r.ploss = (o.ploss || ploss) ∧ r.ctx = o.ctx ∧ r.ctxw = o.ctxw)
    ∧ { t with freeCtr := 0, outbox := [], durable := [], durablePoison := [], recovery := none } = State.reset
  (∀ (atom k : Nat), s.dirty.Pairwise (· < ·) →
    let mine := s.ingress.filter fun u => u.atom = atom
    let whole (j : Nat) : Prop := ∀ u ∈ mine.take j, ∀ v ∈ mine.drop j, u.byOp ≠ none → u.byOp ≠ v.byOp
    (mine = [] → exec (.persistAccept atom) s = .next s)
    ∧ (0 < k → k ≤ mine.length → whole k → (∀ j, 0 < j → j < k → ¬whole j) →
    let g := mine.take k
    let covers (u : PersistUnit) : Prop := ∀ j, j < 64 → ∃ c ∈ u.bytes, c.1 = atom + j
    let lines := if atom ∈ s.dirty then s.dirty.length else s.dirty.length + 1
    let full : Prop := s.hub.brdcap.toNat * 2 ^ 20 < 64 * lines
    let grows : Prop := ∃ u ∈ g, ∃ id o, u.byOp = some id ∧ s.op id = some o ∧ o.stage ≠ .performed
    (s.down = true ∨ full ∨ grows → exec (.persistAccept atom) s = .next s)
    ∧ (s.down = false → ¬full → ¬grows → ∃ t, exec (.persistAccept atom) s = .next t
      ∧ t.ingress.filter (fun u => u.atom = atom) = mine.drop k
      ∧ t.ingress.filter (fun u => u.atom ≠ atom) = s.ingress.filter (fun u => u.atom ≠ atom)
      ∧ (∀ a, a ∈ t.dirty ↔ a = atom ∨ a ∈ s.dirty)
      ∧ t.durable = g.foldl (fun m u => u.bytes.foldl (fun (m : Mem) c => m.setByte c.1 c.2) m) s.durable
      ∧ (∀ a, a ≠ atom → (a ∈ t.durablePoison ↔ a ∈ s.durablePoison))
      ∧ ((∀ u ∈ g, u.bad = false) → atom ∈ t.durablePoison → atom ∈ s.durablePoison)
      ∧ (∀ u, g = [u] → (u.bad = true → atom ∈ t.durablePoison) ∧ (u.bad = false → covers u → atom ∉ t.durablePoison)
          ∧ (u.bad = false → ¬covers u → (atom ∈ t.durablePoison ↔ atom ∈ s.durablePoison)))
      ∧ { t with ingress := s.ingress, dirty := s.dirty, durable := s.durable, durablePoison := s.durablePoison } = s)))
  ∧ (∀ atom, ∃ t, exec (.flashWriteback atom) s = .next t ∧ (∀ a, a ∈ t.dirty ↔ a ≠ atom ∧ a ∈ s.dirty)
    ∧ { t with dirty := s.dirty } = s)
  ∧ (∀ (pa : Nat) (v : Word), hubRegAt pa = some .brdcap → s.stuckAtStart = false → 1 ≤ (v.setWidth 13).toNat →
    (v.setWidth 13).toNat ≤ 4096 → ∃ t, exec (.registerWrite 8 pa v) s = .next t ∧ t.hub.brdcap = v.setWidth 13
      ∧ 64 * t.dirty.length ≤ t.hub.brdcap.toNat * 2 ^ 20 ∧ t.dirty.Sublist s.dirty
      ∧ (64 * s.dirty.length ≤ t.hub.brdcap.toNat * 2 ^ 20 → t.dirty = s.dirty)
      ∧ { t with hub := s.hub, dirty := s.dirty } = s)
  ∧ (s.down = false →
    (∃ t, exec .powerLoss s = .next t ∧ t.down = true ∧ t.ingress = [] ∧ contexts t
      ∧ { t with down := s.down, ingress := s.ingress, quantum := s.quantum
                 hub := { t.hub with brctx := s.hub.brctx, brctxw := s.hub.brctxw } } = s)
    ∧ (∃ t, exec .orderlyShutdown s = .next t ∧ fresh t [] false
      ∧ (s.recovery = none → ∀ r : Recovery, t.recovery = some r → contexts { s with hub := { s.hub with brctx := r.ctx, brctxw := r.ctxw } })
      ∧ t.durable = s.ingress.foldl (fun m u => u.bytes.foldl (fun (m : Mem) c => m.setByte c.1 c.2) m) s.durable))
  ∧ (∀ failed : List Nat,
    (s.down = false → exec (.powerLossDrainEnd failed) s = .next s)
    ∧ (s.down = true → ∃ t, exec (.powerLossDrainEnd failed) s = .next t
      ∧ fresh t (s.dirty.filter fun a => decide (a ∈ failed)) true ∧ t.durable = s.durable ∧ t.durablePoison = s.durablePoison
      ∧ (s.recovery = none → ∀ r : Recovery, t.recovery = some r → r.ctx = s.hub.brctx ∧ r.ctxw = s.hub.brctxw)))

/-- R246: a whole aligned append is kept at the end of its queue and counted, any other write is refused and counted.
R251: a queue that becomes non-empty while unmapped waits with its head's PRIO. R247: a control core stages eight words,
and appends them as one. R249, R251: a rotation of an idle dispatcher maps its waiting queues, those of higher priority first,
then those that have waited longer, then those of lower number, and ages the others. R244, R248: a record that can start
starts a hart with ENTRY, ARG and WIN and is removed; R242: a malformed one is removed and counted; a queue of another HOME is
left alone. R245, R410, R270, R475, R533: each register takes the bits that are its fields, of writes by its own agent only; one
that is locked or only read takes none. R530: a control core writes none before it is started. R359, R498, R509: a new FABRANK or base
of a table ends the exchanges and groups that exist no longer, for the streams that wait on them. R472: a record that ends
unstarted stays while its completion record waits for a link. The order of a rotation's parts, and which bit locks QCFG, are the
model's choices (logs 26, 41). -/
def Obligations.DispatchAndRegisters : Prop := ∀ s : State,
  (∀ (n : Nat) (bytes : List Byte), n < 1024 →
    let q := s.queue n
    let takes : Prop := bytes.length = 64 ∧ q.enabled = true ∧ q.records.length < 2 ^ q.logcap
    ∃ t, exec (.enqueueAppend n bytes) s = .next t ∧ { t with queues := s.queues } = s
      ∧ (∀ m, m ≠ n → t.queue m = s.queue m)
      ∧ (¬takes → t.queue n = { q with refused := q.refused + 1 })
      ∧ (takes → t.queue n = { q with
          records := q.records ++ [bytes], appended := q.appended + 1, waiting := (t.queue n).waiting })
      ∧ (takes → q.records ≠ [] ∨ s.mapped n = true → (t.queue n).waiting = q.waiting)
      ∧ (takes → q.records = [] → s.mapped n = false →
          (t.queue n).waiting = some (recPrio bytes, (vget s.dispatchers dispatcherDefault q.home).rotation)))
  ∧ (∀ (c w q : Nat) (v : Word) (h : Hart), w < 8 → q < 1024 → s.control c = some h →
    (∃ t, exec (.stagingWordStore c w v) s = .next t ∧ t.control c = some { h with staging := vset h.staging w v }
      ∧ { t with hart := s.hart, others := s.others } = s)
    ∧ (∃ t, exec (.stagingAppend c q) s = .next t ∧ t.control c = some { h with staging := Vector.replicate 8 0 }
      ∧ t.queues = (s.append q (h.staging.toList.flatMap fun w => toLe 8 w.toNat)).queues
      ∧ { t with hart := s.hart, others := s.others, queues := s.queues } = s))
  ∧ (∀ (d : Nat) (cores : List Nat),
    let x := vget s.dispatchers dispatcherDefault d
    let i : Instr := .dispatchRotation d cores
    (4 ≤ d ∨ s.dieStopped d = true ∨ s.down = true → exec i s = .next s)
    ∧ (d < 4 → s.dieStopped d = false → s.down = false → x.ready = [] → x.pool = [] → x.spoil = [] →
      (s.queues.map (·.n)).Nodup →
      (x.slots = [] →
        let able (q : StartQueue) : Prop := q.home = d ∧ q.waiting ≠ none ∧ q.enabled = true
        ∃ t, exec i s = .next t ∧ { t with queues := s.queues, dispatchers := s.dispatchers } = s
          ∧ vget t.dispatchers dispatcherDefault d = { x with slots := (vget t.dispatchers dispatcherDefault d).slots, rotation := x.rotation + 1 }
          ∧ (vget t.dispatchers dispatcherDefault d).slots.length ≤ 64
          ∧ (∀ n ∈ (vget t.dispatchers dispatcherDefault d).slots, ∃ q ∈ s.queues, q.n = n ∧ able q)
          ∧ (let ahead (m n : Nat) : Prop := ∃ p r p' r', (s.queue m).waiting = some (p, r) ∧ (s.queue n).waiting = some (p', r')
              ∧ (min 7 (p' + 1) < min 7 (p + 1) ∨ (min 7 (p' + 1) = min 7 (p + 1) ∧ (r < r' ∨ (r = r' ∧ m < n))))
            (vget t.dispatchers dispatcherDefault d).slots.Pairwise ahead
            ∧ ∀ n ∈ (vget t.dispatchers dispatcherDefault d).slots, ∀ q ∈ s.queues, able q →
              q.n ∉ (vget t.dispatchers dispatcherDefault d).slots → ahead n q.n)
          ∧ ((vget t.dispatchers dispatcherDefault d).slots.length < 64 →
            ∀ q ∈ s.queues, able q → q.n ∈ (vget t.dispatchers dispatcherDefault d).slots)
          ∧ (∀ q ∈ s.queues, ∀ p r, q.home = d → q.waiting = some (p, r) → (t.queue q.n).waiting =
            if q.n ∈ (vget t.dispatchers dispatcherDefault d).slots then none else some (min 7 (p + 1), r)))
      ∧ (∀ n, x.slots = [n] → (s.queue n).enabled = false ∨ (s.queue n).home ≠ d → ∃ t, exec i s = .next t
        ∧ (t.queue n).records = (s.queue n).records ∧ t.allHarts = s.allHarts)
      ∧ (∀ n r, x.slots = [n] → (∀ q ∈ s.queues, q.waiting = none) → (s.queue n).enabled = true → (s.queue n).home = d →
        (s.queue n).records = [r] →
        r.length = 64 → recWaitCtx r = 0 → recGroup r = 0 →
        (malformedRecord r = true → recDone r = 0 → ∃ t, exec i s = .next t ∧ (t.queue n).records = []
          ∧ (t.queue n).removed = (s.queue n).removed + 1 ∧ (t.queue n).malformed = (s.queue n).malformed + 1
          ∧ t.mem = s.mem ∧ t.allHarts = s.allHarts)
        ∧ (malformedRecord r = true → s.RecordWaits d (BitVec.ofNat 8 (recWinOf r)) (BitVec.ofNat 64 (recDone r)) →
          ∃ t, exec i s = .next t ∧ (t.queue n).records = [r] ∧ t.allHarts = s.allHarts)
        ∧ (∀ p, malformedRecord r = false → s.neverStarts d [r] = none → s.startNow d cores [r] = some [p] → p.die < 4 →
          p.core < 128 → p.slot < 4 → ∃ t h, exec i s = .next t ∧ t.allHarts = s.allHarts ++ [h] ∧ (t.queue n).records = []
          ∧ (t.queue n).removed = (s.queue n).removed + 1 ∧ (t.queue n).malformed = (s.queue n).malformed ∧ t.mem = s.mem
          ∧ h.run = .running ∧ h.isControl = false ∧ h.sv = false ∧ h.hartid.toNat = p.die * 512 + p.core * 4 + p.slot
          ∧ h.main.pc.toNat = recEntry r ∧ h.feed.pc.toNat = recFeeder r ∧ (h.hasFeeder = true ↔ recFeeder r ≠ 0)
          ∧ (h.main.rd 1).toNat = recArg r ∧ (h.feed.rd 1).toNat = recArg r
          ∧ (∀ j, j ≠ 1 → h.main.rd j = 0 ∧ h.feed.rd j = 0) ∧ h.main.win.toNat = recWinOf r ∧ h.feed.win.toNat = recWinOf r
          ∧ h.main.ta = false ∧ h.main.tvec = 0 ∧ h.main.rm = 1 ∧ h.main.vl = 0 ∧ h.main.rc = 1 ∧ h.main.pend = 0
          ∧ h.share = recShare r ∧ h.spawned = 0 ∧ h.childDone = 0 ∧ h.v = [] ∧ h.m = [] ∧ h.mcount = 0))))
  ∧ (∀ (agent pa : Nat) (v : Word) (r : HubReg), hubRegAt pa = some r → s.stuckAtStart = false →
    let i : Instr := .registerWrite agent pa v
    let hub (h : Hub) : State := { s with hub := h }
    let entry (m : Word) : Word := v &&& m
    let pool (d : Nat) (u : State) : State := if (vget s.dispatchers dispatcherDefault d).spoil = [] then u else s
    let gens (d : Nat) (u : State) : State := if ∃ g ∈ s.gens, g.die = d then s else u
    let harts (d : Nat) (u : State) : State := if ∃ h ∈ s.allHarts, h.isControl = false ∧ h.die = d then s else u
    let tables (u : State) : Prop :=
      let ends (c : CtxRef) : Prop := (∃ x, c = .xchg x ∧ (s.exchange x).isSome = true ∧ u.exchange x = none)
        ∨ ∃ g, c = .coll g ∧ (s.collective g).isSome = true ∧ u.collective g = none
      ∃ t, exec i s = .next t
        ∧ { t with hart := s.hart, others := s.others, queues := s.queues, dispatchers := s.dispatchers } = u
        ∧ ((∀ c, ¬ends c) → t = u)
        ∧ (∀ c, s.hart.main.tlw = .on c → (ends c → t.hart.main.tlw = .gone) ∧ (¬ends c → t.hart.main.tlw = .on c))
    (8 < agent → exec i s = .next s)
    ∧ (agent < 8 → s.control agent = none → exec i s = .next s)
    ∧ (agent < 8 → (s.control agent).isSome = true → match r with
      | .qcfg n =>
        let q := s.queue n
        let new := entry 0x00FFFFFFFFFF1F0D
        if q.cfg.getLsbD 0 = true ∧ new ||| 1 ≠ q.cfg then exec i s = .next s
        else ∃ t, exec i s = .next t ∧ t.queue n = { q with cfg := new } ∧ (∀ m, m ≠ n → t.queue m = s.queue m)
          ∧ { t with queues := s.queues } = s
      | .preempt d => exec i s = exec (.preemptRequest d (v.setWidth 32)) s
      | .frqbase d => ∃ t q, exec i s = .next t ∧ t.frq = vset s.frq d q ∧ { t with frq := s.frq } = s
        ∧ q.base = entry 0x00FFFFFFFFFF0001 ∧ q.size = (vget s.frq frqDefault d).size ∧ q.lost = (vget s.frq frqDefault d).lost
      | .frqsize d => ∃ t q, exec i s = .next t ∧ t.frq = vset s.frq d q ∧ { t with frq := s.frq } = s
        ∧ q.size = v.setWidth 5 ∧ q.base = (vget s.frq frqDefault d).base ∧ q.lost = (vget s.frq frqDefault d).lost
      | .splbase d => exec i s = .next (pool d (hub { s.hub with splbase := vset s.hub.splbase d (entry 0x00FFFFFFFFFF0001) }))
      | .splsize d => exec i s = .next (pool d (hub { s.hub with splsize := vset s.hub.splsize d (v.setWidth 5) }))
      | .tsbase d => exec i s = .next (gens d (hub { s.hub with tsbase := vset s.hub.tsbase d (entry 0x00FFFFFFFFFF0001) }))
      | .tssize d => exec i s = .next (gens d (hub { s.hub with tssize := vset s.hub.tssize d (v.setWidth 32) }))
      | .savbase d => exec i s = .next (harts d (hub { s.hub with savbase := vset s.hub.savbase d (entry 0x00FFFFFFFFFF0000) }))
      | .savcnt d => exec i s = .next (harts d (hub { s.hub with savcnt := vset s.hub.savcnt d (v.setWidth 12) }))
      | .xlroot d => exec i s = .next (hub { s.hub with xlroot := vset s.hub.xlroot d (entry 0x00FFFFFFFFFF0001) })
      | .xlva => exec i s = .next (hub { s.hub with xlva := v })
      | .xlinv => exec i s = .next { s with invs := s.invs ++
          [⟨(v.setWidth 2).toNat, (v >>> 40).setWidth 8, s.hub.xlva, (v >>> 8).setWidth 5⟩] }
      | .brrec => exec i s = .next (if v.getLsbD 0 then hub { s.hub with brPloss := false } else s)
      | .fabrank => tables (hub { s.hub with fabrank := v.setWidth 16 &&& 0x8FFF })
      | .rwtbase => exec i s = .next (hub { s.hub with rwtbase := entry 0x00FFFFFFFFFF0000 })
      | .rwtcnt => exec i s = .next (hub { s.hub with rwtcnt := v.setWidth 17 })
      | .rtimeout => exec i s = .next (hub { s.hub with rtimeout := v.setWidth 32 })
      | .xctbase => tables (hub { s.hub with xctbase := entry 0x00FFFFFFFFFF0000 })
      | .cgtbase => tables (hub { s.hub with cgtbase := entry 0x00FFFFFFFFFF0000 })
      | .fbudget => exec i s = .next (hub { s.hub with fbudget := v })
      | .hqpbase => exec i s = .next (hub { s.hub with hqpbase := entry 0x00FFFFFFFFFF0000 })
      | .hqpcnt => exec i s = .next (hub { s.hub with hqpcnt := v.setWidth 11 })
      | .hapcfg n => exec i s = .next (hub { s.hub with hapcfg := vset s.hub.hapcfg n (entry 0x000003FFFFFFFFFF) })
      | .hapbase n => exec i s = .next (hub { s.hub with hapbase := vset s.hub.hapbase n v })
      | .xlseq | .brdcap | .brctx _ | .brctxw _ | .hslot _ _ | .frqcnt _ | .rascnt _ _ | .rasctl _ | .partcfg | .partstat
      | .partrst | .lnkstat _ | .fpstat _ | .hpstat _ | .pwrctl _ | .telemetry _ => exec i s = .next s)
    ∧ (agent = 8 → match r with
      | .rasctl d => exec i s = .next (hub { s.hub with rasctl := vset s.hub.rasctl d (v.setWidth 9) })
      | .brdcap =>
        let n := v.setWidth 13
        (n.toNat = 0 ∨ 4096 < n.toNat → exec i s = .next s)
        ∧ (1 ≤ n.toNat → n.toNat ≤ 4096 → ∃ t, exec i s = .next t ∧ { t with dirty := s.dirty } = hub { s.hub with brdcap := n })
      | .partcfg => exec i s = exec (.partcfgWrite v) s
      | .partrst => exec i s = exec (.partrst v) s
      | .pwrctl d => exec i s = exec (.pwrctlWrite d v) s
      | .qcfg _ | .splbase _ | .splsize _ | .xlroot _ | .xlva | .xlinv | .xlseq | .tsbase _ | .tssize _ | .brrec | .brctx _
      | .brctxw _ | .preempt _ | .savbase _ | .savcnt _ | .hslot _ _ | .frqbase _ | .frqsize _ | .frqcnt _ | .rascnt _ _
      | .partstat | .lnkstat _ | .fabrank | .rwtbase | .rwtcnt | .rtimeout | .xctbase | .cgtbase | .fbudget | .fpstat _
      | .hqpbase | .hqpcnt | .hpstat _ | .hapcfg _ | .hapbase _ | .telemetry _ => exec i s = .next s))

/-- R432: a pre-emption request stops a running hart of the die, and ignores an unknown tag. R432, R436, R437: once its
streams have stopped a hart is saved: its area holds its registers, it keeps its tag, and it is ready only when sparing or
retirement stopped it. R430, R308: it is not saved while an access that runs to completion, one of a DEVICE page among them,
awaits an answer. R256, R447: a killed hart retires once its copies and such accesses have ended, its parent counts it, and its
children have no parent any longer; R472: its retirement waits while its completion record does. -/
def Obligations.HartLifecycle : Prop := ∀ (s : State) (tag : BitVec 32) (d : Nat),
  (s.findHart tag = none → exec (.preemptRequest d tag) s = .next s ∧ exec (.hartSave tag) s = .next s ∧ exec (.hartRetire tag) s = .next s)
  ∧ ∀ h : Hart, s.findHart tag = some h →
    (h.die ≠ d → ∃ t, exec (.preemptRequest d tag) s = .next t ∧ t.findHart tag = some h)
    ∧ (h.die = d → h.run = .running → ∃ t, exec (.preemptRequest d tag) s = .next t
      ∧ t.findHart tag = some { h with run := .stopping, reason := h.reason ||| 1 }
      ∧ (∀ k, k ≠ tag → t.findHart k = s.findHart k) ∧ { t with hart := s.hart, others := s.others } = s)
    ∧ (h.run ≠ .stopping ∨ h.remote ≠ [] ∨ h.aperture ≠ [] → exec (.hartSave tag) s = .next s)
    ∧ (h.run = .stopping → h.remote = [] → h.aperture = [] → h.late = [] →
      (∀ q ∈ h.q.toList, q.length ≤ 32) → h.vq.length ≤ 16 → h.share ≤ 8 → h.share ≠ 0 →
      (∀ x ∈ h.v, x.1 / 2048 < 256 ∧ x.1 % 2048 < 192 * h.share) →
      (∀ x ∈ h.m, x.1 / 16384 < 64 ∧ x.1 % 16384 < 1536 * h.share) →
      (∀ x ∈ h.fm0, x.1 / 16384 < 8 ∧ x.1 % 16384 < 1536 * h.share) →
      (∀ l ∈ h.tq.toList, l.length ≤ 2 ∧ ∀ x ∈ l, x.bytes.length ≤ 1536 * h.share) →
      let a := s.areaAt h
      let word (t : State) (o : Nat) : Nat := t.mem.readLe (a + o) 8
      ∃ t x, exec (.hartSave tag) s = .next t ∧ t.findHart tag = some x
        ∧ x.run = .saved (h.reason == 16) ∧ x.tag = tag ∧ x.area = h.area ∧ x.cc = h.cc ∧ x.mcount = h.mcount ∧ x.macc = h.macc
        ∧ x.inSlot = false ∧ x.lanes = [] ∧ x.main.sig = none ∧ x.device = [] ∧ x.aperture = [] ∧ x.remoteData = []
        ∧ (∀ k, k ≠ tag → t.findHart k = s.findHart k)
        ∧ (tag ∈ (vget t.dispatchers dispatcherDefault h.die).ready ↔
          h.reason = 16 ∨ tag ∈ (vget s.dispatchers dispatcherDefault h.die).ready)
        ∧ word t 0 = h.reason.toNat
        ∧ (∀ j : Reg, word t (0x100 + 8 * j.toNat) = (h.main.rd j).toNat)
        ∧ word t 0x200 = h.main.pc.toNat ∧ word t 0x218 = h.main.win.toNat ∧ word t 0x228 = h.main.tvec.toNat
        ∧ word t 0x230 = h.main.tepc.toNat ∧ word t 0x250 = h.main.vl.toNat ∧ word t 0x260 = h.main.vstart.toNat
        ∧ (h.hasFeeder = true → (∀ j : Reg, word t (0x300 + 8 * j.toNat) = (h.feed.rd j).toNat) ∧ word t 0x400 = h.feed.pc.toNat)
        ∧ (∀ b, b < a ∨ a + 0x90000 ≤ b → t.mem.byte b = s.mem.byte b))
    ∧ ((∀ b, h.run ≠ .killed b) → exec (.hartRetire tag) s = .next s)
    ∧ (∀ b, h.run = .killed b →
      ((∃ o ∈ s.ops, ∃ j, o.ctx = .copy tag j) ∨ h.remote ≠ [] ∨ h.aperture ≠ [] ∨ s.RecordWaits h.die h.recWin h.doneAddr →
        exec (.hartRetire tag) s = .next s)
      ∧ (h.remote = [] → h.aperture = [] → (∀ o ∈ s.ops, ∀ j, o.ctx ≠ .copy tag j) → (∀ o ∈ s.ops, o.issuer = tag → o.ctl = none → ∀ q l, o.kind ≠ .tiles q l) →
        h.doneAddr = 0 → h.late = [] → (s.occupied = true → s.hart.isControl = false → s.hart.tag = tag →
          ∀ x ∈ s.others, x.isControl = true ∨ x.tag ≠ tag) →
        ∃ t, exec (.hartRetire tag) s = .next t ∧ t.findHart tag = none ∧ t.mem = s.mem ∧ t.ops = s.ops
          ∧ (∀ k, k ≠ tag → t.findHart k = (s.findHart k).map fun y =>
            { y with childDone := if h.parent = some k then y.childDone + 1 else y.childDone
                     parent := if y.parent = some tag then none else y.parent })
          ∧ (∀ k, tag ∉ (vget t.dispatchers dispatcherDefault k).ready)))

/-- R280, R282: a walk whose leaf permits the access sets A, and D for a write or an atomic; R290: its leaf is held by the µTLB
of the core and the TLB of the quad, which hold 64 and 2,048 at most; no other walk changes anything. R274: an outside agent's
access of storage is performed at its home, and R275 counts a corrected error; the topology engines' regions are closed to it
(R373). R294, R295: commands are kept in order, and the oldest removes the translations it covers, in the units that DIES names,
and is counted in XLSEQ, once no access of a hart that it covers is under way: a DEVICE access completes first, and a store that
waits is performed. R23: CYCLE counts. What a full unit gives up, and H's TLBs, are the model's choices (logs 34, 44). -/
def Obligations.MemoryEvents : Prop := ∀ s : State,
  (∀ (die unit : Nat) (win : BitVec 8) (va : Word) (acc : Nat) (sv : Bool), die < 5 →
    let i : Instr := .pageWalk ⟨die, unit⟩ win va acc sv
    let units : List TlbUnit := if die < 4 ∧ unit < 128 then [.core (128 * die + unit), .quad (32 * die + unit / 4)]
      else if die < 4 ∧ unit < 160 then [.quad (32 * die + (unit - 128))] else [.hub]
    let a := walkAgent die unit win sv
    (∀ k lvl, s.walk a va.toNat = .bad k lvl → exec i s = .next s)
    ∧ (s.walk a va.toNat = .waits → exec i s = .next s)
    ∧ ∀ l, s.walk a va.toNat = .leaf l →
      let pte := BitVec.ofNat 64 l.pte ||| (if acc = 1 ∨ acc = 2 then 0x300#64 else 0x100#64)
      let pa := pteBase l.pte + va.toNat % l.size
      let fails : Prop := s.protKind a (.plain acc 8) l.pte pa ≠ none ∨ s.cutOff a (.plain acc 8) pa l = true
      (fails → exec i s = .next s)
      ∧ (¬fails → ∃ t, exec i s = .next t ∧ t.mem.readLe l.at_ 8 = pte.toNat
        ∧ (∀ b, ¬(l.at_ ≤ b ∧ b < l.at_ + 8) → t.mem.byte b = s.mem.byte b)
        ∧ (∀ u ∈ units, (∃ e ∈ t.tlb, e.unit = u ∧ e.die = die ∧ e.pte = pte ∧ e.pteAt = l.at_ ∧ e.size = l.size
            ∧ e.vbase % l.size = 0 ∧ e.vbase ≤ win.toNat * 2 ^ 64 + va.toNat ∧ win.toNat * 2 ^ 64 + va.toNat < e.vbase + e.size)
          ∧ ∀ n, u.room = some n → (s.tlb.filter (·.unit == u)).length ≤ n → (t.tlb.filter (·.unit == u)).length ≤ n)
        ∧ (∀ e, e.unit ∉ units → (e ∈ t.tlb ↔ e ∈ s.tlb))
        ∧ { t with mem := s.mem, tlb := s.tlb } = s))
  ∧ (∀ c q, TlbUnit.room (.core c) = some 64 ∧ TlbUnit.room (.quad q) = some 2048)
  ∧ (∀ (pa size : Nat) (data : Option Word) (bit : Bool), let i : Instr := .memoryAccessPerform pa size data bit
    ((size ≠ 1 ∧ size ≠ 2 ∧ size ≠ 4 ∧ size ≠ 8) ∨ pa % size ≠ 0 ∨ isStorage pa = false ∨ s.topoStorage pa = true
      ∨ s.down = true ∨ s.stuckAtStart = true → exec i s = .next s)
    ∧ (size = 1 ∨ size = 2 ∨ size = 4 ∨ size = 8 → pa % size = 0 → isStorage pa = true → s.topoStorage pa = false → s.down = false →
      s.stuckAtStart = false → ∃ t, exec i s = .next t
        ∧ (∀ v, data = some v → t.mem.readLe pa size = v.toNat % 2 ^ (8 * size))
        ∧ (∀ b, ¬(pa ≤ b ∧ b < pa + size) → t.mem.byte b = s.mem.byte b) ∧ (data = none → t.mem = s.mem)
        ∧ (∀ j, j < 44 → vget t.hub.rascnt 0 j = vget s.hub.rascnt 0 j
            + if bit = true ∧ ∃ d ∈ (region pa).home, j = 11 * d then 1 else 0)
        ∧ s.BytesOnly { t with ingress := s.ingress, poisonAtoms := s.poisonAtoms, hub := { t.hub with rascnt := s.hub.rascnt } }
        ∧ ((∀ v, data = some v → region pa = .bedrock → False) → t.ingress = s.ingress)))
  ∧ (∀ (win : BitVec 8) (va : Word) (dies : BitVec 5),
    exec (.xlinvPage win va dies) s = .next { s with invs := s.invs ++ [⟨0, win, va, dies⟩] }
    ∧ exec (.xlinvWindow win dies) s = .next { s with invs := s.invs ++ [⟨1, win, 0, dies⟩] }
    ∧ exec (.xlinvNonglobal dies) s = .next { s with invs := s.invs ++ [⟨2, 0, 0, dies⟩] }
    ∧ exec (.xlinvAll dies) s = .next { s with invs := s.invs ++ [⟨3, 0, 0, dies⟩] })
  ∧ (s.invs = [] → exec .invalidationComplete s = .next s)
  ∧ (∀ c rest, s.invs = c :: rest →
    let bit (u : TlbUnit) : Nat := match u with | .core n => n / 128 | .quad n => n / 32 | .hub => 4
    let covered (e : TlbEntry) : Prop := (c.dies = 0 ∨ c.dies.getLsbD (bit e.unit) = true)
      ∧ (c.kind = 0 → e.vbase ≤ c.win.toNat * 2 ^ 64 + c.va.toNat ∧ c.win.toNat * 2 ^ 64 + c.va.toNat < e.vbase + e.size)
      ∧ (c.kind = 1 → e.pte.getLsbD 10 = false ∧ e.vbase / 2 ^ 64 = c.win.toNat)
      ∧ (c.kind = 2 → e.pte.getLsbD 10 = false)
    let named (h : Hart) : Prop := c.dies = 0 ∨ c.dies.getLsbD h.die = true
    ((∃ h ∈ s.allHarts, named h ∧ h.aperture ≠ []) → exec .invalidationComplete s = .next s)
    ∧ ((∀ h ∈ s.allHarts, named h → h.aperture = []) → ∀ u, u = s.settleWhere c.coversHart →
      ((∀ h ∈ s.allHarts, named h → h.late = []) → u = s)
      ∧ ∃ t, exec .invalidationComplete s = .next t ∧ t.invs = rest ∧ t.hub = { u.hub with xlseq := u.hub.xlseq + 1 }
        ∧ (∀ e, e ∈ t.tlb ↔ e ∈ u.tlb ∧ ¬covered e) ∧ { t with invs := u.invs, hub := u.hub, tlb := u.tlb } = u))
  ∧ (∀ core, ∃ t, exec (.cycleIncrement core) s = .next t ∧ Sparse.get 0 t.cycles core = Sparse.get 0 s.cycles core + 1
    ∧ (∀ c, c ≠ core → Sparse.get 0 t.cycles c = Sparse.get 0 s.cycles c) ∧ { t with cycles := s.cycles } = s)

/-- R448, R450, R457: a failure is of lane N mod 8 of the group that works on the element; the first is replayed and counted, and
changes nothing else of the hart. R451: a second one commits the groups of I from k on poisoned, those that had not committed,
with one record, and the hart continues. R454: mismatches count within 2^20 instructions of the group, and three lanes with some
stop its checking. R455: a lane at THRESH is spared at once, which stops the checking and pre-empts the holders with
REASON.SPARING, or kills those with an uncorrectable word; what the save corrects
is counted. R456: a group without a spare is retired for a lane at THRESH or an uncorrectable word, and its holders are
pre-empted. Which instruction fails, and where, is the events' (log 25). -/
def Obligations.SoftErrors : Prop := ∀ s : State,
  let counts (t : State) (die : Nat) (l : List (Nat × Nat)) : Prop := ∀ j, j < 44 →
    vget t.hub.rascnt 0 j = vget s.hub.rascnt 0 j + BitVec.ofNat 64 (sumNat (l.map fun x => if j = 11 * die + x.1 then x.2 else 0))
  let count (l : LaneGroup) (n lane : Nat) : Nat := (l.mismatches.filter fun x => x.1 == lane && decide (n - x.2 < 2 ^ 20)).length
  let holds (h : Hart) (die core group : Nat) : Prop := h.inSlot = true ∧ h.die = die ∧ idCore h.hartid = core ∧ group ∈ h.lanes
  let leaves (t : State) (die core group : Nat) (bad : List (BitVec 32)) : Prop := ∀ tag h, s.findHart tag = some h →
    (¬holds h die core group → t.findHart tag = some h)
    ∧ (holds h die core group → tag ∉ bad → h.run = .running ∨ h.run = .stopping →
      t.findHart tag = some { h with run := .stopping, reason := h.reason ||| 16 })
  let oneEach : Prop := ∀ h ∈ s.allHarts, h.late = [] ∧ (h.isControl = false → s.findHart h.tag = some h)
  (∀ (tag : BitVec 32) (h : Hart) (inst : IssuedInstr) (row e : Nat) (dest : List (Nat × Nat)) (corrected : Nat) (bad : List (BitVec 32)),
    s.findHart tag = some h →
    let g := inst.grant
    let b := 2 ^ vtypeSew inst.vtype
    let core := idCore h.hartid
    let at_ := h.lanes[e % rowElems g b % (8 * g) / 8]?
    let working : Prop := h.run = .running ∨ h.run = .stopping
    let width := destBytesOfWord inst.word.toNat b
    let late (d : Nat × Nat) (k : Nat) : Prop := ∃ p, (p = (row, e) ∨ p ∈ dest) ∧ row * 65536 + e ≤ p.1 * 65536 + p.2 ∧ p.1 < 8
      ∧ p.2 < d.2 * rowElems g width ∧ k ∈ poisonKeys g width d.1 p.1 p.2
    let spoiled (t : State) : Prop := ∃ x, t.findHart tag = some x ∧ x = { h with poison := x.poison }
      ∧ (∀ k, k ∈ x.poison ↔ k ∈ h.poison ∨ (∃ d, destOfWord inst.word.toNat (vtypeLmul inst.vtype) = some d
        ∧ (late d k ∨ ∃ p, inst.pfx = some p ∧ pfxCen p = true ∧ late ((pfxReg p).toNat, d.2) k))
        ∨ ∃ n p, maskOfWord inst.word.toNat = some n ∧ (p = (row, e) ∨ p ∈ dest) ∧ row * 65536 + e ≤ p.1 * 65536 + p.2 ∧ p.1 < 8
          ∧ p.2 < 16384 ∧ k = maskKey n p.1 p.2)
    (∀ second, h.run ≠ .running → h.run ≠ .stopping → exec (.checkMismatch tag inst (row, e) second dest ⟨corrected, bad⟩) s = .next s)
    ∧ (∀ group, at_ = some group → working →
      let l := s.lane h.die core group
      let n := s.laneN l
      let m : LaneGroup := { l with mismatches := (l.mismatches.filter fun x => decide (n - x.2 < 2 ^ 20)) ++ [(n % 8, n)] }
      let three : Prop := ∃ i j k, i < j ∧ j < k ∧ k < 8 ∧ 0 < count m n i ∧ 0 < count m n j ∧ 0 < count m n k
      (∀ second, l.checkStopped = true ∨ l.retired = true → exec (.checkMismatch tag inst (row, e) second dest ⟨corrected, bad⟩) s = .next s)
      ∧ (l.checkStopped = false → l.retired = false →
        (∃ t, exec (.checkMismatch tag inst (row, e) false dest ⟨corrected, bad⟩) s = .next t
          ∧ (three → t.mem = s.mem ∧ t.lane h.die core group = { m with checkStopped := true } ∧ t.allHarts = s.allHarts
            ∧ counts t h.die [(2, 1), (3, 1), (7, 1)])
          ∧ (¬three → count m n (n % 8) < s.thresh h.die → t.lane h.die core group = m ∧ counts t h.die [(2, 1), (3, 1)]
            ∧ { t with hub := { t.hub with rascnt := s.hub.rascnt }, lanes := s.lanes } = s)
          ∧ (¬three → s.thresh h.die ≤ count m n (n % 8) → oneEach →
            t.mem = s.mem ∧ t.lane h.die core group = { m with checkStopped := true, spared := true }
            ∧ leaves t h.die core group bad ∧ counts t h.die [(2, 1), (3, 1), (0, corrected), (6, 1), (7, 1)]))
        ∧ (¬three → count m n (n % 8) < s.thresh h.die → ∃ t, exec (.checkMismatch tag inst (row, e) true dest ⟨corrected, bad⟩) s = .next t
          ∧ t.lane h.die core group = m ∧ t.mem = s.mem ∧ spoiled t
          ∧ (∀ k, k ≠ tag → t.findHart k = s.findHart k)
          ∧ vget t.hub.rascnt 0 (11 * h.die + 3) = vget s.hub.rascnt 0 (11 * h.die + 3)
          ∧ (h.die < 4 → bitAt (vget s.frq frqDefault h.die).base.toNat 0 = false →
            (vget t.frq frqDefault h.die).lost.toNat = min ((vget s.frq frqDefault h.die).lost.toNat + 1) 0xFFFFFFFF))))
    ∧ (∀ (memory second : Bool) (address : Nat),
      let i : Instr := .uncorrectableConsumed tag inst memory address row e second dest
      let device : Prop := memory = true ∧ ∃ o, region address = .hub o
      (h.run ≠ .running → h.run ≠ .stopping → exec i s = .next s)
      ∧ (∀ group, at_ = some group → working →
        let l := s.lane h.die core group
        (memory = true ∨ l.checkStopped = false ∨ l.retired = true →
          (second = false → ¬device → ∃ t, exec i s = .next t ∧ counts t h.die [(1, 1), (3, 1)]
            ∧ { t with hub := { t.hub with rascnt := s.hub.rascnt } } = s)
          ∧ (second = true ∨ device → ∃ t, exec i s = .next t ∧ spoiled t
            ∧ (∀ k, k ≠ tag → t.findHart k = s.findHart k) ∧ t.mem = s.mem
            ∧ (memory = true → t.isPoisoned address 1 = true)
            ∧ (memory = false → t.memPoison = s.memPoison ∧ t.poisonAtoms = s.poisonAtoms)))
        ∧ (memory = false → l.checkStopped = true → l.retired = false → oneEach → ∃ t, exec i s = .next t
          ∧ t.lane h.die core group = { l with retired := true } ∧ (second = false → leaves t h.die core group [])))))
  ∧ (∀ (die core group lane corrected : Nat) (bad : List (BitVec 32)),
    let l := s.lane die core group
    let few : Prop := count l (s.laneN l) lane < s.thresh die
    (4 ≤ die ∨ 128 ≤ core ∨ 8 ≤ group ∨ 8 ≤ lane ∨ l.checkStopped = true ∨ l.retired = true ∨ few →
      exec (.laneSpare die core group lane corrected bad) s = .next s)
    ∧ (die < 4 → core < 128 → group < 8 → lane < 8 → l.checkStopped = false → l.retired = false → ¬few → oneEach →
      ∃ t, exec (.laneSpare die core group lane corrected bad) s = .next t ∧ leaves t die core group bad
        ∧ t.lane die core group = { l with checkStopped := true, spared := true }
        ∧ (bad = [] → t.mem = s.mem ∧ counts t die [(0, corrected), (6, 1), (7, 1)]))
    ∧ (∀ storage : Bool, let i : Instr := .groupRetire die core group lane storage
      (4 ≤ die ∨ 128 ≤ core ∨ 8 ≤ group ∨ l.checkStopped = false ∨ l.retired = true ∨ (storage = false ∧ few) → exec i s = .next s)
      ∧ (die < 4 → core < 128 → group < 8 → l.checkStopped = true → l.retired = false → storage = true ∨ ¬few → oneEach →
        ∃ t, exec i s = .next t ∧ leaves t die core group [] ∧ counts t die [(8, 1)]
          ∧ t.lane die core group = { l with retired := true } ∧ t.mem = s.mem)))

/-- R473: a frame whose CRC fails is sent again and counted, and one that verifies in order is applied; the ninth failure
of one frame, a bad tag, a wrong counter and lost training fail the link. R480, R491: the failure of a link stops every die
of its partition, that of a fabric port every die of the package; what its harts have in flight is discarded, and its ring links
take no frame. R472: a counter that reaches 2^48 retrains the link, when what waits in the harts has gone across. R530: no link is
trained before bring-up is complete. R475, R476: PARTCFG takes a number for each die when each partition is one die, two joined
dies or all four, and no die that changes is in use; ring links between partitions are held down, and record their failures.
R482: PARTRST restarts exactly the dies of one stopped partition. R489-R491: a frame for another rank is forwarded; of each pair
of ranks the next frame is taken, and the ninth beyond a gap still open fails the port. What PARTRST keeps, and the counting of
gaps by frames, are the model's choices (logs 27, 32). -/
def Obligations.LinksAndPartitions : Prop := ∀ s : State,
  let gone : State := s.settleWhere fun _ => true
  let stopped (t : State) (ds : List Nat) : Prop :=
    (∀ d, t.dieStopped d = true ↔ d < 4 ∧ d ∈ ds ∨ s.dieStopped d = true)
    ∧ (∀ h ∈ t.allHarts, h.isControl = false → h.die ∈ ds → h.run ≠ .running ∧ h.run ≠ .stopping
      ∧ ((∃ area, h.run = .saved area) ∨ h.late = [] ∧ h.device = [] ∧ h.aperture = [] ∧ h.remote = []))
    ∧ (∀ g ∈ t.gens, g.die ∉ ds) ∧ (∀ g ∈ s.gens, g.die ∉ ds → ∃ g' ∈ t.gens, g'.die = g.die ∧ g'.slot = g.slot)
    ∧ (∀ o ∈ t.ops, o.onDies ds = false) ∧ (s.awaits (fun _ => true) = false → t.queues = s.queues)
  ((∀ h ∈ s.allHarts, h.late = []) → gone = s)
  ∧ (∀ n, n < 8 →
    let l := vget s.links linkDefault n
    let on (s t : State) (l' : LinkState) : Prop := t = { s with links := vset s.links n l' }
    let only (t : State) (l' : LinkState) : Prop := on s t l'
    let fails (i : Instr) (kind : BitVec 8) : Prop := ∃ t, exec i s = .next t
      ∧ t.links = vset s.links n { l with failkind := kind, failed := true, up := false }
      ∧ (∀ p, s.linkPart n = some p → (∃ d ∈ s.partDies p, s.dieStopped d = true) → only t { l with failkind := kind, failed := true, up := false })
      ∧ (∀ p, s.linkPart n = some p → (∀ d ∈ s.partDies p, s.dieStopped d = false) → stopped t (s.partDies p))
      ∧ (s.linkPart n = none → only t { l with failkind := kind, failed := true, up := false })
    (∀ dir, dir < 2 → let frame (a b c : Bool) : Instr := .linkFrameReceive n dir a b c
      let held : Prop := s.linkPart n = none
      let off : Prop := n < 4 ∧ ∃ p, s.linkPart n = some p ∧ ∃ d, d < 4 ∧ s.part d = p ∧ s.dieStopped d = true
      let counted (up : Bool) : LinkState :=
        { l with frames := vset l.frames dir (vget l.frames 0 dir + 1), crcFails := vset l.crcFails dir 0, up := up }
      let full : Prop := 2 ^ 48 ≤ vget l.frames 0 dir + 1
      (off ∨ (l.up = false ∧ ¬held) → ∀ a b c, exec (frame a b c) s = .next s)
      ∧ (¬off → l.up = true ∨ held →
        (∀ b c, vget l.crcFails 0 dir < 8 → ∃ t, exec (frame false b c) s = .next t ∧ only t { l with
          retry := BitVec.ofNat 32 (min (l.retry.toNat + 1) 0xFFFFFFFF), crcFails := vset l.crcFails dir (vget l.crcFails 0 dir + 1) })
        ∧ (∀ b c, 8 ≤ vget l.crcFails 0 dir → fails (frame false b c) 2)
        ∧ (∀ c, fails (frame true false c) 1) ∧ fails (frame true true false) 3
        ∧ (held → exec (frame true true true) s = .next s)
        ∧ (¬held → ∃ t, exec (frame true true true) s = .next t ∧ (full → on gone t (counted false)) ∧ (¬full → only t (counted true))))
      ∧ (l.up = false ∨ vget l.frames 0 dir < 2 ^ 48 → exec (.linkRekey n dir) s = .next s)
      ∧ (l.up = true → 2 ^ 48 ≤ vget l.frames 0 dir → ∃ t, exec (.linkRekey n dir) s = .next t ∧ on gone t { l with up := false }))
    ∧ (l.failed = true → exec (.linkLoss n) s = .next s)
    ∧ (l.failed = false → l.up = true ∨ s.linkPart n = none ∨ (∃ dir, dir < 2 ∧ 2 ^ 48 ≤ vget l.frames 0 dir) → fails (.linkLoss n) 4)
    ∧ (l.up = false → s.linkPart n ≠ none → (∀ dir, dir < 2 → vget l.frames 0 dir < 2 ^ 48) → exec (.linkLoss n) s = .next s)
    ∧ (s.hub.mpstage ≠ 6 → exec (.linkTrainingComplete n) s = .next s)
    ∧ (s.linkPart n = none → exec (.linkTrainingComplete n) s = .next s)
    ∧ (∀ p, s.linkPart n = some p →
      let down : Prop := ∃ d, d < 4 ∧ s.part d = p ∧ s.dieStopped d = true
      (down → n < 4 ∨ l.failed = true → exec (.linkTrainingComplete n) s = .next s)
      ∧ (s.hub.mpstage = 6 → ¬down ∨ (4 ≤ n ∧ l.failed = false) → ∃ t, exec (.linkTrainingComplete n) s = .next t
        ∧ only t { l with failed := false, up := true, frames := Vector.replicate 2 0, crcFails := Vector.replicate 2 0 })))
  ∧ (∀ n, n < 15 →
    let p := vget s.ports portDefault n
    let only (t : State) (p' : PortState) : Prop := t = { s with ports := vset s.ports n p' }
    let fails (i : Instr) (kind : BitVec 8) : Prop := ∃ t, exec i s = .next t ∧ stopped t [0, 1, 2, 3]
      ∧ t.ports = vset s.ports n { p with failkind := kind, failed := true, up := false }
    (p.up = false → exec (.fabricLinkLoss n) s = .next s)
    ∧ (p.up = true → fails (.fabricLinkLoss n) 4)
    ∧ (∀ (src dst seq : Nat) (body : List Nat), let frame (a b : Bool) : Instr := .fabricFrameReceive n a b ⟨src, dst, seq, body⟩
      let q := s.pair src s.rank
      let here : Prop := s.hub.fabrank.getLsbD 15 = false ∨ dst = s.rank
      let pair (t : State) (q' : PairSeq) : Prop := t.pair src s.rank = q'
        ∧ (∀ x y, (x, y) ≠ (src, s.rank) → t.pair x y = s.pair x y) ∧ { t with pairs := s.pairs } = s
      (p.up = false → ∀ a b, exec (frame a b) s = .next s)
      ∧ (p.up = true →
        (∀ b, ∃ t, exec (frame false b) s = .next t ∧ only t { p with retry := BitVec.ofNat 32 (min (p.retry.toNat + 1) 0xFFFFFFFF) })
        ∧ fails (frame true false) 1
        ∧ (¬here → exec (frame true true) s
            = .next { s with outbox := ⟨.forward, [src, dst, routePort s.rank dst, seq], body⟩ :: s.outbox })
        ∧ (here →
          (seq = q.next → ∃ t, exec (frame true true) s = .next t ∧ pair t { q with next := q.next + 1, tries := 0 })
          ∧ (seq < q.next → exec (frame true true) s = .next s)
          ∧ (q.next < seq → q.tries < 8 → ∃ t, exec (frame true true) s = .next t ∧ pair t { q with tries := q.tries + 1 })
          ∧ (q.next < seq → 8 ≤ q.tries → fails (frame true true) 2))))
    ∧ (s.hub.mpstage ≠ 6 → exec (.portLinkUp false n) s = .next s)
    ∧ (s.hub.mpstage = 6 → ∃ t, exec (.portLinkUp false n) s = .next t ∧ only t { p with failed := false, up := true }))
  ∧ (∀ v : Word,
    let pid (d : Nat) : Nat := v.toNat / 4 ^ d % 4
    let shape : Prop := (pid 0 = pid 3 ∨ pid 1 = pid 2) → pid 0 = pid 1 ∧ pid 1 = pid 2 ∧ pid 2 = pid 3
    let idle (d : Nat) : Prop := (∀ h ∈ s.allHarts, h.isControl = true ∨ h.die ≠ d) ∧ (∀ g ∈ s.gens, g.die ≠ d)
      ∧ (∀ q ∈ s.queues, q.cfg.getLsbD 0 = true → q.home ≠ d) ∧ s.dieStopped d = false
    let takes : Prop := shape ∧ ∀ d, d < 4 → pid d = s.part d ∨ idle d
    (¬takes → exec (.partcfgWrite v) s = .next s)
    ∧ (takes → ∃ t, exec (.partcfgWrite v) s = .next t ∧ (∀ d, d < 4 → t.part d = pid d)
      ∧ (∀ n, n < 8 → vget t.links linkDefault n =
        if n < 4 ∧ pid (ringDies n).1 ≠ pid (ringDies n).2 then { vget s.links linkDefault n with up := false }
        else vget s.links linkDefault n)
      ∧ { t with hub := { t.hub with partcfg := s.hub.partcfg }, links := s.links } = s))
  ∧ (∀ v : Word,
    let i : Instr := .partrst v
    let named (d : Nat) : Prop := d < 4 ∧ v.getLsbD d = true
    let whole (p : Nat) : Prop := (∀ d, d < 4 → (v.getLsbD d = true ↔ s.part d = p)) ∧ ∃ d, named d
    ((∀ p, ¬whole p) → exec i s = .next s)
    ∧ (∀ p, whole p → (∀ d, named d → s.dieStopped d = false) → exec i s = .next s)
    ∧ (∀ p, whole p → (∀ d, named d → s.dieStopped d = true) → ∃ t, exec i s = .next t
      ∧ (∀ d, t.dieStopped d = true ↔ s.dieStopped d = true ∧ ¬named d)
      ∧ (∀ h ∈ t.allHarts, h.isControl = true ∨ ¬named h.die) ∧ t.queues = s.queues
      ∧ (∀ a, t.mem.byte a = if (List.range 4).any (fun d => v.getLsbD d && onDie d a) = true then 0 else s.mem.byte a)
      ∧ (∀ n, n < 8 → s.linkPart n = some p → (vget t.links linkDefault n).up = true ∧ (vget t.links linkDefault n).failed = false)))

/-- R525, R526, R527: a packet on a queue pair that is not ready is ignored; a refused one performs nothing, is counted in
BADOP, is answered with a NAK and leaves the queue pair in error; a write of 64 aligned bytes under an enqueue window's
R_Key is an append, a read of it gives the counters; a window's write and read are performed as one. An integrity failure
puts the port's queue pairs in error. R529: a response gives an aperture load its value. R530, R531: bring-up trains the links,
recovers the persist domain (R407, R410) and starts the control cores with SV = 1; at a step whose image has not two signatures
that verify under fused keys, or a version below the fuses', it stops, reports the step, and the module answers nothing else.
R533: PWRCTL takes each field that is in range. R535: samples and counters are reported; a die at 105 °C or above stops the
partitions and shuts down in order. R532: a report is returned for a nonce of 32 bytes, with the digests and the versions of the
images that bring-up verified. A write or a read that a link holds up waits (R472). How the algorithms that R531 names are computed
and how keys are laid out (PRESUMED, log 45), the report's layout, its signatures, the fuses, what ignores a packet, the shutdown in one
step and what an event brings are the model's choices (logs 10, 31, 33, 37). -/
def Obligations.HostAndManagement : Prop := ∀ s : State,
  (∀ qp : Nat,
    let at_ := baseOf s.hub.hqpbase + 32 * qp
    let port := (s.mem.byte (at_ + 4)).toNat
    let p := vget s.hostPorts hostPortDefault port
    let ready : Prop := s.hub.mpstage = 6 ∧ qp < s.hub.hqpcnt.toNat ∧ s.mem.byte (at_ + 5) = 1 ∧ p.up = true ∧ s.down = false
    let refused (t : State) (kind : Nat) : Prop := t.mem.byte (at_ + 5) = 2 ∧ (∀ a, a ≠ at_ + 5 → t.mem.byte a = s.mem.byte a)
      ∧ vget t.hostPorts hostPortDefault port = { p with badop := BitVec.ofNat 32 (min (p.badop.toNat + 1) 0xFFFFFFFF) }
      ∧ t.outbox = ⟨.hostNak, [qp, kind], []⟩ :: s.outbox
      ∧ { t with mem := s.mem, hostPorts := s.hostPorts, outbox := s.outbox } = s
    (¬ready → exec (.hostInvalidOpcode qp) s = .next s ∧ (∀ k o b, exec (.hostRdmaWrite qp k o b) s = .next s)
      ∧ ∀ k o n, exec (.hostRdmaRead qp k o n) s = .next s)
    ∧ (ready →
      (∃ t, exec (.hostInvalidOpcode qp) s = .next t ∧ refused t 1)
      ∧ (∀ (k : BitVec 32) (o : Word) (b : List Byte) (n : Nat), 0x10400 ≤ k.toNat →
        (∃ t, exec (.hostRdmaWrite qp k o b) s = .next t ∧ refused t 2) ∧ ∃ t, exec (.hostRdmaRead qp k o n) s = .next t ∧ refused t 2)
      ∧ (∀ (k : BitVec 32) (q : Nat) (o : Word) (b : List Byte), k.toNat = 0x10000 + q → q < 1024 → o.toNat + b.length ≤ 0x1000 →
        ∃ t, exec (.hostRdmaWrite qp k o b) s = .next t ∧ t.outbox = ⟨.hostAck, [qp], []⟩ :: s.outbox ∧ t.mem = s.mem
          ∧ (o.toNat % 64 = 0 → b.length = 64 → o.toNat ≠ 0x800 → o.toNat ≠ 0x840 → exec (.enqueueAppend q b) s = .next { t with outbox := s.outbox })
          ∧ (o.toNat % 64 ≠ 0 ∨ b.length ≠ 64 ∨ o.toNat = 0x800 ∨ o.toNat = 0x840 → t.queue q = { s.queue q with refused := (s.queue q).refused + 1 }))
      ∧ (∀ (k : BitVec 32) (q : Nat) (o : Word), k.toNat = 0x10000 + q → q < 1024 → o.toNat % 8 = 0 → o.toNat + 8 ≤ 0x1000 →
        ∃ m, exec (.hostRdmaRead qp k o 8) s = .next { s with outbox := ⟨.hostReadResponse, [qp], m⟩ :: s.outbox }
          ∧ m = (toLe 8 ((s.queue q).counter o.toNat).toNat).map (·.toNat))
      ∧ (∀ (k : BitVec 32) (o : Word) (b : List Byte), k.toNat < 0x10000 →
        (∀ u, s.rdmaWrite (s.window k.toNat) o.toNat b = .ok true u → ∃ t, exec (.hostRdmaWrite qp k o b) s = .next t ∧ t.mem = u.mem
          ∧ t.ingress = u.ingress ∧ t.outbox = ⟨.hostAck, [qp], []⟩ :: u.outbox)
        ∧ (∀ u, s.rdmaWrite (s.window k.toNat) o.toNat b = .wait u → exec (.hostRdmaWrite qp k o b) s = .next s)
        ∧ (∀ u, s.rdmaWrite (s.window k.toNat) o.toNat b = .ok false u → ∃ t, exec (.hostRdmaWrite qp k o b) s = .next t ∧ refused t 2))
      ∧ (∀ (k : BitVec 32) (o : Word) (n : Nat), k.toNat < 0x10000 →
        (∀ l u, s.rdmaRead (s.window k.toNat) o.toNat n = .ok (some l) u → ∃ t, exec (.hostRdmaRead qp k o n) s = .next t ∧ t.mem = u.mem
          ∧ t.outbox = ⟨.hostReadResponse, [qp], l.map (·.toNat)⟩ :: u.outbox)
        ∧ (∀ u, s.rdmaRead (s.window k.toNat) o.toNat n = .wait u → exec (.hostRdmaRead qp k o n) s = .next s)
        ∧ (∀ u, s.rdmaRead (s.window k.toNat) o.toNat n = .ok none u → ∃ t, exec (.hostRdmaRead qp k o n) s = .next t ∧ refused t 2))))
  ∧ (∀ n, n < 4 →
    let p := vget s.hostPorts hostPortDefault n
    let state (q : Nat) : Nat := baseOf s.hub.hqpbase + 32 * q + 5
    (p.up = false → exec (.hostPortIntegrityFail n) s = .next s)
    ∧ (p.up = true → ∃ t, exec (.hostPortIntegrityFail n) s = .next t ∧ t.hostPorts = vset s.hostPorts n { p with failed := true }
      ∧ (∀ q, q < s.hub.hqpcnt.toNat → (s.mem.byte (state q - 1)).toNat = n → t.mem.byte (state q) = 2)
      ∧ (∀ a, (∀ q, q < s.hub.hqpcnt.toNat → (s.mem.byte (state q - 1)).toNat = n → a ≠ state q) → t.mem.byte a = s.mem.byte a)
      ∧ { t with mem := s.mem, hostPorts := s.hostPorts } = s)
    ∧ (s.hub.mpstage ≠ 6 → exec (.portLinkUp true n) s = .next s)
    ∧ (s.hub.mpstage = 6 → exec (.portLinkUp true n) s = .next { s with hostPorts := vset s.hostPorts n { p with failed := false, up := true } }))
  ∧ (∀ id : Nat, exec (.hostApertureResponse id none) s = .next s
    ∧ ∀ v : Word, ∃ t, exec (.hostApertureResponse id (some v)) s = .next t ∧ { t with hart := s.hart, others := s.others } = s
      ∧ { t.hart with aperture := s.hart.aperture } = s.hart
      ∧ t.hart.aperture = s.hart.aperture.map (fun r => if r.id = id then { r with value := some v } else r)
      ∧ t.others.length = s.others.length ∧ ∀ (n : Nat) (h k : Hart), s.others[n]? = some h → t.others[n]? = some k →
        { k with aperture := h.aperture } = h
        ∧ k.aperture = h.aperture.map (fun r => if r.id = id then { r with value := some v } else r))
  ∧ (∀ (d : Nat) (v : Word), d < 4 → ∃ t, exec (.pwrctlWrite d v) s = .next t
    ∧ (let limit := (v >>> 20).setWidth 12
      vget t.hub.pwrLimit 0 d = if 100 ≤ limit.toNat ∧ limit.toNat ≤ 600 then limit else vget s.hub.pwrLimit 0 d)
    ∧ (let n := (v >>> 8).setWidth 6
      vget t.hub.pwrTokens 0 d = if 1 ≤ n.toNat ∧ n.toNat ≤ 32 then n else vget s.hub.pwrTokens 0 d)
    ∧ (let n := v.setWidth 4
      vget t.hub.pwrCap 0 d = if 1 ≤ n.toNat ∧ n.toNat ≤ 8 then n else vget s.hub.pwrCap 0 d)
    ∧ vget t.hub.pwrAuto false d = v.getLsbD 16
    ∧ (∀ e, e ≠ d → vget t.hub.pwrLimit 0 e = vget s.hub.pwrLimit 0 e ∧ vget t.hub.pwrTokens 0 e = vget s.hub.pwrTokens 0 e
      ∧ vget t.hub.pwrCap 0 e = vget s.hub.pwrCap 0 e ∧ vget t.hub.pwrAuto false e = vget s.hub.pwrAuto false e)
    ∧ { t with tokens := s.tokens
               hub := { t.hub with pwrLimit := s.hub.pwrLimit, pwrTokens := s.hub.pwrTokens, pwrCap := s.hub.pwrCap, pwrAuto := s.hub.pwrAuto } } = s)
  ∧ (∀ temps powers coolant : List Nat, temps.length = 4 → powers.length = 4 → coolant.length = 2 →
    let i : Instr := .telemetrySample temps powers coolant
    ((∀ x ∈ temps, x < 840) → ∃ t m, exec i s = .next t ∧ t.outbox = m :: s.outbox ∧ m.kind = .management
      ∧ m.nums = temps ++ powers ++ coolant ∧ (∀ q ∈ s.frq.toList, q.lost.toNat ∈ m.data ∧ q.held.length ∈ m.data)
      ∧ (∀ j, j < 44 → (vget s.hub.rascnt 0 j).toNat ∈ m.data)
      ∧ t.hub = { s.hub with telemetry := (temps ++ powers ++ coolant).map (BitVec.ofNat 64) }
      ∧ { t with outbox := s.outbox, hub := s.hub } = s)
    ∧ ((∃ x ∈ temps, 840 ≤ x) → s.down = false → ∃ t, exec i s = .next t
      ∧ (∃ r : Recovery, t.recovery = some r ∧ (s.recovery = none → r.lost = [] ∧ r.ploss = false)) ∧ t.allHarts = []
      ∧ (let after (u : State) : Mem := u.ingress.foldl (fun m w => w.bytes.foldl (fun (m : Mem) c => m.setByte c.1 c.2) m) u.durable
        (s.ops = [] → t.durable = after s)
        ∧ ∃ m, ∀ u : State, u = ({ s with outbox := m :: s.outbox, hub := { s.hub with
          telemetry := (temps ++ powers ++ coolant).map (BitVec.ofNat 64) } } : State).stopDies [0, 1, 2, 3] → t.durable = after u)))
  ∧ (∀ (images : List Image) (entries : List Word) (writes : List (Nat × Word)), let i : Instr := .bringUp images entries writes
    let verifies (k : Nat) : Prop := ∃ (code : List Byte) (version : Nat) (key0 sig0 key1 sig1 : List Byte) (more : List (List Byte × List Byte)),
      images[k]? = some (code, version, (key0, sig0) :: (key1, sig1) :: more) ∧ Config.fuseCounter ≤ version
      ∧ (sha384 key0 = Config.fuseDigest 0 0 ∨ sha384 key0 = Config.fuseDigest 0 1) ∧ signatureOk 0 key0 sig0 code = true
      ∧ (sha384 key1 = Config.fuseDigest 1 0 ∨ sha384 key1 = Config.fuseDigest 1 1) ∧ signatureOk 1 key1 sig1 code = true
    let stops (k : Nat) : Prop := ∃ m, exec i s = .next { s with hub := { s.hub with mpstage := k }, outbox := m :: s.outbox }
      ∧ m = ⟨.management, [k], []⟩
    (s.hub.mpstage ≠ 0 ∨ s.down = true → exec i s = .next s)
    ∧ (s.hub.mpstage = 0 → s.down = false →
      (¬verifies 0 → stops 1) ∧ (verifies 0 → ¬verifies 1 → stops 2)
      ∧ (verifies 0 → verifies 1 → ∃ t, exec i s = .next t ∧ t.hub.mpstage = 6
        ∧ (writes = [] → t.measured = (images.take 2).map fun i => (sha384 i.1, i.2.1))
        ∧ (∀ n, n < 8 → s.linkPart n ≠ none → writes = [] → (vget t.links linkDefault n).up = true)
        ∧ (∀ n, n < 8 → writes = [] → ∃ h ∈ t.others, h.kind = .control n ∧ h.run = .running ∧ h.sv = true ∧ (∀ r, h.main.rd r = 0)
          ∧ h.main.pc = entries.getD n 0 &&& ~~~1 ∧ h.main.ta = false ∧ h.main.tvec = 0)
        ∧ (∀ r : Recovery, s.recovery = some r → writes = [] → s.MemOk →
          t.recovery = none ∧ t.hub.brValid = true ∧ t.hub.brPloss = r.ploss ∧ t.hub.brctx = r.ctx ∧ t.hub.brctxw = r.ctxw
          ∧ t.hub.brLost = BitVec.ofNat 32 (min r.lost.length 0xFFFFFFFF)
          ∧ (∀ a, a ∈ t.poisonAtoms ↔ a ∈ s.durablePoison ∨ a ∈ r.lost) ∧ t.durablePoison = t.poisonAtoms
          ∧ (t.hub.brPoison = true ↔ t.poisonAtoms ≠ [])
          ∧ ∀ a, t.mem.byte a = if s.durable.byte a = 0 then s.mem.byte a else s.durable.byte a))))
  ∧ (s.stuckAtStart = true → (∀ agent pa v, exec (.registerWrite agent pa v) s = .next s)
    ∧ (∀ host n, exec (.portLinkUp host n) s = .next s) ∧ ∀ pa size data bit, exec (.memoryAccessPerform pa size data bit) s = .next s)
  ∧ (∀ nonce : List Byte,
    (s.hub.mpstage ≠ 6 ∨ nonce.length ≠ 32 → exec (.attestationReport nonce) s = .next s)
    ∧ (s.hub.mpstage = 6 → nonce.length = 32 → ∃ m, exec (.attestationReport nonce) s = .next { s with outbox := m :: s.outbox }
      ∧ m.kind = .attestation
      ∧ ∀ body : List Byte, body = Config.reportVersion ++ nonce ++ sha384 Config.romImage ++ (s.measured.map (·.1)).flatten
          ++ (s.measured.map fun x => toLe 8 x.2).flatten ++ toLe 1 s.hub.partcfg.toNat ++ toLe 2 s.hub.fabrank.toNat →
        m.data.take body.length = body.map (·.toNat) ∧ m.data.length = body.length + 384 + 29792))

/-- R5, R30: the machine after reset. Every hub register reads the value of the Reset column of its table, and every
register of a stream has the value of the Reset column of its own; no hart, operation, generation, exchange or message
exists, and the memory is in its canonical form. The values of BRREC and BRCTX, which the spec gives only as recovered, are
those of log 2 and are left out; state without a Reset column is empty (log 5). -/
def Obligations.ResetState : Prop :=
  let s := State.reset
  s.MemOk ∧ s.allHarts = [] ∧ s.ops = [] ∧ s.gens = [] ∧ s.xchgs = [] ∧ s.colls = [] ∧ s.tlb = [] ∧ s.inputs = [] ∧ s.outbox = []
  ∧ s.pairs = [] ∧ s.lanes = [] ∧ s.ingress = [] ∧ s.dirty = [] ∧ s.pause = none ∧ s.Calm
  ∧ (∀ n, (s.queue n).cfg = 0 ∧ (s.queue n).records = [] ∧ ∀ o, (s.queue n).counter o = 0)
  ∧ (∀ (a : Agent) (r : HubReg), r ≠ .brrec → (∀ j, r ≠ .brctx j ∧ r ≠ .brctxw j) → hubRead s a r = match r with
    | .brdcap => 4096
    | .rtimeout => 0x01000000
    | .fbudget => 0x0400000004000000
    | .splsize d => if d < 4 then 20 else 0
    | .rasctl d => if d < 4 then 4 else 0
    | .pwrctl d => if d < 4 then 0x1AE01808 else 0
    | _ => 0)
  ∧ (∀ r, Stream.reset.rd r = 0) ∧ Stream.reset.rm = 1 ∧ Stream.reset.rc = 1 ∧ Stream.reset.flags = 0 ∧ Stream.reset.ta = false
  ∧ Stream.reset.pfxp = false ∧ Stream.reset.pfxd = 0 ∧ Stream.reset.win = 0 ∧ Stream.reset.lastG = 0 ∧ Stream.reset.lastV = 0
  ∧ Stream.reset.tvec = 0 ∧ Stream.reset.tepc = 0 ∧ Stream.reset.tcause = 0 ∧ Stream.reset.tval = 0 ∧ Stream.reset.vtype = 0
  ∧ Stream.reset.vl = 0 ∧ Stream.reset.vstart = 0 ∧ Stream.reset.pend = 0 ∧ Stream.reset.sig = none

/-- R39-R45, R71: words of R71's own examples, and words written out from the encoding tables, decode to the instruction they
stand for; the parcel 0x0000, the majors 0x00 and 0x1F and a C-format op5 of 16 are no instruction, and neither is a nonzero
field marked 0. -/
def Obligations.DecodeSanityWords : Prop :=
  decode [0x83, 0x62, 0x0E, 0x00] = .ok (.add 5 6 7)
  ∧ decode [0x93, 0x02, 0xC0, 0xFF] = .ok (.beq 5 0 (-4))
  ∧ decode [0x35, 0x62, 0x12, 0x00] = .ok (.vfadd 4 6 9 0 0)
  ∧ decode [0xC0, 0x20] = .ok (.cAdd 3 4)
  ∧ decode [0x1D, 0xE0, 0x01, 0x00] = .ok (.pfx 0 0 1 1 3)
  ∧ decode (toLe 4 (1 + 2 * 0x02 + 2 ^ 7 * 5 + 2 ^ 12 * 6 + 2 ^ 17 * (2 ^ 15 - 3))) = .ok (.addi 5 6 (-3))
  ∧ decode (toLe 4 (1 + 2 * 0x10 + 2 ^ 7 * 5 + 2 ^ 12 * 6 + 2 ^ 17 * 6 + 2 ^ 20 * 16)) = .ok (.ldd 5 6 16)
  ∧ decode (toLe 4 (1 + 2 * 0x12 + 2 ^ 7 * 5 + 2 ^ 12 * 6 + 2 ^ 17 * 7 + 2 ^ 22 * 2 + 2 ^ 25 + 2 ^ 26 + 2 ^ 27))
    = .ok (.amoadd 5 6 7 2 1 1 1)
  ∧ decode (toLe 4 (1 + 2 * 0x24 + 2 ^ 7 * 1 + 2 ^ 12 * 1 + 2 ^ 26 * 5)) = .ok (.mmulTq 1)
  ∧ decode (toLe 4 (1 + 2 * 0x27 + 2 ^ 17 * 2 + 2 ^ 20 * 3)) = .ok (.bar 3)
  ∧ decode [0x00, 0x00] = .error .zeroParcel
  ∧ decode [0x01, 0x00, 0x00, 0x00] = .error .reservedMajor
  ∧ decode [0x3F, 0x00, 0x00, 0x00] = .error .reservedMajor
  ∧ decode [0x20, 0x00] = .error .reservedCompact
  ∧ decode (toLe 4 (1 + 2 * 0x01 + 2 ^ 17 * 1 + 2 ^ 22 * 0x14)) = .error .reservedFunction

/-- R39-R71: the encoder and the decoder agree: every instruction that has an encoding and whose fields are well formed has
the length that its bytes show, and its bytes decode to it, whatever follows them. -/
def Obligations.DecodeEncode : Prop := ∀ (i : Instr) (rest : List Byte), i.wf = true → i.event = false →
  (encodeBytes i).length = i.size ∧ decode (encodeBytes i ++ rest) = .ok i

/-- R27, R39, R162: a step of a stream that has the turn executes the instruction that the bytes at PC decode to, and what
they are no instruction for raises ILLOP; a queued vector instruction of a main stream comes first, and the stream goes on behind
one that waits, but not behind a VAPPEND whose checks are not made (R162). R29: each byte is the one in memory, or an old one of
a byte stored since the last IFENCE (log 8). Without a turn left, the next input is an event, a choice of log 4 or 7, or the turn
passes (log 4). -/
def Obligations.StepRunsDecoded : Prop := ∀ s : State,
  let s0 : State := { s with quantum := s.quantum - 1 }
  (∀ (va : Word) (x : Xl) (v u : State), v.translate v.agent (.plain 3 2) va = .ok x u →
    ∃ (p : List Byte) (t : State), v.fetchParcel va = .ok p t ∧ { t with freeCtr := u.freeCtr } = u
      ∧ (u.st.stale = [] → t = u ∧ p = [u.mem.byte (u.agent.readAt x), u.mem.byte (u.agent.readAt x + 1)])
      ∧ p.length = 2 ∧ ∀ j, j < 2 → p.getD j 0 = u.mem.byte (u.agent.readAt x + j)
        ∨ (u.agent.readAt x + j, p.getD j 0) ∈ u.st.stale)
  ∧ (0 < s.quantum → s.runnable = true →
    (s.onFeeder = true ∨ s.hart.vq = [] → ∀ (x : MemFault) (s1 : State), s0.fetchParcel s.st.pc = .mem x s1 → step s = .next (s1.memFault x 0))
    ∧ (s.onFeeder = true ∨ s.hart.vq = [] → ∀ (p : List Byte) (s1 : State), s0.fetchParcel s.st.pc = .ok p s1 →
      let runs (b : List Byte) (t : State) : Prop := (∀ i, decode b = .ok i → step s = exec i t)
        ∧ ∀ e, decode b = .error e → step s = .next (t.trap .illop (BitVec.ofNat 64 (leNat b % 2 ^ 32)) (leNat b % 2 ^ 32))
      ((p.getD 0 0).getLsbD 0 = false → runs p s1)
      ∧ ((p.getD 0 0).getLsbD 0 = true → ∀ q s2, s1.fetchParcel (s.st.pc + 2) = .ok q s2 → runs (p ++ q) s2))
    ∧ (∀ e rest i u, s.onFeeder = false → s.hart.run = .running → s.hart.vq = e :: rest → e.instr = some i →
      exec i { s0 with atHead := true } = .next u →
      let goesOn : Prop := u.hart.run = .running ∧ s.hart.vq.length ≤ u.hart.vq.length ∧ u.hart.vq.any VEntry.uncheckedAppend = false
      (goesOn → step s = { u with quantum := s0.quantum }.stepStream) ∧ (¬goesOn → step s = .next u)))
  ∧ (∀ raw : BitVec 32, s.occupied = true →
    let held : Prop := vectorWord raw = true ∧ s.onFeeder = false ∧ s.hart.vq ≠ []
    (held → s.Waits (.unallocatedEncoding raw))
    ∧ (¬held → exec (.unallocatedEncoding raw) s = .next (s.trap .illop (raw.setWidth 64) raw.toNat)))
  ∧ (s.quantum = 0 →
    (∀ i rest, s.inputs = .event i :: rest → (i.event = true → step s = exec i { s with inputs := rest })
      ∧ (i.event = false → step s = .next { s with inputs := rest }))
    ∧ (∀ n rest, s.inputs = .pause n :: rest → step s = .next { s with inputs := rest, pause := some n })
    ∧ (∀ rest, s.inputs = .hold true :: rest → step s = .next { s with inputs := rest, hold := true })
    ∧ ∀ c tag f rest, s.inputs = .turn c tag f :: rest → step s = .next ({ s with inputs := rest }.turnTo c tag f))

/-- R266, R267 and log 1: every step keeps memory, and its durable copy, in the one canonical form: addresses strictly
rising, no byte listed that an unlisted address reads as, so that equal memories are equal data. -/
def Obligations.StepKeepsMemory : Prop := ∀ s t : State, s.MemOk → step s = .next t → t.MemOk
end

