-- ==== Sys2Proof/Laws/State.lean ====
section
/-! SUPPORT. What each named update of a record leaves of each field: one lemma per field and update. -/

namespace Sys2Proof.Machine


/-! ## State.setHart -/

@[simp] theorem State.setHart_hart (s : State) (h : Hart) : (s.setHart h).hart = h := rfl
@[simp] theorem State.setHart_onFeeder (s : State) (h : Hart) : (s.setHart h).onFeeder = s.onFeeder := rfl
@[simp] theorem State.setHart_occupied (s : State) (h : Hart) : (s.setHart h).occupied = s.occupied := rfl
@[simp] theorem State.setHart_atHead (s : State) (h : Hart) : (s.setHart h).atHead = s.atHead := rfl
@[simp] theorem State.setHart_others (s : State) (h : Hart) : (s.setHart h).others = s.others := rfl
@[simp] theorem State.setHart_inputs (s : State) (h : Hart) : (s.setHart h).inputs = s.inputs := rfl
@[simp] theorem State.setHart_quantum (s : State) (h : Hart) : (s.setHart h).quantum = s.quantum := rfl
@[simp] theorem State.setHart_pause (s : State) (h : Hart) : (s.setHart h).pause = s.pause := rfl
@[simp] theorem State.setHart_hold (s : State) (h : Hart) : (s.setHart h).hold = s.hold := rfl
@[simp] theorem State.setHart_freeCtr (s : State) (h : Hart) : (s.setHart h).freeCtr = s.freeCtr := rfl
@[simp] theorem State.setHart_outbox (s : State) (h : Hart) : (s.setHart h).outbox = s.outbox := rfl
@[simp] theorem State.setHart_mem (s : State) (h : Hart) : (s.setHart h).mem = s.mem := rfl
@[simp] theorem State.setHart_memPoison (s : State) (h : Hart) : (s.setHart h).memPoison = s.memPoison := rfl
@[simp] theorem State.setHart_tlb (s : State) (h : Hart) : (s.setHart h).tlb = s.tlb := rfl
@[simp] theorem State.setHart_invs (s : State) (h : Hart) : (s.setHart h).invs = s.invs := rfl
@[simp] theorem State.setHart_hub (s : State) (h : Hart) : (s.setHart h).hub = s.hub := rfl
@[simp] theorem State.setHart_queues (s : State) (h : Hart) : (s.setHart h).queues = s.queues := rfl
@[simp] theorem State.setHart_dispatchers (s : State) (h : Hart) : (s.setHart h).dispatchers = s.dispatchers := rfl
@[simp] theorem State.setHart_groups (s : State) (h : Hart) : (s.setHart h).groups = s.groups := rfl
@[simp] theorem State.setHart_nextGroup (s : State) (h : Hart) : (s.setHart h).nextGroup = s.nextGroup := rfl
@[simp] theorem State.setHart_tokens (s : State) (h : Hart) : (s.setHart h).tokens = s.tokens := rfl
@[simp] theorem State.setHart_ops (s : State) (h : Hart) : (s.setHart h).ops = s.ops := rfl
@[simp] theorem State.setHart_nextOp (s : State) (h : Hart) : (s.setHart h).nextOp = s.nextOp := rfl
@[simp] theorem State.setHart_stoppedOps (s : State) (h : Hart) : (s.setHart h).stoppedOps = s.stoppedOps := rfl
@[simp] theorem State.setHart_gens (s : State) (h : Hart) : (s.setHart h).gens = s.gens := rfl
@[simp] theorem State.setHart_sched (s : State) (h : Hart) : (s.setHart h).sched = s.sched := rfl
@[simp] theorem State.setHart_bedrock (s : State) (h : Hart) : (s.setHart h).bedrock = s.bedrock := rfl
@[simp] theorem State.setHart_ingress (s : State) (h : Hart) : (s.setHart h).ingress = s.ingress := rfl
@[simp] theorem State.setHart_dirty (s : State) (h : Hart) : (s.setHart h).dirty = s.dirty := rfl
@[simp] theorem State.setHart_durable (s : State) (h : Hart) : (s.setHart h).durable = s.durable := rfl
@[simp] theorem State.setHart_poisonAtoms (s : State) (h : Hart) : (s.setHart h).poisonAtoms = s.poisonAtoms := rfl
@[simp] theorem State.setHart_durablePoison (s : State) (h : Hart) : (s.setHart h).durablePoison = s.durablePoison := rfl
@[simp] theorem State.setHart_recovery (s : State) (h : Hart) : (s.setHart h).recovery = s.recovery := rfl
@[simp] theorem State.setHart_measured (s : State) (h : Hart) : (s.setHart h).measured = s.measured := rfl
@[simp] theorem State.setHart_down (s : State) (h : Hart) : (s.setHart h).down = s.down := rfl
@[simp] theorem State.setHart_frq (s : State) (h : Hart) : (s.setHart h).frq = s.frq := rfl
@[simp] theorem State.setHart_lanes (s : State) (h : Hart) : (s.setHart h).lanes = s.lanes := rfl
@[simp] theorem State.setHart_links (s : State) (h : Hart) : (s.setHart h).links = s.links := rfl
@[simp] theorem State.setHart_ports (s : State) (h : Hart) : (s.setHart h).ports = s.ports := rfl
@[simp] theorem State.setHart_pairs (s : State) (h : Hart) : (s.setHart h).pairs = s.pairs := rfl
@[simp] theorem State.setHart_hostPorts (s : State) (h : Hart) : (s.setHart h).hostPorts = s.hostPorts := rfl
@[simp] theorem State.setHart_xchgs (s : State) (h : Hart) : (s.setHart h).xchgs = s.xchgs := rfl
@[simp] theorem State.setHart_colls (s : State) (h : Hart) : (s.setHart h).colls = s.colls := rfl
@[simp] theorem State.setHart_cycles (s : State) (h : Hart) : (s.setHart h).cycles = s.cycles := rfl
@[simp] theorem State.setHart_nextReq (s : State) (h : Hart) : (s.setHart h).nextReq = s.nextReq := rfl

/-! ## State.yield -/

@[simp] theorem State.yield_hart (s : State) : (s.yield).hart = s.hart := rfl
@[simp] theorem State.yield_onFeeder (s : State) : (s.yield).onFeeder = s.onFeeder := rfl
@[simp] theorem State.yield_occupied (s : State) : (s.yield).occupied = s.occupied := rfl
@[simp] theorem State.yield_atHead (s : State) : (s.yield).atHead = s.atHead := rfl
@[simp] theorem State.yield_others (s : State) : (s.yield).others = s.others := rfl
@[simp] theorem State.yield_inputs (s : State) : (s.yield).inputs = s.inputs := rfl
@[simp] theorem State.yield_quantum (s : State) : (s.yield).quantum = 0 := rfl
@[simp] theorem State.yield_pause (s : State) : (s.yield).pause = s.pause := rfl
@[simp] theorem State.yield_hold (s : State) : (s.yield).hold = s.hold := rfl
@[simp] theorem State.yield_freeCtr (s : State) : (s.yield).freeCtr = s.freeCtr := rfl
@[simp] theorem State.yield_outbox (s : State) : (s.yield).outbox = s.outbox := rfl
@[simp] theorem State.yield_mem (s : State) : (s.yield).mem = s.mem := rfl
@[simp] theorem State.yield_memPoison (s : State) : (s.yield).memPoison = s.memPoison := rfl
@[simp] theorem State.yield_tlb (s : State) : (s.yield).tlb = s.tlb := rfl
@[simp] theorem State.yield_invs (s : State) : (s.yield).invs = s.invs := rfl
@[simp] theorem State.yield_hub (s : State) : (s.yield).hub = s.hub := rfl
@[simp] theorem State.yield_queues (s : State) : (s.yield).queues = s.queues := rfl
@[simp] theorem State.yield_dispatchers (s : State) : (s.yield).dispatchers = s.dispatchers := rfl
@[simp] theorem State.yield_groups (s : State) : (s.yield).groups = s.groups := rfl
@[simp] theorem State.yield_nextGroup (s : State) : (s.yield).nextGroup = s.nextGroup := rfl
@[simp] theorem State.yield_tokens (s : State) : (s.yield).tokens = s.tokens := rfl
@[simp] theorem State.yield_ops (s : State) : (s.yield).ops = s.ops := rfl
@[simp] theorem State.yield_nextOp (s : State) : (s.yield).nextOp = s.nextOp := rfl
@[simp] theorem State.yield_stoppedOps (s : State) : (s.yield).stoppedOps = s.stoppedOps := rfl
@[simp] theorem State.yield_gens (s : State) : (s.yield).gens = s.gens := rfl
@[simp] theorem State.yield_sched (s : State) : (s.yield).sched = s.sched := rfl
@[simp] theorem State.yield_bedrock (s : State) : (s.yield).bedrock = s.bedrock := rfl
@[simp] theorem State.yield_ingress (s : State) : (s.yield).ingress = s.ingress := rfl
@[simp] theorem State.yield_dirty (s : State) : (s.yield).dirty = s.dirty := rfl
@[simp] theorem State.yield_durable (s : State) : (s.yield).durable = s.durable := rfl
@[simp] theorem State.yield_poisonAtoms (s : State) : (s.yield).poisonAtoms = s.poisonAtoms := rfl
@[simp] theorem State.yield_durablePoison (s : State) : (s.yield).durablePoison = s.durablePoison := rfl
@[simp] theorem State.yield_recovery (s : State) : (s.yield).recovery = s.recovery := rfl
@[simp] theorem State.yield_measured (s : State) : (s.yield).measured = s.measured := rfl
@[simp] theorem State.yield_down (s : State) : (s.yield).down = s.down := rfl
@[simp] theorem State.yield_frq (s : State) : (s.yield).frq = s.frq := rfl
@[simp] theorem State.yield_lanes (s : State) : (s.yield).lanes = s.lanes := rfl
@[simp] theorem State.yield_links (s : State) : (s.yield).links = s.links := rfl
@[simp] theorem State.yield_ports (s : State) : (s.yield).ports = s.ports := rfl
@[simp] theorem State.yield_pairs (s : State) : (s.yield).pairs = s.pairs := rfl
@[simp] theorem State.yield_hostPorts (s : State) : (s.yield).hostPorts = s.hostPorts := rfl
@[simp] theorem State.yield_xchgs (s : State) : (s.yield).xchgs = s.xchgs := rfl
@[simp] theorem State.yield_colls (s : State) : (s.yield).colls = s.colls := rfl
@[simp] theorem State.yield_cycles (s : State) : (s.yield).cycles = s.cycles := rfl
@[simp] theorem State.yield_nextReq (s : State) : (s.yield).nextReq = s.nextReq := rfl

/-! ## State.send -/

@[simp] theorem State.send_hart (s : State) (m : Msg) : (s.send m).hart = s.hart := rfl
@[simp] theorem State.send_onFeeder (s : State) (m : Msg) : (s.send m).onFeeder = s.onFeeder := rfl
@[simp] theorem State.send_occupied (s : State) (m : Msg) : (s.send m).occupied = s.occupied := rfl
@[simp] theorem State.send_atHead (s : State) (m : Msg) : (s.send m).atHead = s.atHead := rfl
@[simp] theorem State.send_others (s : State) (m : Msg) : (s.send m).others = s.others := rfl
@[simp] theorem State.send_inputs (s : State) (m : Msg) : (s.send m).inputs = s.inputs := rfl
@[simp] theorem State.send_quantum (s : State) (m : Msg) : (s.send m).quantum = s.quantum := rfl
@[simp] theorem State.send_pause (s : State) (m : Msg) : (s.send m).pause = s.pause := rfl
@[simp] theorem State.send_hold (s : State) (m : Msg) : (s.send m).hold = s.hold := rfl
@[simp] theorem State.send_freeCtr (s : State) (m : Msg) : (s.send m).freeCtr = s.freeCtr := rfl
@[simp] theorem State.send_outbox (s : State) (m : Msg) : (s.send m).outbox = m :: s.outbox := rfl
@[simp] theorem State.send_mem (s : State) (m : Msg) : (s.send m).mem = s.mem := rfl
@[simp] theorem State.send_memPoison (s : State) (m : Msg) : (s.send m).memPoison = s.memPoison := rfl
@[simp] theorem State.send_tlb (s : State) (m : Msg) : (s.send m).tlb = s.tlb := rfl
@[simp] theorem State.send_invs (s : State) (m : Msg) : (s.send m).invs = s.invs := rfl
@[simp] theorem State.send_hub (s : State) (m : Msg) : (s.send m).hub = s.hub := rfl
@[simp] theorem State.send_queues (s : State) (m : Msg) : (s.send m).queues = s.queues := rfl
@[simp] theorem State.send_dispatchers (s : State) (m : Msg) : (s.send m).dispatchers = s.dispatchers := rfl
@[simp] theorem State.send_groups (s : State) (m : Msg) : (s.send m).groups = s.groups := rfl
@[simp] theorem State.send_nextGroup (s : State) (m : Msg) : (s.send m).nextGroup = s.nextGroup := rfl
@[simp] theorem State.send_tokens (s : State) (m : Msg) : (s.send m).tokens = s.tokens := rfl
@[simp] theorem State.send_ops (s : State) (m : Msg) : (s.send m).ops = s.ops := rfl
@[simp] theorem State.send_nextOp (s : State) (m : Msg) : (s.send m).nextOp = s.nextOp := rfl
@[simp] theorem State.send_stoppedOps (s : State) (m : Msg) : (s.send m).stoppedOps = s.stoppedOps := rfl
@[simp] theorem State.send_gens (s : State) (m : Msg) : (s.send m).gens = s.gens := rfl
@[simp] theorem State.send_sched (s : State) (m : Msg) : (s.send m).sched = s.sched := rfl
@[simp] theorem State.send_bedrock (s : State) (m : Msg) : (s.send m).bedrock = s.bedrock := rfl
@[simp] theorem State.send_ingress (s : State) (m : Msg) : (s.send m).ingress = s.ingress := rfl
@[simp] theorem State.send_dirty (s : State) (m : Msg) : (s.send m).dirty = s.dirty := rfl
@[simp] theorem State.send_durable (s : State) (m : Msg) : (s.send m).durable = s.durable := rfl
@[simp] theorem State.send_poisonAtoms (s : State) (m : Msg) : (s.send m).poisonAtoms = s.poisonAtoms := rfl
@[simp] theorem State.send_durablePoison (s : State) (m : Msg) : (s.send m).durablePoison = s.durablePoison := rfl
@[simp] theorem State.send_recovery (s : State) (m : Msg) : (s.send m).recovery = s.recovery := rfl
@[simp] theorem State.send_measured (s : State) (m : Msg) : (s.send m).measured = s.measured := rfl
@[simp] theorem State.send_down (s : State) (m : Msg) : (s.send m).down = s.down := rfl
@[simp] theorem State.send_frq (s : State) (m : Msg) : (s.send m).frq = s.frq := rfl
@[simp] theorem State.send_lanes (s : State) (m : Msg) : (s.send m).lanes = s.lanes := rfl
@[simp] theorem State.send_links (s : State) (m : Msg) : (s.send m).links = s.links := rfl
@[simp] theorem State.send_ports (s : State) (m : Msg) : (s.send m).ports = s.ports := rfl
@[simp] theorem State.send_pairs (s : State) (m : Msg) : (s.send m).pairs = s.pairs := rfl
@[simp] theorem State.send_hostPorts (s : State) (m : Msg) : (s.send m).hostPorts = s.hostPorts := rfl
@[simp] theorem State.send_xchgs (s : State) (m : Msg) : (s.send m).xchgs = s.xchgs := rfl
@[simp] theorem State.send_colls (s : State) (m : Msg) : (s.send m).colls = s.colls := rfl
@[simp] theorem State.send_cycles (s : State) (m : Msg) : (s.send m).cycles = s.cycles := rfl
@[simp] theorem State.send_nextReq (s : State) (m : Msg) : (s.send m).nextReq = s.nextReq := rfl

/-! ## State.setHub -/

@[simp] theorem State.setHub_hart (s : State) (h : Hub) : (s.setHub h).hart = s.hart := rfl
@[simp] theorem State.setHub_onFeeder (s : State) (h : Hub) : (s.setHub h).onFeeder = s.onFeeder := rfl
@[simp] theorem State.setHub_occupied (s : State) (h : Hub) : (s.setHub h).occupied = s.occupied := rfl
@[simp] theorem State.setHub_atHead (s : State) (h : Hub) : (s.setHub h).atHead = s.atHead := rfl
@[simp] theorem State.setHub_others (s : State) (h : Hub) : (s.setHub h).others = s.others := rfl
@[simp] theorem State.setHub_inputs (s : State) (h : Hub) : (s.setHub h).inputs = s.inputs := rfl
@[simp] theorem State.setHub_quantum (s : State) (h : Hub) : (s.setHub h).quantum = s.quantum := rfl
@[simp] theorem State.setHub_pause (s : State) (h : Hub) : (s.setHub h).pause = s.pause := rfl
@[simp] theorem State.setHub_hold (s : State) (h : Hub) : (s.setHub h).hold = s.hold := rfl
@[simp] theorem State.setHub_freeCtr (s : State) (h : Hub) : (s.setHub h).freeCtr = s.freeCtr := rfl
@[simp] theorem State.setHub_outbox (s : State) (h : Hub) : (s.setHub h).outbox = s.outbox := rfl
@[simp] theorem State.setHub_mem (s : State) (h : Hub) : (s.setHub h).mem = s.mem := rfl
@[simp] theorem State.setHub_memPoison (s : State) (h : Hub) : (s.setHub h).memPoison = s.memPoison := rfl
@[simp] theorem State.setHub_tlb (s : State) (h : Hub) : (s.setHub h).tlb = s.tlb := rfl
@[simp] theorem State.setHub_invs (s : State) (h : Hub) : (s.setHub h).invs = s.invs := rfl
@[simp] theorem State.setHub_hub (s : State) (h : Hub) : (s.setHub h).hub = h := rfl
@[simp] theorem State.setHub_queues (s : State) (h : Hub) : (s.setHub h).queues = s.queues := rfl
@[simp] theorem State.setHub_dispatchers (s : State) (h : Hub) : (s.setHub h).dispatchers = s.dispatchers := rfl
@[simp] theorem State.setHub_groups (s : State) (h : Hub) : (s.setHub h).groups = s.groups := rfl
@[simp] theorem State.setHub_nextGroup (s : State) (h : Hub) : (s.setHub h).nextGroup = s.nextGroup := rfl
@[simp] theorem State.setHub_tokens (s : State) (h : Hub) : (s.setHub h).tokens = s.tokens := rfl
@[simp] theorem State.setHub_ops (s : State) (h : Hub) : (s.setHub h).ops = s.ops := rfl
@[simp] theorem State.setHub_nextOp (s : State) (h : Hub) : (s.setHub h).nextOp = s.nextOp := rfl
@[simp] theorem State.setHub_stoppedOps (s : State) (h : Hub) : (s.setHub h).stoppedOps = s.stoppedOps := rfl
@[simp] theorem State.setHub_gens (s : State) (h : Hub) : (s.setHub h).gens = s.gens := rfl
@[simp] theorem State.setHub_sched (s : State) (h : Hub) : (s.setHub h).sched = s.sched := rfl
@[simp] theorem State.setHub_bedrock (s : State) (h : Hub) : (s.setHub h).bedrock = s.bedrock := rfl
@[simp] theorem State.setHub_ingress (s : State) (h : Hub) : (s.setHub h).ingress = s.ingress := rfl
@[simp] theorem State.setHub_dirty (s : State) (h : Hub) : (s.setHub h).dirty = s.dirty := rfl
@[simp] theorem State.setHub_durable (s : State) (h : Hub) : (s.setHub h).durable = s.durable := rfl
@[simp] theorem State.setHub_poisonAtoms (s : State) (h : Hub) : (s.setHub h).poisonAtoms = s.poisonAtoms := rfl
@[simp] theorem State.setHub_durablePoison (s : State) (h : Hub) : (s.setHub h).durablePoison = s.durablePoison := rfl
@[simp] theorem State.setHub_recovery (s : State) (h : Hub) : (s.setHub h).recovery = s.recovery := rfl
@[simp] theorem State.setHub_measured (s : State) (h : Hub) : (s.setHub h).measured = s.measured := rfl
@[simp] theorem State.setHub_down (s : State) (h : Hub) : (s.setHub h).down = s.down := rfl
@[simp] theorem State.setHub_frq (s : State) (h : Hub) : (s.setHub h).frq = s.frq := rfl
@[simp] theorem State.setHub_lanes (s : State) (h : Hub) : (s.setHub h).lanes = s.lanes := rfl
@[simp] theorem State.setHub_links (s : State) (h : Hub) : (s.setHub h).links = s.links := rfl
@[simp] theorem State.setHub_ports (s : State) (h : Hub) : (s.setHub h).ports = s.ports := rfl
@[simp] theorem State.setHub_pairs (s : State) (h : Hub) : (s.setHub h).pairs = s.pairs := rfl
@[simp] theorem State.setHub_hostPorts (s : State) (h : Hub) : (s.setHub h).hostPorts = s.hostPorts := rfl
@[simp] theorem State.setHub_xchgs (s : State) (h : Hub) : (s.setHub h).xchgs = s.xchgs := rfl
@[simp] theorem State.setHub_colls (s : State) (h : Hub) : (s.setHub h).colls = s.colls := rfl
@[simp] theorem State.setHub_cycles (s : State) (h : Hub) : (s.setHub h).cycles = s.cycles := rfl
@[simp] theorem State.setHub_nextReq (s : State) (h : Hub) : (s.setHub h).nextReq = s.nextReq := rfl

/-! ## State.setSt -/

@[simp] theorem State.setSt_onFeeder (s : State) (t : Stream) : (s.setSt t).onFeeder = s.onFeeder := by
  unfold State.setSt; split <;> rfl
@[simp] theorem State.setSt_occupied (s : State) (t : Stream) : (s.setSt t).occupied = s.occupied := by
  unfold State.setSt; split <;> rfl
@[simp] theorem State.setSt_atHead (s : State) (t : Stream) : (s.setSt t).atHead = s.atHead := by
  unfold State.setSt; split <;> rfl
@[simp] theorem State.setSt_others (s : State) (t : Stream) : (s.setSt t).others = s.others := by
  unfold State.setSt; split <;> rfl
@[simp] theorem State.setSt_inputs (s : State) (t : Stream) : (s.setSt t).inputs = s.inputs := by
  unfold State.setSt; split <;> rfl
@[simp] theorem State.setSt_quantum (s : State) (t : Stream) : (s.setSt t).quantum = s.quantum := by
  unfold State.setSt; split <;> rfl
@[simp] theorem State.setSt_pause (s : State) (t : Stream) : (s.setSt t).pause = s.pause := by
  unfold State.setSt; split <;> rfl
@[simp] theorem State.setSt_hold (s : State) (t : Stream) : (s.setSt t).hold = s.hold := by
  unfold State.setSt; split <;> rfl
@[simp] theorem State.setSt_freeCtr (s : State) (t : Stream) : (s.setSt t).freeCtr = s.freeCtr := by
  unfold State.setSt; split <;> rfl
@[simp] theorem State.setSt_outbox (s : State) (t : Stream) : (s.setSt t).outbox = s.outbox := by
  unfold State.setSt; split <;> rfl
@[simp] theorem State.setSt_mem (s : State) (t : Stream) : (s.setSt t).mem = s.mem := by
  unfold State.setSt; split <;> rfl
@[simp] theorem State.setSt_memPoison (s : State) (t : Stream) : (s.setSt t).memPoison = s.memPoison := by
  unfold State.setSt; split <;> rfl
@[simp] theorem State.setSt_tlb (s : State) (t : Stream) : (s.setSt t).tlb = s.tlb := by
  unfold State.setSt; split <;> rfl
@[simp] theorem State.setSt_invs (s : State) (t : Stream) : (s.setSt t).invs = s.invs := by
  unfold State.setSt; split <;> rfl
@[simp] theorem State.setSt_hub (s : State) (t : Stream) : (s.setSt t).hub = s.hub := by
  unfold State.setSt; split <;> rfl
@[simp] theorem State.setSt_queues (s : State) (t : Stream) : (s.setSt t).queues = s.queues := by
  unfold State.setSt; split <;> rfl
@[simp] theorem State.setSt_dispatchers (s : State) (t : Stream) : (s.setSt t).dispatchers = s.dispatchers := by
  unfold State.setSt; split <;> rfl
@[simp] theorem State.setSt_groups (s : State) (t : Stream) : (s.setSt t).groups = s.groups := by
  unfold State.setSt; split <;> rfl
@[simp] theorem State.setSt_nextGroup (s : State) (t : Stream) : (s.setSt t).nextGroup = s.nextGroup := by
  unfold State.setSt; split <;> rfl
@[simp] theorem State.setSt_tokens (s : State) (t : Stream) : (s.setSt t).tokens = s.tokens := by
  unfold State.setSt; split <;> rfl
@[simp] theorem State.setSt_ops (s : State) (t : Stream) : (s.setSt t).ops = s.ops := by
  unfold State.setSt; split <;> rfl
@[simp] theorem State.setSt_nextOp (s : State) (t : Stream) : (s.setSt t).nextOp = s.nextOp := by
  unfold State.setSt; split <;> rfl
@[simp] theorem State.setSt_stoppedOps (s : State) (t : Stream) : (s.setSt t).stoppedOps = s.stoppedOps := by
  unfold State.setSt; split <;> rfl
@[simp] theorem State.setSt_gens (s : State) (t : Stream) : (s.setSt t).gens = s.gens := by
  unfold State.setSt; split <;> rfl
@[simp] theorem State.setSt_sched (s : State) (t : Stream) : (s.setSt t).sched = s.sched := by
  unfold State.setSt; split <;> rfl
@[simp] theorem State.setSt_bedrock (s : State) (t : Stream) : (s.setSt t).bedrock = s.bedrock := by
  unfold State.setSt; split <;> rfl
@[simp] theorem State.setSt_ingress (s : State) (t : Stream) : (s.setSt t).ingress = s.ingress := by
  unfold State.setSt; split <;> rfl
@[simp] theorem State.setSt_dirty (s : State) (t : Stream) : (s.setSt t).dirty = s.dirty := by
  unfold State.setSt; split <;> rfl
@[simp] theorem State.setSt_durable (s : State) (t : Stream) : (s.setSt t).durable = s.durable := by
  unfold State.setSt; split <;> rfl
@[simp] theorem State.setSt_poisonAtoms (s : State) (t : Stream) : (s.setSt t).poisonAtoms = s.poisonAtoms := by
  unfold State.setSt; split <;> rfl
@[simp] theorem State.setSt_durablePoison (s : State) (t : Stream) : (s.setSt t).durablePoison = s.durablePoison := by
  unfold State.setSt; split <;> rfl
@[simp] theorem State.setSt_recovery (s : State) (t : Stream) : (s.setSt t).recovery = s.recovery := by
  unfold State.setSt; split <;> rfl
@[simp] theorem State.setSt_measured (s : State) (t : Stream) : (s.setSt t).measured = s.measured := by
  unfold State.setSt; split <;> rfl
@[simp] theorem State.setSt_down (s : State) (t : Stream) : (s.setSt t).down = s.down := by
  unfold State.setSt; split <;> rfl
@[simp] theorem State.setSt_frq (s : State) (t : Stream) : (s.setSt t).frq = s.frq := by
  unfold State.setSt; split <;> rfl
@[simp] theorem State.setSt_lanes (s : State) (t : Stream) : (s.setSt t).lanes = s.lanes := by
  unfold State.setSt; split <;> rfl
@[simp] theorem State.setSt_links (s : State) (t : Stream) : (s.setSt t).links = s.links := by
  unfold State.setSt; split <;> rfl
@[simp] theorem State.setSt_ports (s : State) (t : Stream) : (s.setSt t).ports = s.ports := by
  unfold State.setSt; split <;> rfl
@[simp] theorem State.setSt_pairs (s : State) (t : Stream) : (s.setSt t).pairs = s.pairs := by
  unfold State.setSt; split <;> rfl
@[simp] theorem State.setSt_hostPorts (s : State) (t : Stream) : (s.setSt t).hostPorts = s.hostPorts := by
  unfold State.setSt; split <;> rfl
@[simp] theorem State.setSt_xchgs (s : State) (t : Stream) : (s.setSt t).xchgs = s.xchgs := by
  unfold State.setSt; split <;> rfl
@[simp] theorem State.setSt_colls (s : State) (t : Stream) : (s.setSt t).colls = s.colls := by
  unfold State.setSt; split <;> rfl
@[simp] theorem State.setSt_cycles (s : State) (t : Stream) : (s.setSt t).cycles = s.cycles := by
  unfold State.setSt; split <;> rfl
@[simp] theorem State.setSt_nextReq (s : State) (t : Stream) : (s.setSt t).nextReq = s.nextReq := by
  unfold State.setSt; split <;> rfl
@[simp] theorem State.setSt_hart_kind (s : State) (t : Stream) : (s.setSt t).hart.kind = s.hart.kind := by
  unfold State.setSt; split <;> rfl
@[simp] theorem State.setSt_hart_tag (s : State) (t : Stream) : (s.setSt t).hart.tag = s.hart.tag := by
  unfold State.setSt; split <;> rfl
@[simp] theorem State.setSt_hart_hartid (s : State) (t : Stream) : (s.setSt t).hart.hartid = s.hart.hartid := by
  unfold State.setSt; split <;> rfl
@[simp] theorem State.setSt_hart_startid (s : State) (t : Stream) : (s.setSt t).hart.startid = s.hart.startid := by
  unfold State.setSt; split <;> rfl
@[simp] theorem State.setSt_hart_run (s : State) (t : Stream) : (s.setSt t).hart.run = s.hart.run := by
  unfold State.setSt; split <;> rfl
@[simp] theorem State.setSt_hart_reason (s : State) (t : Stream) : (s.setSt t).hart.reason = s.hart.reason := by
  unfold State.setSt; split <;> rfl
@[simp] theorem State.setSt_hart_events (s : State) (t : Stream) : (s.setSt t).hart.events = s.hart.events := by
  unfold State.setSt; split <;> rfl
@[simp] theorem State.setSt_hart_sv (s : State) (t : Stream) : (s.setSt t).hart.sv = s.hart.sv := by
  unfold State.setSt; split <;> rfl
@[simp] theorem State.setSt_hart_hasFeeder (s : State) (t : Stream) : (s.setSt t).hart.hasFeeder = s.hart.hasFeeder := by
  unfold State.setSt; split <;> rfl
@[simp] theorem State.setSt_hart_feederLive (s : State) (t : Stream) : (s.setSt t).hart.feederLive = s.hart.feederLive := by
  unfold State.setSt; split <;> rfl
@[simp] theorem State.setSt_hart_v (s : State) (t : Stream) : (s.setSt t).hart.v = s.hart.v := by
  unfold State.setSt; split <;> rfl
@[simp] theorem State.setSt_hart_m (s : State) (t : Stream) : (s.setSt t).hart.m = s.hart.m := by
  unfold State.setSt; split <;> rfl
@[simp] theorem State.setSt_hart_fm0 (s : State) (t : Stream) : (s.setSt t).hart.fm0 = s.hart.fm0 := by
  unfold State.setSt; split <;> rfl
@[simp] theorem State.setSt_hart_pivcnt (s : State) (t : Stream) : (s.setSt t).hart.pivcnt = s.hart.pivcnt := by
  unfold State.setSt; split <;> rfl
@[simp] theorem State.setSt_hart_share (s : State) (t : Stream) : (s.setSt t).hart.share = s.hart.share := by
  unfold State.setSt; split <;> rfl
@[simp] theorem State.setSt_hart_lv (s : State) (t : Stream) : (s.setSt t).hart.lv = s.hart.lv := by
  unfold State.setSt; split <;> rfl
@[simp] theorem State.setSt_hart_vlcap (s : State) (t : Stream) : (s.setSt t).hart.vlcap = s.hart.vlcap := by
  unfold State.setSt; split <;> rfl
@[simp] theorem State.setSt_hart_mfmt (s : State) (t : Stream) : (s.setSt t).hart.mfmt = s.hart.mfmt := by
  unfold State.setSt; split <;> rfl
@[simp] theorem State.setSt_hart_mcount (s : State) (t : Stream) : (s.setSt t).hart.mcount = s.hart.mcount := by
  unfold State.setSt; split <;> rfl
@[simp] theorem State.setSt_hart_mb (s : State) (t : Stream) : (s.setSt t).hart.mb = s.hart.mb := by
  unfold State.setSt; split <;> rfl
@[simp] theorem State.setSt_hart_mscale (s : State) (t : Stream) : (s.setSt t).hart.mscale = s.hart.mscale := by
  unfold State.setSt; split <;> rfl
@[simp] theorem State.setSt_hart_macc (s : State) (t : Stream) : (s.setSt t).hart.macc = s.hart.macc := by
  unfold State.setSt; split <;> rfl
@[simp] theorem State.setSt_hart_mcs (s : State) (t : Stream) : (s.setSt t).hart.mcs = s.hart.mcs := by
  unfold State.setSt; split <;> rfl
@[simp] theorem State.setSt_hart_mmiss (s : State) (t : Stream) : (s.setSt t).hart.mmiss = s.hart.mmiss := by
  unfold State.setSt; split <;> rfl
@[simp] theorem State.setSt_hart_mmissMac (s : State) (t : Stream) : (s.setSt t).hart.mmissMac = s.hart.mmissMac := by
  unfold State.setSt; split <;> rfl
@[simp] theorem State.setSt_hart_matBad (s : State) (t : Stream) : (s.setSt t).hart.matBad = s.hart.matBad := by
  unfold State.setSt; split <;> rfl
@[simp] theorem State.setSt_hart_spawned (s : State) (t : Stream) : (s.setSt t).hart.spawned = s.hart.spawned := by
  unfold State.setSt; split <;> rfl
@[simp] theorem State.setSt_hart_childDone (s : State) (t : Stream) : (s.setSt t).hart.childDone = s.hart.childDone := by
  unfold State.setSt; split <;> rfl
@[simp] theorem State.setSt_hart_q (s : State) (t : Stream) : (s.setSt t).hart.q = s.hart.q := by
  unfold State.setSt; split <;> rfl
@[simp] theorem State.setSt_hart_tq (s : State) (t : Stream) : (s.setSt t).hart.tq = s.hart.tq := by
  unfold State.setSt; split <;> rfl
@[simp] theorem State.setSt_hart_arrive (s : State) (t : Stream) : (s.setSt t).hart.arrive = s.hart.arrive := by
  unfold State.setSt; split <;> rfl
@[simp] theorem State.setSt_hart_barpend (s : State) (t : Stream) : (s.setSt t).hart.barpend = s.hart.barpend := by
  unfold State.setSt; split <;> rfl
@[simp] theorem State.setSt_hart_inWaitch (s : State) (t : Stream) : (s.setSt t).hart.inWaitch = s.hart.inWaitch := by
  unfold State.setSt; split <;> rfl
@[simp] theorem State.setSt_hart_inWaitchFeed (s : State) (t : Stream) : (s.setSt t).hart.inWaitchFeed = s.hart.inWaitchFeed := by
  unfold State.setSt; split <;> rfl
@[simp] theorem State.setSt_hart_vq (s : State) (t : Stream) : (s.setSt t).hart.vq = s.hart.vq := by
  unfold State.setSt; split <;> rfl
@[simp] theorem State.setSt_hart_cc (s : State) (t : Stream) : (s.setSt t).hart.cc = s.hart.cc := by
  unfold State.setSt; split <;> rfl
@[simp] theorem State.setSt_hart_arg (s : State) (t : Stream) : (s.setSt t).hart.arg = s.hart.arg := by
  unfold State.setSt; split <;> rfl
@[simp] theorem State.setSt_hart_doneAddr (s : State) (t : Stream) : (s.setSt t).hart.doneAddr = s.hart.doneAddr := by
  unfold State.setSt; split <;> rfl
@[simp] theorem State.setSt_hart_recWin (s : State) (t : Stream) : (s.setSt t).hart.recWin = s.hart.recWin := by
  unfold State.setSt; split <;> rfl
@[simp] theorem State.setSt_hart_placeq (s : State) (t : Stream) : (s.setSt t).hart.placeq = s.hart.placeq := by
  unfold State.setSt; split <;> rfl
@[simp] theorem State.setSt_hart_placed (s : State) (t : Stream) : (s.setSt t).hart.placed = s.hart.placed := by
  unfold State.setSt; split <;> rfl
@[simp] theorem State.setSt_hart_prio (s : State) (t : Stream) : (s.setSt t).hart.prio = s.hart.prio := by
  unfold State.setSt; split <;> rfl
@[simp] theorem State.setSt_hart_group (s : State) (t : Stream) : (s.setSt t).hart.group = s.hart.group := by
  unfold State.setSt; split <;> rfl
@[simp] theorem State.setSt_hart_member (s : State) (t : Stream) : (s.setSt t).hart.member = s.hart.member := by
  unfold State.setSt; split <;> rfl
@[simp] theorem State.setSt_hart_parent (s : State) (t : Stream) : (s.setSt t).hart.parent = s.hart.parent := by
  unfold State.setSt; split <;> rfl
@[simp] theorem State.setSt_hart_area (s : State) (t : Stream) : (s.setSt t).hart.area = s.hart.area := by
  unfold State.setSt; split <;> rfl
@[simp] theorem State.setSt_hart_cycOff (s : State) (t : Stream) : (s.setSt t).hart.cycOff = s.hart.cycOff := by
  unfold State.setSt; split <;> rfl
@[simp] theorem State.setSt_hart_cycStart (s : State) (t : Stream) : (s.setSt t).hart.cycStart = s.hart.cycStart := by
  unfold State.setSt; split <;> rfl
@[simp] theorem State.setSt_hart_remote (s : State) (t : Stream) : (s.setSt t).hart.remote = s.hart.remote := by
  unfold State.setSt; split <;> rfl
@[simp] theorem State.setSt_hart_remoteData (s : State) (t : Stream) : (s.setSt t).hart.remoteData = s.hart.remoteData := by
  unfold State.setSt; split <;> rfl
@[simp] theorem State.setSt_hart_device (s : State) (t : Stream) : (s.setSt t).hart.device = s.hart.device := by
  unfold State.setSt; split <;> rfl
@[simp] theorem State.setSt_hart_remoteBad (s : State) (t : Stream) : (s.setSt t).hart.remoteBad = s.hart.remoteBad := by
  unfold State.setSt; split <;> rfl
@[simp] theorem State.setSt_hart_aperture (s : State) (t : Stream) : (s.setSt t).hart.aperture = s.hart.aperture := by
  unfold State.setSt; split <;> rfl
@[simp] theorem State.setSt_hart_late (s : State) (t : Stream) : (s.setSt t).hart.late = s.hart.late := by
  unfold State.setSt; split <;> rfl
@[simp] theorem State.setSt_hart_owed (s : State) (t : Stream) : (s.setSt t).hart.owed = s.hart.owed := by
  unfold State.setSt; split <;> rfl
@[simp] theorem State.setSt_hart_lanes (s : State) (t : Stream) : (s.setSt t).hart.lanes = s.hart.lanes := by
  unfold State.setSt; split <;> rfl
@[simp] theorem State.setSt_hart_vcount (s : State) (t : Stream) : (s.setSt t).hart.vcount = s.hart.vcount := by
  unfold State.setSt; split <;> rfl
@[simp] theorem State.setSt_hart_poison (s : State) (t : Stream) : (s.setSt t).hart.poison = s.hart.poison := by
  unfold State.setSt; split <;> rfl
@[simp] theorem State.setSt_hart_staging (s : State) (t : Stream) : (s.setSt t).hart.staging = s.hart.staging := by
  unfold State.setSt; split <;> rfl

@[simp] theorem State.setSt_st (s : State) (t : Stream) : (s.setSt t).st = t := by
  unfold State.setSt State.st
  split <;> simp_all

@[simp] theorem State.setSt_self (s : State) : s.setSt s.st = s := by
  unfold State.setSt State.st
  split <;> rfl

@[simp] theorem State.setSt_setSt (s : State) (t u : Stream) : (s.setSt t).setSt u = s.setSt u := by
  unfold State.setSt
  by_cases h : s.onFeeder = true <;> simp [h]

theorem State.st_of_main (s : State) (h : s.onFeeder = false) : s.st = s.hart.main := by simp [State.st, h]
theorem State.st_of_feed (s : State) (h : s.onFeeder = true) : s.st = s.hart.feed := by simp [State.st, h]

@[simp] theorem State.setHart_st_main (s : State) (h : Hart) (hf : s.onFeeder = false) : (s.setHart h).st = h.main := by
  simp [State.st, hf]

@[simp] theorem State.yield_st (s : State) : s.yield.st = s.st := rfl
@[simp] theorem State.send_st (s : State) (m : Msg) : (s.send m).st = s.st := rfl
@[simp] theorem State.setHub_st (s : State) (h : Hub) : (s.setHub h).st = s.st := rfl

/-! ## Streams -/

@[simp] theorem Stream.advance_g (t : Stream) (word size : Nat) : (t.advance word size).g = t.g := rfl
@[simp] theorem Stream.advance_pc (t : Stream) (word size : Nat) : (t.advance word size).pc = t.pc + BitVec.ofNat 64 size := rfl
@[simp] theorem Stream.advance_ta (t : Stream) (word size : Nat) : (t.advance word size).ta = t.ta := rfl
@[simp] theorem Stream.advance_pfxp (t : Stream) (word size : Nat) : (t.advance word size).pfxp = false := rfl
@[simp] theorem Stream.advance_pfxd (t : Stream) (word size : Nat) : (t.advance word size).pfxd = t.pfxd := rfl
@[simp] theorem Stream.advance_flags (t : Stream) (word size : Nat) : (t.advance word size).flags = t.flags := rfl
@[simp] theorem Stream.advance_rm (t : Stream) (word size : Nat) : (t.advance word size).rm = t.rm := rfl
@[simp] theorem Stream.advance_win (t : Stream) (word size : Nat) : (t.advance word size).win = t.win := rfl
@[simp] theorem Stream.advance_lastG (t : Stream) (word size : Nat) : (t.advance word size).lastG = t.lastG := rfl
@[simp] theorem Stream.advance_lastV (t : Stream) (word size : Nat) : (t.advance word size).lastV = t.lastV := rfl
@[simp] theorem Stream.advance_tvec (t : Stream) (word size : Nat) : (t.advance word size).tvec = t.tvec := rfl
@[simp] theorem Stream.advance_tepc (t : Stream) (word size : Nat) : (t.advance word size).tepc = t.tepc := rfl
@[simp] theorem Stream.advance_tcause (t : Stream) (word size : Nat) : (t.advance word size).tcause = t.tcause := rfl
@[simp] theorem Stream.advance_tval (t : Stream) (word size : Nat) : (t.advance word size).tval = t.tval := rfl
@[simp] theorem Stream.advance_vtype (t : Stream) (word size : Nat) : (t.advance word size).vtype = t.vtype := rfl
@[simp] theorem Stream.advance_vl (t : Stream) (word size : Nat) : (t.advance word size).vl = t.vl := rfl
@[simp] theorem Stream.advance_rc (t : Stream) (word size : Nat) : (t.advance word size).rc = t.rc := rfl
@[simp] theorem Stream.advance_vstart (t : Stream) (word size : Nat) : (t.advance word size).vstart = t.vstart := rfl
@[simp] theorem Stream.advance_grant (t : Stream) (word size : Nat) : (t.advance word size).grant = t.grant := rfl
@[simp] theorem Stream.advance_dfseq (t : Stream) (word size : Nat) : (t.advance word size).dfseq = t.dfseq := rfl
@[simp] theorem Stream.advance_pend (t : Stream) (word size : Nat) : (t.advance word size).pend = t.pend := rfl
@[simp] theorem Stream.advance_sig (t : Stream) (word size : Nat) : (t.advance word size).sig = sigAdd t.sig word size := rfl
@[simp] theorem Stream.advance_stale (t : Stream) (word size : Nat) : (t.advance word size).stale = t.stale := rfl
@[simp] theorem Stream.advance_tlw (t : Stream) (word size : Nat) : (t.advance word size).tlw = t.tlw := rfl
@[simp] theorem Stream.wr_pc (t : Stream) (r : Reg) (v : Word) : (t.wr r v).pc = t.pc := by
  unfold Stream.wr; split <;> rfl
@[simp] theorem Stream.wr_ta (t : Stream) (r : Reg) (v : Word) : (t.wr r v).ta = t.ta := by
  unfold Stream.wr; split <;> rfl
@[simp] theorem Stream.wr_pfxp (t : Stream) (r : Reg) (v : Word) : (t.wr r v).pfxp = t.pfxp := by
  unfold Stream.wr; split <;> rfl
@[simp] theorem Stream.wr_pfxd (t : Stream) (r : Reg) (v : Word) : (t.wr r v).pfxd = t.pfxd := by
  unfold Stream.wr; split <;> rfl
@[simp] theorem Stream.wr_flags (t : Stream) (r : Reg) (v : Word) : (t.wr r v).flags = t.flags := by
  unfold Stream.wr; split <;> rfl
@[simp] theorem Stream.wr_rm (t : Stream) (r : Reg) (v : Word) : (t.wr r v).rm = t.rm := by
  unfold Stream.wr; split <;> rfl
@[simp] theorem Stream.wr_win (t : Stream) (r : Reg) (v : Word) : (t.wr r v).win = t.win := by
  unfold Stream.wr; split <;> rfl
@[simp] theorem Stream.wr_lastG (t : Stream) (r : Reg) (v : Word) : (t.wr r v).lastG = t.lastG := by
  unfold Stream.wr; split <;> rfl
@[simp] theorem Stream.wr_lastV (t : Stream) (r : Reg) (v : Word) : (t.wr r v).lastV = t.lastV := by
  unfold Stream.wr; split <;> rfl
@[simp] theorem Stream.wr_tvec (t : Stream) (r : Reg) (v : Word) : (t.wr r v).tvec = t.tvec := by
  unfold Stream.wr; split <;> rfl
@[simp] theorem Stream.wr_tepc (t : Stream) (r : Reg) (v : Word) : (t.wr r v).tepc = t.tepc := by
  unfold Stream.wr; split <;> rfl
@[simp] theorem Stream.wr_tcause (t : Stream) (r : Reg) (v : Word) : (t.wr r v).tcause = t.tcause := by
  unfold Stream.wr; split <;> rfl
@[simp] theorem Stream.wr_tval (t : Stream) (r : Reg) (v : Word) : (t.wr r v).tval = t.tval := by
  unfold Stream.wr; split <;> rfl
@[simp] theorem Stream.wr_vtype (t : Stream) (r : Reg) (v : Word) : (t.wr r v).vtype = t.vtype := by
  unfold Stream.wr; split <;> rfl
@[simp] theorem Stream.wr_vl (t : Stream) (r : Reg) (v : Word) : (t.wr r v).vl = t.vl := by
  unfold Stream.wr; split <;> rfl
@[simp] theorem Stream.wr_rc (t : Stream) (r : Reg) (v : Word) : (t.wr r v).rc = t.rc := by
  unfold Stream.wr; split <;> rfl
@[simp] theorem Stream.wr_vstart (t : Stream) (r : Reg) (v : Word) : (t.wr r v).vstart = t.vstart := by
  unfold Stream.wr; split <;> rfl
@[simp] theorem Stream.wr_grant (t : Stream) (r : Reg) (v : Word) : (t.wr r v).grant = t.grant := by
  unfold Stream.wr; split <;> rfl
@[simp] theorem Stream.wr_dfseq (t : Stream) (r : Reg) (v : Word) : (t.wr r v).dfseq = t.dfseq := by
  unfold Stream.wr; split <;> rfl
@[simp] theorem Stream.wr_pend (t : Stream) (r : Reg) (v : Word) : (t.wr r v).pend = t.pend := by
  unfold Stream.wr; split <;> rfl
@[simp] theorem Stream.wr_sig (t : Stream) (r : Reg) (v : Word) : (t.wr r v).sig = t.sig := by
  unfold Stream.wr; split <;> rfl
@[simp] theorem Stream.wr_stale (t : Stream) (r : Reg) (v : Word) : (t.wr r v).stale = t.stale := by
  unfold Stream.wr; split <;> rfl
@[simp] theorem Stream.wr_tlw (t : Stream) (r : Reg) (v : Word) : (t.wr r v).tlw = t.tlw := by
  unfold Stream.wr; split <;> rfl
@[simp] theorem Stream.wrCopy_pc (t : Stream) (v : Word) : (t.wrCopy v).pc = t.pc := by
  unfold Stream.wrCopy; split <;> simp
@[simp] theorem Stream.wrCopy_ta (t : Stream) (v : Word) : (t.wrCopy v).ta = t.ta := by
  unfold Stream.wrCopy; split <;> simp
@[simp] theorem Stream.wrCopy_pfxp (t : Stream) (v : Word) : (t.wrCopy v).pfxp = t.pfxp := by
  unfold Stream.wrCopy; split <;> simp
@[simp] theorem Stream.wrCopy_pfxd (t : Stream) (v : Word) : (t.wrCopy v).pfxd = t.pfxd := by
  unfold Stream.wrCopy; split <;> simp
@[simp] theorem Stream.wrCopy_flags (t : Stream) (v : Word) : (t.wrCopy v).flags = t.flags := by
  unfold Stream.wrCopy; split <;> simp
@[simp] theorem Stream.wrCopy_rm (t : Stream) (v : Word) : (t.wrCopy v).rm = t.rm := by
  unfold Stream.wrCopy; split <;> simp
@[simp] theorem Stream.wrCopy_win (t : Stream) (v : Word) : (t.wrCopy v).win = t.win := by
  unfold Stream.wrCopy; split <;> simp
@[simp] theorem Stream.wrCopy_lastG (t : Stream) (v : Word) : (t.wrCopy v).lastG = t.lastG := by
  unfold Stream.wrCopy; split <;> simp
@[simp] theorem Stream.wrCopy_lastV (t : Stream) (v : Word) : (t.wrCopy v).lastV = t.lastV := by
  unfold Stream.wrCopy; split <;> simp
@[simp] theorem Stream.wrCopy_tvec (t : Stream) (v : Word) : (t.wrCopy v).tvec = t.tvec := by
  unfold Stream.wrCopy; split <;> simp
@[simp] theorem Stream.wrCopy_tepc (t : Stream) (v : Word) : (t.wrCopy v).tepc = t.tepc := by
  unfold Stream.wrCopy; split <;> simp
@[simp] theorem Stream.wrCopy_tcause (t : Stream) (v : Word) : (t.wrCopy v).tcause = t.tcause := by
  unfold Stream.wrCopy; split <;> simp
@[simp] theorem Stream.wrCopy_tval (t : Stream) (v : Word) : (t.wrCopy v).tval = t.tval := by
  unfold Stream.wrCopy; split <;> simp
@[simp] theorem Stream.wrCopy_vtype (t : Stream) (v : Word) : (t.wrCopy v).vtype = t.vtype := by
  unfold Stream.wrCopy; split <;> simp
@[simp] theorem Stream.wrCopy_vl (t : Stream) (v : Word) : (t.wrCopy v).vl = t.vl := by
  unfold Stream.wrCopy; split <;> simp
@[simp] theorem Stream.wrCopy_rc (t : Stream) (v : Word) : (t.wrCopy v).rc = t.rc := by
  unfold Stream.wrCopy; split <;> simp
@[simp] theorem Stream.wrCopy_vstart (t : Stream) (v : Word) : (t.wrCopy v).vstart = t.vstart := by
  unfold Stream.wrCopy; split <;> simp
@[simp] theorem Stream.wrCopy_grant (t : Stream) (v : Word) : (t.wrCopy v).grant = t.grant := by
  unfold Stream.wrCopy; split <;> simp
@[simp] theorem Stream.wrCopy_dfseq (t : Stream) (v : Word) : (t.wrCopy v).dfseq = t.dfseq := by
  unfold Stream.wrCopy; split <;> simp
@[simp] theorem Stream.wrCopy_pend (t : Stream) (v : Word) : (t.wrCopy v).pend = t.pend := by
  unfold Stream.wrCopy; split <;> simp
@[simp] theorem Stream.wrCopy_sig (t : Stream) (v : Word) : (t.wrCopy v).sig = t.sig := by
  unfold Stream.wrCopy; split <;> simp
@[simp] theorem Stream.wrCopy_stale (t : Stream) (v : Word) : (t.wrCopy v).stale = t.stale := by
  unfold Stream.wrCopy; split <;> simp
@[simp] theorem Stream.wrCopy_tlw (t : Stream) (v : Word) : (t.wrCopy v).tlw = t.tlw := by
  unfold Stream.wrCopy; split <;> simp

@[simp] theorem Stream.rd_zero (t : Stream) : t.rd 0#5 = 0#64 := rfl

theorem Stream.rd_wr (t : Stream) (d r : Reg) (v : Word) :
    (t.wr d v).rd r = if r = 0 then 0 else if r = d then v else t.rd r := by
  by_cases h0 : r = 0
  · subst h0
    rfl
  · by_cases hd : d = 0
    · rw [if_neg h0, if_neg (fun h => h0 (h.trans hd)), Stream.wr, if_pos hd]
    · rw [if_neg h0, Stream.wr, if_neg hd, Stream.rd, if_neg h0, Stream.rd, if_neg h0]
      by_cases hr : r = d
      · subst hr
        simp
      · have hn : d.toNat ≠ r.toNat := fun h => hr (BitVec.eq_of_toNat_eq h.symm)
        simp [hr, hn]

@[simp] theorem Stream.rd_advance (t : Stream) (word size : Nat) (r : Reg) : (t.advance word size).rd r = t.rd r := rfl

theorem Stream.rd_wrCopy (t : Stream) (v : Word) (r : Reg) :
    (t.wrCopy v).rd r = if r = 0 then 0 else if t.pfxp = true ∧ pfxCen t.pfxd = true ∧ r = pfxReg t.pfxd then v else t.rd r := by
  unfold Stream.wrCopy
  by_cases h : t.pfxp = true ∧ pfxCen t.pfxd = true
  · simp [h, Stream.rd_wr]
  · rw [if_neg h]
    by_cases h0 : r = 0
    · simp [h0]
    · rw [if_neg h0, if_neg fun k => h ⟨k.1, k.2.1⟩]

end Sys2Proof.Machine
end

