-- ==== Sys2Proof/Laws/Exec.lean ====
section
/-! SUPPORT. What the shared frames of execution answer. -/

namespace Sys2Proof.Machine

/-- A scalar form that may execute does what its body does. -/
theorem runScalar_ready (f : Frame) (body : State → Res Unit) (s : State)
    (h : s.ScalarReady f.pfx f.feeder f.control f.regs) : runScalar f body s = State.conclude f.word (body s) := by
  obtain ⟨h1, h2, h3, h4, h5⟩ := h
  unfold runScalar
  have e1 : ¬(s.onFeeder = true ∧ f.feeder = false) := fun k => by simp [h1 k.1] at k
  have e2 : ¬(s.st.pfxp = true ∧ (f.pfx = .never ∨ (f.pfx = .pred ∧ pfxCen s.st.pfxd = true))) := by
    intro k
    have := h2 k.1
    rcases k.2 with k | k
    · exact this.1 k
    · simp [this.2 k.1] at k
  have e3 : ¬(s.hart.isControl = true ∧ f.control = false) := fun k => by simp [h3 k.1] at k
  rw [if_neg e1, if_neg e2, if_neg e3, if_neg (by simp [h4]), if_neg (by simp [h5])]

/-- Completing with a g destination. -/
theorem State.finishG_wrote (s : State) (word size : Nat) (d : Reg) (v : Word) :
    s.WroteG (s.finishG word size d v) word size d v := by
  refine ⟨?_, ?_, ?_⟩
  · simp [State.StreamOnly, State.finishG]
  · simp only [State.finishG, State.setSt_st]
    simp [Stream.advance]
  · intro r
    simp only [State.finishG, State.setSt_st, Stream.rd_advance]
    have h := Stream.rd_wr (s.st.wrCopy v) d r v
    have h' := Stream.rd_wrCopy s.st v r
    show ((s.st.wrCopy v).wr d v).rd r = _
    rw [h, h']
    by_cases h0 : r = 0
    · rw [if_pos h0, if_pos h0]
    · by_cases hd : r = d
      · rw [if_neg h0, if_pos hd, if_neg h0, if_pos (.inl hd)]
      · rw [if_neg h0, if_neg hd, if_neg h0, if_neg h0]
        simp only [hd, false_or]

/-- Completing without one. -/
theorem State.finish_passed (s : State) (word size : Nat) : s.Passed (s.finish word size) word size := rfl

/-- A transfer whose signature holds. -/
theorem State.jump_wentTo (s : State) (word size : Nat) (target : Word) (h : s.SigMatches word size) :
    s.WentTo (s.jump word size target) target := by
  unfold State.jump State.WentTo
  unfold State.SigMatches at h
  cases hs : sigAdd s.st.sig word size with
  | none => rfl
  | some o => simp [h o hs]

/-! ## The frames of the integer family -/

theorem runAlu_ready (word : Nat) (d : Reg) (rs : List Reg) (f : State → Word) (s : State)
    (h : s.ScalarReady .copy true true (d :: rs)) : runAlu word d rs f s = .next (s.finishG word 4 d (f s)) := by
  unfold runAlu
  rw [runScalar_ready _ _ _ h]
  rfl

theorem runCompact_ready (word : Nat) (d : Reg) (rs : List Reg) (f : State → Word) (s : State)
    (h : s.ScalarReady .copy true true (d :: rs)) : runCompact word d rs f s = .next (s.finishG word 2 d (f s)) := by
  unfold runCompact
  rw [runScalar_ready _ _ _ h]
  rfl

theorem runBranch_ready (word : Nat) (a b : Reg) (o : BitVec 12) (c : Word → Word → Bool) (s : State)
    (h : s.ScalarReady .never true true [a, b]) :
    runBranch word a b o c s
      = .next (if c (s.rd a) (s.rd b) then s.jump word 4 (s.st.pc + simm o * 2) else s.finish word 4) := by
  unfold runBranch
  rw [runScalar_ready _ _ _ h]
  by_cases hc : c (s.rd a) (s.rd b) = true <;> simp [hc, State.conclude]

theorem runCBranch_ready (word : Nat) (hi lo : BitVec 5) (c : Word → Bool) (s : State)
    (h : s.ScalarReady .never true true [s.st.lastG]) :
    runCBranch word hi lo c s
      = .next (if c (s.rd s.st.lastG) then s.jump word 2 (s.st.pc + simm (hi ++ lo) * 2) else s.finish word 2) := by
  unfold runCBranch
  rw [runScalar_ready _ _ _ h]
  by_cases hc : c (s.rd s.st.lastG) = true <;> simp [hc, State.conclude]

end Sys2Proof.Machine
end

