-- ==== Sys2Proof/Laws/Mem.lean ====
section
/-! SUPPORT. Sparse maps and memory: a read after a write, and that every operation keeps the canonical form. -/

namespace Sys2Proof.Machine

/-! ## Reads after writes -/

theorem Sparse.get_del {α : Type} (d : α) (m : Sparse α) (i j : Nat) :
    Sparse.get d (Sparse.del m i) j = if j = i then d else Sparse.get d m j := by
  induction m with
  | nil => simp [Sparse.get, Sparse.del]
  | cons p r ih =>
    obtain ⟨k, v⟩ := p
    by_cases hk : k = i
    · simp only [Sparse.del, if_pos hk, ih, Sparse.get]
      by_cases hj : j = i
      · simp [hj]
      · rw [if_neg hj, if_neg hj, if_neg (by omega)]
    · simp only [Sparse.del, if_neg hk, Sparse.get, ih]
      by_cases hkj : k = j
      · rw [if_pos hkj, if_pos hkj, if_neg (by omega)]
      · rw [if_neg hkj, if_neg hkj]

theorem Sparse.get_ins {α : Type} (d : α) (m : Sparse α) (i j : Nat) (x : α) (h : j ≠ i ∨ Sparse.get d m j = d) :
    (j = i → ∀ p ∈ m, p.1 ≠ i) → Sparse.get d (Sparse.ins m i x) j = if j = i then x else Sparse.get d m j := by
  intro hm
  induction m with
  | nil =>
    by_cases hj : j = i
    · simp [Sparse.ins, Sparse.get, hj]
    · simp [Sparse.ins, Sparse.get, hj, Ne.symm hj]
  | cons p r ih =>
    obtain ⟨k, v⟩ := p
    by_cases hik : i < k
    · simp only [Sparse.ins, if_pos hik]
      by_cases hj : j = i
      · simp [Sparse.get, hj]
      · simp [Sparse.get, hj, Ne.symm hj]
    · simp only [Sparse.ins, if_neg hik, Sparse.get]
      by_cases hkj : k = j
      · have hji : j ≠ i := fun e => hm e (k, v) (by simp) (by omega)
        rw [if_pos hkj, if_pos hkj, if_neg hji]
      · rw [if_neg hkj, if_neg hkj]
        apply ih
        · rcases h with h | h
          · exact .inl h
          · exact .inr (by simpa [Sparse.get, hkj] using h)
        · intro e p hp
          exact hm e p (by simp [hp])

theorem Sparse.del_keys {α : Type} (m : Sparse α) (i : Nat) : ∀ p ∈ Sparse.del m i, p.1 ≠ i := by
  induction m with
  | nil => simp [Sparse.del]
  | cons p r ih =>
    obtain ⟨k, v⟩ := p
    by_cases hk : k = i
    · simpa [Sparse.del, hk] using ih
    · intro q hq
      simp only [Sparse.del, if_neg hk, List.mem_cons] at hq
      rcases hq with hq | hq
      · rw [hq]
        exact hk
      · exact ih q hq

/-- A read after a write of a sparse map. -/
theorem Sparse.get_set {α : Type} [DecidableEq α] (d : α) (m : Sparse α) (i j : Nat) (x : α) :
    Sparse.get d (Sparse.set d m i x) j = if j = i then x else Sparse.get d m j := by
  unfold Sparse.set
  split
  · next h => rw [Sparse.get_del, h]
  · rw [Sparse.get_ins]
    · by_cases hj : j = i
      · simp [hj]
      · simp [hj, Sparse.get_del]
    · by_cases hj : j = i
      · exact .inr (by simp [Sparse.get_del, hj])
      · exact .inl hj
    · intro _
      exact Sparse.del_keys m i

@[simp] theorem Mem.byte_setByte (m : Mem) (a b : Nat) (x : Byte) :
    (m.setByte a x).byte b = if b = a then x else m.byte b := Sparse.get_set 0 m a b x

/-- A byte after a write of a run of bytes. -/
theorem Mem.byte_setBytes (l : List Byte) (m : Mem) (a b : Nat) :
    (m.setBytes a l).byte b = if a ≤ b ∧ b < a + l.length then l.getD (b - a) 0 else m.byte b := by
  induction l generalizing m a with
  | nil =>
    rw [if_neg (by simp only [List.length_nil]; omega)]
    rfl
  | cons x r ih =>
    rw [Mem.setBytes, ih, Mem.byte_setByte]
    by_cases h1 : a + 1 ≤ b ∧ b < a + 1 + r.length
    · have h2 : b - a = (b - (a + 1)) + 1 := by omega
      rw [if_pos h1, if_pos (by simp only [List.length_cons]; omega), h2, List.getD_cons_succ]
    · rw [if_neg h1]
      by_cases h3 : b = a
      · subst h3
        simp
      · rw [if_neg h3, if_neg (by simp only [List.length_cons]; omega)]

/-- A byte outside a write. -/
theorem Mem.byte_setBytes_out (l : List Byte) (m : Mem) (a b : Nat) (h : ¬(a ≤ b ∧ b < a + l.length)) :
    (m.setBytes a l).byte b = m.byte b := by rw [Mem.byte_setBytes, if_neg h]

@[simp] theorem toLe_length (n v : Nat) : (toLe n v).length = n := by
  induction n generalizing v with
  | zero => rfl
  | succ n ih => simp [toLe, ih]

theorem leNat_toLe (n v : Nat) : leNat (toLe n v) = v % 256 ^ n := by
  induction n generalizing v with
  | zero => simp [toLe, leNat, Nat.mod_one]
  | succ n ih =>
    rw [toLe, leNat, ih, BitVec.toNat_ofNat, show (2 : Nat) ^ 8 = 256 from rfl, Nat.pow_succ', Nat.mod_mul]

theorem leNat_lt (l : List Byte) : leNat l < 256 ^ l.length := by
  induction l with
  | nil => simp [leNat]
  | cons b r ih =>
    have hb := b.isLt
    rw [leNat, List.length_cons, Nat.pow_succ']
    omega

theorem Mem.bytes_length (m : Mem) (a n : Nat) : (m.bytes a n).length = n := by
  induction n generalizing a with
  | zero => rfl
  | succ n ih => simp [Mem.bytes, ih]

/-- The bytes of a run depend on the bytes at its addresses alone. -/
theorem Mem.bytes_congr (m m' : Mem) (a n : Nat) (h : ∀ i, i < n → m.byte (a + i) = m'.byte (a + i)) :
    m.bytes a n = m'.bytes a n := by
  induction n generalizing a with
  | zero => rfl
  | succ n ih =>
    have h0 := h 0 (by omega)
    rw [Nat.add_zero] at h0
    rw [Mem.bytes, Mem.bytes, h0, ih (a + 1)]
    intro i hi
    have := h (i + 1) (by omega)
    rwa [← Nat.add_assoc, Nat.add_right_comm] at this

theorem Mem.bytes_setBytes (l : List Byte) (m : Mem) (a : Nat) : (m.setBytes a l).bytes a l.length = l := by
  induction l generalizing m a with
  | nil => rfl
  | cons x r ih =>
    rw [List.length_cons, Mem.bytes, Mem.byte_setBytes, if_pos ⟨Nat.le_refl a, by simp⟩, Mem.setBytes, ih]
    simp

/-- A number read back from where it was written. -/
theorem Mem.readLe_writeLe (m : Mem) (a n v : Nat) : (m.writeLe a n v).readLe a n = v % 256 ^ n := by
  have h := Mem.bytes_setBytes (toLe n v) m a
  rw [toLe_length] at h
  rw [Mem.readLe, Mem.writeLe, h, leNat_toLe]

/-- A number read from a run that a write does not meet. -/
theorem Mem.readLe_setBytes_out (m : Mem) (a b n : Nat) (l : List Byte) (h : b + n ≤ a ∨ a + l.length ≤ b) :
    (m.setBytes a l).readLe b n = m.readLe b n := by
  unfold Mem.readLe
  rw [Mem.bytes_congr]
  intro i hi
  exact Mem.byte_setBytes_out _ _ _ _ (by omega)

/-! ## The canonical form -/

/-- The canonical form from above a bound. -/
theorem Sparse.wfFrom_iff {α : Type} [DecidableEq α] (d : α) (lo : Option Nat) (k : Nat) (v : α) (r : Sparse α) :
    Sparse.wfFrom d lo ((k, v) :: r) = true ↔
      (∀ l, lo = some l → l < k) ∧ v ≠ d ∧ Sparse.wfFrom d (some k) r = true := by
  cases lo <;> simp [Sparse.wfFrom, and_assoc]

theorem Sparse.wfFrom_mono {α : Type} [DecidableEq α] (d : α) (lo lo' : Option Nat) (m : Sparse α)
    (h : ∀ l', lo' = some l' → ∃ l, lo = some l ∧ l' ≤ l) (hw : Sparse.wfFrom d lo m = true) : Sparse.wfFrom d lo' m = true := by
  cases m with
  | nil => rfl
  | cons p r =>
    obtain ⟨k, v⟩ := p
    rw [Sparse.wfFrom_iff] at hw ⊢
    refine ⟨fun l' hl' => ?_, hw.2⟩
    obtain ⟨l, hl, hle⟩ := h l' hl'
    exact Nat.lt_of_le_of_lt hle (hw.1 l hl)

theorem Sparse.wfFrom_del {α : Type} [DecidableEq α] (d : α) (lo : Option Nat) (m : Sparse α) (i : Nat)
    (hw : Sparse.wfFrom d lo m = true) : Sparse.wfFrom d lo (Sparse.del m i) = true := by
  induction m generalizing lo with
  | nil => exact hw
  | cons p r ih =>
    obtain ⟨k, v⟩ := p
    rw [Sparse.wfFrom_iff] at hw
    by_cases hk : k = i
    · rw [Sparse.del, if_pos hk]
      exact ih lo (Sparse.wfFrom_mono d (some k) lo r (fun l' h => ⟨k, rfl, Nat.le_of_lt (hw.1 l' h)⟩) hw.2.2)
    · rw [Sparse.del, if_neg hk, Sparse.wfFrom_iff]
      exact ⟨hw.1, hw.2.1, ih _ hw.2.2⟩

theorem Sparse.wfFrom_ins {α : Type} [DecidableEq α] (d : α) (lo : Option Nat) (m : Sparse α) (i : Nat) (x : α)
    (hx : x ≠ d) (hlo : ∀ l, lo = some l → l < i) (hm : ∀ p ∈ m, p.1 ≠ i) (hw : Sparse.wfFrom d lo m = true) :
    Sparse.wfFrom d lo (Sparse.ins m i x) = true := by
  induction m generalizing lo with
  | nil =>
    rw [Sparse.ins, Sparse.wfFrom_iff]
    exact ⟨hlo, hx, rfl⟩
  | cons p r ih =>
    obtain ⟨k, v⟩ := p
    rw [Sparse.wfFrom_iff] at hw
    by_cases hik : i < k
    · rw [Sparse.ins, if_pos hik, Sparse.wfFrom_iff, Sparse.wfFrom_iff]
      exact ⟨hlo, hx, fun l hl => by cases hl; exact hik, hw.2⟩
    · have hne : k ≠ i := hm (k, v) (by simp)
      rw [Sparse.ins, if_neg hik, Sparse.wfFrom_iff]
      refine ⟨hw.1, hw.2.1, ih _ (fun l hl => by cases hl; omega) (fun p hp => hm p (by simp [hp])) hw.2.2⟩

/-- A write keeps the canonical form. -/
theorem Sparse.wf_set {α : Type} [DecidableEq α] (d : α) (m : Sparse α) (i : Nat) (x : α) (hw : Sparse.wf d m = true) :
    Sparse.wf d (Sparse.set d m i x) = true := by
  unfold Sparse.set
  split
  · exact Sparse.wfFrom_del d none m i hw
  · next hx =>
    exact Sparse.wfFrom_ins d none _ i x hx (by simp) (Sparse.del_keys m i) (Sparse.wfFrom_del d none m i hw)

/-- Taking entries out keeps the canonical form. -/
theorem Sparse.wf_filter {α : Type} [DecidableEq α] (d : α) (m : Sparse α) (f : Nat × α → Bool) (hw : Sparse.wf d m = true) :
    Sparse.wf d (m.filter f) = true := by
  suffices h : ∀ lo, Sparse.wfFrom d lo m = true → Sparse.wfFrom d lo (m.filter f) = true from h none hw
  clear hw
  induction m with
  | nil => exact fun _ h => h
  | cons p r ih =>
    obtain ⟨k, v⟩ := p
    intro lo h
    rw [Sparse.wfFrom_iff] at h
    by_cases hf : f (k, v) = true
    · rw [List.filter_cons_of_pos hf, Sparse.wfFrom_iff]
      exact ⟨h.1, h.2.1, ih _ h.2.2⟩
    · rw [List.filter_cons_of_neg hf]
      exact ih lo (Sparse.wfFrom_mono d (some k) lo r (fun l' h' => ⟨k, rfl, Nat.le_of_lt (h.1 l' h')⟩) h.2.2)

theorem Memory.wf_nil : Memory.wf [] = true := rfl

theorem Memory.wf_setByte (m : Mem) (a : Nat) (b : Byte) (h : Memory.wf m = true) : Memory.wf (m.setByte a b) = true :=
  Sparse.wf_set 0 m a b h

theorem Memory.wf_setBytes (l : List Byte) (m : Mem) (a : Nat) (h : Memory.wf m = true) :
    Memory.wf (m.setBytes a l) = true := by
  induction l generalizing m a with
  | nil => exact h
  | cons b r ih => exact ih _ _ (Memory.wf_setByte m a b h)

theorem Memory.wf_writeLe (m : Mem) (a n v : Nat) (h : Memory.wf m = true) : Memory.wf (m.writeLe a n v) = true :=
  Memory.wf_setBytes _ m a h

theorem Memory.wf_filter (m : Mem) (f : Host.Cell → Bool) (h : Memory.wf m = true) : Memory.wf (m.filter f) = true :=
  Sparse.wf_filter 0 m f h

end Sys2Proof.Machine
end

