-- ==== Sys2Proof/Laws/Access.lean ====
section
/-! SUPPORT. What the operations on registers, exceptions and memory do to memory: which leave it alone, and that every one
keeps its canonical form. -/

namespace Sys2Proof.Machine

/-! ## Memory left alone -/

/-- Memory and its durable copy are the same. -/
def State.SameMem (s t : State) : Prop := t.mem = s.mem ∧ t.durable = s.durable

theorem State.SameMem.trans {s t u : State} (h : s.SameMem t) (k : t.SameMem u) : s.SameMem u :=
  ⟨k.1.trans h.1, k.2.trans h.2⟩
theorem State.SameMem.memOk {s t : State} (h : s.SameMem t) (k : s.MemOk) : t.MemOk := by
  unfold State.MemOk
  rw [h.1, h.2]
  exact k

theorem State.sameMem_refl (s : State) : s.SameMem s := ⟨rfl, rfl⟩
theorem State.sameMem_setSt (s : State) (t : Stream) : s.SameMem (s.setSt t) := by
  unfold State.setSt
  split <;> exact ⟨rfl, rfl⟩
theorem State.sameMem_setHub (s : State) (h : Hub) : s.SameMem (s.setHub h) := ⟨rfl, rfl⟩
theorem State.sameMem_yield (s : State) : s.SameMem s.yield := ⟨rfl, rfl⟩
theorem State.sameMem_send (s : State) (m : Msg) : s.SameMem (s.send m) := ⟨rfl, rfl⟩
theorem State.sameMem_park (s : State) (w : BitVec 5) (ev : List FaultRec) : s.SameMem (s.park w ev) := ⟨rfl, rfl⟩
theorem State.sameMem_finish (s : State) (w n : Nat) : s.SameMem (s.finish w n) := s.sameMem_setSt _
theorem State.sameMem_finishG (s : State) (w n : Nat) (d : Reg) (v : Word) : s.SameMem (s.finishG w n d v) := s.sameMem_setSt _
theorem State.sameMem_setG (s : State) (d : Reg) (v : Word) : s.SameMem (s.setG d v) := s.sameMem_setSt _
theorem State.sameMem_ret (s : State) : s.SameMem s.ret := s.sameMem_setSt _
theorem State.sameMem_putEvent (s : State) (d : Nat) (i : Bool) (ev : List FaultRec) : s.SameMem (s.putEvent d i ev) := ⟨rfl, rfl⟩
theorem State.sameMem_flushFrq (s : State) (d : Nat) : s.SameMem (s.flushFrq d) := ⟨rfl, rfl⟩
theorem State.sameMem_poisonScalar (s : State) (pc : Word) (w : Nat) : s.SameMem (s.poisonScalar pc w) := s.sameMem_putEvent _ _ _
theorem State.sameMem_count (s : State) (d i n : Nat) : s.SameMem (s.count d i n) := by
  unfold State.count
  split
  · exact s.sameMem_setHub _
  · exact s.sameMem_refl

/-- An escalated trap leaves memory alone (R428, R536). -/
theorem State.sameMem_escalate (s : State) (c : BitVec 8) (epc : Word) (w : Nat) : s.SameMem (s.escalate c epc w) := by
  unfold State.escalate
  have h := s.sameMem_setSt { s.st with pc := epc, pfxp := false, pfxd := 0, sig := none, tlw := .none }
  split
  · exact ⟨h.1, h.2⟩
  · exact ⟨h.1, h.2⟩
/-- Taking an exception leaves memory alone (R33). -/
theorem State.sameMem_trapAt (s : State) (c : BitVec 8) (v epc : Word) (w : Nat) : s.SameMem (s.trapAt c v epc w) := by
  unfold State.trapAt
  split
  · exact s.sameMem_escalate _ _ _
  · exact s.sameMem_setSt _
theorem State.sameMem_trap (s : State) (c : Cause) (v : Word) (w : Nat) : s.SameMem (s.trap c v w) := s.sameMem_trapAt _ _ _ _
theorem State.sameMem_memFault (s : State) (f : MemFault) (w : Nat) : s.SameMem (s.memFault f w) := by
  unfold State.memFault
  split
  · exact s.sameMem_trapAt _ _ _ _
  · exact s.sameMem_park _ _
theorem State.sameMem_sigFail (s : State) (a : Word) (w : Nat) : s.SameMem (s.sigFail a w) := by
  unfold State.sigFail
  split
  · exact s.sameMem_trapAt _ _ _ _
  · exact (s.sameMem_park _ _).trans (State.sameMem_count _ _ _ _)
/-- A transfer of control leaves memory alone (R28, R81). -/
theorem State.sameMem_jump (s : State) (w n : Nat) (t : Word) : s.SameMem (s.jump w n t) := by
  unfold State.jump
  have h := s.sameMem_setSt { s.st with pc := t, sig := none, pfxp := false }
  cases sigAdd s.st.sig w n with
  | none => exact h
  | some o =>
    by_cases ho : o.crc = o.expected
    · simpa [ho] using h
    · simpa [ho] using h.trans (State.sameMem_sigFail _ _ _)

/-- A store to the hub leaves memory alone (R270). -/
theorem sameMem_hubWrite (s : State) (a : Agent) (v : Nat) (r : HubReg) : s.SameMem (hubWrite s a v r) := by
  unfold hubWrite
  split
  · cases r <;> simp only [firmwareWrite, State.writeQcfg, State.setQueue, State.setHub, State.xlinv, State.preemptTag,
      State.onHart] <;> (repeat' split) <;> exact ⟨rfl, rfl⟩
  · exact s.sameMem_refl
theorem State.sameMem_setQueue (s : State) (q : StartQueue) : s.SameMem (s.setQueue q) := ⟨rfl, rfl⟩
theorem State.sameMem_append (s : State) (n : Nat) (l : List Byte) : s.SameMem (s.append n l) := by
  unfold State.append
  dsimp only
  split <;> exact s.sameMem_setQueue _
theorem State.sameMem_windowStore (s : State) (a : Agent) (n o v : Nat) : s.SameMem (s.windowStore a n o v) := by
  unfold State.windowStore
  split
  · exact ⟨rfl, rfl⟩
  · split
    · exact (s.sameMem_append n _).trans ⟨rfl, rfl⟩
    · exact s.sameMem_setQueue _
theorem State.sameMem_windowWrite (s : State) (a : Agent) (n o : Nat) (l : List Byte) : s.SameMem (s.windowWrite a n o l) := by
  unfold State.windowWrite
  split
  · exact s.sameMem_append _ _
  · exact s.sameMem_windowStore _ _ _ _

/-! ## Results that keep memory's form -/

/-- Whichever way a result ends, memory is in its canonical form. -/
def Res.Keeps {α : Type} : Res α → Prop
  | .ok _ t | .trap _ _ t | .mem _ t | .wait t => t.MemOk

theorem Res.keeps_bind {α β : Type} {r : Res α} {f : α → State → Res β} (h : r.Keeps)
    (hf : ∀ a t, t.MemOk → (f a t).Keeps) : (r.bind f).Keeps := by
  cases r with
  | ok a t => exact hf a t h
  | trap _ _ _ | mem _ _ | wait _ => exact h

/-- A step's answer keeps memory's form. -/
def Out.Keeps (o : Out) : Prop := ∀ t, o = .next t → t.MemOk

theorem Out.keeps_next {t : State} (h : t.MemOk) : Out.Keeps (.next t) := by
  intro u hu
  cases hu
  exact h

theorem State.conclude_keeps (w : Nat) {r : Res Unit} (h : r.Keeps) : Out.Keeps (State.conclude w r) := by
  cases r with
  | ok _ t => exact Out.keeps_next h
  | trap c v t => exact Out.keeps_next ((t.sameMem_trap c v w).memOk h)
  | mem f t => exact Out.keeps_next ((t.sameMem_memFault f w).memOk h)
  | wait t => exact Out.keeps_next (t.sameMem_yield.memOk h)

/-- A scalar instruction keeps memory's form if its own effect does. -/
theorem runScalar_keeps (f : Frame) (body : State → Res Unit) (s : State) (hs : s.MemOk) (hb : (body s).Keeps) :
    Out.Keeps (runScalar f body s) := by
  unfold runScalar
  generalize (if s.st.pfxp then pfxSrc s.st.pfxd :: pfxReg s.st.pfxd :: f.regs else f.regs) = regs
  split
  · exact Out.keeps_next ((s.sameMem_trap _ _ _).memOk hs)
  · split
    · exact Out.keeps_next ((s.sameMem_trap _ _ _).memOk hs)
    · split
      · exact Out.keeps_next ((s.sameMem_trap _ _ _).memOk hs)
      · split
        · exact Out.keeps_next (s.sameMem_yield.memOk hs)
        · split
          · exact Out.keeps_next ((s.sameMem_finish _ _).memOk hs)
          · exact State.conclude_keeps _ hb

/-! ## Translation -/

/-- What the use of a leaf can answer: a PROT fault or a wait that changes nothing, or an address, with accessed and dirty
bits brought up to date in the leaf and in the entries that hold it (R282, R287, R481). -/
theorem State.useLeaf_cases (s : State) (a : Agent) (x : Access) (va : Word) (l : Leaf) :
    (∃ f, s.useLeaf a x va l = .mem f s ∧ f.xlate = false) ∨ s.useLeaf a x va l = .wait s
    ∨ ∃ y m b, s.useLeaf a x va l = .ok y { s with mem := m, tlb := b } ∧ y.cls = pteClass l.pte
      ∧ (m = s.mem ∨ m = s.mem.writeLe l.at_ 8 (withAD x.acc l.pte)) := by
  unfold State.useLeaf
  dsimp only
  split
  · exact .inl ⟨_, rfl, rfl⟩
  · by_cases hc : s.cutOff a x (pteBase l.pte + va.toNat % l.size) l = true
    · rw [if_pos hc]
      exact .inr (.inl rfl)
    · rw [if_neg hc]
      refine .inr (.inr ?_)
      by_cases he : withAD x.acc l.pte = l.pte
      · rw [if_pos he]
        exact ⟨⟨_, _⟩, s.mem, s.tlb, rfl, rfl, .inl rfl⟩
      · rw [if_neg he]
        exact ⟨⟨_, _⟩, _, _, rfl, rfl, .inr rfl⟩

/-- What a translation can answer: a fault or a wait that changes nothing, or an address with nothing but memory's leaf and
the held entries changed (R280-R282, R287). -/
theorem State.translate_cases (s : State) (a : Agent) (x : Access) (va : Word) :
    (∃ f, s.translate a x va = .mem f s) ∨ s.translate a x va = .wait s
    ∨ ∃ y m b at_ v, s.translate a x va = .ok y { s with mem := m, tlb := b }
      ∧ (m = s.mem ∨ m = s.mem.writeLe at_ 8 v) := by
  have hleaf : ∀ l, (∃ f, s.useLeaf a x va l = .mem f s) ∨ s.useLeaf a x va l = .wait s ∨ ∃ y m b at_ v,
      s.useLeaf a x va l = .ok y { s with mem := m, tlb := b } ∧ (m = s.mem ∨ m = s.mem.writeLe at_ 8 v) := by
    intro l
    rcases s.useLeaf_cases a x va l with ⟨f, h, _⟩ | h | ⟨y, m, b, h, _, hm⟩
    · exact .inl ⟨f, h⟩
    · exact .inr (.inl h)
    · exact .inr (.inr ⟨y, m, b, _, _, h, hm⟩)
  unfold State.translate
  dsimp only
  repeat' split
  all_goals first | exact .inl ⟨_, rfl⟩ | exact .inr (.inl rfl) | exact hleaf _

theorem State.translate_keeps (s : State) (a : Agent) (x : Access) (va : Word) (h : s.MemOk) : (s.translate a x va).Keeps := by
  rcases s.translate_cases a x va with ⟨f, hf⟩ | hf | ⟨y, m, b, at_, v, hy, hm | hm⟩
  · rw [hf]
    exact h
  · rw [hf]
    exact h
  · rw [hy, hm]
    exact h
  · rw [hy, hm]
    exact ⟨Memory.wf_writeLe _ _ _ _ h.1, h.2⟩

/-! ## Writes and reads -/

theorem State.sameMem_markPoison (s : State) (pa n : Nat) (b : Bool) : s.SameMem (s.markPoison pa n b) := by
  unfold State.markPoison
  split <;> exact ⟨rfl, rfl⟩
theorem State.sameMem_ingressWrite (s : State) (a : Agent) (pa : Nat) (l : List Byte) (b : Bool) :
    s.SameMem (s.ingressWrite a pa l b) := ⟨rfl, rfl⟩
theorem State.sameMem_noteStale (s : State) (a : Agent) (pa n : Nat) : s.SameMem (s.noteStale a pa n) := by
  unfold State.noteStale
  split
  · exact s.sameMem_refl
  · exact s.sameMem_setSt _
theorem State.sameMem_endCtx (s : State) (p : CtxRef → Bool) : s.SameMem (s.endCtx p) := by
  unfold State.endCtx
  exact ⟨rfl, rfl⟩
theorem State.sameMem_noteTables (s old : State) (p : CtxRef → Bool) : s.SameMem (s.noteTables old p) := by
  unfold State.noteTables
  dsimp only
  repeat' split
  all_goals first | exact s.sameMem_refl | exact ⟨rfl, rfl⟩ | exact State.sameMem_endCtx _ _

/-- A write of bytes at one physical address writes them, and no other byte; the durable copy is unchanged (R399). -/
theorem State.putBytes_mem (s : State) (a : Agent) (pa : Nat) (l : List Byte) (b : Bool) :
    (s.putBytes a pa l b).mem = s.mem.setBytes pa l ∧ (s.putBytes a pa l b).durable = s.durable := by
  have h1 := s.sameMem_noteStale a pa l.length
  have key : ∀ t : State, (t.mem = s.mem.setBytes pa l ∧ t.durable = s.durable) →
      ((t.noteTables s (t.enabled s pa l.length)).markPoison pa l.length b).mem = s.mem.setBytes pa l
      ∧ ((t.noteTables s (t.enabled s pa l.length)).markPoison pa l.length b).durable = s.durable := by
    intro t ht
    have h := (t.sameMem_noteTables s (t.enabled s pa l.length)).trans (State.sameMem_markPoison _ pa l.length b)
    exact ⟨h.1.trans ht.1, h.2.trans ht.2⟩
  have hk := key { s.noteStale a pa l.length with mem := (s.noteStale a pa l.length).mem.setBytes pa l }
    ⟨by rw [h1.1], h1.2⟩
  unfold State.putBytes
  dsimp only
  split
  · exact hk
  · exact hk

theorem State.putBytes_keeps (s : State) (a : Agent) (pa : Nat) (l : List Byte) (b : Bool) (h : s.MemOk) :
    (s.putBytes a pa l b).MemOk := by
  have hp := s.putBytes_mem a pa l b
  exact ⟨by rw [hp.1]; exact Memory.wf_setBytes _ _ _ h.1, by rw [hp.2]; exact h.2⟩

/-- A store at a translated address keeps memory's form. -/
theorem State.perform_keeps (s : State) (a : Agent) (x : Xl) (l : List Byte) (b : Bool) (h : s.MemOk) :
    (s.perform a x l b).MemOk := by
  have hf : ∀ (ps : List Nat) (t : State), t.MemOk → (ps.foldl (fun t pa => t.putBytes a pa l b) t).MemOk := by
    intro ps
    induction ps with
    | nil => exact fun t ht => ht
    | cons p ps ih => exact fun t ht => ih _ (t.putBytes_keeps a p l b ht)
  unfold State.perform
  split
  · split
    · exact h
    · split
      · exact (s.sameMem_windowWrite _ _ _ _).memOk h
      · split
        · exact ((sameMem_hubWrite _ _ _ _).trans (State.sameMem_noteTables _ _ _)).memOk h
        · exact h
  · exact hf _ _ h

theorem State.fetchValue_keeps (s : State) (a : Agent) (x : Xl) (n : Nat) (h : s.MemOk) : (s.fetchValue a x n).Keeps := by
  unfold State.fetchValue
  split
  · split
    · unfold State.apertureRead
      dsimp only
      (repeat' split) <;> exact h
    · split
      · exact h
      · split <;> exact h
  · exact h

theorem State.readVa_keeps (s : State) (a : Agent) (va : Word) (n : Nat) (h : s.MemOk) : (s.readVa a va n).Keeps :=
  Res.keeps_bind (s.translate_keeps a _ va h) fun x t ht => t.fetchValue_keeps a x n ht

theorem State.writeVa_keeps (s : State) (a : Agent) (va : Word) (n v : Nat) (h : s.MemOk) : (s.writeVa a va n v).Keeps :=
  Res.keeps_bind (s.translate_keeps a _ va h) fun x t ht => t.perform_keeps a x _ false ht

theorem State.rmwAt_keeps (s : State) (a : Agent) (x : Xl) (n : Nat) (f : Word → Option Nat) (h : s.MemOk) :
    (s.rmwAt a x n f).2.MemOk := by
  unfold State.rmwAt
  dsimp only
  split
  · exact h
  · exact s.putBytes_keeps a _ _ _ h

theorem aligned_keeps {α : Type} (va : Word) (n : Nat) (s : State) (r : Res α) (h : s.MemOk) (hr : r.Keeps) :
    (aligned va n s r).Keeps := by
  unfold aligned
  split
  · exact h
  · exact hr

theorem State.sameMem_keep (s : State) (l : List ((Nat × Nat) × Xl)) : s.SameMem (s.keep l) := by
  unfold State.keep
  split <;> exact ⟨rfl, rfl⟩
/-- A read of a location that is kept while a response is out keeps memory's form. -/
theorem State.readKept_keeps (s : State) (x : Xl) (n : Nat) (h : s.MemOk) : (s.readKept x n).Keeps := by
  have k := s.fetchValue_keeps s.agent x n h
  unfold State.readKept
  split <;> rename_i hr
  · rw [hr] at k
    exact k
  · rw [hr] at k
    exact (State.sameMem_keep _ _).memOk k
  · exact k

theorem State.sameMem_poisonLoad (s : State) (pc : Word) (w : Nat) : s.SameMem (s.poisonLoad pc w) :=
  (s.sameMem_count _ _ _).trans (State.sameMem_poisonScalar _ _ _)

/-- An atomic keeps memory's form. -/
theorem State.amoAt_keeps (s : State) (x : Xl) (m : Amo) (h : s.MemOk) : (s.amoAt x m).2.MemOk := by
  have hr := s.rmwAt_keeps s.agent x m.size m.next h
  unfold State.amoAt
  dsimp only
  split
  · exact (State.sameMem_poisonLoad _ _ _).memOk hr
  · exact hr

theorem State.performLate_keeps (s : State) (l : LateStore) (h : s.MemOk) : (s.performLate l).MemOk := by
  unfold State.performLate
  split
  · exact s.perform_keeps _ _ _ _ h
  · exact (State.sameMem_setSt _ _).memOk (s.amoAt_keeps _ _ h)

/-- What waits is performed in order: memory keeps its form. -/
theorem State.settle_keeps (s : State) (h : s.MemOk) : s.settle.MemOk := by
  have hf : ∀ (l : List LateStore) (t : State), t.MemOk → (l.foldl State.performLate t).MemOk := by
    intro l
    induction l with
    | nil => exact fun t ht => ht
    | cons x l ih => exact fun t ht => ih _ (t.performLate_keeps x ht)
  unfold State.settle
  split
  · exact h
  · exact hf _ { s with onFeeder := false, atHead := false, hart := { s.hart with late := [] } } h

theorem State.settleMine_keeps (s : State) (h : s.MemOk) : s.settleMine.MemOk := by
  unfold State.settleMine
  split
  · exact h
  · exact s.settle_keeps h

theorem State.beforeRead_keeps (s : State) (pa n : Nat) (h : s.MemOk) : (s.beforeRead pa n).MemOk := by
  unfold State.beforeRead
  split
  · exact s.settle_keeps h
  · exact h

theorem State.sameMem_markRead (s : State) (pa n : Nat) : s.SameMem (s.markRead pa n) := by
  unfold State.markRead
  split <;> exact ⟨rfl, rfl⟩

/-- A scalar load keeps memory's form. -/
theorem State.load_keeps (s : State) (w : Nat) (va : Word) (n : Nat) (h : s.MemOk) : (s.load w va n).Keeps := by
  unfold State.load State.loadAs
  dsimp only
  refine aligned_keeps _ _ _ _ h ?_
  have hgo : ∀ (y : Xl) (t : State), t.MemOk →
      (((t.beforeRead (t.agent.readAt y) n).readKept y n).bind fun v s => .ok
        (match region y.pa with
          | .hub _ => v
          | _ => if s.hart.late = [] then v else BitVec.ofNat 64 (s.ownMem.readLe (t.agent.readAt y) n))
        ((if s.isPoisoned (t.agent.readAt y) n then s.poisonLoad (trapEpc 0 s.st) w else s).markRead (t.agent.readAt y) n)).Keeps :=
    fun y t ht => Res.keeps_bind (State.readKept_keeps _ y n (t.beforeRead_keeps _ _ ht)) fun v u hu => by
      refine (State.sameMem_markRead _ _ _).memOk ?_
      split
      · exact (u.sameMem_poisonLoad _ _).memOk hu
      · exact hu
  split
  · exact hgo _ _ h
  · exact Res.keeps_bind (s.translate_keeps _ _ va h) hgo

/-- A scalar store keeps memory's form. -/
theorem State.store_keeps (s : State) (va : Word) (n : Nat) (v : Word) (h : s.MemOk) : (s.store va n v).Keeps :=
  aligned_keeps _ _ _ _ h <| Res.keeps_bind (s.translate_keeps _ _ va h) fun y t ht => by
    dsimp only
    split
    · exact ht
    · exact State.perform_keeps _ _ _ _ _ (t.settleMine_keeps ht)

/-- A scalar atomic keeps memory's form. -/
theorem State.atomic_keeps (s : State) (va : Word) (m : Amo) (late : Bool) (h : s.MemOk) : (s.atomic va m late).Keeps :=
  aligned_keeps _ _ _ _ h <| Res.keeps_bind (s.translate_keeps _ _ va h) fun x t ht => by
    dsimp only
    split
    · exact ht
    · exact State.amoAt_keeps _ _ _ (t.settleMine_keeps ht)

/-! ## Vector instructions -/

/-- Whichever way a vector instruction's effect ends, memory is in its canonical form. -/
def VRes.Keeps : VRes → Prop
  | .done t | .trap _ _ t | .stop _ _ t | .wait _ t => t.MemOk

theorem VSpec.memOk_issued (f : VSpec) (s : State) (h : s.MemOk) : (f.issued s).MemOk := (s.sameMem_setSt _).memOk h
theorem VSpec.memOk_beforeIssue (f : VSpec) (s : State) (h : s.MemOk) : (f.beforeIssue s).MemOk := by
  unfold VSpec.beforeIssue
  split
  · exact s.settle_keeps h
  · exact h
theorem State.sameMem_leaveWait (s : State) : s.SameMem s.leaveWait := ⟨rfl, rfl⟩

theorem State.trapInOrder_keeps (s : State) (c : Cause) (v : Word) (w : Nat) (h : s.MemOk) : Out.Keeps (s.trapInOrder c v w) := by
  unfold State.trapInOrder
  split
  · exact Out.keeps_next ((s.sameMem_trap _ _ _).memOk h)
  · exact Out.keeps_next (s.sameMem_yield.memOk h)

/-- The head of the vector queue keeps memory's form if its effect does. -/
theorem VSpec.runHead_keeps (f : VSpec) (s : State) (hs : s.MemOk) (hr : ∀ e t, t.MemOk → (f.run e t).Keeps) :
    Out.Keeps (f.runHead s) := by
  unfold VSpec.runHead
  split
  · exact Out.keeps_next hs
  · rename_i e rest _
    split
    · exact Out.keeps_next hs
    · split
      · exact Out.keeps_next ((State.sameMem_trapAt _ _ _ _ _).memOk ((State.sameMem_leaveWait (s.setVq rest)).memOk hs))
      · have h := hr { e with again := false } s hs
        split <;> rename_i hrun <;> rw [hrun] at h
        · exact Out.keeps_next h
        · exact Out.keeps_next ((State.sameMem_trapAt _ _ _ _ _).memOk ((State.sameMem_leaveWait (State.setVq _ rest)).memOk h))
        · exact Out.keeps_next h
        · exact Out.keeps_next h

/-- So does an issue. -/
theorem VSpec.issue_keeps (f : VSpec) (e : VEntry) (s : State) (hs : s.MemOk) (hr : ∀ e t, t.MemOk → (f.run e t).Keeps) :
    Out.Keeps (f.issue e s) := by
  unfold VSpec.issue
  dsimp only
  split
  · exact Out.keeps_next (f.memOk_issued _ (f.memOk_beforeIssue s hs))
  · have h := hr e { f.issued (f.beforeIssue s) with atHead := true } (f.memOk_issued _ (f.memOk_beforeIssue s hs))
    split <;> rename_i hrun <;> rw [hrun] at h
    · exact Out.keeps_next h
    · exact Out.keeps_next ((State.sameMem_trapAt _ _ _ _ _).memOk h)
    · exact Out.keeps_next h
    · exact Out.keeps_next h

/-- A vector instruction keeps memory's form if its effect does. -/
theorem runVector_keeps (f : VSpec) (s : State) (hs : s.MemOk) (hr : ∀ e t, t.MemOk → (f.run e t).Keeps) :
    Out.Keeps (runVector f s) := by
  have ht : ∀ c v w, Out.Keeps (.next (s.trap c v w)) := fun c v w => Out.keeps_next ((s.sameMem_trap c v w).memOk hs)
  have hy : Out.Keeps (.next s.yield) := Out.keeps_next (s.sameMem_yield.memOk hs)
  unfold runVector
  dsimp only
  split
  · exact f.runHead_keeps s hs hr
  · repeat' split
    all_goals first | exact ht _ _ _ | exact hy | exact s.trapInOrder_keeps _ _ _ hs | exact f.issue_keeps _ _ hs hr

end Sys2Proof.Machine
end

