-- ==== Sys2Proof/Laws/Decode.lean ====
section
/-! SUPPORT. The decoder on the bytes of a parcel and of a word, and the fields of a word. -/

namespace Sys2Proof

/-- A byte of a number. -/
theorem toNat_byte (w k : Nat) : (BitVec.ofNat 8 (w / k)).toNat = w / k % 256 := by simp

/-- A field that was laid at its place is read back. -/
theorem fld_at (w lo n : Nat) (x : BitVec n) (h : w / 2 ^ lo % 2 ^ n = x.toNat) : fld w lo n = x := by
  apply BitVec.eq_of_toNat_eq
  simpa [fld] using h

/-- The value of a field. -/
theorem toNat_fld (w lo n : Nat) : (fld w lo n).toNat = w / 2 ^ lo % 2 ^ n := by simp [fld]

/-- The bytes of a 32-bit word are decoded as the word (R2, R39). -/
theorem decode_word (w : Nat) (rest : List Byte) (hodd : w % 2 = 1) (hw : w < 2 ^ 32) :
    decode (BitVec.ofNat 8 w :: BitVec.ofNat 8 (w / 256) :: BitVec.ofNat 8 (w / 65536) :: BitVec.ofNat 8 (w / 16777216) :: rest)
      = decodeWord w := by
  have hp : (BitVec.ofNat 8 w).toNat + (BitVec.ofNat 8 (w / 256)).toNat * 256 = w % 65536 := by
    simp only [BitVec.toNat_ofNat]
    omega
  simp only [decode, hp]
  rw [if_neg (by omega)]
  congr 1
  simp only [BitVec.toNat_ofNat]
  omega

/-- The bytes of a parcel are decoded as the parcel (R2, R39). -/
theorem decode_parcel (w : Nat) (rest : List Byte) (heven : w % 2 = 0) (hw : w < 2 ^ 16) :
    decode (BitVec.ofNat 8 w :: BitVec.ofNat 8 (w / 256) :: rest) = decodeParcel w := by
  have hp : (BitVec.ofNat 8 w).toNat + (BitVec.ofNat 8 (w / 256)).toNat * 256 = w := by
    simp only [BitVec.toNat_ofNat]
    omega
  simp only [decode, hp]
  rw [if_pos heven]

end Sys2Proof
end

