-- ==== Sys2Proof/Laws/Engines.lean ====
section
/-! SUPPORT. What the operations of the engines do to memory, and what acceptance of an operation leaves. -/

namespace Sys2Proof.Machine

/-! ## Contexts and tokens -/

theorem State.sameMem_onHart (s : State) (tag : BitVec 32) (f : Hart → Hart) : s.SameMem (s.onHart tag f) := by
  unfold State.onHart
  split <;> exact ⟨rfl, rfl⟩
theorem State.sameMem_onControl (s : State) (n : Nat) (f : Hart → Hart) : s.SameMem (s.onControl n f) := by
  unfold State.onControl
  split <;> exact ⟨rfl, rfl⟩
theorem State.sameMem_setTimeline (s : State) (c : CtxRef) (t : Timeline) : s.SameMem (s.setTimeline c t) := by
  cases c with
  | copy tag i => exact s.sameMem_onHart _ _
  | topo d slot =>
    unfold State.setTimeline
    dsimp only
    split
    · exact ⟨rfl, rfl⟩
    · split
      · exact ⟨rfl, rfl⟩
      · exact s.sameMem_refl
  | bedrock _ | xchg _ | coll _ => exact ⟨rfl, rfl⟩

/-- Accepting an operation keeps memory as it is (R345). -/
theorem State.accept_keeps (s : State) (w : Nat) (c : CtxRef) (k : OpKind) (d : Reg) (o : Option (Nat × Nat)) (h : s.MemOk) :
    (s.accept w c k d o).Keeps := by
  unfold State.accept
  have h0 := s.settleMine_keeps h
  generalize s.settleMine = s at h0
  dsimp only
  split
  · exact h0
  split
  · exact h0
  · have h1 := (s.sameMem_setTimeline c { s.timeline c with issued := (s.timeline c).issued + 1 }).memOk h0
    exact (State.sameMem_setSt _ _).memOk (s := { s.setTimeline c _ with ops := _, nextOp := _ }) h1

/-- A token written for a saved hart keeps memory's form (R434). -/
theorem State.writeToken_keeps (s : State) (o : Op) (v : Word) (h : s.MemOk) : (s.writeToken o v).MemOk := by
  unfold State.writeToken
  split
  · exact h
  · split
    · exact (s.sameMem_onControl _ _).memOk h
    · split
      · exact h
      · have h1 := (s.sameMem_onHart o.issuer fun h => h.token o.feeder o.token v).memOk h
        dsimp only
        split
        · exact ⟨Memory.wf_writeLe _ _ _ _ (Memory.wf_writeLe _ _ _ _ h1.1), h1.2⟩
        · exact h1

/-- The end of an operation keeps memory's form (R345, R347). -/
theorem State.endOp_keeps (s : State) (o : Op) (v : Nat) (h : s.MemOk) : (s.endOp o v).MemOk := by
  unfold State.endOp
  dsimp only
  have h1 := s.writeToken_keeps o (BitVec.ofNat 64 v) h
  have h2 := (State.sameMem_setTimeline _ o.ctx
    (((s.writeToken o (BitVec.ofNat 64 v)).timeline o.ctx).finish o.num)).memOk h1
  split
  · exact (State.sameMem_setTimeline _ _ _).memOk h2
  · exact h2

/-! ## Accesses -/

theorem State.engRead_keeps (a : Agent) : ∀ (k : Nat) (s : State) (va : Word) (n : Nat), s.MemOk → (s.engRead a k va n).Keeps
  | 0, s, va, n, h => h
  | k + 1, s, va, n, h => by
    unfold State.engRead
    split
    · exact h
    · exact Res.keeps_bind (s.translate_keeps a _ va h) fun x t ht =>
        Res.keeps_bind (State.engRead_keeps a k t _ _ ht) fun r u hu => hu

theorem State.putWords_keeps (a : Agent) : ∀ (k : Nat) (s : State) (pa : Nat) (l : List EByte), s.MemOk → (s.putWords a k pa l).MemOk
  | 0, s, pa, l, h => h
  | k + 1, s, pa, l, h => by
    unfold State.putWords
    split
    · exact h
    · exact State.putWords_keeps a k _ _ _ (s.putBytes_keeps a _ _ _ h)

theorem State.engWrite_keeps (a : Agent) : ∀ (k : Nat) (s : State) (va : Word) (l : List EByte), s.MemOk → (s.engWrite a k va l).Keeps
  | 0, s, va, l, h => h
  | k + 1, s, va, l, h => by
    unfold State.engWrite
    split
    · exact h
    · refine Res.keeps_bind (s.translate_keeps a _ va h) fun x t ht => State.engWrite_keeps a k _ _ _ ?_
      have hf : ∀ (ps : List Nat) (w : List EByte) (u : State), u.MemOk →
          (ps.foldl (fun t pa => t.putWords a 64 pa w) u).MemOk := by
        intro ps w
        induction ps with
        | nil => exact fun u hu => hu
        | cons p ps ih => exact fun u hu => ih _ (u.putWords_keeps a 64 p w hu)
      exact hf _ _ _ ht

theorem State.eread_keeps (s : State) (a : Agent) (va : Word) (n : Nat) (h : s.MemOk) : (s.eread a va n).Keeps :=
  s.engRead_keeps a _ va n h
theorem State.ewrite_keeps (s : State) (a : Agent) (va : Word) (l : List EByte) (h : s.MemOk) : (s.ewrite a va l).Keeps :=
  s.engWrite_keeps a _ va l h
theorem State.enum_keeps (s : State) (a : Agent) (va : Word) (n : Nat) (h : s.MemOk) : (s.enum a va n).Keeps :=
  Res.keeps_bind (s.eread_keeps a va n h) fun _ _ ht => ht
theorem State.enums_keeps (s : State) (a : Agent) (va : Word) (w n : Nat) (h : s.MemOk) : (s.enums a va w n).Keeps :=
  Res.keeps_bind (s.eread_keeps a va _ h) fun _ _ ht => ht
theorem State.emove_keeps (s : State) (a : Agent) (dst src : Word) (n : Nat) (h : s.MemOk) : (s.emove a dst src n).Keeps :=
  Res.keeps_bind (s.eread_keeps a src n h) fun _ t ht => t.ewrite_keeps a dst _ ht

theorem State.esteps_keeps {α : Type} (f : α → State → Res Unit) (hf : ∀ x t, t.MemOk → (f x t).Keeps) :
    ∀ (l : List α) (s : State), s.MemOk → (State.esteps f l s).Keeps
  | [], _, h => h
  | x :: r, s, h => Res.keeps_bind (hf x s h) fun _ t ht => State.esteps_keeps f hf r t ht
theorem State.erows_keeps (f : Nat → State → Res Unit) (hf : ∀ r t, t.MemOk → (f r t).Keeps) :
    ∀ (k r : Nat) (s : State), s.MemOk → (State.erows f k r s).Keeps
  | 0, _, _, h => h
  | k + 1, r, s, h => Res.keeps_bind (hf r s h) fun _ t ht => State.erows_keeps f hf k (r + 1) t ht

/-- The accesses of a copy keep memory's form (R353-R355). -/
theorem copyPerform_keeps (a : Agent) (k : OpKind) (s : State) (h : s.MemOk) : (copyPerform a k s).Keeps := by
  unfold copyPerform
  split
  · exact s.emove_keeps a _ _ _ h
  · exact State.erows_keeps _ (fun _ t ht => t.emove_keeps a _ _ _ ht) _ _ s h
  · rename_i wide
    generalize (if wide then 8 else 4) = w
    refine State.erows_keeps _ (fun _ t ht => Res.keeps_bind (t.enum_keeps a _ _ ht) fun x u hu => ?_) _ _ s h
    dsimp only
    split
    · exact hu
    · split
      · exact u.emove_keeps a _ _ _ hu
      · exact u.emove_keeps a _ _ _ hu
  · exact h

/-- Translating several places keeps memory's form (R305). -/
theorem State.translateAll_keeps (a : Agent) (x : Access) : ∀ (l : List VItem) (s : State), s.MemOk → (s.translateAll a x l).s.MemOk
  | [], _, h => h
  | (p, va) :: r, s, h => by
    have h1 := s.translate_keeps a x va h
    unfold State.translateAll
    split <;> rename_i heq <;> rw [heq] at h1
    all_goals exact State.translateAll_keeps a x r _ h1
theorem State.places_keeps (s : State) (a : Agent) (x : Access) (l : List VItem) (h : s.MemOk) : (s.places a x l).s.MemOk := by
  unfold State.places
  split
  · exact h
  · exact State.translateAll_keeps a x l s h

/-- Reading translated places keeps memory's form. -/
theorem State.readAll_keeps (a : Agent) (b : Nat) : ∀ (l : List ((Nat × Nat) × Xl)) (s : State), s.MemOk → (s.readAll a b l).2.2.MemOk
  | [], _, h => h
  | (p, x) :: r, s, h => by
    have h1 := s.fetchValue_keeps a x b h
    unfold State.readAll
    dsimp only
    split
    · exact State.readAll_keeps a b r s h
    · split <;> rename_i heq <;> rw [heq] at h1
      · refine State.readAll_keeps a b r _ ?_
        split <;> exact h1
      all_goals exact h1

/-- Going on with the words of a descriptor keeps memory's form if what it goes on with does. -/
theorem State.withWords_keeps (s : State) (w : Nat) (va : Word) (n : Nat) (f : List Word → State → Res Unit) (h : s.MemOk)
    (hf : ∀ l t, t.MemOk → (f l t).Keeps) : (s.withWords w va n f).Keeps := by
  unfold State.withWords
  have h0 := s.settleMine_keeps h
  generalize s.settleMine = s at h0
  dsimp only
  have h1 := s.places_keeps s.agent (.plain 0 8) ((List.range n).map fun j => ((0, j), va + BitVec.ofNat 64 (8 * j))) h0
  split
  · exact h1
  · have h2 := State.readAll_keeps s.agent 8 (s.places s.agent (.plain 0 8)
      ((List.range n).map fun j => ((0, j), va + BitVec.ofNat 64 (8 * j)))).ok _ h1
    split
    · exact h1
    · have h3 := (State.sameMem_keep _ (s.places s.agent (.plain 0 8)
        ((List.range n).map fun j => ((0, j), va + BitVec.ofNat 64 (8 * j)))).ok).memOk h2
      split
      · exact h3
      · split <;> rename_i hrun
        · exact hrun ▸ hf _ _ h3
        · refine hf _ _ ?_
          split
          · exact (State.sameMem_poisonLoad _ _ _).memOk (s := State.dropReads _) h3
          · exact h3

end Sys2Proof.Machine
end

