-- ==== Sys2Proof/Laws/Vector.lean ====
section
/-! SUPPORT. What the frame of vector instructions answers, and what a write of a destination group or of a mask leaves
at each position. -/

namespace Sys2Proof.Machine

/-! ## The frame -/

/-- With no earlier vector instruction, an entry takes the configuration of the stream. -/
theorem VCfg.of_entry (f : VSpec) (s : State) (hf : s.onFeeder = false) (hq : s.hart.vq = []) :
    VCfg.of s.hart (f.entry s) = s.vcfg := by
  simp [VCfg.of, VSpec.entry, State.vcfg, hq, State.st, hf]

/-- The registers that LASTD names do not enter the configuration. -/
theorem LastDest.set_main (l : LastDest) (t : Stream) :
    (l.set t).grant = t.grant ∧ (l.set t).rm = t.rm ∧ (l.set t).vtype = t.vtype ∧ (l.set t).vl = t.vl
    ∧ (l.set t).rc = t.rc ∧ (l.set t).g = t.g ∧ (l.set t).flags = t.flags := by
  cases l <;> simp [LastDest.set]

/-- The state in which an instruction executes that issues with no earlier one in the queue. -/
def VSpec.begun (f : VSpec) (s : State) : State := { f.issued s with atHead := true }

theorem VSpec.begun_hart (f : VSpec) (s : State) (hf : s.onFeeder = false) :
    (f.begun s).hart = { s.hart with main := f.lastd.set (s.hart.main.advance f.word f.size) } := by
  simp [VSpec.begun, VSpec.issued, State.setSt, hf, State.st]

theorem VSpec.begun_only (f : VSpec) (s : State) (hf : s.onFeeder = false) :
    f.begun s = { s with hart := (f.begun s).hart, atHead := true } := by
  simp [VSpec.begun, VSpec.issued, State.setSt, hf]

/-- The configuration is the same once the instruction has issued. -/
theorem VCfg.of_begun (f : VSpec) (s : State) (hf : s.onFeeder = false) (hq : s.hart.vq = []) :
    VCfg.of (f.begun s).hart (f.entry s) = s.vcfg := by
  rw [← VCfg.of_entry f s hf hq, f.begun_hart s hf]
  have h := LastDest.set_main f.lastd (s.hart.main.advance f.word f.size)
  simp [VCfg.of, h.1, h.2.1]

/-- A vector form that may issue is checked, and then executes at once (R162). -/
theorem runVector_ready (f : VSpec) (s : State) (k : PfxKind) (dst : Option (Nat × Nat)) (srcs : List (Nat × Nat))
    (bank : Prop) (regs : List Reg) (h : s.VecReady k dst srcs bank regs)
    (hk : f.pfx = k) (hd : f.dst (vtypeLmul s.st.vtype) = dst) (hs : f.srcs (vtypeLmul s.st.vtype) = srcs)
    (hb : bank → ∀ x y, f.bank = some (x, y) → x % 2 ≠ y % 2) (hr : f.lastd.regs ++ f.gs = regs)
    (hw : f.writes = false ∨ s.hart.late = []) :
    runVector f s = match f.check s.hart s.vcfg (f.gs.map s.rd) with
      | some (c, v) => .next (s.trap c v f.word)
      | none => if f.ready s = false then .next s.yield else match f.late s.hart s.vcfg (f.gs.map s.rd) with
        | some (c, v) => .next (s.trap c v f.word)
        | none => match f.run (f.entry s) (f.begun s) with
          | .done t => .next (t.setVq [])
          | .trap c v t => .next ((t.setVq []).trapAt c.code v (trapEpc 0 s.st) f.word)
          | .stop recs e t => .next ((t.setVq [e]).park 0b00010 recs)
          | .wait e t => .next (t.setVq [e]) := by
  obtain ⟨h1, h2, h3, h4, h5, h6, h7, h8, h9⟩ := h
  have hcopy : f.copyGroup s.st (vtypeLmul s.st.vtype) = none
      ∨ ∃ x, dst = some x ∧ f.copyGroup s.st (vtypeLmul s.st.vtype) = some ((pfxReg s.st.pfxd).toNat, x.2)
        ∧ (pfxReg s.st.pfxd).toNat + x.2 ≤ 32 ∧ ∀ y ∈ x :: srcs, Apart ((pfxReg s.st.pfxd).toNat, x.2) y := by
    unfold VSpec.copyGroup
    by_cases hp : s.st.pfxp = true ∧ pfxCen s.st.pfxd = true
    · obtain ⟨-, -, -, h10⟩ := h9 hp.1
      obtain ⟨-, x, hx, hx1, hx2⟩ := h10 hp.2
      exact .inr ⟨x, hx, by simp [hp, hd, hx], hx1, hx2⟩
    · exact .inl (by rw [if_neg hp])
  have hill : f.illenc s.st (vtypeLmul s.st.vtype) = false := by
    unfold VSpec.illenc
    simp only [Bool.or_eq_false_iff, hs, hd]
    refine ⟨⟨⟨?_, ?_⟩, ?_⟩, ?_⟩
    · cases hbk : f.bank with
      | none => rfl
      | some x => simpa using hb h6 x.1 x.2 hbk
    · simp only [List.any_eq_false]
      intro x hx
      have := h7 x hx
      simp [pastEnd]
      omega
    · cases hdd : dst with
      | none => rfl
      | some x =>
        have := h8 x hdd
        simp [pastEnd]
        omega
    · rcases hcopy with hc | ⟨x, -, hc, hc1, -⟩
      · simp [hc]
      · simp [hc, pastEnd]
        omega
  have hpfx : f.pfxbad s.st (vtypeLmul s.st.vtype) = false := by
    unfold VSpec.pfxbad
    by_cases hp : s.st.pfxp = true
    · obtain ⟨h10, h11, h12, h13⟩ := h9 hp
      have e0 : (f.pfx == PfxKind.never) = false := by simpa [hk] using h10
      have e1 : (pfxSrc s.st.pfxd == 0) = false := by
        simp only [beq_eq_false_iff_ne, ne_eq]
        intro e
        simp [e] at h11
      have e2 : (pfxCen s.st.pfxd && f.pfx != PfxKind.copy) = false := by
        cases hc : pfxCen s.st.pfxd with
        | false => rfl
        | true => simp [hk, (h13 hc).1]
      have e3 : decide (7 < (pfxSrc s.st.pfxd).toNat) = false := by
        simp
        omega
      simp only [hp, e0, e1, e2, e3, Bool.true_and, Bool.false_or]
      rcases hcopy with hc | ⟨x, hx, hc, -, hc2⟩
      · simp [hc]
      · have hm : ∀ y ∈ x :: srcs, groupsMeet ((pfxReg s.st.pfxd).toNat, x.2) y = false := by
          intro y hy
          have := hc2 y hy
          simp only [groupsMeet, Apart] at *
          simp
          omega
        simp only [hc, hs, hd, hx, Bool.or_eq_false_iff, List.any_eq_false, Bool.not_eq_true]
        exact ⟨fun y hy => hm y (by simp [hy]), hm x (by simp)⟩
    · simp [Bool.eq_false_iff.mpr hp]
  rw [← hr] at h5
  have hview : s.hart.issueView = s.hart := by simp [Hart.issueView, h4]
  have hbefore : f.beforeIssue s = s := by
    unfold VSpec.beforeIssue
    rcases hw with hw | hw <;> simp [hw]
  unfold runVector VSpec.issue
  simp only [hbefore, h1, h2, hill, hpfx, h3, h5, h4, Bool.false_eq_true, if_false, List.length_nil, ne_eq, not_true_eq_false,
    List.any_nil, or_false, Nat.not_le_of_lt (show 0 < 16 by omega), VCfg.of_entry f s h2 h4, State.trapInOrder,
    if_true, hview]
  rfl

/-! ## Bytes of vector registers -/

/-- A key names one register, row and byte (R151). -/
theorem vKey_inj {n r o n' r' o' : Nat} (hr : r < 8) (ho : o < 2048) (hr' : r' < 8) (ho' : o' < 2048) :
    vKey n r o = vKey n' r' o' ↔ n = n' ∧ r = r' ∧ o = o' := by
  unfold vKey
  omega

/-- A key names one mask, row and bit (R152). -/
theorem mKey_inj {n r e n' r' e' : Nat} (hr : r < 8) (he : e < 16384) (hr' : r' < 8) (he' : e' < 16384) :
    mKey n r e = mKey n' r' e' ↔ n = n' ∧ r = r' ∧ e = e' := by
  unfold mKey
  omega

/-- A row holds whole elements. -/
theorem rowElems_mul_le (g bw : Nat) : rowElems g bw * bw ≤ 192 * g := Nat.div_mul_le_self _ _

/-- An element lies within its row. -/
theorem elemKey_within {g bw e : Nat} (hg : g ≤ 8) (he : 0 < rowElems g bw) :
    e % rowElems g bw * bw + bw ≤ 1536 := by
  have h1 : e % rowElems g bw < rowElems g bw := Nat.mod_lt _ he
  have h2 : (e % rowElems g bw + 1) * bw ≤ rowElems g bw * bw := Nat.mul_le_mul_right _ h1
  have h3 := rowElems_mul_le g bw
  rw [Nat.add_mul] at h2
  omega

/-- An element reads what its bytes hold. -/
theorem elemRd_congr (v w : Sparse Byte) (g bw base row e : Nat)
    (h : ∀ i, i < bw → Sparse.get 0 v (elemKey g bw base row e + i) = Sparse.get 0 w (elemKey g bw base row e + i)) :
    elemRd v g bw base row e = elemRd w g bw base row e := by
  unfold elemRd Mem.readLe
  rw [Mem.bytes_congr v w _ _ h]

/-- An element that was just written. -/
theorem elemRd_elemWr (v : Sparse Byte) (g bw base row e x : Nat) :
    elemRd (elemWr v g bw base row e x) g bw base row e = x % 256 ^ bw := Mem.readLe_writeLe _ _ _ _

/-- Two elements of a group share no byte. -/
theorem elemKey_apart {g bw base r e r' e' : Nat} (hg : g ≤ 8) (hn : 0 < rowElems g bw) (hr : r < 8) (hr' : r' < 8)
    (hne : r ≠ r' ∨ e ≠ e') :
    elemKey g bw base r e + bw ≤ elemKey g bw base r' e' ∨ elemKey g bw base r' e' + bw ≤ elemKey g bw base r e := by
  have h1 := elemKey_within (g := g) (bw := bw) (e := e) hg hn
  have h2 := elemKey_within (g := g) (bw := bw) (e := e') hg hn
  unfold elemKey vKey
  by_cases hrow : (base + e / rowElems g bw) * 8 + r = (base + e' / rowElems g bw) * 8 + r'
  · have hee : r = r' ∧ e / rowElems g bw = e' / rowElems g bw := by omega
    have hm : e % rowElems g bw ≠ e' % rowElems g bw := by
      intro hm
      have a := Nat.div_add_mod e (rowElems g bw)
      have b := Nat.div_add_mod e' (rowElems g bw)
      rw [hee.2, hm] at a
      omega
    rcases Nat.lt_or_gt_of_ne hm with hlt | hgt
    · have := Nat.mul_le_mul_right bw (show e % rowElems g bw + 1 ≤ e' % rowElems g bw from hlt)
      rw [Nat.add_mul] at this
      omega
    · have := Nat.mul_le_mul_right bw (show e' % rowElems g bw + 1 ≤ e % rowElems g bw from hgt)
      rw [Nat.add_mul] at this
      omega
  · omega

/-- Writing one element leaves the others. -/
theorem elemRd_elemWr_ne (v : Sparse Byte) {g bw base r e r' e' : Nat} (x : Nat) (hg : g ≤ 8)
    (hn : 0 < rowElems g bw) (hr : r < 8) (hr' : r' < 8) (hne : r ≠ r' ∨ e ≠ e') :
    elemRd (elemWr v g bw base r e x) g bw base r' e' = elemRd v g bw base r' e' := by
  have h := elemKey_apart (base := base) hg hn hr hr' hne
  unfold elemRd elemWr Mem.writeLe
  exact Mem.readLe_setBytes_out _ _ _ _ _ (by rw [toLe_length]; omega)

/-- Writing one element leaves every byte outside it. -/
theorem get_elemWr_out (v : Sparse Byte) (g bw base r e x k : Nat)
    (h : ¬(elemKey g bw base r e ≤ k ∧ k < elemKey g bw base r e + bw)) :
    Sparse.get 0 (elemWr v g bw base r e x) k = Sparse.get 0 v k :=
  Mem.byte_setBytes_out _ _ _ _ (by rw [toLe_length]; exact h)

/-! ## Masks -/

/-- A mask bit after a write of one bit. -/
theorem maskRd_maskWr (m : Sparse Bool) {n r e n' r' e' : Nat} (x : Bool) (hr : r < 8) (he : e < 16384) (hr' : r' < 8)
    (he' : e' < 16384) :
    maskRd (maskWr m n r e x) n' r' e' = if n' = n ∧ r' = r ∧ e' = e then x else maskRd m n' r' e' := by
  unfold maskRd maskWr
  rw [Sparse.get_set]
  by_cases h : mKey n' r' e' = mKey n r e
  · rw [if_pos h, if_pos ((mKey_inj hr' he' hr he).mp h)]
  · rw [if_neg h, if_neg (fun k => h ((mKey_inj hr' he' hr he).mpr k))]

/-! ## Lists of positions -/

theorem VCfg.mem_positions (c : VCfg) (p : Nat × Nat) : p ∈ c.positions ↔ p.1 < c.rc ∧ p.2 < c.vl := by
  obtain ⟨r, e⟩ := p
  simp [VCfg.positions]

theorem VCfg.nodup_positions (c : VCfg) : c.positions.Nodup := by
  unfold VCfg.positions List.Nodup
  rw [List.pairwise_flatMap]
  refine ⟨fun r _ => ?_, ?_⟩
  · rw [List.pairwise_map]
    exact List.nodup_range.imp fun h k => h (by simpa using k)
  · refine List.nodup_range.imp fun hne x hx y hy k => hne ?_
    simp only [List.mem_map] at hx hy
    obtain ⟨_, _, rfl⟩ := hx
    obtain ⟨_, _, rfl⟩ := hy
    exact congrArg Prod.fst k

/-- A fold of writes at the positions of a list, read at a position of the list: what the one write there leaves. -/
theorem foldl_read_mem {α β γ : Type} [DecidableEq α] (step : β → α → β) (rd : β → α → γ) (val : α → γ → γ) (ok : α → Prop)
    (hself : ∀ b x, ok x → rd (step b x) x = val x (rd b x)) (hother : ∀ b x y, ok x → ok y → x ≠ y → rd (step b x) y = rd b y)
    (l : List α) (hl : ∀ x ∈ l, ok x) (hnd : l.Nodup) (b : β) (y : α) (hy : ok y) :
    rd (l.foldl step b) y = if y ∈ l then val y (rd b y) else rd b y := by
  induction l generalizing b with
  | nil => simp
  | cons x l ih =>
    have hx := hl x (by simp)
    rw [List.foldl_cons, ih (fun z hz => hl z (by simp [hz])) (List.nodup_cons.mp hnd).2]
    by_cases hxy : x = y
    · subst hxy
      rw [if_neg (List.nodup_cons.mp hnd).1, if_pos (by simp), hself b x hx]
    · rw [hother b x y hx hy hxy]
      simp [Ne.symm hxy]

/-! ## Destinations -/

/-- A filter on keys. -/
theorem Sparse.get_filter_key {α : Type} (d : α) (m : Sparse α) (f : Nat → Bool) (k : Nat) :
    Sparse.get d (m.filter fun x => f x.1) k = if f k then Sparse.get d m k else d := by
  induction m with
  | nil => simp [Sparse.get]
  | cons x m ih =>
    obtain ⟨j, y⟩ := x
    by_cases hj : f j = true
    · rw [List.filter_cons_of_pos (by simpa using hj)]
      simp only [Sparse.get]
      by_cases hk : j = k
      · subst hk
        simp [hj]
      · simp [hk, ih]
    · rw [List.filter_cons_of_neg (by simpa using hj), ih]
      by_cases hk : j = k
      · subst hk
        simp [hj]
      · simp [Sparse.get, hk]

/-- A byte of an element, as register, row and byte. -/
theorem elemKey_add (g bw base r e i : Nat) :
    elemKey g bw base r e + i = vKey (base + e / rowElems g bw) r (e % rowElems g bw * bw + i) := by
  unfold elemKey vKey
  omega

/-- A key, taken apart. -/
theorem vKey_parts {n r o : Nat} (hr : r < 8) (ho : o < 2048) :
    vKey n r o / 2048 / 8 = n ∧ vKey n r o / 2048 % 8 = r ∧ vKey n r o % 2048 = o := by
  unfold vKey
  omega

/-- The bytes that clearing the tail of a group keeps. -/
def keptByTail (c : VCfg) (bw base size k : Nat) : Bool :=
  !(decide (base ≤ k / 2048 / 8) && decide (k / 2048 / 8 < base + size) && decide (c.vrow ≤ k / 2048 % 8)
    && decide (k / 2048 % 8 < c.rc) && decide (c.vl ≤ (k / 2048 / 8 - base) * rowElems c.g bw + k % 2048 / bw))

theorem get_zeroTail (c : VCfg) (bw base size : Nat) (v : Sparse Byte) (k : Nat) :
    Sparse.get 0 (zeroTail c bw base size v) k = if keptByTail c bw base size k then Sparse.get 0 v k else 0 :=
  Sparse.get_filter_key 0 v (keptByTail c bw base size) k

/-- Clearing the tail leaves what lies outside the group. -/
theorem get_zeroTail_out (c : VCfg) (bw base size : Nat) (v : Sparse Byte) {n r o : Nat} (hr : r < 8) (ho : o < 2048)
    (h : n < base ∨ base + size ≤ n) :
    Sparse.get 0 (zeroTail c bw base size v) (vKey n r o) = Sparse.get 0 v (vKey n r o) := by
  have hp := vKey_parts (n := n) hr ho
  rw [get_zeroTail, if_pos]
  unfold keptByTail
  simp only [hp.1, hp.2.1, hp.2.2]
  rcases h with h | h
  · simp [Nat.not_le_of_lt h]
  · simp [Nat.not_lt_of_le h]

/-- Clearing the tail, at an element of the group. -/
theorem elemRd_zeroTail (c : VCfg) {bw base size r e : Nat} (v : Sparse Byte) (hg : c.g ≤ 8) (hb : 0 < bw) (hr : r < 8)
    (he : e < size * rowElems c.g bw) :
    elemRd (zeroTail c bw base size v) c.g bw base r e
      = if c.vrow ≤ r ∧ r < c.rc ∧ c.vl ≤ e then 0 else elemRd v c.g bw base r e := by
  have hn : 0 < rowElems c.g bw := by
    rcases Nat.eq_zero_or_pos (rowElems c.g bw) with h | h
    · simp [h] at he
    · exact h
  have hw := elemKey_within (g := c.g) (bw := bw) (e := e) hg hn
  have hd : e / rowElems c.g bw < size := (Nat.div_lt_iff_lt_mul hn).mpr he
  have hsum : e / rowElems c.g bw * rowElems c.g bw + e % rowElems c.g bw = e := by
    rw [Nat.mul_comm]
    exact Nat.div_add_mod _ _
  have key : ∀ i, i < bw → Sparse.get 0 (zeroTail c bw base size v) (elemKey c.g bw base r e + i)
      = if c.vrow ≤ r ∧ r < c.rc ∧ c.vl ≤ e then 0 else Sparse.get 0 v (elemKey c.g bw base r e + i) := by
    intro i hi
    have hp := vKey_parts (n := base + e / rowElems c.g bw) (o := e % rowElems c.g bw * bw + i) hr (by omega)
    have hq : (e % rowElems c.g bw * bw + i) / bw = e % rowElems c.g bw := by
      rw [Nat.mul_comm, Nat.mul_add_div hb, Nat.div_eq_of_lt hi, Nat.add_zero]
    rw [get_zeroTail, elemKey_add]
    unfold keptByTail
    simp only [hp.1, hp.2.1, hp.2.2, hq]
    have e1 : base + e / rowElems c.g bw - base = e / rowElems c.g bw := Nat.add_sub_cancel_left _ _
    rw [e1, hsum]
    by_cases h : c.vrow ≤ r ∧ r < c.rc ∧ c.vl ≤ e
    · rw [if_pos h, if_neg]
      simp [h.1, h.2.1, h.2.2, hd]
    · rw [if_neg h, if_pos]
      simp only [Bool.not_eq_true', Bool.and_eq_false_iff, decide_eq_false_iff_not]
      omega
  by_cases h : c.vrow ≤ r ∧ r < c.rc ∧ c.vl ≤ e
  · rw [if_pos h]
    have hz : ∀ i, i < bw → Sparse.get 0 (zeroTail c bw base size v) (elemKey c.g bw base r e + i)
        = Sparse.get 0 ([] : Sparse Byte) (elemKey c.g bw base r e + i) := fun i hi => by rw [key i hi, if_pos h]; rfl
    rw [elemRd_congr _ _ _ _ _ _ _ hz]
    unfold elemRd Mem.readLe
    have : ∀ a n, leNat (Mem.bytes [] a n) = 0 := by
      intro a n
      induction n generalizing a with
      | zero => rfl
      | succ n ih => simp [Mem.bytes, Mem.byte, Sparse.get, leNat, ih]
    exact this _ _
  · rw [if_neg h]
    exact elemRd_congr _ _ _ _ _ _ _ fun i hi => by rw [key i hi, if_neg h]

/-- The write at one position of a destination. -/
def posWrite (c : VCfg) (act : Nat → Nat → Bool) (f : Nat → Nat → Nat) (base bw : Nat) (w : Sparse Byte) (p : Nat × Nat) :
    Sparse Byte :=
  if !c.started p.1 p.2 then w
  else if act p.1 p.2 then elemWr w c.g bw base p.1 p.2 (f p.1 p.2)
  else if c.mp then elemWr w c.g bw base p.1 p.2 0 else w

/-- What a write of a destination group leaves at each of its elements (R156). -/
theorem elemRd_writeOne (c : VCfg) (act : Nat → Nat → Bool) (f : Nat → Nat → Nat) {base bw size r e : Nat} (v : Sparse Byte)
    (hc : c.Fits bw size) (hb : 0 < bw) (hr : r < 8) (he : e < size * rowElems c.g bw) :
    elemRd (writeOne c act f base bw size v) c.g bw base r e
      = c.after act 0 r e (f r e % 2 ^ (8 * bw)) (elemRd v c.g bw base r e) := by
  obtain ⟨-, hg, hrc, hvl⟩ := hc
  have hn : 0 < rowElems c.g bw := by
    rcases Nat.eq_zero_or_pos (rowElems c.g bw) with h | h
    · simp [h] at he
    · exact h
  have hpow : (256 : Nat) ^ bw = 2 ^ (8 * bw) := by rw [show (256 : Nat) = 2 ^ 8 from rfl, ← Nat.pow_mul]
  have hval : ∀ w p, elemRd (posWrite c act f base bw w p) c.g bw base p.1 p.2
      = if c.started p.1 p.2 then if act p.1 p.2 then f p.1 p.2 % 2 ^ (8 * bw)
        else if c.mp then 0 else elemRd w c.g bw base p.1 p.2 else elemRd w c.g bw base p.1 p.2 := by
    intro w p
    unfold posWrite
    cases c.started p.1 p.2 <;> cases act p.1 p.2 <;> cases c.mp <;> simp [elemRd_elemWr, hpow]
  have hoth : ∀ w p q, p.1 < 8 → q.1 < 8 → p ≠ q →
      elemRd (posWrite c act f base bw w p) c.g bw base q.1 q.2 = elemRd w c.g bw base q.1 q.2 := by
    intro w p q hp hq hne
    have hne' : p.1 ≠ q.1 ∨ p.2 ≠ q.2 := by
      by_cases h : p.1 = q.1
      · exact .inr fun k => hne (Prod.ext h k)
      · exact .inl h
    unfold posWrite
    split
    · rfl
    · split
      · exact elemRd_elemWr_ne _ _ hg hn hp hq hne'
      · split
        · exact elemRd_elemWr_ne _ _ hg hn hp hq hne'
        · rfl
  have hfold := foldl_read_mem (posWrite c act f base bw) (fun w p => elemRd w c.g bw base p.1 p.2)
    (fun p old => if c.started p.1 p.2 then if act p.1 p.2 then f p.1 p.2 % 2 ^ (8 * bw) else if c.mp then 0 else old else old)
    (fun p => p.1 < 8) (fun b x _ => hval b x) (fun b x y hx hy hne => hoth b x y hx hy hne) c.positions
    (fun x hx => by have := (c.mem_positions x).mp hx; omega) c.nodup_positions v (r, e) hr
  have hmem : (r, e) ∈ c.positions ↔ r < c.rc ∧ e < c.vl := c.mem_positions (r, e)
  have hstart : c.started r e = true ↔ c.vrow * 65536 + c.velem ≤ r * 65536 + e := by simp [VCfg.started]
  have hbody : elemRd (c.positions.foldl (posWrite c act f base bw) v) c.g bw base r e
      = if r < c.rc ∧ e < c.vl ∧ c.vrow * 65536 + c.velem ≤ r * 65536 + e then
          if act r e = true then f r e % 2 ^ (8 * bw) else if c.mp = true then 0 else elemRd v c.g bw base r e
        else elemRd v c.g bw base r e := by
    dsimp only at hfold
    rw [hfold]
    by_cases h1 : r < c.rc ∧ e < c.vl
    · rw [if_pos (hmem.mpr h1)]
      by_cases h2 : c.vrow * 65536 + c.velem ≤ r * 65536 + e
      · rw [if_pos (hstart.mpr h2), if_pos (c := r < c.rc ∧ _) ⟨h1.1, h1.2, h2⟩]
      · rw [if_neg (fun k => h2 (hstart.mp k)), if_neg (fun k => h2 k.2.2)]
    · rw [if_neg (fun k => h1 (hmem.mp k)), if_neg (fun k => h1 ⟨k.1, k.2.1⟩)]
  have hone : writeOne c act f base bw size v = if c.tp then zeroTail c bw base size
      (c.positions.foldl (posWrite c act f base bw) v) else c.positions.foldl (posWrite c act f base bw) v := rfl
  rw [hone]
  unfold VCfg.after
  by_cases htp : c.tp = true
  · rw [if_pos htp, elemRd_zeroTail c _ hg hb hr he, hbody]
    by_cases h1 : r < c.rc ∧ e < c.vl ∧ c.vrow * 65536 + c.velem ≤ r * 65536 + e
    · rw [if_pos h1, if_pos h1, if_neg (fun k => Nat.not_le_of_lt h1.2.1 k.2.2)]
    · rw [if_neg h1, if_neg h1]
      by_cases h2 : c.vrow ≤ r ∧ r < c.rc ∧ c.vl ≤ e
      · rw [if_pos h2, if_pos ⟨htp, h2⟩]
      · rw [if_neg h2, if_neg (fun k => h2 k.2)]
  · rw [if_neg htp, hbody]
    by_cases h1 : r < c.rc ∧ e < c.vl ∧ c.vrow * 65536 + c.velem ≤ r * 65536 + e
    · rw [if_pos h1, if_pos h1]
    · rw [if_neg h1, if_neg h1, if_neg (fun k => htp k.1)]

/-- A write of a destination group leaves the other registers (R156). -/
theorem get_writeOne_out (c : VCfg) (act : Nat → Nat → Bool) (f : Nat → Nat → Nat) {base bw size n r o : Nat} (v : Sparse Byte)
    (hc : c.Fits bw size) (hr : r < 8) (ho : o < 2048) (h : n < base ∨ base + size ≤ n) :
    Sparse.get 0 (writeOne c act f base bw size v) (vKey n r o) = Sparse.get 0 v (vKey n r o) := by
  obtain ⟨-, hg, hrc, hvl⟩ := hc
  have hwr : ∀ (p : Nat × Nat) x (w : Sparse Byte), p ∈ c.positions →
      Sparse.get 0 (elemWr w c.g bw base p.1 p.2 x) (vKey n r o) = Sparse.get 0 w (vKey n r o) := by
    intro p x w hp
    obtain ⟨hp1, hp2⟩ := (c.mem_positions p).mp hp
    have hn : 0 < rowElems c.g bw := by
      rcases Nat.eq_zero_or_pos (rowElems c.g bw) with h0 | h0
      · simp [h0] at hvl
        omega
      · exact h0
    have hw := elemKey_within (g := c.g) (bw := bw) (e := p.2) hg hn
    have hd : p.2 / rowElems c.g bw < size := (Nat.div_lt_iff_lt_mul hn).mpr (Nat.lt_of_lt_of_le hp2 hvl)
    refine get_elemWr_out _ _ _ _ _ _ _ _ ?_
    unfold elemKey vKey
    generalize p.2 / rowElems c.g bw = q at hd ⊢
    generalize p.2 % rowElems c.g bw * bw = x at hw ⊢
    omega
  have hfold : ∀ (l : List (Nat × Nat)) (w : Sparse Byte), (∀ p ∈ l, p ∈ c.positions) →
      Sparse.get 0 (l.foldl (posWrite c act f base bw) w) (vKey n r o) = Sparse.get 0 w (vKey n r o) := by
    intro l
    induction l with
    | nil => intro w _; rfl
    | cons p l ih =>
      intro w hl
      rw [List.foldl_cons, ih _ fun q hq => hl q (by simp [hq])]
      unfold posWrite
      split
      · rfl
      · split
        · exact hwr p _ w (hl p (by simp))
        · split
          · exact hwr p _ w (hl p (by simp))
          · rfl
  have hone : writeOne c act f base bw size v = if c.tp then zeroTail c bw base size
      (c.positions.foldl (posWrite c act f base bw) v) else c.positions.foldl (posWrite c act f base bw) v := rfl
  rw [hone]
  split
  · rw [get_zeroTail_out c bw base size _ hr ho h, hfold _ _ fun _ hp => hp]
  · exact hfold _ _ fun _ hp => hp

/-- A write of one group leaves the elements of a group apart from it. -/
theorem elemRd_writeOne_apart (c : VCfg) (act : Nat → Nat → Bool) (f : Nat → Nat → Nat) {base other bw size r e : Nat}
    (v : Sparse Byte) (hc : c.Fits bw size) (hr : r < 8) (he : e < size * rowElems c.g bw)
    (h : other + size ≤ base ∨ base + size ≤ other) :
    elemRd (writeOne c act f base bw size v) c.g bw other r e = elemRd v c.g bw other r e := by
  have hn : 0 < rowElems c.g bw := by
    rcases Nat.eq_zero_or_pos (rowElems c.g bw) with h | h
    · simp [h] at he
    · exact h
  have hw := elemKey_within (g := c.g) (bw := bw) (e := e) hc.2.1 hn
  have hd : e / rowElems c.g bw < size := (Nat.div_lt_iff_lt_mul hn).mpr he
  refine elemRd_congr _ _ _ _ _ _ _ fun i hi => ?_
  rw [elemKey_add]
  generalize e / rowElems c.g bw = q at hd ⊢
  exact get_writeOne_out c act f v hc hr (by omega) (by omega)

/-- A destination group and its prefix copy, written by position class (R70, R156). -/
theorem vecWrote_writeGroup (s t : State) (c : VCfg) (act : Nat → Nat → Bool) (f : Nat → Nat → Nat) {base bw size : Nat}
    (hc : c.Fits bw size) (hb : 0 < bw) (hcopy : ∀ cb, c.copyBase = some cb → Apart (cb, size) (base, size))
    (hv : t.hart.v = writeGroup c act f base bw size s.hart.v) : s.VecWrote t c act bw size base f := by
  unfold writeGroup at hv
  unfold State.VecWrote
  cases hcb : c.copyBase with
  | none =>
    simp only [hcb] at hv
    refine ⟨fun b hb' r e hr he => ?_, fun n r o hr ho hn => ?_⟩
    · simp only [Option.toList, List.mem_singleton] at hb'
      subst hb'
      rw [hv]
      exact elemRd_writeOne c act f _ hc hb hr he
    · rw [hv]
      exact get_writeOne_out c act f _ hc hr ho (hn base (by simp))
  | some cb =>
    simp only [hcb] at hv
    have hap := hcopy cb hcb
    simp only [Apart] at hap
    refine ⟨fun b hb' r e hr he => ?_, fun n r o hr ho hn => ?_⟩
    · simp only [Option.toList, List.mem_cons, List.not_mem_nil, or_false] at hb'
      rw [hv]
      rcases hb' with rfl | rfl
      · rw [elemRd_writeOne_apart c act f _ hc hr he (by omega)]
        exact elemRd_writeOne c act f _ hc hb hr he
      · rw [elemRd_writeOne c act f _ hc hb hr he, elemRd_writeOne_apart c act f _ hc hr he (by omega)]
    · rw [hv, get_writeOne_out c act f _ hc hr ho (hn cb (by simp)), get_writeOne_out c act f _ hc hr ho (hn base (by simp))]

/-- The write at one position of a mask. -/
def posMask (c : VCfg) (act f : Nat → Nat → Bool) (n : Nat) (w : Sparse Bool) (p : Nat × Nat) : Sparse Bool :=
  if !c.started p.1 p.2 then w
  else if act p.1 p.2 then maskWr w n p.1 p.2 (f p.1 p.2)
  else if c.mp then maskWr w n p.1 p.2 false else w

/-- What a write of a mask leaves at each bit of every mask (R171). -/
theorem maskRd_writeMask (c : VCfg) (act f : Nat → Nat → Bool) (d : Nat) (m : Sparse Bool) {n r e : Nat}
    (hrc : c.rc ≤ 8) (hvl : c.vl ≤ 16384) (hr : r < 8) (he : e < 16384) :
    maskRd (writeMask c act f d m) n r e
      = if n = d then c.after act false r e (f r e) (maskRd m d r e) else maskRd m n r e := by
  let ok : Nat × Nat → Prop := fun p => p.1 < 8 ∧ p.2 < 16384
  have hval : ∀ w p, ok p → maskRd (posMask c act f d w p) n p.1 p.2
      = if n = d ∧ c.started p.1 p.2 then if act p.1 p.2 then f p.1 p.2 else if c.mp then false else maskRd w n p.1 p.2
        else maskRd w n p.1 p.2 := by
    intro w p hp
    unfold posMask
    by_cases hnd : n = d
    · cases c.started p.1 p.2 <;> cases act p.1 p.2 <;> cases c.mp <;>
        simp [maskRd_maskWr w _ hp.1 hp.2 hp.1 hp.2, hnd]
    · cases c.started p.1 p.2 <;> cases act p.1 p.2 <;> cases c.mp <;>
        simp [maskRd_maskWr w _ hp.1 hp.2 hp.1 hp.2, hnd]
  have hoth : ∀ w p q, ok p → ok q → p ≠ q → maskRd (posMask c act f d w p) n q.1 q.2 = maskRd w n q.1 q.2 := by
    intro w p q hp hq hne
    have hne' : ¬(n = d ∧ q.1 = p.1 ∧ q.2 = p.2) := fun k => hne (Prod.ext k.2.1.symm k.2.2.symm)
    unfold posMask
    split
    · rfl
    · split
      · rw [maskRd_maskWr w _ hp.1 hp.2 hq.1 hq.2, if_neg hne']
      · split
        · rw [maskRd_maskWr w _ hp.1 hp.2 hq.1 hq.2, if_neg hne']
        · rfl
  have hfold := foldl_read_mem (posMask c act f d) (fun w p => maskRd w n p.1 p.2)
    (fun p old => if n = d ∧ c.started p.1 p.2 then if act p.1 p.2 then f p.1 p.2 else if c.mp then false else old else old)
    ok hval hoth c.positions
    (fun x hx => by have := (c.mem_positions x).mp hx; exact ⟨by omega, by omega⟩) c.nodup_positions m (r, e) ⟨hr, he⟩
  have hmem : (r, e) ∈ c.positions ↔ r < c.rc ∧ e < c.vl := c.mem_positions (r, e)
  have hstart : c.started r e = true ↔ c.vrow * 65536 + c.velem ≤ r * 65536 + e := by simp [VCfg.started]
  have hbody : maskRd (c.positions.foldl (posMask c act f d) m) n r e
      = if n = d ∧ r < c.rc ∧ e < c.vl ∧ c.vrow * 65536 + c.velem ≤ r * 65536 + e then
          if act r e = true then f r e else if c.mp = true then false else maskRd m n r e
        else maskRd m n r e := by
    dsimp only at hfold
    rw [hfold]
    by_cases h1 : r < c.rc ∧ e < c.vl
    · rw [if_pos (hmem.mpr h1)]
      by_cases h2 : n = d ∧ c.vrow * 65536 + c.velem ≤ r * 65536 + e
      · rw [if_pos ⟨h2.1, hstart.mpr h2.2⟩, if_pos (c := n = d ∧ r < c.rc ∧ _) ⟨h2.1, h1.1, h1.2, h2.2⟩]
      · rw [if_neg (fun k => h2 ⟨k.1, hstart.mp k.2⟩), if_neg (fun k => h2 ⟨k.1, k.2.2.2⟩)]
    · rw [if_neg (fun k => h1 (hmem.mp k)), if_neg (fun k => h1 ⟨k.2.1, k.2.2.1⟩)]
  have hone : writeMask c act f d m = if c.tp then (c.positions.foldl (posMask c act f d) m).filter (fun x =>
      !(x.1 / 16384 / 8 == d && decide (c.vrow ≤ x.1 / 16384 % 8) && decide (x.1 / 16384 % 8 < c.rc)
        && decide (c.vl ≤ x.1 % 16384))) else c.positions.foldl (posMask c act f d) m := rfl
  have hp : mKey n r e / 16384 / 8 = n ∧ mKey n r e / 16384 % 8 = r ∧ mKey n r e % 16384 = e := by
    unfold mKey
    omega
  have htail : maskRd (writeMask c act f d m) n r e
      = if c.tp = true ∧ n = d ∧ c.vrow ≤ r ∧ r < c.rc ∧ c.vl ≤ e then false
        else maskRd (c.positions.foldl (posMask c act f d) m) n r e := by
    rw [hone]
    by_cases htp : c.tp = true
    · rw [if_pos htp]
      refine (Sparse.get_filter_key false _ (fun k => !(k / 16384 / 8 == d && decide (c.vrow ≤ k / 16384 % 8)
        && decide (k / 16384 % 8 < c.rc) && decide (c.vl ≤ k % 16384))) _).trans ?_
      simp only [hp.1, hp.2.1, hp.2.2]
      by_cases h : n = d ∧ c.vrow ≤ r ∧ r < c.rc ∧ c.vl ≤ e
      · rw [if_neg, if_pos ⟨htp, h⟩]
        simp [h.1, h.2.1, h.2.2.1, h.2.2.2]
      · rw [if_pos, if_neg fun k => h k.2]
        · rfl
        · simp only [Bool.not_eq_true', Bool.and_eq_false_iff, decide_eq_false_iff_not, beq_eq_false_iff_ne]
          omega
    · rw [if_neg htp, if_neg fun k => htp k.1]
  rw [htail, hbody]
  unfold VCfg.after
  by_cases hnd : n = d
  · subst hnd
    rw [if_pos rfl]
    by_cases h1 : r < c.rc ∧ e < c.vl ∧ c.vrow * 65536 + c.velem ≤ r * 65536 + e
    · rw [if_neg (fun k => Nat.not_le_of_lt h1.2.1 k.2.2.2.2), if_pos ⟨rfl, h1⟩, if_pos h1]
    · rw [if_neg (c := n = n ∧ _) (fun k => h1 k.2), if_neg h1]
      by_cases h2 : c.tp = true ∧ c.vrow ≤ r ∧ r < c.rc ∧ c.vl ≤ e
      · rw [if_pos ⟨h2.1, rfl, h2.2⟩, if_pos h2]
      · rw [if_neg (fun k => h2 ⟨k.1, k.2.2⟩), if_neg h2]
  · rw [if_neg (fun k => hnd k.2.1), if_neg (fun k => hnd k.1), if_neg hnd]

/-! ## Elementwise instructions -/

/-- The OR of flags over a list of positions. -/
theorem getLsbD_foldl_flags {α : Type} (act : α → Bool) (fl : α → Flags) (l : List α) (z : Flags) (j : Nat) :
    (l.foldl (fun a p => if act p then a ||| fl p else a) z).getLsbD j = true
      ↔ z.getLsbD j = true ∨ ∃ p ∈ l, act p = true ∧ (fl p).getLsbD j = true := by
  induction l generalizing z with
  | nil => simp
  | cons x l ih =>
    rw [List.foldl_cons, ih]
    cases hx : act x
    · simp [hx]
    · simp [hx, or_assoc]

/-- A counter of the RAS unit changes nothing else (R457). -/
theorem State.count_only (s : State) (d k n : Nat) :
    s.count d k n = { s with hub := { s.hub with rascnt := (s.count d k n).hub.rascnt } } := by
  unfold State.count
  split <;> rfl

/-- A write of vector registers changes nothing but them, their poison and the RAS counters. -/
theorem State.putV_only (s : State) (v : Sparse Byte) (p : List Nat) :
    s.putV v p = { s with hart := { s.hart with v := v, poison := p }
                          hub := { s.hub with rascnt := (s.putV v p).hub.rascnt } } := by
  unfold State.putV
  rw [State.count_only]

/-- The effect of an elementwise instruction under a configuration. -/
theorem Elem.run_eq (i : Elem) (e : VEntry) (s : State) (c : VCfg) (hc : VCfg.of s.hart e = c) :
    i.run e s = ((s.orFlags (c.positions.foldl (fun a p => if c.active s.hart.m i.mask p.1 p.2
        then a ||| (i.value s.hart c e.ops p.1 p.2).2 else a) (0 : Flags))).mapWrite c (c.active s.hart.m i.mask)
      ⟨i.d.toNat, i.dw.bytes c.b, i.dw.size c.lmul⟩ (i.groups c) (c.maskRegs i.k.toNat) none fun r j => (i.value s.hart c e.ops r j).1).vdone := by
  subst hc
  rfl

/-- An elementwise instruction that may execute completes, with its values and flags by position (R156, R172, R173). -/
theorem Elem.runVector_ready (i : Elem) (s : State) (dst : Option (Nat × Nat)) (srcs : List (Nat × Nat)) (bank : Prop)
    (regs : List Reg) (h : s.VecReady .copy dst srcs bank regs)
    (hd : i.spec.dst (vtypeLmul s.st.vtype) = dst) (hs : i.spec.srcs (vtypeLmul s.st.vtype) = srcs)
    (hb : bank → ∀ x y, i.spec.bank = some (x, y) → x % 2 ≠ y % 2) (hr : i.spec.lastd.regs ++ i.spec.gs = regs)
    (hbad : i.bad s.vcfg = false) (hbw : 0 < i.dw.bytes s.vcfg.b)
    (hc : s.vcfg.Fits (i.dw.bytes s.vcfg.b) (i.dw.size s.vcfg.lmul))
    (hf : ∀ x : Hart, x.v = s.hart.v → x.m = s.hart.m → i.f x = i.f s.hart) :
    ∃ t fl, runVector i.spec s = .next t
      ∧ t.st = { s.st with lastV := i.d, flags := s.st.flags ||| fl, pc := s.st.pc + 4, pfxp := false, vstart := 0
                           sig := sigAdd s.st.sig i.word 4 }
      ∧ { t with hart := { t.hart with main := s.hart.main, v := s.hart.v, m := s.hart.m, poison := s.hart.poison,
                                         vcount := s.hart.vcount }
                 hub := { t.hub with rascnt := s.hub.rascnt } } = s
      ∧ t.hart.vcount = s.hart.vcount + 1 ∧ t.hart.m = s.hart.m
      ∧ s.vcfg.Flags (s.vcfg.active s.hart.m i.mask) (fun r e => (i.value s.hart s.vcfg (i.spec.gs.map s.rd) r e).2) fl
      ∧ s.VecWrote t s.vcfg (s.vcfg.active s.hart.m i.mask) (i.dw.bytes s.vcfg.b) (i.dw.size s.vcfg.lmul) i.d.toNat
          fun r e => (i.value s.hart s.vcfg (i.spec.gs.map s.rd) r e).1 := by
  have hfeed := h.2.1
  have hvq := h.2.2.2.1
  have hhead := h.1
  have hap := h.2.2.2.2.2.2.2.2
  have hl : s.vcfg.lmul = vtypeLmul s.st.vtype := rfl
  rw [Machine.runVector_ready i.spec s .copy dst srcs bank regs h rfl hd hs hb hr (.inl rfl)]
  have hchk : i.spec.check s.hart s.vcfg (i.spec.gs.map s.rd) = none := by
    show illopIf i.word (i.bad s.vcfg) = none
    simp [illopIf, hbad]
  have hh := i.spec.begun_hart s hfeed
  have hv : (i.spec.begun s).hart.v = s.hart.v := by rw [hh]
  have hm : (i.spec.begun s).hart.m = s.hart.m := by rw [hh]
  have hval : ∀ r e, i.value (i.spec.begun s).hart s.vcfg (i.spec.gs.map s.rd) r e
      = i.value s.hart s.vcfg (i.spec.gs.map s.rd) r e := by
    intro r e
    unfold Elem.value
    rw [hv, hf _ hv hm]
  let fl := s.vcfg.positions.foldl (fun a p => if s.vcfg.active s.hart.m i.mask p.1 p.2
    then a ||| (i.value s.hart s.vcfg (i.spec.gs.map s.rd) p.1 p.2).2 else a) (0 : Flags)
  let s1 := (i.spec.begun s).orFlags fl
  let s2 := s1.mapWrite s.vcfg (s.vcfg.active s.hart.m i.mask) ⟨i.d.toNat, i.dw.bytes s.vcfg.b, i.dw.size s.vcfg.lmul⟩
    (i.groups s.vcfg) (s.vcfg.maskRegs i.k.toNat) none fun r e => (i.value s.hart s.vcfg (i.spec.gs.map s.rd) r e).1
  have hrun : i.spec.run (i.spec.entry s) (i.spec.begun s) = s2.vdone := by
    show i.run (i.spec.entry s) (i.spec.begun s) = s2.vdone
    rw [i.run_eq _ _ _ (VCfg.of_begun i.spec s hfeed hvq)]
    have hops : (i.spec.entry s).ops = i.spec.gs.map s.rd := rfl
    simp only [hops, hval, hm]
    rfl
  have hs1 : s1 = { s with hart := { s.hart with main := { i.spec.lastd.set (s.hart.main.advance i.word 4) with
      flags := s.hart.main.flags ||| fl } }, atHead := true } := by
    have h7 := (LastDest.set_main i.spec.lastd (s.hart.main.advance i.word 4)).2.2.2.2.2.2
    show (i.spec.begun s).orFlags fl = _
    rw [i.spec.begun_only s hfeed, hh]
    unfold State.orFlags
    show ({ s with hart := { s.hart with main := { i.spec.lastd.set (s.hart.main.advance i.word 4) with
      flags := (i.spec.lastd.set (s.hart.main.advance i.word 4)).flags ||| fl } }, atHead := true } : State) = _
    rw [h7]
    rfl
  have hlast : i.spec.lastd = .v i.d := rfl
  have hrdy : i.spec.ready s = true := rfl
  have hlate : i.spec.late s.hart s.vcfg (i.spec.gs.map s.rd) = none := rfl
  simp only [hchk, hrdy, hlate, hrun, State.vdone, Bool.true_eq_false, if_false]
  refine ⟨_, fl, rfl, ?_, ?_, ?_, ?_, ?_, ?_⟩
  · simp only [s2, State.mapWrite, State.st, State.setVq]
    rw [State.putV_only]
    simp [hs1, hfeed, hlast, LastDest.set, Stream.advance]
  · have heta : s = { s with hart := { s.hart with vq := [] }, atHead := false } := by rw [← hvq, ← hhead]
    simp only [s2, State.mapWrite, State.setVq]
    rw [State.putV_only]
    simp only [hs1]
    exact heta.symm
  · simp only [s2, State.mapWrite, State.setVq]
    rw [State.putV_only]
    simp [hs1]
  · simp only [s2, State.mapWrite, State.setVq]
    rw [State.putV_only]
    simp [hs1]
  · intro j
    rw [show fl.getLsbD j = true ↔ _ from getLsbD_foldl_flags (fun p : Nat × Nat => s.vcfg.active s.hart.m i.mask p.1 p.2)
      (fun p => (i.value s.hart s.vcfg (i.spec.gs.map s.rd) p.1 p.2).2) s.vcfg.positions 0 j]
    constructor
    · rintro (h0 | ⟨p, hp, ha, hj⟩)
      · simp at h0
      · exact ⟨p.1, p.2, ((s.vcfg.mem_positions p).mp hp).1, ((s.vcfg.mem_positions p).mp hp).2, ha, hj⟩
    · rintro ⟨r, e, h1, h2, ha, hj⟩
      exact .inr ⟨(r, e), (s.vcfg.mem_positions _).mpr ⟨h1, h2⟩, ha, hj⟩
  · refine vecWrote_writeGroup s _ s.vcfg _ _ hc hbw ?_ ?_
    · intro cb hcb
      unfold VCfg.copyBase at hcb
      have hpfx : s.vcfg.pfx = if s.st.pfxp then some s.st.pfxd else none := rfl
      rw [hpfx] at hcb
      by_cases hp : s.st.pfxp = true
      · simp only [hp, if_true] at hcb
        by_cases hcen : pfxCen s.st.pfxd = true
        · simp only [hcen, if_true, Option.some.injEq] at hcb
          obtain ⟨-, -, -, h13⟩ := hap hp
          obtain ⟨-, x, hx, -, hx2⟩ := h13 hcen
          have hxd : x = (i.d.toNat, i.dw.size s.vcfg.lmul) := by
            rw [← hd] at hx
            exact (Option.some.inj hx).symm
          have := hx2 x (by simp)
          rw [← hcb]
          rw [hxd] at this
          exact this
        · simp [hcen] at hcb
      · simp [hp] at hcb
    · simp only [s2, State.mapWrite, State.setVq]
      rw [State.putV_only]
      simp [hs1]

end Sys2Proof.Machine
end

