-- ==== Sys2Proof/Tests/Slice0.lean ====
section
/-! SUPPORT. Tests: ill-formed instructions, a word of every encoding written out from spec/02, the spec's worked examples
on one instruction each, and for every statement with hypotheses a state and operands that meet them. -/

set_option Elab.async false

namespace Sys2Proof.Machine

/-! ## Ill-formed instructions are refused (R42-R64, R67) -/

theorem test_illformed_scalar :
    Instr.wf (.cAdd 0 0) = false ∧ Instr.wf (.csrr 5 0x004) = false ∧ Instr.wf (.csrw 5 6 0x029) = false
    ∧ Instr.wf (.csrset 5 6 0x012) = false ∧ Instr.wf (.csrclr 5 6 0xFFF) = false
    ∧ Instr.wf (.qpsh 5 6) = false ∧ Instr.wf (.qpop 5 6) = false ∧ Instr.wf (.qcnt 5 7) = false
    ∧ Instr.wf (.amoadd 5 6 7 6 1 1 1) = false ∧ Instr.wf (.amoswp 5 6 7 1 0 0 1) = false
    ∧ Instr.wf (.amocas 5 6 7 5 0 1 1) = false ∧ Instr.wf (.amoand 5 6 7 7 1 1 0) = false
    ∧ Instr.wf (.amoor 5 6 7 3 0 0 0) = false ∧ Instr.wf (.amoxor 5 6 7 5 0 1 0) = false
    ∧ Instr.wf (.amomin 5 6 7 6 1 0 0) = false ∧ Instr.wf (.amomax 5 6 7 4 0 0 0) = false
    ∧ Instr.wf (.amominu 5 6 7 2 0 0 0) = false ∧ Instr.wf (.amomaxu 5 6 7 6 0 1 0) = false
    ∧ Instr.wf (.lda 5 6 5 0) = false ∧ Instr.wf (.stl 5 6 6 0) = false := by decide
theorem test_illformed_fp :
    Instr.wf (.fadd 5 6 7 0 4) = false ∧ Instr.wf (.fsub 5 6 7 6 0) = false ∧ Instr.wf (.fmul 5 6 7 7 0) = false
    ∧ Instr.wf (.fdiv 5 6 7 0 7) = false ∧ Instr.wf (.fma 5 6 7 6 0) = false ∧ Instr.wf (.fmsub 5 6 7 0 5) = false
    ∧ Instr.wf (.fnma 5 6 7 0 4) = false ∧ Instr.wf (.fsqrt 5 6 6 0) = false ∧ Instr.wf (.fmin 5 6 7 4) = false
    ∧ Instr.wf (.fmax 5 6 7 5) = false ∧ Instr.wf (.feq 5 6 7 6) = false ∧ Instr.wf (.flt 5 6 7 7) = false
    ∧ Instr.wf (.fle 5 6 7 4) = false ∧ Instr.wf (.funord 5 6 7 4) = false ∧ Instr.wf (.fclass 5 6 4) = false
    ∧ Instr.wf (.fsign 5 6 7 5 0) = false ∧ Instr.wf (.fsign 5 6 7 3 0) = false
    ∧ Instr.wf (.fcvt 5 6 1 0 1) = false ∧ Instr.wf (.fcvt 5 6 4 0 5) = false ∧ Instr.wf (.fcvt 5 6 4 6 0) = false := by decide
theorem test_illformed_prefix :
    Instr.wf (.pfx 5 0 0 0 3) = false ∧ Instr.wf (.pfx 5 0 1 0 3) = false ∧ Instr.wf (.pfx 5 1 0 0 3) = false
    ∧ Instr.wf (.pfx 5 1 0 1 0) = false ∧ Instr.wf (.pfx 5 1 1 0 3) = true := by decide
theorem test_illformed_vector :
    Instr.wf (.vset 5 6 0 0 1 2 0 0) = false ∧ Instr.wf (.vmerge 4 5 6 0 0) = false ∧ Instr.wf (.vpiv 4 0 7 0) = false
    ∧ Instr.wf (.vcmpEq 0 5 6 0 0) = false ∧ Instr.wf (.vcmpLeu 0 5 6 0 1) = false ∧ Instr.wf (.vfcmpUnord 0 5 6 0 0) = false
    ∧ Instr.wf (.mand 1 0 2) = false ∧ Instr.wf (.mor 0 1 2) = false ∧ Instr.wf (.mxor 1 2 0) = false
    ∧ Instr.wf (.mandn 0 0 0) = false ∧ Instr.wf (.mnot 0 1) = false ∧ Instr.wf (.mmv 1 0) = false
    ∧ Instr.wf (.mpopc 5 0 0) = false ∧ Instr.wf (.mfirst 5 0 1) = false ∧ Instr.wf (.vcompr 4 5 0) = false
    ∧ Instr.wf (.vexpd 4 5 0) = false ∧ Instr.wf (.vpopq 4 3 0) = false ∧ Instr.wf (.vpshq 3 ⟨4, 0⟩) = false
    ∧ Instr.wf (.vfcvt 4 6 5 0) = false ∧ Instr.wf (.vamoAdd 4 6 9 0 1 0 0) = false ∧ Instr.wf (.vamoFmax 4 6 9 0 1 0 0) = false
    ∧ Instr.wf (.vwaitGe 2 30 6 0) = false ∧ Instr.wf (.vwaitEq 0 10 6 0) = false := by decide
theorem test_illformed_system :
    Instr.wf (.fence 5 0) = false ∧ Instr.wf (.maccr 4 6 5) = false ∧ Instr.wf (.bar 4) = false ∧ Instr.wf (.bara 5 4) = false
    ∧ Instr.wf (.barw 5 7) = false ∧ Instr.wf (.cred 5 6 7 8) = false := by decide

/-! ## Decoding: a word of every encoded row (spec/02 R39-R71) -/

/-- The word decodes to the instruction. -/
abbrev Reads (w : Nat) (i : Instr) : Prop := decodeTableWord 32 w = some i

theorem test_decode_int0 :
    Reads 0x00249A83 (.add 21 9 18)
    ∧ Reads 0x00649A83 (.sub 21 9 18)
    ∧ Reads 0x00A49A83 (.and 21 9 18)
    ∧ Reads 0x00E49A83 (.or 21 9 18)
    ∧ Reads 0x01249A83 (.xor 21 9 18)
    ∧ Reads 0x01649A83 (.andn 21 9 18)
    ∧ Reads 0x01A49A83 (.orn 21 9 18)
    ∧ Reads 0x01E49A83 (.sll 21 9 18)
    ∧ Reads 0x02249A83 (.srl 21 9 18)
    ∧ Reads 0x02649A83 (.sra 21 9 18)
    ∧ Reads 0x02A49A83 (.rol 21 9 18)
    ∧ Reads 0x02E49A83 (.ror 21 9 18)
    ∧ Reads 0x03249A83 (.min 21 9 18)
    ∧ Reads 0x03649A83 (.max 21 9 18)
    ∧ Reads 0x03A49A83 (.minu 21 9 18)
    ∧ Reads 0x03E49A83 (.maxu 21 9 18)
    ∧ Reads 0x04249A83 (.slt 21 9 18)
    ∧ Reads 0x04649A83 (.sltu 21 9 18)
    ∧ Reads 0x04A49A83 (.seq 21 9 18)
    ∧ Reads 0x04E49A83 (.sne 21 9 18) := by decide +kernel

theorem test_decode_int1 :
    Reads 0x05011F83 (.clz 31 17)
    ∧ Reads 0x05411F83 (.ctz 31 17)
    ∧ Reads 0x05811F83 (.popc 31 17)
    ∧ Reads 0x05C11F83 (.bswap 31 17)
    ∧ Reads 0x06249A83 (.mul 21 9 18)
    ∧ Reads 0x06649A83 (.mulh 21 9 18)
    ∧ Reads 0x06A49A83 (.mulhu 21 9 18)
    ∧ Reads 0x06E49A83 (.div 21 9 18)
    ∧ Reads 0x07249A83 (.divu 21 9 18)
    ∧ Reads 0x07649A83 (.rem 21 9 18)
    ∧ Reads 0x07A49A83 (.remu 21 9 18)
    ∧ Reads 0x07E49A83 (.sel 21 9 18) := by decide +kernel

theorem test_decode_immediate :
    Reads 0xFFFA6285 (.addi 5 6 (-3))
    ∧ Reads 0xFFFA6287 (.andi 5 6 (-3))
    ∧ Reads 0xFFFA6289 (.ori 5 6 (-3))
    ∧ Reads 0xFFFA628B (.xori 5 6 (-3))
    ∧ Reads 0x02D0628D (.slli 5 6 45)
    ∧ Reads 0x02D2628D (.srli 5 6 45)
    ∧ Reads 0x02D4628D (.srai 5 6 45)
    ∧ Reads 0xFFE6628D (.slti 5 6 (-2))
    ∧ Reads 0xFFFFB48F (.ldhi 9 (-5))
    ∧ Reads 0x12345491 (.addpc 9 0x12345) := by decide +kernel

theorem test_decode_control :
    Reads 0xFFC07293 (.beq 5 7 (-4))
    ∧ Reads 0xFFC27293 (.bne 5 7 (-4))
    ∧ Reads 0xFFC47293 (.blt 5 7 (-4))
    ∧ Reads 0xFFC67293 (.bge 5 7 (-4))
    ∧ Reads 0xFFC87293 (.bltu 5 7 (-4))
    ∧ Reads 0xFFCA7293 (.bgeu 5 7 (-4))
    ∧ Reads 0xFFFFA095 (.jal 1 (-6))
    ∧ Reads 0xFF805097 (.jalr 1 5 (-8))
    ∧ Reads 0xFF706299 (.strip 5 6 (-9)) := by decide +kernel

theorem test_decode_sys :
    Reads 0x0010029B (.csrr 5 1)
    ∧ Reads 0x0012629B (.csrw 5 6 1)
    ∧ Reads 0x0014629B (.csrset 5 6 1)
    ∧ Reads 0x0016629B (.csrclr 5 6 1)
    ∧ Reads 0x7FF8001B (.trap 0x7FF)
    ∧ Reads 0xABCAD01B (.sig 0xD 0xABC)
    ∧ Reads 0x000C001B (.rft)
    ∧ Reads 0x001C001B (.exit)
    ∧ Reads 0x002C001B (.yield)
    ∧ Reads 0x003C001B (.ifence)
    ∧ Reads 0x0001E01D (.pfx 0 0 1 1 3)
    ∧ Reads 0x0004B39D (.pfx 7 1 1 0 9)
    ∧ Reads 0x003E629B (.frpop 5 6 3)
    ∧ Reads 0x100E629B (.resume 5 6)
    ∧ Reads 0x200E629B (.kill 5 6) := by decide +kernel

theorem test_decode_que :
    Reads 0x0040501F (.qpsh 5 4)
    ∧ Reads 0x0032029F (.qpop 5 3)
    ∧ Reads 0x0054029F (.qcnt 5 5) := by decide +kernel

theorem test_decode_memory :
    Reads 0xFF8062A1 (.ldb 5 6 (-8))
    ∧ Reads 0xFF8262A1 (.ldbz 5 6 (-8))
    ∧ Reads 0xFF8462A1 (.ldh 5 6 (-8))
    ∧ Reads 0xFF8662A1 (.ldhz 5 6 (-8))
    ∧ Reads 0xFF8862A1 (.ldw 5 6 (-8))
    ∧ Reads 0xFF8A62A1 (.ldwz 5 6 (-8))
    ∧ Reads 0xFF8C62A1 (.ldd 5 6 (-8))
    ∧ Reads 0x018062A3 (.stb 5 6 24)
    ∧ Reads 0x018262A3 (.sth 5 6 24)
    ∧ Reads 0x018462A3 (.stw 5 6 24)
    ∧ Reads 0x018662A3 (.std 5 6 24) := by decide +kernel

theorem test_decode_amo :
    Reads 0x04CE62A5 (.amoadd 5 6 7 3 0 1 0)
    ∧ Reads 0x1CCE62A5 (.amoswp 5 6 7 3 0 1 1)
    ∧ Reads 0x24CE62A5 (.amocas 5 6 7 3 0 1 0)
    ∧ Reads 0x3CCE62A5 (.amoand 5 6 7 3 0 1 1)
    ∧ Reads 0x44CE62A5 (.amoor 5 6 7 3 0 1 0)
    ∧ Reads 0x5CCE62A5 (.amoxor 5 6 7 3 0 1 1)
    ∧ Reads 0x64CE62A5 (.amomin 5 6 7 3 0 1 0)
    ∧ Reads 0x7CCE62A5 (.amomax 5 6 7 3 0 1 1)
    ∧ Reads 0x84CE62A5 (.amominu 5 6 7 3 0 1 0)
    ∧ Reads 0x9CCE62A5 (.amomaxu 5 6 7 3 0 1 1)
    ∧ Reads 0xAD0062A5 (.lda 5 6 4 1)
    ∧ Reads 0xB34E6025 (.stl 6 7 5 0) := by decide +kernel

theorem test_decode_fp :
    Reads 0x074E62A7 (.fadd 5 6 7 5 3)
    ∧ Reads 0x174E62A7 (.fsub 5 6 7 5 3)
    ∧ Reads 0x274E62A7 (.fmul 5 6 7 5 3)
    ∧ Reads 0x374E62A7 (.fdiv 5 6 7 5 3)
    ∧ Reads 0x428062A7 (.fsqrt 5 6 2 1)
    ∧ Reads 0x540E62A7 (.fmin 5 6 7 2)
    ∧ Reads 0x640E62A7 (.fmax 5 6 7 2)
    ∧ Reads 0x740E62A7 (.feq 5 6 7 2)
    ∧ Reads 0x840E62A7 (.flt 5 6 7 2)
    ∧ Reads 0x940E62A7 (.fle 5 6 7 2)
    ∧ Reads 0xA40E62A7 (.funord 5 6 7 2)
    ∧ Reads 0xB2C862A7 (.fcvt 5 6 4 3 1)
    ∧ Reads 0xC60062A7 (.fclass 5 6 3)
    ∧ Reads 0xD28E62A7 (.fsign 5 6 7 2 1)
    ∧ Reads 0x044E62A9 (.fma 5 6 7 1 2)
    ∧ Reads 0x144E62A9 (.fmsub 5 6 7 1 2)
    ∧ Reads 0x244E62A9 (.fnma 5 6 7 1 2) := by decide +kernel

theorem test_decode_vset :
    Reads 0x0D3462B1 (.vset 5 6 0 1 1 1 2 6) := by decide +kernel

theorem test_decode_vint0 :
    Reads 0x00E49AB3 (.vadd 21 9 18 3 0)
    ∧ Reads 0x06E49AB3 (.vsub 21 9 18 3 1)
    ∧ Reads 0x08E49AB3 (.vrsub 21 9 18 3 0)
    ∧ Reads 0x0EE49AB3 (.vmul 21 9 18 3 1)
    ∧ Reads 0x10E49AB3 (.vmulh 21 9 18 3 0)
    ∧ Reads 0x16E49AB3 (.vmulhu 21 9 18 3 1)
    ∧ Reads 0x18E49AB3 (.vdiv 21 9 18 3 0)
    ∧ Reads 0x1EE49AB3 (.vdivu 21 9 18 3 1)
    ∧ Reads 0x20E49AB3 (.vrem 21 9 18 3 0)
    ∧ Reads 0x26E49AB3 (.vremu 21 9 18 3 1)
    ∧ Reads 0x28E49AB3 (.vand 21 9 18 3 0)
    ∧ Reads 0x2EE49AB3 (.vor 21 9 18 3 1)
    ∧ Reads 0x30E49AB3 (.vxor 21 9 18 3 0)
    ∧ Reads 0x36E49AB3 (.vsll 21 9 18 3 1)
    ∧ Reads 0x38E49AB3 (.vsrl 21 9 18 3 0)
    ∧ Reads 0x3EE49AB3 (.vsra 21 9 18 3 1)
    ∧ Reads 0x40E49AB3 (.vmin 21 9 18 3 0)
    ∧ Reads 0x46E49AB3 (.vmax 21 9 18 3 1)
    ∧ Reads 0x48E49AB3 (.vminu 21 9 18 3 0)
    ∧ Reads 0x4EE49AB3 (.vmaxu 21 9 18 3 1) := by decide +kernel

theorem test_decode_vint1 :
    Reads 0x50E49AB3 (.vsadd 21 9 18 3 0)
    ∧ Reads 0x56E49AB3 (.vsaddu 21 9 18 3 1)
    ∧ Reads 0x58E49AB3 (.vssub 21 9 18 3 0)
    ∧ Reads 0x5EE49AB3 (.vssubu 21 9 18 3 1)
    ∧ Reads 0x60E49AB3 (.vmerge 21 9 18 3 0)
    ∧ Reads 0x66E40AB3 (.vmv 21 18 3 1)
    ∧ Reads 0x68C00AB3 (.vidx 21 3) := by decide +kernel

theorem test_decode_vfp :
    Reads 0x03649AB5 (.vfadd 21 9 18 5 1)
    ∧ Reads 0x07649AB5 (.vfsub 21 9 18 5 1)
    ∧ Reads 0x0B649AB5 (.vfmul 21 9 18 5 1)
    ∧ Reads 0x0F649AB5 (.vfdiv 21 9 18 5 1)
    ∧ Reads 0x11640AB5 (.vfsqrt 21 18 5 0)
    ∧ Reads 0x17649AB5 (.vfma 21 9 18 5 1)
    ∧ Reads 0x1B649AB5 (.vfmsub 21 9 18 5 1)
    ∧ Reads 0x1F649AB5 (.vfnma 21 9 18 5 1)
    ∧ Reads 0x23649AB5 (.vfmin 21 9 18 5 1)
    ∧ Reads 0x27649AB5 (.vfmax 21 9 18 5 1)
    ∧ Reads 0x2B649AB5 (.vfsign 21 9 18 5 1)
    ∧ Reads 0x2D640AB5 (.vfclass 21 18 5 0)
    ∧ Reads 0x320E2235 (.vpiv 4 2 7 0) := by decide +kernel

theorem test_decode_vcmp :
    Reads 0x03249337 (.vcmpEq 6 9 18 4 1)
    ∧ Reads 0x07249337 (.vcmpNe 6 9 18 4 1)
    ∧ Reads 0x0B249337 (.vcmpLt 6 9 18 4 1)
    ∧ Reads 0x0F249337 (.vcmpLe 6 9 18 4 1)
    ∧ Reads 0x13249337 (.vcmpLtu 6 9 18 4 1)
    ∧ Reads 0x17249337 (.vcmpLeu 6 9 18 4 1)
    ∧ Reads 0x21249337 (.vfcmpEq 6 9 18 4 0)
    ∧ Reads 0x25249337 (.vfcmpLt 6 9 18 4 0)
    ∧ Reads 0x29249337 (.vfcmpLe 6 9 18 4 0)
    ∧ Reads 0x2D249337 (.vfcmpUnord 6 9 18 4 0)
    ∧ Reads 0x40065337 (.mand 6 5 3)
    ∧ Reads 0x44065337 (.mor 6 5 3)
    ∧ Reads 0x48065337 (.mxor 6 5 3)
    ∧ Reads 0x4C065337 (.mandn 6 5 3)
    ∧ Reads 0x50060337 (.mnot 6 3)
    ∧ Reads 0x54060337 (.mmv 6 3)
    ∧ Reads 0x58000337 (.mclr 6)
    ∧ Reads 0x5C860EB7 (.mpopc 29 3 2)
    ∧ Reads 0x60860EB7 (.mfirst 29 3 2) := by decide +kernel

theorem test_decode_vred :
    Reads 0x00649AB9 (.vredsum 21 9 18 1)
    ∧ Reads 0x04649AB9 (.vredmin 21 9 18 1)
    ∧ Reads 0x08649AB9 (.vredmax 21 9 18 1)
    ∧ Reads 0x0C649AB9 (.vredminu 21 9 18 1)
    ∧ Reads 0x10649AB9 (.vredmaxu 21 9 18 1)
    ∧ Reads 0x14649AB9 (.vredand 21 9 18 1)
    ∧ Reads 0x18649AB9 (.vredor 21 9 18 1)
    ∧ Reads 0x1C649AB9 (.vredxor 21 9 18 1)
    ∧ Reads 0x20649AB9 (.vwredsum 21 9 18 1)
    ∧ Reads 0x24649AB9 (.vfredo 21 9 18 1)
    ∧ Reads 0x28649AB9 (.vfredt 21 9 18 1)
    ∧ Reads 0x2C649AB9 (.vfredx 21 9 18 1)
    ∧ Reads 0x30649AB9 (.vfredmin 21 9 18 1)
    ∧ Reads 0x34649AB9 (.vfredmax 21 9 18 1) := by decide +kernel

theorem test_decode_vperm :
    Reads 0x03A49ABB (.vslup 21 9 18 6)
    ∧ Reads 0x07A49ABB (.vsldn 21 9 18 6)
    ∧ Reads 0x0BA49ABB (.vsl1up 21 9 18 6)
    ∧ Reads 0x0FA49ABB (.vsl1dn 21 9 18 6)
    ∧ Reads 0x1FA49ABB (.vreshape 21 9 18 6)
    ∧ Reads 0x23A49ABB (.vrowb 21 9 18 6)
    ∧ Reads 0x27A49ABB (.vrowx 21 9 18 6)
    ∧ Reads 0x11A49ABB (.vperm 21 9 18 6)
    ∧ Reads 0x15809ABB (.vcompr 21 9 6)
    ∧ Reads 0x19809ABB (.vexpd 21 9 6)
    ∧ Reads 0x2A249ABB (.vextr 21 9 ⟨18, 0⟩)
    ∧ Reads 0x2E249ABB (.vinsr 21 9 ⟨18, 0⟩)
    ∧ Reads 0x31802ABB (.vpopq 21 2 6)
    ∧ Reads 0x3400913B (.vpshq 2 ⟨9, 0⟩)
    ∧ Reads 0x3BA4003B (.vappend 18 6) := by decide +kernel

theorem test_decode_vwide :
    Reads 0x01E49A3D (.vwadd 20 9 18 7 0)
    ∧ Reads 0x07E49A3D (.vwaddu 20 9 18 7 1)
    ∧ Reads 0x09E49A3D (.vwmul 20 9 18 7 0)
    ∧ Reads 0x0FE49A3D (.vwmulu 20 9 18 7 1)
    ∧ Reads 0x11E49A3D (.vwacc 20 9 18 7 0)
    ∧ Reads 0x17E49A3D (.vwaccu 20 9 18 7 1)
    ∧ Reads 0x19E49A3D (.vnsrl 20 9 18 7 0)
    ∧ Reads 0x1FE49A3D (.vnclip 20 9 18 7 1)
    ∧ Reads 0x21E45A3D (.vfcvt 20 5 18 7) := by decide +kernel

theorem test_decode_vldm :
    Reads 0x00806241 (.vld 4 6 2)
    ∧ Reads 0x14806241 (.vldff 4 6 2)
    ∧ Reads 0x068E6241 (.vlds 4 6 7 2)
    ∧ Reads 0x0A8E6241 (.vldr 4 6 7 2)
    ∧ Reads 0x0C8E6241 (.vldx 4 6 7 2)
    ∧ Reads 0x108E6241 (.vldq 4 6 7 2)
    ∧ Reads 0x1A8E6241 (.vldt 4 6 7 2) := by decide +kernel

theorem test_decode_vstm :
    Reads 0x00806243 (.vst 4 6 2)
    ∧ Reads 0x068E6243 (.vsts 4 6 7 2)
    ∧ Reads 0x0A8E6243 (.vstr 4 6 7 2)
    ∧ Reads 0x0C8E6243 (.vstx 4 6 7 2)
    ∧ Reads 0x108E6243 (.vstq 4 6 7 2) := by decide +kernel

theorem test_decode_vamo :
    Reads 0x0A526245 (.vamoAdd 4 6 9 1 1 0 1)
    ∧ Reads 0x1A526245 (.vamoSwp 4 6 9 1 1 0 1)
    ∧ Reads 0x2A526245 (.vamoAnd 4 6 9 1 1 0 1)
    ∧ Reads 0x3A526245 (.vamoOr 4 6 9 1 1 0 1)
    ∧ Reads 0x4A526245 (.vamoXor 4 6 9 1 1 0 1)
    ∧ Reads 0x5A526245 (.vamoMin 4 6 9 1 1 0 1)
    ∧ Reads 0x6A526245 (.vamoMax 4 6 9 1 1 0 1)
    ∧ Reads 0x7A526245 (.vamoMinu 4 6 9 1 1 0 1)
    ∧ Reads 0x8A526245 (.vamoMaxu 4 6 9 1 1 0 1)
    ∧ Reads 0x9A526245 (.vamoFmin 4 6 9 1 1 0 1)
    ∧ Reads 0xAA526245 (.vamoFmax 4 6 9 1 1 0 1) := by decide +kernel

theorem test_decode_vsync :
    Reads 0x0053D247 (.vwaitEq 4 29 9 1)
    ∧ Reads 0x0453D247 (.vwaitNe 4 29 9 1)
    ∧ Reads 0x0853D247 (.vwaitLt 4 29 9 1)
    ∧ Reads 0x0C53D247 (.vwaitGe 4 29 9 1)
    ∧ Reads 0x1053D247 (.vwaitLtu 4 29 9 1)
    ∧ Reads 0x1453D247 (.vwaitGeu 4 29 9 1)
    ∧ Reads 0x20000A47 (.fence 4 2)
    ∧ Reads 0x240006C7 (.dfenceI 13)
    ∧ Reads 0x2800D047 (.dfenceW 13) := by decide +kernel

theorem test_decode_mat :
    Reads 0x02120049 (.mattach 9)
    ∧ Reads 0x04000049 (.mdetach)
    ∧ Reads 0x0A120049 (.mfmt 9)
    ∧ Reads 0x0E125049 (.mldb 5 9)
    ∧ Reads 0x12125049 (.mldbm 5 9)
    ∧ Reads 0x14005049 (.mmulVreg 5)
    ∧ Reads 0x140010C9 (.mmulTq 1)
    ∧ Reads 0x1A1232C9 (.maccr 5 3 9)
    ∧ Reads 0x1C000049 (.maccz)
    ∧ Reads 0x200002C9 (.mchk 5) := by decide +kernel

theorem test_decode_eng :
    Reads 0x004E62CB (.cpy 5 6 7 1)
    ∧ Reads 0x044062CB (.cpy2 5 6 1)
    ∧ Reads 0x080062CB (.cpyx 5 6 0)
    ∧ Reads 0x0C0E604B (.tlwait 6 7)
    ∧ Reads 0x100062CB (.tlread 5 6)
    ∧ Reads 0x140062CB (.engctxCreate 5 6)
    ∧ Reads 0x1480604B (.engctxDestroy 6)
    ∧ Reads 0x150062CB (.engctxQuery 5 6) := by decide +kernel

theorem test_decode_topo :
    Reads 0x000E62CD (.tbind 5 6 7)
    ∧ Reads 0x004E62CD (.tnbr 5 6 7)
    ∧ Reads 0x008E62CD (.tface 5 6 7)
    ∧ Reads 0x00CE62CD (.tmark 5 6 7)
    ∧ Reads 0x010E62CD (.tcommit 5 6 7)
    ∧ Reads 0x0140604D (.tfree 6)
    ∧ Reads 0x018E62CD (.tcolour 5 6 7)
    ∧ Reads 0x01CE62CD (.tlevel 5 6 7)
    ∧ Reads 0x020E62CD (.tcut 5 6 7)
    ∧ Reads 0x024E62CD (.tremap 5 6 7)
    ∧ Reads 0x028E62CD (.txport 5 6 7)
    ∧ Reads 0x02CE62CD (.timport 5 6 7) := by decide +kernel

theorem test_decode_dur :
    Reads 0x00000057 (.pbar)
    ∧ Reads 0x004E62D7 (.park 5 6 7)
    ∧ Reads 0x008E62D7 (.unpark 5 6 7)
    ∧ Reads 0x00C062D7 (.pstat 5 6) := by decide +kernel

theorem test_decode_work :
    Reads 0x000062CF (.spawn 5 6)
    ∧ Reads 0x0002604F (.waitch 6)
    ∧ Reads 0x0034004F (.bar 3)
    ∧ Reads 0x002602CF (.bara 5 2)
    ∧ Reads 0x0018604F (.barw 6 1) := by decide +kernel

theorem test_decode_remote :
    Reads 0x00D26251 (.rldx 4 6 9 3)
    ∧ Reads 0x04D26251 (.rstx 4 6 9 3)
    ∧ Reads 0x40D26251 (.ramoxAdd 4 6 9 3)
    ∧ Reads 0x44D26251 (.ramoxSwp 4 6 9 3)
    ∧ Reads 0x48D26251 (.ramoxAnd 4 6 9 3)
    ∧ Reads 0x4CD26251 (.ramoxOr 4 6 9 3)
    ∧ Reads 0x50D26251 (.ramoxXor 4 6 9 3)
    ∧ Reads 0x54D26251 (.ramoxMin 4 6 9 3)
    ∧ Reads 0x58D26251 (.ramoxMax 4 6 9 3)
    ∧ Reads 0x5CD26251 (.ramoxMinu 4 6 9 3)
    ∧ Reads 0x60D26251 (.ramoxMaxu 4 6 9 3)
    ∧ Reads 0x64D26251 (.ramoxFmin 4 6 9 3)
    ∧ Reads 0x68D26251 (.ramoxFmax 4 6 9 3) := by decide +kernel

theorem test_decode_xchg :
    Reads 0x00D26053 (.dpost 6 9 3)
    ∧ Reads 0x040062D3 (.dgrant 5 6)
    ∧ Reads 0x0A1262D3 (.xrun 5 6 9)
    ∧ Reads 0x0ED26253 (.xstat 4 6 9 3) := by decide +kernel

theorem test_decode_coll :
    Reads 0x014E62D5 (.cred 5 6 7 5)
    ∧ Reads 0x080E62D5 (.cbcast 5 6 7)
    ∧ Reads 0x100E62D5 (.cgath 5 6 7)
    ∧ Reads 0x180062D5 (.cbar 5 6)
    ∧ Reads 0x200062D5 (.cstat 5 6) := by decide +kernel

theorem test_decode_compact :
    Reads 0xA0C0 (.cAdd 3 20)
    ∧ Reads 0xA0C2 (.cSub 3 20)
    ∧ Reads 0xA0C4 (.cAnd 3 20)
    ∧ Reads 0xA0C6 (.cOr 3 20)
    ∧ Reads 0xA0C8 (.cXor 3 20)
    ∧ Reads 0xA0CA (.cSll 3 20)
    ∧ Reads 0xA0CC (.cSrl 3 20)
    ∧ Reads 0xA0CE (.cMv 3 20)
    ∧ Reads 0xF8D0 (.cAddi 3 (-1))
    ∧ Reads 0x88D2 (.cLi 3 17)
    ∧ Reads 0xA0D4 (.cLdd 3 20)
    ∧ Reads 0xA0D6 (.cStd 3 20)
    ∧ Reads 0xF1D8 (.cBeqz 7 30)
    ∧ Reads 0xF1DA (.cBnez 7 30)
    ∧ Reads 0xA0DC (.cVadd 3 20)
    ∧ Reads 0xA0DE (.cVfma 3 20) := by decide +kernel

/-! ## States of the tests -/

/-- A stream at 0x1000 with g5 = 7, g6 = 9, g7 = 11, g8 = 0x4000 and g9 = 2, VL 2, RC 1, SEW 32 and width 8. -/
def stream : Stream := { Stream.reset with
  pc := 0x1000, tvec := 0x2000, grant := 8, vl := 2, vtype := 0x20
  g := ((((Stream.reset.g.set 5 7).set 6 9).set 7 11).set 8 0x4000).set 9 2 }

/-- One running hart on die 0 with a feeder, and a page of 256 MiB of HBM at address 0. -/
def base : State :=
  ({ State.reset with
    hart := { Hart.reset with
      run := .running, tag := 1, hasFeeder := true, feederLive := true, share := 8, lv := 8, main := stream, feed := stream }
    occupied := true, quantum := 1 } : State).codePage 0

/-- The feeder executes. -/
def State.byFeeder (s : State) : State := { s with onFeeder := true }
/-- The hart is a service hart. -/
def State.byService (s : State) : State := { s with hart := { s.hart with sv := true } }
/-- Another hart record. -/
def State.withHart (s : State) (f : Hart → Hart) : State := { s with hart := f s.hart }
/-- Another main stream. -/
def State.withMain (s : State) (f : Stream → Stream) : State := { s with hart := { s.hart with main := f s.hart.main } }
/-- g[r] of the main stream is `v`. -/
def State.withG (s : State) (r : Nat) (v : Word) : State := s.withMain fun t => { t with g := vset t.g r v }
/-- A control core executes. -/
def control : State :=
  ({ State.reset with
    hart := { Hart.reset with kind := .control 0, run := .running, sv := true, main := { stream with grant := 0 } }
    occupied := true, quantum := 1 } : State).codePage 0
/-- With a pending prefix (R67). -/
def State.withPfx (s : State) (p : BitVec 25) : State :=
  s.setSt { s.st with pfxp := true, pfxd := p }

/-- PSRC 5, not inverted, and a copy to g9: its predicate is true. -/
def pfxTrue : BitVec 25 := BitVec.ofNat 25 (5 * 256 + 64 + 32 + 9)
/-- PSRC 5, inverted, no copy: its predicate is false. -/
def pfxFalse : BitVec 25 := BitVec.ofNat 25 (5 * 256 + 128 + 64)

/-- A vector entry that waits at the head of the queue: VWAITEQ m1, g20, v2 under no mask, with SEW 32. -/
def waiting : VEntry where
  pc := 0x1000
  word := BitVec.ofNat 32 (encodeNat (.vwaitEq 1 20 2 0))
  pfx := none
  ops := [0x4000, 5, 100]
  win := 0
  sv := false
  vtype := 0x20
  vl := 2
  rc := 1
  vstart := 0
  stopped := false
  begun := some 0
  latched := []
  bad := []
  again := false
  fence := 0

/-- Whether a result is this value in this state. -/
def okIs {α : Type} [DecidableEq α] (r : Res α) (x : α) (t : State) : Bool :=
  match r with
  | .ok y u => decide (y = x ∧ u = t)
  | .trap _ _ _ | .mem _ _ | .wait _ => false
theorem okIs_eq {α : Type} [DecidableEq α] {r : Res α} {x : α} {t : State} (h : okIs r x t = true) : r = .ok x t := by
  cases r <;> simp_all [okIs]
/-- Whether a result is some value. -/
def isOk {α : Type} (r : Res α) : Bool :=
  match r with
  | .ok _ _ => true
  | .trap _ _ _ | .mem _ _ | .wait _ => false
theorem isOk_ex {α : Type} {r : Res α} (h : isOk r = true) : ∃ x t, r = .ok x t := by
  cases r <;> simp_all [isOk]
/-- Whether a result is a memory fault that changes nothing of `t`. -/
def memIs {α : Type} (r : Res α) (t : State) : Bool :=
  match r with
  | .mem _ u => decide (u = t)
  | .ok _ _ | .trap _ _ _ | .wait _ => false
theorem memIs_ex {α : Type} {r : Res α} {t : State} (h : memIs r t = true) : ∃ f, r = .mem f t := by
  cases r <;> simp_all [memIs]

/-- A vector form is ready when its checks say so. -/
theorem vec_ready {s : State} {k : PfxKind} {dst : Option (Nat × Nat)} {srcs : List (Nat × Nat)} {bank : Prop} {regs : List Reg}
    (h : (!s.atHead && !s.onFeeder && !s.hart.isControl && s.hart.vq.isEmpty && !s.regWait regs
      && srcs.all (fun x => decide (x.1 + x.2 ≤ 32)) && dst.all (fun x => decide (x.1 + x.2 ≤ 32))
      && (!s.st.pfxp || (k != .never && decide (1 ≤ (pfxSrc s.st.pfxd).toNat ∧ (pfxSrc s.st.pfxd).toNat ≤ 7)
        && (!pfxCen s.st.pfxd || (k == .copy && dst.any fun x => decide ((pfxReg s.st.pfxd).toNat + x.2 ≤ 32)
          && (x :: srcs).all fun y => decide ((pfxReg s.st.pfxd).toNat + x.2 ≤ y.1 ∨ y.1 + y.2 ≤ (pfxReg s.st.pfxd).toNat)))))) = true)
    (hb : bank) : s.VecReady k dst srcs bank regs := by
  simp only [Bool.and_eq_true, Bool.or_eq_true, Bool.not_eq_true', List.isEmpty_iff, List.all_eq_true, decide_eq_true_eq,
    bne_iff_ne, ne_eq, beq_iff_eq] at h
  obtain ⟨⟨⟨⟨⟨⟨⟨h1, h2⟩, h3⟩, h4⟩, h5⟩, h6⟩, h7⟩, h8⟩ := h
  refine ⟨h1, h2, h3, h4, h5, hb, h6, ?_, fun e => ?_⟩
  · rintro x rfl
    simpa using h7
  · obtain ⟨⟨k1, k2⟩, k3⟩ := h8.resolve_left (by simp [e])
    refine ⟨k1, k2.1, k2.2, fun q => ?_⟩
    obtain ⟨m1, m2⟩ := k3.resolve_left (by simp [q])
    refine ⟨m1, ?_⟩
    cases dst with
    | none => simp at m2
    | some x =>
      simp only [Option.any_some, Bool.and_eq_true, decide_eq_true_eq, List.all_eq_true] at m2
      exact ⟨x, rfl, m2.1, m2.2⟩
/-- The configuration fits when its checks say so. -/
theorem fits_of {c : VCfg} {bw size : Nat} (h : decide (1 ≤ c.g ∧ c.g ≤ 8 ∧ c.rc ≤ 8 ∧ c.vl ≤ size * rowElems c.g bw) = true) :
    c.Fits bw size := by
  unfold VCfg.Fits
  exact of_decide_eq_true h
/-- Whether an address is none of the hub's. -/
def notHub (pa : Nat) : Bool :=
  match region pa with
  | .hub _ => false
  | .hbm _ | .sram _ | .spad _ _ | .tcm _ _ | .aliasTcm _ | .aliasSpad _ | .aliasSram _ | .bedrock | .hole => true
theorem notHub_iff {pa : Nat} (h : notHub pa = true) : ∀ o, region pa ≠ .hub o := by
  intro o e
  simp [notHub, e] at h
theorem reaches_of {s : State} {x : Access} {act : Nat → Nat → Bool} {addr : Nat → Nat → Word} {xl : Nat → Nat → Xl}
    (h : ((List.range s.vcfg.rc).all fun r => (List.range s.vcfg.vl).all fun e => !act r e
      || (decide ((addr r e).toNat % 2 ^ s.vcfg.sew = 0) && okIs (s.translate s.agent x (addr r e)) (xl r e) s
        && (xl r e).cls != 1 && notHub (xl r e).pa)) = true) : s.Reaches x act addr xl := by
  intro r e hr he ha
  simp only [List.all_eq_true, List.mem_range] at h
  have := h r hr e he
  simp only [ha, Bool.not_true, Bool.false_or, Bool.and_eq_true, decide_eq_true_eq, bne_iff_ne, ne_eq] at this
  exact ⟨this.1.1.1, okIs_eq this.1.1.2, this.1.2, notHub_iff this.2⟩
theorem words_of {s : State} {va : Word} {n : Nat} {w : Nat → Word}
    (h : (decide (va.toNat % 8 = 0) && (List.range n).all fun j =>
      match s.translate s.agent (.plain 0 8) (va + BitVec.ofNat 64 (8 * j)) with
      | .ok x t => decide (t = s) && x.cls != 1 && notHub x.pa && !s.isPoisoned (s.agent.readAt x) 8
        && w j == BitVec.ofNat 64 (s.mem.readLe (s.agent.readAt x) 8)
      | .trap _ _ _ | .mem _ _ | .wait _ => false) = true) : s.Words va n w := by
  simp only [Bool.and_eq_true, decide_eq_true_eq, List.all_eq_true, List.mem_range] at h
  refine ⟨h.1, fun j hj => ?_⟩
  have := h.2 j hj
  split at this
  · simp only [Bool.and_eq_true, decide_eq_true_eq, Bool.not_eq_true', beq_iff_eq, bne_iff_ne, ne_eq] at this
    obtain ⟨⟨⟨⟨h1, h5⟩, h2⟩, h3⟩, h4⟩ := this
    rename_i x t ht
    exact ⟨x, h1 ▸ ht, h5, notHub_iff h2, h3, h4⟩
  all_goals cases this

/-- A scalar form is ready when its checks say so. -/
theorem scalar_ready {s : State} {k : PfxKind} {f c : Bool} {regs : List Reg}
    (h : ((!s.onFeeder || f) && (!s.st.pfxp || (k != .never && (k != .pred || !pfxCen s.st.pfxd))) && (!s.hart.isControl || c)
      && !s.regWait (if s.st.pfxp then pfxSrc s.st.pfxd :: pfxReg s.st.pfxd :: regs else regs) && s.st.predicate) = true) :
    s.ScalarReady k f c regs := by
  unfold State.ScalarReady
  simp only [Bool.and_eq_true, Bool.or_eq_true, Bool.not_eq_true', bne_iff_ne, ne_eq] at h
  obtain ⟨⟨⟨⟨h1, h2⟩, h3⟩, h4⟩, h5⟩ := h
  refine ⟨fun e => h1.resolve_left (by simp [e]), fun e => ?_, fun e => h3.resolve_left (by simp [e]), h4, h5⟩
  have := h2.resolve_left (by simp [e])
  exact ⟨this.1, fun q => this.2.resolve_left (by simp [q])⟩
/-- No open signature, or one that an instruction makes match. -/
theorem sig_matches {s : State} {i : Instr} {n : Nat}
    (h : (sigAdd s.st.sig (encodeNat i) n).all (fun o => o.crc == o.expected) = true) : s.SigMatches (encodeNat i) n := by
  intro o ho
  rw [ho] at h
  simpa using h
/-! ## The spec's worked examples -/

/-- Whether an instruction answers a next state with a property. -/
noncomputable def Yields (i : Instr) (s : State) (p : State → Bool) : Bool :=
  match exec i s with
  | .next t => p t
  | .fault _ | .refused _ => false
/-- The two source operands g6 and g7. -/
def State.pairG (s : State) (x y : Word) : State := (s.withG 6 x).withG 7 y
/-- Elements of row 0 of a vector register. -/
def State.row0 (s : State) (bw n : Nat) (l : List Nat) : State :=
  s.withHart fun h => { h with v := (l.zipIdx).foldl (fun v x => elemWr v 8 bw n 0 x.2 x.1) h.v }
/-- Row 0 of a vector register, read back. -/
def State.rowIs (s : State) (bw n : Nat) (l : List Nat) : Bool :=
  (List.range l.length).map (fun e => elemRd s.hart.v 8 bw n 0 e) == l
/-- VTYPE, VL and RC of the main stream. -/
def State.shape (s : State) (t : BitVec 8) (vl rc : Nat) : State :=
  s.withMain fun x => { x with vtype := t, vl := BitVec.ofNat 16 vl, rc := BitVec.ofNat 4 rc }

/-- spec/03, the table after R86. -/
theorem test_divide :
    Yields (.div 5 6 7) (base.pairG (-7) 2) (fun t => t.rd 5 == 0xFFFFFFFFFFFFFFFD && t.st.pc == 0x1004 && t.st.lastG == 5) = true
    ∧ Yields (.rem 5 6 7) (base.pairG (-7) 2) (fun t => t.rd 5 == -1) = true
    ∧ Yields (.divu 5 6 7) (base.pairG 7 0) (fun t => t.rd 5 == 0xFFFFFFFFFFFFFFFF) = true
    ∧ Yields (.rem 5 6 7) (base.pairG 0x8000000000000000 (-1)) (fun t => t.rd 5 == 0) = true := by decide +kernel
/-- spec/03, the table after R86. -/
theorem test_multiply_rotate :
    Yields (.mulhu 5 6 7) (base.pairG (-1) (-1)) (fun t => t.rd 5 == 0xFFFFFFFFFFFFFFFE) = true
    ∧ Yields (.mul 5 6 7) (base.pairG (-1) (-1)) (fun t => t.rd 5 == 1) = true
    ∧ Yields (.ror 5 6 7) (base.pairG 1 68) (fun t => t.rd 5 == 0x1000000000000000) = true := by decide +kernel
/-- spec/03, the example after R87. -/
theorem test_immediates :
    Yields (.andi 5 6 (-16)) (base.withG 6 0x123F) (fun t => t.rd 5 == 0x1230) = true
    ∧ Yields (.ori 5 0 0x3FFF) base (fun t => t.rd 5 == 0x3FFF) = true := by decide +kernel
/-- spec/02, the example after R74: x = 0x12345678. -/
theorem test_ldhi_addi :
    Yields (.ldhi 5 0x2469) base (fun t => t.rd 5 == 0x12348000) = true
    ∧ Yields (.addi 5 5 (-0x2988)) (base.withG 5 0x12348000) (fun t => t.rd 5 == 0x12345678) = true := by decide +kernel
/-- spec/03, the example after R114. -/
theorem test_compact :
    Yields (.cLi 5 (-2)) base (fun t => t.rd 5 == -2 && t.st.lastG == 5 && t.st.pc == 0x1002) = true
    ∧ Yields (.cAdd 6 4) ((base.withG 4 7).withMain fun t => { t with g := vset t.g 5 (-2), lastG := 5 })
      (fun t => t.rd 6 == 5 && t.st.lastG == 6) = true := by decide +kernel
/-- spec/01, the example after R36: a misaligned load traps, writes nothing and leaves LASTD. -/
theorem test_misaligned_load :
    Yields (.ldw 5 6 2) ((base.withG 6 0x4000).withMain fun t => { t with tvec := 0x8000, pc := 0x12346 })
      (fun t => t.st.tepc == 0x12346 && t.st.tcause == 4 && t.st.tval == 0x4002 && t.st.ta && t.st.pc == 0x8000
        && t.rd 5 == 7 && t.st.lastG == 0) = true := by decide +kernel
/-- spec/03, the example after R96: a compare-and-swap that finds its value, then one that does not. -/
theorem test_amocas :
    Yields (.amocas 5 6 7 0 0 0 1) { (base.withG 5 5).pairG 0x1000 9 with mem := Mem.writeLe [] 0x10001000 8 5 }
      (fun t => t.rd 5 == 5 && t.mem.readLe 0x10001000 8 == 9) = true
    ∧ Yields (.amocas 5 6 7 0 0 0 1) { (base.withG 5 5).pairG 0x1000 8 with mem := Mem.writeLe [] 0x10001000 8 9 }
      (fun t => t.rd 5 == 9 && t.mem.readLe 0x10001000 8 == 9) = true := by decide +kernel
/-- spec/03, the example after R104: FCSR.RM from RNE to RTZ. -/
theorem test_csrset : Yields (.csrset 0 5 0x001) (base.withG 5 2) (fun t => t.st.rm == 3 && t.st.flags == 0) = true := by
  decide +kernel
/-- spec/03, the example after R113: a false predicate stops the access, a true one lets MISALIGN name the PFX. -/
theorem test_prefixed_load :
    Yields (.ldd 3 5 4) ((base.withG 4 0).withG 5 0x2000 |>.withPfx (BitVec.ofNat 25 (4 * 256 + 64 + 32 + 9)))
      (fun t => t.rd 3 == 0 && t.rd 9 == 2 && t.st.lastG == 0 && t.st.pc == 0x1004) = true
    ∧ Yields (.ldd 3 5 4) ((base.withG 4 1).withG 5 0x2000 |>.withPfx (BitVec.ofNat 25 (4 * 256 + 64 + 32 + 9)))
      (fun t => t.st.tcause == 4 && t.st.tepc == 0xFFC && t.st.tval == 0x2004) = true := by decide +kernel
/-- spec/04, the examples after R135 and R137. -/
theorem test_fma_fclass :
    Yields (.fma 4 5 6 0 0) (((base.withG 5 0x3FF0000000000001).withG 6 0x3FEFFFFFFFFFFFFE).withG 4 0xBFF0000000000000)
      (fun t => t.rd 4 == 0xB970000000000000 && t.st.flags == 0) = true
    ∧ Yields (.fclass 5 6 0) (base.withG 6 0x8000000000000000) (fun t => t.rd 5 == 0x11) = true
    ∧ Yields (.fclass 5 6 0) (base.withG 6 0x7FF0000000000000) (fun t => t.rd 5 == 0x06) = true
    ∧ Yields (.fclass 5 6 0) (base.withG 6 0x7FF8000000000000) (fun t => t.rd 5 == 0x2A) = true
    ∧ Yields (.fclass 5 6 0) (base.withG 6 0xBFF0000000000000) (fun t => t.rd 5 == 0x15) = true := by decide +kernel

/-- spec/06, the examples after R177 and R180. -/
theorem test_vector_integer :
    Yields (.vsadd 4 5 6 0 0) (((base.shape 0 1 1).row0 1 5 [0x7F]).row0 1 6 [2]) (fun t => t.rowIs 1 4 [0x7F]) = true
    ∧ Yields (.vssubu 4 5 6 0 0) (((base.shape 0 1 1).row0 1 5 [2]).row0 1 6 [0x7F]) (fun t => t.rowIs 1 4 [0]) = true
    ∧ Yields (.vnsrl 4 6 7 0 1) (((base.shape 0x10 1 1).row0 4 6 [0x17FFF]).withG 7 1) (fun t => t.rowIs 2 4 [0xBFFF]) = true
    ∧ Yields (.vnclip 4 6 7 0 1) (((base.shape 0x10 1 1).row0 4 6 [0x17FFF]).withG 7 1) (fun t => t.rowIs 2 4 [0x7FFF]) = true
    := by decide +kernel
/-- spec/06, the example after R182. -/
theorem test_vfma :
    Yields (.vfma 4 5 6 0 0) ((((base.shape 0x20 1 1).row0 4 5 [0x3F800001]).row0 4 6 [0x3F7FFFFE]).row0 4 4 [0xBF800000])
      (fun t => t.rowIs 4 4 [0xA8800000] && t.st.flags == 0) = true := by decide +kernel
/-- spec/06, the example after R183. -/
theorem test_vpiv :
    Yields (.vpiv 4 2 7 0) (((base.shape 0x30 4 1).row0 8 4 [0x4000000000000000, 0, 0xBD70000000000000, 0x7FF8000000000000]).withG 7
        0xBE10000000000000)
      (fun t => t.rowIs 8 4 [0x4000000000000000, 0x3E10000000000000, 0xBE10000000000000, 0x7FF8000000000000]
        && (List.range 4).map (fun e => maskRd t.hart.m 2 0 e) == [false, true, true, true] && t.hart.pivcnt == 2) = true := by
  decide +kernel
/-- spec/06, the example after R187: the tail of the mask row is cleared under TP. -/
theorem test_vcmp :
    Yields (.vcmpLt 3 6 7 0 1) (((((base.shape 0x22 4 1).row0 4 6 [5, 0xFFFFFFFD, 7, 0]).withG 7 2).withHart fun h =>
        { h with m := maskWr h.m 3 0 9 true }))
      (fun t => (List.range 10).map (fun e => maskRd t.hart.m 3 0 e)
        == [false, true, false, true, false, false, false, false, false, false]) = true := by decide +kernel
/-- spec/06, the example after R190. -/
theorem test_mpopc_mfirst :
    Yields (.mpopc 20 5 0) ((base.shape 0x20 10 2).withHart fun h => { h with m := maskWr h.m 5 1 3 true }) (fun t => t.rd 20 == 1) = true
    ∧ Yields (.mfirst 20 5 0) ((base.shape 0x20 10 2).withHart fun h => { h with m := maskWr h.m 5 1 3 true })
      (fun t => t.rd 20 == 0x10003) = true := by decide +kernel
/-- spec/06, the table after R196: three summations of one row. -/
theorem test_reductions :
    (let s := (base.shape 0x20 4 1).row0 4 8 [0x3F800000, 0x33800000, 0x33800000, 0x33800000]
     Yields (.vfredo 4 5 8 0) s (fun t => t.rowIs 4 4 [0x3F800000] && t.st.flags == 4)
     && Yields (.vfredt 4 5 8 0) s (fun t => t.rowIs 4 4 [0x3F800001] && t.st.flags == 4)
     && Yields (.vfredx 4 5 8 0) s (fun t => t.rowIs 4 4 [0x3F800002] && t.st.flags == 4)) = true := by decide +kernel
/-- spec/07, the examples after R204 and R208. -/
theorem test_slide_reshape :
    Yields (.vslup 8 4 9 0) (((base.shape 0x20 4 1).row0 4 4 [11, 12, 13, 14]).withG 9 0x30001)
      (fun t => t.rowIs 4 8 [0x3F800000, 11, 12, 13]) = true
    ∧ Yields (.vreshape 12 4 7 0) (((base.shape 0x20 6 1).row0 4 4 [1, 2, 3, 4, 5, 6]).withG 7 3)
      (fun t => t.rowIs 4 12 [1, 4, 2, 5, 3, 6]) = true
    ∧ Yields (.vreshape 12 4 7 0) (((base.shape 0x20 6 1).row0 4 4 [1, 2, 3, 4, 5, 6]).withG 7 2)
      (fun t => t.rowIs 4 12 [1, 3, 5, 2, 4, 6]) = true
    ∧ Yields (.vreshape 12 4 7 0) ((base.shape 0x20 6 1).withG 7 4) (fun t => t.st.tcause == 1 && t.st.tepc == 0x1000) = true := by
  decide +kernel
/-- spec/07, the example after R213: a tile of another geometry traps and stays. -/
theorem test_vpopq_qgeom :
    Yields (.vpopq 4 0 0) ((base.shape 0x30 48 8).withHart fun h => { h with tq := h.tq.set 0 [⟨2, 48, 8, true, [], []⟩] })
      (fun t => t.st.tval == 0x0038003000280030 && t.hart.tq[0].length == 1) = true := by decide +kernel
/-- spec/11, the example after R312: offset 0 is added to twice, in element order. -/
theorem test_vamo_order :
    Yields (.vamoAdd 4 6 9 0 0 0 0) ({ ((base.shape 0x30 4 1).row0 8 9 [0, 8, 0, 16]).row0 8 4 [1, 1, 1, 1] with
        mem := (Mem.writeLe [] 0x10004000 8 10).writeLe 0x10004008 8 20 |>.writeLe 0x10004010 8 30 }.withG 6 0x4000)
      (fun t => t.rowIs 8 4 [10, 20, 11, 30] && t.mem.readLe 0x10004000 8 == 12 && t.mem.readLe 0x10004008 8 == 21
        && t.mem.readLe 0x10004010 8 == 31) = true := by decide +kernel
/-- R531: SHA-384 of "abc", the example of FIPS 180-4, and SHAKE256 of nothing, of FIPS 202. -/
theorem test_digests :
    (sha384 [0x61, 0x62, 0x63]).map (·.toNat) =
      [0xCB, 0x00, 0x75, 0x3F, 0x45, 0xA3, 0x5E, 0x8B, 0xB5, 0xA0, 0x3D, 0x69, 0x9A, 0xC6, 0x50, 0x07,
       0x27, 0x2C, 0x32, 0xAB, 0x0E, 0xDE, 0xD1, 0x63, 0x1A, 0x8B, 0x60, 0x5A, 0x43, 0xFF, 0x5B, 0xED,
       0x80, 0x86, 0x07, 0x2B, 0xA1, 0xE7, 0xCC, 0x23, 0x58, 0xBA, 0xEC, 0xA1, 0x34, 0xC8, 0x25, 0xA7]
    ∧ (shake256 [] 32).map (·.toNat) =
      [0x46, 0xB9, 0xDD, 0x2B, 0x0B, 0xA8, 0x8D, 0x13, 0x23, 0x3B, 0x3F, 0xEB, 0x74, 0x3E, 0xEB, 0x24,
       0x3F, 0xCD, 0x52, 0xEA, 0x62, 0xB8, 0x1B, 0x82, 0xB5, 0x0C, 0x27, 0x64, 0x6E, 0xD5, 0x76, 0x2F] := by decide +kernel
/-- spec/22, the example after R508: a calendar of three nodes. -/
theorem test_calendar : calendar [[0, 2, 1], [1, 0, 0], [2, 1, 0]] = [(2, [1, 2, 0]), (1, [2, 0, 1])] := by decide +kernel

/-! ## Witnesses: states and operands that meet the hypotheses of each statement -/

/-- What holds a page of 256 MiB of HBM at 0 for the operations of quad 0 and of H, and one of the Bedrock window above it for
those of H. -/
def heldPages : List TlbEntry :=
  [ ⟨.quad 0, 0, 0, 0x10000000, 0, 0x1000033F⟩, ⟨.hub, 0, 0, 0x10000000, 0, 0x1000033F⟩,
    ⟨.hub, 0, 0x10000000, 0x10000000, 0, 0x1000000003BF⟩ ]
/-- With those pages held. -/
def State.pages (s : State) : State := { s with tlb := heldPages ++ s.tlb }

/-- No link of `base` stops traffic. -/
theorem base_uncut {u : State} (h : u.links = base.links) (d pa : Nat) : u.cut d pa = false := by
  have key : ∀ n, (vget base.links linkDefault n).shut = false := by
    intro n
    by_cases hn : n < 8
    · have : ∀ n, n < 8 → (vget base.links linkDefault n).shut = false := by decide +kernel
      exact this n hn
    · simp only [vget, hn, ↓reduceDIte]
      decide +kernel
  simp only [State.cut, List.any_eq_false, h, key]
  intros
  decide

/-- Whether a result waits. -/
def isWait {α : Type} (r : Res α) : Bool :=
  match r with
  | .wait _ => true
  | .ok _ _ | .trap _ _ _ | .mem _ _ => false
theorem waits_of {α : Type} {r : Res α} (h : isWait r = true) : ∃ u, r = .wait u := by
  cases r with
  | wait u => exact ⟨u, rfl⟩
  | ok _ _ | trap _ _ _ | mem _ _ => cases h
theorem record_waits {s : State} {d : Nat} {w : BitVec 8} {a : Word}
    (h : (a != 0 && decide (a.toNat % 32 = 0) && isWait (s.translate (dispatchAgent d w false) (.plain 1 32) a)) = true) :
    s.RecordWaits d w a := by
  simp only [Bool.and_eq_true, bne_iff_ne, decide_eq_true_eq] at h
  exact ⟨h.1.1, h.1.2, waits_of h.2⟩
theorem no_record {s : State} {d : Nat} {w : BitVec 8} {a : Word}
    (h : (a == 0 || !isWait (s.translate (dispatchAgent d w false) (.plain 1 32) a)) = true) : ¬s.RecordWaits d w a := by
  rintro ⟨h1, _, u, h2⟩
  exact h1 (by simpa [h2, isWait] using h)

/-- An RSTX waits at the head of the vector queue. -/
def State.sending (s : State) : State :=
  s.withHart fun h => { h with vq := [{ waiting with word := BitVec.ofNat 32 (encodeNat (.rstx 0 4 8 9)) }] }
/-- A link has failed. -/
def State.cutLink (s : State) (n : Nat) : State := { s with links := vset s.links n { linkDefault with failed := true } }

/-- A held entry whose accessed and dirty bits are set answers. -/
theorem translate_held {u : State} {a : Agent} {x : Access} {va : Word} {e : TlbEntry}
    (hr : bitAt (vget u.hub.xlroot 0 a.die).toNat 0 = true) (ht : u.tlbFor a va.toNat = some e)
    (hw : withAD x.acc e.pte.toNat = e.pte.toNat) (hp : u.protKind a x e.pte.toNat (pteBase e.pte.toNat + va.toNat % e.size) = none)
    (hc : u.links = base.links) {pa : Nat}
    (hi : (match a.id with | some id => resolveAlias id (pteBase e.pte.toNat + va.toNat % e.size) | none => pteBase e.pte.toNat + va.toNat % e.size) = pa) :
    u.translate a x va = .ok ⟨pa, pteClass e.pte.toNat⟩ u := by
  have hcut : u.cutOff a x (pteBase e.pte.toNat + va.toNat % e.size) ⟨e.pteAt, e.pte.toNat, e.size⟩ = false := by
    simp [State.cutOff, hw, base_uncut hc]
  subst hi
  unfold State.translate
  rw [hr, if_neg (by simp), ht]
  simp only [State.useLeaf]
  rw [if_neg (by simp [hw]), hp]
  simp only [hcut, hw, ↓reduceIte, Bool.false_eq_true] <;> rfl

theorem region_hbm {k : Nat} (h : k < 0x10000000) : region (0x10000000 + k) = .hbm 0 := by
  have h1 : 0x10000000 + k < 0x8000000000 := by omega
  have h2 : (0x10000000 + k) % 0x2000000000 = 0x10000000 + k := by omega
  have h3 : (0x10000000 + k) / 0x2000000000 = 0 := by omega
  have h4 : 0x10000000 + k < 0x1800000000 := by omega
  simp [region, h1, h2, h3, h4]

theorem region_window {k : Nat} (h : k < 0x10000000) : region (0x100000000000 + k) = .bedrock := by
  unfold region
  rw [if_neg (by omega), if_neg (by omega), if_neg (by omega), if_neg (by omega), if_neg (by omega), if_neg (by omega),
    if_neg (by omega), if_neg (by unfold hubBase; omega), if_pos (by omega)]

/-- No storage of the machine's own is set up in `base`. -/
theorem base_open {u : State} {a : Agent} (hh : u.hub = base.hub) (hf : u.frq = base.frq) (pa : Nat) : u.closedTo a pa = false := by
  have h1 : ∀ d, d < 4 → bitAt (vget u.hub.tsbase 0 d).toNat 0 = false := by rw [hh]; decide +kernel
  have h2 : ∀ d, d < 4 → bitAt (vget u.hub.splbase 0 d).toNat 0 = false ∧ (vget u.hub.savcnt 0 d).toNat = 0
      ∧ (vget u.frq frqDefault d).capacity = 0 := by rw [hh, hf]; decide +kernel
  have h3 : u.topoStorage pa = false := by
    simp only [State.topoStorage, List.any_eq_false, List.mem_range]
    intro d hd
    rw [h1 d hd]
    simp
  have h4 : u.ownStorage pa = false := by
    simp only [State.ownStorage, List.any_eq_false, List.mem_range]
    intro d hd
    obtain ⟨p, q, r⟩ := h2 d hd
    rw [p, q, r]
    simp [inRange]
  simp [State.closedTo, h3, h4]

/-- The state that a change of bytes leaves. -/
theorem bytes_only {s u : State} (h : s.BytesOnly { u with gens := s.gens, ingress := s.ingress, poisonAtoms := s.poisonAtoms }) :
    u.hub = s.hub ∧ u.tlb = s.tlb ∧ u.frq = s.frq ∧ u.links = s.links := by
  have := h.1
  exact ⟨by rw [← this], by rw [← this], by rw [← this], by rw [← this]⟩

/-- The operations of `base` on HBM are translated by what is held. -/
theorem maps_hbm {s : State} {a : Agent} {lo len : Nat} (hd : a.die = 0) (hw : a.win = 0) (hc : a.ctl = none)
    (hu : a.units = [.quad 0] ∨ a.units = [.hub]) (ht : s.tlb = heldPages ++ base.tlb) (hh : s.hub = base.hub) (hf : s.frq = base.frq)
    (hk : s.links = base.links) (hl : lo + len ≤ 0x10000000) : s.Maps a 0 lo len (0x10000000 + lo) := by
  refine ⟨fun k hk => ?_, fun u acc n va hb ha hn _ h1 h2 => ?_⟩
  · have := region_hbm (k := lo + k) (by omega)
    rw [← Nat.add_assoc] at this
    simp [this]
  · obtain ⟨e1, e2, e3, e4⟩ := bytes_only hb
    have hva : va.toNat < 0x10000000 := by omega
    have hreg := region_hbm hva
    have hmod : va.toNat % 0x10000000 = va.toNat := Nat.mod_eq_of_lt hva
    have ho := base_open (a := a) (e1.trans hh) (e3.trans hf)
    have key : ∃ e : TlbEntry, u.tlbFor a va.toNat = some e ∧ e.pte = 0x1000033F ∧ e.size = 0x10000000 := by
      unfold State.tlbFor
      rw [e2, ht]
      rcases hu with hu | hu
      · exact ⟨⟨.quad 0, 0, 0, 0x10000000, 0, 0x1000033F⟩, by simp [heldPages, hu, hd, hw, hva], rfl, rfl⟩
      · exact ⟨⟨.hub, 0, 0, 0x10000000, 0, 0x1000033F⟩, by simp [heldPages, hu, hd, hw, hva, List.find?], rfl, rfl⟩
    obtain ⟨e, k1, k2, k3⟩ := key
    have hb' : pteBase e.pte.toNat = 0x10000000 := by rw [k2]; decide
    have hcl : pteClass e.pte.toNat = 0 := by rw [k2]; decide
    have hbits : pteBit e.pte.toNat 5 = true ∧ pteBit e.pte.toNat 2 = true ∧ pteBit e.pte.toNat 3 = true := by rw [k2]; decide
    have hpart : u.samePart 0 0 = true := by simp [State.samePart]
    have := translate_held (u := u) (a := a) (x := .plain acc n) (va := va) (e := e) (pa := 0x10000000 + va.toNat)
      (by rw [hd, e1, hh]; decide +kernel) k1
      (by rw [k2]; have : acc = 0 ∨ acc = 1 := by omega
          rcases this with rfl | rfl
          · show withAD 0 _ = _; decide
          · show withAD 1 _ = _; decide)
      (by rw [hb', k3, hmod]
          have hacc : (acc == 3) = false ∧ (acc == 2) = false := by constructor <;> (simp; omega)
          have hbound : a.bound = 4 ∨ a.bound = 0 := by
            simp only [Agent.bound, hd]
            split <;> simp
          rcases hbound with hbound | hbound <;>
            simp [State.protKind, hbits, hcl, hreg, hc, Access.plain, hacc.1, hacc.2, State.reached, ho, hbound, hpart])
      (e4.trans hk)
      (by rw [hb', k3, hmod]; cases a.id <;> simp [resolveAlias, hreg])
    rw [this, hcl]
    congr 2
    omega

/-- The operations of `base` of H on the Bedrock window are translated by what is held. -/
theorem maps_window {s : State} {a : Agent} {lo len : Nat} (hd : a.die = 0) (hw : a.win = 0) (hc : a.ctl = none)
    (hu : a.units = [.hub]) (ht : s.tlb = heldPages ++ base.tlb) (hh : s.hub = base.hub)
    (hk : s.links = base.links) (hl : 0x10000000 ≤ lo ∧ lo + len ≤ 0x20000000) :
    s.Maps a 2 lo len (0x100000000000 + (lo - 0x10000000)) := by
  refine ⟨fun k hk => ?_, fun u acc n va hb ha hn _ h1 h2 => ?_⟩
  · have := region_window (k := lo - 0x10000000 + k) (by omega)
    rw [← Nat.add_assoc] at this
    simp [this]
  · obtain ⟨e1, e2, _, e4⟩ := bytes_only hb
    have hlo : 0x10000000 ≤ va.toNat ∧ va.toNat < 0x20000000 := by omega
    obtain ⟨k, hva⟩ : ∃ k, va.toNat = 0x10000000 + k := ⟨va.toNat - 0x10000000, by omega⟩
    have hreg := region_window (k := k) (by omega)
    have hmod : va.toNat % 0x10000000 = k := by omega
    have key : ∃ e : TlbEntry, u.tlbFor a va.toNat = some e ∧ e.pte = 0x1000000003BF ∧ e.size = 0x10000000 := by
      unfold State.tlbFor
      rw [e2, ht]
      exact ⟨⟨.hub, 0, 0x10000000, 0x10000000, 0, 0x1000000003BF⟩, by
        have : decide (va.toNat < 0x10000000) = false := by simp; omega
        simp [heldPages, hu, hd, hw, hlo, List.find?, this], rfl, rfl⟩
    obtain ⟨e, k1, k2, k3⟩ := key
    have hb' : pteBase e.pte.toNat = 0x100000000000 := by rw [k2]; decide
    have hcl : pteClass e.pte.toNat = 2 := by rw [k2]; decide
    have hbits : pteBit e.pte.toNat 5 = true ∧ pteBit e.pte.toNat 2 = true ∧ pteBit e.pte.toNat 3 = true := by rw [k2]; decide
    have := translate_held (u := u) (a := a) (x := .plain acc n) (va := va) (e := e) (pa := 0x100000000000 + k)
      (by rw [hd, e1, hh]; decide +kernel) k1
      (by rw [k2]; have : acc = 0 ∨ acc = 1 := by omega
          rcases this with rfl | rfl
          · show withAD 0 _ = _; decide
          · show withAD 1 _ = _; decide)
      (by rw [hb', k3, hmod]
          have hacc : (acc == 3) = false ∧ (acc == 2) = false := by constructor <;> (simp; omega)
          simp [State.protKind, hbits, hcl, hreg, hc, Access.plain, hacc.1, hacc.2])
      (e4.trans hk)
      (by rw [hb', k3, hmod]
          have : ∀ id, resolveAlias id (0x100000000000 + k) = 0x100000000000 + k := by
            intro id
            unfold resolveAlias
            rw [hreg]
          cases a.id
          · rfl
          · exact this _)
    have hat : 0x100000000000 + k = 0x100000000000 + (lo - 0x10000000) + (va.toNat - lo) := by omega
    rw [hat, hcl] at this
    exact this

theorem witness_ScalarIntegerResults :
    base.ScalarReady .copy true true [5, 6, 7] ∧ base.ScalarReady .copy true true [0, 31]
    ∧ base.byFeeder.ScalarReady .copy true true [5, 5, 5] ∧ control.ScalarReady .copy true true [5, 6, 7]
    ∧ (base.withPfx pfxTrue).ScalarReady .copy true true [5, 6, 7] ∧ base.ScalarReady .copy true true [5, 6, base.st.lastG]
    ∧ (base.withMain fun t => { t with lastG := 31 }).ScalarReady .copy true true [5, 6, 31] ∧ control.ScalarReady .copy true true [5]
    ∧ base.rd 0 = 0 ∧ base.rd 5 ≠ 0 := by
  with_reducible and_intros
  all_goals first
    | decide +kernel
    | exact scalar_ready (by decide +kernel) | exact vec_ready (by decide +kernel) (by decide +kernel)
    | exact fits_of (by decide +kernel) | exact sig_matches (by decide +kernel) | exact reaches_of (by decide +kernel)
    | exact words_of (by decide +kernel) | exact okIs_eq (by decide +kernel) | exact memIs_ex (by decide +kernel)
    | exact isOk_ex (by decide +kernel) | exact sig_fails (by decide +kernel) | (unfold State.Calm; decide +kernel)
    | (unfold State.Quiet State.Calm; decide +kernel) | (unfold State.M0Clear; decide +kernel) | (unfold Apart; decide +kernel)
    | (unfold State.ReleaseWaits; decide +kernel)

/-- With the open signature that an instruction completes. -/
def State.signed (s : State) (i : Instr) : State :=
  s.withMain fun t => { t with sig := some ⟨crcParcels 0xFFFF (encodeNat i) i.size, 0xFFFF⟩ }
theorem sig_fails {s : State} {i : Instr} {n : Nat}
    (h : (sigAdd s.st.sig (encodeNat i) n).any (fun o => o.crc != o.expected) = true) : ¬s.SigMatches (encodeNat i) n := by
  intro k
  cases e : sigAdd s.st.sig (encodeNat i) n with
  | none => simp [e] at h
  | some o => simp [e, k o e] at h

theorem witness_ControlTransfers :
    base.ScalarReady .never true true [5, 6] ∧ base.ScalarReady .never true true [base.st.lastG]
    ∧ base.rd 5 ≠ base.rd 6 ∧ base.SigMatches (encodeNat (.beq 5 5 4)) 4
    ∧ (base.signed (.beq 5 5 4)).ScalarReady .never true true [5, 5]
    ∧ (base.signed (.beq 5 5 4)).SigMatches (encodeNat (.beq 5 5 4)) 4 ∧ ¬(base.signed (.beq 5 5 4)).SigMatches (encodeNat (.beq 5 5 6)) 4
    ∧ base.SigMatches (encodeNat (.jal 5 8)) 4 ∧ ¬(base.signed (.jal 5 8)).SigMatches (encodeNat (.jal 5 10)) 4
    ∧ (base.rd 8 + (0 : BitVec 12).signExtend 64).getLsbD 0 = false ∧ (base.rd 8 + (1 : BitVec 12).signExtend 64).getLsbD 0 = true
    ∧ base.SigMatches (encodeNat (.jalr 5 8 0)) 4 ∧ ¬(base.signed (.jalr 5 8 0)).SigMatches (encodeNat (.jalr 6 8 0)) 4 := by
  with_reducible and_intros
  all_goals first
    | decide +kernel
    | exact scalar_ready (by decide +kernel) | exact vec_ready (by decide +kernel) (by decide +kernel)
    | exact fits_of (by decide +kernel) | exact sig_matches (by decide +kernel) | exact reaches_of (by decide +kernel)
    | exact words_of (by decide +kernel) | exact okIs_eq (by decide +kernel) | exact memIs_ex (by decide +kernel)
    | exact isOk_ex (by decide +kernel) | exact sig_fails (by decide +kernel) | (unfold State.Calm; decide +kernel)
    | (unfold State.Quiet State.Calm; decide +kernel) | (unfold State.M0Clear; decide +kernel) | (unfold Apart; decide +kernel)
    | (unfold State.ReleaseWaits; decide +kernel)

theorem witness_ControlStatusRegisters :
    csrListed 0x001 = true ∧ base.ScalarReady .never true true [5, 6] ∧ base.hart.vq = []
    ∧ csrSupervisor 0x000 = true ∧ base.hart.sv = false ∧ base.byService.hart.sv = true
    ∧ base.byService.ScalarReady .never true true [5, 0] ∧ csrSupervisor 0x001 = false
    -- a stream that waits, on FCSR and on layer 2; one that does not, on STATUS
    ∧ (base.withHart fun h => { h with vq := [waiting] }).ScalarReady .never true true [5, 6]
    ∧ (base.withHart fun h => { h with vq := [waiting] }).hart.vq ≠ [] ∧ csrListed 0x020 = true ∧ 0x020 ≤ (0x020 : BitVec 12).toNat
    ∧ ((0x00B : BitVec 12) ≠ 0x001 ∧ ¬0x020 ≤ (0x00B : BitVec 12).toNat)
    -- a stream that may not
    ∧ control.ScalarReady .never true true [5, 6] ∧ control.hart.isControl = true ∧ csrListed 0x028 = true
    ∧ csrListed 0x026 = true ∧ base.byFeeder.ScalarReady .never true true [5, 6] ∧ base.byFeeder.onFeeder = true := by
  with_reducible and_intros
  all_goals first
    | decide +kernel
    | exact scalar_ready (by decide +kernel) | exact vec_ready (by decide +kernel) (by decide +kernel)
    | exact fits_of (by decide +kernel) | exact sig_matches (by decide +kernel) | exact reaches_of (by decide +kernel)
    | exact words_of (by decide +kernel) | exact okIs_eq (by decide +kernel) | exact memIs_ex (by decide +kernel)
    | exact isOk_ex (by decide +kernel) | exact sig_fails (by decide +kernel) | (unfold State.Calm; decide +kernel)
    | (unfold State.Quiet State.Calm; decide +kernel) | (unfold State.M0Clear; decide +kernel) | (unfold Apart; decide +kernel)
    | (unfold State.ReleaseWaits; decide +kernel)

theorem witness_TrapEntryAndEscalation :
    (base.st.tvec ≠ 0 ∧ base.st.ta = false)
    ∧ ((base.withPfx pfxTrue).st.tvec ≠ 0 ∧ (base.withPfx pfxTrue).st.ta = false ∧ (base.withPfx pfxTrue).st.pfxp = true)
    ∧ (base.withMain fun t => { t with tvec := 0 }).st.tvec = 0 ∧ (base.withMain fun t => { t with ta := true }).st.ta = true
    ∧ control.hart.isControl = true ∧ base.hart.isControl = false := by
  with_reducible and_intros
  all_goals first
    | decide +kernel
    | exact scalar_ready (by decide +kernel) | exact vec_ready (by decide +kernel) (by decide +kernel)
    | exact fits_of (by decide +kernel) | exact sig_matches (by decide +kernel) | exact reaches_of (by decide +kernel)
    | exact words_of (by decide +kernel) | exact okIs_eq (by decide +kernel) | exact memIs_ex (by decide +kernel)
    | exact isOk_ex (by decide +kernel) | exact sig_fails (by decide +kernel) | (unfold State.Calm; decide +kernel)
    | (unfold State.Quiet State.Calm; decide +kernel) | (unfold State.M0Clear; decide +kernel) | (unfold Apart; decide +kernel)
    | (unfold State.ReleaseWaits; decide +kernel)

/-- A vector store waits behind the head of the queue. -/
def storing : State := base.withHart fun h => { h with vq := [waiting, { waiting with word := BitVec.ofNat 32 (encodeNat (.vst 4 8 0)) }] }

theorem witness_TrapReturnAndStreamControl :
    base.ScalarReady .never true true [] ∧ (∀ o, base.st.sig = some o → o.crc = o.expected)
    ∧ base.hart.late = [] ∧ base.hart.vq = [] ∧ base.onFeeder = false ∧ base.byFeeder.onFeeder = true
    ∧ (storing.ScalarReady .never true true [] ∧ storing.onFeeder = false ∧ ∃ e ∈ storing.hart.vq, wordStores e.word.toNat = true)
    ∧ (∀ e ∈ (base.withHart fun h => { h with vq := [waiting] }).hart.vq, wordStores e.word.toNat = false)
    ∧ (let s : State := base.withMain fun t => { t with sig := some ⟨0xFFFF, 0xFFFF⟩ };
      s.ScalarReady .never true true [] ∧ s.st.sig = some ⟨0xFFFF, 0xFFFF⟩)
    ∧ (let s : State := base.withMain fun t => { t with sig := some ⟨0xFFFF, 0⟩ };
      s.ScalarReady .never true true [] ∧ ∀ o, s.st.sig = some o → o.crc ≠ o.expected) := by
  with_reducible and_intros
  all_goals first
    | decide +kernel
    | exact scalar_ready (by decide +kernel) | exact vec_ready (by decide +kernel) (by decide +kernel)
    | exact fits_of (by decide +kernel) | exact sig_matches (by decide +kernel) | exact reaches_of (by decide +kernel)
    | exact words_of (by decide +kernel) | exact okIs_eq (by decide +kernel) | exact memIs_ex (by decide +kernel)
    | exact isOk_ex (by decide +kernel) | exact sig_fails (by decide +kernel) | (unfold State.Calm; decide +kernel)
    | (unfold State.Quiet State.Calm; decide +kernel) | (unfold State.M0Clear; decide +kernel) | (unfold Apart; decide +kernel)
    | (unfold State.ReleaseWaits; decide +kernel)

theorem witness_PrefixRules :
    (let s : State := base.withPfx pfxFalse
      let w := encodeNat (.add 5 6 7);
      (Instr.add 5 6 7).wf = true ∧ (Instr.add 5 6 7).event = false ∧ s.st.pfxp = true ∧ s.atHead = false ∧ successorKind w 4 = 2
      ∧ w / 2 % 64 < 0x18 ∧ pfxPen s.st.pfxd = true ∧ ((s.rd (pfxSrc s.st.pfxd) ≠ 0) ↔ pfxPol s.st.pfxd = true)
      ∧ s.st.pend = 0 ∧ s.hart.vq = [] ∧ pfxCen s.st.pfxd = false)
    ∧ (Instr.cAdd 5 6).wf = true ∧ (Instr.cAdd 5 6).size = 2 ∧ encodeNat (.cAdd 5 6) / 2 % 32 ≤ 13 ∧ successorKind (encodeNat (.cAdd 5 6)) 2 = 2
    ∧ successorKind (encodeNat (.std 5 6 0)) 4 = 1
    -- none taken: by a scalar form, by one with a copy, by a vector form whose groups fit, by the feeder
    ∧ (base.withPfx pfxTrue).st.tvec ≠ 0 ∧ (base.withPfx pfxTrue).st.ta = false ∧ (base.withPfx pfxTrue).onFeeder = false
    ∧ pfxCen (base.withPfx pfxTrue).st.pfxd = true ∧ entersQueue (encodeNat (.std 5 6 0)) = false
    ∧ successorKind (encodeNat (.bne 5 6 4)) 4 = 0 ∧ (Instr.bne 5 6 4).wf = true ∧ entersQueue (encodeNat (.bne 5 6 4)) = false
    ∧ successorKind (encodeNat (.vcmpLt 3 6 7 0 1)) 4 = 1 ∧ entersQueue (encodeNat (.vcmpLt 3 6 7 0 1)) = true
    ∧ GroupsFit (base.withPfx pfxTrue) (encodeNat (.vcmpLt 3 6 7 0 1))
    ∧ (base.byFeeder.withPfx pfxTrue).onFeeder = true ∧ feederForm (encodeNat (.mclr 0)) 4 = true ∧ (Instr.mclr 0).wf = true
    ∧ ¬encodeNat (.mclr 0) / 2 % 64 < 0x18 ∧ (base.byFeeder.withPfx pfxTrue).st.tvec ≠ 0
    ∧ (let s := (base.withHart fun h => { h with vq := [waiting] }).withPfx pfxTrue;
      s.onFeeder = false ∧ s.hart.vq ≠ [] ∧ GroupsFit s (encodeNat (.vcmpLt 3 6 7 0 1)) ∧ pfxCen s.st.pfxd = true ∧ s.st.tvec ≠ 0) := by
  with_reducible and_intros
  all_goals first
    | (unfold GroupsFit; decide +kernel)
    | decide +kernel
    | exact scalar_ready (by decide +kernel) | exact vec_ready (by decide +kernel) (by decide +kernel)
    | exact fits_of (by decide +kernel) | exact sig_matches (by decide +kernel) | exact reaches_of (by decide +kernel)
    | exact words_of (by decide +kernel) | exact okIs_eq (by decide +kernel) | exact memIs_ex (by decide +kernel)
    | exact isOk_ex (by decide +kernel) | exact sig_fails (by decide +kernel) | (unfold State.Calm; decide +kernel)
    | (unfold State.Quiet State.Calm; decide +kernel) | (unfold State.M0Clear; decide +kernel) | (unfold Apart; decide +kernel)
    | (unfold State.ReleaseWaits; decide +kernel)

/-- Scalar queue 0 full, and q4 with one entry. -/
def queued : State := base.withHart fun h => { h with q := ((h.q.set 0 (List.replicate 32 1)).set 4 (List.replicate 32 2)).set 5 [3] }

theorem witness_ScalarQueues :
    base.ScalarReady .never true false [5, 6] ∧ base.hart.hasFeeder = true ∧ base.hart.late = []
    ∧ (base.withHart fun h => { h with hasFeeder := false }).hart.hasFeeder = false
    -- the main stream pushes into q4 and q5
    ∧ (decide ((4 : BitVec 3).toNat < 4) == base.onFeeder) = true ∧ (base.hart.queue 4).length < 32
    ∧ (queued.ScalarReady .never true false [5, 6] ∧ 32 ≤ (queued.hart.queue 4).length)
    -- it pops from q0 to q3
    ∧ (decide ((3 : BitVec 3).toNat < 4) == base.onFeeder) = false ∧ base.hart.queue 3 = []
    ∧ queued.hart.queue 0 = 1 :: List.replicate 31 1
    -- the feeder the other way round
    ∧ base.byFeeder.ScalarReady .never true false [5, 6] ∧ (decide ((3 : BitVec 3).toNat < 4) == base.byFeeder.onFeeder) = true := by
  with_reducible and_intros
  all_goals first
    | decide +kernel
    | exact scalar_ready (by decide +kernel) | exact vec_ready (by decide +kernel) (by decide +kernel)
    | exact fits_of (by decide +kernel) | exact sig_matches (by decide +kernel) | exact reaches_of (by decide +kernel)
    | exact words_of (by decide +kernel) | exact okIs_eq (by decide +kernel) | exact memIs_ex (by decide +kernel)
    | exact isOk_ex (by decide +kernel) | exact sig_fails (by decide +kernel) | (unfold State.Calm; decide +kernel)
    | (unfold State.Quiet State.Calm; decide +kernel) | (unfold State.M0Clear; decide +kernel) | (unfold Apart; decide +kernel)
    | (unfold State.ReleaseWaits; decide +kernel)

theorem witness_ScalarLoadsAndStores :
    base.ScalarReady .copy true true [5, 8] ∧ base.ScalarReady .pred true true [5, 8] ∧ base.Calm
    ∧ (base.rd 8 + (0 : BitVec 12).signExtend 64).toNat % 8 = 0 ∧ (base.rd 8 + (4 : BitVec 12).signExtend 64).toNat % 8 ≠ 0
    ∧ base.translate base.agent (.plain 0 8) 0x4000 = .ok ⟨0x10004000, 0⟩ base
    ∧ base.fetchValue base.agent ⟨0x10004000, 0⟩ 8 = .ok 0 base
    ∧ base.translate base.agent (.plain 1 8) 0x4000 = .ok ⟨0x10004000, 0⟩ base
    ∧ ({ base with memPoison := [0x10004000] } : State).isPoisoned (base.agent.readAt ⟨0x10004000, 0⟩) 8 = true
    -- without a translation
    ∧ (base.withG 8 0x7000000000).ScalarReady .copy true true [5, 8] ∧ (base.withG 8 0x7000000000).Calm
    ∧ (∃ f, (base.withG 8 0x7000000000).translate base.agent (.plain 0 8) 0x7000000000 = .mem f (base.withG 8 0x7000000000))
    ∧ ∃ f, (base.withG 8 0x7000000000).translate base.agent (.plain 1 8) 0x7000000000 = .mem f (base.withG 8 0x7000000000) := by
  with_reducible and_intros
  all_goals first
    | decide +kernel
    | exact scalar_ready (by decide +kernel) | exact vec_ready (by decide +kernel) (by decide +kernel)
    | exact fits_of (by decide +kernel) | exact sig_matches (by decide +kernel) | exact reaches_of (by decide +kernel)
    | exact words_of (by decide +kernel) | exact okIs_eq (by decide +kernel) | exact memIs_ex (by decide +kernel)
    | exact isOk_ex (by decide +kernel) | exact sig_fails (by decide +kernel) | (unfold State.Calm; decide +kernel)
    | (unfold State.Quiet State.Calm; decide +kernel) | (unfold State.M0Clear; decide +kernel) | (unfold Apart; decide +kernel)
    | (unfold State.ReleaseWaits; decide +kernel)

theorem witness_MemoryReadsAndWrites :
    (∀ o, region (⟨0x10004000, 0⟩ : Xl).pa ≠ .hub o) ∧ (∀ o, region (⟨0x100000000000, 2⟩ : Xl).pa ≠ .hub o)
    ∧ (∀ o, region (⟨0x4000, 3⟩ : Xl).pa ≠ .hub o) ∧ (⟨0x10004000, 0⟩ : Xl).cls ≠ 3 ∧ (⟨0x4000, 3⟩ : Xl).cls = 3
    ∧ region (⟨0x10004000, 0⟩ : Xl).pa ≠ .bedrock ∧ 0 ∈ base.replicaDies base.agent ∧ 3 ∈ base.replicaDies base.agent
    ∧ base.awaits (fun _ => true) = false := by
  have h1 : region (⟨0x10004000, 0⟩ : Xl).pa = .hbm 0 := by decide +kernel
  have h2 : region (⟨0x100000000000, 2⟩ : Xl).pa = .bedrock := by decide +kernel
  have h3 : region (⟨0x4000, 3⟩ : Xl).pa = .hbm 0 := by decide +kernel
  refine ⟨by simp [h1], by simp [h2], by simp [h3], ?_⟩
  decide +kernel

/-- Page tables of die 0 that map 256 MiB of HBM at address 0, by a leaf with the bits `p`. -/
def walked (p : Nat) : State :=
  { base with
    tlb := []
    hub := { base.hub with xlroot := vset base.hub.xlroot 0 0x20000001 }
    mem := (((base.mem.writeLe 0x20000000 8 0x20010001).writeLe 0x20010000 8 0x20020001).writeLe 0x20020000 8 0x20030001).writeLe
      0x20030000 8 (0x10000003 + p) }

/-- The same, of die 1's HBM behind the failed link 0, where the completion record of the hart of `base` goes. -/
def far : State := ((walked 0x200000033C).cutLink 0).withHart fun h => { h with doneAddr := 0x4000 }

/-- The leaf of `walked` held by the core, as it was with `q`. -/
def heldLeaf (p q : Nat) : State :=
  { walked p with tlb := [⟨.core 0, 0, 0, 2 ^ 28, 0x20030000, BitVec.ofNat 64 (0x10000003 + q)⟩] }

theorem witness_Translation :
    (vget State.reset.hub.xlroot 0 0).toNat % 2 = 0
    ∧ (let s : State := { base with hub := { base.hub with xlroot := vset base.hub.xlroot 0 0x9000000001 } };
      (vget s.hub.xlroot 0 0).toNat % 2 = 1 ∧ s.tableAt 0 ((vget s.hub.xlroot 0 0).toNat / 2 ^ 16 % 2 ^ 40 * 2 ^ 16) = false)
    ∧ (walked 0x3C).tlbFor base.agent 0x4000 = none
    ∧ WalkAt (walked 0x3C) base.agent 0x4000 4 0x20000000 ∧ WalkAt (walked 0x3C) base.agent 0x4000 1 0x20030000
    -- an entry that is not valid, one that is malformed, and a leaf
    ∧ (walked 0x3C).mem.readLe (0x20000000 + 8 * walkIndex (2 ^ 64) 4) 8 % 2 = 0
    ∧ (walked 0x800).mem.readLe (0x20030000 + 8 * walkIndex 0x4000 1) 8 % 2 = 1
    ∧ (walked 0x800).malformed 0 ((walked 0x800).mem.readLe (0x20030000 + 8 * walkIndex 0x4000 1) 8) 1 = true
    ∧ (walked 0x3C).malformed 0 ((walked 0x3C).mem.readLe (0x20030000 + 8 * walkIndex 0x4000 1) 8) 1 = false
    ∧ (walked 0x3C).mem.readLe (0x20030000 + 8 * walkIndex 0x4000 1) 8 / 2 % 2 = 1
    -- held: out of date and changed, and as it is in memory
    ∧ ((heldLeaf 0x3C 0x13C).tlbFor base.agent 0x4000).isSome = true
    ∧ withAD 1 0x1000013F ≠ 0x1000013F ∧ (heldLeaf 0x3C 0x13C).mem.readLe 0x20030000 8 ≠ 0x1000013F
    ∧ withAD 0 0x1000013F = 0x1000013F ∧ (heldLeaf 0x13C 0x13C).mem.readLe 0x20030000 8 = 0x1000013F
    -- the leaf's checks, and a link that has failed
    ∧ ¬WayShut (walked 0x3C) base.agent.start 0x10004000 ∧ ¬WayShut (walked 0x3C) base.agent.die 0x20030000
    ∧ WayShut { control with links := vset control.links 4 { linkDefault with up := false, failed := true } } control.agent.start 0x10004000
    ∧ WayShut { control with links := vset control.links 4 { linkDefault with frames := #v[2 ^ 48, 0] } } control.agent.die 0x20000000 := by
  have h4 : WalkAt (walked 0x3C) base.agent 0x4000 4 0x20000000 :=
    (show ((vget (walked 0x3C).hub.xlroot 0 base.agent.die).toNat / 2 ^ 16 % 2 ^ 40 * 2 ^ 16) = 0x20000000 by decide +kernel) ▸
      WalkAt.root (by decide +kernel) (by decide +kernel)
  have h3 : WalkAt (walked 0x3C) base.agent 0x4000 3 0x20010000 :=
    WalkAt.down (e := 0x20010001) h4 (by decide +kernel) (by unfold WayShut; decide +kernel) (by decide) (by decide +kernel) (by decide)
  have h2 : WalkAt (walked 0x3C) base.agent 0x4000 2 0x20020000 :=
    WalkAt.down (e := 0x20020001) h3 (by decide +kernel) (by unfold WayShut; decide +kernel) (by decide) (by decide +kernel) (by decide)
  have h1 : WalkAt (walked 0x3C) base.agent 0x4000 1 0x20030000 :=
    WalkAt.down (e := 0x20030001) h2 (by decide +kernel) (by unfold WayShut; decide +kernel) (by decide) (by decide +kernel) (by decide)
  with_reducible and_intros
  all_goals first | exact h4 | exact h1 | decide +kernel | (unfold WayShut; decide +kernel)

theorem witness_ScalarAtomics :
    base.ScalarReady .never true true [5, 8, 6] ∧ base.ScalarReady .never true true [5, 8] ∧ base.ScalarReady .never true true [8, 6]
    ∧ base.hart.late = [] ∧ base.Calm ∧ (base.rd 8).toNat % 8 = 0 ∧ (base.withG 8 0x4004).ScalarReady .never true true [5, 8, 6]
    ∧ (base.withG 8 0x4004).rd 8 = 0x4004 ∧ ¬base.ReleaseWaits 5
    ∧ base.translate base.agent (.plain 2 8) (base.rd 8) = .ok ⟨0x10004000, 0⟩ base
    ∧ base.translate base.agent ⟨0, 4, .sync, none⟩ (base.rd 8) = .ok ⟨0x10004000, 0⟩ base
    ∧ base.fetchValue base.agent ⟨0x10004000, 0⟩ 4 = .ok 0 base ∧ base.isPoisoned (base.agent.readAt ⟨0x10004000, 0⟩) 4 = false
    ∧ base.translate base.agent ⟨1, 4, .sync, none⟩ (base.rd 8) = .ok ⟨0x10004000, 0⟩ base
    ∧ (let s : State := { base with ingress := [⟨0x100000000000, [], none, none, false, none, false⟩] };
      s.ScalarReady .never true true [8, 6] ∧ s.ReleaseWaits 5 ∧ ¬s.ReleaseWaits 4)
    ∧ (let s : State := base.withHart fun h => { h with vq := [waiting, { waiting with word := BitVec.ofNat 32 (encodeNat (.rstx 0 4 8 9)) }] };
      s.ScalarReady .never true true [8, 6] ∧ s.ReleaseWaits 3)
    ∧ (∃ f, (base.withG 8 0x7000000000).translate base.agent (.plain 2 8) 0x7000000000 = .mem f (base.withG 8 0x7000000000))
    ∧ (∃ f, (base.withG 8 0x7000000000).translate base.agent ⟨0, 4, .sync, none⟩ 0x7000000000 = .mem f (base.withG 8 0x7000000000))
    ∧ ∃ f, (base.withG 8 0x7000000000).translate base.agent ⟨1, 4, .sync, none⟩ 0x7000000000 = .mem f (base.withG 8 0x7000000000) := by
  with_reducible and_intros
  all_goals first
    | decide +kernel
    | exact scalar_ready (by decide +kernel) | exact vec_ready (by decide +kernel) (by decide +kernel)
    | exact fits_of (by decide +kernel) | exact sig_matches (by decide +kernel) | exact reaches_of (by decide +kernel)
    | exact words_of (by decide +kernel) | exact okIs_eq (by decide +kernel) | exact memIs_ex (by decide +kernel)
    | exact isOk_ex (by decide +kernel) | exact sig_fails (by decide +kernel) | (unfold State.Calm; decide +kernel)
    | (unfold State.Quiet State.Calm; decide +kernel) | (unfold State.M0Clear; decide +kernel) | (unfold Apart; decide +kernel)
    | (unfold State.ReleaseWaits; decide +kernel)

theorem witness_FormatArithmetic :
    (let l : Layout := ⟨32, 23, 127, 0x7F7FFFFF, some 0x7F800000, 0x7FC00000⟩;
      (fmtF32, l) ∈ layouts ∧ l.inf ≠ none ∧ l.value 0x3FC00000 = .fin false (3 / 2) ∧ l.value 0xFF800000 = .inf true
      ∧ l.value 0x7F800001 = .nan true ∧ l.value 0x80000001 = .fin true (-1 * 2 ^ (-149 : Int)))
    ∧ (fmtE4m3, ⟨8, 3, 7, 0x7E, none, 0x7F⟩) ∈ layouts
    ∧ ((1 : Nat) : Rat) ≤ 3 / 2 ∧ (3 / 2 : Rat) < (1 : Nat) + 1 := by
  with_reducible and_intros
  all_goals first | decide +kernel | simp [layouts]

theorem witness_ScalarFloatingPoint :
    base.ScalarReady .copy true true [5, 6, 7] ∧ (base.withPfx pfxTrue).ScalarReady .copy true true [0, 6, 7]
    ∧ base.byFeeder.ScalarReady .copy true true [5, 6, 7] ∧ control.ScalarReady .copy true true [5, 6, 7] := by
  with_reducible and_intros
  all_goals first
    | decide +kernel
    | exact scalar_ready (by decide +kernel) | exact vec_ready (by decide +kernel) (by decide +kernel)
    | exact fits_of (by decide +kernel) | exact sig_matches (by decide +kernel) | exact reaches_of (by decide +kernel)
    | exact words_of (by decide +kernel) | exact okIs_eq (by decide +kernel) | exact memIs_ex (by decide +kernel)
    | exact isOk_ex (by decide +kernel) | exact sig_fails (by decide +kernel) | (unfold State.Calm; decide +kernel)
    | (unfold State.Quiet State.Calm; decide +kernel) | (unfold State.M0Clear; decide +kernel) | (unfold Apart; decide +kernel)
    | (unfold State.ReleaseWaits; decide +kernel)

theorem witness_VectorConfiguration :
    base.ScalarReady .never false false [5, 9] ∧ base.hart.vq = [] ∧ (base.rd 9).toNat ≠ 0 ∧ (base.rd 0).toNat = 0
    ∧ base.SigMatches (encodeNat (.strip 5 9 4)) 4 ∧ base.ScalarReady .never true false [5, 9]
    ∧ (base.signed (.strip 5 9 4)).ScalarReady .never false false [5, 9] ∧ ¬(base.signed (.strip 5 9 4)).SigMatches (encodeNat (.strip 5 9 6)) 4
    ∧ base.byFeeder.ScalarReady .never true false [5, 9] ∧ base.byFeeder.onFeeder = true
    ∧ (let s : State := base.withHart fun h => { h with vq := [waiting] };
      s.ScalarReady .never false false [5, 9] ∧ s.st.grant = s.newWidth ∧ ∀ e ∈ s.hart.vq, e.isVldff = false)
    ∧ (let s : State := base.withHart fun h => { h with vq := [waiting], share := 4 };
      s.ScalarReady .never false false [5, 9] ∧ s.hart.vq ≠ [] ∧ s.st.grant ≠ s.newWidth)
    ∧ (let s : State := base.withHart fun h => { h with vq := [waiting, { waiting with word := BitVec.ofNat 32 (encodeNat (.vldff 4 8 0)) }] };
      s.ScalarReady .never false false [5, 9] ∧ ∃ e ∈ s.hart.vq, e.isVldff = true) := by
  with_reducible and_intros
  all_goals first
    | decide +kernel
    | exact scalar_ready (by decide +kernel) | exact vec_ready (by decide +kernel) (by decide +kernel)
    | exact fits_of (by decide +kernel) | exact sig_matches (by decide +kernel) | exact reaches_of (by decide +kernel)
    | exact words_of (by decide +kernel) | exact okIs_eq (by decide +kernel) | exact memIs_ex (by decide +kernel)
    | exact isOk_ex (by decide +kernel) | exact sig_fails (by decide +kernel) | (unfold State.Calm; decide +kernel)
    | (unfold State.Quiet State.Calm; decide +kernel) | (unfold State.M0Clear; decide +kernel) | (unfold Apart; decide +kernel)
    | (unfold State.ReleaseWaits; decide +kernel)

/-- An accepted copy of CC0 of hart 1: 16 bytes within 0x4000 to 0x6000. -/
def copyOp : Op where
  id := 1
  ctx := .copy 1 0
  num := 1
  kind := .cpy 0x5000 0x4000 16
  issuer := 1
  ctl := none
  feeder := false
  token := 5
  win := 0
  sv := false
  hartid := 0
  fab := none
  also := none
  stage := .accepted

theorem witness_ExitInstruction :
    base.ScalarReady .never true false [] ∧ base.byFeeder.ScalarReady .never true false [] ∧ base.byFeeder.onFeeder = true
    ∧ base.onFeeder = false ∧ base.hart.vq = [] ∧ base.hart.late = [] ∧ base.occupied = true ∧ base.ops = [] ∧ base.hart.isSaved = false
    ∧ base.hart.doneAddr = 0
    ∧ (base.withHart fun h => { h with vq := [waiting] }).ScalarReady .never true false []
    ∧ ({ base with ops := [copyOp] } : State).ops = [copyOp] ∧ copyOp.ctx = .copy base.hart.tag 0
    ∧ (let s : State := (walked 0x33C).withHart fun h => { h with doneAddr := 0x5000 };
      s.ScalarReady .never true false [] ∧ s.hart.vq = [] ∧ s.hart.late = [] ∧ s.hart.doneAddr ≠ 0 ∧ s.hart.doneAddr.toNat % 32 = 0
      ∧ s.translate (dispatchAgent s.hart.die s.hart.recWin false) (.plain 1 32) s.hart.doneAddr = .ok ⟨0x10005000, 0⟩ s)
    ∧ ¬base.RecordWaits base.hart.die base.hart.recWin base.hart.doneAddr
    ∧ far.ScalarReady .never true false [] ∧ far.RecordWaits far.hart.die far.hart.recWin far.hart.doneAddr := by
  with_reducible and_intros
  all_goals first
    | exact record_waits (by decide +kernel) | exact no_record (by decide +kernel)
    | decide +kernel
    | exact scalar_ready (by decide +kernel) | exact vec_ready (by decide +kernel) (by decide +kernel)
    | exact fits_of (by decide +kernel) | exact sig_matches (by decide +kernel) | exact reaches_of (by decide +kernel)
    | exact words_of (by decide +kernel) | exact okIs_eq (by decide +kernel) | exact memIs_ex (by decide +kernel)
    | exact isOk_ex (by decide +kernel) | exact sig_fails (by decide +kernel) | (unfold State.Calm; decide +kernel)
    | (unfold State.Quiet State.Calm; decide +kernel) | (unfold State.M0Clear; decide +kernel) | (unfold Apart; decide +kernel)
    | (unfold State.ReleaseWaits; decide +kernel)

/-- A second hart that is saved and not ready, with a stopped copy and a stream, one that is killed, a copy that goes on, and a
fault record queue of die 0 with one record. -/
def served : State :=
  { base.byService with
    others := [{ Hart.reset with tag := 2, run := .saved false }, { Hart.reset with tag := 3, run := .killed false }]
    ops := [{ copyOp with id := 2, ctx := .copy 2 1, issuer := 2, stage := .stopped 0 }, copyOp,
      { copyOp with id := 3, issuer := 2, kind := .tiles 0 [] }]
    frq := vset base.frq 0 ⟨0x10010001, 4, 0, [streamRec base 0x10 0x1000 0], []⟩ }

theorem witness_ServiceInstructions :
    base.hart.sv = false ∧ base.ScalarReady .never true true [5, 6]
    ∧ served.hart.sv = true ∧ served.ScalarReady .never true true [5, 9]
    ∧ handleOk 2 = true ∧ handleOk (2 ^ 32) = false
    -- RESUME and KILL by tag
    ∧ (served.findHart 2).map (·.run) = some (.saved false) ∧ (served.findHart 3).map (·.run) = some (.killed false)
    ∧ (served.findHart 4) = none ∧ (served.findHart 2).map (·.late) = some []
    -- by number of a stopped operation
    ∧ handleOk (2 ^ 63) = true ∧ (served.stoppedOp (2 ^ 63)).isSome = true ∧ served.stoppedOp (2 ^ 63 + 1) = none
    -- FRPOP
    ∧ served.hart.late = [] ∧ (served.rd 8).toNat % 64 = 0 ∧ (served.rd 9).toNat % 64 ≠ 0 ∧ (vget served.frq frqDefault 1).held = []
    ∧ (vget served.frq frqDefault 0).held ≠ [] ∧ (∃ xs t, served.translateWords 0x4000 8 = .ok xs t)
    ∧ (∃ f, served.translateWords 0x7000000000 8 = .mem f served)
    -- what a kill takes with it, and what it leaves
    ∧ (∃ o ∈ served.ops, o.ctx = .copy 2 1 ∧ o.stage = .stopped 0) ∧ (∃ o ∈ served.ops, o.kind = .tiles 0 [] ∧ o.issuer = 2 ∧ o.ctl = none)
    ∧ (∃ o ∈ served.ops, ¬DiesWith o 2 ∧ ∀ q ∈ served.ops, q.id = o.id → q = o)
    -- a queue on die 1 behind a failed link
    ∧ (let s := served.cutLink 0;
      WayShut { s with frq := vset s.frq 1 { frqDefault with base := 0x2010000000 } } s.agent.start 0x2010000000 ∧ ¬WayShut s s.agent.start 0x10000000
      ∧ (vget (vset s.frq 1 { frqDefault with base := 0x2010000000 }) frqDefault (1 : BitVec 2).toNat).base = 0x2010000000) := by
  with_reducible and_intros
  all_goals first
    | (unfold WayShut; decide +kernel)
    | exact ⟨copyOp, by simp [served], by simp [DiesWith, copyOp], by decide +kernel⟩
    | decide +kernel
    | exact scalar_ready (by decide +kernel) | exact vec_ready (by decide +kernel) (by decide +kernel)
    | exact fits_of (by decide +kernel) | exact sig_matches (by decide +kernel) | exact reaches_of (by decide +kernel)
    | exact words_of (by decide +kernel) | exact okIs_eq (by decide +kernel) | exact memIs_ex (by decide +kernel)
    | exact isOk_ex (by decide +kernel) | exact sig_fails (by decide +kernel) | (unfold State.Calm; decide +kernel)
    | (unfold State.Quiet State.Calm; decide +kernel) | (unfold State.M0Clear; decide +kernel) | (unfold Apart; decide +kernel)
    | (unfold State.ReleaseWaits; decide +kernel)

theorem witness_FenceInstructions :
    base.ScalarReady .never true true [] ∧ base.hart.vq = [] ∧ base.hart.late = [] ∧ base.byFeeder.onFeeder = true
    ∧ (base.withHart fun h => { h with vq := [waiting] }).ScalarReady .never true true [] ∧ ((0 : BitVec 2) ≠ 1 ∧ (0 : BitVec 2) ≠ 3)
    ∧ base.ScalarReady .never true false [5] ∧ base.rd 5 = ((0 : BitVec 32) ++ (7 : BitVec 32) : BitVec 64)
    ∧ (base.withG 5 0).rd 5 = ((0 : BitVec 32) ++ (0 : BitVec 32) : BitVec 64) ∧ (base.st.dfseq - 0).toNat < 2 ^ 31
    ∧ 2 ^ 31 ≤ (base.st.dfseq - 1).toNat
    ∧ (∃ e ∈ storing.hart.vq, wordStores e.word.toNat = true ∧ 0 < ((1 : BitVec 32) - e.fence).toNat ∧ ((1 : BitVec 32) - e.fence).toNat < 2 ^ 31)
    ∧ ((storing.withMain fun t => { t with dfseq := 1 }).withG 5 (2 ^ 32)).rd 5 = ((1 : BitVec 32) ++ (0 : BitVec 32) : BitVec 64) := by
  with_reducible and_intros
  all_goals first
    | decide +kernel
    | exact scalar_ready (by decide +kernel) | exact vec_ready (by decide +kernel) (by decide +kernel)
    | exact fits_of (by decide +kernel) | exact sig_matches (by decide +kernel) | exact reaches_of (by decide +kernel)
    | exact words_of (by decide +kernel) | exact okIs_eq (by decide +kernel) | exact memIs_ex (by decide +kernel)
    | exact isOk_ex (by decide +kernel) | exact sig_fails (by decide +kernel) | (unfold State.Calm; decide +kernel)
    | (unfold State.Quiet State.Calm; decide +kernel) | (unfold State.M0Clear; decide +kernel) | (unfold Apart; decide +kernel)
    | (unfold State.ReleaseWaits; decide +kernel)

/-- VTYPE, VL and RC of the main stream. -/
def State.withV (s : State) (vtype : BitVec 8) (vl : BitVec 16) (rc : BitVec 4) : State :=
  s.withMain fun t => { t with vtype := vtype, vl := vl, rc := rc }
/-- PSRC m1, a copy to v20. -/
def pfxMask : BitVec 25 := BitVec.ofNat 25 (1 * 256 + 64 + 32 + 20)

theorem witness_VectorIntegerResults :
    base.vcfg.Fits (2 ^ base.vcfg.sew) base.vcfg.lmul
    ∧ base.VecReady .copy (some ((4 : Reg).toNat, 1)) [((6 : Reg).toNat, 1), ((9 : Reg).toNat, 1)] ((6 : Reg).toNat % 2 ≠ (9 : Reg).toNat % 2) []
    ∧ base.VecReady .copy (some (4, 1)) [(6, 1)] ((1 : BitVec 1) = 0 → (6 : Reg).toNat % 2 ≠ (8 : Reg).toNat % 2) [8]
    ∧ base.VecReady .copy (some (31, 1)) [] True []
    ∧ (base.withPfx pfxMask).VecReady .copy (some (4, 1)) [(6, 1), (9, 1)] ((6 : Reg).toNat % 2 ≠ (9 : Reg).toNat % 2) []
    -- LMUL 8, SEW 8 and the longest vector
    ∧ (base.withV 0xC0 12288 8).vcfg.lmul = 8 ∧ (base.withV 0xC0 12288 8).vcfg.Fits 1 8
    ∧ (base.withV 0xC0 12288 8).VecReady .copy (some (24, 8)) [(0, 8), (9, 8)] ((0 : Reg).toNat % 2 ≠ (9 : Reg).toNat % 2) []
    ∧ (base.withMain fun t => { t with lastV := 9 }).VecReady .copy (some (4, 1)) [(6, 1), (9, 1)] ((6 : Reg).toNat % 2 ≠ (9 : Reg).toNat % 2) [] := by
  with_reducible and_intros
  all_goals first
    | decide +kernel
    | exact scalar_ready (by decide +kernel) | exact vec_ready (by decide +kernel) (by decide +kernel)
    | exact fits_of (by decide +kernel) | exact sig_matches (by decide +kernel) | exact reaches_of (by decide +kernel)
    | exact words_of (by decide +kernel) | exact okIs_eq (by decide +kernel) | exact memIs_ex (by decide +kernel)
    | exact isOk_ex (by decide +kernel) | exact sig_fails (by decide +kernel) | (unfold State.Calm; decide +kernel)
    | (unfold State.Quiet State.Calm; decide +kernel) | (unfold State.M0Clear; decide +kernel) | (unfold Apart; decide +kernel)
    | (unfold State.ReleaseWaits; decide +kernel)

theorem witness_VectorFloatingPoint :
    base.vcfg.Fits (2 ^ base.vcfg.sew) base.vcfg.lmul ∧ base.vcfg.sew ≠ 0
    ∧ base.VecReady .copy (some (4, 1)) [(6, 1), (9, 1)] ((0 : BitVec 1) = 0 → (6 : Reg).toNat % 2 ≠ (9 : Reg).toNat % 2) []
    ∧ base.VecReady .copy (some (4, 1)) [(9, 1)] True []
    ∧ base.VecReady .copy (some (4, 1)) ((6, 1) :: [(9, 1)] ++ [(4, 1)]) ((0 : BitVec 1) = 0 → (6 : Reg).toNat % 2 ≠ (9 : Reg).toNat % 2) []
    ∧ (let s : State := base.withMain fun t => { t with lastV := 9 };
      s.VecReady .copy (some (4, 1)) [(6, 1), (s.st.lastV.toNat, 1), (4, 1)] ((6 : Reg).toNat % 2 ≠ s.st.lastV.toNat % 2) [])
    ∧ (base.withV 0x00 2 1).vcfg.sew = 0
    ∧ (base.withV 0x00 2 1).VecReady .copy (some (4, 1)) [(6, 1), (9, 1)] ((0 : BitVec 1) = 0 → (6 : Reg).toNat % 2 ≠ (9 : Reg).toNat % 2) []
    ∧ (base.withV 0x00 2 1).VecReady .copy (some (4, 1)) [(9, 1)] True []
    ∧ (base.withV 0x00 2 1).VecReady .copy (some (4, 1)) ((6, 1) :: [(9, 1)] ++ [(4, 1)]) ((0 : BitVec 1) = 0 → (6 : Reg).toNat % 2 ≠ (9 : Reg).toNat % 2) [] := by
  with_reducible and_intros
  all_goals first
    | decide +kernel
    | exact scalar_ready (by decide +kernel) | exact vec_ready (by decide +kernel) (by decide +kernel)
    | exact fits_of (by decide +kernel) | exact sig_matches (by decide +kernel) | exact reaches_of (by decide +kernel)
    | exact words_of (by decide +kernel) | exact okIs_eq (by decide +kernel) | exact memIs_ex (by decide +kernel)
    | exact isOk_ex (by decide +kernel) | exact sig_fails (by decide +kernel) | (unfold State.Calm; decide +kernel)
    | (unfold State.Quiet State.Calm; decide +kernel) | (unfold State.M0Clear; decide +kernel) | (unfold Apart; decide +kernel)
    | (unfold State.ReleaseWaits; decide +kernel)

theorem witness_VectorWideningAndConversion :
    base.vcfg.Fits (2 ^ base.vcfg.sew) base.vcfg.lmul ∧ base.vcfg.sew ≠ 3 ∧ base.vcfg.sew ≠ 0
    ∧ base.VecReady .copy (some (4, 2 * 1)) [(6, 1), (9, 1)] ((0 : BitVec 1) = 0 → (6 : Reg).toNat % 2 ≠ (9 : Reg).toNat % 2) []
    ∧ base.VecReady .copy (some (4, 2 * 1)) ((6, 1) :: [(9, 1)] ++ [(4, 2 * 1)]) ((0 : BitVec 1) = 0 → (6 : Reg).toNat % 2 ≠ (9 : Reg).toNat % 2) []
    ∧ base.VecReady .copy (some (4, 1)) ((6, 2 * 1) :: [(9, 1)]) ((0 : BitVec 1) = 0 → (6 : Reg).toNat % 2 ≠ (9 : Reg).toNat % 2) []
    ∧ (base.withV 0x30 2 1).vcfg.sew = 3
    ∧ (base.withV 0x30 2 1).VecReady .copy (some (4, 2 * 1)) [(6, 1), (9, 1)] ((0 : BitVec 1) = 0 → (6 : Reg).toNat % 2 ≠ (9 : Reg).toNat % 2) []
    -- VFCVT: each code's destination size, and the widths that raise ILLOP
    ∧ base.VecReady .copy (some (4, 1)) [(9, 1)] True [] ∧ base.VecReady .copy (some (4, max 1 (1 / 2))) [(9, 1)] True []
    ∧ base.VecReady .copy (some (4, 2 * 1)) [(9, 1)] True []
    ∧ (base.withV 0x00 2 1).vcfg.sew = 0 ∧ (base.withV 0x00 2 1).VecReady .copy (some (4, 1)) [(9, 1)] True []
    ∧ (base.withV 0x30 2 1).VecReady .copy (some (4, 2 * 1)) [(9, 1)] True []
    ∧ (base.withV 0x30 2 1).VecReady .copy (some (4, 2 * 1)) ((6, 1) :: [(9, 1)] ++ [(4, 2 * 1)]) ((0 : BitVec 1) = 0 → (6 : Reg).toNat % 2 ≠ (9 : Reg).toNat % 2) []
    ∧ (base.withV 0x30 2 1).VecReady .copy (some (4, 1)) ((6, 2 * 1) :: [(9, 1)]) ((0 : BitVec 1) = 0 → (6 : Reg).toNat % 2 ≠ (9 : Reg).toNat % 2) [] := by
  with_reducible and_intros
  all_goals first
    | decide +kernel
    | exact scalar_ready (by decide +kernel) | exact vec_ready (by decide +kernel) (by decide +kernel)
    | exact fits_of (by decide +kernel) | exact sig_matches (by decide +kernel) | exact reaches_of (by decide +kernel)
    | exact words_of (by decide +kernel) | exact okIs_eq (by decide +kernel) | exact memIs_ex (by decide +kernel)
    | exact isOk_ex (by decide +kernel) | exact sig_fails (by decide +kernel) | (unfold State.Calm; decide +kernel)
    | (unfold State.Quiet State.Calm; decide +kernel) | (unfold State.M0Clear; decide +kernel) | (unfold Apart; decide +kernel)
    | (unfold State.ReleaseWaits; decide +kernel)

theorem witness_VectorCompares :
    base.VecReady .pred none [(6, 1), (9, 1)] ((0 : BitVec 1) = 0 → (6 : Reg).toNat % 2 ≠ (9 : Reg).toNat % 2) []
    ∧ base.VecReady .pred none ((6, 1) :: []) ((1 : BitVec 1) = 0 → (6 : Reg).toNat % 2 ≠ (8 : Reg).toNat % 2) [8]
    ∧ base.vcfg.Fits (2 ^ base.vcfg.sew) base.vcfg.lmul ∧ base.vcfg.sew ≠ 0 ∧ (base.withV 0x00 2 1).vcfg.sew = 0
    ∧ (base.withV 0x00 2 1).vcfg.Fits 1 1
    ∧ (base.withV 0x00 2 1).VecReady .pred none [(6, 1), (9, 1)] ((0 : BitVec 1) = 0 → (6 : Reg).toNat % 2 ≠ (9 : Reg).toNat % 2) []
    -- VPIV
    ∧ base.VecReady .copy (some (4, 1)) [(4, 1)] True [8] ∧ (base.withV 0x00 2 1).VecReady .copy (some (4, 1)) [(4, 1)] True [8]
    ∧ (base.withV 0x38 2 1).vcfg.sew = 3 ∧ (base.withV 0x38 2 1).vcfg.Fits 8 1 ∧ (base.withV 0x38 2 1).VecReady .copy (some (4, 1)) [(4, 1)] True [8] := by
  with_reducible and_intros
  all_goals first
    | decide +kernel
    | exact scalar_ready (by decide +kernel) | exact vec_ready (by decide +kernel) (by decide +kernel)
    | exact fits_of (by decide +kernel) | exact sig_matches (by decide +kernel) | exact reaches_of (by decide +kernel)
    | exact words_of (by decide +kernel) | exact okIs_eq (by decide +kernel) | exact memIs_ex (by decide +kernel)
    | exact isOk_ex (by decide +kernel) | exact sig_fails (by decide +kernel) | (unfold State.Calm; decide +kernel)
    | (unfold State.Quiet State.Calm; decide +kernel) | (unfold State.M0Clear; decide +kernel) | (unfold Apart; decide +kernel)
    | (unfold State.ReleaseWaits; decide +kernel)

theorem witness_MaskInstructions :
    base.VecReady .never none [] True [] ∧ base.vcfg.g ≤ 8 ∧ base.vcfg.rc ≤ 8 ∧ base.vcfg.vl ≤ 16384 ∧ base.VecReady .never none [] True [5]
    ∧ (base.withV 0x00 16384 8).VecReady .never none [] True [5] ∧ (base.withV 0x00 16384 8).vcfg.vl ≤ 16384
    ∧ base.byFeeder.onFeeder = true ∧ base.byFeeder.atHead = false ∧ base.byFeeder.ScalarReady .never true false [] := by
  with_reducible and_intros
  all_goals first
    | decide +kernel
    | exact scalar_ready (by decide +kernel) | exact vec_ready (by decide +kernel) (by decide +kernel)
    | exact fits_of (by decide +kernel) | exact sig_matches (by decide +kernel) | exact reaches_of (by decide +kernel)
    | exact words_of (by decide +kernel) | exact okIs_eq (by decide +kernel) | exact memIs_ex (by decide +kernel)
    | exact isOk_ex (by decide +kernel) | exact sig_fails (by decide +kernel) | (unfold State.Calm; decide +kernel)
    | (unfold State.Quiet State.Calm; decide +kernel) | (unfold State.M0Clear; decide +kernel) | (unfold Apart; decide +kernel)
    | (unfold State.ReleaseWaits; decide +kernel)

theorem witness_VectorReductions :
    base.VecReady .never (some (4, 1)) [(6, 1), (9, 1)] ((6 : Reg).toNat % 2 ≠ (9 : Reg).toNat % 2) []
    ∧ base.vcfg.Fits (2 ^ base.vcfg.sew) base.vcfg.lmul ∧ base.st.vstart = 0 ∧ base.vcfg.sew ≠ 3 ∧ base.vcfg.sew ≠ 0
    ∧ (let s : State := base.withMain fun t => { t with vstart := 1 };
      s.st.vstart ≠ 0 ∧ s.VecReady .never (some (4, 1)) [(6, 1), (9, 1)] ((6 : Reg).toNat % 2 ≠ (9 : Reg).toNat % 2) [])
    ∧ (base.withV 0x00 2 1).vcfg.sew = 0 ∧ (base.withV 0x30 2 1).vcfg.sew = 3
    ∧ (base.withV 0x00 2 1).VecReady .never (some (4, 1)) [(6, 1), (9, 1)] ((6 : Reg).toNat % 2 ≠ (9 : Reg).toNat % 2) []
    ∧ (base.withV 0x30 2 1).VecReady .never (some (4, 1)) [(6, 1), (9, 1)] ((6 : Reg).toNat % 2 ≠ (9 : Reg).toNat % 2) [] := by
  with_reducible and_intros
  all_goals first
    | decide +kernel
    | exact scalar_ready (by decide +kernel) | exact vec_ready (by decide +kernel) (by decide +kernel)
    | exact fits_of (by decide +kernel) | exact sig_matches (by decide +kernel) | exact reaches_of (by decide +kernel)
    | exact words_of (by decide +kernel) | exact okIs_eq (by decide +kernel) | exact memIs_ex (by decide +kernel)
    | exact isOk_ex (by decide +kernel) | exact sig_fails (by decide +kernel) | (unfold State.Calm; decide +kernel)
    | (unfold State.Quiet State.Calm; decide +kernel) | (unfold State.M0Clear; decide +kernel) | (unfold Apart; decide +kernel)
    | (unfold State.ReleaseWaits; decide +kernel)

theorem witness_VectorPermutes :
    base.vcfg.Fits (2 ^ base.vcfg.sew) base.vcfg.lmul ∧ base.st.vstart = 0
    ∧ (base.rd 9).toNat / 65536 % 16 ≤ 10 ∧ base.VecReady .never (some (4, 1)) ([6].map fun q : Reg => (q.toNat, 1)) True [9]
    -- fill 10 takes g[b + 1]
    ∧ (base.withG 9 0xA0001).VecReady .never (some (4, 1)) ([6].map fun q : Reg => (q.toNat, 1)) True [9, 9 + 1]
    ∧ ((base.withG 9 0xA0001).rd 9).toNat / 65536 % 16 = 10 ∧ (9 : Reg) ≠ 31
    ∧ base.vcfg.vl % ((base.rd 9).toNat % 65536) = 0 ∧ (base.rd 9).toNat % 65536 ≠ 0 ∧ (base.withV 0x20 0 1).vcfg.vl = 0
    ∧ base.VecReady .never (some (4, 1)) ([6, 9].map fun q : Reg => (q.toNat, 1)) ((6 : Reg).toNat % 2 ≠ (9 : Reg).toNat % 2) []
    ∧ base.VecReady .never (some (4, 1)) ([6].map fun q : Reg => (q.toNat, 1)) True []
    ∧ (let s : State := base.withMain fun t => { t with vstart := 1 };
      s.st.vstart ≠ 0 ∧ s.VecReady .never (some (4, 1)) ([6].map fun q : Reg => (q.toNat, 1)) True [9]
      ∧ s.VecReady .never (some (4, 1)) ([6, 9].map fun q : Reg => (q.toNat, 1)) ((6 : Reg).toNat % 2 ≠ (9 : Reg).toNat % 2) [])
    -- a reserved fill code, SCALAR without a next register, a shape that does not divide VL
    ∧ 11 ≤ ((base.withG 9 0xB0000).rd 9).toNat / 65536 % 16
    ∧ (base.withG 9 0xB0000).VecReady .never (some (4, 1)) ([6].map fun q : Reg => (q.toNat, 1)) True [9]
    ∧ ((base.withG 31 0xA0000).rd 31).toNat / 65536 % 16 = 10
    ∧ (base.withG 31 0xA0000).VecReady .never (some (4, 1)) ([6].map fun q : Reg => (q.toNat, 1)) True [31]
    ∧ base.vcfg.vl ≠ 0 ∧ base.vcfg.vl % ((base.rd 7).toNat % 65536) ≠ 0 ∧ (base.rd 0).toNat % 65536 = 0
    ∧ base.VecReady .never (some (4, 1)) ([6].map fun q : Reg => (q.toNat, 1)) True [7]
    ∧ (base.withMain fun t => { t with vstart := 1 }).VecReady .never (some (4, 1)) ([6].map fun q : Reg => (q.toNat, 1)) True [] := by
  with_reducible and_intros
  all_goals first
    | decide +kernel
    | exact scalar_ready (by decide +kernel) | exact vec_ready (by decide +kernel) (by decide +kernel)
    | exact fits_of (by decide +kernel) | exact sig_matches (by decide +kernel) | exact reaches_of (by decide +kernel)
    | exact words_of (by decide +kernel) | exact okIs_eq (by decide +kernel) | exact memIs_ex (by decide +kernel)
    | exact isOk_ex (by decide +kernel) | exact sig_fails (by decide +kernel) | (unfold State.Calm; decide +kernel)
    | (unfold State.Quiet State.Calm; decide +kernel) | (unfold State.M0Clear; decide +kernel) | (unfold Apart; decide +kernel)
    | (unfold State.ReleaseWaits; decide +kernel)

/-- A full tile of the main stream's geometry in tq0 and in tq1. -/
def tiled : State := base.withHart fun h => { h with
  tq := (h.tq.set 0 [⟨2, 2, 1, true, [1, 0, 0, 0, 2, 0, 0, 0], []⟩]).set 1 [⟨3, 1, 1, true, [1, 0, 0, 0, 2, 0, 0, 0], []⟩] }

theorem witness_ElementAndTileMoves :
    1 ≤ base.vcfg.g ∧ base.vcfg.g ≤ 8 ∧ base.VecReady .never none [(6, 1)] True [5, 9] ∧ base.VecReady .never (some (4, 1)) [] True [9, 6]
    ∧ base.VecReady .never (some (4, 1)) [] True [] ∧ base.VecReady .never none [(6, 1)] True []
    ∧ (base.withMain fun t => { t with vstart := 1 }).VecReady .never (some (4, 1)) [] True []
    ∧ base.st.vstart = 0 ∧ base.hart.hasFeeder = true ∧ vget base.hart.tq [] 0 = []
    ∧ tiled.VecReady .never (some (4, 1)) [] True []
    ∧ vget tiled.hart.tq [] 0 = [⟨2, 2, 1, true, [1, 0, 0, 0, 2, 0, 0, 0], []⟩]
    ∧ ((2 : BitVec 2).toNat, 1, 2) = (tiled.vcfg.sew, tiled.vcfg.rc, tiled.vcfg.vl) ∧ tiled.vcfg.Fits 4 1
    ∧ vget tiled.hart.tq [] 1 = [⟨3, 1, 1, true, [1, 0, 0, 0, 2, 0, 0, 0], []⟩]
    ∧ ((3 : BitVec 2).toNat, 1, 1) ≠ (tiled.vcfg.sew, tiled.vcfg.rc, tiled.vcfg.vl)
    -- VPSHQ: within its slot, and beyond it
    ∧ base.vcfg.rc * base.vcfg.vl * 4 ≤ 1536 * base.hart.share ∧ base.hart.tq[2].length < 2
    ∧ (let s : State := (base.withV 0x20 384 8).withHart fun h => { h with share := 4 };
      1536 * s.hart.share < s.vcfg.rc * s.vcfg.vl * 4 ∧ s.VecReady .never none [(6, 1)] True [])
    ∧ (1 : BitVec 3) ≠ 0 ∧ (2 : BitVec 2).toNat ≥ 2
    ∧ (base.withHart fun h => { h with hasFeeder := false }).VecReady .never none [(6, 1)] True []
    ∧ (let s : State := base.withHart fun h => { h with tq := h.tq.set 2 [⟨2, 2, 1, true, [], []⟩, ⟨2, 2, 1, true, [], []⟩] };
      s.VecReady .never none [(6, 1)] True [] ∧ 2 ≤ s.hart.tq[2].length) := by
  with_reducible and_intros
  all_goals first
    | decide +kernel
    | exact scalar_ready (by decide +kernel) | exact vec_ready (by decide +kernel) (by decide +kernel)
    | exact fits_of (by decide +kernel) | exact sig_matches (by decide +kernel) | exact reaches_of (by decide +kernel)
    | exact words_of (by decide +kernel) | exact okIs_eq (by decide +kernel) | exact memIs_ex (by decide +kernel)
    | exact isOk_ex (by decide +kernel) | exact sig_fails (by decide +kernel) | (unfold State.Calm; decide +kernel)
    | (unfold State.Quiet State.Calm; decide +kernel) | (unfold State.M0Clear; decide +kernel) | (unfold Apart; decide +kernel)
    | (unfold State.ReleaseWaits; decide +kernel)

/-- v9 holds the offsets 0x10 and 0x20 as 32-bit elements. -/
def indexed : State := base.withHart fun h => { h with v := elemWr (elemWr h.v 8 4 9 0 0 0x10) 8 4 9 0 1 0x20 }
/-- Where element e of `flat`, `strided` (g9 = 2 taken as 16 bytes apart) and `indexed` accesses lie. -/
def flatAt (_ e : Nat) : Xl := ⟨0x10004000 + 4 * e, 0⟩
def indexAt (_ e : Nat) : Xl := ⟨0x10004010 + 0x10 * e, 0⟩
/-- g9 = 16: the step between elements. -/
def strided : State := base.withG 9 16
/-- A page over the TCM aliases, of the supervisor's making, for VLDQ and VSTQ: the scratch of quad 0. -/
def quadMapped : State := { indexed with tlb := ⟨.core 0, 0, 0x100000000, 2 ^ 28, 0, BitVec.ofNat 64 (0xA000000000 + 0x33F)⟩ :: indexed.tlb }.withG 8 0x100000000

theorem witness_VectorLoads :
    base.vcfg.Fits (2 ^ base.vcfg.sew) base.vcfg.lmul ∧ base.Quiet ∧ base.VecReady .copy (some (4, 1)) [] True [8]
    ∧ base.Reaches (.plain 0 4) (base.vcfg.active base.hart.m 0)
      (fun r e => base.rd 8 + BitVec.ofNat 64 ((r * base.vcfg.vl + e) * 4)) flatAt
    ∧ (∀ r, r < base.vcfg.rc → ∀ e, e < base.vcfg.vl → base.isPoisoned (base.agent.readAt (flatAt r e)) 4 = false)
    ∧ strided.VecReady .copy (some (4, 1)) [] True [9, 8]
    ∧ strided.Reaches (.plain 0 4) (strided.vcfg.active strided.hart.m 0)
      (fun r e => strided.rd 8 + BitVec.ofNat 64 (r * strided.vcfg.vl + e) * strided.rd 9) (fun _ e => ⟨0x10004000 + 16 * e, 0⟩)
    ∧ indexed.VecReady .copy (some (4, 1)) [(9, 1)] True [8] ∧ indexed.M0Clear ∧ indexed.Quiet ∧ strided.Quiet ∧ quadMapped.Quiet ∧ Apart (4, 1) (9, 1)
    ∧ indexed.Reaches (.plain 0 4) (indexed.vcfg.active indexed.hart.m 0)
      (fun r e => indexed.rd 8 + BitVec.ofNat 64 (elemRd indexed.hart.v indexed.vcfg.g 4 9 r e)) indexAt
    ∧ 2 ≤ quadMapped.vcfg.sew ∧ (quadMapped.rd 8).toNat % 2 ^ 20 = 0 ∧ quadMapped.VecReady .copy (some (4, 1)) [(9, 1)] True [8]
    ∧ quadMapped.Reaches ⟨0, 4, .plain, some (0xA000000000 + idDie quadMapped.hart.hartid * 0x2000000 + idQuad quadMapped.hart.hartid * 0x100000,
        0x100000, false)⟩ (quadMapped.vcfg.active quadMapped.hart.m 0)
      (fun r e => quadMapped.rd 8 + BitVec.ofNat 64 (elemRd quadMapped.hart.v quadMapped.vcfg.g 4 9 r e % 2 ^ 20))
      (fun _ e => ⟨0xA000000010 + 0x10 * e, 0⟩)
    -- VLDFF: with an active position, without one, and with a fault at its second position
    ∧ base.vcfg.rc = 1 ∧ base.vcfg.active base.hart.m 0 0 0 = true
    ∧ (∀ e, e < base.vcfg.vl → base.vcfg.active base.hart.m 1 0 e = false)
    ∧ (let s : State := base.withG 8 0x0FFFFFFC;
      s.VecReady .copy (some (4, 1)) [] True [8] ∧ s.vcfg.active s.hart.m 0 0 0 = true ∧ s.vcfg.active s.hart.m 0 0 1 = true
      ∧ (s.rd 8).toNat % 4 = 0 ∧ s.translate s.agent (.plain 0 4) 0x0FFFFFFC = .ok ⟨0x1FFFFFFC, 0⟩ s
      ∧ ∃ f, s.translate s.agent (.plain 0 4) 0x10000000 = .mem f s) := by
  with_reducible and_intros
  all_goals first
    | decide +kernel
    | exact scalar_ready (by decide +kernel) | exact vec_ready (by decide +kernel) (by decide +kernel)
    | exact fits_of (by decide +kernel) | exact sig_matches (by decide +kernel) | exact reaches_of (by decide +kernel)
    | exact words_of (by decide +kernel) | exact okIs_eq (by decide +kernel) | exact memIs_ex (by decide +kernel)
    | exact isOk_ex (by decide +kernel) | exact sig_fails (by decide +kernel) | (unfold State.Calm; decide +kernel)
    | (unfold State.Quiet State.Calm; decide +kernel) | (unfold State.M0Clear; decide +kernel) | (unfold Apart; decide +kernel)
    | (unfold State.ReleaseWaits; decide +kernel)

/-- The feeder, with the geometry of the main stream, and an index tile in tq2. -/
def feeding : State := quadMapped.byFeeder.withHart fun h => { h with
  feed := { h.main with pc := 0x1000, g := vset h.main.g 8 0x4000 }
  tq := h.tq.set 2 [⟨2, 2, 1, true, [0x10, 0, 0, 0, 0x20, 0, 0, 0], []⟩] }

theorem witness_FeederLoads :
    feeding.onFeeder = true ∧ feeding.atHead = false ∧ feeding.hart.isControl = false ∧ feeding.st.pfxp = false ∧ feeding.vcfg.lmul = 1
    ∧ (1 : Reg).toNat < 2 ∧ feeding.st.vstart = 0 ∧ feeding.hart.fm0 = [] ∧ feeding.Quiet
    ∧ (vget feeding.hart.tq [] 1).length < 2 ∧ (∀ t ∈ vget feeding.hart.tq [] 1, t.full = true) ∧ feeding.streamAhead 1 = false
    ∧ feeding.regWait [9, 8] = false ∧ feeding.vcfg.rc = 1
    ∧ feeding.Reaches (.plain 0 4) (fun _ _ => true) (fun r e => feeding.rd 8 + BitVec.ofNat 64 ((r * feeding.vcfg.vl + e) * 4)) flatAt
    ∧ feeding.Reaches (.plain 0 4) (fun _ _ => true) (fun r e => (feeding.setSt { feeding.st with g := vset feeding.st.g 9 8 }).rd 8
        + BitVec.ofNat 64 (r * feeding.vcfg.vl + e) * 8) (fun _ e => ⟨0x10004000 + 8 * e, 0⟩)
    ∧ (∀ r, r < 1 → ∀ e, e < 2 → feeding.isPoisoned (feeding.agent.readAt (flatAt r e)) 4 = false
      ∧ feeding.isPoisoned (0x10004000 + 8 * e) 4 = false ∧ feeding.isPoisoned (feeding.agent.readAt (indexAt r e)) 4 = false)
    ∧ vget feeding.hart.tq [] 2 = [⟨2, 2, 1, true, [0x10, 0, 0, 0, 0x20, 0, 0, 0], []⟩]
    ∧ ((2 : BitVec 2).toNat, 1, 2) = (feeding.vcfg.sew, feeding.vcfg.rc, feeding.vcfg.vl)
    ∧ feeding.Reaches (.plain 0 4) (fun _ _ => true) (fun _ e => feeding.rd 8 + BitVec.ofNat 64 (0x10 + 0x10 * e)) indexAt := by
  with_reducible and_intros
  all_goals first
    | decide +kernel
    | exact scalar_ready (by decide +kernel) | exact vec_ready (by decide +kernel) (by decide +kernel)
    | exact fits_of (by decide +kernel) | exact sig_matches (by decide +kernel) | exact reaches_of (by decide +kernel)
    | exact words_of (by decide +kernel) | exact okIs_eq (by decide +kernel) | exact memIs_ex (by decide +kernel)
    | exact isOk_ex (by decide +kernel) | exact sig_fails (by decide +kernel) | (unfold State.Calm; decide +kernel)
    | (unfold State.Quiet State.Calm; decide +kernel) | (unfold State.M0Clear; decide +kernel) | (unfold Apart; decide +kernel)
    | (unfold State.ReleaseWaits; decide +kernel)

theorem witness_VectorStores :
    base.VecReady .pred none ((4, 1) :: []) True [8]
    ∧ base.Reaches ⟨1, 4, .plain, none⟩ (base.vcfg.active base.hart.m 0)
      (fun r e => base.rd 8 + BitVec.ofNat 64 ((r * base.vcfg.vl + e) * 4)) flatAt
    ∧ (flatAt 0 0).cls ≠ 3 ∧ strided.VecReady .pred none ((4, 1) :: []) True [9, 8]
    ∧ strided.Reaches (.plain 1 4) (strided.vcfg.active strided.hart.m 0)
      (fun r e => strided.rd 8 + BitVec.ofNat 64 (r * strided.vcfg.vl + e) * strided.rd 9) (fun _ e => ⟨0x10004000 + 16 * e, 0⟩)
    ∧ indexed.VecReady .pred none ((4, 1) :: [(9, 1)]) ((4 : Reg).toNat % 2 ≠ (9 : Reg).toNat % 2) [8] ∧ indexed.M0Clear ∧ base.Quiet ∧ (base.withV 0x30 8 1).Quiet
    ∧ indexed.Reaches (.plain 1 4) (indexed.vcfg.active indexed.hart.m 0)
      (fun r e => indexed.rd 8 + BitVec.ofNat 64 (elemRd indexed.hart.v indexed.vcfg.g 4 9 r e)) indexAt
    ∧ 2 ≤ quadMapped.vcfg.sew ∧ (quadMapped.rd 8).toNat % 2 ^ 20 = 0
    ∧ quadMapped.Reaches ⟨1, 4, .plain, some (0xA000000000 + idDie quadMapped.hart.hartid * 0x2000000 + idQuad quadMapped.hart.hartid * 0x100000,
        0x100000, false)⟩ (quadMapped.vcfg.active quadMapped.hart.m 0)
      (fun r e => quadMapped.rd 8 + BitVec.ofNat 64 (elemRd quadMapped.hart.v quadMapped.vcfg.g 4 9 r e % 2 ^ 20))
      (fun _ e => ⟨0xA000000010 + 0x10 * e, 0⟩)
    -- a block store: SEW 64, VL 8
    ∧ (base.withV 0x30 8 1).VecReady .pred none ((4, 1) :: []) True [8]
    ∧ (base.withV 0x30 8 1).Reaches ⟨1, 8, .block, none⟩ ((base.withV 0x30 8 1).vcfg.active base.hart.m 0)
      (fun r e => base.rd 8 + BitVec.ofNat 64 ((r * 8 + e) * 8)) (fun _ e => ⟨0x10004000 + 8 * e, 0⟩) := by
  with_reducible and_intros
  all_goals first
    | decide +kernel
    | exact scalar_ready (by decide +kernel) | exact vec_ready (by decide +kernel) (by decide +kernel)
    | exact fits_of (by decide +kernel) | exact sig_matches (by decide +kernel) | exact reaches_of (by decide +kernel)
    | exact words_of (by decide +kernel) | exact okIs_eq (by decide +kernel) | exact memIs_ex (by decide +kernel)
    | exact isOk_ex (by decide +kernel) | exact sig_fails (by decide +kernel) | (unfold State.Calm; decide +kernel)
    | (unfold State.Quiet State.Calm; decide +kernel) | (unfold State.M0Clear; decide +kernel) | (unfold Apart; decide +kernel)
    | (unfold State.ReleaseWaits; decide +kernel)

theorem witness_VectorAtomics :
    indexed.VecReady .never (some (4, 1)) [(9, 1)] True [8] ∧ indexed.vcfg.Fits 4 1 ∧ 2 ≤ indexed.vcfg.sew ∧ Apart (4, 1) (9, 1)
    ∧ indexed.M0Clear ∧ indexed.Quiet
    ∧ indexed.Reaches (.plain 2 4) (indexed.vcfg.active indexed.hart.m 0)
      (fun r e => indexed.rd 8 + BitVec.ofNat 64 (elemRd indexed.hart.v indexed.vcfg.g 4 9 r e)) indexAt
    ∧ (indexed.withV 0x10 2 1).vcfg.sew < 2 ∧ (indexed.withV 0x10 2 1).VecReady .never (some (4, 1)) [(9, 1)] True [8]
    ∧ ¬Apart (9, 1) (9, 1) ∧ indexed.VecReady .never (some (9, 1)) [(9, 1)] True [8] := by
  with_reducible and_intros
  all_goals first
    | decide +kernel
    | exact scalar_ready (by decide +kernel) | exact vec_ready (by decide +kernel) (by decide +kernel)
    | exact fits_of (by decide +kernel) | exact sig_matches (by decide +kernel) | exact reaches_of (by decide +kernel)
    | exact words_of (by decide +kernel) | exact okIs_eq (by decide +kernel) | exact memIs_ex (by decide +kernel)
    | exact isOk_ex (by decide +kernel) | exact sig_fails (by decide +kernel) | (unfold State.Calm; decide +kernel)
    | (unfold State.Quiet State.Calm; decide +kernel) | (unfold State.M0Clear; decide +kernel) | (unfold Apart; decide +kernel)
    | (unfold State.ReleaseWaits; decide +kernel)

/-- Whether a result is this memory fault in this state. -/
def memEq {α : Type} (r : Res α) (f : MemFault) (t : State) : Bool :=
  match r with
  | .mem g u => decide (g = f ∧ u = t)
  | .ok _ _ | .trap _ _ _ | .wait _ => false
theorem memEq_eq {α : Type} {r : Res α} {f : MemFault} {t : State} (h : memEq r f t = true) : r = .mem f t := by
  cases r <;> simp_all [memEq]
theorem tries_of {s : State} {x : Access} {act : Nat → Nat → Bool} {addr : Nat → Nat → Word} {xl : Nat → Nat → Xl}
    {flt : Nat → Nat → Option MemFault}
    (h : ((List.range s.vcfg.rc).all fun r => (List.range s.vcfg.vl).all fun e => !act r e
      || (decide ((addr r e).toNat % 2 ^ s.vcfg.sew = 0) && (match flt r e with
        | none => okIs (s.translate s.agent x (addr r e)) (xl r e) s
        | some f => memEq (s.translate s.agent x (addr r e)) f s))) = true) : s.Tries x act addr xl flt := by
  intro r e hr he ha
  simp only [List.all_eq_true, List.mem_range] at h
  have := h r hr e he
  simp only [ha, Bool.not_true, Bool.false_or, Bool.and_eq_true, decide_eq_true_eq] at this
  refine ⟨this.1, ?_⟩
  have h2 := this.2
  cases hf : flt r e with
  | none => rw [hf] at h2; exact okIs_eq h2
  | some f => rw [hf] at h2; exact memEq_eq h2

/-- Element 1 of a load at 0x0FFFFFFC lies beyond what is mapped. -/
def beyond : State := base.withG 8 0x0FFFFFFC
def beyondAt (_ e : Nat) : Xl := ⟨0x1FFFFFFC + 4 * e, 0⟩
def beyondFault (_ e : Nat) : Option MemFault := if e = 1 then some ⟨true, 0x02, 0, 4, 0x10000000, 0, 65536⟩ else none
/-- Two elements of 8 bytes: a hub register, and beyond what is mapped. -/
def deviceLoad : State := { (base.withV 0x30 2 1).withG 8 0x100000000 with
  hart := { ((base.withV 0x30 2 1).withG 8 0x100000000).hart with v := elemWr (elemWr base.hart.v 8 8 9 0 0 0) 8 8 9 0 1 0x10000000 }
  tlb := ⟨.core 0, 0, 0x100000000, 2 ^ 28, 0, BitVec.ofNat 64 (hubBase + 0x2000000 + 0x33F + 0x40)⟩ :: base.tlb }
/-- Eight elements of 8 bytes at the enqueue window of queue 0. -/
def windowStore : State := { (base.withV 0x30 8 1).withG 8 0x100000000 with
  tlb := ⟨.core 0, 0, 0x100000000, 2 ^ 16, 0, BitVec.ofNat 64 (hubBase + 0x1000000 + 0x33F + 0x40)⟩ :: base.tlb }

theorem witness_VectorFaults :
    -- a fault part way, and a pause
    base.vcfg.Fits 4 1 ∧ beyond.Calm ∧ beyond.st.vstart = 0 ∧ beyond.pause = none ∧ beyond.hart.poison = []
    ∧ beyond.VecReady .copy (some (4, 1)) [] True [8] ∧ beyond.VecReady .pred none [(4, 1)] True [8]
    ∧ beyond.Tries (.plain 0 4) (beyond.vcfg.active beyond.hart.m 0)
      (fun r e => beyond.rd 8 + BitVec.ofNat 64 ((r * beyond.vcfg.vl + e) * 4)) beyondAt beyondFault
    ∧ beyond.vcfg.places (beyond.vcfg.active beyond.hart.m 0) = [(0, 0), (0, 1)]
    ∧ beyond.isPoisoned 0x1FFFFFFC 4 = false ∧ beyond.refusedDevice beyond.agent ⟨true, 0x02, 0, 4, 0x10000000, 0, 65536⟩ = false
    ∧ notHub (beyondAt 0 0).pa = true
    ∧ (let s : State := { base with pause := some 1 }; s.Calm ∧ s.pause = some 1
      ∧ s.Tries (.plain 0 4) (s.vcfg.active s.hart.m 0) (fun r e => s.rd 8 + BitVec.ofNat 64 ((r * s.vcfg.vl + e) * 4)) flatAt (fun _ _ => none)
      ∧ (s.vcfg.places (s.vcfg.active s.hart.m 0)).length = 2)
    ∧ base.VecReady .copy (some (4, 1)) [] True [9, 8] ∧ base.VecReady .pred none [(4, 1)] True [9, 8]
    -- indexed forms, and a DEVICE page among the positions
    ∧ deviceLoad.vcfg.Fits 8 1 ∧ deviceLoad.Calm ∧ deviceLoad.M0Clear ∧ deviceLoad.VecReady .copy (some (4, 1)) [(9, 1)] True [8] ∧ Apart (4, 1) (9, 1)
    ∧ deviceLoad.VecReady .pred none [(4, 1), (9, 1)] ((4 : Reg).toNat % 2 ≠ (9 : Reg).toNat % 2) [8]
    ∧ deviceLoad.VecReady .never (some (4, 1)) [(9, 1)] True [8] ∧ 2 ≤ deviceLoad.vcfg.sew ∧ (deviceLoad.rd 8).toNat % 2 ^ 20 = 0
    ∧ deviceLoad.Tries (.plain 0 8) (deviceLoad.vcfg.active deviceLoad.hart.m 0)
      (fun r e => deviceLoad.rd 8 + BitVec.ofNat 64 (elemRd deviceLoad.hart.v deviceLoad.vcfg.g 8 9 r e)) (fun _ _ => ⟨hubBase + 0x2000000, 1⟩)
      (fun _ e => if e = 1 then some ⟨true, 0x02, 0, 4, 0x110000000, 0, 65536⟩ else none)
    -- a block store to an enqueue window
    ∧ windowStore.vcfg.sew = 3 ∧ windowStore.vcfg.vl = 8 ∧ windowStore.vcfg.rc = 1 ∧ (windowStore.rd 8).toNat % 64 = 0 ∧ windowStore.st.pfxp = false
    ∧ windowStore.Calm ∧ windowStore.pause = none ∧ windowStore.VecReady .pred none [(4, 1)] True [8]
    ∧ windowStore.Tries ⟨1, 8, .block, none⟩ (windowStore.vcfg.active windowStore.hart.m 0)
      (fun r e => windowStore.rd 8 + BitVec.ofNat 64 ((r * windowStore.vcfg.vl + e) * 8)) (fun _ e => ⟨hubBase + 0x1000000 + 8 * e, 1⟩) (fun _ _ => none)
    ∧ region (hubBase + 0x1000000) = .hub 0x1000000 ∧ apertureOf 0x1000000 = none ∧ enqueueWindow 0x1000000 = some (0, 0)
    -- a pause of VLDFF
    ∧ (let s : State := { base with pause := some 1 };
      s.VecReady .copy (some (4, 1)) [] True [8] ∧ s.vcfg.rc = 1 ∧ s.st.vstart = 0) := by
  with_reducible and_intros
  all_goals first
    | decide +kernel
    | exact scalar_ready (by decide +kernel) | exact vec_ready (by decide +kernel) (by decide +kernel)
    | exact fits_of (by decide +kernel) | exact sig_matches (by decide +kernel) | exact reaches_of (by decide +kernel)
    | exact words_of (by decide +kernel) | exact okIs_eq (by decide +kernel) | exact memIs_ex (by decide +kernel)
    | exact isOk_ex (by decide +kernel) | exact sig_fails (by decide +kernel) | (unfold State.Calm; decide +kernel)
    | (unfold State.Quiet State.Calm; decide +kernel) | (unfold State.M0Clear; decide +kernel) | (unfold Apart; decide +kernel)
    | exact tries_of (by decide +kernel)

/-- VWAITEQ at the head of the queue, begun at CYCLE 0 with a budget of 100, when `n` cycles have passed. -/
def waitedFor (n : Word) : State := { (base.withHart fun h => { h with vq := [waiting] }) with cycles := [(0, n)] }

theorem witness_VectorWaits :
    (let s : State := (indexed.withG 10 0).withG 11 0;
      s.VecReady .never none [(9, s.vcfg.lmul)] True [8, 8 + 1, 8 + 2] ∧ s.vcfg.g ≤ 8 ∧ s.vcfg.rc ≤ 8 ∧ s.vcfg.vl ≤ 16384
      ∧ s.Quiet ∧ s.rd (8 + 2) = 0
      ∧ s.Reaches (.plain 0 4) (s.vcfg.active s.hart.m 0)
        (fun r e => s.rd 8 + BitVec.ofNat 64 (elemRd s.hart.v s.vcfg.g 4 9 r e)) indexAt
      ∧ (∀ r, r < s.vcfg.rc → ∀ e, e < s.vcfg.vl → s.isPoisoned (s.agent.readAt (indexAt r e)) 4 = false)
      -- no polled value is the 2 of g9, and every one differs from it
      ∧ (∀ r, r < s.vcfg.rc → ∀ e, e < s.vcfg.vl → s.vcfg.active s.hart.m 0 r e = true →
        decide (s.mem.readLe (s.agent.readAt (indexAt r e)) 4 = (s.rd (8 + 1)).toNat % 2 ^ 32) = false
        ∧ decide (s.mem.readLe (s.agent.readAt (indexAt r e)) 4 ≠ (s.rd (8 + 1)).toNat % 2 ^ 32) = true)
      ∧ s.vcfg.active s.hart.m 0 0 0 = true ∧ s.vcfg.active s.hart.m 1 0 0 = false)
    ∧ (let s : State := waitedFor 100;
      s.occupied = true ∧ s.hart.isControl = false ∧ s.hart.run = .running ∧ s.hart.vq = [waiting] ∧ waiting.begun = some 0
      ∧ waiting.word.toNat % 128 = 0x47 ∧ waiting.word.toNat / 2 ^ 26 ≤ 5 ∧ (VCfg.of s.hart waiting).g ≤ 8
      ∧ (VCfg.of s.hart waiting).rc ≤ 8 ∧ (VCfg.of s.hart waiting).vl ≤ 16384
      ∧ waiting.ops.getD 2 0 ≠ 0 ∧ waiting.ops.getD 2 0 ≤ s.cycle - 0)
    ∧ (waitedFor 99).cycle - 0 < waiting.ops.getD 2 0
    ∧ (∃ r ∈ ((waitedFor 100).withHart fun h => { h with device := [⟨1, []⟩] }).hart.device, r.who = 1)
    ∧ (waitedFor 100).hart.device = [] ∧ (waitedFor 100).hart.aperture = [] ∧ (waitedFor 100).hart.remoteData = [] := by
  with_reducible and_intros
  all_goals first
    | decide +kernel
    | exact scalar_ready (by decide +kernel) | exact vec_ready (by decide +kernel) (by decide +kernel)
    | exact fits_of (by decide +kernel) | exact sig_matches (by decide +kernel) | exact reaches_of (by decide +kernel)
    | exact words_of (by decide +kernel) | exact okIs_eq (by decide +kernel) | exact memIs_ex (by decide +kernel)
    | exact isOk_ex (by decide +kernel) | exact sig_fails (by decide +kernel) | (unfold State.Calm; decide +kernel)
    | (unfold State.Quiet State.Calm; decide +kernel) | (unfold State.M0Clear; decide +kernel) | (unfold Apart; decide +kernel)
    | (unfold State.ReleaseWaits; decide +kernel)

/-- An index array at 0x5000 with CAP 4 and HEAD 3, its descriptor at 0x4000. -/
def appending : State :=
  { base with mem := (((base.mem.writeLe 0x10004000 8 0x5000).writeLe 0x10004008 8 (7 * 2 ^ 32 + 4)).writeLe 0x10004010 8 3) }

theorem witness_VectorAppend :
    appending.VecReady .never none [] True [8] ∧ appending.Quiet ∧ (appending.hart.queue 0).length ≤ 32 ∧ appending.st.vstart = 0 ∧ appending.hart.hasFeeder = true ∧ (appending.rd 8).toNat % 32 = 0
    ∧ (∀ j, j < 4 → okIs (appending.translate appending.agent (.plain 0 8) (appending.rd 8 + BitVec.ofNat 64 (8 * j))) ⟨0x10004000 + 8 * j, 0⟩
      appending = true)
    ∧ appending.mem.readLe 0x10004008 8 % 2 ^ 32 = 4 ∧ appending.mem.readLe 0x10004000 8 % 4 = 0
    ∧ (∀ j, j < 2 → okIs (appending.translate appending.agent (.plain 1 8) (appending.rd 8 + BitVec.ofNat 64 (16 + 8 * j)))
      ⟨0x10004010 + 8 * j, 0⟩ appending = true)
    -- two positions are selected under no mask, none under m1; the second entry wraps to slot 0
    ∧ (appending.vcfg.places (appending.vcfg.active appending.hart.m 0)).length = 2
    ∧ appending.vcfg.places (appending.vcfg.active appending.hart.m 1) = []
    ∧ (∀ j, j < 2 → okIs (appending.translate appending.agent (.plain 1 4) (0x5000 + BitVec.ofNat 64 (4 * ((3 + j) % 4))))
      ⟨0x10005000 + 4 * ((3 + j) % 4), 0⟩ appending = true)
    ∧ notHub 0x10004000 = true ∧ notHub 0x10005000 = true
    -- notices with room for them all, and for none
    ∧ ((3 + 2) % 2 ^ 64 - 0) / appending.vlmax ≤ 32 - (appending.hart.queue 0).length
    ∧ (let s : State := (appending.withHart fun h => { h with q := h.q.set 0 (List.replicate 32 1), vlcap := 4 });
      0 < ((3 + 2) % 2 ^ 64 - 0) / s.vlmax ∧ (s.hart.queue 0).length = 32 ∧ s.VecReady .never none [] True [8] ∧ s.Quiet)
    ∧ (base.withHart fun h => { h with hasFeeder := false }).VecReady .never none [] True [8]
    ∧ (base.withMain fun t => { t with vstart := 1 }).VecReady .never none [] True [8]
    ∧ (base.rd 9).toNat % 32 ≠ 0 ∧ base.VecReady .never none [] True [9] ∧ base.mem.readLe 0x10004008 8 % 2 ^ 32 = 0
    ∧ (appending.mem.writeLe 0x10004000 8 0x5002).readLe 0x10004000 8 % 4 ≠ 0 := by
  with_reducible and_intros
  all_goals first
    | decide +kernel
    | exact scalar_ready (by decide +kernel) | exact vec_ready (by decide +kernel) (by decide +kernel)
    | exact fits_of (by decide +kernel) | exact sig_matches (by decide +kernel) | exact reaches_of (by decide +kernel)
    | exact words_of (by decide +kernel) | exact okIs_eq (by decide +kernel) | exact memIs_ex (by decide +kernel)
    | exact isOk_ex (by decide +kernel) | exact sig_fails (by decide +kernel) | (unfold State.Calm; decide +kernel)
    | (unfold State.Quiet State.Calm; decide +kernel) | (unfold State.M0Clear; decide +kernel) | (unfold Apart; decide +kernel)
    | (unfold State.ReleaseWaits; decide +kernel)

/-- A hart that owns two macros in the format `f`, whose quad holds a power token. -/
def multiplying (f : BitVec 8) : State :=
  { (base.withHart fun h => { h with mcount := 2, mfmt := f }) with tokens := vset base.tokens 0 ⟨[(0, 0)], 0, []⟩ }

theorem witness_MatrixOwnershipAndTokens :
    base.VecReady .never none [] True [9] ∧ base.hart.mcount = 0 ∧ (base.rd 9).toNat ≤ 16
    ∧ (multiplying 0).VecReady .never none [] True [9] ∧ (multiplying 0).hart.mcount ≠ 0
    ∧ (base.withG 9 17).VecReady .never none [] True [9] ∧ 16 < ((base.withG 9 17).rd 9).toNat
    -- MFMT: a sound selector and one that is not
    ∧ ((base.rd 9).toNat < 256 ∧ (base.rd 9).toNat % 16 ≤ 6 ∧ (base.rd 9).toNat / 64 = 0 ∧ (base.rd 9).toNat / 16 % 4 = 0)
    ∧ (base.rd 5).toNat % 16 = 7 ∧ base.VecReady .never none [] True [5]
    ∧ base.VecReady .never none [] True []

    -- tokens: a quad with an MMUL, one without, and quads that wait on both sides of the one granted last
    ∧ base.mmulPending 0 0 = false
    ∧ (let s : State := { base with tokens := vset base.tokens 0 ⟨[(3, 0)], 7, [5, 9]⟩ };
      s.mmulPending 0 5 = true ∧ s.mmulPending 0 3 = false ∧ (s.ring 0).waiting.Nodup ∧ (∀ w ∈ (s.ring 0).waiting, w < 32)) := by
  with_reducible and_intros
  all_goals first
    | decide +kernel
    | exact scalar_ready (by decide +kernel) | exact vec_ready (by decide +kernel) (by decide +kernel)
    | exact fits_of (by decide +kernel) | exact sig_matches (by decide +kernel) | exact reaches_of (by decide +kernel)
    | exact words_of (by decide +kernel) | exact okIs_eq (by decide +kernel) | exact memIs_ex (by decide +kernel)
    | exact isOk_ex (by decide +kernel) | exact sig_fails (by decide +kernel) | (unfold State.Calm; decide +kernel)
    | (unfold State.Quiet State.Calm; decide +kernel) | (unfold State.M0Clear; decide +kernel) | (unfold Apart; decide +kernel)
    | (unfold State.ReleaseWaits; decide +kernel) | exact tries_of (by decide +kernel)

theorem witness_MatrixLoadAndMultiply :
    (let s : State := ((multiplying 0).withV 0x00 2 1).withG 10 0x2800100000000;
      s.VecReady .never none [(6, s.vcfg.lmul)] True [9] ∧ s.st.vstart = 0 ∧ (s.rd 9).toNat < 2 ^ 25
      -- MLDB: g9 = 2 names macro 2, which a count of 3 has
      ∧ (let t : State := s.withHart fun h => { h with mcount := 3 };
        t.VecReady .never none [(6, t.vcfg.lmul)] True [9] ∧ t.hart.mcount ≠ 0 ∧ (t.rd 9).getLsbD 23 = false
        ∧ ((t.rd 9) >>> 4).setWidth 4 = 0#4 ∧ (t.rd 9).getLsbD 24 = false ∧ ((t.rd 9).setWidth 4).toNat < t.hart.mcount
        ∧ (((t.rd 9) >>> 16).setWidth 7).toNat + t.vcfg.vl ≤ (Mode.of t.hart.mfmt).cols
        ∧ (((t.rd 9) >>> 8).setWidth 8).toNat + t.vcfg.rc ≤ 256 ∧ t.vcfg.sew = (Mode.of t.hart.mfmt).sew
        ∧ (Mode.of t.hart.mfmt).code ≠ 3))
    -- scales of MXINT8: the last block of the last column
    ∧ (let s : State := ((multiplying 1).withV 0x00 1 1).withG 9 0x17F0701;
      s.VecReady .never none [(6, s.vcfg.lmul)] True [9] ∧ (s.rd 9).toNat < 2 ^ 25 ∧ (s.rd 9).getLsbD 24 = true
      ∧ (Mode.of s.hart.mfmt).mx = true ∧ ((s.rd 9).setWidth 4).toNat < s.hart.mcount ∧ (s.rd 9).getLsbD 23 = false
      ∧ ((s.rd 9) >>> 4).setWidth 4 = 0#4 ∧ (((s.rd 9) >>> 16).setWidth 7).toNat + s.vcfg.vl ≤ (Mode.of s.hart.mfmt).cols
      ∧ (((s.rd 9) >>> 8).setWidth 8).toNat + s.vcfg.rc ≤ 8 ∧ s.vcfg.sew = 0)
    -- MLDBM: one row of two columns, pitch 2, of the quad's scratchpad
    ∧ (let s : State := (({ multiplying 0 with tlb := ⟨.core 0, 0, 0x100000000, 2 ^ 28, 0, BitVec.ofNat 64 (0x9000000000 + 0x33F)⟩ :: base.tlb }).withG
        8 0x100000000).withG 9 0x0002010000000001;
      s.VecReady .never none [] True [9, 8] ∧ (s.rd 9).getLsbD 47 = false ∧ ((s.rd 9) >>> 25).setWidth 7 = 0#7
      ∧ ((s.rd 9).setWidth 4).toNat < s.hart.mcount ∧ (((s.rd 9) >>> 40).setWidth 7).toNat + 1 = 2 ∧ (((s.rd 9) >>> 32).setWidth 8).toNat + 1 = 1
      ∧ (s.rd 8).toNat % 1 = 0 ∧ s.Quiet
      ∧ (∀ n, n < 2 → okIs (s.translate s.agent ⟨0, 1, .plain, some (0x9000000000, 0x200000, true)⟩ (s.rd 8 + BitVec.ofNat 64 n))
        ⟨0x9000000000 + n, 0⟩ s = true ∧ s.isPoisoned (0x9000000000 + n) 1 = false))
    -- a misaligned one: FP64 at an odd address
    ∧ ((multiplying 6).withG 8 0x4001).VecReady .never none [] True [9, 8]
    ∧ (((multiplying 6).withG 8 0x4001).rd 8).toNat % 2 ^ (Mode.of 6).sew ≠ 0
    -- a selector out of range, and another SEW
    ∧ (let s : State := ((multiplying 0).withV 0x20 2 1).withG 9 0x2000000;
      s.VecReady .never none [(6, s.vcfg.lmul)] True [9] ∧ ¬(s.rd 9).toNat < 2 ^ 25 ∧ s.vcfg.sew ≠ (Mode.of s.hart.mfmt).sew)
    ∧(let s : State := (multiplying 0).withV 0x00 2 1;
      s.VecReady .never none ((6, s.vcfg.lmul) :: (if (Mode.of s.hart.mfmt).mx then [(6 + s.vcfg.lmul, 1)] else [])) True []
      ∧ s.hart.mcount ≠ 0 ∧ s.st.vstart = 0 ∧ s.vcfg.sew = (Mode.of s.hart.mfmt).sew ∧ s.vcfg.vl ≤ 256 ∧ (Mode.of s.hart.mfmt).mx = false
      ∧ (Mode.of s.hart.mfmt).code = 0 ∧ s.vcfg.rc ≤ 8 ∧ s.hart.mcount ≤ 16 ∧ (0, 0) ∈ (s.ring (idDie s.hart.hartid)).holders ∧ idQuad s.hart.hartid = 0)
    -- MXINT8: one block
    ∧ (let s : State := (multiplying 1).withV 0x00 32 8;
      s.VecReady .never none ((6, s.vcfg.lmul) :: (if (Mode.of s.hart.mfmt).mx then [(6 + s.vcfg.lmul, 1)] else [])) True []
      ∧ (Mode.of s.hart.mfmt).mx = true ∧ s.vcfg.vl % 32 = 0 ∧ s.vcfg.sew = (Mode.of s.hart.mfmt).sew)
    -- no token to have: 24 other quads hold one
    ∧ (let s : State := { (multiplying 0).withV 0x00 2 1 with tokens := vset base.tokens 0 ⟨(List.range 24).map fun i => (i + 1, 0), 0, []⟩ };
      (∀ x ∈ (s.ring 0).holders, x.1 ≠ idQuad s.hart.hartid) ∧ (∀ x ∈ (s.ring 0).holders, x.2 < 64) ∧ (vget s.hub.pwrTokens 24 0).toNat ≤ (s.ring 0).holders.length
      ∧ idDie s.hart.hartid < 4 ∧ 0 < s.vcfg.vl)
    -- from a tile queue
    ∧ (let s : State := ((multiplying 0).withV 0x00 2 1).withHart fun h => { h with tq := h.tq.set 0 [⟨0, 2, 1, true, [1, 2], []⟩] };
      s.VecReady .never none [] True [] ∧ s.hart.hasFeeder = true ∧ vget s.hart.tq [] 0 = [⟨0, 2, 1, true, [1, 2], []⟩]
      ∧ ((0 : BitVec 2).toNat, 1, 2) = (s.vcfg.sew, s.vcfg.rc, s.vcfg.vl) ∧ vget s.hart.tq [] 1 = [])
    ∧ (multiplying 0).vcfg.sew ≠ (Mode.of (multiplying 0).hart.mfmt).sew ∧ ((multiplying 0).withV 0x00 0 1).vcfg.vl = 0 := by
  with_reducible and_intros
  all_goals first
    | decide +kernel
    | exact scalar_ready (by decide +kernel) | exact vec_ready (by decide +kernel) (by decide +kernel)
    | exact fits_of (by decide +kernel) | exact sig_matches (by decide +kernel) | exact reaches_of (by decide +kernel)
    | exact words_of (by decide +kernel) | exact okIs_eq (by decide +kernel) | exact memIs_ex (by decide +kernel)
    | exact isOk_ex (by decide +kernel) | exact sig_fails (by decide +kernel) | (unfold State.Calm; decide +kernel)
    | (unfold State.Quiet State.Calm; decide +kernel) | (unfold State.M0Clear; decide +kernel) | (unfold Apart; decide +kernel)
    | (unfold State.ReleaseWaits; decide +kernel) | exact tries_of (by decide +kernel)

theorem witness_MatrixReadout :
    (let s : State := (multiplying 0).withG 9 0x10001;
      s.VecReady .never (some (4, s.vcfg.lmul)) [] True [9] ∧ s.vcfg.Fits (2 ^ s.vcfg.sew) s.vcfg.lmul ∧ s.hart.mcount ≠ 0 ∧ s.st.vstart = 0
      ∧ s.vcfg.sew = 2 ∧ (s.rd 9).toNat < 2 ^ 17 ∧ (s.rd 9).getLsbD 15 = false ∧ ((s.rd 9) >>> 4).setWidth 4 = 0#4
      ∧ (s.rd 9).getLsbD 16 = true ∧ ((s.rd 9).setWidth 4).toNat = 1 ∧ ((s.rd 9).setWidth 4).toNat < s.hart.mcount
      ∧ 1 * (Mode.of s.hart.mfmt).cols + 0 + s.vcfg.vl ≤ s.hart.mcount * (Mode.of s.hart.mfmt).cols)
    -- the last column of macro 0 and the first of macro 1, in FP32
    ∧ (let s : State := (multiplying 5).withG 9 0x1F00;
      s.VecReady .never (some (4, s.vcfg.lmul)) [] True [9] ∧ (Mode.of s.hart.mfmt).code = 5 ∧ s.vcfg.sew ≠ 0
      ∧ (((s.rd 9) >>> 8).setWidth 7).toNat < (Mode.of s.hart.mfmt).cols
      ∧ 0 * (Mode.of s.hart.mfmt).cols + 31 + s.vcfg.vl ≤ s.hart.mcount * (Mode.of s.hart.mfmt).cols)
    -- SEW 8
    ∧ ((multiplying 5).withV 0x00 2 1).vcfg.sew = 0 ∧ ((multiplying 5).withV 0x00 2 1).VecReady .never (some (4, 1)) [] True [9] := by
  with_reducible and_intros
  all_goals first
    | decide +kernel
    | exact scalar_ready (by decide +kernel) | exact vec_ready (by decide +kernel) (by decide +kernel)
    | exact fits_of (by decide +kernel) | exact sig_matches (by decide +kernel) | exact reaches_of (by decide +kernel)
    | exact words_of (by decide +kernel) | exact okIs_eq (by decide +kernel) | exact memIs_ex (by decide +kernel)
    | exact isOk_ex (by decide +kernel) | exact sig_fails (by decide +kernel) | (unfold State.Calm; decide +kernel)
    | (unfold State.Quiet State.Calm; decide +kernel) | (unfold State.M0Clear; decide +kernel) | (unfold Apart; decide +kernel)
    | (unfold State.ReleaseWaits; decide +kernel) | exact tries_of (by decide +kernel)

theorem witness_ExactAccumulation :
    (base.vcfg.vl ≤ 2 ^ 1 ∧ 2 ^ (1 - 1) < base.vcfg.vl) ∧ (base.withV 0x20 1 1).vcfg.vl ≤ 2 ^ 0
    ∧ base.vcfg.fmt = fmtF32 ∧ (fmtF32, ⟨32, 23, 127, 0x7F7FFFFF, some 0x7F800000, 0x7FC00000⟩) ∈ layouts
    -- the modes
    ∧ (0x40 : BitVec 8).toNat % 16 = 0 ∧ (1 : BitVec 8).toNat % 16 = 1 ∧ (List.replicate 32 (1 : Nat)).length = 32
    ∧ ((Mode.of 4).a, ⟨16, 7, 127, 0x7F7F, some 0x7F80, 0x7FC0⟩) ∈ layouts ∧ (4, 16, 64) ∈ [(3, 16, 64), (4, 16, 64), (5, 32, 128), (6, 64, 256)]
    -- a binade: 1 and 1.5 lie in that of 2^0
    ∧ ((∀ p ∈ [RVal.fin false 1, .fin true (-3 / 2)], ratAbs p.num < 2 ^ ((0 : Int) + 1))
      ∧ ∃ p ∈ [RVal.fin false 1, .fin true (-3 / 2)], 2 ^ (0 : Int) ≤ ratAbs p.num)
    -- one block after another
    ∧ (0x40 : BitVec 8).toNat % 16 < 7 ∧ (List.replicate 64 (1 : Nat)).length % 32 = 0 ∧ [1, 2].length = (List.replicate 64 (1 : Nat)).length / 32 := by
  with_reducible and_intros
  all_goals first | decide +kernel | simp [layouts] <;> decide +kernel

/-- A descriptor of eight words at 0x4000. -/
def State.holdsWords (s : State) (l : List Nat) : State :=
  { s with mem := (s.mem.setBytes 0x10004000 (List.replicate 64 0)).setBytes 0x10004000 (l.flatMap (toLe 8)) }

/-- CC0 with 16 operations outstanding. -/
def copying : State := { base with ops := List.replicate 16 copyOp }

/-- Bedrock context 0 exists, with WIN 0. -/
def parking : State := { base with bedrock := vset base.bedrock 0 ⟨true, false, 0, Timeline.zero⟩ }.withG 7 0x3000

theorem witness_EngineInstructions :
    base.occupied = true ∧ base.Calm ∧ parking.Calm ∧ base.ScalarReady .never true false [5, 6, 7] ∧ (base.rd 5).toNat ≤ 2 ^ 40
    ∧ (base.timeline (.copy 1 0)).issued + 1 < 2 ^ 63 ∧ base.outstanding (.copy base.hart.tag 0) < 16
    ∧ copying.ScalarReady .never true false [5, 6, 7] ∧ 16 ≤ copying.outstanding (.copy copying.hart.tag 0)
    ∧ (base.withG 5 0x10000000001).ScalarReady .never true false [5, 6, 7] ∧ 2 ^ 40 < ((base.withG 5 0x10000000001).rd 5).toNat
    ∧ base.ScalarReady .never true false [5, 8] ∧ (base.rd 8).toNat % 32 = 0 ∧ (base.rd 9).toNat % 32 ≠ 0
    ∧ base.ScalarReady .never true false [5, 9] ∧ base.Words (base.rd 8) 4 (fun _ => 0)
    -- CPYX: a count of 2 elements of 4 bytes within limits, its index array aligned and not; beyond the limits
    ∧ (let s := base.holdsWords [0x5000, 0x6000, 0x7000, 0x400000002];
      s.Words (s.rd 8) 4 (fun j => BitVec.ofNat 64 ([0x5000, 0x6000, 0x7000, 0x400000002].getD j 0)) ∧ s.ScalarReady .never true false [5, 8])
    ∧ (let s := base.holdsWords [0x5000, 0x6000, 0x7002, 0x400000002];
      s.Words (s.rd 8) 4 (fun j => BitVec.ofNat 64 ([0x5000, 0x6000, 0x7002, 0x400000002].getD j 0)))
    -- CPY2 beyond 2^40 bytes
    ∧ (let s := base.holdsWords [0x5000, 0x6000, 0xFFFFFFFFFFFFFFFF, 0];
      s.Words (s.rd 8) 4 (fun j => BitVec.ofNat 64 ([0x5000, 0x6000, 0xFFFFFFFFFFFFFFFF, 0].getD j 0)))
    -- PARK and UNPARK
    ∧ parking.ScalarReady .never true true [5, 8, 7] ∧ (parking.rd 7).toNat % 65536 = 0x3000 + 0
    ∧ (vget parking.bedrock bedrockDefault 0).exist = true ∧ (vget parking.bedrock bedrockDefault 0).closing = false
    ∧ parking.st.win = (vget parking.bedrock bedrockDefault 0).win ∧ (parking.rd 8).toNat % 64 = 0
    ∧ parking.Words (parking.rd 8) 8 (fun _ => 0) ∧ parking.outstanding (.bedrock 0) < 32
    ∧ (vget base.bedrock bedrockDefault 0).exist = false ∧ parking.hart.sv = false
    ∧ (let s : State := { parking with
        bedrock := vset base.bedrock 0 ⟨true, false, 5, Timeline.zero⟩, ops := List.replicate 32 { copyOp with ctx := .bedrock 0 } };
      s.st.win ≠ (vget s.bedrock bedrockDefault 0).win ∧ 32 ≤ s.outstanding (.bedrock 0) ∧ s.byService.hart.sv = true)
    ∧ (let s := parking.holdsWords [0, 0, 0, 0, 3];
      s.Words (s.rd 8) 8 (fun j => if j = 4 then 3 else 0))
    -- a CPY of no byte
    ∧ base.rd 0 = 0 ∧ base.rd 5 ≠ 0 ∧ base.hart.isControl = false ∧ base.hart.run = .running ∧ base.ops = []
    ∧ (let s := parking.holdsWords [0, 0x5000, 0x5040, 32, 1];
      s.Words (s.rd 8) 8 (fun j => BitVec.ofNat 64 ([0, 0x5000, 0x5040, 32, 1].getD j 0)))
    ∧ base.sending.ReleaseWaits 3 ∧ base.sending.ScalarReady .never true true [5, 7, 8] ∧ ¬base.ReleaseWaits 3
    ∧ (base.sending.holdsWords [0x5000, 0x6000, 0x7000, 0x400000002]).Calm := by
  with_reducible and_intros
  all_goals first
    | decide +kernel
    | exact scalar_ready (by decide +kernel) | exact vec_ready (by decide +kernel) (by decide +kernel)
    | exact fits_of (by decide +kernel) | exact sig_matches (by decide +kernel) | exact reaches_of (by decide +kernel)
    | exact words_of (by decide +kernel) | exact okIs_eq (by decide +kernel) | exact memIs_ex (by decide +kernel)
    | exact isOk_ex (by decide +kernel) | exact sig_fails (by decide +kernel) | (unfold State.Calm; decide +kernel)
    | (unfold State.Quiet State.Calm; decide +kernel) | (unfold State.M0Clear; decide +kernel) | (unfold Apart; decide +kernel)
    | (unfold State.ReleaseWaits; decide +kernel) | exact tries_of (by decide +kernel)

theorem witness_TimelineInstructions :
    -- ids and what they name
    (((base.withG 8 0x1001).rd 8).setWidth 16).toNat = 0x1000 + 1 ∧ base.hart.isControl = false
    ∧ (((base.withG 8 0x2FFF).rd 8).setWidth 16).toNat = 0x2000 + 1024 * 3 + 1023
    ∧ (parking.rd 7).setWidth 16 = (0x3000 : BitVec 16) ∧ ((base.rd 5).setWidth 16).toNat < 0x1000
    ∧ base.ScalarReady .never true true [5, 6] ∧ base.ctxOf (base.rd 5) = none
    ∧ (base.withG 8 0x1000).ScalarReady .never true true [8, 6] ∧ (base.withG 8 0x1000).ctxOf 0x1000 = some (.copy 1 0)
    ∧ (base.rd 0).toNat ≤ (base.timeline (.copy 1 0)).count ∧ (base.timeline (.copy 1 0)).count < (base.rd 6).toNat
    ∧ parking.ScalarReady .never true true [5, 7] ∧ parking.ctxOf (parking.rd 7) = some (.bedrock 0) ∧ parking.dirty.length ≤ 2 ^ 26
    ∧ parking.outstanding (.bedrock 0) < 2 ^ 16
    -- ENGCTX create: the lowest free, a given one, one that exists, none left, no id of a Bedrock context
    ∧ (parking.withG 7 0x3FFF).rd 7 = 0x3FFF ∧ (parking.withG 7 0x3FFF).ScalarReady .never true true [5, 7]
    ∧ (vget parking.bedrock bedrockDefault 1).exist = false ∧ (∀ j, j < 1 → (vget parking.bedrock bedrockDefault j).exist = true)
    ∧ (parking.withG 7 0x3007).rd 7 = 0x3000 + BitVec.ofNat 64 7 ∧ (vget parking.bedrock bedrockDefault 7).exist = false
    ∧ (vget parking.bedrock bedrockDefault 0).exist = true ∧ parking.rd 7 ≠ 0x3FFF
    ∧ (∀ i, i < 8 → (vget ({ base with bedrock := Vector.replicate 8 ⟨true, false, 0, Timeline.zero⟩ } : State).bedrock bedrockDefault i).exist = true)
    ∧ (base.rd 5).toNat ≠ 0x3FFF ∧ (base.rd 5).toNat < 0x3000 ∧ 0x3008 ≤ ((base.withG 5 0x3008).rd 5).toNat
    -- ENGCTX destroy
    ∧ parking.ScalarReady .never true true [7] ∧ parking.hart.sv = false ∧ parking.st.win = (vget parking.bedrock bedrockDefault 0).win
    ∧ (vget parking.bedrock bedrockDefault 0).tl.count = (vget parking.bedrock bedrockDefault 0).tl.issued
    ∧ (let s : State := { parking with bedrock := vset base.bedrock 0 ⟨true, false, 5, ⟨1, 0, []⟩⟩ };
      s.ctxOf (s.rd 7) = some (.bedrock 0) ∧ s.st.win ≠ (vget s.bedrock bedrockDefault 0).win
      ∧ (vget s.bedrock bedrockDefault 0).tl.count ≠ (vget s.bedrock bedrockDefault 0).tl.issued ∧ s.byService.hart.sv = true)
    -- PBAR
    ∧ base.ScalarReady .never true true [] ∧ base.ingress = [] ∧ base.hart.vq = []
    ∧ (let u : PersistUnit := ⟨0x100000000000, [], some 1, none, false, none, false⟩; base.wrote u = true)
    ∧ base.hart.late = [] ∧ (base.withHart fun h => { h with vq := [waiting] }).ScalarReady .never true true []
    -- a context that has ceased to exist
    ∧ (let s : State := base.withMain fun t => { t with tlw := .gone }; s.ScalarReady .never true true [5, 6] ∧ s.st.tlw = .gone) := by
  with_reducible and_intros
  all_goals first
    | decide +kernel
    | exact scalar_ready (by decide +kernel) | exact vec_ready (by decide +kernel) (by decide +kernel)
    | exact fits_of (by decide +kernel) | exact sig_matches (by decide +kernel) | exact reaches_of (by decide +kernel)
    | exact words_of (by decide +kernel) | exact okIs_eq (by decide +kernel) | exact memIs_ex (by decide +kernel)
    | exact isOk_ex (by decide +kernel) | exact sig_fails (by decide +kernel) | (unfold State.Calm; decide +kernel)
    | (unfold State.Quiet State.Calm; decide +kernel) | (unfold State.M0Clear; decide +kernel) | (unfold Apart; decide +kernel)
    | (unfold State.ReleaseWaits; decide +kernel) | exact tries_of (by decide +kernel)

/-- A copy of 16 bytes, accepted; performed. -/
def started : State := { base.pages with ops := [copyOp], nextOp := 2 }.withHart fun h => { h with cc := h.cc.set 0 ⟨1, 0, []⟩ }
def ended : State := { started with ops := [{ copyOp with stage := .performed }] }

theorem witness_OperationLifecycle :
    started.op copyOp.id = some copyOp ∧ copyOp.stage = .accepted ∧ started.down = false ∧ started.ingress = []
    ∧ (∀ d slot, copyOp.ctx ≠ .topo d slot) ∧ started.Maps (copyOp.agent copyOp.die) 0 0x4000 0x2000 (0x10000000 + 0x4000)
    ∧ copyOp.kind = .cpy 0x5000 0x4000 16 ∧ 0x4000 ≤ (0x4000 : Word).toNat ∧ (0x5000 : Word).toNat + 16 ≤ 0x4000 + 0x2000
    -- rows a step apart backwards, and entries with one of padding
    ∧ (∀ r, r < 2 → 0x4000 ≤ ((0x5000 : Word) + BitVec.ofNat 64 r * (0xFFFFFFF0 : BitVec 32).signExtend 64).toNat
      ∧ ((0x5000 : Word) + BitVec.ofNat 64 r * (0xFFFFFFF0 : BitVec 32).signExtend 64).toNat + 8 ≤ 0x6000)
    ∧ ((List.range 2).foldlM (copyEntry 0x4000 0x2000 0x10004000 0x5000 0x4000 0x4800 8 4 false)
      ((base.mem.writeLe 0x10004804 4 0xFFFFFFFF).byte)).isSome = true
    -- a source that faults: of a hart that runs, and of one that is killed
    ∧ (0x7000000000 : Word).toNat % 64 + 16 ≤ 64 ∧ copyOp.faultDie < 4
    ∧ (∃ f, started.translate (copyOp.agent copyOp.die) (.plain 0 16) 0x7000000000 = .mem f started)
    ∧ (started.findHart 1).map (·.run) = some .running ∧ ((started.withHart fun h => { h with run := .killed false }).findHart 1).map (·.run)
      = some (.killed false)
    -- its end
    ∧ ended.op copyOp.id = some { copyOp with stage := .performed } ∧ copyOp.also = none ∧ ended.ingress = [] ∧ copyOp.ctl = none
    ∧ copyOp.issuer = ended.hart.tag ∧ ended.occupied = true ∧ ended.hart.isControl = false ∧ ended.hart.run = .running
    ∧ copyOp.num = (ended.timeline copyOp.ctx).count + 1 ∧ (ended.timeline copyOp.ctx).done = []
    -- two operations of one generation, of which the first writes
    ∧ (let a : Op := { copyOp with ctx := .topo 0 0, kind := .tmark 0 }; a.writes 0 0 = true)
    ∧ (let o : Op := { copyOp with ctx := .xchg 0, stage := .lost }; let s : State := { base with ops := [o] };
      s.op o.id = some o ∧ o.stage = .lost) := by
  with_reducible and_intros
  all_goals first
    | exact maps_hbm (by decide) (by decide) (by decide) (.inl (by decide)) (by decide +kernel) (by decide +kernel) (by decide +kernel)
        (by decide +kernel) (by decide)
    | decide +kernel
    | exact scalar_ready (by decide +kernel) | exact vec_ready (by decide +kernel) (by decide +kernel)
    | exact fits_of (by decide +kernel) | exact sig_matches (by decide +kernel) | exact reaches_of (by decide +kernel)
    | exact words_of (by decide +kernel) | exact okIs_eq (by decide +kernel) | exact memIs_ex (by decide +kernel)
    | exact isOk_ex (by decide +kernel) | exact sig_fails (by decide +kernel) | (unfold State.Calm; decide +kernel)
    | (unfold State.Quiet State.Calm; decide +kernel) | (unfold State.M0Clear; decide +kernel) | (unfold Apart; decide +kernel)
    | (intro d slot h; cases h)
    | (unfold State.ReleaseWaits; decide +kernel) | exact tries_of (by decide +kernel)

/-- A generation in slot 0 of die 0, with two cells and one face between them and one boundary; its storage is set up. -/
def meshed : State :=
  { base with
    gens := [{ Gen.fresh 0 0 with
      ncell := 2, built := true, cells := [⟨0, 0, 0⟩, ⟨0x40000000, 0, 0⟩]
      faces := [⟨0, 1, 1, 0, 0xFF, 0⟩, ⟨1, 0xFFFFFFFE, 1, 0xFF, 0xFF, 0⟩], benches := some [0, 0] }]
    hub := { base.hub with tsbase := vset base.hub.tsbase 0 1 } }.withG 7 0x2000

theorem witness_TopologyInstructions :
    meshed.hart.late = [] ∧ meshed.ScalarReady .never true false [5, 7, 8] ∧ ((meshed.rd 7).setWidth 16).toNat = 0x2000 + 1024 * meshed.hart.die + 0
    ∧ (meshed.gen meshed.hart.die 0).isSome = true ∧ (meshed.gen 0 0).map (·.closed) = some none ∧ (meshed.rd 8).toNat % 64 = 0
    ∧ meshed.topoFull 0 = false ∧ (meshed.timeline (.topo 0 0)).issued + 1 < 2 ^ 63 ∧ (meshed.rd 9).toNat % 8 ≠ 0
    -- the schedule context, and an id that names nothing
    ∧ (((meshed.withG 7 0x23FF).rd 7).setWidth 16).toNat = 0x2000 + 1024 * meshed.hart.die + 1023
    ∧ ((meshed.rd 5).setWidth 16).toNat < 0x2000
    -- the full engine
    ∧ ({ meshed with ops := List.replicate 64 { copyOp with ctx := .topo 0 0 } } : State).topoFull 0 = true
    -- TBIND, TCOMMIT, TIMPORT: the free slot 1, and none without storage
    ∧ ((meshed.withG 7 0x4000).rd 7).toNat % 64 = 0 ∧ (meshed.withG 7 0x4000).ScalarReady .never true false [5, 7, 8]
    ∧ (vget meshed.hub.tsbase 0 0).getLsbD 0 = true ∧ meshed.gen 0 1 = none ∧ (∀ j, j < 1 → (meshed.gen 0 j).isSome = true)
    ∧ (vget base.hub.tsbase 0 0).getLsbD 0 = false
    -- TFREE
    ∧ meshed.ScalarReady .never true false [7] ∧ (meshed.gen 0 0).map (fun g => decide (g.tl.count = g.tl.issued)) = some true
    ∧ (let s : State := { meshed with gens := [{ Gen.fresh 0 0 with tl := ⟨1, 0, []⟩, closed := some (7, false) }] };
      (s.gen 0 0).map (·.closed) = some (some (7, false)) ∧ (7, false) ≠ (s.hart.tag, s.onFeeder)
      ∧ (s.gen 0 0).map (fun g => decide (g.tl.count = g.tl.issued)) = some false)
    ∧ meshed.sending.ReleaseWaits 3 ∧ meshed.sending.ScalarReady .never true false [5, 7, 8] ∧ ¬meshed.ReleaseWaits 3 := by
  with_reducible and_intros
  all_goals first
    | decide +kernel
    | exact scalar_ready (by decide +kernel) | exact vec_ready (by decide +kernel) (by decide +kernel)
    | exact fits_of (by decide +kernel) | exact sig_matches (by decide +kernel) | exact reaches_of (by decide +kernel)
    | exact words_of (by decide +kernel) | exact okIs_eq (by decide +kernel) | exact memIs_ex (by decide +kernel)
    | exact isOk_ex (by decide +kernel) | exact sig_fails (by decide +kernel) | (unfold State.Calm; decide +kernel)
    | (unfold State.Quiet State.Calm; decide +kernel) | (unfold State.M0Clear; decide +kernel) | (unfold Apart; decide +kernel)
    | (unfold State.ReleaseWaits; decide +kernel) | exact tries_of (by decide +kernel)

/-- A generation of two cells of level 0, one face between them and two boundaries; the first cell is to be refined. -/
def pair : Gen := { Gen.fresh 0 0 with
  ncell := 2, built := true, cells := [⟨0, 0, 0⟩, ⟨0x40000000, 0, 0⟩], marks := [1, 0]
  faces := [⟨0, 1, 1, 0, 0xFF, 0⟩, ⟨0, 0xFFFFFFFE, 2, 0xFF, 0xFF, 5⟩, ⟨1, 0xFFFFFFFE, 2, 0xFF, 0xFF, 5⟩], remap := [⟨0, 0, 2, 0, 0⟩] }
/-- An operation on generation 0 of die 0, or on another context. -/
def engineOp (c : CtxRef) (k : OpKind) : Op := { copyOp with ctx := c, kind := k }
/-- It has been accepted, `pair` is built in slots 0 and 1, and memory holds the numbers `l`: address, bytes, value. -/
def engaged (c : CtxRef) (k : OpKind) (l : List (Nat × Nat × Nat)) : State :=
  { base.pages with ops := [engineOp c k], nextOp := 2, gens := [pair, { pair with slot := 1 }]
                    mem := l.foldl (fun m x => m.writeLe (0x10000000 + x.1) x.2.1 x.2.2) base.mem }
/-- The number at an address of `engaged`. -/
def State.held (s : State) (va n : Nat) : Nat := numIn s.mem.byte (0x10000000 + va) n
/-- A form at 0x5000 of one cell of level 0, whose key names root 2, and whose reserved field holds `x`. -/
def oneCell (x : Nat) : List (Nat × Nat × Nat) :=
  [(0x5000, 4, 0x4E594D58), (0x5004, 2, 1), (0x5008, 4, 1), (0x5020, 8, 64), (0x5028, 8, 80), (0x5040, 8, 0x80000000), (0x504A, 2, x)]

theorem engaged_op (c : CtxRef) (k : OpKind) (l : List (Nat × Nat × Nat)) : (engaged c k l).op (engineOp c k).id = some (engineOp c k) := by
  simp [engaged, engineOp, State.op, copyOp]
theorem engaged_maps (k : OpKind) (l : List (Nat × Nat × Nat)) :
    (engaged (.topo 0 0) k l).Maps ((engineOp (.topo 0 0) k).agent 0) 0 0x4000 0x8000 (0x10000000 + 0x4000) :=
  maps_hbm rfl rfl rfl (.inl (by simp [Agent.units, Op.agent, engineOp, copyOp])) rfl rfl rfl rfl (by decide)
theorem parked_maps (k : OpKind) (l : List (Nat × Nat × Nat)) :
    (engaged (.bedrock 0) k l).Maps ((engineOp (.bedrock 0) k).agent 0) 0 0x4000 0x8000 (0x10000000 + 0x4000)
    ∧ (engaged (.bedrock 0) k l).Maps ((engineOp (.bedrock 0) k).agent 0) 2 0x10000000 0x1000 (0x100000000000 + (0x10000000 - 0x10000000)) :=
  ⟨maps_hbm rfl rfl rfl (.inr (by simp [Agent.units, Op.agent, engineOp])) rfl rfl rfl rfl (by decide),
    maps_window rfl rfl rfl (by simp [Agent.units, Op.agent, engineOp]) rfl rfl rfl (by decide)⟩
/-- A held page classes the bytes within it. -/
theorem classed_of {s : State} {a : Agent} {va : Word} {n p : Nat} {e : TlbEntry} {cls : Nat → Nat}
    (h1 : va.toNat / 65536 = p ∧ (va.toNat + n - 1) / 65536 = p) (h2 : e.pte.toNat / 64 % 4 = cls p)
    (h3 : ∀ w : Nat, w / 65536 = p → s.tlbFor a w = some e) : s.Classed a va n cls := by
  intro w _ h4 h5
  have : w.toNat / 65536 = p := by omega
  exact ⟨e, h3 _ this, by rw [this, h2]⟩

/-- A key of a cell of level 0 keeps R365. -/
theorem root_follows (r : Nat) : KeyFollows (r * 0x40000000) := by
  have h8 : r * 0x40000000 % 8 = 0 := by omega
  have hl : r * 0x40000000 / 8 % 8 = 0 := by omega
  refine ⟨by omega, by omega, fun l h1 h2 => ?_, fun l h1 h2 => by omega⟩
  have : l = 1 ∨ l = 2 ∨ l = 3 ∨ l = 4 ∨ l = 5 ∨ l = 6 := by omega
  rcases this with rfl | rfl | rfl | rfl | rfl | rfl <;> simp <;> omega

/-- TIMPORT's descriptor at 0x4000, with that form and FIRST 0, COUNT 2, CAP 16. -/
def imports (x : Nat) : List (Nat × Nat × Nat) :=
  [(0x400C, 4, 2), (0x4010, 2, 1), (0x4018, 8, 0x6000), (0x4020, 4, 16), (0x4040, 8, 0x5000)] ++ oneCell x
def importing (x : Nat) : State := engaged (.topo 0 0) (.timport 1 0x4000) (imports x)
/-- The form in memory, and whether its one cell record offends. -/
theorem oneCell_form :
    FormIn (importing 0).mem.byte 0x10005000 ⟨0, 1, 0, [⟨0x80000000, 0, 0⟩], []⟩ 0 none
    ∧ FormIn (importing 1).mem.byte 0x10005000 ⟨0, 1, 0, [⟨0x80000000, 0, 0⟩], []⟩ 0 (some 1) := by
  have key : ∀ k : Nat, KeyFollows (((([⟨0x80000000, 0, 0⟩] : List TCell).getD 0 ⟨0, 0, 0⟩).key).toNat) := fun _ => root_follows 2
  constructor
  · refine ⟨by decide +kernel, by decide +kernel, by decide +kernel, fun i c h => ?_, fun i r h => by simp at h, fun o h => ?_⟩
    · match i, h with
      | 0, h =>
        simp only [List.getElem?_cons_zero, Option.some.injEq] at h
        subst h
        decide +kernel
      | n + 1, h => simp at h
    · rcases h with ⟨i, hi, _, h⟩ | ⟨j, hj, _⟩
      · have : i = 0 := by simpa using hi
        subst this
        rcases h with h | h | ⟨j, h, _⟩ | ⟨h, _⟩
        · exact h (by decide +kernel)
        · exact h (key 0)
        · omega
        · exact h rfl
      · simp at hj
  · refine ⟨by decide +kernel, by decide +kernel, by decide +kernel, fun i c h => ?_, fun i r h => by simp at h, ?_, fun p hp h => ?_⟩
    · match i, h with
      | 0, h =>
        simp only [List.getElem?_cons_zero, Option.some.injEq] at h
        subst h
        decide +kernel
      | n + 1, h => simp at h
    · exact .inl ⟨0, by decide, rfl, .inl (by decide +kernel)⟩
    · rcases h with ⟨i, _, h, _⟩ | ⟨j, hj, _⟩
      · omega
      · simp at hj

/-- What is held for the two pages of a PARK. -/
theorem held_hbm (w : Nat) (h : w / 65536 = 0) :
    (engaged (.bedrock 0) (.park 0x4000 0x5000 0x10000000 32 1 0) []).tlbFor
      ((engineOp (.bedrock 0) (.park 0x4000 0x5000 0x10000000 32 1 0)).agent 0) w = some ⟨.hub, 0, 0, 0x10000000, 0, 0x1000033F⟩ := by
  have : w < 0x10000000 := by omega
  simp [State.tlbFor, engaged, State.pages, heldPages, Agent.units, Op.agent, engineOp, copyOp, List.find?, this]
theorem held_window (w : Nat) (h : w / 65536 = 0x1000) :
    (engaged (.bedrock 0) (.park 0x4000 0x5000 0x10000000 32 1 0) []).tlbFor
      ((engineOp (.bedrock 0) (.park 0x4000 0x5000 0x10000000 32 1 0)).agent 0) w
      = some ⟨.hub, 0, 0x10000000, 0x10000000, 0, 0x1000000003BF⟩ := by
  have h1 : decide (w < 0x10000000) = false := by simp; omega
  have h2 : 0x10000000 ≤ w ∧ w < 0x20000000 := by omega
  simp [State.tlbFor, engaged, State.pages, heldPages, Agent.units, Op.agent, engineOp, copyOp, List.find?, h1, h2]

theorem witness_EngineEffects :
    -- averages: a NaN, an infinity, numbers
    ((fmtF32, ⟨32, 23, 127, 0x7F7FFFFF, some 0x7F800000, 0x7FC00000⟩) ∈ layouts
      ∧ (let l : Layout := ⟨32, 23, 127, 0x7F7FFFFF, some 0x7F800000, 0x7FC00000⟩;
        l.inf ≠ none ∧ ([0x7FC00000, 0].map l.value).any (·.isNan false) = true ∧ ([0xFF800000, 0].map l.value).any (·.isNan false) = false
        ∧ ([0xFF800000, 0].map l.value).any (· == .inf false) ≠ ([0xFF800000, 0].map l.value).any (· == .inf true)
        ∧ ([0x3F800000, 0].map l.value).any (· == .inf true) = false ∧ ([0x3F800000, 0].map l.value).any (· == .inf false) = false))
    -- every operation
    ∧ (∀ k l, (engaged (.topo 0 0) k l).op (engineOp (.topo 0 0) k).id = some (engineOp (.topo 0 0) k)
      ∧ (engaged (.topo 0 0) k l).Maps ((engineOp (.topo 0 0) k).agent 0) 0 0x4000 0x8000 (0x10000000 + 0x4000))
    ∧ copyOp.stage = .accepted ∧ (engaged (.topo 0 0) (.tlevel 0x4000) []).down = false ∧ (engaged (.topo 0 0) (.tlevel 0x4000) []).ingress = []
    ∧ (engaged (.topo 0 0) (.tlevel 0x4000) []).topoReady (engineOp (.topo 0 0) (.tlevel 0x4000)) = true
    ∧ (engaged (.topo 0 0) (.tlevel 0x4000) []).gen 0 0 = some pair ∧ (engaged (.topo 0 0) (.tlevel 0x4000) []).gen 0 1 = some { pair with slot := 1 }
    -- TLEVEL: no row, one row without columns, one with a column out of range
    ∧ (engaged (.topo 0 0) (.tlevel 0x4000) []).held 0x4028 4 = 0
    ∧ (let s := engaged (.topo 0 0) (.tlevel 0x4000) [(0x4008, 8, 0x5000), (0x4010, 8, 0x6000), (0x4018, 8, 0x7000), (0x4020, 8, 0x7100), (0x4028, 4, 1)];
      s.held 0x4028 4 = 1 ∧ s.held 0x402C 4 < 2 ∧ s.held 0x4034 12 = 0 ∧ s.held 0x4008 8 = 0x5000 ∧ s.held 0x5000 4 = 0 ∧ s.held 0x5004 4 = 0)
    ∧ (let s := engaged (.topo 0 0) (.tlevel 0x4000) [(0x4008, 8, 0x5000), (0x4010, 8, 0x6000), (0x4028, 4, 1), (0x5004, 4, 1), (0x6000, 4, 1)];
      s.held 0x5000 4 ≤ 0 ∧ 0 < s.held 0x5004 4 ∧ s.held 0x4028 4 ≤ s.held 0x6000 4)
    -- TCUT: no total; two destinations of the two cells
    ∧ (engaged (.topo 0 0) (.tcut 0x4000) []).held 0x4030 8 = 0
    ∧ (let s := engaged (.topo 0 0) (.tcut 0x4000) [(0x4008, 8, 0x5000), (0x4010, 8, 0x6000), (0x4018, 8, 0x7000), (0x4020, 8, 0x7100), (0x4030, 8, 2),
        (0x4038, 2, 2), (0x403A, 2, 8), (0x5000, 4, 1), (0x5004, 4, 1)];
      s.held 0x4030 8 ≠ 0 ∧ s.held 0x4038 2 = 2 ∧ s.held 0x403A 2 ≠ 0 ∧ ((s.gen 0 0).isSome == decide (s.held 0x403C 4 ≠ 0)) = false
      ∧ s.held 0x4010 8 = 0x6000)
    -- TMARK: another count; the count of cells, all of one level
    ∧ (engaged (.topo 0 0) (.tmark 0x4000) []).held 0x400C 4 ≠ pair.cells.length
    ∧ (engaged (.topo 0 0) (.tmark 0x4000) [(0x400C, 4, 2), (0x4010, 1, 1)]).held 0x400C 4 = pair.cells.length
    ∧ (∀ r ∈ pair.faces, r.right ≠ 0xFFFFFFFE → r.left < 2 ∧ r.right < 2 ∧ levelOf (pair.cells.getD r.left ⟨0, 0, 0⟩).key.toNat
      ≤ levelOf (pair.cells.getD r.right ⟨0, 0, 0⟩).key.toNat + 1)
    -- TCOLOUR
    ∧ (∀ f ∈ pair.faces, f.left ≠ 0xFFFFFFFE)
    -- TXPORT: OUT not aligned; the cells and faces in order
    ∧ (engaged (.topo 0 0) (.txport 0x4000) [(0x4008, 8, 0x5001)]).held 0x4008 8 % 64 ≠ 0
    ∧ (let s := engaged (.topo 0 0) (.txport 0x4000) [(0x4008, 8, 0x5000), (0x4010, 8, 0x1000), (0x401C, 4, 2)];
      s.held 0x4008 8 % 64 = 0 ∧ s.held 0x4018 4 + s.held 0x401C 4 ≤ pair.ncell ∧ s.held 0x4022 6 = 0 ∧ s.held 0x4030 16 = 0)
    ∧ (pair.ncell ≤ pair.cells.length ∧ ∀ i, i < 2 → ∀ j, j < i → (pair.cells.getD j ⟨0, 0, 0⟩).key.toNat < (pair.cells.getD i ⟨0, 0, 0⟩).key.toNat)
    ∧ (∀ i, i < 3 → ∀ f, pair.faces[i]? = some f → f.left < 2 ∧ ((f.right = 0xFFFFFFFE ∧ f.rface = 0xFF ∧ f.sub = 0xFF) ∨ (f.left < f.right ∧ f.right < 2))
      ∧ ∀ j, j < i → ∀ g, pair.faces[j]? = some g → g.left < f.left ∨ (g.left = f.left ∧ g.lface < f.lface))
    -- TREMAP: 17 fields; one field of 4-byte elements by the generation's own list, by one in memory, and by one with a bad record
    ∧ 16 < (engaged (.topo 0 0) (.tremap 0x4000) [(0x4014, 2, 17)]).held 0x4014 2
    ∧ (let s := engaged (.topo 0 0) (.tremap 0x4000) [(0x4010, 4, 2 ^ 32 - 1), (0x4014, 2, 1), (0x4040, 8, 0x5000), (0x4048, 8, 0x6000), (0x4050, 4, 4),
        (0x4054, 1, 2)];
      s.held 0x4014 2 = 1 ∧ s.held 0x4016 2 = 0 ∧ s.held 0x4018 8 % 16 = 0 ∧ s.held 0x4028 24 = 0 ∧ s.held 0x4050 4 = 4 ∧ s.held 0x4054 1 ≤ 2
      ∧ s.held 0x4055 1 ≤ 1 ∧ s.held 0x4056 1 = 0 ∧ s.held 0x4057 9 = 0 ∧ s.held 0x4008 8 = 0 ∧ pair.remap.take pair.remap.length = [⟨0, 0, 2, 0, 0⟩])
    ∧ (let s := engaged (.topo 0 0) (.tremap 0x4000) [(0x4008, 8, 0x5000), (0x4010, 4, 1), (0x4014, 2, 1), (0x4050, 4, 4), (0x4054, 1, 2),
        (0x5008, 4, 2), (0x500C, 1, 5)];
      s.held 0x4008 8 ≠ 0 ∧ [s.held 0x5000 4, s.held 0x5004 4, s.held 0x5008 4, s.held 0x500C 1, s.held 0x500D 1] = [0, 0, 2, 5, 0] ∧ 4 < s.held 0x500C 1)
    -- TBIND: no form; a form; one whose cell record offends
    ∧ (engaged (.topo 0 0) (.tbind 0x5000 0) []).held 0x5000 4 ≠ 0x4E594D58
    ∧ FormIn (importing 0).mem.byte 0x10005000 ⟨0, 1, 0, [⟨0x80000000, 0, 0⟩], []⟩ 0 none
    ∧ FormIn (importing 1).mem.byte 0x10005000 ⟨0, 1, 0, [⟨0x80000000, 0, 0⟩], []⟩ 0 (some 1)
    -- TCOMMIT: the first cell refined
    ∧ (engaged (.topo 0 0) (.tcommit 1 0x4000) [(0x4008, 8, 0x5001)]).held 0x4008 8 % 16 ≠ 0
    ∧ (let s := engaged (.topo 0 0) (.tcommit 1 0x4000) [(0x4008, 8, 0x5000), (0x4010, 4, 16)];
      s.held 0x4008 8 % 16 = 0 ∧ s.held 0x4024 28 = 0 ∧ 0x4000 + 64 ≤ s.held 0x4008 8 ∧ s.held 0x4010 4 = 16)
    ∧ (∀ i, i < 2 → ∀ j, j < 2 → i ≠ j → (pair.cells.getD i ⟨0, 0, 0⟩).key.toNat / 2 ^ 30 ≠ (pair.cells.getD j ⟨0, 0, 0⟩).key.toNat / 2 ^ 30)
    ∧ (KeyFollows (0 * 0x40000000) ∧ KeyFollows (1 * 0x40000000) ∧ pair.marks.getD 0 0 = 1 ∧ levelOf 0 < 6 ∧ pair.marks.getD 1 0 ≠ -1)
    -- TIMPORT: nine forms; one form; DEST of the old cells
    ∧ 8 < (engaged (.topo 0 0) (.timport 1 0x4000) [(0x4010, 2, 9)]).held 0x4010 2
    ∧ ((importing 0).held 0x4008 4 + (importing 0).held 0x400C 4 ≤ pair.ncell ∧ (importing 0).held 0x4010 2 = 1 ∧ (importing 0).held 0x4038 8 = 0
      ∧ (importing 0).held 0x4040 8 = 0x5000 ∧ (importing 0).held 0x4018 8 = 0x6000 ∧ (importing 0).held 0x4030 8 = 0
      ∧ (importing 0).held 0x5020 8 = 64 ∧ (importing 0).held 0x5028 8 = 80)
    -- a key that the parts kept and the form both own
    ∧ (∃ i, 0 ≤ i ∧ i < 0 + 2 ∧ (pair.cells.getD i ⟨0, 0, 0⟩).key.toNat = 0x40000000)
    -- PARK and UNPARK of 32 values of 4 bytes, from and to a page of the window, and to one of another class
    ∧ (∀ k l, (engaged (.bedrock 0) k l).op (engineOp (.bedrock 0) k).id = some (engineOp (.bedrock 0) k)
      ∧ (engaged (.bedrock 0) k l).Maps ((engineOp (.bedrock 0) k).agent 0) 0 0x4000 0x8000 (0x10000000 + 0x4000)
      ∧ (engaged (.bedrock 0) k l).Maps ((engineOp (.bedrock 0) k).agent 0) 2 0x10000000 0x1000 (0x100000000000 + (0x10000000 - 0x10000000)))
    ∧ (engineOp (.bedrock 0) (.park 0x4000 0x5000 0x10000000 32 1 0)).kind = .park 0x4000 0x5000 0x10000000 32 1 0 ∧ (1 : BitVec 8) ≤ 2 ∧ 32 % 32 = 0
    ∧ (let s := engaged (.bedrock 0) (.park 0x4000 0x5000 0x10000000 32 1 0) [];
      let a := (engineOp (.bedrock 0) (.park 0x4000 0x5000 0x10000000 32 1 0)).agent 0;
      s.Classed a 0x10000000 33 (fun _ => 2) ∧ s.Classed a 0x5000 128 (fun _ => 0)) := by
  with_reducible and_intros
  all_goals first
    | exact oneCell_form.1 | exact oneCell_form.2 | exact root_follows _
    | exact fun k l => ⟨engaged_op _ k l, engaged_maps k l⟩ | exact fun k l => ⟨engaged_op _ k l, parked_maps k l⟩
    | decide +kernel
    | exact scalar_ready (by decide +kernel) | exact vec_ready (by decide +kernel) (by decide +kernel)
    | exact fits_of (by decide +kernel) | exact sig_matches (by decide +kernel) | exact reaches_of (by decide +kernel)
    | exact words_of (by decide +kernel) | exact okIs_eq (by decide +kernel) | exact memIs_ex (by decide +kernel)
    | exact isOk_ex (by decide +kernel) | exact sig_fails (by decide +kernel) | (unfold State.Calm; decide +kernel)
    | (unfold State.Quiet State.Calm; decide +kernel) | (unfold State.M0Clear; decide +kernel) | (unfold Apart; decide +kernel)
    | exact classed_of (p := 0x1000) (e := ⟨.hub, 0, 0x10000000, 0x10000000, 0, 0x1000000003BF⟩) (by decide) (by decide) held_window
    | exact classed_of (p := 0) (e := ⟨.hub, 0, 0, 0x10000000, 0, 0x1000033F⟩) (by decide) (by decide) held_hbm
    | exact ⟨1, by decide⟩ | simp [layouts]
    | (unfold State.ReleaseWaits; decide +kernel) | exact tries_of (by decide +kernel)

theorem witness_TileStreams :
    (let s : State := (meshed.withV 0x20 24 3).withG 9 0x200000000;
      s.ScalarReady .never true false [5, 7, 9] ∧ ((s.rd 7).setWidth 16).toNat = 0x2000 + 1024 * s.hart.die + 0
      ∧ (s.gen s.hart.die 0).map (·.closed) = some none ∧ s.hart.hasFeeder = true ∧ vtypeSew s.st.vtype = 2 ∧ vtypeLmul s.st.vtype = 1
      ∧ s.ops = [] ∧ s.hart.late = [] ∧ (s.timeline (.topo 0 0)).issued + 1 < 2 ^ 63 ∧ s.topoFull 0 = false
      -- TNBR: both cells
      ∧ ((s.rd 9).setWidth 32).toNat + (((s.rd 9) >>> 32).setWidth 24).toNat ≤ 2 ∧ 24 ≤ s.st.vl.toNat ∧ (s.rd 9) >>> 60 = 0
      -- each cell's neighbours, in ascending order
      ∧ (∀ c, c < 2 → (if c = 0 then [1] else [0] : List Nat).Pairwise (· < ·)))
    -- TFACE: part 0 of 1 of bench 0
    ∧ (let s : State := (meshed.withV 0x20 2 3).withG 9 0x10000;
      s.st.rc.toNat = 3 ∧ 0 < s.st.vl.toNat ∧ (((s.rd 9) >>> 16).setWidth 6).toNat = 1 ∧ ((s.rd 9).setWidth 6).toNat = 0
      ∧ (s.gen 0 0).map (fun g => g.benches.isSome) = some true ∧ (((s.rd 9) >>> 8).setWidth 5).toNat < 1 ∧ (s.rd 9) >>> 60 = 0
      ∧ ((s.rd 9) >>> 22).setWidth 34 = 0#34 ∧ ((s.rd 9) >>> 13).setWidth 3 = 0#3 ∧ ((s.rd 9) >>> 6).setWidth 2 = 0#2)
    -- bench 63 of a generation without benches, and an operation in flight that writes the generation
    ∧ (let s : State := (meshed.withV 0x20 2 3).withG 9 0x1003F;
      ((s.rd 9).setWidth 6).toNat = 63 ∧ (((s.rd 9) >>> 16).setWidth 6).toNat = 1 ∧ ((s.rd 9) >>> 6).setWidth 2 = 0#2)
    ∧ (let s : State := { meshed.withV 0x20 24 3 with ops := [{ copyOp with ctx := .topo 0 0, kind := .tmark 0 }] };
      s.ScalarReady .never true false [5, 7, 9] ∧ (s.gen 0 0).map (·.closed) = some none ∧ ∃ o ∈ s.ops, o.writes 0 0 = true)
    -- the wrong geometry, a count beyond the cells, a bench of 33
    ∧ vtypeSew (meshed.withV 0x30 24 3).st.vtype ≠ 2 ∧ 2 < (((meshed.withG 9 0x300000000).rd 9 >>> 32).setWidth 24).toNat
    ∧ ¬(((33 : Word).setWidth 6).toNat ≤ 32 ∨ ((33 : Word).setWidth 6).toNat = 63)
    -- TOPO_TILE_PUSH
    ∧ (let x : Tile := ⟨2, 2, 1, true, [1, 0, 0, 0, 2, 0, 0, 0], []⟩
      let o : Op := { copyOp with ctx := .topo 0 0, kind := .tiles 0 [x], token := 0 }
      let s : State := { meshed with ops := [o] };
      s.op o.id = some o ∧ s.occupied = true ∧ o.issuer = s.hart.tag ∧ s.hart.isSaved = false ∧ s.hart.isControl = false ∧ (vget s.hart.tq [] 0).length < 2
      ∧ s.firstStream o 0 = true ∧ (let t : State := s.withHart fun h => { h with tq := h.tq.set 0 [x, x] }; 2 ≤ (vget t.hart.tq [] 0).length))
    ∧ (let s : State := ((meshed.withV 0x20 24 3).withG 9 0x200000000).sending; s.ReleaseWaits 3 ∧ s.ScalarReady .never true false [5, 7, 9])
    ∧ ¬((meshed.withV 0x20 24 3).withG 9 0x200000000).ReleaseWaits 3
    ∧ (let o : Op := { copyOp with ctx := .topo 0 0, kind := .tiles 0 [], token := 0 };
      o.token = 0 ∧ o.also = none ∧ ∃ d k, o.ctx = .topo d k ∧ k < 1023 ∧ (meshed.gen d k).isSome = true) := by
  with_reducible and_intros
  all_goals first
    | exact ⟨0, 0, rfl, by decide, by decide +kernel⟩
    | decide +kernel
    | exact scalar_ready (by decide +kernel) | exact vec_ready (by decide +kernel) (by decide +kernel)
    | exact fits_of (by decide +kernel) | exact sig_matches (by decide +kernel) | exact reaches_of (by decide +kernel)
    | exact words_of (by decide +kernel) | exact okIs_eq (by decide +kernel) | exact memIs_ex (by decide +kernel)
    | exact isOk_ex (by decide +kernel) | exact sig_fails (by decide +kernel) | (unfold State.Calm; decide +kernel)
    | (unfold State.Quiet State.Calm; decide +kernel) | (unfold State.M0Clear; decide +kernel) | (unfold Apart; decide +kernel)
    | (unfold State.ReleaseWaits; decide +kernel) | exact tries_of (by decide +kernel)

/-- A record whose stream starts at 0x1000. -/
def record : List Nat := [0x1000, 0, 0, 0, 0, 0, 0, 0]
/-- Its 64 bytes. -/
def recordBytes : List Byte := record.flatMap (toLe 8)
/-- Two harts of a barrier group of two cores, of which the one in focus has arrived. -/
def grouped : State :=
  { base with
    hart := { base.hart with group := 1, arrive := Vector.replicate 4 1 }
    others := [{ Hart.reset with tag := 2, run := .running, group := 1, hartid := 4, startid := 4 }]
    groups := [⟨1, [⟨1, 0, false⟩, ⟨2, 4, false⟩], []⟩] }


theorem witness_SpawnAndBarriers :
    base.ScalarReady .never true false [5, 8] ∧ (base.rd 8).toNat % 64 = 0 ∧ (base.rd 9).toNat % 64 ≠ 0 ∧ base.hart.vq = [] ∧ base.Calm ∧ base.hart.late = []
    ∧ (let s : State := base.withHart fun h => { h with vq := [waiting] }; s.ScalarReady .never true false [5, 8] ∧ s.hart.vq ≠ []
      ∧ s.ScalarReady .never false false [5] ∧ s.hart.barpend = none)
    ∧ (let s := base.holdsWords record;
      s.Words (s.rd 8) 8 (fun j => BitVec.ofNat 64 (record.getD j 0)) ∧ s.ScalarReady .never true false [5, 8])
    ∧ malformedRecord recordBytes = false ∧ recGroup recordBytes = 0 ∧ base.Words (base.rd 8) 8 (fun _ => 0)
    ∧ malformedRecord (List.replicate 64 0) = true ∧ (vget base.dispatchers dispatcherDefault 0).pool.length < 3840 ∧ base.spoilOpen 0 = false
    ∧ (let s : State := { base with hub := { base.hub with splbase := vset base.hub.splbase 0 0x20000001 } }; s.spoilOpen 0 = true)
    ∧ (let s : State := { base with dispatchers := vset base.dispatchers 0 { dispatcherDefault with pool := List.replicate 3840 ⟨[], none⟩ } };
      3840 ≤ (vget s.dispatchers dispatcherDefault 0).pool.length)
    -- WAITCH
    ∧ base.ScalarReady .never true false [0] ∧ (base.hart.childDone - (base.rd 0).setWidth 32).getLsbD 31 = false
    ∧ (base.hart.childDone - (base.rd 9).setWidth 32).getLsbD 31 = true
    -- barriers: alone, and in a group that waits
    ∧ (2 : BitVec 3).toNat < 4 ∧ base.ScalarReady .never false false [5] ∧ base.ScalarReady .never false false [] ∧ base.groups = []
    ∧ base.hart.barpend = none ∧ grouped.ScalarReady .never false false [] ∧ ¬(2 ≤ grouped.episodes grouped.hart 2)
    ∧ (let s := (grouped.withHart fun h => { h with barpend := some (BitVec.ofNat 32 1 ++ (0#29 ++ (2 : BitVec 3))) }).withG 9 0x100000002;
      s.hart.barpend = some (BitVec.ofNat 32 1 ++ (0#29 ++ (2 : BitVec 3))) ∧ ¬(1 ≤ s.episodes s.hart 2)
      -- BARW of its token, and of another scope's
      ∧ ((s.rd 9).setWidth 32 >>> 3) = 0 ∧ (s.rd 9).setWidth 3 = (2 : BitVec 3) ∧ 1 ≤ ((s.rd 9) >>> 32).toNat
      ∧ ((s.rd 9) >>> 32).toNat ≤ vget s.hart.arrive 0 2 ∧ (s.rd 9).setWidth 3 ≠ (1 : BitVec 3))
    -- an episode that completes, and one that a member has not reached
    ∧ (let s : State := { grouped with others := [{ Hart.reset with tag := 2, run := .running, group := 1, hartid := 4, startid := 4, arrive := Vector.replicate 4 1 }] };
      s.groups.find? (fun x => x.id == 1) = some ⟨1, [⟨1, 0, false⟩, ⟨2, 4, false⟩], []⟩
      ∧ (∀ m ∈ [(⟨1, 0, false⟩ : Member), ⟨2, 4, false⟩], s.unitOf 2 m.startid = 0 ∧ m.retired = false
        ∧ (s.findHart m.tag).all (fun h => decide (1 ≤ vget h.arrive 0 2)) = true))
    ∧ (grouped.findHart 2).all (fun h => decide (1 ≤ vget h.arrive 0 2)) = false := by
  with_reducible and_intros
  all_goals first
    | decide +kernel
    | exact scalar_ready (by decide +kernel) | exact vec_ready (by decide +kernel) (by decide +kernel)
    | exact fits_of (by decide +kernel) | exact sig_matches (by decide +kernel) | exact reaches_of (by decide +kernel)
    | exact words_of (by decide +kernel) | exact okIs_eq (by decide +kernel) | exact memIs_ex (by decide +kernel)
    | exact isOk_ex (by decide +kernel) | exact sig_fails (by decide +kernel) | (unfold State.Calm; decide +kernel)
    | (unfold State.Quiet State.Calm; decide +kernel) | (unfold State.M0Clear; decide +kernel) | (unfold Apart; decide +kernel)
    | (unfold State.ReleaseWaits; decide +kernel) | exact tries_of (by decide +kernel)

/-- SEW 64, VL 2; v9 (and v10) hold remote positions 0x100 and 0x108 of rank 3. -/
def remoting : State := (base.withV 0x30 2 1).withHart fun h => { h with
  v := elemWr (elemWr h.v 8 8 9 0 0 0x0003000000000100) 8 8 9 0 1 0x0003000000000108 }
/-- RLDX v4 whose both positions are marked, at the head of the queue. -/
def remoteDone : State :=
  { (remoting.withHart fun h => { h with
      m := maskWr (maskWr h.m 0 0 0 true) 0 0 1 true
      vq := [{ waiting with word := BitVec.ofNat 32 (encodeNat (.rldx 4 8 9 0)), vtype := 0x30, begun := none }] }) with atHead := true }


theorem witness_RemoteInstructions :
    remoting.hart.remote = [] ∧ remoting.hart.remoteBad = [] ∧ remoting.hart.remoteData = [] ∧ remoting.M0Clear ∧ remoting.Calm ∧ remoteDone.Calm
    ∧ remoting.VecReady .never (some (4, 1)) [(9, 1 * (8 / 2 ^ 3))] True [8] ∧ 2 ≤ remoting.vcfg.sew ∧ Apart (4, 1) (9, 1) ∧ remoting.vcfg.Fits 8 1
    ∧ remoting.vcfg.places (remoting.vcfg.active remoting.hart.m 0) = [(0, 0), (0, 1)]
    ∧ (∀ p ∈ [(0, 0), (0, 1)], elemRd remoting.hart.v 8 8 9 p.1 p.2 / 2 ^ 48 = 3
      ∧ elemRd remoting.hart.v 8 8 9 p.1 p.2 % 2 ^ 48 / 256 = 1 ∧ elemRd remoting.hart.v 8 8 9 p.1 p.2 % 8 = 0)
    ∧ remoting.vcfg.places (remoting.vcfg.active remoting.hart.m 1) = []
    ∧ remoting.VecReady .never none [(4, 1), (9, 1)] ((4 : Reg).toNat % 2 ≠ (9 : Reg).toNat % 2) [8]
    ∧ (remoting.withV 0x10 2 1).vcfg.sew < 2 ∧ (remoting.withV 0x10 2 1).VecReady .never (some (4, 1)) [(9, 1 * (8 / 2 ^ 1))] True [8]
    ∧ (remoting.withV 0x10 2 1).VecReady .never none [(4, 1), (9, 1 * (8 / 2 ^ 1))] ((4 : Reg).toNat % 2 ≠ (9 : Reg).toNat % 2) [8]
    -- an element offset of 4 is misaligned for 64 bits
    ∧ (let s : State := remoting.withHart fun h => { h with v := elemWr h.v 8 8 9 0 1 0x0003000000000104 };
      elemRd s.hart.v 8 8 9 0 0 % 8 = 0 ∧ elemRd s.hart.v 8 8 9 0 1 % 8 ≠ 0)
    -- at the head, every position marked
    ∧ remoteDone.atHead = true ∧ remoteDone.onFeeder = false ∧ remoteDone.hart.vq.length = 1 ∧ remoteDone.hart.remote = []
    ∧ (∀ e ∈ remoteDone.hart.vq, e.pfx = none ∧ (VCfg.of remoteDone.hart e).sew = 3 ∧ (VCfg.of remoteDone.hart e).vl = 2
      ∧ (VCfg.of remoteDone.hart e).rc = 1)
    ∧ (∀ x, x < 2 → maskRd remoteDone.hart.m 0 0 x = true)
    -- the feeder
    ∧ (let t : Tile := ⟨3, 2, 1, true, toLe 8 0x0003000000000100 ++ toLe 8 0x0003000000000108, []⟩
      let s : State := remoting.byFeeder.withHart fun h => { h with feed := h.main, tq := h.tq.set 2 [t] };
      s.onFeeder = true ∧ s.atHead = false ∧ s.hart.isControl = false ∧ s.st.pfxp = false ∧ s.regWait [8] = false ∧ s.vcfg.lmul = 1
      ∧ s.vcfg.sew = 3 ∧ s.st.vstart = 0 ∧ s.hart.fm0 = [] ∧ vget s.hart.tq [] 1 = [] ∧ s.streamAhead 1 = false
      ∧ vget s.hart.tq [] 2 = [t] ∧ (t.sew.toNat, t.vl, t.rc) = (3, s.vcfg.vl, s.vcfg.rc)
      ∧ (s.vcfg.places fun _ _ => true) = [(0, 0), (0, 1)]
      ∧ ∀ p ∈ [(0, 0), (0, 1)], t.elem p.1 p.2 % 8 = 0 ∧ t.elem p.1 p.2 / 2 ^ 48 = 3 ∧ t.elem p.1 p.2 % 2 ^ 48 / 256 = 1)
    ∧ waiting.again = false := by
  with_reducible and_intros
  all_goals first
    | decide +kernel
    | exact scalar_ready (by decide +kernel) | exact vec_ready (by decide +kernel) (by decide +kernel)
    | exact fits_of (by decide +kernel) | exact sig_matches (by decide +kernel) | exact reaches_of (by decide +kernel)
    | exact words_of (by decide +kernel) | exact okIs_eq (by decide +kernel) | exact memIs_ex (by decide +kernel)
    | exact isOk_ex (by decide +kernel) | exact sig_fails (by decide +kernel) | (unfold State.Calm; decide +kernel)
    | (unfold State.Quiet State.Calm; decide +kernel) | (unfold State.M0Clear; decide +kernel) | (unfold Apart; decide +kernel)
    | (unfold State.ReleaseWaits; decide +kernel) | exact tries_of (by decide +kernel)

/-- RLDX v4 waits for request 7, sent at CYCLE 0 under a budget of 2^24 cycles, with two positions. -/
def awaiting (n : Word) : State :=
  { (remoting.withHart fun h => { h with
      vq := [{ waiting with word := BitVec.ofNat 32 (encodeNat (.rldx 4 8 9 0)), vtype := 0x30, begun := none }]
      remote := [⟨7, [(0, 0), (0, 1)], 0, true, false, 0x01000000⟩] }) with cycles := [(0, n)] }
/-- A remote window over a page of 256 MiB that the walk finds: VA 0, 64 KiB, WIN 0, die 0, every permission. -/
def windowed : State :=
  { walked 0x33C with
    hub := { (walked 0x33C).hub with fabrank := 0x8000, rwtbase := 0x20040000, rwtcnt := 1 }
    mem := (((walked 0x33C).mem).writeLe 0x20040008 8 0x10000).writeLe 0x20040012 1 15 }


theorem witness_RemoteEvents :
    (awaiting 0).occupied = true ∧ (awaiting 0).hart.isControl = false ∧ (awaiting 0).hart.vq.length = 1
    ∧ (awaiting 0).hart.remote.find? (fun x => x.id == 7) = some ⟨7, [(0, 0), (0, 1)], 0, true, false, 0x01000000⟩
    ∧ [(0, 0), (0, 1)].Nodup ∧ ([(0, 5, true), (0x18, 0, false)] : List (BitVec 8 × Word × Bool)).length = 2
    ∧ (∀ e ∈ (awaiting 0).hart.vq, 1 ≤ (VCfg.of (awaiting 0).hart e).g ∧ (VCfg.of (awaiting 0).hart e).g ≤ 8
      ∧ ∀ p ∈ [(0, 0), (0, 1)], p.2 < (VCfg.of (awaiting 0).hart e).lmul * rowElems (VCfg.of (awaiting 0).hart e).g (2 ^ (VCfg.of (awaiting 0).hart e).sew))
    ∧ (∀ x ∈ (awaiting 0).hart.remote, x.id ≠ 8) ∧ (awaiting 0).hart.run = .running
    ∧ ((awaiting 0xFFFFFF).cycle - 0).toNat < 0x01000000 ∧ 0x01000000 ≤ ((awaiting 0x1000000).cycle - 0).toNat
    -- requests
    ∧ base.hub.fabrank.getLsbD 15 = false ∧ windowed.hub.fabrank.getLsbD 15 = true ∧ windowed.down = false ∧ windowed.stuckAtStart = false
    ∧ ¬((1 : BitVec 16).toNat < windowed.hub.rwtcnt.toNat) ∧ (0 : BitVec 16).toNat < windowed.hub.rwtcnt.toNat
    ∧ (windowed.window 0).map (fun w => (w.vbase, w.limit, w.win, w.die, w.perm)) = some (0, 0x10000, 0, 0, 15)
    ∧ (windowed.window 0).map (fun w => okIs (windowed.translate w.agent (.plain 0 8) 0x4000) ⟨0x10004000, 0⟩ windowed) = some true
    ∧ (windowed.window 0).map (fun w => okIs (windowed.translate w.agent (.plain 1 8) 0x4000) ⟨0x10004000, 0⟩ windowed) = some true
    ∧ (windowed.window 0).map (fun w => okIs (windowed.translate w.agent (.plain 2 8) 0xFFF8) ⟨0x1000FFF8, 0⟩ windowed) = some true
    ∧ notHub 0x10004000 = true ∧ windowed.awaits (fun _ => true) = false
    -- a window past the page: its addresses do not translate
    ∧ (let s : State := { windowed with mem := windowed.mem.writeLe 0x20040000 8 0x7000000000 };
      (s.window 0).map (fun w => match s.translate w.agent (.plain 0 8) 0x7000000000 with
        | .mem f u => decide (u = s) && !s.refusedDevice w.agent f | .ok _ _ | .trap _ _ _ | .wait _ => false) = some true)
    ∧ (let s : State := windowed.cutLink 4;
      (s.window 0).map (fun w => isWait (s.translate w.agent (.plain 0 8) 0x4000)) = some true) := by
  with_reducible and_intros
  all_goals first
    | decide +kernel
    | exact scalar_ready (by decide +kernel) | exact vec_ready (by decide +kernel) (by decide +kernel)
    | exact fits_of (by decide +kernel) | exact sig_matches (by decide +kernel) | exact reaches_of (by decide +kernel)
    | exact words_of (by decide +kernel) | exact okIs_eq (by decide +kernel) | exact memIs_ex (by decide +kernel)
    | exact isOk_ex (by decide +kernel) | exact sig_fails (by decide +kernel) | (unfold State.Calm; decide +kernel)
    | (unfold State.Quiet State.Calm; decide +kernel) | (unfold State.M0Clear; decide +kernel) | (unfold Apart; decide +kernel)
    | (unfold State.ReleaseWaits; decide +kernel) | exact tries_of (by decide +kernel)
/-- The members of the exchange and of the group: ranks 0 and 8; candidates 0 and 8. -/
def twoRanks : TableEntry := ⟨[0, 8], [0, 8, 0xFFFF, 0xFFFF]⟩
/-- Rank 0 with exchange 0 and group 0 in their tables. -/
def exchanging : State :=
  (({ base with
    hub := { base.hub with fabrank := 0x8000, xctbase := 0x20000000, cgtbase := 0x20000000 }
    mem := ((((((((base.mem.writeLe 0x20000000 8 0x20010000).writeLe 0x20000008 2 2).writeLe 0x2000000A 2 0).writeLe 0x2000000C 2 8).writeLe
      0x2000000E 2 0xFFFF).writeLe 0x20000010 2 0xFFFF).writeLe 0x20000012 2 1).writeLe 0x20010002 2 8) } : State).pages.withV 0x30 2 1).withG 7 0x5000
/-- The same with the exchange in a state of its round. -/
def exchangingAs (c : Xchg) : State := { exchanging with xchgs := [c] }
/-- A calendar of one phase of 4 units that swaps the two nodes. -/
def granted : Xchg := { Xchg.fresh 0 with st := .grantedR, phases := [(4, [1, 0])], posted := [0, 8] }
/-- The operation that runs the exchange. -/
def xrunOp : Op := { copyOp with ctx := .xchg 0, kind := .xrun 0x4000 0x5000 0x6000 0x5000 0x6000 0, token := 0, fab := some ([0, 8], 0) }
/-- A run with room for 16 bytes from each member. -/
def xrunState : XRunState where
  op := 1
  sends := [(0, 8), (8, 8)]
  recvs := [0, 16, 32]
  detail := 0
  sendPhase := 0
  recvPhase := 0
  marks := []
  sent := [0, 0]
  acked := [0, 0]
  arrived := [0, 0]
  spillSent := 0
  spillRecv := 0
  overflow := 0
  finalsSent := false
  ended := none
/-- It runs. -/
def exchangeRuns : State := { exchangingAs { granted with st := .runningR, run := some xrunState } with ops := [xrunOp], nextOp := 2 }
/-- It runs with two phases, 8 bytes posted toward rank 8 and 8 to send to it. -/
def sendRuns : State :=
  { exchangingAs { granted with
      st := .runningR, phases := [(4, [1, 0]), (4, [1, 0])], post := [(8, 8)], run := some { xrunState with sends := [(0, 0), (8, 8)] } } with
    ops := [xrunOp], nextOp := 2 }


theorem witness_ExchangeInstructions :
    exchanging.exchange 0 = some twoRanks ∧ ((exchanging.rd 8).setWidth 16).toNat = 0x4000 + 0
    ∧ exchanging.VecReady .never none [(9, exchanging.vcfg.lmul)] True [8] ∧ exchanging.vcfg.sew = 3
    ∧ ((exchanging.rd 8) >>> 28).setWidth 3 = 0#3 ∧ exchanging.rd 8 >>> 32 = 0 ∧ exchanging.Calm ∧ (exchangingAs granted).Calm ∧ (∀ o ∈ (exchangingAs granted).ops, o.id ≠ (exchangingAs granted).nextOp)
    ∧ (∀ p ∈ exchanging.vcfg.places (exchanging.vcfg.active exchanging.hart.m 0), p.1 * 2 + p.2 < 4096
      ∧ elemRd exchanging.hart.v 8 8 9 p.1 p.2 ≤ 2 ^ 40)
    ∧ (exchanging.xchg 0).st = .openR ∧ ((exchanging.xchg 0).post.map (·.1)).Nodup ∧ (exchanging.xchg 0).asked = []
    ∧ (exchanging.rd 8).getLsbD 31 = false ∧ ((exchanging.withG 8 0x80004000).rd 8).getLsbD 31 = true
    ∧ (exchangingAs granted).xchg 0 = granted ∧ granted.st ≠ .openR
    ∧ (exchangingAs granted).rank = 0 ∧ railNodes twoRanks 0 = [0, 1] ∧ ([1, 0] : List Nat).idxOf 0 ≠ 0 ∧ granted.phases ≠ []
    -- an id that names nothing; a first rank of 4095, past which the second position lies
    ∧ base.exchange 0 = none ∧ ¬(4095 + 0 * 2 + 1 < 4096)
    -- DGRANT, XRUN, XSTAT
    ∧ exchanging.ScalarReady .never false false [5, 8] ∧ (exchangingAs granted).ScalarReady .never false false [5, 8, 8]
    ∧ sumNat (granted.phases.map (·.1)) < 2 ^ 32 ∧ granted.phases.length < 2 ^ 16
    ∧ ((exchangingAs granted).rd 8).toNat % 64 = 0 ∧ (exchangingAs granted).Words ((exchangingAs granted).rd 8) 8 (fun _ => 0)
    ∧ granted.tl.issued + 1 < 2 ^ 63 ∧ exchanging.VecReady .never (some (4, exchanging.vcfg.lmul)) [] True [0, 8]
    ∧ exchanging.rd 0 = (((exchanging.rd 0).setWidth 2 : BitVec 2).setWidth 64 ||| (BitVec.ofNat 64 0 <<< 16)) ∧ exchanging.vcfg.Fits 8 1
    ∧ (exchangingAs granted).sending.ReleaseWaits 3 ∧ ¬(exchangingAs granted).ReleaseWaits 3
    ∧ granted.phases.length < 2 ^ 16 ∧ sumNat (granted.phases.map (·.1)) < 2 ^ 32 := by
  with_reducible and_intros
  all_goals first
    | decide +kernel
    | exact scalar_ready (by decide +kernel) | exact vec_ready (by decide +kernel) (by decide +kernel)
    | exact fits_of (by decide +kernel) | exact sig_matches (by decide +kernel) | exact reaches_of (by decide +kernel)
    | exact words_of (by decide +kernel) | exact okIs_eq (by decide +kernel) | exact memIs_ex (by decide +kernel)
    | exact isOk_ex (by decide +kernel) | exact sig_fails (by decide +kernel) | (unfold State.Calm; decide +kernel)
    | (unfold State.Quiet State.Calm; decide +kernel) | (unfold State.M0Clear; decide +kernel) | (unfold Apart; decide +kernel)
    | (unfold State.ReleaseWaits; decide +kernel) | exact tries_of (by decide +kernel)

theorem witness_ExchangeEvents :
    exchanging.exchange 0 = some twoRanks ∧ (exchanging.xchg 0).round = 0 ∧ (exchanging.xchg 0).st = .openR
    ∧ (exchangingAs { Xchg.fresh 0 with st := .closedR }).exchange 0 = some twoRanks
    ∧ ((exchangingAs { Xchg.fresh 0 with st := .closedR }).xchg 0).st = .closedR
    -- posts: the first of a round, and the one that completes it
    ∧ 1 < twoRanks.members.length ∧ ([0, 5] : List Nat).length = twoRanks.members.length ∧ exchanging.rank ∈ twoRanks.arb ∧ (exchanging.xchg 0).held = []
    ∧ (let s := exchangingAs { Xchg.fresh 0 with held := [(0, 1, [0, 5])] }
      let held := (s.xchg 0).held ++ [(0, 0, [3, 4])];
      (∀ h ∈ (s.xchg 0).held, ¬(h.1 = 0 ∧ h.2.1 = 0)) ∧ ([[3, 4], [0, 5]] : List (List Nat)).length = twoRanks.members.length
      ∧ held.find? (fun h => h.1 == 0 && h.2.1 == 0) = some (0, 0, [3, 4]) ∧ held.find? (fun h => h.1 == 0 && h.2.1 == 1) = some (0, 1, [0, 5]))
    -- the next candidate, and none left
    ∧ ((Xchg.fresh 0).cand < 1 ∧ twoRanks.arb.getD 1 0xFFFF ≠ 0xFFFF)
    ∧ (∀ j, j < 4 → ¬(1 < j ∧ twoRanks.arb.getD j 0xFFFF ≠ 0xFFFF))
    -- nothing runs; a run in which nothing can be sent or has arrived
    ∧ (exchanging.xchg 0).run = none ∧ (exchanging.xchg 0).finals = []
    ∧ (exchangeRuns.running 0 0).map (fun p => decide (p.2 = xrunState ∧ p.1.op = xrunOp ∧ p.1.recvBase = 0x5000
        ∧ p.1.src (exchangeRuns.xchg 0) 0 = some 1 ∧ p.1.dst (exchangeRuns.xchg 0) 0 = some 1)) = some true
    ∧ 0 < (exchangeRuns.xchg 0).phases.length ∧ (0, 1) ∉ xrunState.marks ∧ (0, 1) ∉ (exchangeRuns.xchg 0).readys ∧ xrunState.detail = 0
    ∧ xrunState.arrived.getD 1 0 + ([1, 2] : List (BitVec 9)).length ≤ xrunState.recvs.getD (1 + 1) 0 - xrunState.recvs.getD 1 0
    ∧ (match exchangeRuns.ewrite (xrunOp.agent xrunOp.die) (0x5000 + BitVec.ofNat 64 (16 + 0)) [(1, false), (2, true)] with
      | .ok _ u => decide (u.xchgs = exchangeRuns.xchgs) | .trap _ _ _ | .mem _ _ | .wait _ => false) = true
    ∧ exchangeRuns.exchange 0 = some twoRanks ∧ exchangeRuns.xentry 0 = some ⟨[0, 8], []⟩ ∧ (exchanging.ops = [])
    -- READY that releases a segment of 8 bytes
    ∧ sendRuns.exchange 0 = some twoRanks ∧ sendRuns.xentry 0 = some ⟨[0, 8], []⟩
    ∧ (sendRuns.running 0 0).map (fun p => decide (p.1.sendBase = 0x5000 ∧ p.1.a = xrunOp.agent xrunOp.die ∧ p.1.t.members = [0, 8]
        ∧ p.1.dst (sendRuns.xchg 0) 0 = some 1 ∧ p.1.dst (sendRuns.xchg 0) 1 = some 1 ∧ p.1.src (sendRuns.xchg 0) 0 = some 1
        ∧ p.2.sendPhase = 0 ∧ p.2.marks = [] ∧ p.2.sent.length = 2)) = some true
    ∧ (sendRuns.xchg 0).readys = [] ∧ (sendRuns.xchg 0).phases.length = 2
    ∧ okIs (sendRuns.eread (xrunOp.agent xrunOp.die) (0x5000 + BitVec.ofNat 64 (8 + 0)) 8) ((sendRuns.mem.bytes 0x10005008 8).map fun y => (y, false))
      sendRuns = true
    ∧ isOk (exchangeRuns.ewrite (xrunOp.agent xrunOp.die) 0x4000 ((toLe 8 9).map fun y => (y, false))) = true
    -- its end
    ∧ (let o : Op := { xrunOp with stage := .performed }
      let s : State := { exchangingAs { granted with st := .runningR, run := some { xrunState with ended := some 0 } } with ops := [o] };
      s.op o.id = some o ∧ o.token = 0 ∧ o.also = none ∧ s.ingress = [] ∧ (s.xchg 0).run = some { xrunState with ended := some 0 }) := by
  with_reducible and_intros
  all_goals first
    | decide +kernel
    | exact scalar_ready (by decide +kernel) | exact vec_ready (by decide +kernel) (by decide +kernel)
    | exact fits_of (by decide +kernel) | exact sig_matches (by decide +kernel) | exact reaches_of (by decide +kernel)
    | exact words_of (by decide +kernel) | exact okIs_eq (by decide +kernel) | exact memIs_ex (by decide +kernel)
    | exact isOk_ex (by decide +kernel) | exact sig_fails (by decide +kernel) | (unfold State.Calm; decide +kernel)
    | (unfold State.Quiet State.Calm; decide +kernel) | (unfold State.M0Clear; decide +kernel) | (unfold Apart; decide +kernel)
    | (unfold State.ReleaseWaits; decide +kernel) | exact tries_of (by decide +kernel)

/-- A collective call of group 0, of two and of four members. -/
def collOp : Op :=
  { copyOp with ctx := .coll 0, kind := .coll 0 3 0x4000 0x5000 0x6000 2 0, token := 0, fab := some ([0, 8], 0) }
/-- The first packet from member `src`. -/
def firstPacket (src : Nat) : CollPacket := ⟨src, 0, 0, 3, 2, 0, 0, []⟩
/-- A call under way. -/
def calling (o : Op) (got : List CollPacket) (sent : Nat) : State :=
  { exchanging.holdsWords [] with
    ops := [o], colls := [{ Coll.fresh 0 with cur := some 1, tl := ⟨1, 0, []⟩, seq := 1, got := got, sent := sent }] }


theorem witness_Collectives :
    exchanging.collective 0 = some twoRanks ∧ exchanging.Calm ∧ exchanging.ScalarReady .never false false [5, 7, 8] ∧ ((exchanging.rd 7).setWidth 16).toNat = 0x5000 + 0
    ∧ ((exchanging.rd 8).setWidth 16).toNat < 0x5000 ∧ (exchanging.rd 8).toNat % 32 = 0 ∧ (exchanging.rd 9).toNat % 32 ≠ 0
    ∧ exchanging.Words (exchanging.rd 8) 4 (fun _ => 0) ∧ (exchanging.coll 0).tl.issued + 1 < 2 ^ 63
    ∧ exchanging.ScalarReady .never false false [5, 7] ∧ exchanging.calling 0 = none ∧ (exchanging.coll 0).got = []
    -- COUNT above 2^24, a base that is no multiple of the element, COUNT above 2^32 with root 2
    ∧ (let s := exchanging.holdsWords [0, 0x5000, 0x6000, 0x1000001];
      s.Words (s.rd 8) 4 (fun j => BitVec.ofNat 64 ([0, 0x5000, 0x6000, 0x1000001].getD j 0)))
    ∧ (let s := exchanging.holdsWords [0, 0x5001, 0x6001, 2];
      s.Words (s.rd 8) 4 (fun j => BitVec.ofNat 64 ([0, 0x5001, 0x6001, 2].getD j 0)))
    ∧ (let s := exchanging.holdsWords [0, 0x5000, 0x100000001, 0x100000002];
      s.Words (s.rd 8) 4 (fun j => BitVec.ofNat 64 ([0, 0x5000, 0x100000001, 0x100000002].getD j 0)))
    -- a call under way whose budget passes
    ∧ (calling collOp [] 0).collective 0 = some twoRanks
    ∧ ((calling collOp [] 0).calling 0).map (fun v => decide (v.op = 0 ∧ v.o = collOp ∧ v.desc = 0x4000 ∧ v.neighbours = [1] ∧ v.rank = 0)) = some true
    ∧ (match ((calling collOp [] 0).sendBy routePort 0 8 ⟨.collAbort, [0, 0, 1, 0, 0], []⟩).ewrite (collOp.agent collOp.die) 0x4000
        ((toLe 8 9).map fun y => (y, false)) with
      | .ok _ u => decide (u.colls = (calling collOp [] 0).colls) | .trap _ _ _ | .mem _ _ | .wait _ => false) = true
    -- the root, with the first packet of its child, when the child's sum comes
    ∧ (let s : State := calling collOp [firstPacket 1] 1
      let got := [firstPacket 1, ⟨1, 0, 0, 3, 2, 0, 1, [(0, 0, false), (0, 0, false)]⟩]
      let r : List EByte := ([(0, 0), (0, 0)] : List (Int × Nat)).flatMap fun q => (toLe 4 q.1.toNat).map fun y => (y, false);
      s.collective 0 = some twoRanks ∧ (s.coll 0).sent = 1 ∧ (s.coll 0).refusing = false ∧ (s.coll 0).got = [firstPacket 1] ∧ (s.coll 0).failed = []
      ∧ (s.calling 0).map (fun v => decide (v.op = 0 ∧ v.kind = 3 ∧ v.me = 0 ∧ v.children = [1] ∧ v.neighbours = [1] ∧ v.root = 0 ∧ v.count = 2
        ∧ v.src = 0x5000 ∧ v.dst = 0x6000 ∧ v.desc = 0x4000 ∧ v.o.num = 1)) = some true
      ∧ (got.find? fun q => q.src == 1 && q.seq == 0 && q.phase == 1) = some ⟨1, 0, 0, 3, 2, 0, 1, [(0, 0, false), (0, 0, false)]⟩
      ∧ (∀ q ∈ got, q.seq = 0 ∧ q.op = 0 ∧ q.kind = 3 ∧ q.count = 2 ∧ q.root = 0 ∧ (q.phase = 0 ∨ q.phase = 1))
      ∧ (match s.enums (collOp.agent collOp.die) 0x5000 4 2 with | .ok _ u => decide (u = s) | .trap _ _ _ | .mem _ _ | .wait _ => false) = true
      ∧ (match s.ewrite (collOp.agent collOp.die) 0x6000 r with
        | .ok _ u => (match u.ewrite (collOp.agent collOp.die) 0x4000 ((toLe 8 0).map fun y => (y, false)) with
          | .ok _ w => decide (w.colls = s.colls) | .trap _ _ _ | .mem _ _ | .wait _ => false)
        | .trap _ _ _ | .mem _ _ | .wait _ => false) = true)
    -- a member with a parent and a child
    ∧ (let s : State := calling { collOp with fab := some ([8, 0, 16, 24], 0) } [firstPacket 0, firstPacket 3] 1;
      (s.calling 0).map (fun v => decide (v.me = 1 ∧ v.children = [3] ∧ v.neighbours = [0, 3])) = some true)
    ∧ exchanging.sending.ReleaseWaits 3 ∧ exchanging.sending.ScalarReady .never false false [5, 7, 8] ∧ ¬exchanging.ReleaseWaits 3
    ∧ (let o : Op := { collOp with stage := .performed }; let s : State := { exchanging with ops := [o] };
      s.op o.id = some o ∧ o.ctx = .coll 0 ∧ o.token = 0 ∧ o.also = none ∧ s.ingress = []) := by
  with_reducible and_intros
  all_goals first
    | decide +kernel
    | exact scalar_ready (by decide +kernel) | exact vec_ready (by decide +kernel) (by decide +kernel)
    | exact fits_of (by decide +kernel) | exact sig_matches (by decide +kernel) | exact reaches_of (by decide +kernel)
    | exact words_of (by decide +kernel) | exact okIs_eq (by decide +kernel) | exact memIs_ex (by decide +kernel)
    | exact isOk_ex (by decide +kernel) | exact sig_fails (by decide +kernel) | (unfold State.Calm; decide +kernel)
    | (unfold State.Quiet State.Calm; decide +kernel) | (unfold State.M0Clear; decide +kernel) | (unfold Apart; decide +kernel)
    | (unfold State.ReleaseWaits; decide +kernel) | exact tries_of (by decide +kernel)
/-- A clean unit of a whole atom, and one of 8 bytes that operation 1 writes. -/
def wholeUnit : PersistUnit := ⟨0x100000000000, (List.range 64).map fun j => (0x100000000000 + j, 1), some 1, none, false, none, false⟩
def partUnit : PersistUnit := ⟨0x100000000040, (List.range 8).map fun j => (0x100000000040 + j, 1), some 1, none, false, some 1, false⟩


theorem witness_Durability :
    ({ base with ingress := [partUnit, wholeUnit] } : State).ingress = [partUnit] ++ wholeUnit :: [] ∧ wholeUnit.atom = 0x100000000000
    ∧ (∀ v ∈ [partUnit], v.atom ≠ 0x100000000000) ∧ base.dirty.Pairwise (· < ·) ∧ (wholeUnit.bytes.map (·.1)).Nodup ∧ base.down = false
    ∧ ¬(base.hub.brdcap.toNat * 2 ^ 20 < 64 * (base.dirty.length + 1))
    ∧ (({ base.hub with brdcap := 0 } : Hub).brdcap.toNat * 2 ^ 20 < 64 * (base.dirty.length + 1))
    ∧ (∀ j, j < 64 → ∃ c ∈ wholeUnit.bytes, c.1 = 0x100000000000 + j) ∧ (∀ c ∈ partUnit.bytes, c.1 ≠ 0x100000000040 + 8)
    ∧ ({ wholeUnit with bad := true } : PersistUnit).bad = true ∧ wholeUnit.bad = false
    ∧ ({ base with down := true, dirty := [0x100000000000] } : State).down = true
    ∧ ({ base with down := true, dirty := [0x100000000000] } : State).dirty.length < 2 ^ 32
    -- a unit whose operation still accesses memory, and one whose operation has performed its accesses
    ∧ (let s : State := { base with ops := [copyOp], ingress := [partUnit] }; partUnit.byOp = some 1 ∧ s.op 1 = some copyOp ∧ copyOp.stage ≠ .performed)
    ∧ ({ base with ingress := [partUnit] } : State).op 1 = none
    -- a unit that its operation's other write follows
    ∧ (let mine : List PersistUnit := [partUnit, { partUnit with byOp := none }, partUnit];
      (∀ u ∈ mine.take 3, ∀ v ∈ mine.drop 3, u.byOp ≠ none → u.byOp ≠ v.byOp)
      ∧ ∀ j, j < 3 → 0 < j → ¬∀ u ∈ mine.take j, ∀ v ∈ mine.drop j, u.byOp ≠ none → u.byOp ≠ v.byOp)
    -- BRDCAP
    ∧ hubRegAt 0xF005000008 = some .brdcap ∧ base.stuckAtStart = false ∧ 1 ≤ ((1 : Word).setWidth 13).toNat ∧ ((4096 : Word).setWidth 13).toNat ≤ 4096 := by
  with_reducible and_intros
  all_goals first
    | decide +kernel
    | exact scalar_ready (by decide +kernel) | exact vec_ready (by decide +kernel) (by decide +kernel)
    | exact fits_of (by decide +kernel) | exact sig_matches (by decide +kernel) | exact reaches_of (by decide +kernel)
    | exact words_of (by decide +kernel) | exact okIs_eq (by decide +kernel) | exact memIs_ex (by decide +kernel)
    | exact isOk_ex (by decide +kernel) | exact sig_fails (by decide +kernel) | (unfold State.Calm; decide +kernel)
    | (unfold State.Quiet State.Calm; decide +kernel) | (unfold State.M0Clear; decide +kernel) | (unfold Apart; decide +kernel)
    | (unfold State.ReleaseWaits; decide +kernel) | exact tries_of (by decide +kernel)

/-- Start queue 0 of die 0, enabled with LOGCAP 10, holding `l`. -/
def State.withQueue (s : State) (l : List (List Byte)) (w : Option (Nat × Nat)) : State :=
  { s with queues := [⟨0, 0xA01, l, 0, 0, 0, 0, w⟩] }
/-- The same, mapped to a slot. -/
def mappedQueue (l : List (List Byte)) : State :=
  { State.reset.withQueue l none with dispatchers := vset State.reset.dispatchers 0 ⟨[0], 0, [], [], 0, []⟩
                                      hub := { Hub.reset with savcnt := Vector.replicate 4 2048 } }


theorem witness_DispatchAndRegisters :
    recordBytes.length = 64 ∧ ((base.withQueue [] none).queue 0).enabled = true ∧ ((base.withQueue [] none).queue 0).records.length < 2 ^ 10
    ∧ (base.withQueue [] none).mapped 0 = false ∧ (mappedQueue []).mapped 0 = true ∧ ((base.withQueue [recordBytes] none).queue 0).records ≠ []
    ∧ (base.queue 0).enabled = false ∧ (control.control 0).isSome = true
    -- rotations
    ∧ base.dieStopped 0 = false ∧ base.down = false ∧ (vget base.dispatchers dispatcherDefault 0).slots = []
    ∧ (vget base.dispatchers dispatcherDefault 0).ready = [] ∧ (vget base.dispatchers dispatcherDefault 0).pool = []
    ∧ (vget base.dispatchers dispatcherDefault 0).spoil = [] ∧ ((base.withQueue [recordBytes] (some (3, 0))).queues.map (·.n)).Nodup
    ∧ (base.withQueue [recordBytes] (some (3, 0))).queues.map (fun q => (q.home, q.waiting.isSome, q.enabled)) = [(0, true, true)]
    ∧ (vget (mappedQueue [recordBytes]).dispatchers dispatcherDefault 0).slots = [0]
    ∧ ((mappedQueue [recordBytes]).queue 0).records = [recordBytes] ∧ ((mappedQueue [recordBytes]).queue 0).enabled = true
    ∧ (∀ q ∈ (mappedQueue [recordBytes]).queues, q.waiting = none) ∧ recWaitCtx recordBytes = 0 ∧ recGroup recordBytes = 0
    ∧ malformedRecord (List.replicate 64 0) = true ∧ recDone (List.replicate 64 0) = 0 ∧ (List.replicate 64 (0 : Byte)).length = 64
    ∧ malformedRecord recordBytes = false ∧ (mappedQueue [recordBytes]).neverStarts 0 [recordBytes] = none
    ∧ ((mappedQueue [recordBytes]).startNow 0 [] [recordBytes]).map (fun l => l.map fun p =>
        decide (p.die < 4 ∧ p.core < 128 ∧ p.slot < 4)) = some [true]
    -- registers
    ∧ hubRegAt 0xF002000000 = some (.qcfg 0) ∧ hubRegAt 0xF002001FF8 = some (.qcfg 1023) ∧ (base.queue 0).cfg.getLsbD 0 = false
    ∧ ((base.withQueue [] none).queue 0).cfg.getLsbD 0 = true ∧ (0x900 &&& 0x00FFFFFFFFFF1F0D ||| 1 : Word) ≠ ((base.withQueue [] none).queue 0).cfg
    ∧ hubRegAt 0xF005000000 = some .brrec ∧ (1 : Word).getLsbD 0 = true ∧ hubRegAt 0xF005000008 = some .brdcap
    ∧ ((4096 : Word).setWidth 13).toNat ≤ 4096 ∧ 1 ≤ ((1 : Word).setWidth 13).toNat ∧ 4096 < ((4097 : Word).setWidth 13).toNat
    -- two queues that wait, of another HOME, and writes before the start
    ∧ (let s : State := { base with queues := [⟨0, 0xA01, [recordBytes], 0, 0, 0, 0, some (3, 0)⟩, ⟨1, 0xA01, [recordBytes], 0, 0, 0, 0, some (7, 0)⟩] };
      (s.queues.map (·.n)).Nodup ∧ ∀ q ∈ s.queues, q.home = 0 ∧ q.enabled = true)
    ∧ (({ mappedQueue [recordBytes] with queues := [⟨0, 0xA05, [recordBytes], 0, 0, 0, 0, none⟩] } : State).queue 0).home ≠ 0
    ∧ base.stuckAtStart = false ∧ (base.queue 3).home = 0
    ∧ base.control 3 = none
    -- a malformed record whose completion record waits
    ∧ (let r := recordBytes.set 9 0 |>.set 0 1 |>.set 25 0x40;
      malformedRecord r = true ∧ far.RecordWaits 0 (BitVec.ofNat 8 (recWinOf r)) (BitVec.ofNat 64 (recDone r)))
    ∧ (let s : State := exchanging.withMain fun t => { t with tlw := .on (.xchg 0) };
      s.hart.main.tlw = .on (.xchg 0) ∧ (s.exchange 0).isSome = true ∧ (s.setHub { s.hub with xctbase := 0x20100000 }).exchange 0 = none) := by
  with_reducible and_intros
  all_goals first
    | exact record_waits (by decide +kernel)
    | decide +kernel
    | exact scalar_ready (by decide +kernel) | exact vec_ready (by decide +kernel) (by decide +kernel)
    | exact fits_of (by decide +kernel) | exact sig_matches (by decide +kernel) | exact reaches_of (by decide +kernel)
    | exact words_of (by decide +kernel) | exact okIs_eq (by decide +kernel) | exact memIs_ex (by decide +kernel)
    | exact isOk_ex (by decide +kernel) | exact sig_fails (by decide +kernel) | (unfold State.Calm; decide +kernel)
    | (unfold State.Quiet State.Calm; decide +kernel) | (unfold State.M0Clear; decide +kernel) | (unfold Apart; decide +kernel)
    | (unfold State.ReleaseWaits; decide +kernel) | exact tries_of (by decide +kernel)

/-- The hart of `base` about to be saved, and killed. -/
def stoppingHart : State := base.withHart fun h => { h with run := .stopping, reason := 16 }


theorem witness_HartLifecycle :
    base.findHart 9 = none ∧ base.findHart 1 = some base.hart ∧ base.hart.die ≠ 1 ∧ base.hart.die = 0 ∧ base.hart.run = .running
    ∧ stoppingHart.findHart 1 = some stoppingHart.hart ∧ stoppingHart.hart.run = .stopping ∧ stoppingHart.hart.remote = []
    ∧ (∀ q ∈ stoppingHart.hart.q.toList, q.length ≤ 32) ∧ stoppingHart.hart.vq.length ≤ 16 ∧ stoppingHart.hart.share ≤ 8
    ∧ stoppingHart.hart.share ≠ 0 ∧ stoppingHart.hart.v = [] ∧ stoppingHart.hart.m = [] ∧ stoppingHart.hart.fm0 = []
    ∧ (∀ l ∈ stoppingHart.hart.tq.toList, l.length ≤ 2 ∧ ∀ x ∈ l, x.bytes.length ≤ 1536 * 8)
    ∧ (base.withHart fun h => { h with run := .killed false }).findHart 1 = some { base.hart with run := .killed false }
    ∧ ({ base with ops := [copyOp] } : State).ops = [copyOp] ∧ copyOp.ctx = .copy 1 0 ∧ base.hart.doneAddr = 0 ∧ base.others = []
    ∧ stoppingHart.hart.device = [] ∧ stoppingHart.hart.late = []
    ∧ (stoppingHart.withHart fun h => { h with device := [⟨0, []⟩] }).hart.device ≠ []
    ∧ base.ops = [] ∧ base.hart.late = []
    ∧ (stoppingHart.withHart fun h => { h with aperture := [⟨0, 3, 0x100000, 8, none⟩] }).hart.aperture ≠ [] ∧ stoppingHart.hart.aperture = []
    ∧ far.RecordWaits far.hart.die far.hart.recWin far.hart.doneAddr := by
  with_reducible and_intros
  all_goals first
    | exact record_waits (by decide +kernel)
    | decide +kernel
    | exact scalar_ready (by decide +kernel) | exact vec_ready (by decide +kernel) (by decide +kernel)
    | exact fits_of (by decide +kernel) | exact sig_matches (by decide +kernel) | exact reaches_of (by decide +kernel)
    | exact words_of (by decide +kernel) | exact okIs_eq (by decide +kernel) | exact memIs_ex (by decide +kernel)
    | exact isOk_ex (by decide +kernel) | exact sig_fails (by decide +kernel) | (unfold State.Calm; decide +kernel)
    | (unfold State.Quiet State.Calm; decide +kernel) | (unfold State.M0Clear; decide +kernel) | (unfold Apart; decide +kernel)
    | (unfold State.ReleaseWaits; decide +kernel) | exact tries_of (by decide +kernel)

theorem witness_MemoryEvents :
    base.walk (walkAgent 1 0 0 false) 0x4000 = .bad 0x01 4
    ∧ (walked 0x3C).walk (walkAgent 0 0 0 false) 0x4000 = .leaf ⟨0x20030000, 0x1000003F, 2 ^ 28⟩
    ∧ ({ walked 0x3C with
        hub := { (walked 0x3C).hub with xlroot := vset (walked 0x3C).hub.xlroot 4 0x20000001 }
        links := vset base.links 4 { linkDefault with failed := true } } : State).walk (walkAgent 4 0 0 false) 0x4000 = .waits
    ∧ (walked 0x3C).protKind (walkAgent 0 0 0 false) (.plain 1 8) 0x1000003F 0x10004000 = none
    ∧ (walked 0x3C).cutOff (walkAgent 0 0 0 false) (.plain 1 8) 0x10004000 ⟨0x20030000, 0x1000003F, 2 ^ 28⟩ = false
    ∧ (walked 0x24).protKind (walkAgent 0 0 0 false) (.plain 1 8) 0x10000027 0x10004000 ≠ none
    ∧ isStorage 0x10004000 = true ∧ 0x10004000 % 8 = 0 ∧ base.down = false ∧ isStorage 0xF000000000 = false ∧ base.stuckAtStart = false
    ∧ base.topoStorage 0x10004000 = false ∧ ({ base with hub := { base.hub with tsbase := vset base.hub.tsbase 0 0x10000001, tssize := vset base.hub.tssize 0 1 } } : State).topoStorage
        0x10004000 = true
    ∧ region 0x10004000 ≠ .bedrock ∧ region 0x100000000000 = .bedrock ∧ base.invs = []
    ∧ ({ base with invs := [⟨0, 0, 0x4000, 0⟩] } : State).invs = [⟨0, 0, 0x4000, 0⟩]
    ∧ (let c : InvCmd := ⟨0, 0, 0x4000, 0⟩; c.dies = 0 ∧ ∀ h ∈ base.allHarts, h.aperture = [] ∧ h.late = [])
    ∧ (∃ h ∈ (base.withHart fun h => { h with aperture := [⟨0, 3, 0x100000, 8, none⟩] }).allHarts, h.aperture ≠ []) := by
  with_reducible and_intros
  all_goals first
    | decide +kernel
    | exact scalar_ready (by decide +kernel) | exact vec_ready (by decide +kernel) (by decide +kernel)
    | exact fits_of (by decide +kernel) | exact sig_matches (by decide +kernel) | exact reaches_of (by decide +kernel)
    | exact words_of (by decide +kernel) | exact okIs_eq (by decide +kernel) | exact memIs_ex (by decide +kernel)
    | exact isOk_ex (by decide +kernel) | exact sig_fails (by decide +kernel) | (unfold State.Calm; decide +kernel)
    | (unfold State.Quiet State.Calm; decide +kernel) | (unfold State.M0Clear; decide +kernel) | (unfold Apart; decide +kernel)
    | (unfold State.ReleaseWaits; decide +kernel) | exact tries_of (by decide +kernel)

/-- Lane group 0 of core 0 of die 0 with four mismatches in lane 0. -/
def lanes (stopped : Bool) : State := { base with lanes := [⟨0, 0, 0, 100, List.replicate 4 (0, 90), stopped, false, false⟩] }
/-- The hart of `base` holds lane group 0. -/
def holding (s : State) : State := s.withHart fun h => { h with lanes := [0, 1, 2, 3, 4, 5, 6, 7] }


theorem witness_SoftErrors :
    base.findHart 1 = some base.hart ∧ base.hart.run = .running ∧ (base.lane 0 0 0).checkStopped = false ∧ (base.lane 0 0 0).retired = false
    ∧ ((lanes true).lane 0 0 0).checkStopped = true ∧ stoppingHart.hart.run ≠ .running
    ∧ (base.withHart fun h => { h with run := .saved false }).hart.run ≠ .stopping
    ∧ bitAt (vget base.frq frqDefault 0).base.toNat 0 = false ∧ base.hart.die < 4
    -- the group that works on an element; one that no hart has
    ∧ (let s := holding base
      s.findHart 1 = some s.hart ∧ s.hart.lanes[0 % rowElems s.hart.main.grant (2 ^ vtypeSew s.hart.main.vtype) % (8 * s.hart.main.grant) / 8]? = some 0
      ∧ idCore s.hart.hartid = 0 ∧ s.laneN (s.lane 0 0 0) = 0)
    -- four mismatches in one lane, and in three lanes
    ∧ ((lanes false).lane 0 0 0).checkStopped = false
    ∧ (lanes false).thresh 0 ≤ ((((lanes false).lane 0 0 0).mismatches).filter fun x =>
        x.1 == 0 && decide ((lanes false).laneN ((lanes false).lane 0 0 0) - x.2 < 2 ^ 20)).length
    ∧ ((base.lane 0 0 0).mismatches.filter fun x => x.1 == 0).length < base.thresh 0 ∧ ((lanes true).lane 0 0 0).retired = false
    ∧ (let l : LaneGroup := ⟨0, 0, 0, 100, [(1, 80), (2, 90)], false, false, false⟩
      let m := l.mismatches.filter (fun x => decide (100 - x.2 < 2 ^ 20)) ++ [(100 % 8, 100)];
      (∀ i ∈ [1, 2, 4], 0 < (m.filter fun x => x.1 == i && decide (100 - x.2 < 2 ^ 20)).length))
    -- harts that differ in their tags, and hold nothing late
    ∧ (∀ h ∈ (holding base).allHarts, h.late = [] ∧ (h.isControl = false → (holding base).findHart h.tag = some h))
    ∧ region 0xF002000000 = .hub 0x2000000 := by
  with_reducible and_intros
  all_goals first
    | decide +kernel
    | exact scalar_ready (by decide +kernel) | exact vec_ready (by decide +kernel) (by decide +kernel)
    | exact fits_of (by decide +kernel) | exact sig_matches (by decide +kernel) | exact reaches_of (by decide +kernel)
    | exact words_of (by decide +kernel) | exact okIs_eq (by decide +kernel) | exact memIs_ex (by decide +kernel)
    | exact isOk_ex (by decide +kernel) | exact sig_fails (by decide +kernel) | (unfold State.Calm; decide +kernel)
    | (unfold State.Quiet State.Calm; decide +kernel) | (unfold State.M0Clear; decide +kernel) | (unfold Apart; decide +kernel)
    | (unfold State.ReleaseWaits; decide +kernel) | exact tries_of (by decide +kernel)

/-- Link 0 in a state, under a partitioning. -/
def linked (l : LinkState) (cfg : BitVec 8) : State :=
  { base with links := vset base.links 0 l, hub := { base.hub with partcfg := cfg } }
/-- Port 0 carries traffic of rank 9, and `n` frames have come from rank 3 beyond a gap. -/
def ported (n : Nat) : State := { base with ports := vset base.ports 0 ⟨0, 0, false, true⟩, pairs := [⟨3, 9, 5, n⟩], hub := { base.hub with mpstage := 6, fabrank := 0x8009 } }


theorem witness_LinksAndPartitions :
    (vget base.links linkDefault 0).up = false ∧ base.linkPart 0 = some 0 ∧ (linked linkDefault 0xE4).linkPart 0 = none
    ∧ (linked linkDefault.trained 0).links.toList.map (·.up) = [true, false, false, false, false, false, false, false]
    ∧ vget linkDefault.trained.crcFails 0 1 < 8 ∧ 8 ≤ vget ({ linkDefault with crcFails := Vector.replicate 2 8 } : LinkState).crcFails 0 1
    ∧ 2 ^ 48 ≤ vget ({ linkDefault with frames := Vector.replicate 2 (2 ^ 48) } : LinkState).frames 0 1
    ∧ vget linkDefault.trained.frames 0 0 < 2 ^ 48 ∧ ({ linkDefault with failed := true } : LinkState).failed = true
    ∧ linkDefault.trained.failed = false
    ∧ ({ base.hub with partstat := 1 } : Hub).partstat.getLsbD 0 = true ∧ (∀ d, d < 4 → base.dieStopped d = false)
    ∧ (vget base.ports portDefault 0).up = false ∧ (vget (ported 7).ports portDefault 0).up = true
    ∧ (ported 7).rank = 9 ∧ ((ported 7).pair 3 9).tries < 8 ∧ 8 ≤ ((ported 8).pair 3 9).tries ∧ ((ported 7).pair 3 9).next = 5
    ∧ (ported 7).hub.fabrank.getLsbD 15 = true ∧ ((ported 7).pair 4 9).next = 0
    -- a held link, and one whose partition has stopped
    ∧ (linked linkDefault 0xE4).linkPart 0 = none ∧ (linked linkDefault.trained 0).linkPart 0 = some 0
    ∧ (let s : State := { linked linkDefault.trained 0 with hub := { base.hub with partstat := 15 } };
      s.linkPart 0 = some 0 ∧ (∃ d, d < 4 ∧ s.part d = 0 ∧ s.dieStopped d = true) ∧ s.stuckAtStart = false)
    ∧ (∃ d ∈ ({ base with hub := { base.hub with partstat := 15 } } : State).partDies 0, ({ base with hub := { base.hub with partstat := 15 } } : State).dieStopped d = true)
    ∧ ({ base with hub := { base.hub with mpstage := 1 } } : State).stuckAtStart = true
    ∧ base.hub.mpstage ≠ 6 ∧ (ported 0).hub.mpstage = 6
    -- PARTCFG: two partitions of two dies after reset, one that crosses the ring, a die in use
    ∧ State.reset.allHarts = [] ∧ State.reset.gens = [] ∧ State.reset.queues = [] ∧ (0x50 : Word).toNat / 4 ^ 3 % 4 ≠ (0x50 : Word).toNat / 4 ^ 0 % 4
    ∧ (0x50 : Word).toNat / 4 ^ 1 % 4 ≠ (0x50 : Word).toNat / 4 ^ 2 % 4
    ∧ (0x41 : Word).toNat / 4 ^ 0 % 4 = (0x41 : Word).toNat / 4 ^ 3 % 4 ∧ (0x41 : Word).toNat / 4 ^ 0 % 4 ≠ (0x41 : Word).toNat / 4 ^ 1 % 4
    ∧ base.allHarts.any (fun h => !h.isControl && h.die == 0) = true
    -- PARTRST of the one partition, stopped and not
    ∧ (∀ d, d < 4 → ((0xF : Word).getLsbD d = true ↔ base.part d = 0))
    ∧ (∀ d, d < 4 → ({ base with hub := { base.hub with partstat := 15 } } : State).dieStopped d = true)
    ∧ (0x3 : Word).getLsbD 2 = false ∧ base.part 2 = base.part 0
    ∧ (let s : State := { base with hub := { base.hub with partstat := 15, mpstage := 6 }, links := vset base.links 4 { linkDefault with up := true, frames := #v[2 ^ 48 - 1, 0] } };
      s.linkPart 4 = some 0 ∧ (∃ d, d < 4 ∧ s.part d = 0 ∧ s.dieStopped d = true) ∧ (vget s.links linkDefault 4).failed = false
      ∧ (vget s.links linkDefault 4).up = true ∧ 2 ^ 48 ≤ vget (vget s.links linkDefault 4).frames 0 0 + 1)
    ∧ (∀ h ∈ base.allHarts, h.late = []) := by
  with_reducible and_intros
  all_goals first
    | decide +kernel
    | exact scalar_ready (by decide +kernel) | exact vec_ready (by decide +kernel) (by decide +kernel)
    | exact fits_of (by decide +kernel) | exact sig_matches (by decide +kernel) | exact reaches_of (by decide +kernel)
    | exact words_of (by decide +kernel) | exact okIs_eq (by decide +kernel) | exact memIs_ex (by decide +kernel)
    | exact isOk_ex (by decide +kernel) | exact sig_fails (by decide +kernel) | (unfold State.Calm; decide +kernel)
    | (unfold State.Quiet State.Calm; decide +kernel) | (unfold State.M0Clear; decide +kernel) | (unfold Apart; decide +kernel)
    | (unfold State.ReleaseWaits; decide +kernel) | exact tries_of (by decide +kernel)

/-- Queue pair 0 of port 0 is ready, and remote window 0 covers the page of `base`. -/
def hosted : State :=
  { windowed with
    hub := { windowed.hub with mpstage := 6, hqpbase := 0x20050000, hqpcnt := 1 }
    mem := windowed.mem.writeLe 0x20050005 1 1
    hostPorts := vset windowed.hostPorts 0 ⟨0, false, true⟩ }


theorem witness_HostAndManagement :
    hosted.hub.mpstage = 6 ∧ 0 < hosted.hub.hqpcnt.toNat ∧ hosted.mem.byte (baseOf hosted.hub.hqpbase + 5) = 1
    ∧ (vget hosted.hostPorts hostPortDefault (hosted.mem.byte (baseOf hosted.hub.hqpbase + 4)).toNat).up = true ∧ hosted.down = false
    ∧ base.hub.mpstage ≠ 6 ∧ 0x10400 ≤ (0x10400 : BitVec 32).toNat ∧ (0x103FF : BitVec 32).toNat = 0x10000 + 1023
    ∧ (0xFC0 : Word).toNat + recordBytes.length ≤ 0x1000 ∧ (0xFC0 : Word).toNat % 64 = 0 ∧ (0xFC1 : Word).toNat % 64 ≠ 0
    ∧ (0xFF8 : Word).toNat + 8 ≤ 0x1000
    -- a window's write and read, and a range past its limit
    ∧ (match hosted.rdmaWrite (hosted.window 0) 0x4000 [1, 2] with | .ok b _ => some b | .trap _ _ _ | .mem _ _ | .wait _ => none) = some true
    ∧ (match hosted.rdmaRead (hosted.window 0) 0x4000 2 with | .ok b _ => some b.isSome | .trap _ _ _ | .mem _ _ | .wait _ => none) = some true
    ∧ (match hosted.rdmaWrite (hosted.window 0) 0xFFFF [1, 2] with | .ok b _ => some b | .trap _ _ _ | .mem _ _ | .wait _ => none) = some false
    ∧ (match hosted.rdmaRead (hosted.window 1) 0 2 with | .ok b _ => some b.isSome | .trap _ _ _ | .mem _ _ | .wait _ => none) = some false
    ∧ (match ({ hosted with links := vset hosted.links 4 { linkDefault with failed := true } } : State).rdmaRead
        (hosted.window 0) 0x4000 2 with | .wait _ => true | .ok _ _ | .trap _ _ _ | .mem _ _ => false) = true
    -- ports, apertures, telemetry, bring-up, attestation
    ∧ (vget hosted.hostPorts hostPortDefault 0).up = true ∧ (vget base.hostPorts hostPortDefault 0).up = false
    ∧ (⟨0, 3, 0x100000, 8, none⟩ : ApRead) ∈ (base.withHart fun h => { h with aperture := [⟨0, 3, 0x100000, 8, none⟩] }).hart.aperture
    ∧ (∀ x ∈ ([839, 0, 0, 0] : List Nat), x < 840) ∧ (∃ x ∈ ([840, 0, 0, 0] : List Nat), 840 ≤ x)
    ∧ State.reset.hub.mpstage = 0 ∧ State.reset.down = false ∧ State.reset.linkPart 7 ≠ none ∧ (List.replicate 32 (0 : Byte)).length = 32
    ∧ ({ base with hub := { base.hub with mpstage := 2 } } : State).stuckAtStart = true
    ∧ (0x800 : Word).toNat % 64 = 0 ∧ recordBytes.length = 64
    ∧ (let s : State := { State.reset with recovery := some ⟨[0x100000000000], true, Vector.replicate 8 0, Vector.replicate 8 0⟩ };
      s.recovery.isSome = true ∧ s.MemOk)
    ∧ base.ops = [] ∧ base.recovery = none := by
  with_reducible and_intros
  all_goals first
    | decide +kernel
    | exact scalar_ready (by decide +kernel) | exact vec_ready (by decide +kernel) (by decide +kernel)
    | exact fits_of (by decide +kernel) | exact sig_matches (by decide +kernel) | exact reaches_of (by decide +kernel)
    | exact words_of (by decide +kernel) | exact okIs_eq (by decide +kernel) | exact memIs_ex (by decide +kernel)
    | exact isOk_ex (by decide +kernel) | exact sig_fails (by decide +kernel) | (unfold State.Calm; decide +kernel)
    | (unfold State.Quiet State.Calm; decide +kernel) | (unfold State.M0Clear; decide +kernel) | (unfold Apart; decide +kernel)
    | (unfold State.ReleaseWaits; decide +kernel) | (unfold State.MemOk; decide +kernel) | exact tries_of (by decide +kernel)

theorem witness_DecodeEncode : (Instr.add 31 30 29).wf = true ∧ (Instr.add 31 30 29).event = false
    ∧ (Instr.cMv 0 0).wf = true ∧ (Instr.cMv 0 0).event = false := by decide

/-- `base` about to execute the word `w`. -/
def State.coded (s : State) (w : Nat) : State := { s with mem := s.mem.writeLe 0x10001000 4 w }


theorem witness_StepRunsDecoded :
    base.translate base.agent (.plain 3 2) 0x1000 = .ok ⟨0x10001000, 0⟩ base ∧ base.st.stale = [] ∧ 0 < base.quantum ∧ base.runnable = true
    ∧ base.onFeeder = false ∧ base.hart.vq = []
    ∧ ({ base.coded (encodeNat (.add 5 6 7)) with quantum := 0 } : State).fetchParcel 0x1000
      = .ok ((toLe 4 (encodeNat (.add 5 6 7))).take 2) { base.coded (encodeNat (.add 5 6 7)) with quantum := 0 }
    ∧ ({ base.coded (encodeNat (.add 5 6 7)) with quantum := 0 } : State).fetchParcel (0x1000 + 2)
      = .ok ((toLe 4 (encodeNat (.add 5 6 7))).drop 2) { base.coded (encodeNat (.add 5 6 7)) with quantum := 0 }
    ∧ (((toLe 4 (encodeNat (.add 5 6 7))).take 2).getD 0 0).getLsbD 0 = true ∧ (([0xC0, 0x20] : List Byte).getD 0 0).getLsbD 0 = false
    ∧ (match decode (toLe 4 (encodeNat (.add 5 6 7))) with | .error _ => none | .ok i => some i) = some (.add 5 6 7)
    -- a fetch of an old byte, and one past the page
    ∧ (base.withMain fun u => { u with stale := [(0x10001000, 7)] }).st.stale = [(0x10001000, 7)]
    -- a queued instruction first
    ∧ (waitedFor 0).hart.vq = [waiting] ∧ waiting.instr = some (.vwaitEq 1 20 2 0) ∧ (waitedFor 0).onFeeder = false ∧ (waitedFor 0).hart.run = .running
    -- an event, and a turn
    ∧ base.occupied = true ∧ (Instr.powerLoss).event = true
    ∧ ({ base with quantum := 0, inputs := [.event .powerLoss, .turn none 1 true] } : State).inputs
      = [.event .powerLoss, .turn none 1 true]
    ∧ ({ base with quantum := 0, inputs := [.pause 3, .hold true] } : State).inputs = [.pause 3, .hold true]
    ∧ vectorWord (BitVec.ofNat 32 (encodeNat (.vcmpLt 3 6 7 0 1))) = true ∧ (waitedFor 0).hart.vq ≠ [] ∧ vectorWord 0 = false := by
  with_reducible and_intros
  all_goals first
    | decide +kernel
    | exact scalar_ready (by decide +kernel) | exact vec_ready (by decide +kernel) (by decide +kernel)
    | exact fits_of (by decide +kernel) | exact sig_matches (by decide +kernel) | exact reaches_of (by decide +kernel)
    | exact words_of (by decide +kernel) | exact okIs_eq (by decide +kernel) | exact memIs_ex (by decide +kernel)
    | exact isOk_ex (by decide +kernel) | exact sig_fails (by decide +kernel) | (unfold State.Calm; decide +kernel)
    | (unfold State.Quiet State.Calm; decide +kernel) | (unfold State.M0Clear; decide +kernel) | (unfold Apart; decide +kernel)
    | (unfold State.ReleaseWaits; decide +kernel) | exact tries_of (by decide +kernel)

theorem witness_StepKeepsMemory : State.reset.MemOk ∧ (walked 0x3C).MemOk := by
  unfold State.MemOk; decide +kernel

end Sys2Proof.Machine
end

section
/-! The machine after reset (R5, R30). -/

namespace Sys2Proof.Machine

/-! ## Vectors that hold one value -/

/-- Every element of a vector of copies of the default is the default, out of range too. -/
theorem vget_replicate {α : Type} (n : Nat) (x : α) (i : Nat) : vget (Vector.replicate n x) x i = x := by
  unfold vget
  split
  · exact Vector.getElem_replicate _
  · rfl

/-- An element of a vector of copies, the default out of range. -/
theorem vget_replicate_eq {α : Type} (n : Nat) (x d : α) (i : Nat) :
    vget (Vector.replicate n x) d i = if i < n then x else d := by
  unfold vget
  split
  · exact Vector.getElem_replicate _
  · rfl

/-! ## Start queues and hub registers -/

/-- A start queue that nothing has touched: no field set, no record, every counter 0 (R245, R248). -/
theorem State.reset_queue (n : Nat) :
    (State.reset.queue n).cfg = 0 ∧ (State.reset.queue n).records = [] ∧ ∀ o, (State.reset.queue n).counter o = 0 := by
  refine ⟨rfl, rfl, fun o => ?_⟩
  show (if o = 0 then (0 : Word) else if o = 8 then 0 else if o = 0x10 then 0 else if o = 0x18 then 0 else 0) = 0
  simp

/-- The Reset column of the hub registers' tables, but for BRREC and BRCTX, which recovery gives. -/
def HubReg.resetValue : HubReg → Word
  | .brdcap => 4096
  | .rtimeout => 0x01000000
  | .fbudget => 0x0400000004000000
  | .splsize d => if d < 4 then 20 else 0
  | .rasctl d => if d < 4 then 4 else 0
  | .pwrctl d => if d < 4 then 0x1AE01808 else 0
  | _ => 0

/-- PWRCTL after reset: LIMIT 430, AUTO 0, TOKENS 24, CAP 8 in each die (R533). -/
theorem Hub.reset_pwrctl (d : Nat) : Hub.reset.pwrctl d = if d < 4 then 0x1AE01808 else 0 := by
  show BitVec.ofNat 64 ((vget (Vector.replicate 4 430#12) 0 d).toNat * 2 ^ 20
    + (vget (Vector.replicate 4 false) false d).toNat * 2 ^ 16
    + (vget (Vector.replicate 4 24#6) 0 d).toNat * 256 + (vget (Vector.replicate 4 8#4) 0 d).toNat) = _
  simp only [vget_replicate_eq]
  by_cases h : d < 4
  · simp only [if_pos h]
    decide
  · simp only [if_neg h]
    decide

/-- After reset every hub register reads the value of its Reset column, by whatever agent (R5, R270). -/
theorem hubRead_reset (a : Agent) (r : HubReg) (hrec : r ≠ .brrec) (hctx : ∀ j, r ≠ .brctx j ∧ r ≠ .brctxw j) :
    hubRead State.reset a r = r.resetValue := by
  cases r with
  | brrec => exact absurd rfl hrec
  | brctx j => exact absurd rfl (hctx j).1
  | brctxw j => exact absurd rfl (hctx j).2
  | qcfg n => exact (State.reset_queue n).1
  | hslot d i => exact ite_self _
  | splbase d | xlroot d | tsbase d | savbase d | rascnt d i | hapcfg d | hapbase d => exact vget_replicate _ _ _
  | tssize d | savcnt d => exact congrArg (BitVec.setWidth 64) (vget_replicate _ _ _)
  | splsize d =>
    show (vget (Vector.replicate 4 20#5) 0 d).setWidth 64 = if d < 4 then 20 else 0
    rw [vget_replicate_eq]
    split <;> rfl
  | rasctl d =>
    show (vget (Vector.replicate 4 4#9) 0 d).setWidth 64 = if d < 4 then 4 else 0
    rw [vget_replicate_eq]
    split <;> rfl
  | frqbase d => exact congrArg FaultQueue.base (vget_replicate 4 frqDefault d)
  | frqsize d => exact congrArg (fun q : FaultQueue => q.size.setWidth 64) (vget_replicate 4 frqDefault d)
  | frqcnt d =>
    show BitVec.ofNat 64 ((vget (Vector.replicate 4 frqDefault) frqDefault d).lost.toNat * 2 ^ 32
      + (vget (Vector.replicate 4 frqDefault) frqDefault d).held.length) = 0
    rw [vget_replicate]
    rfl
  | lnkstat n => exact congrArg LinkState.word (vget_replicate 8 linkDefault n)
  | fpstat n => exact congrArg PortState.word (vget_replicate 15 portDefault n)
  | hpstat n => exact congrArg HostPort.word (vget_replicate 4 hostPortDefault n)
  | pwrctl d => exact Hub.reset_pwrctl d
  | telemetry i => exact List.getD_nil
  | _ => rfl

/-- Every g register of a stream that has not started reads 0 (R30). -/
theorem Stream.reset_rd (r : Reg) : Stream.reset.rd r = 0 := by
  unfold Stream.rd
  split
  · rfl
  · exact Vector.getElem_replicate _

theorem State.reset_memOk : State.reset.MemOk := ⟨Memory.wf_nil, Memory.wf_nil⟩

theorem State.reset_calm : State.reset.Calm := ⟨rfl, rfl, rfl, rfl, rfl⟩

/-- Settles O56: the registers by the lemma for each table, what is listed in the state by evaluating the reset state. -/
theorem resetState : Obligations.ResetState := by
  unfold Obligations.ResetState
  refine ⟨State.reset_memOk, rfl, rfl, rfl, rfl, rfl, rfl, rfl, rfl, rfl, rfl, rfl, rfl, rfl, State.reset_calm,
    State.reset_queue, ?hub, Stream.reset_rd, ?stream⟩
  case hub => exact hubRead_reset
  case stream => exact ⟨rfl, rfl, rfl, rfl, rfl, rfl, rfl, rfl, rfl, rfl, rfl, rfl, rfl, rfl, rfl, rfl, rfl, rfl⟩

end Sys2Proof.Machine
end

section
/-! The CSRs: what each reads as, what a write of each changes, and what a CSR instruction answers (R15-R22, R102-R104). -/

namespace Sys2Proof.Machine

/-! ## What the CSRs read as -/

/-- STATUS (R15). -/
theorem State.csr_status (s : State) :
    (s.csr 0x000).toNat = s.st.pfxd.toNat * 2 ^ 32 + s.st.ta.toNat * 4 + s.st.pfxp.toNat * 2 + s.hart.sv.toNat := by
  have hpfxd := s.st.pfxd.isLt
  have hta := s.st.ta.toNat_le
  have hpfxp := s.st.pfxp.toNat_le
  have hsv := s.hart.sv.toNat_le
  refine (BitVec.toNat_ofNat _ _).trans (Nat.mod_eq_of_lt ?_)
  omega

/-- FCSR (R17). -/
theorem State.csr_fcsr (s : State) : (s.csr 0x001).toNat = s.st.flags.toNat * 2 ^ 8 + s.st.rm.toNat := by
  have hflags := s.st.flags.isLt
  have hrm := s.st.rm.isLt
  refine (BitVec.toNat_ofNat _ _).trans (Nat.mod_eq_of_lt ?_)
  omega

/-- LASTD (R20). -/
theorem State.csr_lastd (s : State) : (s.csr 0x003).toNat = s.st.lastV.toNat * 2 ^ 8 + s.st.lastG.toNat := by
  have hv := s.st.lastV.isLt
  have hg := s.st.lastG.isLt
  refine (BitVec.toNat_ofNat _ _).trans (Nat.mod_eq_of_lt ?_)
  omega

/-- SEW is VTYPE[5:4] (R153). -/
theorem vtypeSew_eq (t : BitVec 8) : vtypeSew t = ((t >>> 4).setWidth 2).toNat := by
  simp [vtypeSew, Nat.shiftRight_eq_div_pow]

/-- LMUL is 2 to VTYPE[7:6] (R153). -/
theorem vtypeLmul_eq (t : BitVec 8) : vtypeLmul t = 2 ^ (t >>> 6).toNat := by
  simp [vtypeLmul, Nat.shiftRight_eq_div_pow]

/-- VLMAX (R158). -/
theorem State.csr_vlmax (s : State) :
    let m := 8 * s.st.grant * (24 / 2 ^ ((s.st.vtype >>> 4).setWidth 2).toNat) * 2 ^ (s.st.vtype >>> 6).toNat
    s.csr 0x024 = BitVec.ofNat 64 (if s.hart.vlcap = 0 then m else min m s.hart.vlcap) := by
  rw [← vtypeSew_eq, ← vtypeLmul_eq]
  rfl

/-- CHDONE holds SPAWNED above DONE (R261). -/
theorem State.csr_chdone (s : State) :
    (s.csr 0x028 >>> 32).setWidth 32 = s.hart.spawned ∧ (s.csr 0x028).setWidth 32 = s.hart.childDone := by
  have hspawned := s.hart.spawned.isLt
  have hdone := s.hart.childDone.isLt
  have hword : (s.csr 0x028).toNat = s.hart.spawned.toNat * 2 ^ 32 + s.hart.childDone.toNat :=
    (BitVec.toNat_ofNat _ _).trans (Nat.mod_eq_of_lt (by omega))
  constructor <;> apply BitVec.eq_of_toNat_eq
  · rw [BitVec.toNat_setWidth, BitVec.toNat_ushiftRight, hword, Nat.shiftRight_eq_div_pow]
    omega
  · rw [BitVec.toNat_setWidth, hword]
    omega

/-! ## What a write changes -/

/-- A write of STATUS changes PFXD, TA and PFXP of the stream and SV of the hart (R15, R16). -/
theorem State.setCsr_status (s : State) (v : Word) :
    ∃ t, s.setCsr 0x000 v = t
      ∧ t.st = { s.st with pfxd := (v >>> 32).setWidth 25, ta := v.getLsbD 2, pfxp := v.getLsbD 1 }
      ∧ t.hart.sv = v.getLsbD 0 ∧ { t with hart := { t.hart with sv := s.hart.sv } } = s.setSt t.st := by
  have hpfxd : (v >>> 32).setWidth 25 = BitVec.ofNat 25 (v.toNat / 2 ^ 32) := by
    apply BitVec.eq_of_toNat_eq
    simp [Nat.shiftRight_eq_div_pow]
  rw [hpfxd]
  refine ⟨_, rfl, ?_⟩
  by_cases hf : s.onFeeder = true <;> simp [State.setCsr, State.setSt, State.st, hf]

/-- The codes of RM that are not reserved (R18). -/
theorem rm_reserved_iff (r : BitVec 3) : (1 ≤ r.toNat ∧ r.toNat ≤ 5) ↔ ¬(r = 0#3 ∨ r = 6#3 ∨ r = 7#3) := by
  revert r
  decide

/-- What a write leaves in RM: a code that is not reserved, else the old one (R18). -/
theorem rm_written (r old : BitVec 3) :
    (if 1 ≤ r.toNat ∧ r.toNat ≤ 5 then r else old) = if r = 0#3 ∨ r = 6#3 ∨ r = 7#3 then old else r := by
  by_cases h : r = 0#3 ∨ r = 6#3 ∨ r = 7#3
  · rw [if_pos h, if_neg fun k => (rm_reserved_iff r).mp k h]
  · rw [if_neg h, if_pos ((rm_reserved_iff r).mpr h)]

/-- A write of FCSR changes the flags, and RM where its code is not reserved (R17, R18). -/
theorem State.setCsr_fcsr (s : State) (v : Word) :
    s.setCsr 0x001 v = s.setSt { s.st with
      flags := (v >>> 8).setWidth 7
      rm := if v.setWidth 3 = 0#3 ∨ v.setWidth 3 = 6#3 ∨ v.setWidth 3 = 7#3 then s.st.rm else v.setWidth 3 } := by
  have hflags : (v >>> 8).setWidth 7 = BitVec.ofNat 7 (v.toNat / 256) := by
    apply BitVec.eq_of_toNat_eq
    simp [Nat.shiftRight_eq_div_pow]
  rw [hflags, ← rm_written]
  rfl

/-- A write of LASTD changes LASTD.G, and LASTD.V of a main stream (R20). -/
theorem State.setCsr_lastd (s : State) (v : Word) :
    s.setCsr 0x003 v = s.setSt { s.st with
      lastG := v.setWidth 5, lastV := if s.onFeeder then s.st.lastV else (v >>> 8).setWidth 5 } := by
  have hv : (v >>> 8).setWidth 5 = BitVec.ofNat 5 (v.toNat / 256) := by
    apply BitVec.eq_of_toNat_eq
    simp [Nat.shiftRight_eq_div_pow]
  rw [hv]
  rfl

/-- Bit 0 cleared, as TVEC and TEPC hold an address (R21). -/
theorem shift_right_left_one (v : Word) : v >>> 1 <<< 1 = v &&& ~~~1#64 := by
  apply BitVec.eq_of_getLsbD_eq
  intro i hi
  rw [BitVec.getLsbD_and, BitVec.getLsbD_not, BitVec.getLsbD_shiftLeft, BitVec.getLsbD_ushiftRight, BitVec.getLsbD_one]
  cases i with
  | zero => simp
  | succ i => simp [hi, Nat.add_comm]

/-- A write of TVEC or of TEPC leaves its bit 0 at 0 (R21). -/
theorem State.setCsr_tvec (s : State) (v : Word) : s.setCsr 0x008 v = s.setSt { s.st with tvec := v >>> 1 <<< 1 } := by
  rw [shift_right_left_one]
  rfl
theorem State.setCsr_tepc (s : State) (v : Word) : s.setCsr 0x009 v = s.setSt { s.st with tepc := v >>> 1 <<< 1 } := by
  rw [shift_right_left_one]
  rfl

/-- A write of a read-only CSR is ignored (R5, R104). -/
theorem State.setCsr_readOnly (s : State) (v : Word) (c : BitVec 12)
    (h : c ∈ [0x010#12, 0x011#12, 0x020#12, 0x021#12, 0x022#12, 0x024#12, 0x025#12, 0x027#12, 0x028#12]) :
    s.setCsr c v = s := by
  simp only [List.mem_cons, List.not_mem_nil, or_false] at h
  rcases h with rfl | rfl | rfl | rfl | rfl | rfl | rfl | rfl | rfl <;> rfl

/-! ## CSR instructions -/

/-- The registers that an instruction does not name do not keep it waiting. -/
theorem State.ScalarReady.mono {s : State} {k : PfxKind} {feeder control : Bool} {rs rs' : List Reg}
    (h : s.ScalarReady k feeder control rs) (hsub : rs' ⊆ rs) : s.ScalarReady k feeder control rs' := by
  obtain ⟨hfeeder, hpfx, hcontrol, hregs, hpred⟩ := h
  refine ⟨hfeeder, hpfx, hcontrol, ?_, hpred⟩
  rw [State.regWait, List.any_eq_false] at hregs ⊢
  refine fun r hr => hregs r ?_
  split at hr <;> rename_i hp
  · exact if_pos (c := s.st.pfxp = true) hp ▸ List.cons_subset_cons _ (List.cons_subset_cons _ hsub) hr
  · exact if_neg (c := s.st.pfxp = true) hp ▸ hsub hr

/-- A form that PFX may not precede executes only where PFXP is 0 (R68). -/
theorem State.ScalarReady.pfxp_eq_false {s : State} {feeder control : Bool} {rs : List Reg}
    (h : s.ScalarReady .never feeder control rs) : s.st.pfxp = false :=
  Bool.eq_false_iff.mpr fun hp => (h.2.1 hp).1 rfl

/-- The executing stream may not touch the CSR: a control core layer 2, the feeder PIVCNT (R155, R536). -/
def State.csrForeign (s : State) (c : BitVec 12) : Prop :=
  (s.hart.isControl = true ∧ 0x020 ≤ c.toNat) ∨ (s.onFeeder = true ∧ c = 0x026)

/-- A queued vector instruction of the hart may still use or set the CSR (R103). -/
def State.csrBusy (s : State) (c : BitVec 12) : Prop := s.hart.vq ≠ [] ∧ (c = 0x001 ∨ 0x020 ≤ c.toNat)

theorem State.csrWaits_iff (s : State) (c : BitVec 12) : s.csrWaits c = true ↔ s.csrBusy c := by
  simp [State.csrWaits, State.csrBusy]

/-- The state in which a CSR instruction writes: it has completed, with the old value in g[d]. -/
def State.csrGiven (s : State) (word : Nat) (d : Reg) (c : BitVec 12) : State := (s.finish word 4).setG d (s.csr c)

/-- That completion is one with a g destination; where PFXP is 0, g[d] alone takes the value (R70). -/
theorem State.csrGiven_wrote (s : State) (word : Nat) (d : Reg) (c : BitVec 12) (hp : s.st.pfxp = false) :
    s.WroteG (s.csrGiven word d c) word 4 d (s.csr c) := by
  refine ⟨?_, ?_, fun r => ?_⟩
  · simp [State.StreamOnly, State.csrGiven, State.setG, State.finish]
  · simp only [State.csrGiven, State.setG, State.finish, State.setSt_st]
    unfold Stream.wr
    split <;> rfl
  · simp only [State.csrGiven, State.setG, State.finish, State.setSt_st]
    refine (Stream.rd_wr (s.st.advance word 4) d r (s.csr c)).trans ?_
    simp [hp]

/-- A write of LASTD goes over the LASTD.G that the completion leaves (R20, R102). -/
theorem State.setCsr_lastd_setSt (s : State) (g : Reg) (t : Stream) (v : Word) :
    (s.setSt { t with lastG := g }).setCsr 0x003 v = (s.setSt t).setCsr 0x003 v := by
  rw [State.setCsr_lastd, State.setCsr_lastd]
  simp

/-- The check of privilege passes where the supervisor makes the access, or none is needed. -/
theorem csr_not_priv {s : State} {c : BitVec 12} {w : Option Word}
    (h : w.isSome = true → csrSupervisor c = true → s.hart.sv = true) :
    ¬((w.isSome = true ∧ csrSupervisor c = true) ∧ s.hart.sv = false) :=
  fun ⟨⟨hw, hsup⟩, hsv⟩ => Bool.false_ne_true (hsv.symm.trans (h hw hsup))

section
variable {word : Nat} {d : Reg} {rs : List Reg} {c : BitVec 12} {new : State → Word → Option Word} {s : State}
  (hready : s.ScalarReady .never true true (d :: rs))
include hready

/-- A write of STATUS or CYCLE needs the supervisor (R104). -/
theorem runCsr_priv (hnew : (new s (s.csr c)).isSome = true) (hsup : csrSupervisor c = true) (hsv : s.hart.sv = false) :
    runCsr word d rs c new s = .next (s.trap .priv (wordVal word) word) := by
  unfold runCsr
  rw [runScalar_ready _ _ _ hready]
  dsimp only
  rw [if_pos ⟨⟨hnew, hsup⟩, hsv⟩]
  rfl

variable (hpriv : (new s (s.csr c)).isSome = true → csrSupervisor c = true → s.hart.sv = true)
include hpriv

/-- A stream that may not touch the CSR raises ILLOP (R155, R536). -/
theorem runCsr_foreign (hf : s.csrForeign c) :
    runCsr word d rs c new s = .next (s.trap .illop (wordVal word) word) := by
  unfold runCsr
  rw [runScalar_ready _ _ _ hready]
  dsimp only
  rw [if_neg (csr_not_priv hpriv), if_pos (by exact hf)]
  rfl

/-- It waits while a queued vector instruction may use or set the CSR (R103). -/
theorem runCsr_busy (hf : ¬s.csrForeign c) (hb : s.csrBusy c) : runCsr word d rs c new s = .next s.yield := by
  unfold runCsr
  rw [runScalar_ready _ _ _ hready]
  dsimp only
  rw [if_neg (csr_not_priv hpriv), if_neg (by exact hf), if_pos ((s.csrWaits_iff c).mpr hb)]
  rfl

/-- Otherwise a read completes with the old value (R102). -/
theorem runCsr_read (hnew : new s (s.csr c) = none) (hf : ¬s.csrForeign c) (hb : ¬s.csrBusy c) :
    runCsr word d rs c new s = .next (s.finishG word 4 d (s.csr c)) := by
  unfold runCsr
  rw [runScalar_ready _ _ _ hready]
  dsimp only
  rw [if_neg (csr_not_priv hpriv), if_neg (by exact hf), if_neg (mt (s.csrWaits_iff c).mp hb), hnew]
  rfl

/-- And a write goes on to write the new one (R102). -/
theorem runCsr_write {v : Word} (hnew : new s (s.csr c) = some v) (hf : ¬s.csrForeign c) (hb : ¬s.csrBusy c) :
    runCsr word d rs c new s = .next ((s.csrGiven word d c).setCsr c v) := by
  unfold runCsr
  rw [runScalar_ready _ _ _ hready]
  dsimp only
  rw [if_neg (csr_not_priv hpriv), if_neg (by exact hf), if_neg (mt (s.csrWaits_iff c).mp hb), hnew]
  by_cases hc : c = 0x003
  · subst hc
    exact congrArg Host.Outcome.next (State.setCsr_lastd_setSt _ d _ v).symm
  · dsimp only
    rw [if_neg hc]
    simp [State.conclude, State.csrGiven, State.setG]

end

/-- What a CSR instruction that only reads answers. -/
def State.ReadsCsr (s : State) (i : Instr) (d : Reg) (c : BitVec 12) : Prop :=
  (s.csrForeign c → s.TrapsOn i .illop) ∧ (¬s.csrForeign c → s.csrBusy c → s.Waits i)
  ∧ (¬s.csrForeign c → ¬s.csrBusy c → ∃ t, exec i s = .next t ∧ s.Wrote t i d (s.csr c))

/-- What a CSR instruction that writes `v` answers. -/
def State.WritesCsr (s : State) (i : Instr) (d : Reg) (c : BitVec 12) (v : Word) : Prop :=
  (csrSupervisor c = true → s.hart.sv = false → s.TrapsOn i .priv)
  ∧ ((csrSupervisor c = true → s.hart.sv = true) →
    (s.csrForeign c → s.TrapsOn i .illop) ∧ (¬s.csrForeign c → s.csrBusy c → s.Waits i)
    ∧ (¬s.csrForeign c → ¬s.csrBusy c →
        ∃ t u, exec i s = .next t ∧ s.Wrote u i d (s.csr c) ∧ t = u.setCsr c v))

section
variable {i : Instr} {d : Reg} {rs : List Reg} {c : BitVec 12} {new : State → Word → Option Word} {s : State}
  (hexec : exec i s = runCsr (encodeNat i) d rs c new s) (hsize : i.size = 4)
  (hready : s.ScalarReady .never true true (d :: rs))
include hexec hsize hready

theorem State.readsCsr_of_runCsr (hnew : new s (s.csr c) = none) : s.ReadsCsr i d c := by
  have hpriv : (new s (s.csr c)).isSome = true → csrSupervisor c = true → s.hart.sv = true := fun h => by simp [hnew] at h
  refine ⟨fun hf => hexec.trans (runCsr_foreign hready hpriv hf), fun hf hb => hexec.trans (runCsr_busy hready hpriv hf hb),
    fun hf hb => ⟨_, hexec.trans (runCsr_read hready hpriv hnew hf hb), ?_⟩⟩
  rw [State.Wrote, hsize]
  exact s.finishG_wrote _ _ _ _

theorem State.writesCsr_of_runCsr {v : Word} (hnew : new s (s.csr c) = some v) : s.WritesCsr i d c v := by
  refine ⟨fun hsup hsv => hexec.trans (runCsr_priv hready (by rw [hnew]; rfl) hsup hsv), fun hsv => ?_⟩
  have hpriv : (new s (s.csr c)).isSome = true → csrSupervisor c = true → s.hart.sv = true := fun _ => hsv
  refine ⟨fun hf => hexec.trans (runCsr_foreign hready hpriv hf), fun hf hb => hexec.trans (runCsr_busy hready hpriv hf hb),
    fun hf hb => ⟨_, s.csrGiven (encodeNat i) d c, hexec.trans (runCsr_write hready hpriv hnew hf hb), ?_, rfl⟩⟩
  rw [State.Wrote, hsize]
  exact s.csrGiven_wrote _ _ _ hready.pfxp_eq_false

end

/-- Settles O3: what each CSR reads as and what a write of each changes by a lemma for each, what the instructions answer by
the cases of their common frame. -/
theorem controlStatusRegisters : Obligations.ControlStatusRegisters := by
  unfold Obligations.ControlStatusRegisters
  refine ⟨fun s => ?reads, fun s v => ?writes, fun s d a c _ hready => ?instructions⟩
  case reads =>
    exact ⟨s.csr_status, s.csr_fcsr, rfl, s.csr_lastd, rfl, rfl, rfl, rfl, rfl, rfl, rfl, rfl, rfl, rfl, s.csr_vlmax, rfl, rfl,
      rfl, s.csr_chdone⟩
  case writes =>
    exact ⟨s.setCsr_status v, s.setCsr_fcsr v, rfl, s.setCsr_lastd v, s.setCsr_tvec v, s.setCsr_tepc v, rfl, rfl, rfl, rfl,
      s.setCsr_readOnly v⟩
  case instructions =>
    refine ⟨?csrr, ?csrw, fun ha => ⟨?setReads, ?clrReads⟩, fun ha => ⟨?setWrites, ?clrWrites⟩⟩
    case csrr => exact State.readsCsr_of_runCsr (new := fun _ _ => none) rfl rfl (hready.mono (rs' := [d]) (by simp)) rfl
    case csrw => exact State.writesCsr_of_runCsr (new := fun s _ => some (s.rd a)) rfl rfl hready rfl
    case setReads => exact State.readsCsr_of_runCsr (new := fun s old => if a = 0 then none else some (old ||| s.rd a)) rfl rfl hready (if_pos ha)
    case clrReads => exact State.readsCsr_of_runCsr (new := fun s old => if a = 0 then none else some (old &&& ~~~s.rd a)) rfl rfl hready (if_pos ha)
    case setWrites => exact State.writesCsr_of_runCsr (new := fun s old => if a = 0 then none else some (old ||| s.rd a)) rfl rfl hready (if_neg ha)
    case clrWrites => exact State.writesCsr_of_runCsr (new := fun s old => if a = 0 then none else some (old &&& ~~~s.rd a)) rfl rfl hready (if_neg ha)

end Sys2Proof.Machine
end

section
/-! Reads and writes of memory: which bytes they cover, and what a write leaves alone (R2, R286, R289). -/

namespace Sys2Proof.Machine

/-! ## One run of bytes at several addresses -/

/-- Bytes written at each of several addresses, as a write of a REPLICATED page does (R286). -/
def Mem.setEach (m : Mem) (ps : List Nat) (l : List Byte) : Mem := ps.foldl (fun m p => m.setBytes p l) m

/-- Two runs of `n` bytes share none. -/
def RunsApart (n p q : Nat) : Prop := p + n ≤ q ∨ q + n ≤ p

theorem Mem.setEach_cons (m : Mem) (p : Nat) (ps : List Nat) (l : List Byte) :
    m.setEach (p :: ps) l = (m.setBytes p l).setEach ps l := rfl

/-- A byte that no run covers. -/
theorem Mem.byte_setEach_out (ps : List Nat) (m : Mem) (l : List Byte) (b : Nat)
    (h : ∀ p ∈ ps, ¬(p ≤ b ∧ b < p + l.length)) : (m.setEach ps l).byte b = m.byte b := by
  induction ps generalizing m with
  | nil => rfl
  | cons p ps ih =>
    rw [Mem.setEach_cons, ih _ fun q hq => h q (List.mem_cons_of_mem p hq),
      Mem.byte_setBytes_out l m p b (h p List.mem_cons_self)]

/-- Runs that do not meet are each read back. -/
theorem Mem.bytes_setEach (ps : List Nat) (m : Mem) (l : List Byte) (hps : ps.Pairwise (RunsApart l.length)) :
    ∀ p ∈ ps, (m.setEach ps l).bytes p l.length = l := by
  induction ps generalizing m with
  | nil => exact fun p hp => absurd hp List.not_mem_nil
  | cons q ps ih =>
    obtain ⟨hq, hps⟩ := List.pairwise_cons.mp hps
    intro p hp
    rw [Mem.setEach_cons]
    rcases List.mem_cons.mp hp with rfl | hp
    · have hlater : ∀ i, i < l.length → ((m.setBytes p l).setEach ps l).byte (p + i) = (m.setBytes p l).byte (p + i) :=
        fun i hi => Mem.byte_setEach_out ps _ l (p + i) fun r hr => by
          have hr := hq r hr
          unfold RunsApart at hr
          omega
      rw [Mem.bytes_congr _ _ _ _ hlater, Mem.bytes_setBytes]
    · exact ih _ hps p hp

/-! ## Where a write goes -/

/-- An access to memory, not to the hub, writes its bytes at each of its addresses. -/
theorem State.perform_memory (s : State) (a : Agent) (x : Xl) (l : List Byte) (bad : Bool) (hx : ∀ o, region x.pa ≠ .hub o) :
    s.perform a x l bad = (s.writeAt a x).foldl (fun t p => t.putBytes a p l bad) s := by
  unfold State.perform
  split
  · next o ho => exact absurd ho (hx o)
  · rfl

theorem State.foldl_putBytes_mem (a : Agent) (l : List Byte) (bad : Bool) (ps : List Nat) (s : State) :
    (ps.foldl (fun t p => t.putBytes a p l bad) s).mem = s.mem.setEach ps l := by
  induction ps generalizing s with
  | nil => rfl
  | cons p ps ih => rw [List.foldl_cons, ih, (s.putBytes_mem a p l bad).1, Mem.setEach_cons]

/-- Memory after a write. -/
theorem State.perform_mem (s : State) (a : Agent) (x : Xl) (l : List Byte) (bad : Bool) (hx : ∀ o, region x.pa ≠ .hub o) :
    (s.perform a x l bad).mem = s.mem.setEach (s.writeAt a x) l := by
  rw [s.perform_memory a x l bad hx, State.foldl_putBytes_mem]

theorem State.writeAt_single (s : State) (a : Agent) (x : Xl) (h : x.cls ≠ 3) : s.writeAt a x = [x.pa] := if_neg h

theorem State.writeAt_replicated (s : State) (a : Agent) (x : Xl) (h : x.cls = 3) :
    s.writeAt a x = (s.replicaDies a).map fun d => d * 0x2000000000 + x.pa := if_pos h

/-- Replicas lie 2^37 bytes apart, so a write of no more than that meets each once (R286). -/
theorem State.replicas_apart (s : State) (a : Agent) (pa n : Nat) (hn : n ≤ 0x2000000000) :
    ((s.replicaDies a).map fun d => d * 0x2000000000 + pa).Pairwise (RunsApart n) := by
  have hdies : (s.replicaDies a).Pairwise (· < ·) := List.pairwise_lt_range.filter _
  refine List.pairwise_map.mpr (hdies.imp fun {d e} hde => ?_)
  unfold RunsApart
  omega

/-- A read of memory takes the bytes at its address, the lowest first (R2, R289). -/
theorem State.fetchValue_memory (s : State) (a : Agent) (x : Xl) (size : Nat) (hx : ∀ o, region x.pa ≠ .hub o) :
    s.fetchValue a x size = .ok (BitVec.ofNat 64 (leNat (s.mem.bytes (a.readAt x) size))) s := by
  unfold State.fetchValue
  split
  · next o ho => exact absurd ho (hx o)
  · rfl

/-- A write of one run covers its bytes and no other. -/
theorem State.perform_byte (s : State) (a : Agent) (x : Xl) (l : List Byte) (bad : Bool) (hx : ∀ o, region x.pa ≠ .hub o)
    (hcls : x.cls ≠ 3) (b : Nat) :
    (s.perform a x l bad).mem.byte b = if x.pa ≤ b ∧ b < x.pa + l.length then l.getD (b - x.pa) 0 else s.mem.byte b := by
  rw [s.perform_mem a x l bad hx, s.writeAt_single a x hcls]
  exact Mem.byte_setBytes l s.mem x.pa b

/-- A write of a REPLICATED page leaves the bytes outside every replica's run. -/
theorem State.perform_byte_outside_replicas (s : State) (a : Agent) (x : Xl) (l : List Byte) (bad : Bool)
    (hx : ∀ o, region x.pa ≠ .hub o) (hcls : x.cls = 3) (b : Nat)
    (hb : ∀ e ∈ s.replicaDies a, ¬(e * 0x2000000000 + x.pa ≤ b ∧ b < e * 0x2000000000 + x.pa + l.length)) :
    (s.perform a x l bad).mem.byte b = s.mem.byte b := by
  rw [s.perform_mem a x l bad hx, s.writeAt_replicated a x hcls]
  exact Mem.byte_setEach_out _ _ _ _ (List.forall_mem_map.mpr hb)

/-- And leaves its bytes in the replica of each die of the partition. -/
theorem State.perform_replica (s : State) (a : Agent) (x : Xl) (l : List Byte) (bad : Bool) (hx : ∀ o, region x.pa ≠ .hub o)
    (hcls : x.cls = 3) (hl : l.length ≤ 0x2000000000) (e : Nat) (he : e ∈ s.replicaDies a) :
    (s.perform a x l bad).mem.bytes (e * 0x2000000000 + x.pa) l.length = l := by
  rw [s.perform_mem a x l bad hx, s.writeAt_replicated a x hcls]
  exact Mem.bytes_setEach _ _ _ (s.replicas_apart a x.pa _ hl) _ (List.mem_map_of_mem he)

/-! ## What a write of memory may change -/

/-- `t`, but what a write of memory may change is as in `s`. -/
def State.withStoreOf (s t : State) : State :=
  { t with mem := s.mem, ingress := s.ingress, memPoison := s.memPoison, poisonAtoms := s.poisonAtoms
           xchgs := s.xchgs, colls := s.colls, ops := s.ops, hart := s.hart, others := s.others, queues := s.queues
           dispatchers := s.dispatchers }

/-- `t`'s waits for contexts are those of `s`, in the streams and in the records that wait for work. -/
def State.SameWaits (s t : State) : Prop :=
  t.hart.main.tlw = s.hart.main.tlw ∧ t.hart.feed.tlw = s.hart.feed.tlw ∧ t.others = s.others ∧ t.queues = s.queues
  ∧ t.dispatchers = s.dispatchers

/-- A write of memory may lead from `s` to `t`: memory and what follows from it apart, nothing has changed but the operations
of contexts that it makes or ends, the waits for those, and the old bytes that the executing stream may still fetch. -/
structure State.Stored (s t : State) : Prop where
  frame : s.withStoreOf t = s
  ops : s.OpsKept t
  hart : t.hart = { s.hart with main := t.hart.main, feed := t.hart.feed }
  main : t.hart.main = { s.hart.main with
    tlw := t.hart.main.tlw, stale := if s.onFeeder then s.hart.main.stale else t.hart.main.stale }
  feed : t.hart.feed = { s.hart.feed with
    tlw := t.hart.feed.tlw, stale := if s.onFeeder then t.hart.feed.stale else s.hart.feed.stale }
  still : s.awaits (fun _ => true) = false → s.SameWaits t

theorem State.OpsKept.refl (s : State) : s.OpsKept s := ⟨fun _ => false, by simp, by simp⟩

theorem State.OpsKept.of_ops_eq {s t : State} (h : t.ops = s.ops) : s.OpsKept t := by
  obtain ⟨p, hp, hs⟩ := State.OpsKept.refl s
  exact ⟨p, hp, h.trans hs⟩

theorem State.OpsKept.trans {s t u : State} (h : s.OpsKept t) (k : t.OpsKept u) : s.OpsKept u := by
  obtain ⟨p, hp, hpt⟩ := h
  obtain ⟨q, hq, hqu⟩ := k
  refine ⟨fun c => p c || q c, fun c hc => ?_, ?_⟩
  · rcases Bool.or_eq_true_iff.mp hc with hc | hc
    · exact hp c hc
    · exact hq c hc
  · rw [hqu, hpt, List.map_map]
    refine List.map_congr_left fun o _ => ?_
    by_cases h1 : p o.ctx = true <;> by_cases h2 : q o.ctx = true <;> simp [h1, h2]

/-- Whether something waits depends on the waits alone. -/
theorem State.SameWaits.awaits {s t : State} (h : s.SameWaits t) (p : CtxRef → Bool) : t.awaits p = s.awaits p := by
  obtain ⟨hmain, hfeed, hothers, hqueues, hdispatchers⟩ := h
  unfold State.awaits
  simp only [List.any_cons, hmain, hfeed, hothers, hqueues, hdispatchers]

theorem State.SameWaits.refl (s : State) : s.SameWaits s := ⟨rfl, rfl, rfl, rfl, rfl⟩

theorem State.SameWaits.trans {s t u : State} (h : s.SameWaits t) (k : t.SameWaits u) : s.SameWaits u :=
  ⟨k.1.trans h.1, k.2.1.trans h.2.1, k.2.2.1.trans h.2.2.1, k.2.2.2.1.trans h.2.2.2.1, k.2.2.2.2.trans h.2.2.2.2⟩

theorem State.Stored.onFeeder {s t : State} (h : s.Stored t) : t.onFeeder = s.onFeeder :=
  (congrArg State.onFeeder h.frame : (s.withStoreOf t).onFeeder = s.onFeeder)

theorem State.Stored.trans {s t u : State} (h : s.Stored t) (k : t.Stored u) : s.Stored u where
  frame := (congrArg s.withStoreOf k.frame).trans h.frame
  ops := h.ops.trans k.ops
  hart := by rw [k.hart, h.hart]
  main := by
    have hf := h.onFeeder
    rw [k.main, h.main]
    by_cases hs : s.onFeeder = true <;> simp [hf, hs]
  feed := by
    have hf := h.onFeeder
    rw [k.feed, h.feed]
    by_cases hs : s.onFeeder = true <;> simp [hf, hs]
  still := fun hw => (h.still hw).trans (k.still ((h.still hw).awaits _ ▸ hw))

/-- A change that leaves the harts, the queues and the dispatchers alone needs no look at what waits. -/
theorem State.Stored.of_hart_eq {s t : State} (frame : s.withStoreOf t = s) (hhart : t.hart = s.hart) (ops : s.OpsKept t)
    (hothers : t.others = s.others) (hqueues : t.queues = s.queues) (hdispatchers : t.dispatchers = s.dispatchers) :
    s.Stored t where
  frame := frame
  ops := ops
  hart := by rw [hhart]
  main := by rw [hhart]; simp
  feed := by rw [hhart]; simp
  still := fun _ => ⟨by rw [hhart], by rw [hhart], hothers, hqueues, hdispatchers⟩

theorem State.Stored.refl (s : State) : s.Stored s := .of_hart_eq rfl rfl (.refl s) rfl rfl rfl

/-! ## The parts of a write -/

/-- Changing memory alone is within what a write may change. -/
theorem State.stored_setMem (s : State) (m : Mem) : s.Stored { s with mem := m } :=
  .of_hart_eq rfl rfl (.of_ops_eq rfl) rfl rfl rfl

/-- So is marking what is written as poisoned or clean (R409, R452). -/
theorem State.stored_markPoison (s : State) (pa n : Nat) (bad : Bool) : s.Stored (s.markPoison pa n bad) := by
  unfold State.markPoison
  split <;> exact .of_hart_eq rfl rfl (.of_ops_eq rfl) rfl rfl rfl

/-- So is adding the persist units of a DURABLE write (R399). -/
theorem State.stored_ingressWrite (s : State) (a : Agent) (pa : Nat) (l : List Byte) (bad : Bool) :
    s.Stored (s.ingressWrite a pa l bad) :=
  .of_hart_eq rfl rfl (.of_ops_eq rfl) rfl rfl rfl

/-- So is keeping other old bytes for the fetch of the executing stream (R29). -/
theorem State.stored_setStale (s : State) (old : Sparse Byte) : s.Stored (s.setSt { s.st with stale := old }) := by
  by_cases hf : s.onFeeder = true
  · rw [State.setSt, if_pos hf, s.st_of_feed hf]
    exact ⟨rfl, .of_ops_eq rfl, rfl, by simp [hf], by simp [hf], fun _ => .refl s⟩
  · rw [State.setSt, if_neg hf, s.st_of_main (Bool.eq_false_iff.mpr hf)]
    exact ⟨rfl, .of_ops_eq rfl, rfl, by simp [hf], by simp [hf], fun _ => .refl s⟩

theorem State.stored_noteStale (s : State) (a : Agent) (pa n : Nat) : s.Stored (s.noteStale a pa n) := by
  unfold State.noteStale
  split
  · exact .refl s
  · exact s.stored_setStale _

/-- A stream whose wait may end is the same otherwise. -/
theorem Stream.endCtx_eq (p : CtxRef → Bool) (t : Stream) : t.endCtx p = { t with tlw := (t.endCtx p).tlw } := by
  unfold Stream.endCtx
  split
  · split <;> rfl
  · rfl

theorem Stream.endCtx_stale (p : CtxRef → Bool) (t : Stream) : (t.endCtx p).stale = t.stale := by
  rw [Stream.endCtx_eq]

/-- Where nothing waits for any context, nothing waits for one that `p` picks (R359, R363). -/
theorem State.awaits_none (s : State) (p : CtxRef → Bool) (h : s.awaits (fun _ => true) = false) : s.awaits p = false := by
  rw [Bool.eq_false_iff] at h ⊢
  refine mt (fun hp => ?_) h
  unfold State.awaits at hp ⊢
  simp only [Bool.or_eq_true, List.any_eq_true] at hp ⊢
  rcases hp with (⟨x, hx, hmain | hfeed⟩ | ⟨q, hq, r, hr, hrec⟩) | ⟨d, hd, r, hr, hrec⟩
  · exact .inl (.inl ⟨x, hx, .inl (by split at hmain <;> simp_all)⟩)
  · exact .inl (.inl ⟨x, hx, .inr (by split at hfeed <;> simp_all)⟩)
  · exact .inl (.inr ⟨q, hq, r, hr, by split at hrec <;> simp_all⟩)
  · exact .inr ⟨d, hd, r, hr, by split at hrec <;> simp_all⟩

/-- So is ending waits on contexts that cease to exist, where there is one (R359, R363). -/
theorem State.stored_endCtx (s : State) (p : CtxRef → Bool) (hp : s.awaits p = true) : s.Stored (s.endCtx p) where
  frame := rfl
  ops := .of_ops_eq rfl
  hart := rfl
  main := by
    simpa [State.endCtx, Hart.endCtx, Stream.endCtx_stale] using Stream.endCtx_eq p s.hart.main
  feed := by
    simpa [State.endCtx, Hart.endCtx, Stream.endCtx_stale] using Stream.endCtx_eq p s.hart.feed
  still := fun h => absurd hp (by simp [s.awaits_none p h])

/-- So is what follows for contexts that start afresh, which are exchanges and groups, or that have ceased (R498, R509). -/
theorem State.stored_noteTables (s old : State) (reset : CtxRef → Bool)
    (hreset : ∀ c, reset c = true → (∃ x, c = .xchg x) ∨ ∃ g, c = .coll g) : s.Stored (s.noteTables old reset) := by
  unfold State.noteTables
  extract_lets p s1
  have hs1 : s.Stored s1 := by
    show s.Stored (if s.awaits p then s.endCtx p else s)
    split
    · next hp => exact s.stored_endCtx p hp
    · exact .refl s
  split
  · exact hs1.trans (.of_hart_eq rfl rfl ⟨reset, hreset, rfl⟩ rfl rfl rfl)
  · exact hs1

/-- A write enables exchanges and groups only. -/
theorem State.enabled_shared (s old : State) (pa n : Nat) (c : CtxRef) (h : s.enabled old pa n c = true) :
    (∃ x, c = .xchg x) ∨ ∃ g, c = .coll g := by
  cases c with
  | xchg x => exact .inl ⟨x, rfl⟩
  | coll g => exact .inr ⟨g, rfl⟩
  | copy _ _ | topo _ _ | bedrock _ => exact absurd h Bool.false_ne_true

theorem State.stored_putBytes (s : State) (a : Agent) (pa : Nat) (l : List Byte) (bad : Bool) :
    s.Stored (s.putBytes a pa l bad) := by
  unfold State.putBytes
  extract_lets s1 s2 s3
  have h2 : s.Stored s2 := (s.stored_noteStale a pa l.length).trans (s1.stored_setMem _)
  have h3 : s.Stored s3 := (h2.trans (s2.stored_noteTables s _ (s2.enabled_shared s pa l.length))).trans
    (State.stored_markPoison _ pa l.length bad)
  split
  · exact h3.trans (s3.stored_ingressWrite a pa l bad)
  · exact h3

/-- A write of memory, in one run or in several. -/
theorem State.stored_perform (s : State) (a : Agent) (x : Xl) (l : List Byte) (bad : Bool) (hx : ∀ o, region x.pa ≠ .hub o) :
    s.Stored (s.perform a x l bad) := by
  have hfold : ∀ (ps : List Nat) (t : State), t.Stored (ps.foldl (fun t p => t.putBytes a p l bad) t) := by
    intro ps
    induction ps with
    | nil => exact .refl
    | cons p ps ih => exact fun t => (t.stored_putBytes a p l bad).trans (ih _)
  rw [s.perform_memory a x l bad hx]
  exact hfold _ s

/-! ## Durability -/

/-- The ingress buffer and the poisoned atoms are the same. -/
def State.SameIngress (s t : State) : Prop := t.ingress = s.ingress ∧ t.poisonAtoms = s.poisonAtoms

theorem State.SameIngress.trans {s t u : State} (h : s.SameIngress t) (k : t.SameIngress u) : s.SameIngress u :=
  ⟨k.1.trans h.1, k.2.trans h.2⟩

theorem State.sameIngress_noteStale (s : State) (a : Agent) (pa n : Nat) : s.SameIngress (s.noteStale a pa n) := by
  unfold State.noteStale
  split
  · exact ⟨rfl, rfl⟩
  · exact ⟨State.setSt_ingress _ _, State.setSt_poisonAtoms _ _⟩

theorem State.sameIngress_noteTables (s old : State) (reset : CtxRef → Bool) : s.SameIngress (s.noteTables old reset) := by
  unfold State.noteTables
  extract_lets p s1
  have hs1 : s.SameIngress s1 := by
    show s.SameIngress (if s.awaits p then s.endCtx p else s)
    split <;> exact ⟨rfl, rfl⟩
  split <;> exact hs1

theorem State.sameIngress_markPoison (s : State) (pa n : Nat) (bad : Bool) (hpa : region pa ≠ .bedrock) :
    s.SameIngress (s.markPoison pa n bad) := by
  unfold State.markPoison
  split
  · next hb => exact absurd hb hpa
  · exact ⟨rfl, rfl⟩

/-- A write outside the Bedrock window makes no persist unit and poisons no atom (R399, R409). -/
theorem State.sameIngress_putBytes (s : State) (a : Agent) (pa : Nat) (l : List Byte) (bad : Bool)
    (hpa : region pa ≠ .bedrock) : s.SameIngress (s.putBytes a pa l bad) := by
  unfold State.putBytes
  extract_lets s1 s2 s3
  have h1 : s.SameIngress s1 := s.sameIngress_noteStale a pa l.length
  have h2 : s1.SameIngress s2 := ⟨rfl, rfl⟩
  have h3 : s2.SameIngress s3 := (s2.sameIngress_noteTables s _).trans (State.sameIngress_markPoison _ pa l.length bad hpa)
  split
  · next hb => exact absurd hb hpa
  · exact (h1.trans h2).trans h3

/-! ## The streams after a write -/

/-- The hart with the old bytes of the executing stream as `t` has them: all that a write changes but the waits that it ends. -/
def State.hartStale (s t : State) : Hart := (s.setSt { s.st with stale := t.st.stale }).hart

theorem State.Stored.hart_eq {s t : State} (h : s.Stored t) :
    t.hart = { s.hartStale t with main := t.hart.main, feed := t.hart.feed } := by
  refine h.hart.trans ?_
  unfold State.hartStale State.setSt
  split <;> rfl

theorem State.Stored.main_eq {s t : State} (h : s.Stored t) :
    t.hart.main = { (s.hartStale t).main with tlw := t.hart.main.tlw } := by
  have hf := h.onFeeder
  refine h.main.trans ?_
  by_cases hs : s.onFeeder = true <;> simp [State.hartStale, State.setSt, State.st, hf, hs]

theorem State.Stored.feed_eq {s t : State} (h : s.Stored t) :
    t.hart.feed = { (s.hartStale t).feed with tlw := t.hart.feed.tlw } := by
  have hf := h.onFeeder
  refine h.feed.trans ?_
  by_cases hs : s.onFeeder = true <;> simp [State.hartStale, State.setSt, State.st, hf, hs]

/-- Where nothing waits for a context, the write changes nothing else of the hart. -/
theorem State.Stored.hart_eq_of_still {s t : State} (h : s.Stored t) (hw : s.SameWaits t) : t.hart = s.hartStale t := by
  obtain ⟨hmain, hfeed, _⟩ := hw
  have hstale : (s.hartStale t).main.tlw = s.hart.main.tlw ∧ (s.hartStale t).feed.tlw = s.hart.feed.tlw := by
    by_cases hs : s.onFeeder = true <;> simp [State.hartStale, State.setSt, State.st, hs]
  rw [h.hart_eq, h.main_eq, h.feed_eq, hmain, hfeed, ← hstale.1, ← hstale.2]

/-- Settles O9: the bytes by what a run of writes leaves at each address, the rest by following what each part of a write may
change. -/
theorem memoryReadsAndWrites : Obligations.MemoryReadsAndWrites := by
  unfold Obligations.MemoryReadsAndWrites
  refine ⟨fun s a x size l bad hx => ?bytes, fun s a x l bad hx => ?frame⟩
  case bytes =>
    exact ⟨s.fetchValue_memory a x size hx, s.perform_byte a x l bad hx, fun hcls =>
      ⟨s.perform_byte_outside_replicas a x l bad hx hcls, fun hl => s.perform_replica a x l bad hx hcls hl⟩⟩
  case frame =>
    have h := s.stored_perform a x l bad hx
    refine ⟨h.frame, h.ops, h.hart_eq, h.main_eq, h.feed_eq, fun hw => ?still, fun hpa hcls => ?ingress⟩
    case still =>
      have hsame := h.still hw
      have ⟨_, _, hothers, hqueues, hdispatchers⟩ := hsame
      exact ⟨h.hart_eq_of_still hsame, hothers, hqueues, hdispatchers⟩
    case ingress =>
      rw [s.perform_memory a x l bad hx, s.writeAt_single a x hcls]
      exact s.sameIngress_putBytes a x.pa l bad hpa

end Sys2Proof.Machine
end
